-- ==== Sys2Proof/Word.lean ====
section
/-! DEFINITION. The word types of the BY-2800 and the sparse tables that the state is built from. -/

namespace Sys2Proof

/-- A 64-bit scalar register, address or control register (R86). -/
abbrev Word := BitVec 64

/-- A byte of memory. -/
abbrev Byte := BitVec 8

/-- An FP32 code (R58). -/
abbrev F32 := BitVec 32

/-- A table keyed by number in which an absent key stands for a default that the reader names. -/
abbrev SMap (α : Type) := List (Nat × α)

/-- The entry at key `k`, or the default `d`. -/
def smGet {α : Type} : SMap α → Nat → α → α
  | [], _, d => d
  | (j, v) :: rest, k, d => if j = k then v else smGet rest k d

/-- The table with key `k` holding `v`; the keys stay in rising order. -/
def smSet {α : Type} : SMap α → Nat → α → SMap α
  | [], k, v => [(k, v)]
  | (j, w) :: rest, k, v =>
    if j = k then (k, v) :: rest
    else if k < j then (k, v) :: (j, w) :: rest
    else (j, w) :: smSet rest k v

/-- The table without key `k`. -/
def smErase {α : Type} (m : SMap α) (k : Nat) : SMap α := m.filter fun e => e.1 != k

/-- Whether key `k` is present. -/
def smHas {α : Type} (m : SMap α) (k : Nat) : Bool := m.any (fun e => e.1 == k)

/-- The keys of a table. -/
def smKeys {α : Type} (m : SMap α) : List Nat := m.map (·.1)

end Sys2Proof
end

