-- ==== Sys2Proof/Syntax.lean ====
section
/-! DEFINITION. The operations of the BY-2800: one constructor of `Instr` per row of spec/opcode_table.json.
Encoded instructions carry their operand fields (registers as numbers, immediates as signed integers, type
selectors as names); rows without an encoding are the events of the device, with the unit they strike. -/

namespace Sys2Proof

/-- T8 type codes (R124), in code order. -/
inductive T8 | i8 | i16 | i32 | i64 | n8 | n16 | n32 | n64
  deriving DecidableEq, Repr

/-- F type codes of vector instructions (R124). -/
inductive FTy | f16 | bf16 | f32
  deriving DecidableEq, Repr

/-- Formats of scalar FP instructions (R120), in code order. -/
inductive SFmt | f64 | f32 | f16 | bf16
  deriving DecidableEq, Repr

/-- Integer types of scalar conversions (R122), in code order. -/
inductive CvtInt | i64 | n64 | i32 | n32
  deriving DecidableEq, Repr

/-- Types of scalar loads (R189), in code order. -/
inductive LdTy | i8 | i16 | i32 | i64 | n8 | n16 | n32
  deriving DecidableEq, Repr

/-- Widths of scalar stores (R189), in code order: 1, 2, 4 and 8 bytes. -/
inductive StTy | b1 | b2 | b4 | b8
  deriving DecidableEq, Repr

/-- Widths of FP loads and stores (R190), in code order: 2, 4 and 8 bytes. -/
inductive FpW | w2 | w4 | w8
  deriving DecidableEq, Repr

/-- Formats of `fadd.x` and `xacc.rd` (R195, R196): F codes 1 and 2. -/
inductive XTy | bf16 | f32
  deriving DecidableEq, Repr

/-- Format pairs of `vcvt` (R132): function pairs 0x00/0x01 to 0x1A/0x1B. -/
inductive CvtPair
  | f16F32 | bf16F32 | e4m3F32 | e5m2F32 | e2m1F32 | lg6F32 | e4m3F16 | e5m2F16 | e4m3Bf16
  | i32F32 | n32F32 | i16F32 | i8F32 | n8F32
  deriving DecidableEq, Repr

/-- Format pairs of dense products (R154). -/
inductive MmaPair
  | f32F32 | bf16Bf16 | f16F16 | e4m3E4m3 | e4m3E5m2 | e5m2E4m3 | e5m2E5m2
  | fb8Fb8 | fb8Fb4 | fb4Fb8 | fb4Fb4 | lg6Lg6 | bf16E4m3 | bf16Fb4
  deriving DecidableEq, Repr

/-- Format pairs of sparse products (R155). -/
inductive SpPair | bf16Bf16 | f16F16 | e4m3E4m3 | e4m3E5m2 | e5m2E4m3 | e5m2E5m2
  deriving DecidableEq, Repr

/-- Drain formats (R156), in code order. -/
inductive DrainFmt | f32 | bf16 | f16 | e4m3 | e5m2 | fb8 | fb4
  deriving DecidableEq, Repr

/-- Engines by id 0 to 5 (R48). -/
inductive Eng | copy | coll | queue | text | apx | catchUnit
  deriving DecidableEq, Repr

/-- Clamps of the modifier prefix (R49), in code order. -/
inductive Clamp | none | unit | sym | pos
  deriving DecidableEq, Repr

/-- The fields of a modifier prefix (R49). -/
structure Prefix where
  sat   : Bool
  clamp : Clamp
  neg   : Bool
  abs   : Bool
  sc    : Int
  deriving DecidableEq, Repr

/-- How a control-register write forms its value (R114): `syswr`, `sysset` or `sysclr`. -/
inductive WrKind | wr | set | clr
  deriving DecidableEq, Repr

/-- The operations of the integer atomics (R191, R193); `sadd` reaches its home as an `add` (R194). -/
inductive AmoFn | swap | add | and | or | xor | min | max | cas | nib
  deriving DecidableEq, Repr

/-- An atomic as it reaches its home: its operation, its type, its operand and, for `cas`, the expected value (R191). -/
structure ExtAtomic where
  fn : AmoFn
  ty : T8
  b  : Word
  e  : Word
  deriving DecidableEq, Repr

/-- An access that arrives from outside the partitions' own cores (R223, R405): a read, a write, or another device's atomic (R191). -/
structure ExtAccess where
  pa    : Nat
  width : Nat
  write : Bool
  data  : List Byte
  atomic : Option ExtAtomic := none
  deriving DecidableEq, Repr

/-- The arguments of the management command CREATE (R410, R285). -/
structure CreateArgs where
  partid  : Nat
  col     : Nat
  row     : Nat
  width   : Nat
  height  : Nat
  asidBase  : Nat
  asidCount : Nat
  qos     : Nat
  rvec    : Word
  ptroot  : Word
  granted : List Nat
  deriving DecidableEq, Repr

/-- The operations of the BY-2800: first the events, then the encoded instructions. Register operands are numbers; `p c` is the
governing predicate with its complement bit; `o` is the ordered bit of a command; `m` chooses the vector-scalar form. -/
inductive Instr
  -- the vector unit and the matrix engine at work (R25, R26, R123, R151)
  | laneGroupBinding (cl : Nat) | vectorCompletion (cl lane : Nat)
  | matrixEngineBinding (cl : Nat) | matrixCompletion (cl k : Nat)
  -- events of the catch unit and the text engine
  | cmemFault (c m : Nat) | patienceExpiry (c : Nat) | catchCommit (c : Nat) | textFollow (k : Nat)
  -- events of the engines
  | engineCommandBegin (core e ticket : Nat) | engineCommandCompletion (core e ticket : Nat)
  | collectiveAbort (core ticket : Nat) | migrationSwitch (k : Nat) | migrationCompletion (k : Nat)
  | completionHandlerEntry (core ctx : Nat) | tnoteWrite (w : WrKind) (d a : Nat)
  -- traps and budgets
  | asyncTrapEntry (core ctx : Nat) | helperCauseTaken (core ctx : Nat)
  | budgetExpiry (core g : Nat) | budgetWrite (w : WrKind) (d a : Nat) | modeWrite (w : WrKind) (d a : Nat)
  -- the queue controller
  | sliceSelection (core : Nat) | zeroSliceLaunch (part q : Nat) | sliceReexecution (core g : Nat)
  | pairedRequestMatch (k : Nat) | pairTimeout (k : Nat)
  | qtabEnable (w : WrKind) (d a : Nat) | qtabDisable (w : WrKind) (d a : Nat) | descriptorWriteback (part q : Nat)
  -- control-register writes with an effect of their own
  | lmsplitWrite (w : WrKind) (d a : Nat) | tshWrite (w : WrKind) (n d a : Nat) | rnscfgWrite (w : WrKind) (d a : Nat)
  | axctlWrite (w : WrKind) (k d a : Nat) | watchRegisterWrite (w : WrKind) (n d a : Nat)
  | ptrootWrite (w : WrKind) (d a : Nat) | tinvPage (w : WrKind) (d a : Nat) | tinvAsid (w : WrKind) (d a : Nat)
  | tinvPartition (w : WrKind) (d a : Nat) | hintWrite (w : WrKind) (d a : Nat) | prstGo (w : WrKind) (d a : Nat)
  -- resets, the bell, rollback and the gang switch
  | partitionReset (part : Nat) | functionLevelReset (part : Nat)
  | bellRing (w : WrKind) (d a : Nat) | bellStop (part : Nat) | stepctlRoll (w : WrKind) (d a : Nat)
  | rollback (part : Nat)
  | preemptWrite (w : WrKind) (d a : Nat) | preemptExpiry (part : Nat) | gangSwitch (part : Nat)
  | uncorrectableCoreError (core k : Nat) | hbmPageRetirement (page : Nat) (corrected : Bool)
  | heatCounterIncrement (page : Nat)
  -- the watchdog and time-outs
  | wdogWrite (w : WrKind) (d a : Nat) | watchdogExpiry (part : Nat) | topeerWrite (w : WrKind) (d a : Nat)
  | linkTimeout (part link : Nat) | groupTimeout (part g : Nat) | peerTimeout (part dev : Nat) | linkRetrain (link : Nat)
  -- accesses from outside, and the host's queues
  | remoteAccess (dev : Nat) (x : ExtAccess) | hostAccess (x : ExtAccess)
  | qcfgWrite (part q reg v : Nat) | sqdbWrite (part q v : Nat) | cqdbWrite (part q v : Nat)
  | nop (part q : Nat) | launch (part q : Nat) | publish (part q : Nat) | signal (part q : Nat)
  | hostCompletionWrite (part q : Nat)
  -- management commands
  | create (x : CreateArgs) | destroy (part : Nat) | switch (part area : Nat) | resume (area col row : Nat)
  | bell (part : Nat) | continue (part : Nat) | groups (table : List Nat)
  -- the package
  | freeze | garfyReadout (pa n : Nat) | firmwareImageWrite (image : Nat) | thermalTrip (die : Nat) | powerLoss | bringUp
  | illegalInstruction (w : Nat) | queuedMemoryCompletion (core : Nat) | expanderLinkDown (e : Nat) | deviceReset
  | hbmCorrectedError (page row : Nat)
  -- integer register operations (R100, R101)
  | add (d a b : Nat) | sub (d a b : Nat) | and (d a b : Nat) | or (d a b : Nat) | xor (d a b : Nat)
  | andn (d a b : Nat) | sll (d a b : Nat) | srl (d a b : Nat) | sra (d a b : Nat) | rol (d a b : Nat)
  | slt (d a b : Nat) | sltn (d a b : Nat) | seq (d a b : Nat) | sne (d a b : Nat)
  | min (d a b : Nat) | max (d a b : Nat) | minn (d a b : Nat) | maxn (d a b : Nat)
  | mul (d a b : Nat) | mulh (d a b : Nat) | mulhn (d a b : Nat)
  | div (d a b : Nat) | divn (d a b : Nat) | rem (d a b : Nat) | remn (d a b : Nat)
  | clz (d a : Nat) | ctz (d a : Nat) | popc (d a : Nat) | bswap (d a : Nat)
  | sextI8 (d a : Nat) | sextI16 (d a : Nat) | sextI32 (d a : Nat)
  | zextN8 (d a : Nat) | zextN16 (d a : Nat) | zextN32 (d a : Nat)
  -- immediates (R102, R103)
  | addi (d a : Nat) (i : Int) | andi (d a : Nat) (i : Int) | ori (d a : Nat) (i : Int) | xori (d a : Nat) (i : Int)
  | slti (d a : Nat) (i : Int) | sltni (d a : Nat) (i : Int) | seqi (d a : Nat) (i : Int)
  | slli (d a s : Nat) | srli (d a s : Nat) | srai (d a s : Nat)
  | lih (d : Nat) (i : Int) | adrp (d : Nat) (i : Int)
  -- branches and jumps (R104, R105)
  | beq (a b : Nat) (o : Int) | bne (a b : Nat) (o : Int) | blt (a b : Nat) (o : Int)
  | bge (a b : Nat) (o : Int) | bltn (a b : Nat) (o : Int) | bgen (a b : Nat) (o : Int)
  | j (o : Int) | jl (o : Int) | jlr (d a : Nat) (i : Int)
  -- contexts, groups, supersteps (R106 to R113)
  | hstart (d a b : Nat) | hstartN (d a b : Nat) | hexit
  | gjoin (g : Nat) | gleave (g : Nat) | gbar (g b x : Nat)
  | sstep | svote (d a : Nat) | sexit (a : Nat)
  -- system (R114 to R119)
  | sysrd (d c : Nat) | syswr (d a c : Nat) | sysset (d a c : Nat) | sysclr (d a c : Nat)
  | tret | uret | svc (i : Nat) | brk (i : Nat) | yield
  -- scalar floating point (R120 to R122)
  | fadd (d a b : Nat) (f : SFmt) | fsub (d a b : Nat) (f : SFmt) | fmul (d a b : Nat) (f : SFmt)
  | fdiv (d a b : Nat) (f : SFmt) | fsqrt (d a : Nat) (f : SFmt)
  | fmin (d a b : Nat) (f : SFmt) | fmax (d a b : Nat) (f : SFmt)
  | fmac (d a b : Nat) (f : SFmt) | fnmac (d a b : Nat) (f : SFmt)
  | fneg (d a : Nat) (f : SFmt) | fabs (d a : Nat) (f : SFmt)
  | feq (d a b : Nat) (f : SFmt) | flt (d a b : Nat) (f : SFmt) | fle (d a b : Nat) (f : SFmt)
  | fcvtFpToInt (d a : Nat) (t : CvtInt) (f : SFmt)
  | fcvtIntToFp (d a : Nat) (t : CvtInt) (f : SFmt)
  | fcvtFpToFp (d a : Nat) (s f : SFmt)
  | fmvx (d a : Nat) | fmvf (d a : Nat)
  -- scalar memory (R189 to R200, R203 to R205)
  | ld (d a : Nat) (s : LdTy) (i : Int) | st (b a : Nat) (s : StTy) (i : Int)
  | fld (d a : Nat) (s : FpW) (i : Int) | fst (b a : Nat) (s : FpW) (i : Int)
  | amoSwap (d a b : Nat) (t : T8) | amoAdd (d a b : Nat) (t : T8) | amoAnd (d a b : Nat) (t : T8)
  | amoOr (d a b : Nat) (t : T8) | amoXor (d a b : Nat) (t : T8) | amoMin (d a b : Nat) (t : T8)
  | amoMax (d a b : Nat) (t : T8) | amoCas (d a b : Nat) (t : T8)
  | amoNib (d a b : Nat)
  | amoSadd0 (d a b : Nat) (t : Bool) | amoSadd1 (d a b : Nat) (t : Bool)
  | amoSadd2 (d a b : Nat) (t : Bool) | amoSadd3 (d a b : Nat) (t : Bool)
  | faddX (a b : Nat) (t : XTy) | xaccRd (d a : Nat) (t : XTy)
  | ldTake (d a : Nat) (s : LdTy) (i : Int) | stFill (x a n : Nat) | rcClose (b a : Nat)
  | fence (s : Nat) | fenceRel (s : Nat) | fenceAcq (s : Nat)
  | lcClean (a b : Nat) | lcInv (a b : Nat) | lcFlush (a b : Nat) | l2Evict (d a b : Nat)
  -- vector memory (R201, R202)
  | vld (d a p : Nat) (c : Bool) | vst (d a p : Nat) (c : Bool)
  | vgather (d v b p : Nat) (c w : Bool) | vscatter (d v b p : Nat) (c w : Bool)
  | vtake (d a : Nat) | vfill (d a b : Nat) | vlds (d a : Nat) | vsts (d a : Nat)
  -- the modifier prefix and its word (R49, R50)
  | prefixed (q : Prefix) (i : Instr)
  -- vector arithmetic (R126)
  | vaddInt (m : Bool) (d a b p : Nat) (c : Bool) (t : T8) | vsubInt (m : Bool) (d a b p : Nat) (c : Bool) (t : T8)
  | vmulInt (m : Bool) (d a b p : Nat) (c : Bool) (t : T8) | vmulh (m : Bool) (d a b p : Nat) (c : Bool) (t : T8)
  | vminInt (m : Bool) (d a b p : Nat) (c : Bool) (t : T8) | vmaxInt (m : Bool) (d a b p : Nat) (c : Bool) (t : T8)
  | vshl (m : Bool) (d a b p : Nat) (c : Bool) (t : T8) | vshr (m : Bool) (d a b p : Nat) (c : Bool) (t : T8)
  | vand (m : Bool) (d a b p : Nat) (c : Bool) | vor (m : Bool) (d a b p : Nat) (c : Bool)
  | vxor (m : Bool) (d a b p : Nat) (c : Bool) | vandn (m : Bool) (d a b p : Nat) (c : Bool)
  | vsel (m : Bool) (d a b p : Nat) (c : Bool)
  | vaddFp (m : Bool) (d a b p : Nat) (c : Bool) (t : FTy) | vsubFp (m : Bool) (d a b p : Nat) (c : Bool) (t : FTy)
  | vmulFp (m : Bool) (d a b p : Nat) (c : Bool) (t : FTy) | vfma (m : Bool) (d a b p : Nat) (c : Bool) (t : FTy)
  | vfnma (m : Bool) (d a b p : Nat) (c : Bool) (t : FTy) | vminFp (m : Bool) (d a b p : Nat) (c : Bool) (t : FTy)
  | vmaxFp (m : Bool) (d a b p : Nat) (c : Bool) (t : FTy)
  | vabs (d a p : Nat) (c : Bool) (t : FTy) | vneg (d a p : Nat) (c : Bool) (t : FTy)
  -- compares and predicates (R127, R128)
  | vceqInt (d a b p : Nat) (c : Bool) (t : T8) | vcneInt (d a b p : Nat) (c : Bool) (t : T8)
  | vcltInt (d a b p : Nat) (c : Bool) (t : T8) | vcleInt (d a b p : Nat) (c : Bool) (t : T8)
  | vceqFp (d a b p : Nat) (c : Bool) (t : FTy) | vcneFp (d a b p : Nat) (c : Bool) (t : FTy)
  | vcltFp (d a b p : Nat) (c : Bool) (t : FTy) | vcleFp (d a b p : Nat) (c : Bool) (t : FTy)
  | vcun (d a b p : Nat) (c : Bool) (t : FTy)
  | pand (d a b p : Nat) (c : Bool) | por (d a b p : Nat) (c : Bool) | pxor (d a b p : Nat) (c : Bool)
  | pandn (d a b p : Nat) (c : Bool) | pnot (d a p : Nat) (c : Bool)
  | pcnt (d a p : Nat) (c : Bool) | pffs (d a p : Nat) (c : Bool) | pmask (d a p : Nat) (c : Bool)
  -- permute and reduce (R129, R130)
  | vperm (d a b p : Nat) (c : Bool) (t : T8) | vcompress (d a p : Nat) (c : Bool) (t : T8)
  | vexpand (d a p : Nat) (c : Bool) (t : T8)
  | vredsumInt (d a p : Nat) (c : Bool) (t : T8) | vredminInt (d a p : Nat) (c : Bool) (t : T8)
  | vredmaxInt (d a p : Nat) (c : Bool) (t : T8) | vargmaxInt (d a p : Nat) (c : Bool) (t : T8)
  | vargminInt (d a p : Nat) (c : Bool) (t : T8)
  | vredsumFp (d a p : Nat) (c : Bool) (t : FTy) | vredminFp (d a p : Nat) (c : Bool) (t : FTy)
  | vredmaxFp (d a p : Nat) (c : Bool) (t : FTy) | vargmaxFp (d a p : Nat) (c : Bool) (t : FTy)
  | vargminFp (d a p : Nat) (c : Bool) (t : FTy)
  -- conversions and block formats (R131 to R135)
  | vcvt (d a p : Nat) (c : Bool) (k : CvtPair) (up : Bool)
  | vcvtFb (d a : Nat) (fb4 up : Bool) | vmxcvt (d a : Nat) (up : Bool)
  | vaddFb (d a b : Nat) (fb4 : Bool) | vsubFb (d a b : Nat) (fb4 : Bool) | vmulFb (d a b : Nat) (fb4 : Bool)
  | vmulLg6 (d a b p : Nat) (c : Bool)
  -- special functions (R136, R137)
  | vrcp (d a p : Nat) (c : Bool) | vrsq (d a p : Nat) (c : Bool)
  | vrcps (d a b p : Nat) (c : Bool) | vrsqs (d a b p : Nat) (c : Bool)
  | vexp2 (d a p : Nat) (c : Bool) | vlog2 (d a p : Nat) (c : Bool)
  -- vector control (R138 to R141)
  | vdupInt (d b p : Nat) (c : Bool) (t : T8) | vdupFp (d b p : Nat) (c : Bool) (t : FTy)
  | vrep (b : Nat) | vbusy (d : Nat) | vfence
  -- tiles (R146 to R149)
  | tcfg (t a : Nat) | tzero (t : Nat)
  | tld (t a b : Nat) | tst (t a b : Nat) | ttake (t a : Nat) | tfill (t a b : Nat)
  | tlds (t a : Nat) | tsts (t a : Nat)
  | tmvr (t v b : Nat) | tmvc (t v b : Nat) | tgetr (d t b : Nat) | tgetc (d t b : Nat)
  -- matrix and accumulators (R150 to R162)
  | tmma (c a b v s : Nat) (n : MmaPair) | tmmaSp (c a b v s : Nat) (n : SpPair)
  | adrain (c t v : Nat) (z : Bool) (f : DrainFmt)
  | aclear (c v : Nat) | aclearRns (c v : Nat) | aclaim (c : Nat) | afree (c : Nat) | astat (c v : Nat)
  | tmmaI8I8 (c a b v : Nat) | tmmaRnsRns (c a b v : Nat)
  | adrainRns (c t v : Nat) (q : Bool) | adrainRnsW (c t u v : Nat) (q : Bool)
  | rnsfwd (d a p : Nat) (c : Bool) | rnsrev (d a p : Nat) (c : Bool) | rnsrevSt (d a p : Nat) (c : Bool)
  | rnsstat (d a : Nat)
  -- engine commands (R253 to R268)
  | esetCopy (k a : Nat) | esetColl (k a : Nat) | esetText (k a : Nat)
  | ecopy (d a b : Nat) (o : Bool) | egather (d a b : Nat) (o : Bool) | escatter (d a b : Nat) (o : Bool)
  | ecopy2d (d a b : Nat) (o : Bool) | ecfill (d a b : Nat) (o : Bool) | emigrate (d a b : Nat) (o : Bool)
  | callred (d a b : Nat) (o : Bool) | callgat (d a b : Nat) (o : Bool) | credsc (d a b : Nat) (o : Bool)
  | cbcast (d a b : Nat) (o : Bool) | cabort (d a : Nat) (o : Bool)
  | qpub (d a b : Nat) (o : Bool) | qclaim (d a b : Nat) (o : Bool) | qlaunch (d a b : Nat) (o : Bool)
  | qsignal (d a : Nat) (o : Bool)
  | xbind (d a b : Nat) (o : Bool) | xfollow (d a b : Nat) (o : Bool) | xtok (d a b : Nat) (o : Bool)
  | xdetok (d a b : Nat) (o : Bool) | xmask (d a b : Nat) (o : Bool)
  | twait (e : Eng) (a : Nat) | tget (e : Eng) (d : Nat) | tgetE (e : Eng) (d : Nat) | tgetA (e : Eng) (d : Nat)
  | tnote (e : Eng) (a : Nat)
  -- the apprentice (R375 to R377)
  | apxBegin (d a b : Nat) | apxEnd (d a : Nat) | apxCfg (d a b : Nat) | apxInv (d a : Nat) | apxStat (d a : Nat)
  | apxLoad (d a b : Nat) (o : Bool) | apxSave (d a b : Nat) (o : Bool)
  -- committees (R327 to R331)
  | ccfg (d a b : Nat) (o : Bool) | crejoin (d a : Nat) (o : Bool)
  | cmrd (d a : Nat) | cmwr (d a b : Nat)
  | cstat (d : Nat) | catch (d a b : Nat) | catchNv (d a b : Nat)
  -- combining (R339 to R348)
  | cwait (d a b : Nat) | nmax (d a b : Nat) | nsum (d a b : Nat) | nsumMax (d a b : Nat) | catchK (d a b : Nat)
  | ccomb (d a b p : Nat) (c : Bool) | gnoise (d a b p : Nat) (c : Bool) | gnoiseU (d b p : Nat) (c : Bool)
  deriving DecidableEq, Repr

end Sys2Proof
end

