-- ==== Sys2Proof/WellFormed.lean ====
section
/-! DEFINITION. Well-formed instructions: every operand within what its field can hold and R45, R47 and R50 allow. The
events' operands are within the units that a BY-2800 has (R10, R12, R16, R18, R30). -/

namespace Sys2Proof

/-- Whether a prefix's modifiers are all honoured by an instruction that takes a prefix (R50, R126, R132 to R136, R156). -/
def takesPrefix (q : Prefix) : Instr → Bool
  | .vaddInt .. | .vsubInt .. | .vmulInt .. => true
  | .vaddFp .. | .vsubFp .. | .vmulFp .. | .vfma .. | .vfnma .. => true
  | .vcvt .. | .vexp2 .. | .vlog2 .. | .adrain .. => true
  | .vcvtFb .. | .vmxcvt .. => !q.sat
  | .vaddFb .. | .vsubFb .. | .vmulFb .. => !q.sat && q.clamp == .none
  | .vmulLg6 .. => !q.sat && q.clamp == .none && q.sc == 0
  | _ => false

/-- A register number of five bits. -/
def r5 (n : Nat) : Bool := n < 32
/-- A number of three bits: a predicate, tile, barrier or scope code. -/
def r3 (n : Nat) : Bool := n < 8
/-- A slot name (R45). -/
def rAcc (n : Nat) : Bool := n < 4
/-- A governing predicate: not the complement of p0 (R47). -/
def rPred (p : Nat) (c : Bool) : Bool := p < 8 && !(p == 0 && c)
/-- A signed immediate of `n` bits. -/
def rImm (n : Nat) (i : Int) : Bool := -(2 ^ (n - 1)) ≤ i && i < 2 ^ (n - 1)
/-- A core number (R10). -/
def rCore (n : Nat) : Bool := n < 1024
/-- A cluster number (R10). -/
def rCluster (n : Nat) : Bool := n < 256
/-- A partition number (R30). -/
def rPart (n : Nat) : Bool := n < 64
/-- The scale of a prefix (R49). -/
def Prefix.wf (q : Prefix) : Bool := -32 ≤ q.sc && q.sc < 32

/-- An instruction or event whose operands are all ones that exist. -/
def Instr.wf : Instr → Bool
  | .laneGroupBinding cl => rCluster cl
  | .vectorCompletion cl lane => rCluster cl && decide (lane < 4)
  | .matrixEngineBinding cl => rCluster cl
  | .matrixCompletion cl _ => rCluster cl
  | .cmemFault c m => decide (c < 8) && decide (m < 8)
  | .patienceExpiry c => decide (c < 8)
  | .catchCommit c => decide (c < 8)
  | .textFollow k => decide (k < 32)
  | .engineCommandBegin core e _ => rCore core && decide (e < 6)
  | .engineCommandCompletion core e _ => rCore core && decide (e < 6)
  | .collectiveAbort core _ => rCore core
  | .migrationSwitch _ => true
  | .migrationCompletion _ => true
  | .completionHandlerEntry core ctx => rCore core && decide (ctx < 11)
  | .tnoteWrite _ d a => r5 d && r5 a
  | .asyncTrapEntry core ctx => rCore core && decide (ctx < 11)
  | .helperCauseTaken core ctx => rCore core && decide (1 ≤ ctx) && decide (ctx < 11)
  | .budgetExpiry core _ => rCore core
  | .budgetWrite _ d a => r5 d && r5 a
  | .modeWrite _ d a => r5 d && r5 a
  | .sliceSelection core => rCore core
  | .zeroSliceLaunch part _ => rPart part
  | .sliceReexecution core _ => rCore core
  | .pairedRequestMatch _ => true
  | .pairTimeout _ => true
  | .qtabEnable _ d a => r5 d && r5 a
  | .qtabDisable _ d a => r5 d && r5 a
  | .descriptorWriteback part _ => rPart part
  | .lmsplitWrite _ d a => r5 d && r5 a
  | .tshWrite _ n d a => r3 n && r5 d && r5 a
  | .rnscfgWrite _ d a => r5 d && r5 a
  | .axctlWrite _ k d a => decide (k < 4) && r5 d && r5 a
  | .watchRegisterWrite _ n d a => r3 n && r5 d && r5 a
  | .ptrootWrite _ d a => r5 d && r5 a
  | .tinvPage _ d a => r5 d && r5 a
  | .tinvAsid _ d a => r5 d && r5 a
  | .tinvPartition _ d a => r5 d && r5 a
  | .hintWrite _ d a => r5 d && r5 a
  | .prstGo _ d a => r5 d && r5 a
  | .partitionReset part => rPart part
  | .functionLevelReset part => rPart part
  | .bellRing _ d a => r5 d && r5 a
  | .bellStop part => rPart part
  | .stepctlRoll _ d a => r5 d && r5 a
  | .rollback part => rPart part
  | .preemptWrite _ d a => r5 d && r5 a
  | .preemptExpiry part => rPart part
  | .gangSwitch part => rPart part
  | .uncorrectableCoreError core k => rCore core && (decide (k < 13) || (decide (16 ≤ k) && decide (k < 32 + 2 ^ 45)))
  | .hbmPageRetirement page _ => decide (page < 2 ^ 36)
  | .heatCounterIncrement page => decide (page < 2 ^ 36)
  | .wdogWrite _ d a => r5 d && r5 a
  | .watchdogExpiry part => rPart part
  | .topeerWrite _ d a => r5 d && r5 a
  | .linkTimeout part link => rPart part && decide (link < 16)
  | .groupTimeout part _ => rPart part
  | .peerTimeout part dev => rPart part && decide (dev < 64)
  | .linkRetrain link => decide (link < 16)
  | .remoteAccess dev x => decide (dev < 64) && decide (x.pa < 2 ^ 52)
  | .hostAccess x => decide (x.pa < 2 ^ 52)
  | .qcfgWrite part q reg v => rPart part && decide (q < 8) && decide (reg < 3) && decide (v < 2 ^ 64)
  | .sqdbWrite part q v => rPart part && decide (q < 8) && decide (v < 2 ^ 32)
  | .cqdbWrite part q v => rPart part && decide (q < 8) && decide (v < 2 ^ 32)
  | .nop part q => rPart part && decide (q < 8)
  | .launch part q => rPart part && decide (q < 8)
  | .publish part q => rPart part && decide (q < 8)
  | .signal part q => rPart part && decide (q < 8)
  | .hostCompletionWrite part q => rPart part && decide (q < 8)
  | .create x => rPart x.partid
  | .destroy part => rPart part
  | .switch part _ => rPart part
  | .resume _ col row => decide (col < 16) && decide (row < 16)
  | .bell part => rPart part
  | .continue part => rPart part
  | .groups _ => true
  | .freeze => true
  | .garfyReadout _ _ => true
  | .firmwareImageWrite _ => true
  | .thermalTrip die => decide (die < 4)
  | .powerLoss => true
  | .bringUp => true
  | .illegalInstruction w => decide (w < 2 ^ 32)
  | .queuedMemoryCompletion core => rCore core
  | .expanderLinkDown e => decide (e < 4)
  | .deviceReset => true
  | .hbmCorrectedError page row => decide (page < 2 ^ 23) && decide (row < 65536)
  | .add d a b => r5 d && r5 a && r5 b
  | .sub d a b => r5 d && r5 a && r5 b
  | .and d a b => r5 d && r5 a && r5 b
  | .or d a b => r5 d && r5 a && r5 b
  | .xor d a b => r5 d && r5 a && r5 b
  | .andn d a b => r5 d && r5 a && r5 b
  | .sll d a b => r5 d && r5 a && r5 b
  | .srl d a b => r5 d && r5 a && r5 b
  | .sra d a b => r5 d && r5 a && r5 b
  | .rol d a b => r5 d && r5 a && r5 b
  | .slt d a b => r5 d && r5 a && r5 b
  | .sltn d a b => r5 d && r5 a && r5 b
  | .seq d a b => r5 d && r5 a && r5 b
  | .sne d a b => r5 d && r5 a && r5 b
  | .min d a b => r5 d && r5 a && r5 b
  | .max d a b => r5 d && r5 a && r5 b
  | .minn d a b => r5 d && r5 a && r5 b
  | .maxn d a b => r5 d && r5 a && r5 b
  | .mul d a b => r5 d && r5 a && r5 b
  | .mulh d a b => r5 d && r5 a && r5 b
  | .mulhn d a b => r5 d && r5 a && r5 b
  | .div d a b => r5 d && r5 a && r5 b
  | .divn d a b => r5 d && r5 a && r5 b
  | .rem d a b => r5 d && r5 a && r5 b
  | .remn d a b => r5 d && r5 a && r5 b
  | .clz d a => r5 d && r5 a
  | .ctz d a => r5 d && r5 a
  | .popc d a => r5 d && r5 a
  | .bswap d a => r5 d && r5 a
  | .sextI8 d a => r5 d && r5 a
  | .sextI16 d a => r5 d && r5 a
  | .sextI32 d a => r5 d && r5 a
  | .zextN8 d a => r5 d && r5 a
  | .zextN16 d a => r5 d && r5 a
  | .zextN32 d a => r5 d && r5 a
  | .addi d a i => r5 d && r5 a && rImm 12 i
  | .andi d a i => r5 d && r5 a && rImm 12 i
  | .ori d a i => r5 d && r5 a && rImm 12 i
  | .xori d a i => r5 d && r5 a && rImm 12 i
  | .slti d a i => r5 d && r5 a && rImm 12 i
  | .sltni d a i => r5 d && r5 a && rImm 12 i
  | .seqi d a i => r5 d && r5 a && rImm 12 i
  | .slli d a s => r5 d && r5 a && decide (s < 2 ^ 6)
  | .srli d a s => r5 d && r5 a && decide (s < 2 ^ 6)
  | .srai d a s => r5 d && r5 a && decide (s < 2 ^ 6)
  | .lih d i => r5 d && rImm 21 i
  | .adrp d i => r5 d && rImm 21 i
  | .beq a b o => r5 a && r5 b && rImm 16 o
  | .bne a b o => r5 a && r5 b && rImm 16 o
  | .blt a b o => r5 a && r5 b && rImm 16 o
  | .bge a b o => r5 a && r5 b && rImm 16 o
  | .bltn a b o => r5 a && r5 b && rImm 16 o
  | .bgen a b o => r5 a && r5 b && rImm 16 o
  | .j o => rImm 26 o
  | .jl o => rImm 26 o
  | .jlr d a i => r5 d && r5 a && rImm 12 i
  | .hstart d a b => r5 d && r5 a && r5 b
  | .hstartN d a b => r5 d && r5 a && r5 b
  | .hexit => true
  | .gjoin g => decide (g < 2 ^ 6)
  | .gleave g => decide (g < 2 ^ 6)
  | .gbar g b x => decide (g < 2 ^ 6) && r3 b && r5 x && (b != 0 || x == 0)
  | .sstep => true
  | .svote d a => r5 d && r5 a
  | .sexit a => r5 a
  | .sysrd d c => r5 d && decide (c < 2 ^ 12)
  | .syswr d a c => r5 d && r5 a && decide (c < 2 ^ 12)
  | .sysset d a c => r5 d && r5 a && decide (c < 2 ^ 12)
  | .sysclr d a c => r5 d && r5 a && decide (c < 2 ^ 12)
  | .tret => true
  | .uret => true
  | .svc i => decide (i < 2 ^ 12)
  | .brk i => decide (i < 2 ^ 12)
  | .yield => true
  | .fadd d a b _ => r5 d && r5 a && r5 b
  | .fsub d a b _ => r5 d && r5 a && r5 b
  | .fmul d a b _ => r5 d && r5 a && r5 b
  | .fdiv d a b _ => r5 d && r5 a && r5 b
  | .fsqrt d a _ => r5 d && r5 a
  | .fmin d a b _ => r5 d && r5 a && r5 b
  | .fmax d a b _ => r5 d && r5 a && r5 b
  | .fmac d a b _ => r5 d && r5 a && r5 b
  | .fnmac d a b _ => r5 d && r5 a && r5 b
  | .fneg d a _ => r5 d && r5 a
  | .fabs d a _ => r5 d && r5 a
  | .feq d a b _ => r5 d && r5 a && r5 b
  | .flt d a b _ => r5 d && r5 a && r5 b
  | .fle d a b _ => r5 d && r5 a && r5 b
  | .fcvtFpToInt d a _ _ => r5 d && r5 a
  | .fcvtIntToFp d a _ _ => r5 d && r5 a
  | .fcvtFpToFp d a s f => r5 d && r5 a && s != f
  | .fmvx d a => r5 d && r5 a
  | .fmvf d a => r5 d && r5 a
  | .ld d a _ i => r5 d && r5 a && rImm 12 i
  | .st b a _ i => r5 b && r5 a && rImm 12 i
  | .fld d a _ i => r5 d && r5 a && rImm 12 i
  | .fst b a _ i => r5 b && r5 a && rImm 12 i
  | .amoSwap d a b _ => r5 d && r5 a && r5 b
  | .amoAdd d a b _ => r5 d && r5 a && r5 b
  | .amoAnd d a b _ => r5 d && r5 a && r5 b
  | .amoOr d a b _ => r5 d && r5 a && r5 b
  | .amoXor d a b _ => r5 d && r5 a && r5 b
  | .amoMin d a b _ => r5 d && r5 a && r5 b
  | .amoMax d a b _ => r5 d && r5 a && r5 b
  | .amoCas d a b _ => r5 d && r5 a && r5 b
  | .amoNib d a b => r5 d && r5 a && r5 b
  | .amoSadd0 d a b _ => r5 d && r5 a && r5 b
  | .amoSadd1 d a b _ => r5 d && r5 a && r5 b
  | .amoSadd2 d a b _ => r5 d && r5 a && r5 b
  | .amoSadd3 d a b _ => r5 d && r5 a && r5 b
  | .faddX a b _ => r5 a && r5 b
  | .xaccRd d a _ => r5 d && r5 a
  | .ldTake d a _ i => r5 d && r5 a && rImm 12 i
  | .stFill x a n => (x == 0 || x == 16) && r5 a && decide (n < 2 ^ 6)
  | .rcClose b a => r5 b && r5 a
  | .fence s => decide (s < 7)
  | .fenceRel s => decide (s < 7)
  | .fenceAcq s => decide (s < 7)
  | .lcClean a b => r5 a && r5 b
  | .lcInv a b => r5 a && r5 b
  | .lcFlush a b => r5 a && r5 b
  | .l2Evict d a b => r5 d && r5 a && r5 b
  | .vld d a p c => rPred p c && r5 d && r5 a
  | .vst d a p c => rPred p c && r5 d && r5 a
  | .vgather d v b p c _ => rPred p c && r5 d && r5 v && r5 b
  | .vscatter d v b p c _ => rPred p c && r5 d && r5 v && r5 b
  | .vtake d a => r5 d && r5 a
  | .vfill d a b => r5 d && r5 a && r5 b
  | .vlds d a => r5 d && r5 a
  | .vsts d a => r5 d && r5 a
  | .prefixed q i => q.wf && takesPrefix q i && i.wf
  | .vaddInt _ d a b p c _ => rPred p c && r5 d && r5 a && r5 b
  | .vsubInt _ d a b p c _ => rPred p c && r5 d && r5 a && r5 b
  | .vmulInt _ d a b p c _ => rPred p c && r5 d && r5 a && r5 b
  | .vmulh _ d a b p c _ => rPred p c && r5 d && r5 a && r5 b
  | .vminInt _ d a b p c _ => rPred p c && r5 d && r5 a && r5 b
  | .vmaxInt _ d a b p c _ => rPred p c && r5 d && r5 a && r5 b
  | .vshl _ d a b p c _ => rPred p c && r5 d && r5 a && r5 b
  | .vshr _ d a b p c _ => rPred p c && r5 d && r5 a && r5 b
  | .vand _ d a b p c => rPred p c && r5 d && r5 a && r5 b
  | .vor _ d a b p c => rPred p c && r5 d && r5 a && r5 b
  | .vxor _ d a b p c => rPred p c && r5 d && r5 a && r5 b
  | .vandn _ d a b p c => rPred p c && r5 d && r5 a && r5 b
  | .vsel _ d a b p c => rPred p c && r5 d && r5 a && r5 b
  | .vaddFp _ d a b p c _ => rPred p c && r5 d && r5 a && r5 b
  | .vsubFp _ d a b p c _ => rPred p c && r5 d && r5 a && r5 b
  | .vmulFp _ d a b p c _ => rPred p c && r5 d && r5 a && r5 b
  | .vfma _ d a b p c _ => rPred p c && r5 d && r5 a && r5 b
  | .vfnma _ d a b p c _ => rPred p c && r5 d && r5 a && r5 b
  | .vminFp _ d a b p c _ => rPred p c && r5 d && r5 a && r5 b
  | .vmaxFp _ d a b p c _ => rPred p c && r5 d && r5 a && r5 b
  | .vabs d a p c _ => rPred p c && r5 d && r5 a
  | .vneg d a p c _ => rPred p c && r5 d && r5 a
  | .vceqInt d a b p c _ => rPred p c && r3 d && r5 a && r5 b
  | .vcneInt d a b p c _ => rPred p c && r3 d && r5 a && r5 b
  | .vcltInt d a b p c _ => rPred p c && r3 d && r5 a && r5 b
  | .vcleInt d a b p c _ => rPred p c && r3 d && r5 a && r5 b
  | .vceqFp d a b p c _ => rPred p c && r3 d && r5 a && r5 b
  | .vcneFp d a b p c _ => rPred p c && r3 d && r5 a && r5 b
  | .vcltFp d a b p c _ => rPred p c && r3 d && r5 a && r5 b
  | .vcleFp d a b p c _ => rPred p c && r3 d && r5 a && r5 b
  | .vcun d a b p c _ => rPred p c && r3 d && r5 a && r5 b
  | .pand d a b p c => rPred p c && r3 d && r3 a && r3 b
  | .por d a b p c => rPred p c && r3 d && r3 a && r3 b
  | .pxor d a b p c => rPred p c && r3 d && r3 a && r3 b
  | .pandn d a b p c => rPred p c && r3 d && r3 a && r3 b
  | .pnot d a p c => rPred p c && r3 d && r3 a
  | .pcnt d a p c => rPred p c && r5 d && r3 a
  | .pffs d a p c => rPred p c && r5 d && r3 a
  | .pmask d a p c => rPred p c && r3 d && r5 a
  | .vperm d a b p c _ => rPred p c && r5 d && r5 a && r5 b
  | .vcompress d a p c _ => rPred p c && r5 d && r5 a
  | .vexpand d a p c _ => rPred p c && r5 d && r5 a
  | .vredsumInt d a p c _ => rPred p c && r5 d && r5 a
  | .vredminInt d a p c _ => rPred p c && r5 d && r5 a
  | .vredmaxInt d a p c _ => rPred p c && r5 d && r5 a
  | .vargmaxInt d a p c _ => rPred p c && r5 d && r5 a
  | .vargminInt d a p c _ => rPred p c && r5 d && r5 a
  | .vredsumFp d a p c _ => rPred p c && r5 d && r5 a
  | .vredminFp d a p c _ => rPred p c && r5 d && r5 a
  | .vredmaxFp d a p c _ => rPred p c && r5 d && r5 a
  | .vargmaxFp d a p c _ => rPred p c && r5 d && r5 a
  | .vargminFp d a p c _ => rPred p c && r5 d && r5 a
  | .vcvt d a p c _ _ => rPred p c && r5 d && r5 a
  | .vcvtFb d a _ _ => r5 d && r5 a
  | .vmxcvt d a _ => r5 d && r5 a
  | .vaddFb d a b _ => r5 d && r5 a && r5 b
  | .vsubFb d a b _ => r5 d && r5 a && r5 b
  | .vmulFb d a b _ => r5 d && r5 a && r5 b
  | .vmulLg6 d a b p c => rPred p c && r5 d && r5 a && r5 b
  | .vrcp d a p c => rPred p c && r5 d && r5 a
  | .vrsq d a p c => rPred p c && r5 d && r5 a
  | .vrcps d a b p c => rPred p c && r5 d && r5 a && r5 b
  | .vrsqs d a b p c => rPred p c && r5 d && r5 a && r5 b
  | .vexp2 d a p c => rPred p c && r5 d && r5 a
  | .vlog2 d a p c => rPred p c && r5 d && r5 a
  | .vdupInt d b p c _ => rPred p c && r5 d && r5 b
  | .vdupFp d b p c _ => rPred p c && r5 d && r5 b
  | .vrep b => r5 b
  | .vbusy d => r5 d
  | .vfence => true
  | .tcfg t a => r3 t && r5 a
  | .tzero t => r3 t
  | .tld t a b => r3 t && r5 a && r5 b
  | .tst t a b => r3 t && r5 a && r5 b
  | .ttake t a => r3 t && r5 a
  | .tfill t a b => r3 t && r5 a && r5 b
  | .tlds t a => r3 t && r5 a
  | .tsts t a => r3 t && r5 a
  | .tmvr t v b => r3 t && r5 v && r5 b
  | .tmvc t v b => r3 t && r5 v && r5 b
  | .tgetr d t b => r5 d && r3 t && r5 b
  | .tgetc d t b => r5 d && r3 t && r5 b
  | .tmma c a b v s _ => rAcc c && r3 a && r3 b && r5 v && r5 s
  | .tmmaSp c a b v s _ => rAcc c && r3 a && r3 b && r5 v && r5 s
  | .adrain c t v _ _ => rAcc c && r3 t && r5 v
  | .aclear c v => rAcc c && r5 v
  | .aclearRns c v => rAcc c && r5 v
  | .aclaim c => rAcc c
  | .afree c => rAcc c
  | .astat c v => rAcc c && r5 v && v != 0
  | .tmmaI8I8 c a b v => rAcc c && r3 a && r3 b && r5 v
  | .tmmaRnsRns c a b v => rAcc c && r3 a && r3 b && r5 v
  | .adrainRns c t v _ => rAcc c && r3 t && r5 v
  | .adrainRnsW c t u v _ => rAcc c && r3 t && r3 u && r5 v
  | .rnsfwd d a p c => rPred p c && r5 d && r5 a
  | .rnsrev d a p c => rPred p c && r5 d && r5 a
  | .rnsrevSt d a p c => rPred p c && r5 d && r5 a
  | .rnsstat d a => r5 d && rAcc a
  | .esetCopy k a => r3 k && r5 a
  | .esetColl k a => r3 k && r5 a
  | .esetText k a => r3 k && r5 a
  | .ecopy d a b _ => r5 d && r5 a && r5 b
  | .egather d a b _ => r5 d && r5 a && r5 b
  | .escatter d a b _ => r5 d && r5 a && r5 b
  | .ecopy2d d a b _ => r5 d && r5 a && r5 b
  | .ecfill d a b _ => r5 d && r5 a && r5 b
  | .emigrate d a b _ => r5 d && r5 a && r5 b
  | .callred d a b _ => r5 d && r5 a && r5 b
  | .callgat d a b _ => r5 d && r5 a && r5 b
  | .credsc d a b _ => r5 d && r5 a && r5 b
  | .cbcast d a b _ => r5 d && r5 a && r5 b
  | .cabort d a _ => r5 d && r5 a
  | .qpub d a b _ => r5 d && r5 a && r5 b
  | .qclaim d a b _ => r5 d && r5 a && r5 b
  | .qlaunch d a b _ => r5 d && r5 a && r5 b
  | .qsignal d a _ => r5 d && r5 a
  | .xbind d a b _ => r5 d && r5 a && r5 b
  | .xfollow d a b _ => r5 d && r5 a && r5 b
  | .xtok d a b _ => r5 d && r5 a && r5 b
  | .xdetok d a b _ => r5 d && r5 a && r5 b
  | .xmask d a b _ => r5 d && r5 a && r5 b
  | .twait _ a => r5 a
  | .tget _ d => r5 d
  | .tgetE _ d => r5 d
  | .tgetA _ d => r5 d
  | .tnote _ a => r5 a
  | .apxBegin d a b => r5 d && r5 a && r5 b
  | .apxEnd d a => r5 d && r5 a
  | .apxCfg d a b => r5 d && r5 a && r5 b
  | .apxInv d a => r5 d && r5 a
  | .apxStat d a => r5 d && r5 a
  | .apxLoad d a b _ => r5 d && r5 a && r5 b
  | .apxSave d a b _ => r5 d && r5 a && r5 b
  | .ccfg d a b _ => r5 d && r5 a && r5 b
  | .crejoin d a _ => r5 d && r5 a
  | .cmrd d a => r5 d && r5 a
  | .cmwr d a b => r5 d && r5 a && r5 b
  | .cstat d => r5 d
  | .catch d a b => r5 d && r5 a && r5 b
  | .catchNv d a b => r5 d && r5 a && r5 b
  | .cwait d a b => r5 d && r5 a && r5 b
  | .nmax d a b => r5 d && r5 a && r5 b
  | .nsum d a b => r5 d && r5 a && r5 b
  | .nsumMax d a b => r5 d && r5 a && r5 b
  | .catchK d a b => r5 d && r5 a && r5 b
  | .ccomb d a b p c => rPred p c && r5 d && r5 a && r5 b
  | .gnoise d a b p c => rPred p c && r5 d && r5 a && r5 b
  | .gnoiseU d b p c => rPred p c && r5 d && r5 b

end Sys2Proof
end

