-- ==== Sys2Proof/Decode.lean ====
section
/-! DEFINITION. The decoder of instruction words and its encoder (R43 to R54). A word, or a prefix with its word, is
read as an instruction or refused; a refused word traps ILLEGAL when it is executed (R53). -/

namespace Sys2Proof

/-- The `n` bits of `w` from bit `lo` (R3). -/
def fld (w lo n : Nat) : Nat := w / 2 ^ lo % 2 ^ n

/-- The signed reading of an `n`-bit field (R45). -/
def sx (n v : Nat) : Int := if v < 2 ^ (n - 1) then (v : Int) else (v : Int) - 2 ^ n

/-- The field of `n` bits that holds a signed value. -/
def ux (n : Nat) (i : Int) : Nat := (i % 2 ^ n).toNat

/-- The instruction, where the condition on its reserved fields holds (R53). -/
def only (c : Bool) (i : Instr) : Option Instr := if c then some i else none

/-- The code of a `T8`. -/
def T8.code : T8 → Nat
  | .i8 => 0   | .i16 => 1   | .i32 => 2   | .i64 => 3   | .n8 => 4   | .n16 => 5   | .n32 => 6   | .n64 => 7

/-- The `T8` of a code, if it is assigned. -/
def T8.ofCode : Nat → Option T8
  | 0 => some .i8   | 1 => some .i16   | 2 => some .i32   | 3 => some .i64   | 4 => some .n8   | 5 => some .n16   | 6 => some .n32   | 7 => some .n64
  | _ => none

/-- The code of a `FTy`. -/
def FTy.code : FTy → Nat
  | .f16 => 0   | .bf16 => 1   | .f32 => 2

/-- The `FTy` of a code, if it is assigned. -/
def FTy.ofCode : Nat → Option FTy
  | 0 => some .f16   | 1 => some .bf16   | 2 => some .f32
  | _ => none

/-- The code of a `SFmt`. -/
def SFmt.code : SFmt → Nat
  | .f64 => 0   | .f32 => 1   | .f16 => 2   | .bf16 => 3

/-- The `SFmt` of a code, if it is assigned. -/
def SFmt.ofCode : Nat → Option SFmt
  | 0 => some .f64   | 1 => some .f32   | 2 => some .f16   | 3 => some .bf16
  | _ => none

/-- The code of a `CvtInt`. -/
def CvtInt.code : CvtInt → Nat
  | .i64 => 0   | .n64 => 1   | .i32 => 2   | .n32 => 3

/-- The `CvtInt` of a code, if it is assigned. -/
def CvtInt.ofCode : Nat → Option CvtInt
  | 0 => some .i64   | 1 => some .n64   | 2 => some .i32   | 3 => some .n32
  | _ => none

/-- The code of a `LdTy`. -/
def LdTy.code : LdTy → Nat
  | .i8 => 0   | .i16 => 1   | .i32 => 2   | .i64 => 3   | .n8 => 4   | .n16 => 5   | .n32 => 6

/-- The `LdTy` of a code, if it is assigned. -/
def LdTy.ofCode : Nat → Option LdTy
  | 0 => some .i8   | 1 => some .i16   | 2 => some .i32   | 3 => some .i64   | 4 => some .n8   | 5 => some .n16   | 6 => some .n32
  | _ => none

/-- The code of a `StTy`. -/
def StTy.code : StTy → Nat
  | .b1 => 0   | .b2 => 1   | .b4 => 2   | .b8 => 3

/-- The `StTy` of a code, if it is assigned. -/
def StTy.ofCode : Nat → Option StTy
  | 0 => some .b1   | 1 => some .b2   | 2 => some .b4   | 3 => some .b8
  | _ => none

/-- The code of a `FpW`. -/
def FpW.code : FpW → Nat
  | .w2 => 0   | .w4 => 1   | .w8 => 2

/-- The `FpW` of a code, if it is assigned. -/
def FpW.ofCode : Nat → Option FpW
  | 0 => some .w2   | 1 => some .w4   | 2 => some .w8
  | _ => none

/-- The code of a `XTy`. -/
def XTy.code : XTy → Nat
  | .bf16 => 1   | .f32 => 2

/-- The `XTy` of a code, if it is assigned. -/
def XTy.ofCode : Nat → Option XTy
  | 1 => some .bf16   | 2 => some .f32
  | _ => none

/-- The code of a `CvtPair`. -/
def CvtPair.code : CvtPair → Nat
  | .f16F32 => 0   | .bf16F32 => 1   | .e4m3F32 => 2   | .e5m2F32 => 3   | .e2m1F32 => 4   | .lg6F32 => 5   | .e4m3F16 => 6   | .e5m2F16 => 7   | .e4m3Bf16 => 8   | .i32F32 => 9   | .n32F32 => 10   | .i16F32 => 11   | .i8F32 => 12   | .n8F32 => 13

/-- The `CvtPair` of a code, if it is assigned. -/
def CvtPair.ofCode : Nat → Option CvtPair
  | 0 => some .f16F32   | 1 => some .bf16F32   | 2 => some .e4m3F32   | 3 => some .e5m2F32   | 4 => some .e2m1F32   | 5 => some .lg6F32   | 6 => some .e4m3F16   | 7 => some .e5m2F16   | 8 => some .e4m3Bf16   | 9 => some .i32F32   | 10 => some .n32F32   | 11 => some .i16F32   | 12 => some .i8F32   | 13 => some .n8F32
  | _ => none

/-- The code of a `MmaPair`. -/
def MmaPair.code : MmaPair → Nat
  | .f32F32 => 0   | .bf16Bf16 => 1   | .f16F16 => 2   | .e4m3E4m3 => 4   | .e4m3E5m2 => 5   | .e5m2E4m3 => 6   | .e5m2E5m2 => 7   | .fb8Fb8 => 8   | .fb8Fb4 => 9   | .fb4Fb8 => 10   | .fb4Fb4 => 11   | .lg6Lg6 => 12   | .bf16E4m3 => 13   | .bf16Fb4 => 14

/-- The `MmaPair` of a code, if it is assigned. -/
def MmaPair.ofCode : Nat → Option MmaPair
  | 0 => some .f32F32   | 1 => some .bf16Bf16   | 2 => some .f16F16   | 4 => some .e4m3E4m3   | 5 => some .e4m3E5m2   | 6 => some .e5m2E4m3   | 7 => some .e5m2E5m2   | 8 => some .fb8Fb8   | 9 => some .fb8Fb4   | 10 => some .fb4Fb8   | 11 => some .fb4Fb4   | 12 => some .lg6Lg6   | 13 => some .bf16E4m3   | 14 => some .bf16Fb4
  | _ => none

/-- The code of a `SpPair`. -/
def SpPair.code : SpPair → Nat
  | .bf16Bf16 => 1   | .f16F16 => 2   | .e4m3E4m3 => 4   | .e4m3E5m2 => 5   | .e5m2E4m3 => 6   | .e5m2E5m2 => 7

/-- The `SpPair` of a code, if it is assigned. -/
def SpPair.ofCode : Nat → Option SpPair
  | 1 => some .bf16Bf16   | 2 => some .f16F16   | 4 => some .e4m3E4m3   | 5 => some .e4m3E5m2   | 6 => some .e5m2E4m3   | 7 => some .e5m2E5m2
  | _ => none

/-- The code of a `DrainFmt`. -/
def DrainFmt.code : DrainFmt → Nat
  | .f32 => 0   | .bf16 => 1   | .f16 => 2   | .e4m3 => 3   | .e5m2 => 4   | .fb8 => 5   | .fb4 => 6

/-- The `DrainFmt` of a code, if it is assigned. -/
def DrainFmt.ofCode : Nat → Option DrainFmt
  | 0 => some .f32   | 1 => some .bf16   | 2 => some .f16   | 3 => some .e4m3   | 4 => some .e5m2   | 5 => some .fb8   | 6 => some .fb4
  | _ => none

/-- The code of a `Eng`. -/
def Eng.code : Eng → Nat
  | .copy => 0   | .coll => 1   | .queue => 2   | .text => 3   | .apx => 4   | .catchUnit => 5

/-- The `Eng` of a code, if it is assigned. -/
def Eng.ofCode : Nat → Option Eng
  | 0 => some .copy   | 1 => some .coll   | 2 => some .queue   | 3 => some .text   | 4 => some .apx   | 5 => some .catchUnit
  | _ => none

/-- The code of a `Clamp`. -/
def Clamp.code : Clamp → Nat
  | .none => 0   | .unit => 1   | .sym => 2   | .pos => 3

/-- The `Clamp` of a code, if it is assigned. -/
def Clamp.ofCode : Nat → Option Clamp
  | 0 => some .none   | 1 => some .unit   | 2 => some .sym   | 3 => some .pos
  | _ => none

/-- Major 0x01 (R100). -/
noncomputable def decInt (w : Nat) : Option Instr :=
  let d := fld w 21 5; let a := fld w 16 5; let b := fld w 11 5
  match fld w 0 11 with
  | 0x000 => some (.add d a b) | 0x001 => some (.sub d a b) | 0x002 => some (.and d a b)
  | 0x003 => some (.or d a b) | 0x004 => some (.xor d a b) | 0x005 => some (.andn d a b)
  | 0x008 => some (.sll d a b) | 0x009 => some (.srl d a b) | 0x00A => some (.sra d a b) | 0x00B => some (.rol d a b)
  | 0x010 => some (.slt d a b) | 0x011 => some (.sltn d a b) | 0x012 => some (.seq d a b) | 0x013 => some (.sne d a b)
  | 0x014 => some (.min d a b) | 0x015 => some (.max d a b) | 0x016 => some (.minn d a b) | 0x017 => some (.maxn d a b)
  | 0x020 => some (.mul d a b) | 0x021 => some (.mulh d a b) | 0x022 => some (.mulhn d a b)
  | 0x024 => some (.div d a b) | 0x025 => some (.divn d a b) | 0x026 => some (.rem d a b) | 0x027 => some (.remn d a b)
  | 0x030 => only (b == 0) (.clz d a) | 0x031 => only (b == 0) (.ctz d a)
  | 0x032 => only (b == 0) (.popc d a) | 0x033 => only (b == 0) (.bswap d a)
  | 0x034 => only (b == 0) (.sextI8 d a) | 0x035 => only (b == 0) (.sextI16 d a) | 0x036 => only (b == 0) (.sextI32 d a)
  | 0x037 => only (b == 0) (.zextN8 d a) | 0x038 => only (b == 0) (.zextN16 d a) | 0x039 => only (b == 0) (.zextN32 d a)
  | _ => none

/-- Major 0x02 (R102). -/
noncomputable def decImm (w : Nat) : Option Instr :=
  let d := fld w 21 5; let a := fld w 16 5; let i := sx 12 (fld w 0 12); let s := fld w 0 6
  match fld w 12 4 with
  | 0 => some (.addi d a i) | 1 => some (.andi d a i) | 2 => some (.ori d a i) | 3 => some (.xori d a i)
  | 4 => some (.slti d a i) | 5 => some (.sltni d a i) | 6 => some (.seqi d a i)
  | 7 => only (fld w 6 6 == 0) (.slli d a s) | 8 => only (fld w 6 6 == 0) (.srli d a s)
  | 9 => only (fld w 6 6 == 0) (.srai d a s)
  | _ => none

/-- Majors 0x08 and 0x09 (R189). -/
noncomputable def decLd (w : Nat) : Option Instr :=
  (LdTy.ofCode (fld w 12 4)).map fun s => .ld (fld w 21 5) (fld w 16 5) s (sx 12 (fld w 0 12))

/-- Major 0x09 (R189). -/
noncomputable def decSt (w : Nat) : Option Instr :=
  (StTy.ofCode (fld w 12 4)).map fun s => .st (fld w 21 5) (fld w 16 5) s (sx 12 (fld w 0 12))

/-- Major 0x0D (R190): bit 15 selects the format (R52). -/
noncomputable def decFmem (w : Nat) : Option Instr :=
  let r := fld w 21 5; let a := fld w 16 5; let i := sx 12 (fld w 0 12)
  if fld w 15 1 = 0 then (FpW.ofCode (fld w 12 3)).map fun s => .fld r a s i
  else (FpW.ofCode (fld w 12 3)).map fun s => .fst r a s i

/-- Major 0x0A (R191 to R196). -/
noncomputable def decAmo (w : Nat) : Option Instr :=
  let d := fld w 21 5; let a := fld w 16 5; let b := fld w 11 5
  match fld w 3 8 with
  | 0 => (T8.ofCode (fld w 0 3)).map fun t => .amoSwap d a b t
  | 1 => (T8.ofCode (fld w 0 3)).map fun t => .amoAdd d a b t
  | 2 => (T8.ofCode (fld w 0 3)).map fun t => .amoAnd d a b t
  | 3 => (T8.ofCode (fld w 0 3)).map fun t => .amoOr d a b t
  | 4 => (T8.ofCode (fld w 0 3)).map fun t => .amoXor d a b t
  | 5 => (T8.ofCode (fld w 0 3)).map fun t => .amoMin d a b t
  | 6 => (T8.ofCode (fld w 0 3)).map fun t => .amoMax d a b t
  | 7 => (T8.ofCode (fld w 0 3)).map fun t => .amoCas d a b t
  | 8 => only (fld w 0 3 == 4) (.amoNib d a b)
  | 9 => only (fld w 1 2 == 1) (.amoSadd0 d a b (fld w 0 1 == 1))
  | 10 => only (fld w 1 2 == 1) (.amoSadd1 d a b (fld w 0 1 == 1))
  | 11 => only (fld w 1 2 == 1) (.amoSadd2 d a b (fld w 0 1 == 1))
  | 12 => only (fld w 1 2 == 1) (.amoSadd3 d a b (fld w 0 1 == 1))
  | 13 => (XTy.ofCode (fld w 0 3)).bind fun t => only (d == 0) (.faddX a b t)
  | 14 => (XTy.ofCode (fld w 0 3)).bind fun t => only (b == 0) (.xaccRd d a t)
  | _ => none

/-- Major 0x0B (R197 to R199). -/
noncomputable def decCounted (w : Nat) : Option Instr :=
  let d := fld w 21 5; let a := fld w 16 5
  if fld w 15 1 = 0 then (LdTy.ofCode (fld w 12 3)).map fun s => .ldTake d a s (sx 12 (fld w 0 12))
  else match fld w 12 3 with
  | 0 => only ((d == 0 || d == 16) && fld w 6 6 == 0) (.stFill d a (fld w 0 6))
  | 1 => only (fld w 0 12 == 0) (.rcClose d a)
  | _ => none

/-- Major 0x0C (R203 to R205). -/
noncomputable def decFence (w : Nat) : Option Instr :=
  let d := fld w 21 5; let a := fld w 16 5; let b := fld w 11 5; let s := fld w 0 3
  let z := d == 0 && a == 0 && b == 0 && s != 7
  match fld w 3 8 with
  | 0 => only z (.fence s) | 1 => only z (.fenceRel s) | 2 => only z (.fenceAcq s)
  | 4 => match s with
    | 0 => only (d == 0) (.lcClean a b) | 1 => only (d == 0) (.lcInv a b) | 2 => only (d == 0) (.lcFlush a b)
    | 4 => some (.l2Evict d a b)
    | _ => none
  | _ => none

/-- Major 0x19 (R114 to R119). -/
noncomputable def decSys (w : Nat) : Option Instr :=
  let d := fld w 21 5; let a := fld w 16 5; let c := fld w 0 12
  let z := d == 0 && a == 0
  match fld w 12 4 with
  | 0 => only (a == 0) (.sysrd d c) | 1 => some (.syswr d a c) | 2 => some (.sysset d a c) | 3 => some (.sysclr d a c)
  | 4 => only (z && c == 0) .tret | 5 => only (z && c == 0) .uret
  | 6 => only z (.svc c) | 7 => only z (.brk c) | 8 => only (z && c == 0) .yield
  | _ => none

/-- Major 0x1A (R106 to R113). -/
noncomputable def decCtx (w : Nat) : Option Instr :=
  let d := fld w 21 5; let a := fld w 16 5; let b := fld w 11 5
  match fld w 0 11 with
  | 0x000 => some (.hstart d a b) | 0x001 => some (.hstartN d a b)
  | 0x002 => only (d == 0 && a == 0 && b == 0) .hexit
  | 0x008 => only (fld w 11 9 == 0) (.gjoin (fld w 20 6)) | 0x009 => only (fld w 11 9 == 0) (.gleave (fld w 20 6))
  | 0x00A => only (fld w 16 1 == 0 && (fld w 17 3 != 0 || b == 0)) (.gbar (fld w 20 6) (fld w 17 3) b)
  | 0x010 => only (d == 0 && a == 0 && b == 0) .sstep
  | 0x011 => only (b == 0) (.svote d a) | 0x012 => only (d == 0 && b == 0) (.sexit a)
  | _ => none

/-- Major 0x1B (R120 to R122). -/
noncomputable def decFp (w : Nat) : Option Instr :=
  let d := fld w 21 5; let a := fld w 16 5; let b := fld w 11 5
  if fld w 9 2 = 0 then
    (SFmt.ofCode (fld w 0 2)).bind fun f =>
    match fld w 2 7 with
    | 0x00 => some (.fadd d a b f) | 0x01 => some (.fsub d a b f) | 0x02 => some (.fmul d a b f)
    | 0x03 => some (.fdiv d a b f) | 0x04 => only (b == 0) (.fsqrt d a f)
    | 0x05 => some (.fmin d a b f) | 0x06 => some (.fmax d a b f)
    | 0x07 => some (.fmac d a b f) | 0x08 => some (.fnmac d a b f)
    | 0x09 => only (b == 0) (.fneg d a f) | 0x0A => only (b == 0) (.fabs d a f)
    | 0x10 => some (.feq d a b f) | 0x11 => some (.flt d a b f) | 0x12 => some (.fle d a b f)
    | 0x18 => (CvtInt.ofCode b).map fun t => .fcvtFpToInt d a t f
    | 0x19 => (CvtInt.ofCode b).map fun t => .fcvtIntToFp d a t f
    | 0x1A => (SFmt.ofCode b).bind fun s => only (s != f) (.fcvtFpToFp d a s f)
    | 0x1C => only (b == 0 && fld w 0 2 == 0) (.fmvx d a) | 0x1D => only (b == 0 && fld w 0 2 == 0) (.fmvf d a)
    | _ => none
  else none

/-- Majors 0x20 and 0x21 (R126); `m` is the vector-scalar form. -/
noncomputable def decVec (m : Bool) (w : Nat) : Option Instr :=
  let d := fld w 21 5; let a := fld w 16 5; let b := fld w 11 5; let p := fld w 8 3; let c := fld w 7 1 == 1
  if p == 0 && c then none else
  let t8 := fun (k : T8 → Instr) => (T8.ofCode (fld w 0 3)).map k
  let ft := fun (k : FTy → Instr) => (FTy.ofCode (fld w 0 2)).map k
  match fld w 3 4 with
  | 0x0 => t8 fun t => .vaddInt m d a b p c t | 0x1 => t8 fun t => .vsubInt m d a b p c t
  | 0x2 => t8 fun t => .vmulInt m d a b p c t | 0x3 => t8 fun t => .vmulh m d a b p c t
  | 0x4 => t8 fun t => .vminInt m d a b p c t | 0x5 => t8 fun t => .vmaxInt m d a b p c t
  | 0x6 => t8 fun t => .vshl m d a b p c t | 0x7 => t8 fun t => .vshr m d a b p c t
  | 0x8 => match fld w 0 3 with
    | 0 => some (.vand m d a b p c) | 1 => some (.vor m d a b p c) | 2 => some (.vxor m d a b p c)
    | 3 => some (.vandn m d a b p c) | 4 => some (.vsel m d a b p c) | _ => none
  | 0xA => if fld w 2 1 = 0 then ft fun t => .vaddFp m d a b p c t else ft fun t => .vsubFp m d a b p c t
  | 0xB => if fld w 2 1 = 0 then ft fun t => .vmulFp m d a b p c t else ft fun t => .vfma m d a b p c t
  | 0xC => if fld w 2 1 = 0 then ft fun t => .vfnma m d a b p c t else ft fun t => .vminFp m d a b p c t
  | 0xD => if fld w 2 1 = 0 then ft fun t => .vmaxFp m d a b p c t
    else if !m && b == 0 then ft fun t => .vabs d a p c t else none
  | 0xE => if fld w 2 1 = 0 && !m && b == 0 then ft fun t => .vneg d a p c t else none
  | _ => none

/-- Major 0x22 (R201). -/
noncomputable def decVmem (w : Nat) : Option Instr :=
  let d := fld w 21 5; let a := fld w 16 5; let b := fld w 11 5; let p := fld w 8 3; let c := fld w 7 1 == 1
  let z := p == 0 && !c
  if p == 0 && c then none else
  match fld w 0 7 with
  | 0x00 => only (b == 0) (.vld d a p c) | 0x01 => only (b == 0) (.vst d a p c)
  | 0x08 => some (.vgather d a b p c false) | 0x09 => some (.vgather d a b p c true)
  | 0x0A => some (.vscatter d a b p c false) | 0x0B => some (.vscatter d a b p c true)
  | 0x10 => only (b == 0 && z) (.vtake d a) | 0x11 => only z (.vfill d a b)
  | 0x18 => only (b == 0 && z) (.vlds d a) | 0x19 => only (b == 0 && z) (.vsts d a)
  | _ => none

/-- Major 0x23 (R131 to R135). -/
noncomputable def decCvt (w : Nat) : Option Instr :=
  let d := fld w 21 5; let a := fld w 16 5; let b := fld w 11 5; let p := fld w 8 3; let c := fld w 7 1 == 1
  let z := p == 0 && !c
  if p == 0 && c then none else
  if fld w 0 7 < 0x1C then (CvtPair.ofCode (fld w 1 4)).bind fun k => only (b == 0) (.vcvt d a p c k (fld w 0 1 == 1))
  else match fld w 0 7 with
  | 0x1C => only (b == 0 && z) (.vcvtFb d a false false) | 0x1D => only (b == 0 && z) (.vcvtFb d a false true)
  | 0x1E => only (b == 0 && z) (.vcvtFb d a true false) | 0x1F => only (b == 0 && z) (.vcvtFb d a true true)
  | 0x20 => only (b == 0 && z) (.vmxcvt d a false) | 0x21 => only (b == 0 && z) (.vmxcvt d a true)
  | 0x28 => only z (.vaddFb d a b false) | 0x29 => only z (.vsubFb d a b false) | 0x2A => only z (.vmulFb d a b false)
  | 0x2C => only z (.vaddFb d a b true) | 0x2D => only z (.vsubFb d a b true) | 0x2E => only z (.vmulFb d a b true)
  | 0x30 => some (.vmulLg6 d a b p c)
  | _ => none

/-- Major 0x24 (R136, R137). -/
noncomputable def decSpecial (w : Nat) : Option Instr :=
  let d := fld w 21 5; let a := fld w 16 5; let b := fld w 11 5; let p := fld w 8 3; let c := fld w 7 1 == 1
  if p == 0 && c then none else
  match fld w 0 7 with
  | 0 => only (b == 0) (.vrcp d a p c) | 1 => only (b == 0) (.vrsq d a p c)
  | 2 => some (.vrcps d a b p c) | 3 => some (.vrsqs d a b p c)
  | 4 => only (b == 0) (.vexp2 d a p c) | 5 => only (b == 0) (.vlog2 d a p c)
  | _ => none

/-- Major 0x25 (R127, R128). -/
noncomputable def decPred (w : Nat) : Option Instr :=
  let d := fld w 21 5; let a := fld w 16 5; let b := fld w 11 5; let p := fld w 8 3; let c := fld w 7 1 == 1
  if p == 0 && c then none else
  let t8 := fun (k : T8 → Instr) => (T8.ofCode (fld w 0 3)).bind fun t => only (d < 8) (k t)
  let ft := fun (k : FTy → Instr) => (FTy.ofCode (fld w 0 2)).bind fun t => only (d < 8) (k t)
  match fld w 3 4 with
  | 0 => t8 fun t => .vceqInt d a b p c t | 1 => t8 fun t => .vcneInt d a b p c t
  | 2 => t8 fun t => .vcltInt d a b p c t | 3 => t8 fun t => .vcleInt d a b p c t
  | 4 => if fld w 2 1 = 0 then ft fun t => .vceqFp d a b p c t else ft fun t => .vcneFp d a b p c t
  | 5 => if fld w 2 1 = 0 then ft fun t => .vcltFp d a b p c t else ft fun t => .vcleFp d a b p c t
  | 6 => if fld w 2 1 = 0 then ft fun t => .vcun d a b p c t else none
  | 8 => match fld w 0 3 with
    | 0 => only (d < 8 && a < 8 && b < 8) (.pand d a b p c) | 1 => only (d < 8 && a < 8 && b < 8) (.por d a b p c)
    | 2 => only (d < 8 && a < 8 && b < 8) (.pxor d a b p c) | 3 => only (d < 8 && a < 8 && b < 8) (.pandn d a b p c)
    | 4 => only (d < 8 && a < 8 && b == 0) (.pnot d a p c) | _ => none
  | 9 => match fld w 0 3 with
    | 0 => only (a < 8 && b == 0) (.pcnt d a p c) | 1 => only (a < 8 && b == 0) (.pffs d a p c)
    | 2 => only (d < 8 && b == 0) (.pmask d a p c) | _ => none
  | _ => none

/-- Major 0x26 (R129, R130). -/
noncomputable def decPerm (w : Nat) : Option Instr :=
  let d := fld w 21 5; let a := fld w 16 5; let b := fld w 11 5; let p := fld w 8 3; let c := fld w 7 1 == 1
  if p == 0 && c then none else
  let t8 := fun (k : T8 → Instr) => (T8.ofCode (fld w 0 3)).bind fun t => only (b == 0) (k t)
  let ft := fun (k : FTy → Instr) => (FTy.ofCode (fld w 0 2)).bind fun t => only (b == 0) (k t)
  match fld w 3 4 with
  | 0 => (T8.ofCode (fld w 0 3)).map fun t => .vperm d a b p c t
  | 1 => t8 fun t => .vcompress d a p c t | 2 => t8 fun t => .vexpand d a p c t
  | 3 => t8 fun t => .vredsumInt d a p c t | 4 => t8 fun t => .vredminInt d a p c t
  | 5 => t8 fun t => .vredmaxInt d a p c t | 6 => t8 fun t => .vargmaxInt d a p c t
  | 7 => t8 fun t => .vargminInt d a p c t
  | 8 => if fld w 2 1 = 0 then ft fun t => .vredsumFp d a p c t else ft fun t => .vredminFp d a p c t
  | 9 => if fld w 2 1 = 0 then ft fun t => .vredmaxFp d a p c t else ft fun t => .vargmaxFp d a p c t
  | 10 => if fld w 2 1 = 0 then ft fun t => .vargminFp d a p c t else none
  | _ => none

/-- Major 0x27 (R138 to R141). -/
noncomputable def decVctl (w : Nat) : Option Instr :=
  let d := fld w 21 5; let a := fld w 16 5; let b := fld w 11 5; let p := fld w 8 3; let c := fld w 7 1 == 1
  let z := p == 0 && !c
  if (p == 0 && c) || a != 0 then none else
  match fld w 3 4 with
  | 0 => (T8.ofCode (fld w 0 3)).map fun t => .vdupInt d b p c t
  | 1 => if fld w 2 1 = 0 then (FTy.ofCode (fld w 0 2)).map fun t => .vdupFp d b p c t else none
  | 2 => match fld w 0 3 with
    | 0 => only (z && d == 0) (.vrep b) | 1 => only (z && b == 0) (.vbusy d)
    | 2 => only (z && d == 0 && b == 0) .vfence | _ => none
  | _ => none

/-- Major 0x28 (R146 to R149). -/
noncomputable def decTile (w : Nat) : Option Instr :=
  let d := fld w 21 5; let a := fld w 16 5; let b := fld w 11 5
  match fld w 0 11 with
  | 0x000 => only (d < 8 && b == 0) (.tcfg d a) | 0x001 => only (d < 8 && a == 0 && b == 0) (.tzero d)
  | 0x008 => only (d < 8) (.tld d a b) | 0x009 => only (d < 8) (.tst d a b)
  | 0x00A => only (d < 8 && b == 0) (.ttake d a) | 0x00B => only (d < 8) (.tfill d a b)
  | 0x00C => only (d < 8 && b == 0) (.tlds d a) | 0x00D => only (d < 8 && b == 0) (.tsts d a)
  | 0x010 => only (d < 8) (.tmvr d a b) | 0x011 => only (d < 8) (.tmvc d a b)
  | 0x012 => only (a < 8) (.tgetr d a b) | 0x013 => only (a < 8) (.tgetc d a b)
  | _ => none

/-- Major 0x29 (R154); a slot name above 3 is refused (R45). -/
noncomputable def decMma (w : Nat) : Option Instr :=
  (MmaPair.ofCode (fld w 0 6)).bind fun n =>
    only (fld w 22 4 < 4) (.tmma (fld w 22 4) (fld w 19 3) (fld w 16 3) (fld w 11 5) (fld w 6 5) n)

/-- Major 0x2A (R155). -/
noncomputable def decSparse (w : Nat) : Option Instr :=
  (SpPair.ofCode (fld w 0 6)).bind fun n =>
    only (fld w 22 4 < 4) (.tmmaSp (fld w 22 4) (fld w 19 3) (fld w 16 3) (fld w 11 5) (fld w 6 5) n)

/-- Major 0x2B (R156, R157). -/
noncomputable def decAcc (w : Nat) : Option Instr :=
  let c := fld w 22 4; let t := fld w 19 3; let v := fld w 11 5
  if fld w 16 3 != 0 || fld w 6 5 != 0 || 4 ≤ c then none else
  if fld w 4 2 = 0 then (DrainFmt.ofCode (fld w 0 3)).map fun f => .adrain c t v (fld w 3 1 == 1) f
  else match fld w 0 6 with
  | 0x10 => only (t == 0) (.aclear c v) | 0x11 => only (t == 0) (.aclearRns c v)
  | 0x12 => only (t == 0 && v == 0) (.aclaim c) | 0x13 => only (t == 0 && v == 0) (.afree c)
  | 0x14 => only (t == 0 && v != 0) (.astat c v)
  | _ => none

/-- Major 0x2C (R158 to R162): bit 5 selects the format (R52). -/
noncomputable def decRns (w : Nat) : Option Instr :=
  if fld w 5 1 = 0 then
    let c := fld w 22 4; let t := fld w 19 3; let u := fld w 16 3; let v := fld w 11 5
    if fld w 6 5 != 0 || 4 ≤ c then none else
    match fld w 0 5 with
    | 0x00 => some (.tmmaI8I8 c t u v) | 0x01 => some (.tmmaRnsRns c t u v)
    | 0x08 => only (u == 0) (.adrainRns c t v false) | 0x09 => only (u == 0) (.adrainRns c t v true)
    | 0x0A => some (.adrainRnsW c t u v false) | 0x0B => some (.adrainRnsW c t u v true)
    | _ => none
  else
    let d := fld w 21 5; let a := fld w 16 5; let p := fld w 8 3; let c := fld w 7 1 == 1
    if (p == 0 && c) || fld w 11 5 != 0 then none else
    match fld w 0 7 with
    | 0x20 => some (.rnsfwd d a p c) | 0x21 => some (.rnsrev d a p c) | 0x22 => some (.rnsrevSt d a p c)
    | 0x24 => only (a < 4 && p == 0) (.rnsstat d a)
    | _ => none

/-- Majors 0x30 to 0x34 and 0x38 (R48): the engine field holds the major's engine. -/
noncomputable def decCopy (w : Nat) : Option Instr :=
  let d := fld w 11 5; let a := fld w 6 5; let b := fld w 1 5; let o := fld w 0 1 == 1; let op := fld w 16 7
  if fld w 23 3 != 0 then none else
  if op < 8 then only (d == 0 && b == 0 && !o) (.esetCopy op a) else
  match op with
  | 0x10 => some (.ecopy d a b o) | 0x11 => some (.egather d a b o) | 0x12 => some (.escatter d a b o)
  | 0x13 => some (.ecopy2d d a b o) | 0x14 => some (.ecfill d a b o) | 0x18 => some (.emigrate d a b o)
  | _ => none

/-- Major 0x31 (R257 to R260). -/
noncomputable def decColl (w : Nat) : Option Instr :=
  let d := fld w 11 5; let a := fld w 6 5; let b := fld w 1 5; let o := fld w 0 1 == 1; let op := fld w 16 7
  if fld w 23 3 != 1 then none else
  if op < 8 then only (d == 0 && b == 0 && !o) (.esetColl op a) else
  match op with
  | 0x10 => some (.callred d a b o) | 0x11 => some (.callgat d a b o) | 0x12 => some (.credsc d a b o)
  | 0x13 => some (.cbcast d a b o) | 0x18 => only (b == 0) (.cabort d a o)
  | _ => none

/-- Major 0x32 (R261). -/
noncomputable def decQueue (w : Nat) : Option Instr :=
  let d := fld w 11 5; let a := fld w 6 5; let b := fld w 1 5; let o := fld w 0 1 == 1
  if fld w 23 3 != 2 then none else
  match fld w 16 7 with
  | 0x10 => some (.qpub d a b o) | 0x11 => some (.qclaim d a b o) | 0x12 => some (.qlaunch d a b o)
  | 0x13 => only (b == 0) (.qsignal d a o)
  | _ => none

/-- Major 0x33 (R262 to R264). -/
noncomputable def decText (w : Nat) : Option Instr :=
  let d := fld w 11 5; let a := fld w 6 5; let b := fld w 1 5; let o := fld w 0 1 == 1; let op := fld w 16 7
  if fld w 23 3 != 3 then none else
  if op < 8 then only (d == 0 && b == 0 && !o) (.esetText op a) else
  match op with
  | 0x10 => some (.xbind d a b o) | 0x11 => some (.xfollow d a b o) | 0x12 => some (.xtok d a b o)
  | 0x13 => some (.xdetok d a b o) | 0x14 => some (.xmask d a b o)
  | _ => none

/-- Major 0x34 (R375 to R377). -/
noncomputable def decApx (w : Nat) : Option Instr :=
  let d := fld w 11 5; let a := fld w 6 5; let b := fld w 1 5; let o := fld w 0 1 == 1
  if fld w 23 3 != 4 then none else
  match fld w 16 7 with
  | 0x00 => only (!o) (.apxBegin d a b) | 0x01 => only (b == 0 && !o) (.apxEnd d a)
  | 0x02 => only (!o) (.apxCfg d a b) | 0x03 => only (b == 0 && !o) (.apxInv d a)
  | 0x04 => only (b == 0 && !o) (.apxStat d a)
  | 0x08 => some (.apxLoad d a b o) | 0x09 => some (.apxSave d a b o)
  | _ => none

/-- Major 0x35 (R265 to R267): the engine field names the engine whose timeline is used. -/
noncomputable def decTimeline (w : Nat) : Option Instr :=
  let d := fld w 11 5; let a := fld w 6 5; let b := fld w 1 5; let o := fld w 0 1
  if b != 0 || o != 0 then none else
  (Eng.ofCode (fld w 23 3)).bind fun e =>
  match fld w 16 7 with
  | 0 => only (d == 0) (.twait e a) | 1 => only (a == 0) (.tget e d) | 2 => only (a == 0) (.tgetE e d)
  | 3 => only (a == 0) (.tgetA e d) | 4 => only (d == 0) (.tnote e a)
  | _ => none

/-- Major 0x38 (R327 to R331, R339 to R348). -/
noncomputable def decCatch (w : Nat) : Option Instr :=
  let d := fld w 11 5; let a := fld w 6 5; let b := fld w 1 5; let o := fld w 0 1 == 1
  if fld w 23 3 != 5 then none else
  match fld w 16 7 with
  | 0x00 => some (.ccfg d a b o) | 0x01 => only (b == 0) (.crejoin d a o)
  | 0x08 => only (b == 0 && !o) (.cmrd d a) | 0x09 => only (!o) (.cmwr d a b)
  | 0x0A => only (a == 0 && b == 0 && !o) (.cstat d)
  | 0x10 => only (!o) (.catch d a b) | 0x11 => only (!o) (.catchNv d a b)
  | 0x40 => only (!o) (.cwait d a b) | 0x41 => only (!o) (.nmax d a b)
  | 0x42 => only (!o) (.nsum d a b) | 0x43 => only (!o) (.nsumMax d a b) | 0x44 => only (!o) (.catchK d a b)
  | _ => none

/-- Major 0x39 (R341, R342). -/
noncomputable def decComb (w : Nat) : Option Instr :=
  let d := fld w 21 5; let a := fld w 16 5; let b := fld w 11 5; let p := fld w 8 3; let c := fld w 7 1 == 1
  if p == 0 && c then none else
  match fld w 0 7 with
  | 0 => some (.ccomb d a b p c) | 8 => some (.gnoise d a b p c) | 9 => only (a == 0) (.gnoiseU d b p c)
  | _ => none

/-- The instruction of one word (R51); the prefix's major is not one. -/
noncomputable def decodeOne (w : Nat) : Option Instr :=
  match fld w 26 6 with
  | 0x01 => decInt w | 0x02 => decImm w
  | 0x03 => some (.lih (fld w 21 5) (sx 21 (fld w 0 21))) | 0x04 => some (.adrp (fld w 21 5) (sx 21 (fld w 0 21)))
  | 0x08 => decLd w | 0x09 => decSt w | 0x0A => decAmo w | 0x0B => decCounted w | 0x0C => decFence w | 0x0D => decFmem w
  | 0x10 => some (.beq (fld w 21 5) (fld w 16 5) (sx 16 (fld w 0 16)))
  | 0x11 => some (.bne (fld w 21 5) (fld w 16 5) (sx 16 (fld w 0 16)))
  | 0x12 => some (.blt (fld w 21 5) (fld w 16 5) (sx 16 (fld w 0 16)))
  | 0x13 => some (.bge (fld w 21 5) (fld w 16 5) (sx 16 (fld w 0 16)))
  | 0x14 => some (.bltn (fld w 21 5) (fld w 16 5) (sx 16 (fld w 0 16)))
  | 0x15 => some (.bgen (fld w 21 5) (fld w 16 5) (sx 16 (fld w 0 16)))
  | 0x16 => some (.j (sx 26 (fld w 0 26))) | 0x17 => some (.jl (sx 26 (fld w 0 26)))
  | 0x18 => only (fld w 12 4 == 0) (.jlr (fld w 21 5) (fld w 16 5) (sx 12 (fld w 0 12)))
  | 0x19 => decSys w | 0x1A => decCtx w | 0x1B => decFp w
  | 0x20 => decVec false w | 0x21 => decVec true w | 0x22 => decVmem w | 0x23 => decCvt w
  | 0x24 => decSpecial w | 0x25 => decPred w | 0x26 => decPerm w | 0x27 => decVctl w
  | 0x28 => decTile w | 0x29 => decMma w | 0x2A => decSparse w | 0x2B => decAcc w | 0x2C => decRns w
  | 0x30 => decCopy w | 0x31 => decColl w | 0x32 => decQueue w | 0x33 => decText w | 0x34 => decApx w
  | 0x35 => decTimeline w | 0x38 => decCatch w | 0x39 => decComb w
  | _ => none

/-- The modifiers of a prefix word (R49, R50). -/
def decPrefix (w : Nat) : Option Prefix :=
  if fld w 26 6 = 0x3E ∧ fld w 25 1 = 0 ∧ fld w 0 14 = 0 then
    (Clamp.ofCode (fld w 22 2)).map fun k => ⟨fld w 24 1 == 1, k, fld w 21 1 == 1, fld w 20 1 == 1, sx 6 (fld w 14 6)⟩
  else none

/-- Whether a word is a prefix, so that the pair takes a second word (R50). -/
def isPrefixWord (w : Nat) : Bool := fld w 26 6 == 0x3E

/-- The instruction of a prefix word and the word after it (R50). -/
noncomputable def decodePair (w w2 : Nat) : Option Instr :=
  (decPrefix w).bind fun q => (decodeOne w2).bind fun i => only (takesPrefix q i) (.prefixed q i)

/-- The word in four bytes, lowest address first (R3). -/
def wordOf (b0 b1 b2 b3 : Byte) : Nat := b0.toNat + b1.toNat * 2 ^ 8 + b2.toNat * 2 ^ 16 + b3.toNat * 2 ^ 24

/-- The four bytes of a word, lowest address first. -/
def bytesOf (w : Nat) : List Byte :=
  [BitVec.ofNat 8 w, BitVec.ofNat 8 (w / 2 ^ 8), BitVec.ofNat 8 (w / 2 ^ 16), BitVec.ofNat 8 (w / 2 ^ 24)]

/-- The instruction at the head of a list of bytes, with the bytes after it; none where the words trap ILLEGAL or the
list ends too soon. -/
noncomputable def decode : List Byte → Option (Instr × List Byte)
  | b0 :: b1 :: b2 :: b3 :: rest =>
    if isPrefixWord (wordOf b0 b1 b2 b3) then
      match rest with
      | c0 :: c1 :: c2 :: c3 :: rest2 =>
        (decodePair (wordOf b0 b1 b2 b3) (wordOf c0 c1 c2 c3)).map fun i => (i, rest2)
      | _ => none
    else (decodeOne (wordOf b0 b1 b2 b3)).map fun i => (i, rest)
  | _ => none

/-- The first `n` bytes of a number, lowest first. -/
def lowBytes : Nat → Nat → List Byte
  | 0, _ => []
  | n + 1, w => BitVec.ofNat 8 w :: lowBytes n (w / 2 ^ 8)

/-- The instruction that the decoder reads from a table word of `nbits` bits, the bits above them zero. -/
noncomputable def decodeTableWord (nbits w : Nat) : Option Instr :=
  (decode (lowBytes 8 (w % 2 ^ nbits))).map (·.1)

/-- The fields of the X format above its function (R44). -/
def fX (base d a b : Nat) : Nat := base + d * 2 ^ 21 + a * 2 ^ 16 + b * 2 ^ 11

/-- The fields of the I and S formats (R44). -/
def fI (base d a s i : Nat) : Nat := base + d * 2 ^ 21 + a * 2 ^ 16 + s * 2 ^ 12 + i

/-- The fields of the V and VX formats above their function (R44, R47). -/
def fV (base d a b p : Nat) (c : Bool) : Nat :=
  base + d * 2 ^ 21 + a * 2 ^ 16 + b * 2 ^ 11 + p * 2 ^ 8 + c.toNat * 2 ^ 7

/-- The fields of the M format above its function (R44). -/
def fM (base c a b v s : Nat) : Nat := base + c * 2 ^ 22 + a * 2 ^ 19 + b * 2 ^ 16 + v * 2 ^ 11 + s * 2 ^ 6

/-- The fields of the E format below its selector (R44). -/
def fE (base d a b o : Nat) : Nat := base + d * 2 ^ 11 + a * 2 ^ 6 + b * 2 + o

/-- The word of an instruction of one word, with its fields where the opcode table puts them (R44, R51); 0, an illegal
word, for events and for a prefixed pair. -/
def encodeOne : Instr → Nat
  | .add d a b => fX 0x04000000 d a b
  | .sub d a b => fX 0x04000001 d a b
  | .and d a b => fX 0x04000002 d a b
  | .or d a b => fX 0x04000003 d a b
  | .xor d a b => fX 0x04000004 d a b
  | .andn d a b => fX 0x04000005 d a b
  | .sll d a b => fX 0x04000008 d a b
  | .srl d a b => fX 0x04000009 d a b
  | .sra d a b => fX 0x0400000A d a b
  | .rol d a b => fX 0x0400000B d a b
  | .slt d a b => fX 0x04000010 d a b
  | .sltn d a b => fX 0x04000011 d a b
  | .seq d a b => fX 0x04000012 d a b
  | .sne d a b => fX 0x04000013 d a b
  | .min d a b => fX 0x04000014 d a b
  | .max d a b => fX 0x04000015 d a b
  | .minn d a b => fX 0x04000016 d a b
  | .maxn d a b => fX 0x04000017 d a b
  | .mul d a b => fX 0x04000020 d a b
  | .mulh d a b => fX 0x04000021 d a b
  | .mulhn d a b => fX 0x04000022 d a b
  | .div d a b => fX 0x04000024 d a b
  | .divn d a b => fX 0x04000025 d a b
  | .rem d a b => fX 0x04000026 d a b
  | .remn d a b => fX 0x04000027 d a b
  | .clz d a => fX 0x04000030 d a 0
  | .ctz d a => fX 0x04000031 d a 0
  | .popc d a => fX 0x04000032 d a 0
  | .bswap d a => fX 0x04000033 d a 0
  | .sextI8 d a => fX 0x04000034 d a 0
  | .sextI16 d a => fX 0x04000035 d a 0
  | .sextI32 d a => fX 0x04000036 d a 0
  | .zextN8 d a => fX 0x04000037 d a 0
  | .zextN16 d a => fX 0x04000038 d a 0
  | .zextN32 d a => fX 0x04000039 d a 0
  | .addi d a i => fX 0x08000000 d a 0 + ux 12 i
  | .andi d a i => fX 0x08001000 d a 0 + ux 12 i
  | .ori d a i => fX 0x08002000 d a 0 + ux 12 i
  | .xori d a i => fX 0x08003000 d a 0 + ux 12 i
  | .slti d a i => fX 0x08004000 d a 0 + ux 12 i
  | .sltni d a i => fX 0x08005000 d a 0 + ux 12 i
  | .seqi d a i => fX 0x08006000 d a 0 + ux 12 i
  | .slli d a s => fX 0x08007000 d a 0 + s
  | .srli d a s => fX 0x08008000 d a 0 + s
  | .srai d a s => fX 0x08009000 d a 0 + s
  | .lih d i => fX 0x0C000000 d 0 0 + ux 21 i
  | .adrp d i => fX 0x10000000 d 0 0 + ux 21 i
  | .beq a b o => fX 0x40000000 a b 0 + ux 16 o
  | .bne a b o => fX 0x44000000 a b 0 + ux 16 o
  | .blt a b o => fX 0x48000000 a b 0 + ux 16 o
  | .bge a b o => fX 0x4C000000 a b 0 + ux 16 o
  | .bltn a b o => fX 0x50000000 a b 0 + ux 16 o
  | .bgen a b o => fX 0x54000000 a b 0 + ux 16 o
  | .j o => 0x58000000 + ux 26 o
  | .jl o => 0x5C000000 + ux 26 o
  | .jlr d a i => fX 0x60000000 d a 0 + ux 12 i
  | .hstart d a b => fX 0x68000000 d a b
  | .hstartN d a b => fX 0x68000001 d a b
  | .hexit => 0x68000002
  | .gjoin g => 0x68000008 + g * 2 ^ 20
  | .gleave g => 0x68000009 + g * 2 ^ 20
  | .gbar g b x => 0x6800000A + g * 2 ^ 20 + b * 2 ^ 17 + x * 2 ^ 11
  | .sstep => 0x68000010
  | .svote d a => fX 0x68000011 d a 0
  | .sexit a => fX 0x68000012 0 a 0
  | .sysrd d c => fX 0x64000000 d 0 0 + c
  | .syswr d a c => fX 0x64001000 d a 0 + c
  | .sysset d a c => fX 0x64002000 d a 0 + c
  | .sysclr d a c => fX 0x64003000 d a 0 + c
  | .tret => 0x64004000
  | .uret => 0x64005000
  | .svc i => 0x64006000 + i
  | .brk i => 0x64007000 + i
  | .yield => 0x64008000
  | .fadd d a b f => fX 0x6C000000 d a b + f.code
  | .fsub d a b f => fX 0x6C000004 d a b + f.code
  | .fmul d a b f => fX 0x6C000008 d a b + f.code
  | .fdiv d a b f => fX 0x6C00000C d a b + f.code
  | .fsqrt d a f => fX 0x6C000010 d a 0 + f.code
  | .fmin d a b f => fX 0x6C000014 d a b + f.code
  | .fmax d a b f => fX 0x6C000018 d a b + f.code
  | .fmac d a b f => fX 0x6C00001C d a b + f.code
  | .fnmac d a b f => fX 0x6C000020 d a b + f.code
  | .fneg d a f => fX 0x6C000024 d a 0 + f.code
  | .fabs d a f => fX 0x6C000028 d a 0 + f.code
  | .feq d a b f => fX 0x6C000040 d a b + f.code
  | .flt d a b f => fX 0x6C000044 d a b + f.code
  | .fle d a b f => fX 0x6C000048 d a b + f.code
  | .fcvtFpToInt d a t f => fX 0x6C000060 d a t.code + f.code
  | .fcvtIntToFp d a t f => fX 0x6C000064 d a t.code + f.code
  | .fcvtFpToFp d a s f => fX 0x6C000068 d a s.code + f.code
  | .fmvx d a => fX 0x6C000070 d a 0
  | .fmvf d a => fX 0x6C000074 d a 0
  | .ld d a s i => fI 0x20000000 d a s.code (ux 12 i)
  | .st b a s i => fI 0x24000000 b a s.code (ux 12 i)
  | .fld d a s i => fI 0x34000000 d a s.code (ux 12 i)
  | .fst b a s i => fI 0x34008000 b a s.code (ux 12 i)
  | .amoSwap d a b t => fX 0x28000000 d a b + t.code
  | .amoAdd d a b t => fX 0x28000008 d a b + t.code
  | .amoAnd d a b t => fX 0x28000010 d a b + t.code
  | .amoOr d a b t => fX 0x28000018 d a b + t.code
  | .amoXor d a b t => fX 0x28000020 d a b + t.code
  | .amoMin d a b t => fX 0x28000028 d a b + t.code
  | .amoMax d a b t => fX 0x28000030 d a b + t.code
  | .amoCas d a b t => fX 0x28000038 d a b + t.code
  | .amoNib d a b => fX 0x28000044 d a b
  | .amoSadd0 d a b t => fX 0x2800004A d a b + t.toNat
  | .amoSadd1 d a b t => fX 0x28000052 d a b + t.toNat
  | .amoSadd2 d a b t => fX 0x2800005A d a b + t.toNat
  | .amoSadd3 d a b t => fX 0x28000062 d a b + t.toNat
  | .faddX a b t => fX 0x28000068 0 a b + t.code
  | .xaccRd d a t => fX 0x28000070 d a 0 + t.code
  | .ldTake d a s i => fI 0x2C000000 d a s.code (ux 12 i)
  | .stFill x a n => fX 0x2C008000 x a 0 + n
  | .rcClose b a => fX 0x2C009000 b a 0
  | .fence s => 0x30000000 + s
  | .fenceRel s => 0x30000008 + s
  | .fenceAcq s => 0x30000010 + s
  | .lcClean a b => fX 0x30000020 0 a b
  | .lcInv a b => fX 0x30000021 0 a b
  | .lcFlush a b => fX 0x30000022 0 a b
  | .l2Evict d a b => fX 0x30000024 d a b
  | .vld d a p c => fV 0x88000000 d a 0 p c
  | .vst d a p c => fV 0x88000001 d a 0 p c
  | .vgather d v b p c w => fV 0x88000008 d v b p c + w.toNat
  | .vscatter d v b p c w => fV 0x8800000A d v b p c + w.toNat
  | .vtake d a => fX 0x88000010 d a 0
  | .vfill d a b => fX 0x88000011 d a b
  | .vlds d a => fX 0x88000018 d a 0
  | .vsts d a => fX 0x88000019 d a 0
  | .vaddInt m d a b p c t => fV (0x80000000 + m.toNat * 2 ^ 26) d a b p c + t.code
  | .vsubInt m d a b p c t => fV (0x80000008 + m.toNat * 2 ^ 26) d a b p c + t.code
  | .vmulInt m d a b p c t => fV (0x80000010 + m.toNat * 2 ^ 26) d a b p c + t.code
  | .vmulh m d a b p c t => fV (0x80000018 + m.toNat * 2 ^ 26) d a b p c + t.code
  | .vminInt m d a b p c t => fV (0x80000020 + m.toNat * 2 ^ 26) d a b p c + t.code
  | .vmaxInt m d a b p c t => fV (0x80000028 + m.toNat * 2 ^ 26) d a b p c + t.code
  | .vshl m d a b p c t => fV (0x80000030 + m.toNat * 2 ^ 26) d a b p c + t.code
  | .vshr m d a b p c t => fV (0x80000038 + m.toNat * 2 ^ 26) d a b p c + t.code
  | .vand m d a b p c => fV (0x80000040 + m.toNat * 2 ^ 26) d a b p c
  | .vor m d a b p c => fV (0x80000041 + m.toNat * 2 ^ 26) d a b p c
  | .vxor m d a b p c => fV (0x80000042 + m.toNat * 2 ^ 26) d a b p c
  | .vandn m d a b p c => fV (0x80000043 + m.toNat * 2 ^ 26) d a b p c
  | .vsel m d a b p c => fV (0x80000044 + m.toNat * 2 ^ 26) d a b p c
  | .vaddFp m d a b p c t => fV (0x80000050 + m.toNat * 2 ^ 26) d a b p c + t.code
  | .vsubFp m d a b p c t => fV (0x80000054 + m.toNat * 2 ^ 26) d a b p c + t.code
  | .vmulFp m d a b p c t => fV (0x80000058 + m.toNat * 2 ^ 26) d a b p c + t.code
  | .vfma m d a b p c t => fV (0x8000005C + m.toNat * 2 ^ 26) d a b p c + t.code
  | .vfnma m d a b p c t => fV (0x80000060 + m.toNat * 2 ^ 26) d a b p c + t.code
  | .vminFp m d a b p c t => fV (0x80000064 + m.toNat * 2 ^ 26) d a b p c + t.code
  | .vmaxFp m d a b p c t => fV (0x80000068 + m.toNat * 2 ^ 26) d a b p c + t.code
  | .vabs d a p c t => fV 0x8000006C d a 0 p c + t.code
  | .vneg d a p c t => fV 0x80000070 d a 0 p c + t.code
  | .vceqInt d a b p c t => fV 0x94000000 d a b p c + t.code
  | .vcneInt d a b p c t => fV 0x94000008 d a b p c + t.code
  | .vcltInt d a b p c t => fV 0x94000010 d a b p c + t.code
  | .vcleInt d a b p c t => fV 0x94000018 d a b p c + t.code
  | .vceqFp d a b p c t => fV 0x94000020 d a b p c + t.code
  | .vcneFp d a b p c t => fV 0x94000024 d a b p c + t.code
  | .vcltFp d a b p c t => fV 0x94000028 d a b p c + t.code
  | .vcleFp d a b p c t => fV 0x9400002C d a b p c + t.code
  | .vcun d a b p c t => fV 0x94000030 d a b p c + t.code
  | .pand d a b p c => fV 0x94000040 d a b p c
  | .por d a b p c => fV 0x94000041 d a b p c
  | .pxor d a b p c => fV 0x94000042 d a b p c
  | .pandn d a b p c => fV 0x94000043 d a b p c
  | .pnot d a p c => fV 0x94000044 d a 0 p c
  | .pcnt d a p c => fV 0x94000048 d a 0 p c
  | .pffs d a p c => fV 0x94000049 d a 0 p c
  | .pmask d a p c => fV 0x9400004A d a 0 p c
  | .vperm d a b p c t => fV 0x98000000 d a b p c + t.code
  | .vcompress d a p c t => fV 0x98000008 d a 0 p c + t.code
  | .vexpand d a p c t => fV 0x98000010 d a 0 p c + t.code
  | .vredsumInt d a p c t => fV 0x98000018 d a 0 p c + t.code
  | .vredminInt d a p c t => fV 0x98000020 d a 0 p c + t.code
  | .vredmaxInt d a p c t => fV 0x98000028 d a 0 p c + t.code
  | .vargmaxInt d a p c t => fV 0x98000030 d a 0 p c + t.code
  | .vargminInt d a p c t => fV 0x98000038 d a 0 p c + t.code
  | .vredsumFp d a p c t => fV 0x98000040 d a 0 p c + t.code
  | .vredminFp d a p c t => fV 0x98000044 d a 0 p c + t.code
  | .vredmaxFp d a p c t => fV 0x98000048 d a 0 p c + t.code
  | .vargmaxFp d a p c t => fV 0x9800004C d a 0 p c + t.code
  | .vargminFp d a p c t => fV 0x98000050 d a 0 p c + t.code
  | .vcvt d a p c k up => fV 0x8C000000 d a 0 p c + (2 * k.code + up.toNat)
  | .vcvtFb d a fb4 up => fX 0x8C00001C d a 0 + (2 * fb4.toNat + up.toNat)
  | .vmxcvt d a up => fX 0x8C000020 d a 0 + up.toNat
  | .vaddFb d a b fb4 => 0x8C000028 + d * 2 ^ 21 + a * 2 ^ 16 + b * 2 ^ 11 + fb4.toNat * 2 ^ 2
  | .vsubFb d a b fb4 => 0x8C000029 + d * 2 ^ 21 + a * 2 ^ 16 + b * 2 ^ 11 + fb4.toNat * 2 ^ 2
  | .vmulFb d a b fb4 => 0x8C00002A + d * 2 ^ 21 + a * 2 ^ 16 + b * 2 ^ 11 + fb4.toNat * 2 ^ 2
  | .vmulLg6 d a b p c => fV 0x8C000030 d a b p c
  | .vrcp d a p c => fV 0x90000000 d a 0 p c
  | .vrsq d a p c => fV 0x90000001 d a 0 p c
  | .vrcps d a b p c => fV 0x90000002 d a b p c
  | .vrsqs d a b p c => fV 0x90000003 d a b p c
  | .vexp2 d a p c => fV 0x90000004 d a 0 p c
  | .vlog2 d a p c => fV 0x90000005 d a 0 p c
  | .vdupInt d b p c t => fV 0x9C000000 d 0 b p c + t.code
  | .vdupFp d b p c t => fV 0x9C000008 d 0 b p c + t.code
  | .vrep b => fX 0x9C000010 0 0 b
  | .vbusy d => fX 0x9C000011 d 0 0
  | .vfence => 0x9C000012
  | .tcfg t a => fX 0xA0000000 t a 0
  | .tzero t => fX 0xA0000001 t 0 0
  | .tld t a b => fX 0xA0000008 t a b
  | .tst t a b => fX 0xA0000009 t a b
  | .ttake t a => fX 0xA000000A t a 0
  | .tfill t a b => fX 0xA000000B t a b
  | .tlds t a => fX 0xA000000C t a 0
  | .tsts t a => fX 0xA000000D t a 0
  | .tmvr t v b => fX 0xA0000010 t v b
  | .tmvc t v b => fX 0xA0000011 t v b
  | .tgetr d t b => fX 0xA0000012 d t b
  | .tgetc d t b => fX 0xA0000013 d t b
  | .tmma c a b v s n => fM 0xA4000000 c a b v s + n.code
  | .tmmaSp c a b v s n => fM 0xA8000000 c a b v s + n.code
  | .adrain c t v z f => fM 0xAC000000 c t 0 v 0 + z.toNat * 2 ^ 3 + f.code
  | .aclear c v => fM 0xAC000010 c 0 0 v 0
  | .aclearRns c v => fM 0xAC000011 c 0 0 v 0
  | .aclaim c => fM 0xAC000012 c 0 0 0 0
  | .afree c => fM 0xAC000013 c 0 0 0 0
  | .astat c v => fM 0xAC000014 c 0 0 v 0
  | .tmmaI8I8 c a b v => fM 0xB0000000 c a b v 0
  | .tmmaRnsRns c a b v => fM 0xB0000001 c a b v 0
  | .adrainRns c t v q => fM 0xB0000008 c t 0 v 0 + q.toNat
  | .adrainRnsW c t u v q => fM 0xB000000A c t u v 0 + q.toNat
  | .rnsfwd d a p c => fV 0xB0000020 d a 0 p c
  | .rnsrev d a p c => fV 0xB0000021 d a 0 p c
  | .rnsrevSt d a p c => fV 0xB0000022 d a 0 p c
  | .rnsstat d a => fX 0xB0000024 d a 0
  | .esetCopy k a => fE (0xC0000000 + k * 2 ^ 16) 0 a 0 0
  | .esetColl k a => fE (0xC4800000 + k * 2 ^ 16) 0 a 0 0
  | .esetText k a => fE (0xCD800000 + k * 2 ^ 16) 0 a 0 0
  | .ecopy d a b o => fE 0xC0100000 d a b o.toNat
  | .egather d a b o => fE 0xC0110000 d a b o.toNat
  | .escatter d a b o => fE 0xC0120000 d a b o.toNat
  | .ecopy2d d a b o => fE 0xC0130000 d a b o.toNat
  | .ecfill d a b o => fE 0xC0140000 d a b o.toNat
  | .emigrate d a b o => fE 0xC0180000 d a b o.toNat
  | .callred d a b o => fE 0xC4900000 d a b o.toNat
  | .callgat d a b o => fE 0xC4910000 d a b o.toNat
  | .credsc d a b o => fE 0xC4920000 d a b o.toNat
  | .cbcast d a b o => fE 0xC4930000 d a b o.toNat
  | .cabort d a o => fE 0xC4980000 d a 0 o.toNat
  | .qpub d a b o => fE 0xC9100000 d a b o.toNat
  | .qclaim d a b o => fE 0xC9110000 d a b o.toNat
  | .qlaunch d a b o => fE 0xC9120000 d a b o.toNat
  | .qsignal d a o => fE 0xC9130000 d a 0 o.toNat
  | .xbind d a b o => fE 0xCD900000 d a b o.toNat
  | .xfollow d a b o => fE 0xCD910000 d a b o.toNat
  | .xtok d a b o => fE 0xCD920000 d a b o.toNat
  | .xdetok d a b o => fE 0xCD930000 d a b o.toNat
  | .xmask d a b o => fE 0xCD940000 d a b o.toNat
  | .twait e a => fE (0xD4000000 + e.code * 2 ^ 23) 0 a 0 0
  | .tget e d => fE (0xD4010000 + e.code * 2 ^ 23) d 0 0 0
  | .tgetE e d => fE (0xD4020000 + e.code * 2 ^ 23) d 0 0 0
  | .tgetA e d => fE (0xD4030000 + e.code * 2 ^ 23) d 0 0 0
  | .tnote e a => fE (0xD4040000 + e.code * 2 ^ 23) 0 a 0 0
  | .apxBegin d a b => fE 0xD2000000 d a b 0
  | .apxEnd d a => fE 0xD2010000 d a 0 0
  | .apxCfg d a b => fE 0xD2020000 d a b 0
  | .apxInv d a => fE 0xD2030000 d a 0 0
  | .apxStat d a => fE 0xD2040000 d a 0 0
  | .apxLoad d a b o => fE 0xD2080000 d a b o.toNat
  | .apxSave d a b o => fE 0xD2090000 d a b o.toNat
  | .ccfg d a b o => fE 0xE2800000 d a b o.toNat
  | .crejoin d a o => fE 0xE2810000 d a 0 o.toNat
  | .cmrd d a => fE 0xE2880000 d a 0 0
  | .cmwr d a b => fE 0xE2890000 d a b 0
  | .cstat d => fE 0xE28A0000 d 0 0 0
  | .catch d a b => fE 0xE2900000 d a b 0
  | .catchNv d a b => fE 0xE2910000 d a b 0
  | .cwait d a b => fE 0xE2C00000 d a b 0
  | .nmax d a b => fE 0xE2C10000 d a b 0
  | .nsum d a b => fE 0xE2C20000 d a b 0
  | .nsumMax d a b => fE 0xE2C30000 d a b 0
  | .catchK d a b => fE 0xE2C40000 d a b 0
  | .ccomb d a b p c => fV 0xE4000000 d a b p c
  | .gnoise d a b p c => fV 0xE4000008 d a b p c
  | .gnoiseU d b p c => fV 0xE4000009 d 0 b p c
  | _ => 0

/-- The word of a prefix (R49). -/
def Prefix.word (q : Prefix) : Nat :=
  0xF8000000 + q.sat.toNat * 2 ^ 24 + q.clamp.code * 2 ^ 22 + q.neg.toNat * 2 ^ 21 + q.abs.toNat * 2 ^ 20
    + ux 6 q.sc * 2 ^ 14

/-- The words of an instruction: two for a prefixed one, none for an event. -/
def encode : Instr → List Nat
  | .prefixed q i => [q.word, encodeOne i]
  | i => if encodeOne i = 0 then [] else [encodeOne i]

end Sys2Proof
end

