-- ==== Sys2Proof/Machine/Numbers.lean ====
section
/-! DEFINITION. Number formats and exact arithmetic (R58 to R74): exact values, their decoding from codes, their exact
combination, and the one rounding of each result, with its flags. -/

namespace Sys2Proof.Machine

open Sys2Proof

/-- The flags NV, DZ, OF, UF, NX in bits 0 to 4, in the order of FPCTL[8:4] (R67, R68). -/
abbrev Flags := BitVec 5

/-- Invalid. -/
def fNV : Flags := 1
/-- Divide by zero. -/
def fDZ : Flags := 2
/-- Overflow. -/
def fOF : Flags := 4
/-- Underflow. -/
def fUF : Flags := 8
/-- Inexact. -/
def fNX : Flags := 16

/-- An exact value: a NaN (signalling or quiet), an infinity, or `(-1)^neg × m × 2^e`; `sticky` says that the magnitude
lies strictly between `m × 2^e` and `(m+1) × 2^e`, for irrational or unended values. -/
inductive Num
  | nan (sig : Bool)
  | inf (neg : Bool)
  | fin (neg : Bool) (m : Nat) (e : Int) (sticky : Bool)
  deriving DecidableEq, Repr

/-- Rounding modes in FPCTL.RM's order (R67). -/
inductive RM | ne | tz | up | down
  deriving DecidableEq, Repr

/-- The mode of an RM code. -/
def RM.ofCode (n : Nat) : RM := match n with | 0 => .ne | 1 => .tz | 2 => .up | _ => .down

/-- How a format uses its all-ones exponent (R59). -/
inductive Top | ieee | e4m3 | e2m1
  deriving DecidableEq, Repr

/-- A floating-point format (R58): exponent and fraction bits, bias, and the use of the top exponent. -/
structure Fmt where
  eb   : Nat
  fb   : Nat
  bias : Nat
  top  : Top
  deriving DecidableEq, Repr

/-- FP64 (R58). -/
def fp64 : Fmt := ⟨11, 52, 1023, .ieee⟩
/-- FP32 (R58). -/
def fp32 : Fmt := ⟨8, 23, 127, .ieee⟩
/-- FP16 (R58). -/
def fp16 : Fmt := ⟨5, 10, 15, .ieee⟩
/-- BF16 (R58). -/
def bf16 : Fmt := ⟨8, 7, 127, .ieee⟩
/-- E5M2 (R58). -/
def e5m2 : Fmt := ⟨5, 2, 15, .ieee⟩
/-- E4M3 (R58). -/
def e4m3 : Fmt := ⟨4, 3, 7, .e4m3⟩
/-- E2M1 (R58). -/
def e2m1 : Fmt := ⟨2, 1, 1, .e2m1⟩

/-- The width of a code in bits. -/
def Fmt.width (f : Fmt) : Nat := 1 + f.eb + f.fb
/-- The sign bit's weight. -/
def Fmt.signBit (f : Fmt) : Nat := 2 ^ (f.eb + f.fb)
/-- The largest finite magnitude's code (R61). -/
def Fmt.maxCode (f : Fmt) : Nat :=
  match f.top with
  | .ieee => (2 ^ f.eb - 1) * 2 ^ f.fb - 1
  | .e4m3 => 2 ^ (f.eb + f.fb) - 2
  | .e2m1 => 2 ^ (f.eb + f.fb) - 1
/-- The code of +inf in a format that has one. -/
def Fmt.infCode (f : Fmt) : Nat := (2 ^ f.eb - 1) * 2 ^ f.fb
/-- The canonical NaN (R60); +0 in a format without NaN. -/
def Fmt.nanCode (f : Fmt) : Nat :=
  match f.top with
  | .ieee => (2 ^ f.eb - 1) * 2 ^ f.fb + 2 ^ (f.fb - 1)
  | .e4m3 => 2 ^ (f.eb + f.fb) - 1
  | .e2m1 => 0

/-- The code of a sign and a magnitude code. -/
def Fmt.signed (f : Fmt) (neg : Bool) (c : Nat) : Nat := if neg then f.signBit + c else c

/-- Whether the format's NaNs can signal (R60). -/
def Fmt.signals (f : Fmt) : Bool := f.top == .ieee && f.fb != 2

/-- The value of a code (R59, R60); bits above the format's width are ignored. -/
def decodeFp (f : Fmt) (code : Nat) : Num :=
  let c := code % f.signBit
  let neg := code / f.signBit % 2 == 1
  let e := c / 2 ^ f.fb
  let m := c % 2 ^ f.fb
  if f.top == .ieee && e == 2 ^ f.eb - 1 then
    if m == 0 then .inf neg else .nan (f.signals && m < 2 ^ (f.fb - 1))
  else if f.top == .e4m3 && c == 2 ^ (f.eb + f.fb) - 1 then .nan false
  else if e == 0 then .fin neg m (1 - (f.bias : Int) - f.fb) false
  else .fin neg (2 ^ f.fb + m) ((e : Int) - f.bias - f.fb) false

/-- Whether the value is a NaN. -/
def Num.isNan : Num → Bool
  | .nan _ => true
  | _ => false
/-- Whether the value is a signalling NaN. -/
def Num.isSig : Num → Bool
  | .nan s => s
  | _ => false
/-- Whether the value is infinite. -/
def Num.isInf : Num → Bool
  | .inf _ => true
  | _ => false
/-- Whether the value is zero of either sign. -/
def Num.isZero : Num → Bool
  | .fin _ m _ s => m == 0 && !s
  | _ => false
/-- The sign. -/
def Num.sign : Num → Bool
  | .nan _ => false
  | .inf n => n
  | .fin n _ _ _ => n
/-- The negated value. -/
def Num.negate : Num → Num
  | .nan s => .nan s
  | .inf n => .inf (!n)
  | .fin n m e s => .fin (!n) m e s
/-- The magnitude. -/
def Num.abs : Num → Num
  | .nan s => .nan s
  | .inf _ => .inf false
  | .fin _ m e s => .fin false m e s
/-- The value times `2^k`, exact; an infinity stays one (R125). -/
def Num.scale (k : Int) : Num → Num
  | .fin n m e s => .fin n m (e + k) s
  | x => x
/-- An integer as an exact value. -/
def Num.ofInt (i : Int) : Num := .fin (i < 0) i.natAbs 0 false
/-- Positive zero. -/
def Num.zero : Num := .fin false 0 0 false
/-- One. -/
def Num.one : Num := .fin false 1 0 false

/-- A finite value's signed integer at the exponent `q`, where `q` is not above its own. -/
def Num.atExp (q : Int) : Num → Int
  | .fin n m e _ => let v : Int := m * 2 ^ (e - q).toNat; if n then -v else v
  | _ => 0

/-- The exponent of a finite value. -/
def Num.exp : Num → Int
  | .fin _ _ e _ => e
  | _ => 0

/-- The exact value of a signed integer times `2^q`; a zero has the sign `z`. -/
def Num.ofScaled (z : Bool) (v : Int) (q : Int) : Num := if v = 0 then .fin z 0 q false else .fin (v < 0) v.natAbs q false

/-- Exact addition: the sum and its flags (R65). `down` is the mode toward −inf, which gives an exact zero sum its sign. -/
def Num.add (down : Bool) (a b : Num) : Num × Flags :=
  match a, b with
  | .nan s, y => (.nan false, if s || y.isSig then fNV else 0)
  | x, .nan s => (.nan false, if s || x.isSig then fNV else 0)
  | .inf n, .inf k => if n == k then (.inf n, 0) else (.nan false, fNV)
  | .inf n, _ => (.inf n, 0)
  | _, .inf k => (.inf k, 0)
  | .fin n m e s, .fin k l g t =>
    if m == 0 && !s && l == 0 && !t then (.fin (if n == k then n else down) 0 0 false, 0)
    else if m == 0 && !s then (.fin k l g t, 0)
    else if l == 0 && !t then (.fin n m e s, 0)
    else
      let q := min e g
      (.ofScaled down ((Num.fin n m e s).atExp q + (Num.fin k l g t).atExp q) q, 0)

/-- Exact multiplication (R65). -/
def Num.mul (a b : Num) : Num × Flags :=
  let sg := a.sign != b.sign
  match a, b with
  | .nan s, y => (.nan false, if s || y.isSig then fNV else 0)
  | x, .nan s => (.nan false, if s || x.isSig then fNV else 0)
  | .inf _, y => if y.isZero then (.nan false, fNV) else (.inf sg, 0)
  | x, .inf _ => if x.isZero then (.nan false, fNV) else (.inf sg, 0)
  | .fin _ m e _, .fin _ l g _ => (.fin sg (m * l) (e + g) false, 0)

/-- Division, to 160 bits and a sticky bit (R65). -/
def Num.div (a b : Num) : Num × Flags :=
  let sg := a.sign != b.sign
  match a, b with
  | .nan s, y => (.nan false, if s || y.isSig then fNV else 0)
  | x, .nan s => (.nan false, if s || x.isSig then fNV else 0)
  | .inf _, .inf _ => (.nan false, fNV)
  | .inf _, _ => (.inf sg, 0)
  | _, .inf _ => (.fin sg 0 0 false, 0)
  | .fin _ m e _, .fin _ l g _ =>
    if l == 0 then (if m == 0 then (.nan false, fNV) else (.inf sg, fDZ))
    else
      let k := 160 + Nat.log2 l
      let v := m * 2 ^ k
      (.fin sg (v / l) (e - g - k) (v % l != 0), 0)

/-- The bits of the integer square root of `n` from bit `k-1` down, given the root so far. -/
def isqrtBits : Nat → Nat → Nat → Nat
  | 0, _, r => r
  | k + 1, n, r => let c := r + 2 ^ k; isqrtBits k n (if c * c ≤ n then c else r)

/-- The integer square root. -/
def isqrt (n : Nat) : Nat := isqrtBits (Nat.log2 n / 2 + 1) n 0

/-- Square root, to 100 bits and a sticky bit (R65, R120). -/
def Num.sqrt (a : Num) : Num × Flags :=
  match a with
  | .nan s => (.nan false, if s then fNV else 0)
  | .inf true => (.nan false, fNV)
  | .inf false => (.inf false, 0)
  | .fin n m e _ =>
    if m == 0 then (.fin n 0 0 false, 0)
    else if n then (.nan false, fNV)
    else
      let odd : Nat := (e % 2).toNat
      let v := m * 2 ^ (200 + odd)
      let r := isqrt v
      (.fin false r ((e - odd) / 2 - 100) (r * r != v), 0)

/-- The comparison of two values that are not NaN; −0 equals +0. -/
def Num.cmp (a b : Num) : Ordering :=
  match a, b with
  | .inf n, .inf k => if n == k then .eq else if n then .lt else .gt
  | .inf n, _ => if n then .lt else .gt
  | _, .inf k => if k then .gt else .lt
  | x, y =>
    let q := min x.exp y.exp
    compare (x.atExp q) (y.atExp q)

/-- Whether `a < b`, for values that are not NaN. -/
def Num.lt (a b : Num) : Bool := a.cmp b == .lt
/-- Whether `a ≤ b`, for values that are not NaN. -/
def Num.le (a b : Num) : Bool := a.cmp b != .gt
/-- `a < b` where −0 counts as below +0 (R121, R130). -/
def Num.ltz (a b : Num) : Bool := a.lt b || (a.isZero && b.isZero && a.sign && !b.sign)

/-- Whether a magnitude is rounded away from zero: `rem` of `2^k` dropped bits, the last kept bit odd or not. -/
def roundsUp (rm : RM) (neg odd : Bool) (rem k : Nat) (sticky : Bool) : Bool :=
  let inexact := rem != 0 || sticky
  match rm with
  | .ne => if k = 0 then false else
      let half := 2 ^ (k - 1)
      rem > half || (rem == half && (sticky || odd))
  | .tz => false
  | .up => !neg && inexact
  | .down => neg && inexact

/-- A magnitude `m × 2^e` in units of `2^q`, rounded: the units and whether it was inexact. -/
def toUnits (rm : RM) (neg : Bool) (m : Nat) (e q : Int) (sticky : Bool) : Nat × Bool :=
  if q ≤ e then
    let s := m * 2 ^ (e - q).toNat
    (if roundsUp rm neg (s % 2 == 1) 0 0 sticky then s + 1 else s, sticky)
  else
    let k := (q - e).toNat
    let s := m / 2 ^ k
    let rem := m % 2 ^ k
    (if roundsUp rm neg (s % 2 == 1) rem k sticky then s + 1 else s, rem != 0 || sticky)

/-- Rounding an exact value to a format (R65): the code and the flags. -/
def roundFp (f : Fmt) (rm : RM) (x : Num) : Nat × Flags :=
  match x with
  | .nan s => if f.top == .e2m1 then (0, fNV) else (f.nanCode, if s then fNV else 0)
  | .inf n => if f.top == .ieee then (f.signed n f.infCode, 0) else (f.signed n f.maxCode, fOF ||| fNX)
  | .fin n m e s =>
    if m == 0 && !s then (f.signed n 0, 0) else
    let emin : Int := 1 - (f.bias : Int)
    let lg : Int := (Nat.log2 m : Int) + e
    let q : Int := max (lg - f.fb) (emin - f.fb)
    let (u, ix) := toUnits rm n m e q s
    let c := (q + f.fb + f.bias - 1).toNat * 2 ^ f.fb + u
    if c > f.maxCode then
      let toInf := f.top == .ieee && (match rm with | .ne => true | .tz => false | .up => !n | .down => n)
      (f.signed n (if toInf then f.infCode else f.maxCode), fOF ||| fNX)
    else
      (f.signed n c, (if ix then fNX else 0) ||| (if ix && (m == 0 || lg < emin) then fUF else 0))

/-- A finite value rounded to an integer, with whether it was inexact (R77). -/
def roundInt (rm : RM) (x : Num) : Int × Bool :=
  match x with
  | .fin n m e s =>
    let (u, ix) := toUnits rm n m e 0 s
    (if n then -(u : Int) else u, ix)
  | _ => (0, false)

/-- The width in bytes of a type (R77). -/
def T8.bytes : T8 → Nat
  | .i8 => 1 | .n8 => 1 | .i16 => 2 | .n16 => 2 | .i32 => 4 | .n32 => 4 | .i64 => 8 | .n64 => 8
/-- Whether a type is signed. -/
def T8.isSigned : T8 → Bool
  | .i8 => true | .i16 => true | .i32 => true | .i64 => true | _ => false

/-- The reading of the low `w` bits of `v` as a signed or natural number (R77). -/
def readInt (signed : Bool) (w v : Nat) : Int :=
  let u := v % 2 ^ w
  if signed && 2 ^ (w - 1) ≤ u then (u : Int) - 2 ^ w else u
/-- The low `w` bits of an integer (R77). -/
def wrapInt (w : Nat) (i : Int) : Nat := (i % 2 ^ w).toNat
/-- The least value of a type. -/
def minInt (signed : Bool) (w : Nat) : Int := if signed then -(2 ^ (w - 1)) else 0
/-- The greatest value of a type. -/
def maxInt (signed : Bool) (w : Nat) : Int := if signed then 2 ^ (w - 1) - 1 else 2 ^ w - 1
/-- A value held within a type's range. -/
def clampInt (signed : Bool) (w : Nat) (i : Int) : Int := max (minInt signed w) (min (maxInt signed w) i)

/-- Conversion of an exact value to an integer type (R77): the integer and its flags. -/
def toIntType (rm : RM) (signed : Bool) (w : Nat) (x : Num) : Int × Flags :=
  match x with
  | .nan _ => (0, fNV)
  | .inf n => (if n then minInt signed w else maxInt signed w, fNV ||| fNX)
  | _ =>
    let (i, ix) := roundInt rm x
    let r := clampInt signed w i
    (r, (if ix || r != i then fNX else 0) ||| (if r != i then fNV else 0))

/-- No modifiers (R49). -/
def noMods : Prefix := ⟨false, .none, false, false, 0⟩

/-- The clamp of an exact value that is not a NaN (R125); clamps to [0, 1] and [0, +inf) turn −0 into +0. -/
def clampNum (k : Clamp) (x : Num) : Num :=
  match k with
  | .none => x
  | .unit => if x.le .zero then .zero else if Num.one.lt x then .one else x
  | .sym => if x.lt Num.one.negate then Num.one.negate else if Num.one.lt x then .one else x
  | .pos => if x.le .zero then .zero else x

/-- The modifiers sc, abs, neg and clamp on an exact value (R125). -/
def modify (q : Prefix) (x : Num) : Num :=
  match x with
  | .nan s => .nan s
  | y =>
    let y := y.scale q.sc
    let y := if q.abs then y.abs else y
    let y := if q.neg then y.negate else y
    clampNum q.clamp y

/-- Finish for an FP destination (R125), with the rounding mode that R66 gives. -/
def finishFp (f : Fmt) (rm : RM) (q : Prefix) (x : Num) : Nat × Flags :=
  let (c, fl) := roundFp f rm (modify q x)
  if q.sat && f.top == .ieee && c % f.signBit == f.infCode then
    (c - 1, fl ||| fOF ||| fNX)
  else (c, fl)

/-- The modifiers on an integer result (R125): scaled and rounded to an integer, ties to even, then abs, neg, clamp. -/
def modifyInt (q : Prefix) (x : Num) : Int × Bool :=
  let (i, ix) := roundInt .ne (x.scale q.sc)
  let i := if q.abs then (i.natAbs : Int) else i
  let i := if q.neg then -i else i
  let i := match q.clamp with
    | .none => i
    | .unit => min (max i 0) 1
    | .sym => min (max i (-1)) 1
    | .pos => max i 0
  (i, ix)

/-- Finish for an integer arithmetic result (R125). -/
def finishInt (signed : Bool) (w : Nat) (q : Prefix) (i : Int) : Nat :=
  let (r, _) := modifyInt q (.ofInt i)
  wrapInt w (if q.sat then clampInt signed w r else r)

/-- Finish for a conversion from an FP format to an integer type (R77, R125). -/
def finishToInt (signed : Bool) (w : Nat) (q : Prefix) (x : Num) : Nat × Flags :=
  match x with
  | .nan _ => (0, fNV)
  | .inf _ =>
    match modify q x with
    | .inf n => (wrapInt w (if n then minInt signed w else maxInt signed w), fNV ||| fNX)
    | y => let (i, fl) := toIntType .ne signed w y; (wrapInt w i, fl)
  | y =>
    let (i, ix) := modifyInt q y
    let r := clampInt signed w i
    (wrapInt w r, (if ix || r != i then fNX else 0) ||| (if r != i then fNV else 0))

/-- The exact sum of a list of finite values (R130), at their least exponent; an exact zero has the sign `z`. -/
def sumFinite (z : Bool) (xs : List Num) : Num :=
  match xs with
  | [] => .zero
  | x :: rest =>
    let q := rest.foldl (fun q y => min q y.exp) x.exp
    let total := xs.foldl (fun t y => t + y.atExp q) 0
    if total = 0 then
      (if xs.all (fun y => y.isZero && y.sign) then .fin true 0 0 false
       else if xs.all (fun y => y.isZero && !y.sign) then .zero else .fin z 0 0 false)
    else .ofScaled z total q

/-- The exact sum of a list of values (R130): a NaN or infinities of both signs give a NaN, and NV where R130 raises it. -/
def sumNums (down : Bool) (xs : List Num) : Num × Flags :=
  let p := xs.any (fun x => x.isInf && !x.sign)
  let n := xs.any (fun x => x.isInf && x.sign)
  if xs.any Num.isNan || (p && n) then (.nan false, if xs.any Num.isSig || (p && n) then fNV else 0)
  else if p then (.inf false, 0)
  else if n then (.inf true, 0)
  else (sumFinite down xs, 0)

/-- The value of an E8M0 code (R62). -/
def e8m0Value (c : Nat) : Num := if c = 255 then .nan false else .fin false 1 ((c : Int) - 127) false
/-- The value of an E8M2 code (R62). -/
def e8m2Value (c : Nat) : Num := if c = 0x3FF then .nan false else .fin false (4 + c % 4) ((c / 4 : Nat) - 129) false

/-- An element's value times its scale (R63); a NaN on either side gives a quiet NaN. -/
def scaledValue (elem scale : Num) : Num := if elem.isNan || scale.isNan then .nan false else (elem.mul scale).1

/-- The smallest E8M2 code from `lo` with `m ≤ emax × S`, searched over `2^n` codes (R70). -/
def scaleSearch (m : Num) (emax : Nat) : Nat → Nat → Nat
  | 0, lo => lo
  | n + 1, lo =>
    let mid := lo + 2 ^ n - 1
    if m.le ((Num.ofInt emax).mul (e8m2Value (min mid 0x3FE))).1 then scaleSearch m emax n lo else scaleSearch m emax n (lo + 2 ^ n)

/-- The scale code of a block whose largest magnitude is `m` (R70). -/
def blockScale (m : Num) (emax : Nat) : Nat :=
  if m.isZero then 0x1FC else if m.isInf then 0x3FE else min (scaleSearch m emax 10 0) 0x3FE

/-- The largest magnitude of a list of values that are not NaN. -/
def maxMag (xs : List Num) : Num := xs.foldl (fun m x => if m.lt x.abs then x.abs else m) .zero

/-- An exact value divided by a scale that is `s × 2^k`, a quotient of enough bits with a sticky bit. -/
def divScale (x s : Num) : Num := (x.div s).1

/-- Renormalising a block of results (R70): the elements' codes, the scale's code and the flags. A result carries the
flags of the operation that formed it. An FB8 block whose results are all NaN has no remaining result, of which R70 gives no largest magnitude: m is
taken as 0, so its scale is 0x1FC (DESIGN CHOICE, log entry 109). -/
def renormBlock (fb4 : Bool) (rm : RM) (xs : List (Num × Flags)) : List Nat × Nat × Flags :=
  let opFl := xs.foldl (fun f x => f ||| x.2) 0
  let el := if fb4 then e2m1 else e4m3
  if fb4 && xs.any (fun x => x.1.isNan) then (xs.map (fun _ => 0), 0x3FF, opFl)
  else
    let ok := (xs.map (·.1)).filter (fun x => !x.isNan)
    let sc := blockScale (maxMag ok) (if fb4 then 6 else 448)
    let r := xs.map (fun x => if x.1.isNan then (0x7F, (0 : Flags)) else roundFp el rm (divScale x.1 (e8m2Value sc)))
    (r.map (·.1), sc, r.foldl (fun f x => f ||| x.2) opFl)

/-- The table T of LG6 (R72), as FP32 codes. -/
def lg6Table : Nat → Nat
  | 0 => 0x3F800000
  | 1 => 0x3F9837F0
  | 2 => 0x3FB504F3
  | _ => 0x3FD744FD

/-- `(-1)^s × T[q − 4k] × 2^k` with `k = floor(q/4)` (R72, R73). -/
def lg6Exact (neg : Bool) (q : Int) : Num :=
  let k := q / 4
  let t := (decodeFp fp32 (lg6Table (q - 4 * k).toNat)).scale k
  if neg then t.negate else t

/-- The FP32 value of an LG6 byte (R71, R72). -/
def lg6Value (b : Nat) : Num :=
  let neg := b / 32 % 2 == 1
  let c := b % 32
  if c == 0 then .fin neg 0 0 false else lg6Exact neg ((c : Int) - 16)

/-- The product of two LG6 bytes inside the matrix engine (R73). -/
def lg6Product (a b : Nat) : Num :=
  let neg := (a / 32 % 2 == 1) != (b / 32 % 2 == 1)
  let ca := a % 32
  let cb := b % 32
  if ca == 0 || cb == 0 then .fin neg 0 0 false else lg6Exact neg ((ca : Int) + cb - 32)

/-- The LG6 product code of two bytes (R73) and its flags. -/
def lg6Mul (a b : Nat) : Nat × Flags :=
  let s := if (a / 32 % 2 == 1) != (b / 32 % 2 == 1) then 32 else 0
  let ca := a % 32
  let cb := b % 32
  if ca == 0 || cb == 0 then (s, 0) else
  let c : Int := (ca : Int) + cb - 16
  if c < 1 then (s, fUF ||| fNX) else if 31 < c then (s + 31, fOF ||| fNX) else (s + c.toNat, 0)

/-- Conversion of an exact value to LG6 (R74): `j` is the greatest integer with `v^8 ≥ 2^(2j−33)`. -/
def toLg6 (x : Num) : Nat × Flags :=
  match x with
  | .nan _ => (0, fNV)
  | .inf n => (if n then 63 else 31, fOF ||| fNX)
  | .fin n m e _ =>
    let s := if n then 32 else 0
    if m == 0 then (s, 0) else
    let l : Int := (Nat.log2 (m ^ 8) : Int) + 8 * e
    let j := (l + 33) / 2
    if j ≤ 0 then (s, fUF ||| fNX) else if 31 < j then (s + 31, fOF ||| fNX)
    else
      let exact := m ^ 4 == 2 ^ Nat.log2 (m ^ 4) && (Nat.log2 (m ^ 4) : Int) + 4 * e == j - 16
      (s + j.toNat, if exact then 0 else fNX)

end Sys2Proof.Machine
end

