-- ==== Sys2Proof/Machine/Flags.lean ====
section
/-! DEFINITION. Floating-point operations with the flags they raise, before their one rounding, as scalar and vector
instructions share them (R65, R68, R69, R120, R121, R126, R127, R130). -/

namespace Sys2Proof.Machine

open Sys2Proof

/-- The format of a scalar type (R120). -/
def SFmt.fmt : SFmt → Fmt
  | .f64 => fp64 | .f32 => fp32 | .f16 => fp16 | .bf16 => Sys2Proof.Machine.bf16

/-- The format of an F type (R124). -/
def FTy.fmt : FTy → Fmt
  | .f16 => fp16 | .bf16 => Sys2Proof.Machine.bf16 | .f32 => fp32

/-- The width of an F type's elements in bits. -/
def FTy.bits : FTy → Nat
  | .f16 => 16 | .bf16 => 16 | .f32 => 32

/-- NV for a signalling NaN among the operands (R60). -/
def sigFlags (l : List Num) : Flags := if l.any Num.isSig then fNV else 0

/-- NV for any NaN among the operands (R121). -/
def nanFlags (l : List Num) : Flags := if l.any Num.isNan then fNV else 0

/-- a + b. -/
def addExact (rm : RM) (a b : Num) : Num × Flags := a.add (rm = .down) b

/-- a − b. -/
def subExact (rm : RM) (a b : Num) : Num × Flags := a.add (rm = .down) b.negate

/-- d + a × b with one rounding (R121). -/
def fmaExact (rm : RM) (d a b : Num) : Num × Flags :=
  let p := a.mul b
  let r := d.add (rm = .down) p.1
  (r.1, p.2 ||| r.2)

/-- d − a × b with one rounding (R121). -/
def fnmaExact (rm : RM) (d a b : Num) : Num × Flags :=
  let p := a.mul b
  let r := d.add (rm = .down) p.1.negate
  (r.1, p.2 ||| r.2)

/-- The smaller, with −0 below +0; a single NaN yields the other operand (R121). -/
def minExact (a b : Num) : Num × Flags :=
  let fl := sigFlags [a, b]
  if a.isNan && b.isNan then (.nan false, fl) else if a.isNan then (b, fl) else if b.isNan then (a, fl)
  else (if b.ltz a then b else a, fl)

/-- The larger, with −0 below +0; a single NaN yields the other operand (R121). -/
def maxExact (a b : Num) : Num × Flags :=
  let fl := sigFlags [a, b]
  if a.isNan && b.isNan then (.nan false, fl) else if a.isNan then (b, fl) else if b.isNan then (a, fl)
  else (if a.ltz b then b else a, fl)

/-- −a; a NaN gives the canonical NaN, and NV if it signals (R121). -/
def negExact (a : Num) : Num × Flags := if a.isNan then (.nan false, sigFlags [a]) else (a.negate, 0)

/-- |a|; a NaN gives the canonical NaN, and NV if it signals (R121). -/
def absExact (a : Num) : Num × Flags := if a.isNan then (.nan false, sigFlags [a]) else (a.abs, 0)

/-- a = b; NV for a signalling NaN (R121). -/
def eqFlags (a b : Num) : Bool × Flags := (!a.isNan && !b.isNan && a.cmp b == .eq, sigFlags [a, b])

/-- a < b; NV for any NaN (R121). -/
def ltFlags (a b : Num) : Bool × Flags := (!a.isNan && !b.isNan && a.lt b, nanFlags [a, b])

/-- a ≤ b; NV for any NaN (R121). -/
def leFlags (a b : Num) : Bool × Flags := (!a.isNan && !b.isNan && a.le b, nanFlags [a, b])

/-- Whether either is a NaN; NV for a signalling one (R127). -/
def unordFlags (a b : Num) : Bool × Flags := (a.isNan || b.isNan, sigFlags [a, b])

/-- Rounding an exact result with the operation's flags (R65). -/
def roundWith (f : Fmt) (rm : RM) (x : Num × Flags) : Nat × Flags :=
  let r := roundFp f rm x.1
  (r.1, x.2 ||| r.2)

/-- Finish of an exact result with the operation's flags (R125). -/
def finishWith (f : Fmt) (rm : RM) (q : Prefix) (x : Num × Flags) : Nat × Flags :=
  let r := finishFp f rm q x.1
  (r.1, x.2 ||| r.2)

end Sys2Proof.Machine
end

