-- ==== Sys2Proof/Config.lean ====
section
/-! DEFINITION. What the manual leaves open, as values without a body: nothing can compute them, so a claim about
the model holds whatever they are. Each is named in the assumption log. -/

namespace Sys2Proof.Config

open Sys2Proof

/-- An undefined 64-bit register or memory word (R6), drawn at a counter of the state. -/
opaque freeWord : Nat → Word

/-- An undefined byte (R6): a read of another device, an overlapping copy, an aborted collective. -/
opaque freeByte : Nat → Byte

/-- An undefined truth (R6): whether a write that a down peer or expander ended was performed (R56, R360). -/
opaque freeBool : Nat → Bool

/-- A byte that a context loads from its own backing area (R89), at a physical address, drawn at a counter. -/
opaque backingByte : Nat → Nat → Byte

/-- A byte of a page that two parties map with different homes (R168), at a physical address, drawn at a counter. -/
opaque strayByte : Nat → Nat → Byte

/-- Undefined tile contents (R148). -/
opaque freeTile : Nat → BitVec 16384

/-- Undefined contents of a tile's sidecar (R148). -/
opaque freeTileSide : Nat → BitVec 4096

/-- Undefined slot contents (R152, R239). -/
opaque freeSlot : Nat → BitVec 8192

/-- Undefined residues of a slot (R152). -/
opaque freeResidues : Nat → BitVec 15360

/-- Which of `n` candidates the hardware takes where the manual names none, as the choice of a spill victim (R89). -/
opaque freeChoice : Nat → Nat

/-- A weight or bias of an apprentice slot that has never been set (R363). -/
opaque apxWeight : Nat → F32

/-- What a byte of the CXL tier holds before anything has written it (R163). -/
opaque cxlByte : Nat → Byte

/-- The 32-bit hash of a paired request's kind, data and results (R242). -/
opaque pairHash : List Nat → BitVec 32

/-- How many expanders bring-up finds, and the capacity of each in units of 64 KiB (R412). -/
opaque expanderCount : Nat
/-- The capacity of expander `e` in units of 64 KiB (R412). -/
opaque expanderPages : Nat → Nat

/-- What a device-range read of another device answers (R223): the byte at a physical address, drawn at a counter. -/
opaque remoteByte : Nat → Nat → Byte

/-- This device's number in the load-store domain, read from board straps at bring-up (R413). -/
opaque deviceNumber : Nat

end Sys2Proof.Config
end

