-- ==== Sys2Proof/Machine/State.lean ====
section
/-! DEFINITION. The state of the BY-2800 as plain data: contexts, cores, clusters, partitions, memories, engines,
committees and the device's outside ports (R86 to R98, R163, R224, R249, R270, R288, R334, R351, R363, R378, R407),
its reset value, and the reasons for which a step can stop. -/

namespace Sys2Proof.Machine

open Sys2Proof

/-- Why the machine stops with a fault.
* `badEvent`: raised by the step function when the agenda names an event of a unit that no BY-2800 has (a core number
  of 1,024 or above, say). Safe: the hardware has no such event. -/
inductive Fault
  | badEvent
  deriving DecidableEq, Repr

/-- Why a step has no meaning.
* `notModelled`: an arm of the dispatch whose instruction has no meaning yet. Safe: nothing follows from a refusal. -/
inductive Refusal
  | notModelled (mnemonic : String)
  deriving DecidableEq, Repr

/-- Memory as pairs of address and byte, in rising order of address (see `Memory.wf` in Machine/Ops.lean). -/
abbrev Memory := List Host.Cell

/-- Trap causes (R383), in code order from 0x01. -/
inductive Cause
  | illegal | privilege | misaligned | fetchFault | loadFault | storeFault | vregFault
  | tileUnconfig | tileShape | scaleCount | accOwner | rnsUncorrectable | rnsOverflow
  | overread | underread | rcRefill | rcStore | budget | mergeConflict | pairMismatch
  | apxStore | watchpoint | breakpoint | syscall | uncorrectableData | hang | linkDown | peerDown
  | memberEvent | noCandidate | queueFault | doubleFault | preempted | groupFault | collectiveAbort
  deriving DecidableEq, Repr

/-- A context's number on the device: its core (R10) and its index 0 to 10 (R18). -/
structure CtxId where
  core : Nat
  ctx  : Nat
  deriving DecidableEq, Repr

/-- Context states (R19). -/
inductive Life | free | live | held | stopped
  deriving DecidableEq, Repr

/-- What a context waits for. `retry` is an instruction that has not committed and runs again; the others are
arrivals that some other agent's event ends (R111, R113, R326). -/
inductive Wait
  | none
  | retry
  | gbar (g b : Nat)
  | boundary (vote : Word) (isVote : Bool) (d : Nat)
  | stepCatch (pos : Word) (n : Word) (d : Nat) (ready : Bool)
  | catchAns (c n d : Nat) (status : Nat)
  | cwait (c n : Nat) (rec ptroot : Word) (d : Nat)
  | nsum (c n round d : Nat)
  | paired (k : Nat)
  deriving DecidableEq, Repr

/-- A vector register (R88, R89). -/
inductive VState
  | unwritten
  | resident (data : BitVec 2048) (side : BitVec 1280)
  | spilled
  deriving DecidableEq, Repr

/-- A tile register with its sidecar, shape and dirty bit (R90, R91, R143). -/
structure Tile where
  tsh   : Word := 0
  data  : BitVec 16384 := 0
  side  : BitVec 4096 := 0
  dirty : Bool := false
  deriving DecidableEq, Repr

/-- A pending asynchronous cause (R378, R384) with its value and reporting engine. -/
structure Pending where
  cause : Cause
  tval  : Word
  eng   : Option Nat
  deriving DecidableEq, Repr

/-- The combine block (R334). -/
structure Combine where
  valid  : Bool := false
  comm   : Nat := 0
  catchN : Nat := 0
  mask   : BitVec 8 := 0
  alone  : Bool := false
  weights : SMap F32 := []
  ctemp  : F32 := 0
  cpen   : Word := 0
  cex    : SMap (BitVec 32) := []
  cnoise : Word := 0
  cseed  : Word := 0
  filter : SMap Nat := []
  deriving DecidableEq, Repr

/-- A request of a context to another device that is not answered yet (R351, R358): the device, the link over which it was sent last (16 where
every link is down), the TIME of its first and of its last sending, and whether the link has acknowledged it. -/
structure RemoteReq where
  dev   : Nat
  link  : Nat
  first : Nat
  sent  : Nat
  acked : Bool
  deriving DecidableEq, Repr

/-- A context (R86, R94). `vregFault` is the TVAL, and for a translation fault the TFSTAT, of the VREG_FAULT that an abandoned spill
left (R89, R278). `entering` marks a handler entry whose first fetch is still to come: at TVEC (false) or at UVEC (true) (R386).
`yielded` names the contexts that are fetched before it after a `yield` (R119). -/
structure Ctx where
  life   : Life := .free
  wait   : Wait := .none
  pc     : Word := 0
  x      : SMap Word := []
  shadow : SMap Word := []
  f      : SMap Word := []
  v      : SMap VState := []
  p      : SMap (BitVec 256) := []
  t      : SMap Tile := []
  status : Word := 0
  cause  : Word := 0
  epc    : Word := 0
  tval   : Word := 0
  tvec   : Word := 0
  uvec   : Word := 0
  uepc   : Word := 0
  scratch : Word := 0
  fpctl  : Word := 0
  budget : Word := 0
  deadline : Word := 0
  slice  : Word := 0
  vback  : Word := 0
  vstat  : Word := 0
  vrep   : Word := 0
  qscale : SMap F32 := []
  rcstat : Word := 0
  tnote  : Word := 0
  tfstat : Word := 0
  geom   : SMap Word := []
  pending : List Pending := []
  trapPending : Bool := false
  vregFault : Option (Word × Option Word) := none
  yielded : List Nat := []
  combine : Combine := {}
  pure   : Option Nat := none
  group  : Option Nat := none
  pairSeq : Nat := 0
  pairReply : Bool := false
  pairGo : Bool := false
  pairId : Nat := 0
  entering : Option Bool := none
  remote : Option RemoteReq := none
  deriving DecidableEq, Repr

/-- Instructions that work from the head of the engine queue before they commit: vector and tile memory instructions and
drains (R23), with the modifiers of a prefixed drain, `vfence` (R141) and `astat` (R157). -/
inductive QMem
  | vld (d a p : Nat) (c : Bool) | vst (d a p : Nat) (c : Bool)
  | vgather (d v b p : Nat) (c w : Bool) | vscatter (d v b p : Nat) (c w : Bool)
  | vtake (d a : Nat) | vfill (d a b : Nat) | vlds (d a : Nat) | vsts (d a : Nat)
  | tld (t a b : Nat) | tst (t a b : Nat) | ttake (t a : Nat) | tfill (t a b : Nat)
  | tlds (t a : Nat) | tsts (t a : Nat)
  | adrain (c t v : Nat) (z : Bool) (f : DrainFmt) (q : Option Prefix)
  | adrainRns (c t v : Nat) (q : Bool) | adrainRnsW (c t u v : Nat) (q : Bool)
  | vfence | astat (c v : Nat)
  deriving DecidableEq, Repr

/-- A committed matrix instruction's work on its slot, with its operands as read at its commit (R151 to R158). -/
inductive MatOp
  | mma (a : Tile) (b : List Tile) (fa fb : F32)
  | rnsI8 (a b : Tile) | rnsRes (a b : Tile)
  | clear (rns : Bool) | claim (atS : Bool) | free
  deriving DecidableEq, Repr

/-- Committed vector work whose flags are still to be recorded, with whether `vbusy` counts it (R141) and the registers that
it reads and writes (R25): v registers by their numbers, predicates by 32 plus theirs. -/
structure VecWork where
  flags  : BitVec 5
  counts : Bool
  reads  : List Nat
  writes : List Nat
  deriving DecidableEq, Repr

/-- An engine-queue entry (R23): committed vector work; committed matrix work; a committed instruction that takes no lane
group and no matrix engine and leaves the queue at its head, with whether `vbusy` counts it (R26, R141); or an uncommitted
instruction, with whether the matrix engine has bound it (R26). -/
inductive QOp
  | vector (w : VecWork)
  | matrix (slot : Nat) (version : Option (BitVec 16)) (op : MatOp)
  | unit (counts : Bool)
  | memory (op : QMem) (bound : Bool)
  deriving DecidableEq, Repr

/-- An engine-queue entry of context `ctx` of the core. -/
structure QEntry where
  ctx : Nat
  op  : QOp
  deriving DecidableEq, Repr

/-- Engine commands (majors 0x30 to 0x34 and the ticketed ones of 0x38). -/
inductive EngOp
  | ecopy | egather | escatter | ecopy2d | ecfill | emigrate
  | callred | callgat | credsc | cbcast | cabort
  | qpub | qclaim | qlaunch | qsignal
  | xbind | xfollow | xtok | xdetok | xmask
  | apxLoad | apxSave | ccfg | crejoin
  deriving DecidableEq, Repr

/-- How far an outstanding command has come (R218): issued, begun and waiting for other parties, or with every access
performed and only its completion to come; or, of a paired slice's copy, a command that the other copy's issue stands for (R242). -/
inductive CmdPhase | issued | waiting | done | replica
  deriving DecidableEq, Repr

/-- A command's failure (R251). -/
structure Failure where
  code : Nat
  addr : Word
  deriving DecidableEq, Repr

/-- An outstanding engine command with all it captured at its commit (R250, R252, R276). `step` says that a step-mode core issued it, and `pair`
is the model's own number of a request that two copies of a slice have made (R242). -/
structure EngCmd where
  op     : EngOp
  a      : Word
  b      : Word
  g      : List Word
  ticket : Nat
  o      : Bool
  ctx    : Nat
  priv   : Nat
  ptroot : Word
  task   : BitVec 32
  step   : Bool := false
  phase  : CmdPhase := .issued
  fail   : Option Failure := none
  key    : List Nat := []
  src    : List Byte := []
  pair   : Option Nat := none
  deriving DecidableEq, Repr

/-- An engine context of a core (R249). -/
structure EngCtx where
  issue    : Word := 0
  counter  : Word := 0
  code     : BitVec 8 := 0
  more     : Bool := false
  ticket   : Word := 0
  addr     : Word := 0
  out      : List EngCmd := []
  deriving DecidableEq, Repr

/-- A home at an L2 slice (R166): the device slice, whether the page is PINSLICE, and whether its TARGET names a granted slice of
the device and not a place in the partition's slice list. -/
structure Place where
  slice : Nat
  pin   : Bool
  abs   : Bool
  deriving DecidableEq, Repr

/-- An ordinary line that an L2 slice holds (R163): its home, and what the memory behind it holds where the slice has data that are not
yet written back. -/
structure L2Line where
  place : Place
  back  : Option (BitVec 1024)
  deriving DecidableEq, Repr

/-- A line of a core's cache portion (R171): its copy, the dirty bytes, and its home. -/
structure LcLine where
  data  : BitVec 1024
  dirty : BitVec 128
  place : Place
  deriving DecidableEq, Repr

/-- What a step-mode write does at the merge (R37, R177). -/
inductive DefOp
  | bytes (data : List Byte)
  | fill (data : BitVec 1024) (count : Nat)
  | fadd (code : F32)
  | xacc (data : List Byte)
  deriving DecidableEq, Repr

/-- A deferred write of a core's write set (R37, R178), with its task id, the engine that made it, if one did, its home, and whether that
home may hold a copy of the line (R166). -/
structure Deferred where
  task  : BitVec 32
  eng   : Option Nat
  pa    : Nat
  place : Place
  held  : Bool
  op    : DefOp
  deriving DecidableEq, Repr

/-- Undo-log entries (R180, R396). -/
inductive Undo
  | scratch (line : Nat) (old : BitVec 1024)
  | take (line : Nat) (count : Nat)
  | vreg (n : Nat) (old : VState)
  | tile (n : Nat) (old : Tile)
  | slot (n : Nat) (data : BitVec 8192) (res : BitVec 15360) (version : BitVec 16) (owner : Option (Nat × Nat)) (status : BitVec 16)
  deriving DecidableEq, Repr

/-- The boundary checkpoint of a step-mode core (R396). -/
structure Checkpoint where
  x      : SMap Word
  f      : SMap Word
  p      : SMap (BitVec 256)
  pc     : Word
  fpctl  : Word
  vstat  : Word
  vrep   : Word
  rcstat : Word
  scratch : Word
  qscale : SMap F32
  tnote  : Word
  vback  : Word
  deriving DecidableEq, Repr

/-- A launch record (R228). -/
structure Launch where
  tti : Nat
  rst : Bool
  pair : Bool
  nx : Nat
  ny : Nat
  nz : Nat
  deadline : Word
  budget : Nat
  outptr : Word
  outn : Nat
  inn : Nat
  inptr : Word
  deriving DecidableEq, Repr

/-- A task-type entry (R284). -/
structure TaskType where
  pc : Word
  h  : Nat
  v  : Nat
  t  : Nat
  a  : Nat
  b  : Nat
  deriving DecidableEq, Repr

/-- A placed slice with its reservation and its slice group (R33, R235, R238, R239, R241). `launchId` is the model's own number of its
launch (`LaunchProg.id`). -/
structure SliceGroup where
  launchId : Nat
  queue   : Nat
  count   : Nat
  k       : Nat
  launch  : Launch
  tt      : TaskType
  helpers : List Nat
  members : List Nat
  slots   : List Nat
  budget  : Word
  budgetOn : Bool
  recBudget : Word
  expired : Bool
  restartable : Bool
  failures : Nat
  pairCore : Option Nat
  mismatch : Bool
  deriving DecidableEq, Repr

/-- A core (R94 and the inventories named in the header). `released` says that the reservations of its write set are released, which a
failed merge does (R179); `collLost` counts its collectives whose record could not be read and that no peer has seen aborted yet (R257). -/
structure Core where
  ctxs    : SMap Ctx := []
  cycle   : Nat := 0
  lmsplit : Nat := 0
  vweight : Nat := 8
  partid  : Nat := 0
  inPart  : Bool := false
  aslotmap : Word := 0
  wpa     : SMap Word := []
  wpm     : SMap Word := []
  wpHit   : SMap Word := []
  wpEng   : SMap Nat := []
  ptroot  : Word := 0
  tinva   : Word := 0
  queue   : List QEntry := []
  taskId  : BitVec 32 := 0
  engs    : SMap EngCtx := []
  lc      : SMap LcLine := []
  writeSet : List Deferred := []
  released : Bool := false
  undo    : List Undo := []
  checkpoint : Option Checkpoint := none
  slices  : SMap SliceGroup := []
  sent    : Word := 0
  recv    : Word := 0
  collSeq : SMap Nat := []
  collAborted : List Nat := []
  collLost : Nat := 0
  lastCtx : Nat := 0
  deriving DecidableEq, Repr

/-- An accumulator slot (R92): FP data, or ten packed residues per element in RNS use. -/
structure Slot where
  data    : BitVec 8192 := 0
  res     : BitVec 15360 := 0
  version : BitVec 16 := 0
  owner   : Option (Nat × Nat) := none
  status  : BitVec 16 := 0
  deriving DecidableEq, Repr

/-- Apprentice slot states (R364). -/
inductive ApxState | off | observe | train | trial | serve | fallback | invalid
  deriving DecidableEq, Repr

/-- The kind of an open instance (R370). -/
inductive ApxKind | plain | sample | compare
  deriving DecidableEq, Repr

/-- An open instance of a region slot (R363). -/
structure ApxOpen where
  core   : Nat
  ctx    : Nat
  kind   : ApxKind
  inputs : List F32
  deriving DecidableEq, Repr

/-- A recorded run (R363). -/
structure Sample where
  x : List F32
  t : List F32
  deriving DecidableEq, Repr

/-- An apprentice slot (R363, R364). -/
structure ApxSlot where
  ctl  : Word := 0
  lim  : Word := 0
  mean : Word := 0
  samp : Word := 0
  step : Word := 0
  state : ApxState := .off
  frozen : Bool := false
  why  : Nat := 0
  oob  : Nat := 0
  lasterr : F32 := 0
  n    : Nat := 0
  served : Nat := 0
  due  : Bool := false
  fresh : Nat := 0
  weights : Option (List F32) := none
  lo   : List F32 := []
  hi   : List F32 := []
  ring : List Sample := []
  acc  : F32 := 0
  accN : Nat := 0
  pages : Option (Nat × Nat) := none
  opens : List ApxOpen := []
  deriving DecidableEq, Repr

/-- Work bound to a lane group (R25). -/
structure LaneWork where
  core  : Nat
  ctx   : Nat
  work  : VecWork
  deriving DecidableEq, Repr

/-- Work bound to the matrix engine (R26). -/
structure MatWork where
  core : Nat
  ctx  : Nat
  slot : Nat
  op   : MatOp
  deriving DecidableEq, Repr

/-- A cluster (R12, R92, R94, R363). -/
structure Cluster where
  slots   : SMap Slot := []
  rnscfg  : BitVec 10 := 0
  rnsstat : Word := 0
  apx     : SMap ApxSlot := []
  lanes   : SMap LaneWork := []
  vcredit : SMap Int := []
  vloss   : SMap Nat := []
  mat     : List MatWork := []
  mcredit : SMap Int := []
  mloss   : SMap Nat := []
  deriving DecidableEq, Repr

/-- An open episode of a group barrier (R28). -/
structure Episode where
  count    : Nat
  expected : List CtxId
  arrived  : List CtxId
  deriving DecidableEq, Repr

/-- A group of a partition (R27). -/
structure Group where
  members : List CtxId := []
  bars    : SMap Episode := []
  deriving DecidableEq, Repr

/-- A launch that has left, or is, the head of its queue: how many of its slices are placed and complete (R232). `id` is the model's own
number of it, `on` says that it still stands in the queue's ring (a write of QTAB may put another ring there, R225), and `failed` that
copies of one of its slices have differed (R242, R400). -/
structure LaunchProg where
  id     : Nat
  count  : Nat
  launch : Launch
  tt     : TaskType
  placed : Nat
  done   : Nat
  on     : Bool := true
  failed : Bool := false
  deriving DecidableEq, Repr

/-- An entry of a queue's re-execution list (R239). -/
structure Reexec where
  launchId : Nat
  k        : Nat
  core     : Nat
  failures : Nat
  deriving DecidableEq, Repr

/-- The cached state of a queue (R224 to R240). -/
structure Queue where
  base : Word
  logn : Nat
  task : Bool
  elog : Nat
  tail : Nat
  head : Nat
  retire : Nat
  restarts : Nat
  stop : Bool
  dirty : Bool := false
  skip : Nat := 0
  urgent : Option Nat := none
  on : Bool := true
  progs : List LaunchProg := []
  reexec : List Reexec := []
  deriving DecidableEq, Repr

/-- A consumed host submission, or an entry that SEQUENCE reports, and, once its effect is complete, its STATUS and DETAIL (R408, R409). -/
structure HostSub where
  seq : BitVec 32
  opc : Nat
  a : Word
  b : Word
  answer : Option (Nat × Nat)
  deriving DecidableEq, Repr

/-- A host queue pair (R407, R248), with the numbers of entries consumed from and written to its rings;
`wrong` says that a wrong SEQ has been found since the last doorbell write. -/
structure HostPair where
  sqb : Word := 0
  cqb : Word := 0
  qcfg : BitVec 32 := 0
  sqdb : BitVec 32 := 0
  cqdb : BitVec 32 := 0
  lastcons : BitVec 32 := 0
  lastprod : BitVec 32 := 0
  consIdx : Nat := 0
  prodIdx : Nat := 0
  wrong : Bool := false
  subs : List HostSub := []
  deriving DecidableEq, Repr

/-- A bound wide exact accumulator (R78, R176), or one that a deferred add has reserved (R179). -/
structure WideAcc where
  place : Place
  acc  : BitVec 320
  pinf : Bool
  ninf : Bool
  nan  : Bool
  reserved : Bool
  part : Nat
  deriving DecidableEq, Repr

/-- A partition (R30, R285 and the partition registers of R94, R272, R378). `snap` holds, in step mode, the lines that another party changed
in this superstep as they stood at its start (R36), and `accSnap` the accumulators (R177); `launchNext` is the next `LaunchProg.id`;
`heard` is the TIME of the last answer of each other device (R358); `stopTime` is TIME at its last bell stop; `msix` lists the host
interrupts it has raised (R286, R406). -/
structure Partition where
  live  : Bool := false
  col   : Nat := 0
  row   : Nat := 0
  width : Nat := 0
  height : Nat := 0
  ccol  : Nat := 0
  crow  : Nat := 0
  granted : List Nat := []
  fnReset : Bool := false
  mode  : Bool := false
  stepno : Word := 0
  groups : SMap Group := []
  mirror : SMap Word := []
  wdogInterval : BitVec 32 := 0
  wdogRemain : BitVec 32 := 0
  wdogArmed : Bool := false
  lastProgress : Word := 0
  tolink : Word := 0
  togroup : Word := 0
  topeer : Word := 0
  peerDown : List Nat := []
  linkDown : List Nat := []
  preempt : Word := 0
  asidr : Word := 0
  rvec : Word := 0
  qos : Word := 0
  ttab : Word := 0
  ttn : Word := 0
  bell : Word := 0
  belladr : Word := 0
  stepctl : Word := 0
  ringing : Option Nat := none
  stopped : Option Nat := none
  switchTo : Option Nat := none
  stopTime : Nat := 0
  qtab : Word := 0
  queues : SMap Queue := []
  urgentNext : Nat := 0
  launchNext : Nat := 0
  pairs : SMap HostPair := []
  msix : List Nat := []
  initPtroot : Word := 0
  snap : SMap (BitVec 1024) := []
  accSnap : SMap (Option WideAcc) := []
  heard : SMap Nat := []
  deriving DecidableEq, Repr

/-- A reader-counted line (R174): its count, the partition whose step-mode take emptied it, whether it was filled in an earlier
superstep, its fill data, home and partition. Closed bits stand in `State.closed`, since uncounted lines have them too. -/
structure CLine where
  count  : Nat
  emptied : Option Nat
  aged   : Bool
  data   : BitVec 1024
  place  : Place
  part   : Nat
  deriving DecidableEq, Repr

/-- Committee states (R315). -/
inductive CState | off | opened | decided | halted
  deriving DecidableEq, Repr

/-- Member states, in code order (R96). -/
inductive MState | absent | voting | lagging | late | spent | faulted | rejoining
  deriving DecidableEq, Repr

/-- A committee member (R310). `cast` says that it has arrived for the open catch with `catch` (R314). -/
structure Member where
  state : MState := .absent
  part  : Nat := 0
  act   : Bool := false
  arr   : Bool := false
  rdy   : Bool := false
  last  : Bool := false
  evt   : Nat := 0
  pos   : BitVec 32 := 0
  vote  : Bool := false
  cast  : Bool := false
  expected : Bool := false
  faultDue : Bool := false
  deriving DecidableEq, Repr

/-- A round of `nsum` or `nsum.max` (R345). -/
structure Round where
  isMax : Bool
  values : SMap F32
  deriving DecidableEq, Repr

/-- A committed catch kept by the history (R322). -/
structure Committed where
  n : Nat
  id : Nat
  cpos : Nat
  kspec : Nat
  deriving DecidableEq, Repr

/-- The committee record (R309). -/
structure CRecord where
  stream : Word
  hist : Word
  nmem : Nat
  stroke : Nat
  hlog : Nat
  nshard : Nat
  ump : Nat
  start : Nat
  pstr : Word
  npiece : Nat
  vbase : Word
  vstride : Nat
  addr : Word
  deriving DecidableEq, Repr

/-- A committee in the catch unit (R97, R309 to R350). `timer` is the patience timer's cycles left once it has started, `expired`
whether its expiry has been acted on, `stalled` whether the open catch stands in a stall shortfall, and `log` the commits whose bytes the
stream queue may still hold, for the contexts that follow. -/
structure Committee where
  state : CState := .off
  owner : Option Nat := none
  record : Option CRecord := none
  ptroot : Word := 0
  core : Nat := 0
  cpos : Word := 0
  ccatch : Word := 0
  cquo : Word := 0
  cpat : BitVec 32 := 0
  cvote : Word := 0
  cnoise : Word := 0
  cseed : Word := 0
  ctemp : F32 := 0x3F800000
  members : SMap Member := []
  cwgt : SMap F32 := []
  cfloor : F32 := 0xFF800000
  cpen : Word := 0
  cex : SMap (BitVec 32) := []
  openCquo : Word := 0
  kspec : Nat := 0
  timer : Option Nat := none
  expired : Bool := false
  nretry : Nat := 0
  stalled : Bool := false
  weights : SMap F32 := []
  decision : Combine := {}
  decidedPos : Word := 0
  pairs : SMap (F32 × Nat) := []
  run : Option (List Nat) := none
  rounds : SMap Round := []
  filter : SMap Nat := []
  history : List Committed := []
  log : List Committed := []
  deriving DecidableEq, Repr

/-- The configuration a text context is bound with (R290). -/
structure TextCfg where
  trie : Word
  nnode : Nat
  lmax : Nat
  fb : Bool
  fbbase : Nat
  pstr : Word
  npiece : Nat
  ufffd : Nat
  stops : Word
  gram : Word
  nstate : Nat
  out : Word
  deriving DecidableEq, Repr

/-- A text context's attachment to a committee, with its consumed position, the core, ticket and translation of its `xfollow`,
a tokenizer's PROD and RLOG, and the tokens of a step that its ring has no room for yet (R288, R305, R306). -/
structure Follow where
  comm : Nat
  member : Nat
  pos : Nat
  core : Nat
  ticket : Nat
  ptroot : Word
  priv : Nat
  prod : Nat
  rlog : Nat
  pend : List (Nat × Nat) := []
  deriving DecidableEq, Repr

/-- A character of the lattice: a valid one, or one invalid byte (R293). -/
structure TextChar where
  valid : Bool
  bytes : List Byte
  deriving DecidableEq, Repr

/-- A text-engine context (R288). The lattice is kept as its unsettled characters: the best paths are a function of them. `reads` are the lines
of its tables that it has read, and `touched` says that one of them has been written since (R271). -/
structure TextCtx where
  bound : Option Nat := none
  recAddr : Word := 0
  cfg : Option TextCfg := none
  lattice : List TextChar := []
  carried : List Byte := []
  held : List Byte := []
  stopped : Bool := false
  auto : Nat := 0
  stack : List Byte := []
  follow : Option Follow := none
  reads : List Nat := []
  touched : Bool := false
  deriving DecidableEq, Repr

/-- A migration in progress (R183, R256). -/
structure Migration where
  part : Nat
  core : Nat
  ticket : Nat
  src : Nat
  dst : Nat
  entry : Nat
  switched : Bool
  deriving DecidableEq, Repr

/-- A request of a paired slice held at its home's router (R242). -/
structure PairedReq where
  part : Nat
  first : CtxId
  second : Option CtxId
  seq : Nat
  hash : BitVec 32
  hash2 : BitVec 32
  addr : Word
  age : Nat
  deriving DecidableEq, Repr

/-- A CXL expander as enumerated at bring-up (R412). -/
structure Expander where
  capacity : Nat
  up : Bool
  deriving DecidableEq, Repr

/-- A partition image (R394), its cores, clusters and homes by relative position. `captured` are the requests that the routers' spill buffers took
from the network (R247). -/
structure Image where
  part : Partition
  partid : Nat
  cores : SMap Core
  clusters : SMap Cluster
  lines : List (Nat × CLine)
  accs : List (Nat × WideAcc)
  scratch : Memory
  texts : List (Nat × TextCtx)
  time : Word
  standing : Option Nat
  closed : List Nat := []
  captured : SMap PairedReq := []
  deriving DecidableEq, Repr

/-- An entry of the management event ring (R411): `under` is the lowest counted line that a partition reset dropped (R174). -/
structure HostEvent where
  code : Nat
  part : Option Nat
  cause : Nat
  under : Option Nat := none
  deriving DecidableEq, Repr

/-- An entry of the retirement record (R184). -/
structure Retired where
  page : Nat
  corrected : Bool
  powerCycle : Nat
  deriving DecidableEq, Repr

/-- What the Garfy port reads out of a frozen device besides its memories (R403): the cores with their contexts, engine queues and write
sets, the clusters with their slots, the catch unit, the L2 lines and counted lines, and the captured requests. -/
structure GarfyView where
  cores    : SMap Core
  clusters : SMap Cluster
  parts    : SMap Partition
  comms    : SMap Committee
  lines    : SMap CLine
  closed   : List Nat
  l2       : SMap L2Line
  accs     : SMap WideAcc
  captured : List (SMap PairedReq)
  deriving DecidableEq, Repr

/-- The readings of the Garfy port (R414): board power, the dies' temperatures and the coolant's. -/
structure GarfyReadings where
  power   : Word
  dies    : List Word
  coolant : Word
  deriving DecidableEq, Repr

/-- Who moves next: a context, an event, or time by a number of cycles. -/
inductive Move
  | ctx (id : CtxId)
  | event (i : Instr)
  | tick (cycles : Nat)
  deriving DecidableEq, Repr

/-- The state of the device. The fields `cur`, `agenda`, `mods`, `insn` and `freeIdx` are the model's own: the context that
executes, who moves next, the modifiers of the pair being executed, its (first) word for the TVAL of ILLEGAL, and the
counter at which free values are drawn. `mbCommand` is the code of the command that stands in the command area (R410). -/
structure State where
  cur    : CtxId := ⟨0, 0⟩
  agenda : List Move := []
  mods   : Option Prefix := none
  insn   : BitVec 32 := 0
  freeIdx : Nat := 0
  cores  : SMap Core := []
  clusters : SMap Cluster := []
  parts  : SMap Partition := []
  mem    : Memory := []
  lines  : SMap CLine := []
  closed : List Nat := []
  l2     : SMap L2Line := []
  accs   : SMap WideAcc := []
  poison : List Nat := []
  dead   : List Nat := []
  heatDue : List Nat := []
  cycles : Nat := 0
  timeBase : Nat := 0
  health : Word := 0
  retired : List Retired := []
  corrected : SMap Nat := []
  powerCycle : Nat := 0
  comms  : SMap Committee := []
  texts  : SMap TextCtx := []
  migrations : SMap Migration := []
  paired : SMap PairedReq := []
  images : SMap Image := []
  events : List HostEvent := []
  mbCommand : Nat := 0
  mbGo : Bool := false
  mbResult : Nat := 0
  mbVector : Bool := false
  switchGroup : List Nat := []
  expanders : SMap Expander := []
  hostMem : Memory := []
  hostRead : List Byte := []
  garfy : Option GarfyView := none
  readings : Option GarfyReadings := none
  frozen : Bool := false
  powered : Bool := true
  firmware : Nat := 0
  flashImage : Nat := 0
  deriving DecidableEq, Repr

/-- The device after reset: no partition exists (R417), every register has its reset value, memory lists nothing. -/
def State.reset : State := {}

end Sys2Proof.Machine
end

