-- ==== Sys2Proof/Machine/Memory.lean ====
section
/-! DEFINITION. Memory: its canonical form, the physical address map, and raw writes at homes with the snapshot that step
mode reads (R36, R163 to R165, R210). -/

namespace Sys2Proof.Machine

open Sys2Proof

/-! ## The canonical form -/

/-- The first physical address of the CXL tier (R164). -/
def cxlBase : Nat := 0x4000000000000
/-- The first physical address of local SRAM (R164). -/
def sramBase : Nat := 0x8000000000000
/-- The first physical address of the remote windows (R164). -/
def remoteBase : Nat := 0xC000000000000

/-- What an address that memory does not list reads as: zero in HBM and local SRAM, what the expander holds in the CXL
tier (R163). -/
def backing (a : Nat) : Byte := if cxlBase ≤ a && a < sramBase then Config.cxlByte a else 0

/-- The byte at an address. -/
def Memory.get (m : Memory) (a : Nat) : Byte :=
  match m with
  | [] => backing a
  | (b, v) :: rest => if b = a then v else if a < b then backing a else Memory.get rest a

/-- The memory with a byte set, in canonical form. -/
def Memory.set (m : Memory) (a : Nat) (v : Byte) : Memory :=
  match m with
  | [] => if v = backing a then [] else [(a, v)]
  | (b, w) :: rest =>
    if b = a then (if v = backing a then rest else (a, v) :: rest)
    else if a < b then (if v = backing a then (b, w) :: rest else (a, v) :: (b, w) :: rest)
    else (b, w) :: Memory.set rest a v

/-- Addresses rise strictly from above `lo`, and no entry holds what an unlisted address reads as. -/
def Memory.wfFrom : Option Nat → Memory → Bool
  | _, [] => true
  | lo, (a, v) :: rest => (match lo with | none => true | some b => b < a) && v != backing a && Memory.wfFrom (some a) rest

/-- The canonical form of memory. -/
def Memory.wf (m : Memory) : Bool := Memory.wfFrom none m

/-- The bytes from an address on. -/
def Memory.bytes (m : Memory) (a n : Nat) : List Byte := (List.range n).map fun i => m.get (a + i)

/-- The memory with consecutive bytes set. -/
def Memory.setBytes (m : Memory) (a : Nat) : List Byte → Memory
  | [] => m
  | b :: rest => Memory.setBytes (m.set a b) (a + 1) rest

/-- Bytes as a number, the lowest address least significant (R3). -/
def bytesToNat : List Byte → Nat
  | [] => 0
  | b :: rest => b.toNat + 256 * bytesToNat rest

/-- The low `n` bytes of a number, least significant first (R3). -/
def natToBytes : Nat → Nat → List Byte
  | 0, _ => []
  | n + 1, v => BitVec.ofNat 8 v :: natToBytes n (v / 256)

/-- Eight bytes of physical memory as a number (R271). -/
def Memory.read8 (m : Memory) (a : Nat) : Nat := bytesToNat (m.bytes a 8)

/-! ## Physical addresses (R164) -/

/-- The contents of a physical address. -/
inductive Region | hbm | cxl (e : Nat) | sram (core : Nat) | remote (dev : Nat) | reserved
  deriving DecidableEq, Repr

/-- The region of a physical address (R164). -/
def regionOf (pa : Nat) : Region :=
  if pa < 0x8000000000 then .hbm
  else if pa < cxlBase then .reserved
  else if pa < sramBase then .cxl ((pa - cxlBase) / 0x1000000000000)
  else if pa < sramBase + 0x20000000 then .sram ((pa - sramBase) / 0x80000)
  else if pa < remoteBase then .reserved
  else if pa < 0x10000000000000 then
    let d := (pa - remoteBase) / 0x100000000000
    if (pa - remoteBase) % 0x100000000000 < 0x8000000000 && d != Config.deviceNumber % 64 then .remote d else .reserved
  else .reserved

/-! ## Raw writes and the snapshot of step mode -/

/-- Whether an address is homed at an L2 slice of this device (R166). -/
def isL2 (pa : Nat) : Bool := match regionOf pa with | .hbm => true | .cxl _ => true | _ => false

/-- The value of a line: a counted line's filled data, or memory's bytes (R174). -/
def State.lineValue (s : State) (line : Nat) : BitVec 1024 :=
  match s.lines.find? (fun l => l.1 == line) with
  | some (_, l) => l.data
  | none => BitVec.ofNat 1024 (bytesToNat (s.mem.bytes (line * 128) 128))

/-- The byte at a home (R210): a counted line's filled data (R174), or memory's byte. -/
def State.homeByte (s : State) (pa : Nat) : Byte :=
  match s.lines.find? (fun l => l.1 == pa / 128) with
  | some (_, l) => l.data.extractLsb' (8 * (pa % 128)) 8
  | none => s.mem.get pa

/-- The state with a line's value kept for the step-mode partitions that have not kept it in this superstep (R36). -/
def State.keepLine (s : State) (line : Nat) : State :=
  if s.parts.all (fun p => !p.2.mode) then s
  else
    let v := s.lineValue line
    { s with parts := s.parts.map fun p =>
        if p.2.mode && !smHas p.2.snap line then (p.1, { p.2 with snap := smSet p.2.snap line v }) else p }

/-- An apprentice slot after an invalidation (R372): every open instance is discarded and FROZEN cleared. -/
def ApxSlot.invalidate (a : ApxSlot) (why : Nat) : ApxSlot :=
  if a.state = .off || a.state = .invalid then a
  else { a with state := .invalid, why := why, frozen := false, opens := [], n := 0, acc := 0, accN := 0, due := false }

/-- Whether a slot's recorded region pages hold an address (R372). -/
def ApxSlot.holds (a : ApxSlot) (pa : Nat) : Bool :=
  match a.pages with
  | some (b, e) => b / 65536 ≤ pa / 65536 && pa / 65536 ≤ e / 65536
  | none => false

/-- The apprentices told of a write at a home (R372): a slot whose code pages hold the byte is invalidated. -/
def State.noteCode (s : State) (pa : Nat) : State :=
  if s.clusters.all (fun c => c.2.apx.all fun a => !a.2.holds pa) then s
  else { s with clusters := s.clusters.map fun c =>
    (c.1, { c.2 with apx := c.2.apx.map fun a => (a.1, if a.2.holds pa then a.2.invalidate 1 else a.2) }) }

/-- The text contexts whose tables a write changes (R271). -/
def State.noteTable (s : State) (pa : Nat) : State :=
  if s.texts.all (fun t => !t.2.reads.contains (pa / 128)) then s
  else { s with texts := s.texts.map fun t => (t.1, { t.2 with touched := t.2.touched || t.2.reads.contains (pa / 128) }) }

/-- The units that watch the memory they have read told of a write at a home (R271, R372). -/
def State.noteWrite (s : State) (pa : Nat) : State := (s.noteCode pa).noteTable pa

/-- One byte written at its home. -/
def State.writeRaw (s : State) (pa : Nat) (b : Byte) : State :=
  let s := (if isL2 pa then s.keepLine (pa / 128) else s).noteWrite pa
  { s with mem := s.mem.set pa b }

/-- Bytes written at their homes, in order. -/
def State.writeCells (s : State) : List Host.Cell → State
  | [] => s
  | (pa, b) :: rest => State.writeCells (s.writeRaw pa b) rest

end Sys2Proof.Machine
end

