-- ==== Sys2Proof/Machine/Ops.lean ====
section
/-! DEFINITION. The named operations over registers, contexts, cores and partitions; taking an exception and what goes
with it: pending causes, the bell, and how a meaning ends (R18 to R56, R86 to R98, R378 to R400). -/

namespace Sys2Proof.Machine

open Sys2Proof

/-! ## Bit fields -/

/-- Bits [lo+n-1:lo] of a value (R3). -/
def bits {w : Nat} (x : BitVec w) (lo n : Nat) : Nat := x.toNat / 2 ^ lo % 2 ^ n

/-- The value with bits [lo+n-1:lo] replaced (R55: a field keeps the low bits of what is assigned). -/
def putBits {w : Nat} (x : BitVec w) (lo n v : Nat) : BitVec w :=
  BitVec.ofNat w (x.toNat - bits x lo n * 2 ^ lo + v % 2 ^ n * 2 ^ lo)

/-- A natural number as a 64-bit word. -/
def word (n : Nat) : Word := BitVec.ofNat 64 n

/-- An integer as a 64-bit word (R55). -/
def wordI (i : Int) : Word := BitVec.ofInt 64 i

/-- A number as the FP32 code it is. -/
def f32 (n : Nat) : F32 := BitVec.ofNat 32 n

/-! ## Contexts, cores, clusters and partitions -/

/-- A context with every register at its reset value (R86, R94): STATUS.PRIV is 1 for the control context. -/
def freshCtx (k : Nat) : Ctx := { status := if k = 0 then 1 else 0 }

/-- A core. -/
def State.core (s : State) (n : Nat) : Core := smGet s.cores n {}

/-- The state with a core changed. -/
def State.modCore (s : State) (n : Nat) (f : Core → Core) : State := { s with cores := smSet s.cores n (f (s.core n)) }

/-- A context of a core. -/
def Core.ctx (c : Core) (k : Nat) : Ctx := smGet c.ctxs k (freshCtx k)

/-- A context. -/
def State.ctx (s : State) (i : CtxId) : Ctx := (s.core i.core).ctx i.ctx

/-- The state with a context changed. -/
def State.modCtx (s : State) (i : CtxId) (f : Ctx → Ctx) : State :=
  s.modCore i.core fun c => { c with ctxs := smSet c.ctxs i.ctx (f (c.ctx i.ctx)) }

/-- The executing context. -/
def State.me (s : State) : Ctx := s.ctx s.cur

/-- The state with the executing context changed. -/
def State.modMe (s : State) (f : Ctx → Ctx) : State := s.modCtx s.cur f

/-- The core of the executing context. -/
def State.myCore (s : State) : Core := s.core s.cur.core

/-- The cluster number of a core (R10). -/
def clusterOf (core : Nat) : Nat := core / 4

/-- A cluster. -/
def State.cluster (s : State) (n : Nat) : Cluster := smGet s.clusters n {}

/-- The state with a cluster changed. -/
def State.modCluster (s : State) (n : Nat) (f : Cluster → Cluster) : State :=
  { s with clusters := smSet s.clusters n (f (s.cluster n)) }

/-- A partition. -/
def State.part (s : State) (p : Nat) : Partition := smGet s.parts p {}

/-- The state with a partition changed. -/
def State.modPart (s : State) (p : Nat) (f : Partition → Partition) : State := { s with parts := smSet s.parts p (f (s.part p)) }

/-- The partition of a core, if it belongs to one (R30). -/
def State.partOf (s : State) (core : Nat) : Option Nat := if (s.core core).inPart then some (s.core core).partid else none

/-- The number of the executing core's partition; 0 for a core outside every partition. -/
def State.myPart (s : State) : Nat := s.myCore.partid

/-- The die of a cluster (R10). -/
def dieOf (cl : Nat) : Nat := 2 * (cl / 16 / 8) + cl % 16 / 8

/-- The clusters of a rectangle in ascending RROW, then RCOL (R167). -/
def rectClusters (col row width height : Nat) : List Nat :=
  (List.range height).flatMap fun r => (List.range width).map fun c => 16 * (row + r) + (col + c)

/-- A partition's clusters (R30, R167). -/
def Partition.clusters (p : Partition) : List Nat := rectClusters p.col p.row p.width p.height

/-- A partition's cores in ascending relative position. -/
def Partition.cores (p : Partition) : List Nat := p.clusters.flatMap fun c => [4 * c, 4 * c + 1, 4 * c + 2, 4 * c + 3]

/-- The core whose control context is the partition's supervisor (R383): RCOL 0, RROW 0, k = 0. -/
def Partition.supervisor (p : Partition) : Nat := 4 * (16 * p.row + p.col)

/-- Whether a core belongs to a partition that is live and not stopped by the bell (R19, R389). -/
def State.running (s : State) (core : Nat) : Bool :=
  match s.partOf core with
  | some p => (s.part p).live && (s.part p).stopped.isNone
  | none => false

/-- Whether a core's partition is in step mode (R31). -/
def State.stepMode (s : State) (core : Nat) : Bool := (s.core core).inPart && (s.part (s.core core).partid).mode

/-- The eleven contexts of a core (R18). -/
def ctxNumbers : List Nat := [0, 1, 2, 3, 4, 5, 6, 7, 8, 9, 10]
/-- The helpers of a core (R18). -/
def helperNumbers : List Nat := [1, 2, 3, 4, 5, 6, 7, 8, 9, 10]

/-! ## STATUS and privilege (R95) -/

/-- STATUS.PRIV. -/
def Ctx.priv (c : Ctx) : Nat := bits c.status 0 2
/-- STATUS.AE. -/
def Ctx.ae (c : Ctx) : Bool := c.status.getLsbD 4
/-- STATUS.UI. -/
def Ctx.ui (c : Ctx) : Bool := c.status.getLsbD 6
/-- STATUS.HCTX. -/
def Ctx.hctx (c : Ctx) : Nat := bits c.status 8 4

/-! ## Registers -/

/-- Whether a register number names the shadow bank (R269): x1 to x8 of a user completion handler at U. -/
def Ctx.shadows (c : Ctx) (n : Nat) : Bool := c.ui && c.priv == 0 && 1 ≤ n && n ≤ 8

/-- Reading an x register (R57, R87): x0 reads zero. -/
def Ctx.xreg (c : Ctx) (n : Nat) : Word :=
  if n = 0 then 0 else if c.shadows n then smGet c.shadow n 0 else smGet c.x n 0

/-- The context with an x register written; a write to x0 is discarded (R45). -/
def Ctx.setX (c : Ctx) (n : Nat) (v : Word) : Ctx :=
  if n = 0 then c else if c.shadows n then { c with shadow := smSet c.shadow n v } else { c with x := smSet c.x n v }

/-- An x register of the executing context. -/
def State.x (s : State) (n : Nat) : Word := s.me.xreg n

/-- The state with an x register of the executing context written. -/
def State.setX (s : State) (n : Nat) (v : Word) : State := s.modMe fun c => c.setX n v

/-- An f register of the executing context. -/
def State.f (s : State) (n : Nat) : Word := smGet s.me.f n 0

/-- The state with an f register of the executing context written. -/
def State.setF (s : State) (n : Nat) (v : Word) : State := s.modMe fun c => { c with f := smSet c.f n v }

/-- A predicate register; p0 reads all ones (R57). -/
def Ctx.pred (c : Ctx) (n : Nat) : BitVec 256 := if n = 0 then BitVec.allOnes 256 else smGet c.p n 0

/-- The state with a predicate register of the executing context written; a write to p0 is discarded (R86). -/
def State.setP (s : State) (n : Nat) (v : BitVec 256) : State :=
  if n = 0 then s else s.modMe fun c => { c with p := smSet c.p n v }

/-- A tile register. -/
def Ctx.tile (c : Ctx) (n : Nat) : Tile := smGet c.t n {}

/-- Whether a byte lane is active (R47, R57). -/
def lanePred (p : BitVec 256) (c : Bool) (lane : Nat) : Bool := p.getLsbD lane != c

/-- The flags of FPCTL or VSTAT with more flags set (R67, R68). -/
def orFlags (r : Word) (fl : Flags) : Word := r ||| word (fl.toNat * 16)

/-- The state with the executing context's FPCTL flags raised (R57, R68). -/
def State.raiseFp (s : State) (fl : Flags) : State := s.modMe fun c => { c with fpctl := orFlags c.fpctl fl }

/-- The executing context's rounding mode (R66, R67). -/
def State.rm (s : State) : RM := RM.ofCode (bits s.me.fpctl 0 2)

/-! ## The program counter (R43) -/

/-- The length in bytes of the instruction that executes: a prefixed pair is two words (R43). -/
def State.len (s : State) : Word := if s.mods.isSome then 8 else 4

/-- The state with the executing context's pc set. -/
def State.setPc (s : State) (v : Word) : State := s.modMe fun c => { c with pc := v }

/-- Sequential execution (R43). -/
def State.advance (s : State) : State := s.modMe fun c => { c with pc := c.pc + s.len }

/-- The modifiers of the pair that executes, or none (R49). -/
def State.prefixOf (s : State) : Prefix := s.mods.getD noMods

/-! ## Free values (R6) -/

/-- The state with the counter of free values advanced. -/
def State.drawn (s : State) : State := { s with freeIdx := s.freeIdx + 1 }

/-! ## How a meaning ends -/

/-- A trap: its cause and TVAL, TFSTAT for a translation fault (R278), the cells of a write to an expander that was
ended and that may or may not have been performed (R56, R412), and the VREG_FAULTs that spills abandoned on the way left to the
registers' owners (R89). -/
structure Trap where
  cause : Cause
  tval  : Word
  tf    : Option Word := none
  ended : Memory := []
  lost  : List (CtxId × Word × Option Word) := []
  deriving DecidableEq, Repr

/-- Why a meaning does not complete: a trap, or a wait in a given state. -/
inductive Stop
  | trap (t : Trap)
  | wait (s : State)
  deriving DecidableEq, Repr

/-- What a meaning computes. -/
abbrev Body := Except Stop State

/-- A trap with a value (R57). -/
def trapWith {α : Type} (c : Cause) (v : Word) : Except Stop α := .error (.trap { cause := c, tval := v })

/-- ILLEGAL, with the instruction's word or its prefix in TVAL (R53). -/
def trapIllegal {α : Type} (s : State) : Except Stop α := trapWith .illegal (s.insn.setWidth 64)

/-- PRIVILEGE, with the instruction's word in TVAL (R93, R383). -/
def trapPrivilege {α : Type} (s : State) : Except Stop α := trapWith .privilege (s.insn.setWidth 64)

/-- The executing context waits without having committed: the instruction runs again (R22). -/
def waitRetry {α : Type} (s : State) : Except Stop α := .error (.wait (s.modMe fun c => { c with wait := .retry }))

/-- A condition that must hold, or the instruction traps. -/
def need (c : Bool) (e : Except Stop Unit) : Except Stop Unit := if c then .ok () else e

/-- The code of a cause (R383). -/
def Cause.code : Cause → Nat
  | .illegal => 0x01 | .privilege => 0x02 | .misaligned => 0x03 | .fetchFault => 0x04 | .loadFault => 0x05
  | .storeFault => 0x06 | .vregFault => 0x07 | .tileUnconfig => 0x08 | .tileShape => 0x09 | .scaleCount => 0x0A
  | .accOwner => 0x0B | .rnsUncorrectable => 0x0C | .rnsOverflow => 0x0D | .overread => 0x0E | .underread => 0x0F
  | .rcRefill => 0x10 | .rcStore => 0x11 | .budget => 0x12 | .mergeConflict => 0x13 | .pairMismatch => 0x14
  | .apxStore => 0x15 | .watchpoint => 0x16 | .breakpoint => 0x17 | .syscall => 0x18 | .uncorrectableData => 0x19
  | .hang => 0x1A | .linkDown => 0x1B | .peerDown => 0x1C | .memberEvent => 0x1D | .noCandidate => 0x1E
  | .queueFault => 0x1F | .doubleFault => 0x20 | .preempted => 0x21 | .groupFault => 0x22 | .collectiveAbort => 0x23

/-- The word that CAUSE takes (R95, R380). -/
def causeWord (c : Cause) (async : Bool) (eng : Option Nat) : Word :=
  word (c.code + async.toNat * 2 ^ 8 + eng.isSome.toNat * 2 ^ 9 + eng.getD 0 % 8 * 2 ^ 10)

/-- STATUS after a trap entry (R380), with HCTX (R20). -/
def trapStatus (st : Word) (hctx : Nat) : Word :=
  putBits (putBits (putBits (putBits (putBits st 2 2 (bits st 0 2)) 5 1 (bits st 4 1)) 0 2 1) 4 1 0) 8 4 hctx

/-- A program counter holds a multiple of 4 (R43). -/
def alignPc (v : Word) : Word := putBits v 0 2 0

/-- Trap entry of a control context at S (R380). The fetch of the handler's first instruction is still to come (R386). -/
def Ctx.enter (c : Ctx) (ret cause tval : Word) (hctx : Nat) : Ctx :=
  { c with
    epc := ret, cause := cause, tval := tval, status := trapStatus c.status hctx,
    pc := alignPc c.tvec, entering := some false, wait := .none, remote := none }

/-- A helper stopped at a precise trap (R20): HELD, its own registers record it, and it is pending for the control context. -/
def Ctx.hold (c : Ctx) (cause tval : Word) : Ctx :=
  { c with epc := c.pc, cause := cause, tval := tval, life := .held, trapPending := true, wait := .none, remote := none }

/-- Whether an entry leaves the queue as soon as it reaches the head (R26, R141). -/
def QEntry.passes (e : QEntry) : Bool := match e.op with | .unit _ => true | _ => false

/-- Whether an entry is context `k`'s uncommitted instruction. -/
def QEntry.isMemoryOf (k : Nat) (e : QEntry) : Bool := e.ctx == k && (match e.op with | .memory .. => true | _ => false)

/-- The engine queue without the uncommitted entries of a context (R23). -/
def squashQueue (k : Nat) (q : List QEntry) : List QEntry := (q.filter fun e => !e.isMemoryOf k).dropWhile QEntry.passes

/-- The engine queue after its head has left it (R26). -/
def popQueue (q : List QEntry) : List QEntry := (q.drop 1).dropWhile QEntry.passes

/-- The state with a context's uncommitted entries squashed (R23). -/
def State.squash (s : State) (i : CtxId) : State := s.modCore i.core fun c => { c with queue := squashQueue i.ctx c.queue }

/-- Taking an exception (R20, R380): context `i` takes a trap of its own, as a handler entry or by becoming HELD. -/
def State.takeCause (s : State) (i : CtxId) (t : Trap) (async : Bool) (eng : Option Nat) : State :=
  let cw := causeWord t.cause async eng
  (s.squash i).modCtx i fun c =>
    let c := { c with tfstat := t.tf.getD c.tfstat, vregFault := if t.cause = Cause.vregFault then none else c.vregFault }
    if i.ctx = 0 then c.enter c.pc cw t.tval 0 else c.hold cw t.tval

/-- The control context of a core takes its helper's pending trap (R20, R109). -/
def State.takeHelperTrap (s : State) (core h : Nat) : State :=
  let hc := s.ctx ⟨core, h⟩
  let pc := (s.ctx ⟨core, 0⟩).pc
  let s := (s.squash ⟨core, 0⟩).modCtx ⟨core, 0⟩ fun c => c.enter hc.epc hc.cause hc.tval h
  s.modCtx ⟨core, h⟩ fun c => { c with epc := pc, trapPending := false }

/-- The slice group of a context. -/
def State.groupOf (s : State) (i : CtxId) : Option SliceGroup :=
  (s.ctx i).group.bind fun g => ((s.core i.core).slices.find? (fun e => e.1 == g)).map (·.2)

/-- The state with a context's slice group changed. -/
def State.modGroup (s : State) (i : CtxId) (f : SliceGroup → SliceGroup) : State :=
  match (s.ctx i).group with
  | none => s
  | some g => s.modCore i.core fun c => { c with slices := c.slices.map fun e => if e.1 = g then (e.1, f e.2) else e }

/-- Ringing a partition's bell with a cause (R389); while it rings or stands stopped, a further ring adds nothing. -/
def State.ring (s : State) (p cause : Nat) : State :=
  s.modPart p fun q => if q.stopped.isSome || q.ringing.isSome then q else { q with ringing := some cause }

/-- The state with a move put before every other. -/
def State.pushMove (s : State) (m : Move) : State := { s with agenda := m :: s.agenda }

/-- A list of pending causes with one more; a cause that is already pending is merged with it (R384). -/
def addPending (l : List Pending) (p : Pending) : List Pending := if l.any (fun q => q.cause == p.cause) then l else l ++ [p]

/-- A cause raised for a context (R384); for a FREE context it is raised for its control context (R385). -/
def State.raise (s : State) (i : CtxId) (cause : Cause) (tval : Word) (eng : Option Nat) : State :=
  let i := if (s.ctx i).life == .free then ⟨i.core, 0⟩ else i
  s.modCtx i fun c => { c with pending := addPending c.pending ⟨cause, tval, eng⟩ }

/-- A cause raised for a partition's supervisor (R383). -/
def State.raiseSup (s : State) (p : Nat) (cause : Cause) (tval : Word) (eng : Option Nat) : State :=
  s.raise ⟨(s.part p).supervisor, 0⟩ cause tval eng

/-- The state with a cached queue changed. -/
def State.modQueue (s : State) (p q : Nat) (f : Queue → Queue) : State :=
  s.modPart p fun pt => { pt with queues := pt.queues.map fun e => if e.1 = q then (e.1, f e.2) else e }

/-- QUEUE_FAULT raised for the supervisor (R243). -/
def State.queueFault (s : State) (p q count reason : Nat) : State :=
  s.raiseSup p .queueFault (word (count % 2 ^ 48 * 65536 + q % 256 * 256 + reason)) (some 2)

/-- QUEUE_FAULT of a queue, which stops (R243). -/
def State.stopQueue (s : State) (p q count reason : Nat) : State :=
  (s.modQueue p q fun x => { x with stop := true, dirty := true }).queueFault p q count reason

/-- Whether a queue's re-execution list is full (R240). -/
def Partition.reexecFull (p : Partition) (q : Nat) : Bool :=
  match p.queues.find? (fun e => e.1 == q) with
  | some (_, y) => decide (64 ≤ y.reexec.length)
  | none => false

/-- The state with a slice group of a core that finds its queue's re-execution list full: QUEUE_FAULT, and it is restartable no more (R240). -/
def State.refuseReexec (s : State) (core g : Nat) (x : SliceGroup) : State :=
  (s.stopQueue (s.core core).partid x.queue x.count 6).modCore core fun c =>
    { c with slices := smSet c.slices g { x with restartable := false } }

/-- What overrides an uncorrectable error of a core (R387): re-execution of a restartable slice (R239), rollback in
step mode (R397), or escalation of an unrepeatable superstep (R399). The state, and whether the error is dealt with; where it is not, the
table of R387 stands. -/
def State.errorOverride (s : State) (i : CtxId) : State × Bool :=
  match s.groupOf i with
  | some g =>
    let h := (s.ctx i).group.getD 0
    if !g.restartable then (s, false)
    else if (s.part (s.core i.core).partid).reexecFull g.queue then (s.refuseReexec i.core h g, false)
    else (s.pushMove (.event (.sliceReexecution i.core h)), true)
  | none =>
    if s.stepMode i.core then
      let p := (s.core i.core).partid
      (if (s.part p).stepctl.getLsbD 16 then s.ring p 3 else s.pushMove (.event (.rollback p)), true)
    else (s, false)

/-- The state after the writes that a down expander ended, each of which may or may not have been performed (R56, R412). -/
def State.endWrites (s : State) (l : Memory) : State :=
  if l.isEmpty then s else if Config.freeBool s.freeIdx then s.drawn.writeCells l else s.drawn

/-- The state with the VREG_FAULTs of abandoned spills pending for the registers' owners (R89). -/
def State.keepLost (s : State) (l : List (CtxId × Word × Option Word)) : State :=
  l.foldl (fun s e => s.modCtx e.1 fun c => { c with vregFault := some e.2 }) s

/-- The executing context takes an instruction's trap in the state before the instruction (R56). -/
def State.takeTrap (s : State) (t : Trap) : State :=
  let s := ({ s with mods := none }).endWrites t.ended
  let r := if t.cause = .uncorrectableData then s.errorOverride s.cur else (s, false)
  (if r.2 then r.1 else r.1.takeCause s.cur t false none).keepLost t.lost

/-- The end of a meaning: the next state, the state after trap entry, or the state that waits. -/
def finish (s : State) (b : Body) : Host.Outcome State Fault Refusal :=
  match b with
  | .ok t => .next t
  | .error (.trap t) => .next (s.takeTrap t)
  | .error (.wait t) => .next t

/-- A meaning that ends in a state, and goes on at the next instruction. -/
def seqNext (s : State) : Host.Outcome State Fault Refusal := .next s.advance

/-! ## Pending causes (R384, R385) -/

/-- The pending cause of least code (R384). -/
def leastCause : List Pending → Option Pending
  | [] => none
  | p :: rest =>
    match leastCause rest with
    | none => some p
    | some q => if q.cause.code < p.cause.code then some q else some p

/-- The pending causes of a context, a pending watchpoint match of its core included (R207). -/
def State.pendingOf (s : State) (i : CtxId) : List Pending :=
  let c := s.core i.core
  (s.ctx i).pending ++
    (if i.ctx = 0 then c.wpHit.map (fun e => ⟨.watchpoint, e.2, (c.wpEng.find? (fun g => g.1 == e.1)).map (·.2)⟩) else [])

/-- Whether a context's wait lets it take a cause (R111, R113, R384): a retried instruction may be interrupted. -/
def Wait.interruptible : Wait → Bool
  | .none => true | .retry => true | _ => false

/-- The lowest-numbered helper of a core whose trap is pending (R384). -/
def State.heldPending (s : State) (core : Nat) : Option Nat := helperNumbers.find? fun h => (s.ctx ⟨core, h⟩).trapPending

/-- Whether a context takes a cause at its next boundary (R20, R384). -/
def State.causeDue (s : State) (i : CtxId) : Bool :=
  let c := s.ctx i
  c.life == .live && c.wait.interruptible &&
    (if i.ctx = 0 then c.ae && ((s.heldPending i.core).isSome || !(s.pendingOf i).isEmpty) else !c.pending.isEmpty)

/-- Asynchronous trap entry (R384): pending helper traps first, then the causes in ascending code. -/
def State.takeAsync (s : State) (i : CtxId) : State :=
  match (if i.ctx = 0 then s.heldPending i.core else none) with
  | some h => s.takeHelperTrap i.core h
  | none =>
    match leastCause (s.pendingOf i) with
    | none => s
    | some p =>
      let s := s.modCtx i fun c => { c with pending := c.pending.filter fun q => q.cause != p.cause }
      let s := if p.cause = .watchpoint then s.modCore i.core fun c => { c with wpHit := [], wpEng := [] } else s
      s.takeCause i { cause := p.cause, tval := p.tval } true p.eng

/-! ## Time (R351 to R353) -/

/-- TIME in nanoseconds: 2.4 cycles of the arithmetic clock to one nanosecond (R14, R352). -/
def State.time (s : State) : Nat := s.timeBase + s.cycles * 5 / 12

end Sys2Proof.Machine
end

