-- ==== Sys2Proof/Machine/RnsMath.lean ====
section
/-! DEFINITION. Residue arithmetic over the ten channels and the wide exact accumulator (R78 to R85, R145, R159). -/

namespace Sys2Proof.Machine

open Sys2Proof

/-- The modulus of a channel (R81). -/
def modulus : Nat → Nat
  | 0 => 11 | 1 => 13 | 2 => 17 | 3 => 19 | 4 => 23 | 5 => 27 | 6 => 29 | 7 => 31 | 8 => 37 | _ => 41

/-- The ten channels. -/
def channels : List Nat := [0, 1, 2, 3, 4, 5, 6, 7, 8, 9]

/-- The channels in service, RNSCFG bit `i` taking channel `i` out (R82). -/
def healthy (cfg : BitVec 10) : List Nat := channels.filter (fun i => !cfg.getLsbD i)
/-- The working set (R82). -/
def workSet (cfg : BitVec 10) : List Nat := (healthy cfg).take 8
/-- The check set (R82). -/
def checkSet (cfg : BitVec 10) : List Nat := (healthy cfg).drop 8
/-- The product of the moduli of a set. -/
def modProduct (s : List Nat) : Nat := s.foldl (fun p i => p * modulus i) 1

/-- The packed residues of an integer (R81, R145): channel `i` in bits [6i+5:6i]. -/
def packResidues (x : Int) : Nat := channels.foldl (fun w i => w + (x % (modulus i : Int)).toNat * 2 ^ (6 * i)) 0
/-- A channel's residue in a packed word, reduced modulo its modulus on entry (R145). -/
def residueOf (w i : Nat) : Nat := w / 2 ^ (6 * i) % 64 % modulus i
/-- A packed word from its ten residues. -/
def packWord (f : Nat → Nat) : Nat := channels.foldl (fun w i => w + f i * 2 ^ (6 * i)) 0

/-- The least `t` below a modulus with `(x + p·t) mod m = r`, tried downward from `n`. -/
def crtDigit (x p m r : Nat) : Nat → Nat
  | 0 => 0
  | n + 1 => if (x + p * n) % m = r then n else crtDigit x p m r n

/-- The unique X below the product of a set's moduli with the word's residues (R84). -/
def crt (w : Nat) (s : List Nat) : Nat :=
  (s.foldl (fun (a : Nat × Nat) i =>
    let m := modulus i
    (a.1 + a.2 * crtDigit a.1 a.2 m (residueOf w i) m, a.2 * m)) (0, 1)).1

/-- Signed(X, P) of R84. -/
def signedIn (x p : Nat) : Int := if x ≤ (p - 1) / 2 then (x : Int) else (x : Int) - p

/-- The status of an element (R84, R159). -/
inductive RnsStatus | ok | unchecked | corrected (ch : Nat) | overflow | uncorrectable
  deriving DecidableEq, Repr

/-- KIND of R159. -/
def RnsStatus.kind : RnsStatus → Nat
  | .ok => 0 | .unchecked => 1 | .corrected _ => 2 | .overflow => 3 | .uncorrectable => 4
/-- The status byte of R159. -/
def RnsStatus.byte : RnsStatus → Nat
  | .corrected ch => 2 + 16 * ch
  | s => s.kind

/-- The reverse conversion of one packed word (R84). -/
def rnsReverse (cfg : BitVec 10) (w : Nat) : Int × RnsStatus :=
  let ws := workSet cfg
  let cs := checkSet cfg
  let all := ws ++ cs
  let m := modProduct ws
  let mf := modProduct all
  let y := signedIn (crt w all) mf
  let inRange := fun (v : Int) => v.natAbs ≤ (m - 1) / 2
  if cs.isEmpty then (y, .unchecked)
  else if inRange y then (y, .ok)
  else if cs.length == 1 then (y, .uncorrectable)
  else
    let cands := all.filterMap (fun i =>
      let s := all.filter (· != i)
      let v := signedIn (crt w s) (mf / modulus i)
      if inRange v then some (v, i) else none)
    match cands with
    | [] => (y, .overflow)
    | [(v, i)] => (v, .corrected i)
    | _ => (y, .uncorrectable)

/-- The integer of an addend of the wide accumulator, in units of 2^−149 (R78). -/
def accUnits (x : Num) : Int :=
  match x with
  | .fin n m e _ => let v : Int := m * 2 ^ (e + 149).toNat; if n then -v else v
  | _ => 0

/-- The result of `xacc.rd` and `nsum` on a total in units of 2^−149 with its three sticky bits (R79). -/
def accRead (f : Fmt) (total : Int) (pinf ninf nan : Bool) : Nat × Flags :=
  if nan || (pinf && ninf) then (f.nanCode, fNV)
  else if pinf then (f.infCode, 0)
  else if ninf then (f.signed true f.infCode, 0)
  else roundFp f .ne (.ofScaled false total (-149))

end Sys2Proof.Machine
end

