-- ==== Sys2Proof/Machine/Mem.lean ====
section
/-! DEFINITION. Memory accesses: the hash of addresses, translation, and the accesses that homes perform:
loads, stores, takes, fills and exact adds, in flow and step mode (R163 to R182, R186 to R202, R206, R210, R270 to R283). -/

namespace Sys2Proof.Machine

open Sys2Proof

/-! ## Physical addresses (R164, R165, R167) -/

/-- The hash of a physical address (R167). -/
def hashPa (pa : Nat) : Nat :=
  let c := fun lo => BitVec.ofNat 10 (pa / 2 ^ lo)
  (c 7 ^^^ c 17 ^^^ c 27 ^^^ c 37 ^^^ BitVec.ofNat 10 (pa / 2 ^ 47 % 32)).toNat

/-- Whether an address of the CXL tier lies in its expander's reported capacity (R164, R412). -/
def State.cxlExists (s : State) (pa : Nat) : Bool :=
  match regionOf pa with
  | .cxl e => match s.expanders.find? (fun x => x.1 == e) with
    | some (_, x) => (pa - cxlBase) % 0x1000000000000 < x.capacity
    | none => false
  | _ => true

/-- The device slice at an index of a partition's slice list (R166, R167). -/
def Partition.slice (p : Partition) (i : Nat) : Nat := 4 * (p.clusters.getD (i / 4) 0) + i % 4

/-! ## Translation (R272 to R278, R283) -/

/-- Access kinds (R276), with the ACC code of TFSTAT (R273). -/
inductive Acc | fetch | load | store | take | atomic
  deriving DecidableEq, Repr

/-- TFSTAT.ACC of a kind. -/
def Acc.code : Acc → Nat
  | .fetch => 0 | .load => 1 | .store => 2 | .take => 3 | .atomic => 3
/-- The cause that reports a fault of a kind (R276). -/
def Acc.cause : Acc → Cause
  | .fetch => .fetchFault | .load => .loadFault | .take => .loadFault | .store => .storeFault | .atomic => .storeFault

/-- Who makes an access: the issuing core and context, the privilege and root it translates with, the task id of its
step-mode writes, the engine that performs it, if one does, the value of APX_STORE when a pure region forbids it to
write, whether it is the controller's, the catch unit's or the pool's own access, which step mode does not defer (R89, R207, R244,
R252, R276, R374), whether it comes from a step-mode core (R36, R37), whether it is a spill or a fill, which no watchpoint
matches (R89), and the partition whose homes it has where that is not the partition of the core (R276). -/
structure Req where
  core   : Nat
  ctx    : Nat
  priv   : Nat
  ptroot : Word
  task   : BitVec 32 := 0
  eng    : Option Nat := none
  pure   : Option Nat := none
  direct : Bool := false
  step   : Bool := false
  quiet  : Bool := false
  part   : Option Nat := none
  deriving DecidableEq, Repr

/-- Whether an access is a step-mode access under R36 and R37. -/
def Req.defers (r : Req) : Bool := r.step && !r.direct

/-- The executing context as a requester. -/
def State.req (s : State) : Req :=
  { core := s.cur.core, ctx := s.cur.ctx, priv := s.me.priv, ptroot := s.myCore.ptroot, task := s.myCore.taskId,
    step := s.stepMode s.cur.core }

/-- Whether a pure region forbids the executing context to write memory (R374). -/
def Ctx.pureMarked (c : Ctx) : Bool := c.pure.isSome && c.priv == 0 && !c.ui

/-- The executing context as a requester that writes, with the instruction's first address. -/
def State.reqW (s : State) (va : Nat) : Req := { s.req with pure := if s.me.pureMarked then some va else none }

/-- The partition of a number, present or switched out. -/
def State.anyPart (s : State) (p : Nat) : Partition :=
  if (s.part p).live then s.part p else ((s.images.find? fun i => i.2.partid == p).map fun i => i.2.part).getD (s.part p)

/-- The number of the partition whose homes a requester has. -/
def State.reqPartid (s : State) (rq : Req) : Nat := rq.part.getD (s.core rq.core).partid

/-- The partition whose homes a requester has (R166, R276). -/
def State.reqPart (s : State) (rq : Req) : Partition :=
  match rq.part with
  | none => s.part (s.core rq.core).partid
  | some p => s.anyPart p

/-- A translation: the physical address with its page's attributes (R166). -/
structure Xlat where
  va     : Nat
  pa     : Nat
  home   : Nat
  lc     : Bool
  target : Nat
  deriving DecidableEq, Repr

/-- A translation fault (R278). -/
structure XFault where
  va     : Nat
  reason : Nat
  level  : Nat
  deriving DecidableEq, Repr

/-- The level-`lvl` index of an address (R274). -/
def vaIndex (va lvl : Nat) : Nat := va / 2 ^ (55 - 13 * lvl) % 8192

/-- Whether a page entry's range and HOME break R164, R165 or R166 (reason 5). -/
def State.pageForbidden (s : State) (p : Partition) (lvl e : Nat) : Bool :=
  let home := e / 64 % 4
  let lc := e / 256 % 2 == 1
  let u := e / 32 % 2 == 1
  let x := e / 16 % 2 == 1
  let w := e / 8 % 2 == 1
  let pa := e / 65536 % 2 ^ 36 * 65536
  let size := if lvl = 2 then 0x20000000 else 0x10000
  let target := e / 2 ^ 52 % 2048
  let n := 4 * p.clusters.length
  let l2 := (match home with
    | 0 => true
    | 2 => if target / 1024 = 0 then target < n else p.granted.contains (target % 1024)
    | 3 => !lc
    | _ => false)
  match regionOf pa with
  | .hbm =>
    !l2 ||
    (if pa + size ≤ 0x7FF8000000 then false
     else if pa + size ≤ 0x7FFC800000 && 0x7FF8000000 ≤ pa then home != 3 || u || x
     else if pa + size ≤ 0x7FFC900000 && 0x7FFC800000 ≤ pa then home != 3 || u || x || w
     else true)
  | .cxl _ => !l2 || !s.cxlExists (pa + size - 1)
  | .sram c =>
    home != 1 || lc || lvl != 3 ||
      !((rectClusters p.ccol p.crow p.width p.height).contains (clusterOf c))
  | .remote _ => home != 3 || lc
  | .reserved => true

/-- Whether an entry is malformed at its level (R275, reason 3). -/
def entryMalformed (lvl e : Nat) : Bool :=
  match e % 4 with
  | 1 => lvl == 3 || e % 65536 != 1 || e / 2 ^ 52 != 0
  | 2 => lvl == 1 || e / 512 % 128 != 0 || e / 2 ^ 63 != 0 || (lvl == 2 && e / 65536 % 8192 != 0)
      || (e / 64 % 4 != 2 && e / 2 ^ 52 % 2048 != 0)
  | _ => true

/-- Whether an entry allows an access kind at a privilege (R276). -/
def entryAllows (e priv : Nat) (k : Acc) : Bool :=
  let r := e / 4 % 2 == 1
  let w := e / 8 % 2 == 1
  let x := e / 16 % 2 == 1
  let u := e / 32 % 2 == 1
  (if priv = 0 then u else !(k == .fetch && u)) &&
  (match k with
   | .fetch => x | .load => r | .store => w | .take => r && w | .atomic => r && w)

/-- A byte that a walker reads (R279): another device's is that device's (R223), and one of a line that a slice holds, whose page is
mapped with another home, is undefined (R168). -/
def State.walkByte (s : State) (pa : Nat) : Byte :=
  match regionOf pa with
  | .remote _ => Config.remoteByte pa s.freeIdx
  | _ => if smHas s.l2 (pa / 128) || smHas s.lines (pa / 128) then Config.strayByte pa s.freeIdx else s.mem.get pa

/-- A page-table entry as a walker reads it. -/
def State.walkEntry (s : State) (a : Nat) : Nat := bytesToNat ((List.range 8).map fun i => s.walkByte (a + i))

/-- Whether an expander's link is down (R412). -/
def State.expanderDown (s : State) (pa : Nat) : Bool :=
  match regionOf pa with
  | .cxl e => (match s.expanders.find? (fun x => x.1 == e) with | some (_, x) => !x.up | none => false)
  | _ => false

/-- Whether a line's data cannot be read: it is marked poisoned, or its page's rows have failed (R184, R387). -/
def State.unreadable (s : State) (line : Nat) : Bool := s.poison.contains line || s.dead.contains (line / 512)

/-- The walk from a table at a level, for at most `fuel` levels (R274, R277), for the homes of a partition: the leaf entry and its
level. -/
def State.walk (s : State) (p : Partition) (va : Nat) : Nat → Nat → Nat → Except XFault (Nat × Nat)
  | 0, _, lvl => .error ⟨va, 3, lvl⟩
  | fuel + 1, table, lvl =>
    let a := table + 8 * vaIndex va lvl
    if s.unreadable (a / 128) || s.expanderDown a then .error ⟨va, 6, lvl⟩ else
    let e := s.walkEntry a
    if e % 4 = 0 then .error ⟨va, 2, lvl⟩
    else if entryMalformed lvl e then .error ⟨va, 3, lvl⟩
    else if e % 4 = 2 then (if s.pageForbidden p lvl e then .error ⟨va, 5, lvl⟩ else .ok (e, lvl))
    else State.walk s p va fuel (e / 65536 % 2 ^ 36 * 65536) (lvl + 1)

/-- The entries that a walk reads. -/
def State.walkReads (s : State) (va : Nat) : Nat → Nat → Nat → List Nat
  | 0, _, _ => []
  | fuel + 1, table, lvl =>
    let a := table + 8 * vaIndex va lvl
    let e := s.walkEntry a
    a :: (if e % 4 = 1 && !entryMalformed lvl e then State.walkReads s va fuel (e / 65536 % 2 ^ 36 * 65536) (lvl + 1) else [])

/-- A local-SRAM address moved from the frame of the partition's creation to its present rectangle (R283). -/
def Partition.displace (p : Partition) (pa : Nat) : Nat :=
  let c := (pa - sramBase) / 0x80000
  let cl := c / 4
  let cl' := 16 * (cl / 16 - p.crow + p.row) + (cl % 16 - p.ccol + p.col)
  sramBase + (4 * cl' + c % 4) * 0x80000 + (pa - sramBase) % 0x80000

/-- A physical address behind a migration that has switched: accesses that still reach S are forwarded to D (R183). -/
def State.forwarded (s : State) (pa : Nat) : Nat :=
  match s.migrations.find? (fun m => m.2.switched && m.2.src == pa / 65536) with
  | some (_, m) => m.dst * 65536 + pa % 65536
  | none => pa

/-- The table that a requester's walks start from (R272). -/
def Req.root (rq : Req) : Nat := bits rq.ptroot 16 36 * 65536

/-- Translate (R277) for a requester. -/
def State.translate (s : State) (rq : Req) (k : Acc) (va : Nat) : Except XFault Xlat :=
  if 2 ^ 55 ≤ va then .error ⟨va, 1, 0⟩
  else
    match s.walk (s.reqPart rq) va 3 rq.root 1 with
    | .error f => .error f
    | .ok (e, lvl) =>
      if !entryAllows e rq.priv k then .error ⟨va, 4, lvl⟩
      else
        let pa := if lvl = 2 then e / 2 ^ 29 % 2 ^ 23 * 2 ^ 29 + va % 2 ^ 29 else e / 65536 % 2 ^ 36 * 65536 + va % 65536
        let home := e / 64 % 4
        let pa := if home = 1 then (s.reqPart rq).displace pa else s.forwarded pa
        .ok ⟨va, pa, home, e / 256 % 2 == 1, e / 2 ^ 52 % 2048⟩

/-- The virtual page number. -/
def vpage (va : Nat) : Nat := va / 65536

/-- Translating a list of byte addresses, one walk for each run of addresses on one page: the fault of the lowest faulting address,
and the translations that succeed, the last first. -/
def State.translateEach (s : State) (rq : Req) (k : Acc) (vas : List Nat) : Option XFault × List Xlat :=
  let step := fun (acc : Option XFault × List Xlat × Option (Nat × Xlat)) (va : Nat) =>
    let (bad, out, last) := acc
    let r : Except XFault Xlat := match last with
      | some (pg, x) => if pg = vpage va then .ok { x with va := va, pa := x.pa - x.pa % 65536 + va % 65536 }
          else s.translate rq k va
      | none => s.translate rq k va
    match r with
    | .ok x => (bad, x :: out, some (vpage va, x))
    | .error f => (match bad with | some g => if f.va < g.va then some f else bad | none => some f, out, none)
  let (bad, out, _) := vas.foldl step (none, [], none)
  (bad, out)

/-- Translating a list of byte addresses; on a fault, the fault of the lowest faulting address (R186). -/
def State.translateAll (s : State) (rq : Req) (k : Acc) (vas : List Nat) : Except XFault (List Xlat) :=
  match s.translateEach rq k vas with
  | (some f, _) => .error f
  | (none, out) => .ok out.reverse

/-- The home of a translated address in HBM or the CXL tier, for the homes of a partition (R166, R167). -/
def Partition.placeOf (p : Partition) (x : Xlat) : Place :=
  let n := 4 * p.clusters.length
  match x.home with
  | 0 => ⟨p.slice (hashPa x.pa % n), false, false⟩
  | 2 => if x.target / 1024 = 0 then ⟨p.slice (x.target % 1024), true, false⟩ else ⟨x.target % 1024, true, true⟩
  | _ => ⟨hashPa x.pa, false, false⟩

/-- The home of a translated address for a requester. -/
def State.placeOf (s : State) (rq : Req) (x : Xlat) : Place := (s.reqPart rq).placeOf x

/-- Whether a page's line has its home at an L2 slice that may hold a copy: NORMAL and PINSLICE (R166). -/
def Xlat.held (x : Xlat) : Bool := x.home == 0 || x.home == 2

/-! ## What can go wrong at a home -/

/-- Why an access failed after its alignment check: a translation fault, a refused page kind (rank 6), a counted line, a
write inside a pure region, a
full slice or write set, an unreachable peer or expander with the writes it ended, uncorrectable data (R186, R251). -/
inductive MemErr
  | xlat (f : XFault) (k : Acc)
  | page (c : Cause) (va : Nat)
  | pure (v : Nat)
  | counted (c : Cause) (va : Nat)
  | capacity (c : Cause) (va : Nat)
  | unreachable (c : Cause) (va : Nat) (ended : Memory)
  | data (va : Nat)
  deriving DecidableEq, Repr

/-- TFSTAT for a fault (R273). -/
def XFault.tfstat (f : XFault) (k : Acc) : Word := word (f.reason + f.level * 16 + k.code * 256)

/-- The address of a line (R189). -/
def lineOf (va : Nat) : Nat := va / 128 * 128

/-- The trap of a failed access of an instruction (R186, R188, R278). -/
def MemErr.trap : MemErr → Trap
  | .xlat f k => { cause := k.cause, tval := word f.va, tf := some (f.tfstat k) }
  | .page c va => { cause := c, tval := word va }
  | .pure v => { cause := .apxStore, tval := word v }
  | .counted c va => { cause := c, tval := word (lineOf va) }
  | .capacity c va => { cause := c, tval := word va }
  | .unreachable c va e => { cause := c, tval := word va, ended := e }
  | .data va => { cause := .uncorrectableData, tval := word va }

/-- An access's result as an instruction's: a failed access is a trap. -/
def orTrap {α : Type} (r : Except MemErr α) : Except Stop α :=
  match r with
  | .ok v => .ok v
  | .error e => .error (.trap e.trap)

/-! ## Watchpoints, heat and progress (R182, R206, R207, R355, R356) -/

/-- What an access is to a watchpoint (R206). -/
inductive Watched | ld | st | tk
  deriving DecidableEq, Repr

/-- The bit of WPM that selects a kind. -/
def Watched.bit : Watched → Nat
  | .ld => 8 | .st => 9 | .tk => 10

/-- Who performs an access, as TVAL of WATCHPOINT names it (R207). -/
inductive Agent | core (n : Nat) (eng : Option Nat) | remote (dev : Nat) | host
  deriving DecidableEq, Repr

/-- TVAL of WATCHPOINT: KIND, ID and the address. -/
def Agent.tval (a : Agent) (pa : Nat) : Word :=
  let r := match a with
    | .core n none => (0, n) | .core n (some _) => (1, n) | .remote d => (2, d) | .host => (3, 0)
  word (r.1 * 2 ^ 62 + r.2 * 2 ^ 52 + pa)

/-- The engine id of an agent that is one. -/
def Agent.engine : Agent → Option Nat
  | .core _ e => e | _ => none

/-- Whether watchpoint `k` of a core matches an access to one byte (R206). -/
def Core.watches (c : Core) (k : Nat) (w : Watched) (pa : Nat) : Bool :=
  let m := smGet c.wpm k 0
  let l := min (bits m 0 6) 40
  m.getLsbD 15 && m.getLsbD w.bit && bits (smGet c.wpa k 0) 0 52 / 2 ^ l == pa / 2 ^ l

/-- The matches of an access that become pending: each watchpoint that has none pending, with the first byte it matches (R207). -/
def Core.matched (c : Core) (w : Watched) (pas : List Nat) : List (Nat × Nat) :=
  [0, 1, 2, 3].filterMap fun k => if smHas c.wpHit k then none else (pas.find? (c.watches k w)).map fun pa => (k, pa)

/-- A core after an access: its matches join those that are pending, in order (R207, R384). -/
def Core.watch (c : Core) (a : Agent) (w : Watched) (pas : List Nat) : Core :=
  let l := c.matched w pas
  if l.isEmpty then c
  else { c with
    wpHit := c.wpHit ++ l.map fun e => (e.1, a.tval e.2)
    wpEng := c.wpEng ++ (match a.engine with | some e => l.map fun m => (m.1, e) | none => []) }

/-- The device after an access to bytes: every armed watchpoint is compared (R207). -/
def State.watch (s : State) (a : Agent) (w : Watched) (pas : List Nat) : State :=
  if s.cores.all (fun c => c.2.wpm.isEmpty) then s
  else { s with cores := s.cores.map fun c => (c.1, c.2.watch a w pas) }

/-- Whether an address lies in the heat tables (R165). -/
def inHeatTable (pa : Nat) : Bool := 0x7FF8000000 ≤ pa && pa < 0x7FFC800000

/-- Whether accesses to an address are counted (R165, R182): HBM but for the heat tables, or the first TiB of an expander's window. -/
def heatCovered (pa : Nat) : Bool :=
  match regionOf pa with
  | .hbm => !inHeatTable pa
  | .cxl _ => (pa - cxlBase) % 0x1000000000000 < 0x10000000000
  | _ => false

/-- The heat counter's address for the page of an address (R165). -/
def heatAddr (pa : Nat) : Nat :=
  match regionOf pa with
  | .cxl e => 0x7FF8800000 + e * 0x1000000 + (pa - cxlBase) % 0x1000000000000 / 65536
  | _ => 0x7FF8000000 + pa / 65536

/-- The state with a heat event of a page due (R182). -/
def State.heat (s : State) (pa : Nat) : State :=
  if heatCovered pa then { s with heatDue := s.heatDue ++ [pa / 65536] } else s

/-- A partition at a progress event at time `t` (R355, R356). -/
def Partition.progressed (p : Partition) (t : Word) : Partition :=
  { p with wdogRemain := p.wdogInterval, wdogArmed := true, lastProgress := t }

/-- A progress event of a partition (R355, R356). -/
def State.progress (s : State) (core : Nat) : State :=
  if (s.core core).inPart then
    let t : Word := word s.time
    s.modPart (s.core core).partid fun p => p.progressed t
  else s

/-! ## The undo log -/

/-- The size of an undo-log entry (R180, R396). -/
def Undo.size : Undo → Nat
  | .scratch .. => 136 | .take .. => 16 | .vreg .. => 424 | .tile .. => 2576 | .slot .. => 2576

/-- Whether an undo log holds an entry for the same item, so that another is not the first write (R180, R396). -/
def Undo.covers : Undo → Undo → Bool
  | .scratch a _, .scratch b _ => a == b
  | .vreg a _, .vreg b _ => a == b
  | .tile a _, .tile b _ => a == b
  | .slot a .., .slot b .. => a == b
  | _, _ => false

/-- The state with an undo entry of a step-mode core; one that finds no room makes the superstep unrepeatable (R180). -/
def State.logUndo (s : State) (core : Nat) (u : Undo) : State :=
  if !s.stepMode core || (s.core core).undo.any (Undo.covers u) then s
  else if 65536 < 1024 + (s.core core).undo.foldl (fun n e => n + e.size) 0 + u.size then
    s.modPart (s.core core).partid fun p => { p with stepctl := putBits p.stepctl 16 1 1 }
  else s.modCore core fun c => { c with undo := c.undo ++ [u] }

/-! ## The lines of the L2 slices (R163, R166, R169, R182) -/

/-- The state with what a slice holds of a line dropped: data not yet written back are written to the memory behind it (R182, R205). -/
def State.dropL2 (s : State) (line : Nat) : State :=
  match s.l2.find? (fun l => l.1 == line) with
  | none => s
  | some (_, l) =>
    let t := if l.back.isSome then s.heat (line * 128) else s
    { t with l2 := smErase t.l2 line }

/-- The lines that a slice holds, of its 8,192 (R163). -/
def State.heldAt (s : State) (slice : Nat) : Nat :=
  (s.l2.filter fun l => l.2.place.slice == slice).length + (s.lines.filter fun l => l.2.place.slice == slice).length

/-- The state with room for a line in a slice: a full slice drops one that is not pinned (log entry 10). -/
def State.roomL2 (s : State) (slice : Nat) : State :=
  if s.heldAt slice < 8192 then s
  else
    let l := (s.l2.filter fun l => l.2.place.slice == slice && !l.2.place.pin).map (·.1)
    match l[Config.freeChoice s.freeIdx % l.length]? with
    | some line => s.drawn.dropL2 line
    | none => s

/-- The lines that a slice holds pinned: pinned pages' lines, counted lines, and lines reserved by deferred fills (R169, R179). -/
def State.pinCount (s : State) (slice : Nat) : Nat :=
  (s.l2.filter (fun l => l.2.place.pin && l.2.place.slice == slice)).length
  + (s.lines.filter (fun l => l.2.place.slice == slice)).length
  + (s.cores.foldl (fun n c => n + if c.2.released then 0 else (c.2.writeSet.filter (fun d => d.place.slice == slice &&
      !smHas s.lines (d.pa / 128) && (match d.op with | .fill .. => true | _ => false))).length) 0)

/-- A line of a home at a slice that an access reaches: it is held there, filled from the memory behind it where it was not (R166, R182),
and a line to be pinned finds room or fails (R169). -/
def State.visitLine (s : State) (q : Place) (line va : Nat) (c : Cause) : Except MemErr State :=
  if smHas s.lines line || smHas s.l2 line then .ok s
  else if q.pin && 4096 ≤ s.pinCount q.slice then .error (.capacity c va)
  else
    let t := (s.roomL2 q.slice).heat (line * 128)
    .ok { t with l2 := smSet t.l2 line ⟨q, none⟩ }

/-- The lines of an access visited at their homes, in order. -/
def State.visit (s : State) (rq : Req) (c : Cause) : List Xlat → Except MemErr State
  | [] => .ok s
  | x :: rest =>
    if !x.held then State.visit s rq c rest
    else
      match s.visitLine (s.placeOf rq x) (x.pa / 128) x.va c with
      | .error e => .error e
      | .ok s => State.visit s rq c rest

/-- The state with a line about to be written at its slice: the memory behind it keeps what it holds. -/
def State.dirtyLine (s : State) (line : Nat) : State :=
  match s.l2.find? (fun l => l.1 == line) with
  | some (_, l) => if l.back.isSome then s else { s with l2 := smSet s.l2 line { l with back := some (s.lineValue line) } }
  | none => s

/-- The lines of an access about to be written. -/
def State.dirtyLines (s : State) (l : List Nat) : State := l.foldl State.dirtyLine s

/-- Whether a line is held at a home other than the one through which an access reaches it: its page is mapped with two homes, and
the outcome is undefined (R168). -/
def State.stray (s : State) (rq : Req) (x : Xlat) : Bool :=
  let other := fun (q : Place) => !x.held || q.slice != (s.placeOf rq x).slice
  match s.l2.find? (fun l => l.1 == x.pa / 128) with
  | some (_, l) => other l.place
  | none => match s.lines.find? (fun l => l.1 == x.pa / 128) with
    | some (_, l) => other l.place
    | none => false

/-! ## The cache portion (R171, R172) -/

/-- The size of a core's cache portion in bytes (R95). -/
def Core.cacheBytes (c : Core) : Nat := match c.lmsplit % 4 with | 0 => 0 | 1 => 65536 | 2 => 131072 | _ => 262144

/-- Whether an access goes through the core's cache portion: the core's own, to an LC page that no migration moves, in flow
mode (R171, R183). -/
def State.cached (s : State) (rq : Req) (x : Xlat) : Bool :=
  x.lc && s.migrations.all (fun m => m.2.src != x.pa / 65536) && rq.eng.isNone && !rq.direct && !s.stepMode rq.core && (s.core rq.core).cacheBytes != 0

/-- Whether an access is a hit in the core's cache portion, which never reaches the home (R219). -/
def State.lcHit (s : State) (rq : Req) (x : Xlat) : Bool := s.cached rq x && smHas (s.core rq.core).lc (x.pa / 128)

/-- The dirty bytes of a cached line, as cells (R171). -/
def LcLine.dirtyCells (l : LcLine) (line : Nat) : List Host.Cell :=
  ((List.range 128).filter (fun i => l.dirty.getLsbD i)).map fun i => (line * 128 + i, l.data.extractLsb' (8 * i) 8)

/-- A cached line's dirty bytes written back at their home as one store (R171). A counted line, and a PINSLICE line that finds its slice
full, take none of them (DESIGN CHOICE, log entry 95). -/
def State.writeBackLine (s : State) (core line : Nat) (l : LcLine) : State :=
  let cells := l.dirtyCells line
  if cells.isEmpty || smHas s.lines line then s
  else
    match s.visitLine l.place line (line * 128) .storeFault with
    | .error _ => s
    | .ok s => (((s.dirtyLine line).writeCells cells).watch (.core core none) .st (cells.map (·.1))).progress core

/-- Writing back, and with `drop` also dropping, a line of a core's cache portion. -/
def State.cleanLine (s : State) (core line : Nat) (drop : Bool) : State :=
  match (s.core core).lc.find? (fun l => l.1 == line) with
  | none => s
  | some (_, l) =>
    (s.writeBackLine core line l).modCore core fun c =>
      { c with lc := if drop then smErase c.lc line else smSet c.lc line { l with dirty := 0 } }

/-- Writing back and emptying a core's cache portion (R172). -/
def State.emptyCache (s : State) (core : Nat) : State :=
  (smKeys (s.core core).lc).foldl (fun s l => s.cleanLine core l true) s

/-- A line allocated in a core's cache portion. R171 allows an eviction at any time: this model evicts only where the portion is full,
and then the line of lowest number (DESIGN CHOICE, log entry 8). -/
def State.allocLine (s : State) (core line : Nat) (q : Place) : State :=
  if smHas (s.core core).lc line then s
  else
    let s := if (s.core core).cacheBytes / 128 ≤ (s.core core).lc.length then
        (match (s.core core).lc with | (l, _) :: _ => s.cleanLine core l true | [] => s) else s
    let v := s.lineValue line
    s.modCore core fun c => { c with lc := smSet c.lc line ⟨v, 0, q⟩ }

/-! ## Write sets (R178, R179) -/

/-- The distinct lines of a core's write set. -/
def Core.setLines (c : Core) : List Nat := (c.writeSet.map (fun d => d.pa / 128)).eraseDups

/-- The shadow lines that a slice holds: one for each core and line (R178). -/
def State.shadowCount (s : State) (slice : Nat) : Nat :=
  s.cores.foldl (fun n c => n + ((c.2.writeSet.filter (fun d => d.place.slice == slice)).map (fun d => d.pa / 128)).eraseDups.length) 0

/-- The accumulators that a slice has bound or reserved (R176, R179). -/
def State.accCount (s : State) (slice : Nat) : Nat := (s.accs.filter (fun a => a.2.place.slice == slice)).length

/-! ## Reading -/

/-- Whether a remote device or an expander cannot be reached by a requester (R360, R412). -/
def State.unreachable (s : State) (rq : Req) (pa : Nat) : Bool :=
  match regionOf pa with
  | .remote d => (s.reqPart rq).peerDown.contains d
  | _ => s.expanderDown pa

/-- The byte that a deferred write gives an address, if it covers it (R36). -/
def Deferred.byteAt (d : Deferred) (pa : Nat) : Option Byte :=
  match d.op with
  | .bytes l => if d.pa ≤ pa && pa < d.pa + l.length then l[pa - d.pa]? else none
  | .xacc l => if d.pa ≤ pa && pa < d.pa + l.length then l[pa - d.pa]? else none
  | .fill v _ => if d.pa / 128 = pa / 128 then some (v.extractLsb' (8 * (pa % 128)) 8) else none
  | .fadd _ => none

/-- The byte of a step-mode read (R36): the core's own latest deferred write, or the value at the superstep's start. -/
def State.stepByte (s : State) (core pa : Nat) : Byte :=
  match (s.core core).writeSet.reverse.findSome? (fun d => d.byteAt pa) with
  | some b => b
  | none =>
    match (s.part (s.core core).partid).snap.find? (fun l => l.1 == pa / 128) with
    | some (_, v) => v.extractLsb' (8 * (pa % 128)) 8
    | none => s.homeByte pa

/-- Whether a load by a context reads its own backing area, where the value is undefined while the context runs (R89). -/
def State.ownBacking (s : State) (rq : Req) (va : Nat) : Bool :=
  let area := bits (s.ctx ⟨rq.core, rq.ctx⟩).vback 14 41 * 16384
  rq.eng.isNone && !rq.direct && area != 0 && area ≤ va && va < area + 13312

/-- Whether an address lies in another device's window. -/
def isRemote (pa : Nat) : Bool := match regionOf pa with | .remote _ => true | _ => false

/-- The byte at an address as a requester finds it at its home, or in step mode as R36 says. -/
def State.byteFor (s : State) (rq : Req) (pa : Nat) : Byte :=
  match regionOf pa with
  | .remote _ => Config.remoteByte pa s.freeIdx
  | .sram _ => s.mem.get pa
  | _ => if rq.defers then s.stepByte rq.core pa else s.homeByte pa

/-- The byte that a load returns: from the core's cache portion where it holds the line (R171, R219). -/
def State.readByte (s : State) (rq : Req) (x : Xlat) : Byte :=
  if s.ownBacking rq x.va then Config.backingByte x.pa s.freeIdx
  else if s.cached rq x then
    (match (s.core rq.core).lc.find? (fun l => l.1 == x.pa / 128) with
     | some (_, l) => l.data.extractLsb' (8 * (x.pa % 128)) 8
     | none => s.homeByte x.pa)
  else s.byteFor rq x.pa

/-- One translation for each line of a list of bytes, in order. -/
def lineHeads : List Xlat → List Xlat
  | [] => []
  | x :: rest => x :: (lineHeads rest).filter (fun y => y.pa / 128 != x.pa / 128)

/-- The translation of lowest virtual address. -/
def lowestVa : List Xlat → Option Xlat
  | [] => none
  | x :: rest => match lowestVa rest with
    | some y => if y.va < x.va then some y else some x
    | none => some x

/-- The lowest address of an access at which a condition holds (R148, R186). -/
def lowestWhere (f : Xlat → Bool) (l : List Xlat) : Option Xlat := lowestVa (l.filter f)

/-- A translation put into a list that rises by virtual address. -/
def insertVa (x : Xlat) : List Xlat → List Xlat
  | [] => [x]
  | y :: rest => if y.va < x.va then y :: insertVa x rest else x :: y :: rest

/-- Translations in rising order of virtual address. -/
def risingVa : List Xlat → List Xlat
  | [] => []
  | x :: rest => insertVa x (risingVa rest)

/-- Whether a SCRATCH access lies beyond the scratch (R170), or is a step-mode access to another core's (R36). -/
def State.scratchBad (s : State) (rq : Req) (x : Xlat) : Bool :=
  match regionOf x.pa with
  | .sram n =>
    let top := 0x80000 - (s.core n).cacheBytes - (if s.stepMode n then 0x10000 else 0)
    (rq.defers && n != rq.core) || top ≤ (x.pa - sramBase) % 0x80000
  | _ => false

/-- Whether a take or a fill meets a page that allows neither (R173), or a SCRATCH address beyond the scratch. -/
def State.uncountable (s : State) (rq : Req) (x : Xlat) : Bool := !x.held || s.scratchBad rq x

/-- Translating the bytes of an access and checking their pages: of the faults of rank 6, the one of lowest address (R148, R186). -/
def State.reach (s : State) (rq : Req) (k : Acc) (bad : Xlat → Bool) (vas : List Nat) : Except MemErr (List Xlat) :=
  let r := s.translateEach rq k vas
  match r.1, lowestWhere bad r.2 with
  | none, none => .ok r.2.reverse
  | some f, none => .error (.xlat f k)
  | none, some x => .error (.page k.cause x.va)
  | some f, some x => if f.va < x.va then .error (.xlat f k) else .error (.page k.cause x.va)

/-- The state after a take, atomic, fill or exact add commits: the slice it belongs to is no longer restartable (R239). -/
def State.committed (s : State) (rq : Req) : State :=
  if rq.eng.isSome || rq.direct then s else s.modGroup ⟨rq.core, rq.ctx⟩ fun g => { g with restartable := false }

/-- The state in which the executing context commits an E-format command (R23): its slice is no longer restartable (R239). Which words of
majors 0x30 to 0x38 are commands is log entry 107. -/
def State.commanded (s : State) : State := s.committed s.req

/-- The agent of a requester. -/
def Req.agent (r : Req) : Agent := .core r.core r.eng

/-- The heat events of the walks for the pages of a list of addresses: one for each entry read, a NOCACHE access (R182, R279). -/
def State.heatWalks (s : State) (rq : Req) (vas : List Nat) : State :=
  ((vas.map vpage).eraseDups.flatMap fun p => s.walkReads (p * 65536) 3 rq.root 1).foldl State.heat s

/-- The heat events of an access (R182): its walks', and one for each line of a NOCACHE page. -/
def State.heatAccess (s : State) (rq : Req) (heads : List Xlat) : State :=
  (heads.foldl (fun s x => if x.home = 3 then s.heat x.pa else s) s).heatWalks rq (heads.map (·.va))

/-- An access compared with the watchpoints; a spill or a fill matches none (R89, R207). -/
def State.watchAs (s : State) (rq : Req) (w : Watched) (pas : List Nat) : State := if rq.quiet then s else s.watch rq.agent w pas

/-- A performed write as a progress event (R355); a spill is none. -/
def State.progressAs (s : State) (rq : Req) : State := if rq.quiet then s else s.progress rq.core

/-- The lines of an access that are not hits in the core's cache portion, in rising order of address. -/
def State.missing (s : State) (rq : Req) (heads : List Xlat) : List Xlat := risingVa (heads.filter fun x => !s.lcHit rq x)

/-- Whether an access draws a free value: of another device, of the context's own backing area, or of a page with two homes. -/
def State.drawsFor (s : State) (rq : Req) (xs heads : List Xlat) : Bool :=
  heads.any (fun x => isRemote x.pa) || heads.any (s.stray rq) || xs.any (fun x => s.ownBacking rq x.va)

/-- Reading bytes at their homes (R186 to R189, R201): their values and the state after the access. -/
def State.readX (s : State) (rq : Req) (xs : List Xlat) : Except MemErr (List Byte × State) :=
  let heads := lineHeads xs
  match lowestWhere (fun x => s.unreachable rq x.pa) heads with
  | some x => .error (.unreachable .loadFault x.va [])
  | none =>
  match lowestWhere (fun x => s.unreadable (x.pa / 128) && !s.lcHit rq x) heads with
  | some x => .error (.data x.va)
  | none =>
  match s.visit rq .loadFault (s.missing rq heads) with
  | .error e => .error e
  | .ok t =>
    let seen := xs.filter fun x => !s.lcHit rq x
    let u := heads.foldl (fun t x => if t.cached rq x then t.allocLine rq.core (x.pa / 128) (t.placeOf rq x) else t) t
    let out := if heads.any (s.stray rq) then xs.map fun x => Config.strayByte x.pa s.freeIdx else xs.map (u.readByte rq)
    let u := if s.drawsFor rq xs heads then u.drawn else u
    .ok (out, (u.heatAccess rq heads).watchAs rq .ld (seen.map (·.pa)))

/-- Translating and reading bytes (R186). -/
def State.loadBytes (s : State) (rq : Req) (vas : List Nat) : Except MemErr (List Byte × State) :=
  match s.reach rq .load (s.scratchBad rq) vas with
  | .error e => .error e
  | .ok xs => s.readX rq xs

/-- Consecutive virtual addresses, modulo 2^64. -/
def vaRange (va n : Nat) : List Nat := (List.range n).map fun i => (va + i) % 2 ^ 64

/-! ## Writing -/

/-- A deferred write entering a core's write set, with its capacities (R37, R178). -/
def State.defer (s : State) (rq : Req) (x : Xlat) (op : DefOp) : Except MemErr State :=
  let c := s.core rq.core
  let q := s.placeOf rq x
  let fresh := !c.setLines.contains (x.pa / 128)
  if fresh && (4096 ≤ c.setLines.length || 1024 ≤ s.shadowCount q.slice) then .error (.capacity .storeFault x.va)
  else .ok ((s.modCore rq.core fun c => { c with writeSet := c.writeSet ++ [⟨rq.task, rq.eng, x.pa, q, x.held, op⟩] }).progress rq.core)

/-- Runs of bytes that lie side by side in one line, with the first byte's translation. -/
def runs : List (Xlat × Byte) → List (Xlat × List Byte)
  | [] => []
  | (x, b) :: rest =>
    match runs rest with
    | (y, l) :: more => if y.pa = x.pa + 1 && y.pa / 128 == x.pa / 128 then (x, b :: l) :: more else (x, [b]) :: (y, l) :: more
    | [] => [(x, [b])]

/-- Whether the core has filled this line in this superstep under this task id (R198). -/
def Core.filledBy (c : Core) (task : BitVec 32) (line : Nat) : Bool :=
  c.writeSet.any fun d => d.task == task && d.pa / 128 == line && (match d.op with | .fill .. => true | _ => false)

/-- Deferring a list of runs. -/
def State.deferRuns (s : State) (rq : Req) : List (Xlat × List Byte) → Except MemErr State
  | [] => .ok s
  | (x, l) :: rest =>
    match s.defer rq x (.bytes l) with
    | .ok s => State.deferRuns s rq rest
    | .error e => .error e

/-- A cached line with a byte written, which becomes dirty (R171). -/
def LcLine.put (l : LcLine) (i : Nat) (b : Byte) : LcLine :=
  { l with data := putBits l.data (8 * i) 8 b.toNat, dirty := putBits l.dirty i 1 1 }

/-- The state with a core's first write of a line of its own scratch in the superstep logged (R180). -/
def State.logScratch (s : State) (core pa : Nat) : State :=
  match regionOf pa with
  | .sram n =>
    if n = core then s.logUndo core (.scratch (pa / 128) (BitVec.ofNat 1024 (bytesToNat (s.mem.bytes (pa / 128 * 128) 128)))) else s
  | _ => s

/-- One byte written by a core in flow mode, or to SRAM: through the cache portion, or at its home. -/
def State.writeByte (s : State) (rq : Req) (x : Xlat) (b : Byte) : State :=
  let core := rq.core
  if isRemote x.pa then s
  else if s.cached rq x then
    let q := s.placeOf rq x
    (s.allocLine core (x.pa / 128) q).modCore core fun c =>
      { c with lc := smSet c.lc (x.pa / 128) ((smGet c.lc (x.pa / 128) (LcLine.mk 0 0 q)).put (x.pa % 128) b) }
  else (s.logScratch core x.pa).writeRaw x.pa b

/-- The state after an engine's write, which clears the mark of each poisoned line that it covers whole (R387). -/
def State.unpoison (s : State) (eng : Option Nat) (xs : List Xlat) : State :=
  if eng.isNone || s.poison.isEmpty then s
  else { s with poison := s.poison.filter fun l => (xs.filter fun x => x.pa / 128 == l).length < 128 }

/-- Whether a store to a line is refused at its home: it is counted or emptied, or in step mode the same routine has filled it (R174,
R198). A store that stays in the cache portion meets no home (R171). -/
def State.refusesStore (s : State) (rq : Req) (x : Xlat) : Bool :=
  isL2 x.pa && !s.cached rq x &&
    (smHas s.lines (x.pa / 128) || (rq.defers && (s.core rq.core).filledBy rq.task (x.pa / 128)))

/-- Writing bytes (R186 to R189, R192, R201), in flow or step mode; no bytes are no access. -/
def State.writeX (s : State) (rq : Req) (xs : List Xlat) (data : List Byte) : Except MemErr State :=
  let heads := lineHeads xs
  if xs.isEmpty then .ok s else
  match rq.pure with
  | some v => .error (.pure v)
  | none =>
  match lowestWhere (fun x => s.unreachable rq x.pa) heads with
  | some x => .error (.unreachable .storeFault x.va (((xs.map (·.pa)).zip data).filter fun c => s.expanderDown c.1))
  | none =>
  match lowestWhere (s.refusesStore rq) heads with
  | some x => .error (.counted .rcStore x.va)
  | none =>
  match s.visit rq .storeFault (s.missing rq heads) with
  | .error e => .error e
  | .ok t =>
    let odd := heads.any (s.stray rq)
    let pairs := xs.zip (if odd then xs.map fun x => Config.strayByte x.pa s.freeIdx else data)
    let t := if odd then t.drawn else t
    match (if rq.defers then t.deferRuns rq (runs (pairs.filter fun q => isL2 q.1.pa)) else .ok t) with
    | .error e => .error e
    | .ok t =>
      let direct := if rq.defers then pairs.filter (fun q => !isL2 q.1.pa) else pairs
      let home := direct.filter fun q => !t.cached rq q.1
      let u := t.dirtyLines ((lineHeads (home.map (·.1))).map fun x => x.pa / 128)
      let u := direct.foldl (fun u q => u.writeByte rq q.1 q.2) u
      let u := if rq.defers then u else u.unpoison rq.eng xs
      let u := (u.heatAccess rq heads).watchAs rq .st (home.map (·.1.pa))
      .ok (if home.isEmpty then u else u.progressAs rq)

/-- Translating and writing bytes. -/
def State.storeBytes (s : State) (rq : Req) (vas : List Nat) (data : List Byte) : Except MemErr State :=
  match s.reach rq .store (s.scratchBad rq) vas with
  | .error e => .error e
  | .ok xs => s.writeX rq xs data

/-- One read and one write of the same bytes at their home in one event (R191, R192): the old bytes and the state after it. An expander
that is down, then uncorrectable data, come before a counted line (DESIGN CHOICE, log entry 96). -/
def State.atomicBytes (s : State) (rq : Req) (va w : Nat) (f : Nat → Nat) : Except MemErr (Nat × State) :=
  match s.reach rq .atomic (s.scratchBad rq) (vaRange va w) with
  | .error e => .error e
  | .ok xs =>
    let heads := lineHeads xs
    match rq.pure with
    | some v => .error (.pure v)
    | none =>
    match lowestWhere (fun x => s.unreachable rq x.pa) heads with
    | some x => .error (.unreachable .storeFault x.va
        (if s.expanderDown x.pa then (xs.map (·.pa)).zip (natToBytes w (f (bytesToNat (xs.map fun x => s.homeByte x.pa)))) else []))
    | none =>
    match lowestWhere (fun x => s.unreadable (x.pa / 128)) heads with
    | some x => .error (.data x.va)
    | none =>
      let s := heads.foldl (fun s x => if s.cached rq x then s.cleanLine rq.core (x.pa / 128) true else s) s
      let xs := xs.map fun x => { x with lc := false }
      let old := bytesToNat (if heads.any (s.stray rq) then xs.map fun x => Config.strayByte x.pa s.freeIdx
        else xs.map fun x => s.byteFor rq x.pa)
      let s := if heads.any (fun x => isRemote x.pa) then s.drawn else s
      (s.writeX rq xs (natToBytes w (f old))).map fun s => (old, s.committed rq)

/-! ## Counted lines (R173 to R175, R437) -/

/-- The line's count as a take meets it: 0 for UNCOUNTED and EMPTIED. -/
def State.countOf (s : State) (line : Nat) : Nat :=
  match s.lines.find? (fun l => l.1 == line) with
  | some (_, l) => l.count
  | none => 0

/-- One line taken once (R174): in flow mode a count of 1 drops the line, pinned page or not (DESIGN CHOICE, log entry 97); in step mode
it becomes EMPTIED, and a core's own take is logged (R180). -/
def State.takeLine (s : State) (rq : Req) (pa : Nat) : State :=
  let line := pa / 128
  match s.lines.find? (fun l => l.1 == line) with
  | none => s
  | some (_, l) =>
    let s := if rq.eng.isNone && !rq.direct then s.logUndo rq.core (.take line l.count) else s
    if l.count = 1 && !rq.defers then
      let s := s.keepLine line
      { s with lines := smErase s.lines line }
    else { s with lines := smSet s.lines line { l with
      count := l.count - 1, emptied := if l.count = 1 then some (s.reqPartid rq) else none } }

/-- Taking whole lines as one unit (R148, R175): the bytes of the lines in order, and the counts that are left. -/
def State.takeX (s : State) (rq : Req) (xs : List Xlat) : Except MemErr (List Byte × State) :=
  let heads := lineHeads xs
  match rq.pure with
  | some v => .error (.pure v)
  | none =>
  match lowestWhere (fun x => s.unreachable rq x.pa) heads with
  | some x => .error (.unreachable .loadFault x.va [])
  | none =>
  match lowestWhere (fun x => s.countOf (x.pa / 128) == 0) heads with
  | some x => .error (.counted .overread x.va)
  | none =>
  match lowestWhere (fun x => s.unreadable (x.pa / 128)) heads with
  | some x => .error (.data x.va)
  | none =>
    let out := xs.map fun x => s.homeByte x.pa
    let s := heads.foldl (fun s x => s.takeLine rq x.pa) s
    .ok (out, ((((s.heatAccess rq heads).watchAs rq .tk (xs.map (·.pa))).progressAs rq).committed rq))

/-- Translating and taking (R186: a take translates as a store and reports LOAD_FAULT). -/
def State.takeBytes (s : State) (rq : Req) (vas : List Nat) : Except MemErr (List Byte × State) :=
  match s.reach rq .take (s.uncountable rq) vas with
  | .error e => .error e
  | .ok xs => s.takeX rq xs

/-- The state without the core's deferred fill of a line under this task id, which a later one of the same task replaces (R37). -/
def State.dropFill (s : State) (rq : Req) (line : Nat) : State :=
  if rq.defers then
    s.modCore rq.core fun c => { c with writeSet := c.writeSet.filter fun d =>
      !(d.task == rq.task && d.pa / 128 == line && (match d.op with | .fill .. => true | _ => false)) }
  else s

/-- The state with a line counted: what its slice held of it is written back first (R173), and its closed bit is cleared (R174). -/
def State.countLine (s : State) (line : Nat) (l : CLine) : State :=
  let s := ((s.keepLine line).dropL2 line).noteWrite (line * 128)
  { s with lines := smSet s.lines line l, closed := s.closed.filter (· != line), poison := s.poison.filter (· != line) }

/-- One line filled with a count (R174): at its home in flow mode, deferred in step mode (R198). -/
def State.fillLine (s : State) (rq : Req) (x : Xlat) (v : BitVec 1024) (count : Nat) : Except MemErr State :=
  let line := x.pa / 128
  let q := s.placeOf rq x
  let pinned := s.l2.any fun l => l.1 == line && l.2.place.pin
  if !pinned && 4096 ≤ (s.dropFill rq line).pinCount q.slice then .error (.capacity .storeFault x.va)
  else if rq.defers then (s.dropFill rq line).defer rq { x with pa := line * 128 } (.fill v count)
  else
    .ok (((((s.roomL2 q.slice).countLine line ⟨count, none, false, v, q, s.reqPartid rq⟩).heatAccess rq [x]).watchAs rq .st
      ((List.range 128).map (line * 128 + ·))).progressAs rq)

/-- Lines filled one after another. -/
def State.fillLines (s : State) (rq : Req) (count : Nat) : List (Xlat × BitVec 1024) → Except MemErr State
  | [] => .ok s
  | (x, v) :: rest =>
    match s.fillLine rq x v count with
    | .ok s => State.fillLines s rq count rest
    | .error e => .error e

/-- Filling whole lines as one unit (R148, R202). -/
def State.fillX (s : State) (rq : Req) (xs : List (Xlat × BitVec 1024)) (count : Nat) : Except MemErr State :=
  match rq.pure with
  | some v => .error (.pure v)
  | none =>
  match lowestWhere (fun x => s.unreachable rq x.pa) (xs.map (·.1)) with
  | some x => .error (.unreachable .storeFault x.va [])
  | none =>
  if count = 0 then .error (.counted .rcRefill 0) else
  match lowestWhere (fun x => smHas s.lines (x.pa / 128)) (xs.map (·.1)) with
  | some x => .error (.counted .rcRefill x.va)
  | none => (s.fillLines rq count xs).map fun s => s.committed rq

/-- The lines of a list of bytes, 128 to a line. -/
def linesOf (l : List Byte) : Nat → List (BitVec 1024)
  | 0 => []
  | n + 1 => BitVec.ofNat 1024 (bytesToNat (l.take 128)) :: linesOf (l.drop 128) n

/-- Translating and filling `n` lines from a line-aligned address. -/
def State.fillBytes (s : State) (rq : Req) (va n : Nat) (data : List Byte) (count : Nat) : Except MemErr State :=
  match s.reach rq .store (s.uncountable rq) ((List.range n).map fun i => (va + 128 * i) % 2 ^ 64) with
  | .error e => .error e
  | .ok xs => s.fillX rq (xs.zip (linesOf data n)) count

/-! ## Wide exact accumulators (R78, R176, R177, R179) -/

/-- A released accumulator. -/
def freshAcc (place : Place) (part : Nat) : WideAcc := ⟨place, 0, false, false, false, false, part⟩

/-- An accumulator that belongs to no home: the empty one. -/
def noAcc : WideAcc := freshAcc ⟨0, false, false⟩ 0

/-- One addend into an accumulator (R78). -/
def WideAcc.add (a : WideAcc) (x : Num) : WideAcc :=
  match x with
  | .nan _ => { a with nan := true }
  | .inf false => { a with pinf := true }
  | .inf true => { a with ninf := true }
  | y => { a with acc := a.acc + BitVec.ofInt 320 (accUnits y) }

/-- The accumulator bound to a word, where one is. -/
def State.accAt (s : State) (pa : Nat) : Option WideAcc := (s.accs.find? fun a => a.1 == pa).map (·.2)

/-- The state with an accumulator kept for the step-mode partitions that have not kept it in this superstep (R177). -/
def State.keepAcc (s : State) (pa : Nat) : State :=
  if s.parts.all (fun p => !p.2.mode) then s
  else
    let v := s.accAt pa
    { s with parts := s.parts.map fun p =>
        if p.2.mode && !smHas p.2.accSnap pa then (p.1, { p.2 with accSnap := smSet p.2.accSnap pa v }) else p }

/-- The accumulator of a word as `xacc.rd` finds it: in step mode as it stood at the superstep's start (R177). -/
def State.accFor (s : State) (rq : Req) (pa : Nat) : WideAcc :=
  let now := (s.accAt pa).getD noAcc
  let a := if rq.defers then
      (match (s.part (s.core rq.core).partid).accSnap.find? (fun e => e.1 == pa) with
       | some (_, v) => v.getD noAcc
       | none => now) else now
  if a.reserved then noAcc else a

/-- What refuses an access to the word of an accumulator in rank 7 (R176, R360, R374, R437). -/
def State.exactRefused (s : State) (rq : Req) (x : Xlat) : Option MemErr :=
  if rq.pure.isSome then some (.pure (rq.pure.getD 0))
  else if s.unreachable rq x.pa then some (.unreachable .storeFault x.va [])
  else if smHas s.lines (x.pa / 128) then some (.counted .rcStore x.va)
  else none

/-- The home of an accumulator's word visited, the core's cached copy written back and dropped first (R171). -/
def State.visitWord (s : State) (rq : Req) (x : Xlat) : Except MemErr State :=
  ((if s.cached rq x then s.cleanLine rq.core (x.pa / 128) true else s).visit rq .storeFault [x]).map fun s => s.committed rq

/-- `fadd.x` at the home of a word (R176), deferred with its accumulator reserved in step mode (R177, R179). -/
def State.exactAdd (s : State) (rq : Req) (x : Xlat) (code : F32) : Except MemErr State :=
  match s.exactRefused rq x with
  | some e => .error e
  | none =>
    match s.visitWord rq x with
    | .error e => .error e
    | .ok s =>
      let q := s.placeOf rq x
      if !smHas s.accs x.pa && 64 ≤ s.accCount q.slice then .error (.capacity .storeFault x.va)
      else
        let a := smGet s.accs x.pa (freshAcc q (s.reqPartid rq))
        if rq.defers then
          let s := if smHas s.accs x.pa then s else { s with accs := smSet s.accs x.pa { a with reserved := true } }
          s.defer rq x (.fadd code)
        else
          let s := (s.keepAcc x.pa).heatAccess rq [x]
          .ok ((({ s with accs := smSet s.accs x.pa (a.add (decodeFp fp32 code.toNat)) }).watchAs rq .st
            ((List.range 4).map (x.pa + ·))).progressAs rq)

/-- `xacc.rd` at the home of a word (R79, R196): the result's code, its flags and the state after it. -/
def State.exactRead (s : State) (rq : Req) (x : Xlat) (fmt : Fmt) : Except MemErr (Nat × Flags × State) :=
  match s.exactRefused rq x with
  | some e => .error e
  | none =>
    match s.visitWord rq x with
    | .error e => .error e
    | .ok s =>
      let a := s.accFor rq x.pa
      let r := accRead fmt a.acc.toInt a.pinf a.ninf a.nan
      let data := natToBytes 4 r.1
      if rq.defers then
        (s.defer rq x (.xacc data)).map fun s => (r.1, r.2, s)
      else
        let s := (((s.keepAcc x.pa).dirtyLine (x.pa / 128)).writeCells (((List.range 4).map (x.pa + ·)).zip data)).heatAccess rq [x]
        .ok (r.1, r.2,
          (({ s with accs := smErase s.accs x.pa }).watchAs rq .st ((List.range 4).map (x.pa + ·))).progressAs rq)

end Sys2Proof.Machine
end

