-- ==== Sys2Proof/Machine/Operands.lean ====
section
/-! DEFINITION. Operand forms: x destinations, f operands, vector registers with their pool and backing, staggered register
fields, lanes and elements (R45, R47, R86 to R89, R123 to R125, R138, R139, R269). -/

namespace Sys2Proof.Machine

open Sys2Proof

/-! ## Scalar destinations -/

/-- Whether the executing context may write an x register: a user completion handler at U may not write x9 to x31 (R269). -/
def Ctx.canWrite (c : Ctx) (n : Nat) : Bool := !(c.ui && c.priv == 0 && 9 ≤ n)

/-- The check of an x destination, ILLEGAL in rank 2 (R269). -/
def State.destX (s : State) (n : Nat) : Except Stop Unit := need (s.me.canWrite n) (trapIllegal s)

/-- An instruction whose whole effect is to write one x register. -/
def State.writeTo (s : State) (d : Nat) (v : Word) : Host.Outcome State Fault Refusal :=
  finish s (do s.destX d; .ok (s.setX d v).advance)

/-- The program counter of the executing context. -/
def State.pc (s : State) : Word := s.me.pc

/-! ## Elements of vectors and tiles (R63, R123) -/

/-- The elements of `w` bits of a value, the lowest first. -/
def elemsOf (w : Nat) : Nat → Nat → List Nat
  | 0, _ => []
  | n + 1, v => v % 2 ^ w :: elemsOf w n (v / 2 ^ w)

/-- Elements of `w` bits joined, the first lowest. -/
def joinElems (w : Nat) : List Nat → Nat
  | [] => 0
  | e :: rest => e % 2 ^ w + 2 ^ w * joinElems w rest

/-- A vector register's contents: its data and its sidecar (R86). -/
abbrev VPair := BitVec 2048 × BitVec 1280

/-- The elements of a vector (R123). -/
def vElems (w : Nat) (v : BitVec 2048) : List Nat := elemsOf w (2048 / w) v.toNat

/-- A vector of elements. -/
def vJoin (w : Nat) (l : List Nat) : BitVec 2048 := BitVec.ofNat 2048 (joinElems w l)

/-! ## Vector registers: the pool and the backing (R88, R89) -/

/-- The backing address of register `n` of a context; its sidecar's (R88). -/
def Ctx.backing (c : Ctx) (n : Nat) : Nat := bits c.vback 14 41 * 16384 + 256 * n
/-- The backing address of a sidecar (R88). -/
def Ctx.backingSide (c : Ctx) (n : Nat) : Nat := bits c.vback 14 41 * 16384 + 8192 + 160 * n

/-- A vector register's state. -/
def Ctx.vstate (c : Ctx) (n : Nat) : VState := smGet c.v n .unwritten

/-- A register that is read: an unwritten one reads zero (R88). -/
def Ctx.vpair (c : Ctx) (n : Nat) : VPair :=
  match c.vstate n with
  | .resident d sd => (d, sd)
  | _ => (0, 0)

/-- Whether a register occupies a physical register. -/
def VState.isResident : VState → Bool
  | .resident .. => true | _ => false

/-- The physical registers that a context occupies. -/
def Ctx.residents (c : Ctx) : Nat := (c.v.filter fun e => e.2.isResident).length

/-- The contexts of a cluster. -/
def clusterCtxs (cl : Nat) : List CtxId := [0, 1, 2, 3].flatMap fun k => ctxNumbers.map fun j => ⟨4 * cl + k, j⟩

/-- The physical registers in use in a cluster (R89). -/
def State.poolUsed (s : State) (cl : Nat) : Nat := (clusterCtxs cl).foldl (fun n i => n + (s.ctx i).residents) 0

/-- Whether a context's registers stay resident for its slice: the group occupies no more than it reserved (R235). -/
def State.spillSafe (s : State) (i : CtxId) : Bool :=
  match s.groupOf i with
  | none => false
  | some g => ((ctxNumbers.filter fun k => (s.ctx ⟨i.core, k⟩).group == (s.ctx i).group).foldl
      (fun n k => n + (s.ctx ⟨i.core, k⟩).residents) 0) ≤ g.tt.v

/-- The registers that may be spilled: resident, with a backing, in no slice's reserved share, not needed by `keep` (R89, R235). -/
def State.victims (s : State) (cl : Nat) (keep : List (CtxId × Nat)) : List (CtxId × Nat) :=
  (clusterCtxs cl).flatMap fun i =>
    let c := s.ctx i
    if bits c.vback 14 41 = 0 || s.spillSafe i then []
    else ((c.v.filter fun e => e.2.isResident).map fun e => (i, e.1)).filter fun e => !keep.contains e

/-- A context as a requester of its spills and fills: performed at once, in both modes, and matched by no watchpoint (R89). -/
def State.reqOf (s : State) (i : CtxId) : Req :=
  { core := i.core, ctx := i.ctx, priv := (s.ctx i).priv, ptroot := (s.core i.core).ptroot, direct := true, quiet := true }

/-- The cells of a register and its sidecar in its backing area (R88). -/
def backingVas (c : Ctx) (n : Nat) : List Nat := vaRange (c.backing n) 256 ++ vaRange (c.backingSide n) 160

/-- TFSTAT of a failed spill or fill: recorded for a translation fault (R278). -/
def MemErr.spillStat : MemErr → Option Word
  | .xlat f k => some (f.tfstat k)
  | _ => none

/-- A spill (R89): the register at its backing's home. One that fails is abandoned and leaves its owner a VREG_FAULT: in translation, as
R89 says, or because a scratch, a counted line, a full slice or a lost expander refuses it (DESIGN CHOICE, log entry 98). -/
def State.spillOne (s : State) (i : CtxId) (n : Nat) : State :=
  let c := s.ctx i
  let p := c.vpair n
  match s.storeBytes (s.reqOf i) (backingVas c n) (natToBytes 256 p.1.toNat ++ natToBytes 160 p.2.toNat) with
  | .error e => s.modCtx i fun c => { c with vregFault := some (word (c.backing n), e.spillStat) }
  | .ok t => t.modCtx i fun c => { c with v := smSet c.v n .spilled }

/-- One entry of the cluster's pool made free, trying victims until one is spilled; the state in which none can be is an error (R89). -/
def State.makeRoom (s : State) (cl : Nat) (keep : List (CtxId × Nat)) : Nat → Except State State
  | 0 => .error s
  | fuel + 1 =>
    if s.poolUsed cl < 256 then .ok s
    else
      let vs := s.victims cl keep
      match vs[Config.freeChoice s.freeIdx % vs.length]? with
      | none => .error s
      | some (i, n) =>
        let t := s.drawn.spillOne i n
        if t.poolUsed cl < 256 then .ok t else State.makeRoom t cl ((i, n) :: keep) fuel

/-- The VREG_FAULTs that abandoned spills have left in a core's cluster (R89). -/
def State.vregFaults (s : State) : List (CtxId × Word × Option Word) :=
  (clusterCtxs (clusterOf s.cur.core)).filterMap fun i => (s.ctx i).vregFault.map fun v => (i, v)

/-- A part of an instruction that follows its vector accesses: its trap keeps the VREG_FAULTs of abandoned spills (R89). -/
def State.keepFaults {α : Type} (s : State) (b : Except Stop α) : Except Stop α :=
  match b with
  | .error (.trap t) => .error (.trap { t with lost := s.vregFaults })
  | _ => b

/-- A trap of a vector access itself (R89). -/
def State.vregTrap {α : Type} (s : State) (v : Word) (tf : Option Word) : Except Stop α :=
  .error (.trap { cause := .vregFault, tval := v, tf := tf, lost := s.vregFaults })

/-- A spilled register of the executing context filled from its backing (R89). The manual does not say where the backing is once its
owner has written VBACK to 0: the fill then reads from virtual address 0 + 256n, as the formula of R88 gives it, and a fill that is
refused for another reason than translation traps as one that is not translated (DESIGN CHOICE, log entry 98). -/
def State.fillOne (s : State) (n : Nat) : Except Stop State :=
  match s.loadBytes (s.reqOf s.cur) (backingVas s.me n) with
  | .error (.data va) => s.keepFaults (.error (.trap (MemErr.data va).trap))
  | .error e => s.vregTrap (word (s.me.backing n)) e.spillStat
  | .ok (l, t) =>
    let v : VState := .resident (BitVec.ofNat 2048 (bytesToNat (l.take 256))) (BitVec.ofNat 1280 (bytesToNat (l.drop 256)))
    .ok (t.modMe fun c => { c with v := smSet c.v n v })

/-- One register of the executing context brought into the pool (R89); `wr` says that it is written. -/
def State.bringIn (s : State) (keep : List (CtxId × Nat)) (n : Nat) (wr : Bool) : Except Stop State :=
  match s.me.vstate n with
  | .resident .. => .ok s
  | .unwritten =>
    if !wr then .ok s else
    (match s.makeRoom (clusterOf s.cur.core) keep 256 with
     | .error s => s.vregTrap 0 none
     | .ok s => .ok (s.modMe fun c => { c with v := smSet c.v n (.resident 0 0) }))
  | .spilled =>
    match s.makeRoom (clusterOf s.cur.core) keep 256 with
    | .error s => s.vregTrap 0 none
    | .ok s => s.fillOne n

/-- Registers brought in one after another. -/
def State.bringAll (s : State) (keep : List (CtxId × Nat)) (wr : Bool) : List Nat → Except Stop State
  | [] => .ok s
  | n :: rest =>
    match s.bringIn keep n wr with
    | .ok s => State.bringAll s keep wr rest
    | .error e => .error e

/-- Every vector register that an instruction reads or writes, accessed under R89; VREG_FAULT in rank 4 (R54, R142). An instruction
that accesses none takes no VREG_FAULT (R128). -/
def State.vAccess (s : State) (reads writes : List Nat) : Except Stop State :=
  if reads.isEmpty && writes.isEmpty then .ok s
  else match s.me.vregFault with
  | some v => .error (.trap { cause := .vregFault, tval := v.1, tf := v.2 })
  | none =>
    let keep := (reads ++ writes).map fun n => (s.cur, n)
    match s.bringAll keep false reads with
    | .error e => .error e
    | .ok s => s.bringAll keep true writes

/-- The state with a vector register written: its data, and its sidecar if the instruction writes it (R64, R123). The first
write of a control context's register in a superstep is logged (R396). -/
def State.setV (s : State) (n : Nat) (data : BitVec 2048) (side : Option (BitVec 1280)) : State :=
  let s := if s.cur.ctx = 0 then s.logUndo s.cur.core (.vreg n (s.me.vstate n)) else s
  s.modMe fun c => { c with v := smSet c.v n (.resident data (side.getD (c.vpair n).2)) }

/-! ## The repetition buffer (R138, R139) -/

/-- VREP.ACTIVE. -/
def Ctx.repActive (c : Ctx) : Bool := c.vrep.getLsbD 32

/-- A register field of a body instruction that names a v register, staggered: `f` is 0 for [25:21], 1 for [20:16], 2 for
[15:11] (R139). -/
def State.stag (s : State) (f n : Nat) : Nat :=
  let r := s.me.vrep
  if s.me.repActive && r.getLsbD (24 + f) then (n + bits r 40 6 * bits r 16 5) % 32 else n

/-- The check that a body instruction lies within the body (R139). -/
def State.bodyFits (s : State) : Except Stop Unit :=
  let r := s.me.vrep
  need (!(s.me.repActive && bits r 8 4 + 1 < bits r 48 4 + s.len.toNat / 4)) (trapIllegal s)

/-- The context after a body instruction of `w` words (R139). -/
def Ctx.bodyNext (c : Ctx) (w : Nat) : Ctx :=
  if !c.repActive then { c with pc := c.pc + word (4 * w) }
  else
    let pos := bits c.vrep 48 4
    if pos + w = bits c.vrep 8 4 + 1 then
      if bits c.vrep 40 6 + 1 < bits c.vrep 0 6 then
        { c with pc := c.pc - word (4 * pos), vrep := putBits (putBits c.vrep 40 6 (bits c.vrep 40 6 + 1)) 48 4 0 }
      else { c with pc := c.pc + word (4 * w), vrep := putBits (putBits c.vrep 32 1 0) 48 4 0 }
    else { c with pc := c.pc + word (4 * w), vrep := putBits c.vrep 48 4 (pos + w) }

/-- The state after a body instruction. -/
def State.bodyAdvance (s : State) : State := s.modMe fun c => c.bodyNext (s.len.toNat / 4)

/-! ## The engine queue (R23) -/

/-- Whether the core's engine queue has room. -/
def State.queueRoom (s : State) : Bool := s.myCore.queue.length < 16

/-- Dispatch of an engine instruction: a full queue makes the context wait (R23). -/
def State.needRoom (s : State) : Except Stop Unit := if s.queueRoom then .ok () else waitRetry s

/-- The state with an entry of the executing context put into its core's queue. -/
def State.enqueue (s : State) (op : QOp) : State :=
  s.modCore s.cur.core fun c => { c with queue := c.queue ++ [⟨s.cur.ctx, op⟩] }

/-- The state with a committed entry of the executing context that needs no unit but the head of the queue (R26, R141): in an
empty queue it is at the head at once. -/
def State.enqueueUnit (s : State) (counts : Bool) : State :=
  if s.myCore.queue.isEmpty then s else s.enqueue (.unit counts)

/-- The state with the head of the executing core's queue gone. -/
def State.popHead (s : State) : State := s.modCore s.cur.core fun c => { c with queue := popQueue c.queue }

/-- The state with an uncommitted instruction back at the head of the queue, where it goes on waiting. -/
def State.holdHead (s : State) (op : QMem) : State :=
  s.modCore s.cur.core fun c => { c with queue := ⟨s.cur.ctx, .memory op false⟩ :: c.queue }

/-- The dispatch of an instruction that works from the head of the queue: its entry is put in once there is room, and waits. -/
def State.dispatchHead (s : State) (op : QMem) : Body :=
  if s.queueRoom && !s.myCore.queue.any (QEntry.isMemoryOf s.cur.ctx) then waitRetry (s.enqueue (.memory op false)) else waitRetry s

/-- A vector or tile memory instruction, or `vfence` (R23, R141): performed from the head of the queue, before it commits. -/
def State.fromHead (s : State) (op : QMem) (body : State → Body) : Body :=
  match s.myCore.queue with
  | [] => body s
  | e :: _ => if e.isMemoryOf s.cur.ctx then body s.popHead else s.dispatchHead op

/-- Whether the executing context's uncommitted instruction is at the head of the queue and bound to the matrix engine. -/
def State.atEngine (s : State) : Bool :=
  match s.myCore.queue with
  | ⟨k, .memory _ true⟩ :: _ => k == s.cur.ctx
  | _ => false

/-- A drain or `astat` (R23, R26): performed before it commits, once the matrix engine has bound it at the head of the queue. -/
def State.fromEngine (s : State) (op : QMem) (body : State → Body) : Body :=
  if s.atEngine then body s.popHead else s.dispatchHead op

/-! ## Vector instructions (R123, R142) -/

/-- A committed vector instruction: its registers accessed, its result computed from the state in which they are in the pool,
and its work put into the queue with the flags to record (R21, R23, R24, R68); `preds` and `dest` are the predicates that it
reads and writes (R25). -/
def State.vecWork (s : State) (counts : Bool) (reads writes preds dest : List Nat) (compute : State → State × BitVec 5) : Body := do
  s.needRoom
  let s ← s.vAccess reads writes
  let r := compute s
  .ok (r.1.enqueue (.vector ⟨r.2, counts, reads ++ preds.map (32 + ·), writes ++ dest.map (32 + ·)⟩))

/-- A body instruction of the repetition buffer (R139). -/
def State.vecBody (s : State) (reads writes preds dest : List Nat) (compute : State → State × BitVec 5) : Body := do
  s.bodyFits
  let t ← s.vecWork true reads writes preds dest compute
  .ok t.bodyAdvance

/-- The data of a vector register of the executing context. -/
def State.vdata (s : State) (n : Nat) : BitVec 2048 := (s.me.vpair n).1

/-- The sidecar of a vector register of the executing context. -/
def State.vside (s : State) (n : Nat) : BitVec 1280 := (s.me.vpair n).2

/-- Whether a byte lane is active under a predicate of the executing context (R47). -/
def State.active (s : State) (p : Nat) (c : Bool) (lane : Nat) : Bool := lanePred (s.me.pred p) c lane

/-- An element-wise result from element `i` on: active elements computed with their flags, inactive ones kept (R123). -/
def mapLanes (act : Nat → Bool) (w : Nat) (op : Nat → Nat → Nat → Nat × BitVec 5) :
    Nat → List Nat → List Nat → List Nat → List Nat × BitVec 5
  | i, a :: as, b :: bs, d :: ds =>
    let r := mapLanes act w op (i + 1) as bs ds
    if act (w * i) then
      let e := op a b d
      (e.1 :: r.1, e.2 ||| r.2)
    else (d :: r.1, r.2)
  | _, _, _, _ => ([], 0)

/-- The element-wise pattern of majors 0x20 and 0x21 (R126): `src` gives the second source's elements of `8w` bits. -/
def State.elementwise (s : State) (d a : Nat) (b : Option Nat) (p : Nat) (c : Bool) (w : Nat) (src : State → List Nat)
    (op : Nat → Nat → Nat → Nat × BitVec 5) : Body :=
  let vd := s.stag 0 d
  let va := s.stag 1 a
  s.vecBody (va :: vd :: b.toList) [vd] [p] [] fun s =>
    let r := mapLanes (s.active p c) w op 0 (vElems (8 * w) (s.vdata va)) (src s) (vElems (8 * w) (s.vdata vd))
    (s.setV vd (vJoin (8 * w) r.1) none, r.2)

/-- The second source of an integer form: the elements of vb, or the low bits of xb for every element (R126). -/
def State.srcInt (m : Bool) (b vb w : Nat) (s : State) : List Nat :=
  if m then List.replicate (256 / w) ((s.x b).toNat % 2 ^ (8 * w)) else vElems (8 * w) (s.vdata vb)

/-- The second source of a byte form: the bytes of vb, or the 64 bits of xb in every 8-byte group (R126). -/
def State.srcBytes (m : Bool) (b vb : Nat) (s : State) : List Nat :=
  if m then (List.replicate 32 (elemsOf 8 8 (s.x b).toNat)).flatten else vElems 8 (s.vdata vb)

/-- The second source of an FP form: the elements of vb, or the low bits of fb for every element (R87, R126). -/
def State.srcFp (m : Bool) (b vb w : Nat) (s : State) : List Nat :=
  if m then List.replicate (256 / w) ((s.f b).toNat % 2 ^ (8 * w)) else vElems (8 * w) (s.vdata vb)

/-- The vector register of the second source, when there is one. -/
def State.vbOf (s : State) (m : Bool) (b : Nat) : Option Nat := if m then none else some (s.stag 2 b)

/-- The lanes of a predicate that a governing predicate activates (R47). -/
def State.laneMask (s : State) (p : Nat) (c : Bool) : BitVec 256 := if c then ~~~(s.me.pred p) else s.me.pred p

/-- A predicate with its active bits replaced (R128). -/
def mergePred (old new mask : BitVec 256) : BitVec 256 := (old &&& ~~~mask) ||| (new &&& mask)

end Sys2Proof.Machine
end

