-- ==== Sys2Proof/Machine/Apprentice.lean ====
section
/-! DEFINITION. The apprentice: slots, the surrogate and its training, the state machine, and the answered instructions of
major 0x34 (R363 to R376, R426). -/

namespace Sys2Proof.Machine

open Sys2Proof

/-! ## Slot registers (R364) -/

/-- An FP32 code as an exact value. -/
def num32 (c : F32) : Num := decodeFp fp32 c.toNat
/-- An exact value rounded to an FP32 code, ties to even (R363). -/
def code32 (x : Num) : F32 := f32 (roundFp fp32 .ne x).1
/-- An exact value rounded to an FP32 value (R363). -/
def round32 (x : Num) : Num := num32 (code32 x)
/-- An exact sum rounded once to an FP32 value (R365). -/
def sum32 (l : List Num) : Num := round32 (sumNums false l).1
/-- The FP32 value of a difference (R366). -/
def sub32 (a b : Num) : Num := round32 (a.add false b.negate).1

/-- NIN of an AXCTL value. -/
def axNin (v : Word) : Nat := bits v 0 6
/-- NOUT. -/
def axNout (v : Word) : Nat := bits v 8 5
/-- VIN. -/
def axVin (v : Word) : Nat := bits v 16 5
/-- VOUT. -/
def axVout (v : Word) : Nat := bits v 21 5
/-- ACT. -/
def axAct (v : Word) : Bool := v.getLsbD 26
/-- PURE. -/
def axPure (v : Word) : Bool := v.getLsbD 27
/-- H1. -/
def axH1 (v : Word) : Nat := bits v 32 6
/-- H2. -/
def axH2 (v : Word) : Nat := bits v 40 6
/-- NOBS. -/
def axNobs (v : Word) : Nat := bits v 48 9
/-- The logarithm of the batch size B. -/
def axLogBatch (v : Word) : Nat := 3 + bits v 28 2
/-- The batch size B. -/
def axBatch (v : Word) : Nat := 2 ^ axLogBatch v

/-- The checks of an AXCTL value with nonzero NIN (R376). -/
def axFull (v : Word) : Bool :=
  axNin v ≤ 32 && bits v 28 2 != 3 && 1 ≤ axNout v && axNout v ≤ 16 && axH1 v ≤ 32 && axH2 v ≤ 32 &&
  !(axH2 v != 0 && axH1 v == 0) && axBatch v ≤ axNobs v && axNobs v ≤ 256

/-- Whether no reserved bit of an AXCTL value is set (R364). -/
def axClean (v : Word) : Bool :=
  bits v 6 2 == 0 && bits v 13 3 == 0 && bits v 30 2 == 0 && bits v 38 2 == 0 && bits v 46 2 == 0 && bits v 57 7 == 0

/-- Whether `apx.cfg` accepts a value (R376). -/
def axValid (v : Word) : Bool := axClean v && (axNin v == 0 || axFull v)

/-- n_0 to n_L (R365). -/
def axSizes (v : Word) : List Nat := [axNin v] ++ [axH1 v, axH2 v].filter (· != 0) ++ [axNout v]

/-- A 16-bit count of which 0 acts as 1 (R364). -/
def atLeast1 (n : Nat) : Nat := if n = 0 then 1 else n

/-- NTRIAL. -/
def ApxSlot.ntrial (a : ApxSlot) : Nat := atLeast1 (bits a.samp 16 16)
/-- NREFIT. -/
def ApxSlot.nrefit (a : ApxSlot) : Nat := atLeast1 (bits a.samp 32 16)
/-- NSTEP. -/
def ApxSlot.nstep (a : ApxSlot) : Nat := atLeast1 (bits a.step 32 16)

/-- The code of a slot state (R364). -/
def ApxState.code : ApxState → Nat
  | .off => 0 | .observe => 1 | .train => 2 | .trial => 3 | .serve => 4 | .fallback => 5 | .invalid => 6

/-- AXSTATk (R364). -/
def ApxSlot.statWord (a : ApxSlot) : Word :=
  word (a.state.code + a.frozen.toNat * 2 ^ 3 + a.why % 16 * 2 ^ 4 + min a.oob 65535 * 2 ^ 8 + a.lasterr.toNat * 2 ^ 32)
/-- AXCNTk (R364). -/
def ApxSlot.countWord (a : ApxSlot) : Word :=
  word (a.n % 65536 + a.ring.length % 512 * 2 ^ 16 + a.served % 2 ^ 32 * 2 ^ 32)

/-! ## The surrogate (R365, R366) -/

/-- A layer's stored numbers: its inputs, its units, and the weights followed by the biases. -/
structure Layer where
  nin  : Nat
  nout : Nat
  w    : List F32
  deriving DecidableEq, Repr

/-- The layers of a network, cut from its stored numbers (R365, R377). -/
def layersOf : List Nat → List F32 → List Layer
  | m :: n :: rest, w => ⟨m, n, w.take (n * m + n)⟩ :: layersOf (n :: rest) (w.drop (n * m + n))
  | _, _ => []

/-- W[j][i]. -/
def Layer.weight (l : Layer) (j i : Nat) : Num := num32 (l.w.getD (j * l.nin + i) 0)
/-- b[j]. -/
def Layer.bias (l : Layer) (j : Nat) : Num := num32 (l.w.getD (l.nout * l.nin + j) 0)

/-- The exact products of two lists. -/
def dotTerms (a b : List Num) : List Num := (a.zip b).map fun e => (e.1.mul e.2).1

/-- The sums z of a layer. -/
def Layer.sums (l : Layer) (a : List Num) : List Num :=
  (List.range l.nout).map fun j => sum32 (l.bias j :: dotTerms ((List.range l.nin).map (l.weight j)) a)

/-- ReLU: −0 gives +0, NaN gives NaN. -/
def relu (x : Num) : Num := if x.isNan then x else if x.le .zero then .zero else x

/-- The z and a of every layer on inputs. -/
def runLayers (act : Bool) : List Layer → List Num → List (List Num × List Num)
  | [], _ => []
  | l :: rest, a =>
    let z := l.sums a
    let out := if act && !rest.isEmpty then z.map relu else z
    (z, out) :: runLayers act rest out

/-- The layers of a slot; weights that were never set are undefined (R363). -/
def ApxSlot.layers (a : ApxSlot) : List Layer :=
  layersOf (axSizes a.ctl) (match a.weights with | some w => w | none => (List.range 2640).map Config.apxWeight)

/-- The surrogate's outputs. -/
def ApxSlot.surrogate (a : ApxSlot) (x : List F32) : List Num :=
  ((runLayers (axAct a.ctl) a.layers (x.map num32)).map (·.2)).getLastD []

/-- The error of a compared run (R366). -/
def runError (y t : List Num) : Num :=
  (y.zip t).foldl (fun e p =>
    let d := sub32 p.1 p.2
    let d := if d.isNan then .inf false else d.abs
    if e.lt d then d else e) .zero

/-- Whether a value exceeds a limit; a NaN limit is never exceeded (R366). -/
def exceeds (e : Num) (lim : Word) : Bool := let l := num32 (f32 (bits lim 0 32)); !l.isNan && l.lt e

/-! ## Training (R367 to R369) -/

/-- The initial weights of a layer (R368). -/
def initLayer (m n l : Nat) : List F32 :=
  ((List.range n).flatMap fun j => (List.range m).map fun i =>
    code32 ((Num.ofInt (((3 * j + 5 * i + l) % 9 : Nat) - 4)).scale (-3))) ++ List.replicate n 0

/-- The initial weights from layer `l` on. -/
def initLayers : Nat → List Nat → List F32
  | l, m :: n :: rest => initLayer m n l ++ initLayers (l + 1) (n :: rest)
  | _, _ => []

/-- The differences d of every layer for one sample (R367). -/
def deltas (act : Bool) : List Layer → List (List Num × List Num) → List Num → List (List Num)
  | [_], [(_, y)], t => [(y.zip t).map fun p => sub32 p.1 p.2]
  | _ :: l :: ls, (z, _) :: rest, t =>
    match deltas act (l :: ls) rest t with
    | [] => []
    | d :: ds =>
      ((z.zipIdx).map fun e =>
        if act && !(Num.zero.lt e.1 && !e.1.isNan) then .zero
        else sum32 (dotTerms ((List.range l.nout).map fun k => l.weight k e.2) d)) :: d :: ds
  | _, _, _ => []

/-- A weight after a step: w − RATE × G / B, with one rounding. -/
def stepped (rate w g : Num) (lb : Nat) : F32 := code32 (sumNums false [w, ((rate.mul g).1.scale (-(lb : Int))).negate]).1

/-- A layer's numbers after a step, from each sample's inputs to the layer and differences. -/
def Layer.step (l : Layer) (rate : Num) (lb : Nat) (ads : List (List Num × List Num)) : List F32 :=
  ((List.range l.nout).flatMap fun j => (List.range l.nin).map fun i =>
    stepped rate (l.weight j i) (sumNums false (ads.map fun p => ((p.2.getD j .zero).mul (p.1.getD i .zero)).1)).1 lb) ++
  ((List.range l.nout).map fun j => stepped rate (l.bias j) (sumNums false (ads.map fun p => p.2.getD j .zero)).1 lb)

/-- One SGD step over a batch; a number that is no longer finite invalidates the slot (R367). -/
def ApxSlot.sgd (a : ApxSlot) (batch : List Sample) : ApxSlot :=
  let act := axAct a.ctl
  let ls := a.layers
  let runs := batch.map fun b =>
    let za := runLayers act ls (b.x.map num32)
    ((b.x.map num32) :: za.map (·.2), deltas act ls za (b.t.map num32))
  let w := (ls.zipIdx).flatMap fun e =>
    e.1.step (num32 (f32 (bits a.step 0 32))) (axLogBatch a.ctl) (runs.map fun r => (r.1.getD e.2 [], r.2.getD e.2 []))
  let b := { a with weights := some w }
  if w.any (fun c => (num32 c).isNan || (num32 c).isInf) then b.invalidate 4 else b

/-- Steps over consecutive batches, until the slot leaves TRAIN. -/
def ApxSlot.sgdAll (a : ApxSlot) : List (List Sample) → ApxSlot
  | [] => a
  | b :: rest => if a.state = .train then ApxSlot.sgdAll (a.sgd b) rest else a

/-- A list cut into `n` batches. -/
def batches (b : Nat) : Nat → List Sample → List (List Sample)
  | 0, _ => []
  | n + 1, l => l.take b :: batches b n (l.drop b)

/-- A transition: N ← 0, the error window emptied; FALLBACK clears FROZEN (R371). -/
def ApxSlot.go (a : ApxSlot) (st : ApxState) : ApxSlot :=
  { a with state := st, n := 0, acc := 0, accN := 0, frozen := a.frozen && st != .fallback }

/-- TRAIN reached NSTEP steps: TRIAL (R369). -/
def ApxSlot.roundEnd (a : ApxSlot) : ApxSlot := if a.state = .train && a.nstep ≤ a.n then a.go .trial else a

/-- Entry to TRAIN with its initial steps (R369). -/
def ApxSlot.startTraining (a : ApxSlot) : ApxSlot :=
  let b := axBatch a.ctl
  let n := min (a.ring.length / b) a.nstep
  let a : ApxSlot := { a.go .train with fresh := 0 }
  let a := a.sgdAll (batches b n (a.ring.drop (a.ring.length - n * b)))
  if a.state = .train then ApxSlot.roundEnd { a with n := n } else a

/-- The steps of the samples added in TRAIN (R369). -/
def ApxSlot.freshSteps (a : ApxSlot) : Nat → ApxSlot
  | 0 => a
  | fuel + 1 =>
    let b := axBatch a.ctl
    if a.state = .train && b ≤ a.fresh then
      let c := a.sgd ((a.ring.drop (a.ring.length - a.fresh)).take b)
      let c := { c with fresh := a.fresh - b }
      ApxSlot.freshSteps (if c.state = .train then ApxSlot.roundEnd { c with n := c.n + 1 } else c) fuel
    else a

/-- The transitions that counts have reached (R371), taken at once in flow mode and at the first event after step mode (R373). -/
def ApxSlot.settle (a : ApxSlot) : ApxSlot :=
  let a := { a with due := false, fresh := min a.fresh a.ring.length }
  let a := if a.state = .observe && axNobs a.ctl ≤ a.n then a.startTraining
    else if a.state = .fallback && a.nrefit ≤ a.n then a.startTraining else a
  a.freshSteps 32

/-- A slot at the start of an event: transitions left from step mode are taken in flow mode (R373). -/
def ApxSlot.begin (a : ApxSlot) (step : Bool) : ApxSlot := if a.due && !step then a.settle else a

/-! ## Samples (R370) -/

/-- MIN_i. -/
def ApxSlot.low (a : ApxSlot) (i : Nat) : F32 := a.lo.getD i 0x7F800000
/-- MAX_i. -/
def ApxSlot.high (a : ApxSlot) (i : Nat) : F32 := a.hi.getD i 0xFF800000

/-- Whether one value is at most another; NaN never is. -/
def atMost (x y : Num) : Bool := !x.isNan && !y.isNan && x.le y

/-- Whether inputs are in bounds; NaN, as an input or as a bound, never is. -/
def ApxSlot.inBounds (a : ApxSlot) (x : List F32) : Bool :=
  (x.zipIdx).all fun e => atMost (num32 (a.low e.2)) (num32 e.1) && atMost (num32 e.1) (num32 (a.high e.2))

/-- A recorded sample (R370). -/
def ApxSlot.record (a : ApxSlot) (b : Sample) (step : Bool) : ApxSlot :=
  let ring := a.ring ++ [b]
  let lo := (List.range 32).map fun i => if i < b.x.length then code32 (minExact (num32 (a.low i)) (num32 (b.x.getD i 0))).1 else a.low i
  let hi := (List.range 32).map fun i => if i < b.x.length then code32 (maxExact (num32 (a.high i)) (num32 (b.x.getD i 0))).1 else a.high i
  let a := { a with ring := ring.drop (ring.length - 256), lo := lo, hi := hi }
  let a := if a.state = .train then { a with fresh := a.fresh + 1 } else { a with n := a.n + 1 }
  if step then { a with due := true } else a.settle

/-- A compared run (R366, R371). -/
def ApxSlot.compare (a : ApxSlot) (x : List F32) (t : List F32) : ApxSlot :=
  let e := runError (a.surrogate x) (t.map num32)
  let a := { a with lasterr := code32 e }
  let trial := a.state == .trial
  if exceeds e a.lim then (if trial then a.startTraining else a.go .fallback)
  else
    let a := { a with acc := code32 (sumNums false [num32 a.acc, e]).1, accN := a.accN + 1, n := if trial then a.n + 1 else a.n }
    if a.accN < a.ntrial then a
    else
      let mean := round32 ((num32 a.acc).div (Num.ofInt a.accN)).1
      let big := exceeds mean a.mean
      if trial then (if big then a.startTraining else a.go .serve)
      else if big then a.go .fallback else { a with acc := 0, accN := 0 }

/-! ## Events at the apprentice (R375, R376) -/

/-- How an instance runs: its kind, its RES, and whether it is served. -/
structure ApxRun where
  kind   : ApxKind
  res    : Nat
  served : Bool
  deriving DecidableEq, Repr

/-- A true run of a kind. -/
def trueRun (k : ApxKind) (res : Nat) : ApxRun := ⟨k, res, false⟩

/-- The choice of R370 and R373 for a slot whose region pages agree, with the slot after it. -/
def ApxSlot.choose (a : ApxSlot) (x : List F32) (step : Bool) : ApxRun × ApxSlot :=
  match a.state with
  | .off => (trueRun .plain 4, a)
  | .invalid => (trueRun .plain 0, a)
  | .observe => (trueRun .sample 0, a)
  | .train => (trueRun .sample 0, a)
  | .fallback => (trueRun .sample 0, a)
  | .trial =>
    if !a.inBounds x then (trueRun .plain 1, { a with oob := min 65535 (a.oob + 1) })
    else (trueRun (if step then .plain else .compare) 0, a)
  | .serve =>
    if !a.inBounds x then (trueRun .plain 1, { a with oob := min 65535 (a.oob + 1) })
    else if step && !a.frozen then (trueRun .plain 0, a)
    else if !step && bits a.samp 0 16 != 0 && bits a.samp 0 16 ≤ a.n + 1 then (trueRun .compare 0, { a with n := 0 })
    else (⟨.plain, 0, true⟩, { a with n := a.n + 1, served := a.served + 1 })

/-- The arrival of an `apx.begin` at its slot (R375): how the instance runs, and the slot after it. -/
def ApxSlot.arrive (a : ApxSlot) (pb pe : Nat) (x : List F32) (step : Bool) : ApxRun × ApxSlot :=
  if a.state = .off then (trueRun .plain 4, a)
  else
    match a.pages with
    | none => if pb ≤ pe && pe < pb + 65536 then { a with pages := some (pb, pe) }.choose x step else (trueRun .plain 3, a)
    | some p => if p = (pb, pe) then a.choose x step else (trueRun .plain 3, a)

/-- The answer word (R375, R426). -/
def apxAnswer (st : ApxState) (res : Nat) (samp srv : Bool) : Word := word (st.code + srv.toNat * 8 + samp.toNat * 16 + res * 32)

/-- A slot with a context's open instance closed. -/
def ApxSlot.close (a : ApxSlot) (i : CtxId) : ApxSlot := { a with opens := a.opens.filter fun o => !(o.core == i.core && o.ctx == i.ctx) }

/-- A context's open instance. -/
def ApxSlot.openOf (a : ApxSlot) (i : CtxId) : Option ApxOpen := a.opens.find? fun o => o.core == i.core && o.ctx == i.ctx

/-- The arrival of an `apx.end` (R375): the answer word and the slot after it. -/
def ApxSlot.finish (a : ApxSlot) (i : CtxId) (t : List F32) (step : Bool) : Word × ApxSlot :=
  match a.openOf i with
  | none => (apxAnswer a.state 2 false false, a)
  | some o =>
    let b := a.close i
    if o.kind = .sample && (a.state = .observe || a.state = .train || a.state = .fallback) then
      (apxAnswer a.state 0 true false, b.record ⟨o.inputs, t⟩ step)
    else if o.kind = .compare && !step && (a.state = .trial || a.state = .serve) then
      (apxAnswer a.state 0 true false, b.compare o.inputs t)
    else (apxAnswer a.state 0 false false, b)

/-- `apx.cfg` of a slot with a value: whether it is refused, and the slot after it (R376). -/
def ApxSlot.configure (a : ApxSlot) (v : Word) : Bool × ApxSlot :=
  if !axValid v then (true, a)
  else
    let a := { a with ctl := v, pages := none, opens := [] }
    if axNin v = 0 then (false, a.go .off)
    else (false, { a with weights := some (initLayers 1 (axSizes v)), lo := [], hi := [], ring := [], frozen := false, due := false }.go .observe)

/-! ## The instructions -/

/-- A slot of a cluster's apprentice. -/
def Cluster.apxSlot (c : Cluster) (k : Nat) : ApxSlot := smGet c.apx k {}

/-- The state with an apprentice slot of a cluster replaced. -/
def State.setApx (s : State) (cl k : Nat) (a : ApxSlot) : State := s.modCluster cl fun c => { c with apx := smSet c.apx k a }

/-- An apprentice slot of the executing context's cluster, at the start of an event. -/
def State.apxSlot (s : State) (k : Nat) : ApxSlot :=
  ((s.cluster (clusterOf s.cur.core)).apxSlot k).begin (s.stepMode s.cur.core)

/-- The first `n` FP32 lanes of a vector register of the executing context. -/
def State.lanes32 (s : State) (v n : Nat) : List F32 := ((vElems 32 (s.vdata v)).take n).map f32

/-- An address of an instruction, translated for a fetch: FETCH_FAULT in rank 6 (R375). -/
def State.codeAddress (s : State) (va : Nat) : Except Stop Nat :=
  match s.translate s.req .fetch va with
  | .ok x => .ok x.pa
  | .error f => orTrap (.error (.xlat f .fetch))

/-- The state with the first lanes of a vector register replaced by outputs, when a run is served (R375). -/
def State.serveOutputs (s : State) (v : Nat) (y : List Num) : State :=
  s.setV v (vJoin 32 (((vElems 32 (s.vdata v)).zipIdx).map fun e => match y[e.2]? with | some o => (code32 o).toNat | none => e.1)) none

/-- `apx.begin` (R375). -/
def execApxBegin (d a b : Nat) (s : State) : Host.Outcome State Fault Refusal :=
  finish s (do
    s.destX d
    let k := bits (s.x a) 0 2
    let stop := s.x b
    let cl := clusterOf s.cur.core
    let ctl := (s.apxSlot k).ctl
    let s ← s.vAccess [axVin ctl] [axVout ctl]
    s.keepFaults (need (bits stop 0 2 == 0) (trapWith .misaligned stop))
    let pe ← s.keepFaults (s.codeAddress stop.toNat)
    let pb ← s.keepFaults (s.codeAddress s.pc.toNat)
    let sl := s.apxSlot k
    let x := s.lanes32 (axVin sl.ctl) (axNin sl.ctl)
    let r := sl.arrive pb pe x (s.stepMode s.cur.core)
    let w := apxAnswer sl.state r.1.res (r.1.kind != .plain) r.1.served
    if r.1.served then
      let t := (s.setApx cl k r.2).serveOutputs (axVout sl.ctl) (sl.surrogate x)
      .ok ((t.setX d w).setPc (stop + 4)).commanded
    else
      let u := { r.2.close s.cur with opens := (r.2.close s.cur).opens ++ [⟨s.cur.core, s.cur.ctx, r.1.kind, x⟩] }
      let t := s.setApx cl k u
      let t := if axPure sl.ctl then t.modMe fun c => { c with pure := some k } else t
      .ok (t.setX d w).advance.commanded)

/-- `apx.end` (R375). -/
def execApxEnd (d a : Nat) (s : State) : Host.Outcome State Fault Refusal :=
  finish s (do
    s.destX d
    let k := bits (s.x a) 0 2
    let s ← s.vAccess [axVout (s.apxSlot k).ctl] []
    let sl := s.apxSlot k
    let r := sl.finish s.cur (s.lanes32 (axVout sl.ctl) (axNout sl.ctl)) (s.stepMode s.cur.core)
    let t := (s.setApx (clusterOf s.cur.core) k r.2).modMe fun c => { c with pure := if c.pure = some k then none else c.pure }
    .ok (t.setX d r.1).advance.commanded)

/-- `apx.cfg` (R376). -/
def execApxCfg (d a b : Nat) (s : State) : Host.Outcome State Fault Refusal :=
  finish s (do
    s.destX d
    let k := bits (s.x a) 0 2
    let r := (s.apxSlot k).configure (s.x b)
    .ok ((s.setApx (clusterOf s.cur.core) k r.2).setX d (if r.1 then 1 else 0)).advance.commanded)

/-- The slots that `apx.inv` names (R376). -/
def invNames (v : Word) : List Nat := if v.getLsbD 2 then [0, 1, 2, 3] else [bits v 0 2]

/-- `apx.inv` (R372, R376). -/
def execApxInv (d a : Nat) (s : State) : Host.Outcome State Fault Refusal :=
  finish s (do
    s.destX d
    let t := (invNames (s.x a)).foldl (fun t k => t.setApx (clusterOf s.cur.core) k ((t.apxSlot k).invalidate 2)) s
    .ok (t.setX d 0).advance.commanded)

/-- `apx.stat` (R376). -/
def execApxStat (d a : Nat) (s : State) : Host.Outcome State Fault Refusal :=
  finish s (do
    s.destX d
    let k := bits (s.x a) 0 2
    let sl := s.apxSlot k
    .ok ((s.setApx (clusterOf s.cur.core) k sl).setX d sl.statWord).advance.commanded)

end Sys2Proof.Machine
end

