-- ==== Sys2Proof/Machine/Branch.lean ====
section
/-! DEFINITION. Branches, jumps, trap returns, calls and `yield` (R104, R105, R116 to R119). -/

namespace Sys2Proof.Machine

open Sys2Proof

/-- A B-format branch: to its target when the condition holds, else to the next instruction (R46, R104). -/
def State.branch (s : State) (c : Bool) (o : Int) : Host.Outcome State Fault Refusal :=
  .next (if c then s.setPc (s.pc + wordI (o * 4)) else s.advance)

/-- `beq` (R104). -/
def execBeq (a b : Nat) (o : Int) (s : State) : Host.Outcome State Fault Refusal := s.branch (s.x a == s.x b) o

/-- `bne` (R104). -/
def execBne (a b : Nat) (o : Int) (s : State) : Host.Outcome State Fault Refusal := s.branch (s.x a != s.x b) o

/-- `blt` (R104). -/
def execBlt (a b : Nat) (o : Int) (s : State) : Host.Outcome State Fault Refusal := s.branch ((s.x a).slt (s.x b)) o

/-- `bge` (R104). -/
def execBge (a b : Nat) (o : Int) (s : State) : Host.Outcome State Fault Refusal := s.branch (!(s.x a).slt (s.x b)) o

/-- `bltn` (R104). -/
def execBltn (a b : Nat) (o : Int) (s : State) : Host.Outcome State Fault Refusal := s.branch ((s.x a).ult (s.x b)) o

/-- `bgen` (R104). -/
def execBgen (a b : Nat) (o : Int) (s : State) : Host.Outcome State Fault Refusal := s.branch (!(s.x a).ult (s.x b)) o

/-- `j` (R46, R104). -/
def execJ (o : Int) (s : State) : Host.Outcome State Fault Refusal := .next (s.setPc (s.pc + wordI (o * 4)))

/-- `jl` (R104): x31 receives the address of the next instruction. -/
def execJl (o : Int) (s : State) : Host.Outcome State Fault Refusal :=
  finish s (do s.destX 31; .ok ((s.setX 31 (s.pc + 4)).setPc (s.pc + wordI (o * 4))))

/-- Whether an address is a multiple of 4 (R43). -/
def pcAligned (v : Word) : Bool := v.toNat % 4 == 0

/-- `jlr` (R105): the target is read before xd is written. -/
def execJlr (d a : Nat) (i : Int) (s : State) : Host.Outcome State Fault Refusal :=
  finish s (do
    s.destX d
    let target := s.x a + wordI i
    need (pcAligned target) (trapWith .misaligned target)
    .ok ((s.setX d (s.pc + 4)).setPc target))

/-- Where `tret` returns to: EPC, or the EPC of the helper whose trap is being taken (R109, R116). -/
def State.returnTarget (s : State) : Word :=
  let h := s.me.hctx
  if h = 0 then s.me.epc else (s.ctx ⟨s.cur.core, h⟩).epc

/-- STATUS after `tret` (R116). -/
def returnStatus (st : Word) : Word :=
  putBits (putBits (putBits st 0 2 (bits st 2 2)) 4 1 (bits st 5 1)) 8 4 0

/-- Return from a trap taken at S (R116): the state with STATUS restored and the pc at the return target. -/
def State.returnFromTrap (s : State) : State :=
  s.modMe fun c => { c with status := returnStatus c.status, pc := s.returnTarget }

/-- `tret` (R116). -/
def execTret (s : State) : Host.Outcome State Fault Refusal :=
  finish s (do
    need (s.me.priv != 0) (trapPrivilege s)
    need (pcAligned s.returnTarget) (trapWith .misaligned s.returnTarget)
    .ok s.returnFromTrap)

/-- `uret` (R117): register fields name the context's own bank again. -/
def execUret (s : State) : Host.Outcome State Fault Refusal :=
  finish s (do
    need s.me.ui (trapIllegal s)
    need (pcAligned s.me.uepc) (trapWith .misaligned s.me.uepc)
    .ok (s.modMe fun c => { c with status := putBits c.status 6 1 0, pc := c.uepc }))

/-- `svc` (R118): SYSCALL with the immediate. -/
def execSvc (i : Nat) (s : State) : Host.Outcome State Fault Refusal := finish s (trapWith .syscall (word i))

/-- `break` (R118): BREAKPOINT with the immediate. -/
def execBrk (i : Nat) (s : State) : Host.Outcome State Fault Refusal := finish s (trapWith .breakpoint (word i))

/-- Whether a context is ready: LIVE and waiting for nothing (R22). -/
def Ctx.ready (c : Ctx) : Bool := c.life == .live && c.wait == .none

/-- The slice group after a `yield`: the count starts afresh when the group has a budget (R119, R238). -/
def SliceGroup.refresh (g : SliceGroup) : SliceGroup :=
  if g.budgetOn && g.recBudget != 0 then { g with budget := g.recBudget } else g

/-- `yield` (R119): every other ready context of the core is fetched first, but for those that a spent budget keeps from it (R238), and a
budget starts afresh. -/
def execYield (s : State) : Host.Outcome State Fault Refusal :=
  let c := s.myCore
  let others := ctxNumbers.filter fun k => k != s.cur.ctx && (c.ctx k).ready
  .next ((s.modMe fun c => { c with yielded := others }).modGroup s.cur SliceGroup.refresh).advance

end Sys2Proof.Machine
end

