-- ==== Sys2Proof/Machine/MemInstr.lean ====
section
/-! DEFINITION. Scalar and FP loads and stores, atomics, reader-counted access, fences and cache maintenance
(R186 to R200, R203 to R205). -/

namespace Sys2Proof.Machine

open Sys2Proof

/-- The width in bytes of a load (R189). -/
def LdTy.bytes : LdTy → Nat
  | .i8 => 1 | .i16 => 2 | .i32 => 4 | .i64 => 8 | .n8 => 1 | .n16 => 2 | .n32 => 4

/-- Whether a load sign-extends (R189). -/
def LdTy.signs : LdTy → Bool
  | .i8 => true | .i16 => true | .i32 => true | .i64 => true | _ => false

/-- The width in bytes of a store (R189). -/
def StTy.bytes : StTy → Nat
  | .b1 => 1 | .b2 => 2 | .b4 => 4 | .b8 => 8

/-- The width in bytes of an FP load or store (R190). -/
def FpW.bytes : FpW → Nat
  | .w2 => 2 | .w4 => 4 | .w8 => 8

/-- The address of a load or store: the base plus the offset, modulo 2^64 (R189). -/
def State.ea (s : State) (a : Nat) (i : Int) : Word := s.x a + wordI i

/-- The alignment check of a data address, rank 5 (R54, R186). -/
def alignedTo (w : Nat) (v : Word) : Except Stop Unit := need (v.toNat % w == 0) (trapWith .misaligned v)

/-- Loaded bytes as a register value (R189). -/
def loadValue (signs : Bool) (w : Nat) (l : List Byte) : Word := wordI (readInt signs (8 * w) (bytesToNat l))

/-! ## Requests to other devices (R351, R358, R360) -/

/-- The links that a partition finds up (R358). -/
def Partition.linksUp (q : Partition) : List Nat := (List.range 16).filter fun l => !q.linkDown.contains l

/-- The link over which a partition sends a request: a free one of those that are up, or 16. -/
def State.pickLink (s : State) (p : Nat) : Nat :=
  let l := (s.part p).linksUp
  l.getD (Config.freeChoice s.freeIdx % l.length) 16

/-- The state in which a device's answer reaches the executing context. -/
def State.heardFrom (s : State) (dev : Nat) : State :=
  let t := s.time
  (s.drawn.modPart s.myPart fun q => { q with heard := smSet q.heard dev t }).modMe fun c => { c with remote := none }

/-- The state in which the executing context's request to a device is outstanding: sent now, or already on its way (R351). -/
def State.sendTo (s : State) (dev : Nat) : State :=
  let r : RemoteReq := match s.me.remote with
    | some r => { r with acked := r.acked || Config.freeBool (s.freeIdx + 1) }
    | none => ⟨dev, s.pickLink s.myPart, s.time, s.time, false⟩
  s.drawn.drawn.modMe fun c => { c with remote := some r, wait := .retry }

/-- A scalar access of the executing context to another device's window is answered when that device answers, which is free; until then the
request is outstanding and the context waits (R351, R358). What is answered in the event that performs it, log entry 113 lists. -/
def State.awaitAnswer (s : State) (rq : Req) (k : Acc) (ea : Word) : Except Stop State :=
  match s.translate rq k ea.toNat with
  | .error _ => .ok s
  | .ok x =>
    match regionOf x.pa with
    | .remote d =>
      if s.me.pairGo || rq.pure.isSome || (s.reqPart rq).peerDown.contains d then .ok s
      else if Config.freeBool s.freeIdx then .ok (s.heardFrom d)
      else .error (.wait (s.sendTo d))
    | _ => .ok s

/-- A load of `w` bytes (R189): the bytes and the state after the access. -/
def State.loadScalar (s : State) (ea : Word) (w : Nat) : Except Stop (List Byte × State) := do
  alignedTo w ea
  let s ← s.awaitAnswer s.req .load ea
  orTrap (s.loadBytes s.req (vaRange ea.toNat w))

/-- A store of `w` bytes (R189). -/
def State.storeScalar (s : State) (ea : Word) (w : Nat) (v : Nat) : Except Stop State := do
  alignedTo w ea
  let s ← s.awaitAnswer (s.reqW ea.toNat) .store ea
  orTrap (s.storeBytes (s.reqW ea.toNat) (vaRange ea.toNat w) (natToBytes w v))

/-- `ld` (R189). -/
def execLd (d a : Nat) (y : LdTy) (i : Int) (s : State) : Host.Outcome State Fault Refusal :=
  finish s (do
    s.destX d
    let r ← s.loadScalar (s.ea a i) (LdTy.bytes y)
    .ok (r.2.setX d (loadValue (LdTy.signs y) (LdTy.bytes y) r.1)).advance)

/-- `st` (R189). -/
def execSt (b a : Nat) (y : StTy) (i : Int) (s : State) : Host.Outcome State Fault Refusal :=
  finish s (do
    let t ← s.storeScalar (s.ea a i) (StTy.bytes y) (s.x b).toNat
    .ok t.advance)

/-- `fld` (R190): the rest of the f register is zeroed. -/
def execFld (d a : Nat) (y : FpW) (i : Int) (s : State) : Host.Outcome State Fault Refusal :=
  finish s (do
    let r ← s.loadScalar (s.ea a i) (FpW.bytes y)
    .ok (r.2.setF d (word (bytesToNat r.1))).advance)

/-- `fst` (R190). -/
def execFst (b a : Nat) (y : FpW) (i : Int) (s : State) : Host.Outcome State Fault Refusal :=
  finish s (do
    let t ← s.storeScalar (s.ea a i) (FpW.bytes y) (s.f b).toNat
    .ok t.advance)

/-- An atomic of `w` bytes (R191): the old value and the state after it. -/
def State.atomicScalar (s : State) (ea : Word) (w : Nat) (f : Nat → Nat) : Except Stop (Nat × State) := do
  alignedTo w ea
  let s ← s.awaitAnswer (s.reqW ea.toNat) .atomic ea
  orTrap (s.atomicBytes (s.reqW ea.toNat) ea.toNat w f)

/-- An integer atomic (R191): `f` gives the new value from the old one and b, both read by the type. -/
def State.amo (s : State) (d a : Nat) (b : Nat) (t : T8) (f : Int → Int → Int) : Body := do
  s.destX d
  let w := T8.bytes t
  let r ← s.atomicScalar (s.x a) w fun old =>
    wrapInt (8 * w) (f (readInt (T8.isSigned t) (8 * w) old) (readInt (T8.isSigned t) (8 * w) b))
  .ok (r.2.setX d (wordI (readInt (T8.isSigned t) (8 * w) r.1))).advance

/-- A bitwise operation on values of a type (R191). -/
def bitwiseInt (f : Nat → Nat → Nat) (x y : Int) : Int := f (wrapInt 64 x) (wrapInt 64 y)

/-- `amo.swap` (R191). -/
def execAmoSwap (d a b : Nat) (t : T8) (s : State) : Host.Outcome State Fault Refusal :=
  finish s (s.amo d a (s.x b).toNat t (fun _ y => y))

/-- `amo.add` (R191). -/
def execAmoAdd (d a b : Nat) (t : T8) (s : State) : Host.Outcome State Fault Refusal :=
  finish s (s.amo d a (s.x b).toNat t (fun x y => x + y))

/-- `amo.and` (R191). -/
def execAmoAnd (d a b : Nat) (t : T8) (s : State) : Host.Outcome State Fault Refusal :=
  finish s (s.amo d a (s.x b).toNat t (bitwiseInt fun x y => x &&& y))

/-- `amo.or` (R191). -/
def execAmoOr (d a b : Nat) (t : T8) (s : State) : Host.Outcome State Fault Refusal :=
  finish s (s.amo d a (s.x b).toNat t (bitwiseInt fun x y => x ||| y))

/-- `amo.xor` (R191). -/
def execAmoXor (d a b : Nat) (t : T8) (s : State) : Host.Outcome State Fault Refusal :=
  finish s (s.amo d a (s.x b).toNat t (bitwiseInt fun x y => x ^^^ y))

/-- `amo.min` (R191). -/
def execAmoMin (d a b : Nat) (t : T8) (s : State) : Host.Outcome State Fault Refusal :=
  finish s (s.amo d a (s.x b).toNat t min)

/-- `amo.max` (R191). -/
def execAmoMax (d a b : Nat) (t : T8) (s : State) : Host.Outcome State Fault Refusal :=
  finish s (s.amo d a (s.x b).toNat t max)

/-- `amo.cas` (R191): the location is written even when the comparison fails. -/
def execAmoCas (d a b : Nat) (t : T8) (s : State) : Host.Outcome State Fault Refusal :=
  let e := readInt (T8.isSigned t) (8 * T8.bytes t) (s.x d).toNat
  finish s (s.amo d a (s.x b).toNat t fun x y => if x = e then y else x)

/-- A byte with one of its halves replaced (R193). -/
def nibble (old k v : Nat) : Nat := old - old / 2 ^ k % 16 * 2 ^ k + v * 2 ^ k

/-- `amo.nib` (R193). -/
def execAmoNib (d a b : Nat) (s : State) : Host.Outcome State Fault Refusal :=
  finish s (do
    s.destX d
    let k := bits (s.x b) 4 1 * 4
    let v := bits (s.x b) 0 4
    let r ← s.atomicScalar (s.x a) 1 fun old => nibble old k v
    .ok (r.2.setX d (word (r.1 / 2 ^ k % 16))).advance)

/-- The conversion of `amo.sadd` (R194): the integer and its flags. -/
def saddConvert (v q : Num) (w : Nat) : Int × Flags :=
  if v.isNan || q.isNan || q.isInf then (0, fNV) else toIntType .ne true w (v.mul q).1

/-- `amo.sadd` with a QSCALE (R194). -/
def State.sadd (s : State) (d a b k : Nat) (wide : Bool) : Body :=
  let w := if wide then 8 else 4
  let r := saddConvert (decodeFp fp32 (s.f b).toNat) (decodeFp fp32 (smGet s.me.qscale k 0).toNat) (8 * w)
  (s.amo d a (wrapInt 64 r.1) (if wide then .i64 else .i32) (· + ·)).map fun t => t.raiseFp r.2

/-- `amo.sadd` with QSCALE0 (R194). -/
def execAmoSadd0 (d a b : Nat) (t : Bool) (s : State) : Host.Outcome State Fault Refusal :=
  finish s (s.sadd d a b 0 t)

/-- `amo.sadd` with QSCALE1 (R194). -/
def execAmoSadd1 (d a b : Nat) (t : Bool) (s : State) : Host.Outcome State Fault Refusal :=
  finish s (s.sadd d a b 1 t)

/-- `amo.sadd` with QSCALE2 (R194). -/
def execAmoSadd2 (d a b : Nat) (t : Bool) (s : State) : Host.Outcome State Fault Refusal :=
  finish s (s.sadd d a b 2 t)

/-- `amo.sadd` with QSCALE3 (R194). -/
def execAmoSadd3 (d a b : Nat) (t : Bool) (s : State) : Host.Outcome State Fault Refusal :=
  finish s (s.sadd d a b 3 t)

/-- The word of a wide accumulator: aligned and translated for reading and writing (R195, R196). -/
def State.accWord (s : State) (ea : Word) : Except Stop Xlat := do
  alignedTo 4 ea
  let xs ← orTrap (s.reach s.req .atomic (s.uncountable s.req) [ea.toNat])
  .ok (xs.headD ⟨0, 0, 0, false, 0⟩)

/-- `fadd.x` (R195): a BF16 addend is taken as the FP32 value it is. -/
def execFaddX (a b : Nat) (t : XTy) (s : State) : Host.Outcome State Fault Refusal :=
  finish s (do
    let x ← s.accWord (s.x a)
    let code : F32 := f32 (match t with | .f32 => (s.f b).toNat | .bf16 => (s.f b).toNat % 65536 * 65536)
    let u ← orTrap (s.exactAdd (s.reqW (s.x a).toNat) x code)
    .ok u.advance)

/-- `xacc.rd` (R196). -/
def execXaccRd (d a : Nat) (t : XTy) (s : State) : Host.Outcome State Fault Refusal :=
  finish s (do
    let x ← s.accWord (s.x a)
    let r ← orTrap (s.exactRead (s.reqW (s.x a).toNat) x (match t with | .f32 => fp32 | .bf16 => Sys2Proof.Machine.bf16))
    .ok ((r.2.2.raiseFp r.2.1).setF d (word r.1)).advance)

/-- The lines of a list of addresses, each once. -/
def lineVas (vas : List Nat) : List Nat := (vas.map lineOf).eraseDups

/-- RCSTAT after takes of `n` lines that leave the count `left` on the lowest (R200). -/
def rcTaken (r : Word) (left n : Nat) : Word := putBits (putBits (putBits r 0 6 left) 8 1 0) 32 32 (bits r 32 32 + n)

/-- RCSTAT after an `rc.close` of `n` lines (R200). -/
def rcClosed (r : Word) (n : Nat) : Word := putBits (putBits r 8 1 1) 16 16 n

/-- A take by an instruction of the executing context (R174, R197): the bytes and the state with RCSTAT updated. -/
def State.takeScalar (s : State) (vas : List Nat) : Except Stop (List Byte × State) :=
  let rq := s.reqW (vas.headD 0)
  match s.reach rq .take (s.uncountable rq) vas with
  | .error e => .error (.trap e.trap)
  | .ok xs =>
    match s.takeX rq xs with
    | .error e => .error (.trap e.trap)
    | .ok (l, t) =>
      let left := t.countOf ((xs.map (·.pa)).headD 0 / 128)
      .ok (l, t.modMe fun c => { c with rcstat := rcTaken c.rcstat left (lineHeads xs).length })

/-- `ld.take` (R197). -/
def execLdTake (d a : Nat) (y : LdTy) (i : Int) (s : State) : Host.Outcome State Fault Refusal :=
  finish s (do
    s.destX d
    let ea := s.ea a i
    alignedTo (LdTy.bytes y) ea
    let r ← s.takeScalar (vaRange ea.toNat (LdTy.bytes y))
    .ok (r.2.setX d (loadValue (LdTy.signs y) (LdTy.bytes y) r.1)).advance)

/-- `st.fill` (R198): x0 reads zero. -/
def execStFill (x a n : Nat) (s : State) : Host.Outcome State Fault Refusal :=
  finish s (do
    let ea := s.x a
    alignedTo 128 ea
    let data := (List.range 16).flatMap fun k => natToBytes 8 (s.x (x + k)).toNat
    let t ← orTrap (s.fillBytes (s.reqW ea.toNat) ea.toNat 1 data n)
    .ok t.advance)

/-- The state with the closed bits of a region's lines set, whatever state the lines are in (R174, R199). -/
def State.closeLines (s : State) (xs : List Xlat) : State :=
  { s with closed := (s.closed ++ xs.map fun (x : Xlat) => x.pa / 128).eraseDups }

/-- `rc.close` (R199). -/
def execRcClose (b a : Nat) (s : State) : Host.Outcome State Fault Refusal :=
  finish s (do
    let base := s.x a
    let len := s.x b
    alignedTo 128 base
    need (len.toNat % 128 == 0 && len.toNat ≤ 0x100000) (trapWith .misaligned len)
    let xs ← orTrap (s.reach s.req .take (s.uncountable s.req)
      ((List.range (len.toNat / 128)).map fun i => (base.toNat + 128 * i) % 2 ^ 64))
    match lowestWhere (fun x => s.countOf (x.pa / 128) != 0) xs with
    | some x => trapWith .underread (word (lineOf x.va))
    | none =>
      .ok (((s.closeLines xs).heatWalks s.req (xs.map (·.va))).modMe fun c => { c with rcstat := rcClosed c.rcstat xs.length }).advance)

/-- A fence (R203): every access of this model is complete at its instruction, so that none is left to wait for. -/
def State.fenced (s : State) : Host.Outcome State Fault Refusal := .next s.advance

/-- `fence` (R203). -/
def execFence (_scope : Nat) (s : State) : Host.Outcome State Fault Refusal :=
  s.fenced

/-- `fence.rel` (R203). -/
def execFenceRel (_scope : Nat) (s : State) : Host.Outcome State Fault Refusal :=
  s.fenced

/-- `fence.acq` (R203). -/
def execFenceAcq (_scope : Nat) (s : State) : Host.Outcome State Fault Refusal :=
  s.fenced

/-- The parts of a region, page by page: each part's first address and length. -/
def regionParts (va len : Nat) : List (Nat × Nat) :=
  let n := if len = 0 then 0 else (va % 65536 + len + 65535) / 65536
  (List.range n).map fun k =>
    let start := if k = 0 then va else (va / 65536 + k) * 65536
    (start % 2 ^ 64, min ((va / 65536 + k + 1) * 65536) (va + len) - start)

/-- A region translated as a load, page by page (R204): each part's translation and length. -/
def State.regionXlat (s : State) (a b : Nat) : Except Stop (List (Xlat × Nat)) := do
  let len := s.x b
  need (len.toNat < 2 ^ 32) (trapWith .misaligned len)
  let parts := regionParts (s.x a).toNat len.toNat
  let xs ← orTrap (s.reach s.req .load (fun _ => false) (parts.map (·.1)))
  .ok (xs.zip (parts.map (·.2)))

/-- Whether a line holds bytes of a translated region. -/
def inRegion (parts : List (Xlat × Nat)) (line : Nat) : Bool :=
  parts.any fun p => p.1.pa / 128 ≤ line && line * 128 < p.1.pa + p.2

/-- The lines of the executing core's cache portion that a region holds (R204): none in step mode, none of pages that are
not LC. -/
def State.cachedRegion (s : State) (parts : List (Xlat × Nat)) : List Nat :=
  if s.stepMode s.cur.core then [] else (smKeys s.myCore.lc).filter (inRegion (parts.filter fun p => p.1.lc))

/-- A cache maintenance instruction (R204). -/
def State.maintain (s : State) (a b : Nat) (f : State → Nat → State) : Host.Outcome State Fault Refusal :=
  finish s (do
    let parts ← s.regionXlat a b
    .ok (((s.cachedRegion parts).foldl f s).heatWalks s.req (parts.map (·.1.va))).advance)

/-- A line dropped from the executing core's cache portion, its dirty bytes lost (R204). -/
def State.dropLine (s : State) (line : Nat) : State := s.modCore s.cur.core fun c => { c with lc := smErase c.lc line }

/-- `lc.clean` (R204). -/
def execLcClean (a b : Nat) (s : State) : Host.Outcome State Fault Refusal :=
  s.maintain a b fun t l => t.cleanLine t.cur.core l false

/-- `lc.inv` (R204). -/
def execLcInv (a b : Nat) (s : State) : Host.Outcome State Fault Refusal :=
  s.maintain a b State.dropLine

/-- `lc.flush` (R204). -/
def execLcFlush (a b : Nat) (s : State) : Host.Outcome State Fault Refusal :=
  s.maintain a b fun t l => t.cleanLine t.cur.core l true

/-- The lines that `l2.evict` leaves as they stand (R205): counted or emptied, with an accumulator word, with a shadow line. -/
def State.heldLines (s : State) : List Nat :=
  (smKeys s.lines ++ (smKeys s.accs).map (· / 128)
    ++ s.cores.flatMap (fun (c : Nat × Core) => c.2.writeSet.map fun (d : Deferred) => d.pa / 128)).eraseDups

/-- `l2.evict` (R205): the lines that are dropped are written back, which the heat counters count (R182), and end their pinning. -/
def execL2Evict (d a b : Nat) (s : State) : Host.Outcome State Fault Refusal :=
  finish s (do
    s.destX d
    need (s.me.priv != 0) (trapPrivilege s)
    let parts ← s.regionXlat a b
    let region := parts.filter fun p => p.1.held
    let kept := s.heldLines.filter (inRegion region)
    let gone := (smKeys s.l2).filter fun l => inRegion region l && !kept.contains l
    .ok (((gone.foldl State.dropL2 s).heatWalks s.req (parts.map (·.1.va))).setX d (word kept.length)).advance)

end Sys2Proof.Machine
end

