-- ==== Sys2Proof/Machine/VectorMem.lean ====
section
/-! DEFINITION. Vector memory instructions, performed from the head of the engine queue before they commit (R23, R201, R202). -/

namespace Sys2Proof.Machine

open Sys2Proof

/-- The active byte lanes of a predicate, in rising order (R47, R201). -/
def State.lanes (s : State) (p : Nat) (c : Bool) : List Nat := (List.range 256).filter (s.active p c)

/-- Loaded bytes placed in the lanes of a register's data, the others kept. -/
def placeBytes (old : BitVec 2048) (ls : List Nat) (l : List Byte) : BitVec 2048 :=
  (ls.zip l).foldl (fun v e => putBits v (8 * e.1) 8 e.2.toNat) old

/-- A body instruction of majors 0x20 to 0x26 and 0x39 completes: the next state. -/
def bodyDone (s : State) : Body := .ok s.bodyAdvance

/-- `vld` at the head of the queue (R201). -/
def vldBody (d a p : Nat) (c : Bool) (s : State) : Body := do
  let vd := s.stag 0 d
  let base := s.x a
  let s ← s.vAccess [vd] [vd]
  s.keepFaults (do
    alignedTo 4 base
    let ls := s.lanes p c
    let r ← orTrap (s.loadBytes s.req (ls.map fun l => (base.toNat + l) % 2 ^ 64))
    bodyDone (r.2.setV vd (placeBytes (s.vdata vd) ls r.1) none))

/-- `vst` at the head of the queue (R201). -/
def vstBody (d a p : Nat) (c : Bool) (s : State) : Body := do
  let vd := s.stag 0 d
  let base := s.x a
  let s ← s.vAccess [vd] []
  s.keepFaults (do
    alignedTo 4 base
    let ls := s.lanes p c
    let data := ls.map fun l => (s.vdata vd).extractLsb' (8 * l) 8
    let t ← orTrap (s.storeBytes (s.reqW base.toNat) (ls.map fun l => (base.toNat + l) % 2 ^ 64) data)
    bodyDone t)

/-- The active elements' addresses of an indexed form, with their indices (R201). -/
def State.indexed (s : State) (v b p : Nat) (c w : Bool) : List (Nat × Nat) :=
  let k := if w then 8 else 4
  (((vElems (8 * k) (s.vdata v)).zipIdx).filter fun e => s.active p c (k * e.2)).map fun e =>
    (e.2, ((s.x b).toNat + e.1) % 2 ^ 64)

/-- The alignment check of the indexed addresses: the lowest-indexed misaligned one (R202). -/
def indexedAligned (k : Nat) (l : List (Nat × Nat)) : Except Stop Unit :=
  match l.find? (fun e => e.2 % k != 0) with
  | some e => trapWith .misaligned (word e.2)
  | none => .ok ()

/-- `vgather` at the head of the queue (R201); `w` chooses 8-byte elements. -/
def vgatherBody (d v b p : Nat) (c w : Bool) (s : State) : Body := do
  let k := if w then 8 else 4
  let vd := s.stag 0 d
  let va := s.stag 1 v
  let s ← s.vAccess [va, vd] [vd]
  s.keepFaults (do
    let l := s.indexed va b p c w
    indexedAligned k l
    let r ← orTrap (s.loadBytes s.req (l.flatMap fun e => vaRange e.2 k))
    bodyDone (r.2.setV vd (placeBytes (s.vdata vd) (l.flatMap fun e => (List.range k).map (k * e.1 + ·)) r.1) none))

/-- `vscatter` at the head of the queue (R201): the higher index is performed last. -/
def vscatterBody (d v b p : Nat) (c w : Bool) (s : State) : Body := do
  let k := if w then 8 else 4
  let vd := s.stag 0 d
  let va := s.stag 1 v
  let s ← s.vAccess [va, vd] []
  s.keepFaults (do
    let l := s.indexed va b p c w
    indexedAligned k l
    let data := l.flatMap fun e => (List.range k).map fun j => (s.vdata vd).extractLsb' (8 * (k * e.1 + j)) 8
    let t ← orTrap (s.storeBytes (s.reqW ((l.map (·.2)).headD (s.x b).toNat)) (l.flatMap fun e => vaRange e.2 k) data)
    bodyDone t)

/-- `vtake` at the head of the queue (R201, R202): two lines as one unit. -/
def vtakeBody (d a : Nat) (s : State) : Body := do
  let vd := s.stag 0 d
  let base := s.x a
  let s ← s.vAccess [] [vd]
  s.keepFaults (do
    alignedTo 128 base
    let r ← s.takeScalar (vaRange base.toNat 256)
    bodyDone (r.2.setV vd (BitVec.ofNat 2048 (bytesToNat r.1)) none))

/-- `vfill` at the head of the queue (R201, R202): two lines as one unit. -/
def vfillBody (d a b : Nat) (s : State) : Body := do
  let vd := s.stag 0 d
  let base := s.x a
  let s ← s.vAccess [vd] []
  s.keepFaults (do
    alignedTo 128 base
    let t ← orTrap (s.fillBytes (s.reqW base.toNat) base.toNat 2 (natToBytes 256 (s.vdata vd).toNat) (bits (s.x b) 0 6))
    bodyDone t)

/-- `vlds` at the head of the queue (R201); an s register is never staggered. -/
def vldsBody (d a : Nat) (s : State) : Body := do
  let base := s.x a
  let s ← s.vAccess [d] [d]
  s.keepFaults (do
    alignedTo 32 base
    let r ← orTrap (s.loadBytes s.req (vaRange base.toNat 160))
    bodyDone (r.2.setV d (s.vdata d) (some (BitVec.ofNat 1280 (bytesToNat r.1)))))

/-- `vsts` at the head of the queue (R201). -/
def vstsBody (d a : Nat) (s : State) : Body := do
  let base := s.x a
  let s ← s.vAccess [d] []
  s.keepFaults (do
    alignedTo 32 base
    let t ← orTrap (s.storeBytes (s.reqW base.toNat) (vaRange base.toNat 160) (natToBytes 160 (s.vside d).toNat))
    bodyDone t)

/-- A vector memory instruction: within its body, then from the head of the queue (R23, R139). -/
def State.vectorMemory (s : State) (op : QMem) (body : State → Body) : Host.Outcome State Fault Refusal :=
  finish s (do s.bodyFits; s.fromHead op body)

/-- `vld` (R201, R202). -/
def execVld (d a p : Nat) (c : Bool) (s : State) : Host.Outcome State Fault Refusal :=
  s.vectorMemory (.vld d a p c) (vldBody d a p c)

/-- `vst` (R201, R202). -/
def execVst (d a p : Nat) (c : Bool) (s : State) : Host.Outcome State Fault Refusal :=
  s.vectorMemory (.vst d a p c) (vstBody d a p c)

/-- `vgather` (R201, R202). -/
def execVgather (d v b p : Nat) (c w : Bool) (s : State) : Host.Outcome State Fault Refusal :=
  s.vectorMemory (.vgather d v b p c w) (vgatherBody d v b p c w)

/-- `vscatter` (R201, R202). -/
def execVscatter (d v b p : Nat) (c w : Bool) (s : State) : Host.Outcome State Fault Refusal :=
  s.vectorMemory (.vscatter d v b p c w) (vscatterBody d v b p c w)

/-- `vtake` (R201, R202). -/
def execVtake (d a : Nat) (s : State) : Host.Outcome State Fault Refusal :=
  s.vectorMemory (.vtake d a) (vtakeBody d a)

/-- `vfill` (R201, R202). -/
def execVfill (d a b : Nat) (s : State) : Host.Outcome State Fault Refusal :=
  s.vectorMemory (.vfill d a b) (vfillBody d a b)

/-- `vlds` (R201, R202). -/
def execVlds (d a : Nat) (s : State) : Host.Outcome State Fault Refusal :=
  s.vectorMemory (.vlds d a) (vldsBody d a)

/-- `vsts` (R201, R202). -/
def execVsts (d a : Nat) (s : State) : Host.Outcome State Fault Refusal :=
  s.vectorMemory (.vsts d a) (vstsBody d a)

end Sys2Proof.Machine
end

