-- ==== Sys2Proof/Machine/TileInstr.lean ====
section
/-! DEFINITION. Tiles: shapes, configuration, memory instructions, row and column moves (R90, R91, R143 to R149). -/

namespace Sys2Proof.Machine

open Sys2Proof

/-! ## Shapes (R91, R145) -/

/-- TSH.FMT. -/
def Tile.fmt (t : Tile) : Nat := bits t.tsh 0 5
/-- TSH.ROWS. -/
def Tile.rows (t : Tile) : Nat := bits t.tsh 8 5
/-- TSH.COLS. -/
def Tile.cols (t : Tile) : Nat := bits t.tsh 16 8
/-- TSH.SCNT. -/
def Tile.scnt (t : Tile) : Nat := bits t.tsh 24 6
/-- TSH.SPN. -/
def Tile.spn (t : Tile) : Nat := bits t.tsh 32 2

/-- The bits of an element of a format (R145). -/
def fmtBits : Nat → Nat
  | 1 => 32 | 2 => 16 | 3 => 16 | 4 => 8 | 5 => 8 | 6 => 8 | 7 => 4 | 8 => 8 | 9 => 8 | 10 => 8 | 11 => 16 | 12 => 32
  | 13 => 64 | _ => 8

/-- The largest COLS of a format (R145). -/
def fmtCols : Nat → Nat
  | 1 => 32 | 2 => 64 | 3 => 64 | 4 => 128 | 5 => 128 | 6 => 100 | 7 => 100 | 8 => 128 | 9 => 128 | 10 => 128 | 11 => 64
  | 12 => 32 | 13 => 16 | _ => 0

/-- Whether a TSH value is a combination of R145. -/
def legalShape (v : Word) : Bool :=
  let t : Tile := { tsh := v }
  let fb := t.fmt == 6 || t.fmt == 7
  1 ≤ t.fmt && t.fmt ≤ 13 && bits v 5 3 == 0 && bits v 13 3 == 0 && bits v 30 2 == 0 && bits v 34 30 == 0 &&
  1 ≤ t.rows && t.rows ≤ 16 && 1 ≤ t.cols && t.cols ≤ fmtCols t.fmt &&
  (if fb then t.scnt ≤ 25 else t.scnt == 0) &&
  (match t.spn with
   | 0 => true
   | 1 => 2 ≤ t.fmt && t.fmt ≤ 5 && t.cols % 8 == 0
   | 2 => 2 ≤ t.fmt && t.fmt ≤ 5 && t.cols % 4 == 0 && (t.fmt ≤ 3 || t.cols ≤ 64)
   | _ => false)

/-- The row bytes of a tile (R143). -/
def Tile.rowBytes (t : Tile) : Nat := (t.cols * fmtBits t.fmt + 7) / 8

/-- Whether a tile's sidecar holds scales or masks (R144). -/
def Tile.sided (t : Tile) : Bool := t.fmt == 6 || t.fmt == 7 || t.spn != 0

/-! ## Contents -/

/-- A row of a tile. -/
def Tile.row (t : Tile) (r : Nat) : Nat := bits t.data (1024 * r) 1024

/-- A row's area of the sidecar (R144). -/
def Tile.area (t : Tile) (r : Nat) : Nat := bits t.side (256 * r) 256

/-- Element k of row r (R143). -/
def Tile.elem (t : Tile) (r k : Nat) : Nat := t.row r / 2 ^ (fmtBits t.fmt * k) % 2 ^ fmtBits t.fmt

/-- A tile's data from rows: rows below ROWS, row bytes below RB, every other byte zero (R143). -/
def Tile.placed (t : Tile) (rows : List Nat) : BitVec 16384 :=
  BitVec.ofNat 16384 (joinElems 1024 ((rows.take t.rows).map fun r => r % 2 ^ (8 * t.rowBytes)))

/-- The state with a tile of the executing context changed, its dirty bit as given; the control context's first change of it
in a superstep is logged (R90, R396). -/
def State.setTile (s : State) (n : Nat) (t : Tile) : State :=
  let s := if s.cur.ctx = 0 then s.logUndo s.cur.core (.tile n (s.me.tile n)) else s
  s.modMe fun c => { c with t := smSet c.t n t }

/-- A configured tile of the executing context; TILE_UNCONFIG in rank 4 (R91). -/
def State.tileOf (s : State) (n : Nat) : Except Stop Tile :=
  let t := s.me.tile n
  if t.fmt = 0 then trapWith .tileUnconfig (word n) else .ok t

/-! ## The pool (R90, R235) -/

/-- The tiles that a context has configured. -/
def Ctx.configured (c : Ctx) : Nat := (c.t.filter fun e => e.2.fmt != 0).length

/-- The tiles that the contexts of a slice group have configured. -/
def Core.groupTiles (c : Core) (g : Nat) : Nat :=
  ctxNumbers.foldl (fun n k => if (c.ctx k).group == some g then n + (c.ctx k).configured else n) 0

/-- The configurable tiles of a core that are configured by no context and reserved for no slice (R90, R235). -/
def Core.freeTiles (c : Core) : Nat :=
  40 - (ctxNumbers.foldl (fun n k => if (c.ctx k).group.isNone then n + (c.ctx k).configured else n) 0)
    - (c.slices.foldl (fun n g => n + max g.2.tt.t (c.groupTiles g.1)) 0)

/-- Whether the executing context may configure one more tile now: from its slice's share, or from the free tiles. -/
def State.tileRoom (s : State) : Bool :=
  (match s.me.group with
   | some g => (match s.groupOf s.cur with | some e => s.myCore.groupTiles g < e.tt.t | none => false)
   | none => false) || 0 < s.myCore.freeTiles

/-! ## `tcfg` and `tzero` (R146) -/

/-- The effect of `tcfg` with a TSH value (R91, R146): a tile that holds no pool entry may wait for one. -/
def State.configure (s : State) (n : Nat) (v : Word) : Except Stop State :=
  if bits v 0 5 = 0 then .ok (s.setTile n {})
  else if !legalShape v then trapWith .tileShape v
  else if (s.me.tile n).fmt = 0 && !s.tileRoom then waitRetry s
  else .ok (s.setTile n { tsh := v })

/-- `tcfg` (R146). -/
def execTcfg (t a : Nat) (s : State) : Host.Outcome State Fault Refusal :=
  finish s (do
    s.needRoom
    let u ← s.configure t (s.x a)
    .ok (u.enqueueUnit false).advance)

/-- `tzero` (R146). -/
def execTzero (t : Nat) (s : State) : Host.Outcome State Fault Refusal :=
  finish s (do
    s.needRoom
    let u ← s.tileOf t
    .ok ((s.setTile t { tsh := u.tsh }).enqueueUnit false).advance)

/-! ## Tiles and memory (R147, R148) -/

/-- `tld` at the head of the queue (R147). -/
def tldBody (t a b : Nat) (s : State) : Body := do
  let u ← s.tileOf t
  alignedTo 4 (s.x a)
  alignedTo 4 (s.x b)
  let r ← orTrap (s.loadBytes s.req ((List.range u.rows).flatMap fun k =>
    vaRange (((s.x a).toNat + k * (s.x b).toNat) % 2 ^ 64) u.rowBytes))
  let rows := elemsOf (8 * u.rowBytes) u.rows (bytesToNat r.1)
  .ok (r.2.setTile t { u with data := u.placed rows, dirty := true }).advance

/-- `tst` at the head of the queue (R147): the row with the higher index is performed last. -/
def tstBody (t a b : Nat) (s : State) : Body := do
  let u ← s.tileOf t
  alignedTo 4 (s.x a)
  alignedTo 4 (s.x b)
  let v ← orTrap (s.storeBytes (s.reqW (s.x a).toNat)
    ((List.range u.rows).flatMap fun k => vaRange (((s.x a).toNat + k * (s.x b).toNat) % 2 ^ 64) u.rowBytes)
    ((List.range u.rows).flatMap fun k => natToBytes u.rowBytes (u.row k)))
  .ok v.advance

/-- `ttake` at the head of the queue (R147, R148): sixteen lines as one unit. -/
def ttakeBody (t a : Nat) (s : State) : Body := do
  let u ← s.tileOf t
  alignedTo 128 (s.x a)
  let r ← s.takeScalar (vaRange (s.x a).toNat 2048)
  .ok (r.2.setTile t { u with data := u.placed (elemsOf 1024 16 (bytesToNat r.1)), dirty := true }).advance

/-- `tfill` at the head of the queue (R147, R148): sixteen lines as one unit. -/
def tfillBody (t a b : Nat) (s : State) : Body := do
  let u ← s.tileOf t
  alignedTo 128 (s.x a)
  let v ← orTrap (s.fillBytes (s.reqW (s.x a).toNat) (s.x a).toNat 16 (natToBytes 2048 u.data.toNat) (bits (s.x b) 0 6))
  .ok v.advance

/-- `tlds` at the head of the queue (R147). The sidecar takes the 512 bytes as they are, also where R144 says that a tile's sidecar is
zero (DESIGN CHOICE, log entry 99). -/
def tldsBody (t a : Nat) (s : State) : Body := do
  let u ← s.tileOf t
  alignedTo 64 (s.x a)
  let r ← orTrap (s.loadBytes s.req (vaRange (s.x a).toNat 512))
  .ok (r.2.setTile t { u with side := BitVec.ofNat 4096 (bytesToNat r.1), dirty := true }).advance

/-- `tsts` at the head of the queue (R147). -/
def tstsBody (t a : Nat) (s : State) : Body := do
  let u ← s.tileOf t
  alignedTo 64 (s.x a)
  let v ← orTrap (s.storeBytes (s.reqW (s.x a).toNat) (vaRange (s.x a).toNat 512) (natToBytes 512 u.side.toNat))
  .ok v.advance

/-- The state with a tile undefined, as uncorrectable data leaves the destination of a load (R148); its shape stays. -/
def State.loseTile (s : State) (t : Nat) : State :=
  (s.setTile t { s.me.tile t with data := Config.freeTile s.freeIdx, side := Config.freeTileSide s.freeIdx, dirty := true }).drawn

/-- The end of a tile load: one that meets uncorrectable data leaves its tile undefined, and its trap is taken as any other (R148). -/
def State.finishTileLoad (s : State) (t : Nat) (b : Body) : Host.Outcome State Fault Refusal :=
  finish (match b with | .error (.trap k) => if k.cause = .uncorrectableData then s.loseTile t else s | _ => s) b

/-- `tld` (R147). -/
def execTld (t a b : Nat) (s : State) : Host.Outcome State Fault Refusal :=
  s.finishTileLoad t (s.fromHead (.tld t a b) (tldBody t a b))

/-- `tst` (R147). -/
def execTst (t a b : Nat) (s : State) : Host.Outcome State Fault Refusal :=
  finish s (s.fromHead (.tst t a b) (tstBody t a b))

/-- `ttake` (R147). -/
def execTtake (t a : Nat) (s : State) : Host.Outcome State Fault Refusal :=
  finish s (s.fromHead (.ttake t a) (ttakeBody t a))

/-- `tfill` (R147). -/
def execTfill (t a b : Nat) (s : State) : Host.Outcome State Fault Refusal :=
  finish s (s.fromHead (.tfill t a b) (tfillBody t a b))

/-- `tlds` (R147). -/
def execTlds (t a : Nat) (s : State) : Host.Outcome State Fault Refusal :=
  s.finishTileLoad t (s.fromHead (.tlds t a) (tldsBody t a))

/-- `tsts` (R147). -/
def execTsts (t a : Nat) (s : State) : Host.Outcome State Fault Refusal :=
  finish s (s.fromHead (.tsts t a) (tstsBody t a))

/-! ## Row and column moves (R149) -/

/-- The index operand of a move: below a limit, with no bit outside [7:0]; TILE_SHAPE with its whole value (R149). -/
def moveIndex (v : Word) (limit : Nat) : Except Stop Nat :=
  if v.toNat < limit then .ok v.toNat else trapWith .tileShape v

/-- A column move needs a tile without scales or masks (R149). -/
def columnTile (n : Nat) (t : Tile) : Except Stop Unit := need (!t.sided) (trapWith .tileShape (word n))

/-- A move between a tile and a vector register (R26, R149): its registers accessed, its checks and its effect, and its entry in the
queue, which it leaves at the head. -/
def State.tileMove (s : State) (reads writes : List Nat) (t : Nat) (f : State → Tile → Body) : Host.Outcome State Fault Refusal :=
  finish s (do
    s.needRoom
    let s ← s.vAccess reads writes
    s.keepFaults (do
      let u ← s.tileOf t
      let v ← f s u
      .ok (v.enqueueUnit false).advance))

/-- `tmvr` (R149). -/
def execTmvr (t v b : Nat) (s : State) : Host.Outcome State Fault Refusal :=
  s.tileMove [v] [] t fun s u => do
    let r ← moveIndex (s.x b) u.rows
    let data := putBits u.data (1024 * r) 1024 ((s.vdata v).toNat % 2 ^ (8 * u.rowBytes))
    let side := if u.sided then putBits u.side (256 * r) 256 ((s.vside v).toNat % 2 ^ 256) else u.side
    .ok (s.setTile t { u with data := data, side := side, dirty := true })

/-- `tgetr` (R149). -/
def execTgetr (d t b : Nat) (s : State) : Host.Outcome State Fault Refusal :=
  s.tileMove [] [d] t fun s u => do
    let r ← moveIndex (s.x b) u.rows
    .ok (s.setV d (BitVec.ofNat 2048 (u.row r % 2 ^ (8 * u.rowBytes))) (if u.sided then some (BitVec.ofNat 1280 (u.area r)) else none))

/-- `tmvc` (R149): the index is checked before the tile, as the entry lists them. -/
def execTmvc (t v b : Nat) (s : State) : Host.Outcome State Fault Refusal :=
  s.tileMove [v] [] t fun s u => do
    let j ← moveIndex (s.x b) u.cols
    columnTile t u
    let w := fmtBits u.fmt
    let data := (List.range u.rows).foldl (fun dd i => putBits dd (1024 * i + w * j) w (bits (s.vdata v) (w * i) w)) u.data
    .ok (s.setTile t { u with data := data, dirty := true })

/-- `tgetc` (R149): the index is checked before the tile, as the entry lists them. -/
def execTgetc (d t b : Nat) (s : State) : Host.Outcome State Fault Refusal :=
  s.tileMove [] [d] t fun s u => do
    let j ← moveIndex (s.x b) u.cols
    columnTile t u
    .ok (s.setV d (vJoin (fmtBits u.fmt) ((List.range u.rows).map fun i => u.elem i j)) none)

end Sys2Proof.Machine
end

