-- ==== Sys2Proof/Machine/Matrix.lean ====
section
/-! DEFINITION. Accumulator slots and the matrix engine: products, drains, slot management, the RNS forms, and the engine's
binding and completion (R26, R76, R92, R150 to R162). -/

namespace Sys2Proof.Machine

open Sys2Proof

/-! ## Slots (R92, R150) -/

/-- A slot of a cluster. -/
def Cluster.slot (c : Cluster) (n : Nat) : Slot := smGet c.slots n {}

/-- The state with a slot of a core's cluster changed; the core's first change of it in a superstep is logged (R396). -/
def State.modSlot (s : State) (core n : Nat) (f : Slot → Slot) : State :=
  let old := (s.cluster (clusterOf core)).slot n
  (s.logUndo core (.slot n old.data old.res old.version old.owner old.status)).modCluster (clusterOf core) fun c =>
    { c with slots := smSet c.slots n (f old) }

/-- A slot of the executing context's cluster. -/
def State.slot (s : State) (n : Nat) : Slot := (s.cluster (clusterOf s.cur.core)).slot n

/-- Status PARKED. -/
def Slot.parked (t : Slot) : Bool := t.status.getLsbD 9
/-- Status ERR. -/
def Slot.err (t : Slot) : Bool := t.status.getLsbD 10
/-- Status RNS. -/
def Slot.rns (t : Slot) : Bool := t.status.getLsbD 11
/-- Status NV..NX. -/
def Slot.flags (t : Slot) : Flags := BitVec.ofNat 5 (bits t.status 4 5)

/-- The slot with flags recorded (R68, R152). -/
def Slot.orFlags (t : Slot) (fl : Flags) : Slot := { t with status := t.status ||| BitVec.ofNat 16 (fl.toNat * 16) }
/-- The slot with PARKED cleared. -/
def Slot.unpark (t : Slot) : Slot := { t with status := putBits t.status 9 1 0 }
/-- The slot PARKED (R153). -/
def Slot.park (t : Slot) : Slot := { t with status := putBits t.status 9 1 1 }
/-- The slot with its version increased (R151). -/
def Slot.bump (t : Slot) : Slot := { t with version := t.version + 1 }

/-- The owner tag of the executing context: its core within the cluster and its number (R92). -/
def State.tag (s : State) : Nat × Nat := (s.cur.core % 4, s.cur.ctx)

/-- The slot that a name maps, or ACC_OWNER with 0x10 plus the name (R92, R150). -/
def State.slotName (s : State) (a : Nat) : Except Stop Nat :=
  let m := bits s.myCore.aslotmap (5 * a) 5
  if 16 ≤ m then .ok (m % 16) else trapWith .accOwner (word (0x10 + a))

/-- The RNS bit that committed matrix work gives its slot. -/
def MatOp.kind : MatOp → Option Bool
  | .clear rns => some rns
  | _ => none

/-- The RNS bits that the executing context's own committed work, bound or in the queue, is still to give a slot, in order. -/
def State.kindsDue (s : State) (n : Nat) : List Bool :=
  ((s.cluster (clusterOf s.cur.core)).mat.filterMap fun w =>
    if w.core == s.cur.core && w.ctx == s.cur.ctx && w.slot == n then w.op.kind else none) ++
  s.myCore.queue.filterMap fun e => match e.op with
    | .matrix k _ op => if e.ctx == s.cur.ctx && k == n then op.kind else none
    | _ => none

/-- The RNS bit of a slot as the executing context finds it: after its own earlier `aclear` and `aclear.rns` (R21, R150). -/
def State.rnsSeen (s : State) (n : Nat) : Bool := ((s.kindsDue n).getLast?).getD (s.slot n).rns

/-- The kind check of a name that maps a slot: TILE_SHAPE with the slot (R150). -/
def State.slotKind (s : State) (a : Nat) (rns : Bool) : Except Stop Unit :=
  let m := bits s.myCore.aslotmap (5 * a) 5
  need (!(16 ≤ m && s.rnsSeen (m % 16) != rns)) (trapWith .tileShape (word (m % 16)))

/-- Whether a free slot is reserved for another slice group of the cluster (R150, R235). -/
def State.reservedElsewhere (s : State) (n : Nat) : Bool :=
  [0, 1, 2, 3].any fun k =>
    let core := 4 * clusterOf s.cur.core + k
    (s.core core).slices.any fun g => g.2.slots.contains n && !(core == s.cur.core && s.me.group == some g.1)

/-- Whether the executing context's tag owns a slot, or the slot is free for it (R150). -/
def State.mayUse (s : State) (n : Nat) : Bool :=
  match (s.slot n).owner with
  | none => !s.reservedElsewhere n
  | some t => t == s.tag

/-- The owner and PARKED checks of R150. -/
def State.slotUse (s : State) (n : Nat) : Except Stop Unit :=
  need (s.mayUse n && !(s.slot n).parked) (trapWith .accOwner (word n))

/-- The slot taken at a commit that finds it free (R150). -/
def State.takeSlot (s : State) (n : Nat) : State :=
  if (s.slot n).owner = none then s.modSlot s.cur.core n fun t => { t with owner := some s.tag } else s

/-- Whether an entry is matrix work on a slot. -/
def QEntry.onSlot (n : Nat) (e : QEntry) : Bool := match e.op with | .matrix k _ _ => k == n | _ => false

/-- Whether an entry is an `afree` of a slot. -/
def QEntry.freesSlot (n : Nat) (e : QEntry) : Bool := match e.op with | .matrix k _ .free => k == n | _ => false

/-- Whether work changes a slot's owner tag: `aclaim` and `afree`. -/
def MatOp.changesOwner : MatOp → Bool
  | .claim _ => true | .free => true | _ => false

/-- Whether an entry changes a slot's owner tag. -/
def QEntry.retagsSlot (n : Nat) (e : QEntry) : Bool := match e.op with | .matrix k _ op => k == n && op.changesOwner | _ => false

/-- Whether committed matrix work of a context on a slot has not completed. -/
def State.slotBusy (s : State) (i : CtxId) (n : Nat) : Bool :=
  (s.core i.core).queue.any (fun e => e.ctx == i.ctx && e.onSlot n) ||
  (s.cluster (clusterOf i.core)).mat.any (fun w => w.core == i.core && w.ctx == i.ctx && w.slot == n)

/-- An instruction that names a slot waits for the context's own earlier `aclaim` and `afree` of it, whose effects on the slot
come at their completion (R21, R151, R157). -/
def State.afterRetag (s : State) (n : Nat) : Except Stop Unit :=
  if s.myCore.queue.any (fun e => e.ctx == s.cur.ctx && e.retagsSlot n) ||
      (s.cluster (clusterOf s.cur.core)).mat.any (fun w =>
        w.core == s.cur.core && w.ctx == s.cur.ctx && w.slot == n && w.op.changesOwner) then waitRetry s else .ok ()

/-- A matrix instruction's commit: its slot checked and taken, its work put into the queue (R150, R151). -/
def State.commitMatrix (s : State) (a v : Nat) (op : MatOp) : Body := do
  let n ← s.slotName a
  s.afterRetag n
  s.slotUse n
  .ok ((s.takeSlot n).enqueue (.matrix n (some (BitVec.ofNat 16 (s.x v).toNat)) op)).advance

/-! ## Tile operands of products -/

/-- A tile operand of a product: dense and of a format, or TILE_SHAPE with its number (R154). -/
def productTile (n : Nat) (t : Tile) (fmt : Nat) : Except Stop Unit := need (t.fmt == fmt && t.spn == 0) (trapWith .tileShape (word n))

/-- The two dense tiles of a product, of equal COLS (R154, R158). -/
def State.productTiles (s : State) (a b fa fb : Nat) : Except Stop (Tile × Tile) := do
  let ta ← s.tileOf a
  let tb ← s.tileOf b
  productTile a ta fa
  productTile b tb fb
  need (ta.cols == tb.cols) (trapWith .tileShape (word b))
  .ok (ta, tb)

/-- SCALE_COUNT of an FB tile (R154, R156). -/
def scalesFor (n : Nat) (t : Tile) : Except Stop Unit :=
  need (!((t.fmt == 6 || t.fmt == 7) && t.scnt < (t.cols + 3) / 4)) (trapWith .scaleCount (word n))

/-- The FMT codes of a dense pair (R91, R154). -/
def MmaPair.fmts : MmaPair → Nat × Nat
  | .f32F32 => (1, 1) | .bf16Bf16 => (2, 2) | .f16F16 => (3, 3) | .e4m3E4m3 => (4, 4) | .e4m3E5m2 => (4, 5)
  | .e5m2E4m3 => (5, 4) | .e5m2E5m2 => (5, 5) | .fb8Fb8 => (6, 6) | .fb8Fb4 => (6, 7) | .fb4Fb8 => (7, 6)
  | .fb4Fb4 => (7, 7) | .lg6Lg6 => (8, 8) | .bf16E4m3 => (2, 4) | .bf16Fb4 => (2, 7)

/-- The FMT codes of a sparse pair (R155). -/
def SpPair.fmts : SpPair → Nat × Nat
  | .bf16Bf16 => (2, 2) | .f16F16 => (3, 3) | .e4m3E4m3 => (4, 4) | .e4m3E5m2 => (4, 5) | .e5m2E4m3 => (5, 4)
  | .e5m2E5m2 => (5, 5)

/-- The factors fA and fB: 1.0 when fs is 0 (R154). -/
def State.factors (s : State) (fs : Nat) : F32 × F32 :=
  if fs = 0 then (0x3F800000, 0x3F800000) else (f32 (bits (s.f fs) 0 32), f32 (bits (s.f fs) 32 32))

/-- Dense products (R154). -/
def execTmma (c a b v fs : Nat) (n : MmaPair) (s : State) : Host.Outcome State Fault Refusal :=
  finish s (do
    s.needRoom
    let f := MmaPair.fmts n
    let t ← s.productTiles a b f.1 f.2
    s.slotKind c false
    scalesFor a t.1
    scalesFor b t.2
    let k := s.factors fs
    s.commitMatrix c v (.mma t.1 [t.2] k.1 k.2))

/-- Stored elements for 16 dense positions of a sparse tile (R155). -/
def Tile.perGroup (t : Tile) : Nat := if t.spn = 1 then 8 else 4

/-- The mask of group g of row r (R144). -/
def Tile.mask (t : Tile) (r g : Nat) : Nat := t.area r / 2 ^ (16 * g) % 65536

/-- The number of set bits among the low `n` bits. -/
def onesIn : Nat → Nat → Nat
  | 0, _ => 0
  | n + 1, v => v % 2 + onesIn n (v / 2)

/-- Whether every mask of a sparse tile has exactly N bits set (R155). -/
def Tile.masksOk (t : Tile) : Bool :=
  (List.range t.rows).all fun r => (List.range (t.cols / t.perGroup)).all fun g => onesIn 16 (t.mask r g) == t.perGroup

/-- The B tiles of a sparse product, configured, or TILE_UNCONFIG with the number of the first that is not (R154, R155). -/
def State.tilesFrom (s : State) (b : Nat) : Nat → Except Stop (List Tile)
  | 0 => .ok []
  | n + 1 =>
    if 7 < b then .ok [] else
    match s.tileOf b with
    | .error e => .error e
    | .ok t => (match State.tilesFrom s (b + 1) n with | .error e => .error e | .ok l => .ok (t :: l))

/-- The checks of one B tile of a sparse product against A and the first B tile (R155). -/
def sparseB (a first t : Tile) (fb : Nat) : Bool := t.fmt == fb && t.spn == 0 && t.cols == a.cols && t.rows == first.rows

/-- Sparse products (R155). -/
def execTmmaSp (c a b v fs : Nat) (n : SpPair) (s : State) : Host.Outcome State Fault Refusal :=
  finish s (do
    s.needRoom
    let f := SpPair.fmts n
    let ta ← s.tileOf a
    let g := if ta.spn = 0 then 1 else 16 / ta.perGroup
    let l ← s.tilesFrom b g
    need (ta.fmt == f.1 && ta.spn != 0 && ta.masksOk) (trapWith .tileShape (word a))
    need (b % g == 0 && b + g ≤ 8) (trapWith .tileShape (word b))
    need (l.all fun t => sparseB ta (l.headD {}) t f.2) (trapWith .tileShape (word b))
    s.slotKind c false
    let k := s.factors fs
    s.commitMatrix c v (.mma ta l k.1 k.2))

/-! ## Products at the engine (R76, R154, R155, R158) -/

/-- The value of element k of row r, with its row's scale (R154). -/
def Tile.value (t : Tile) (r k : Nat) : Num :=
  let e := t.elem r k
  let scale := e8m2Value (t.area r / 2 ^ (10 * (k / 4)) % 1024)
  match t.fmt with
  | 1 => decodeFp fp32 e
  | 2 => decodeFp bf16 e
  | 3 => decodeFp fp16 e
  | 4 => decodeFp e4m3 e
  | 5 => decodeFp e5m2 e
  | 6 => scaledValue (decodeFp e4m3 e) scale
  | 7 => scaledValue (decodeFp e2m1 e) scale
  | _ => lg6Value e

/-- The dense position of stored element k of row r: the k-th set bit of its mask (R155). -/
def nthOne : Nat → Nat → Nat → Nat → Nat
  | 0, _, _, pos => pos
  | n + 1, m, k, pos =>
    if m % 2 = 1 then (if k = 0 then pos else nthOne n (m / 2) (k - 1) (pos + 1)) else nthOne n (m / 2) k (pos + 1)

/-- The product of two elements (R73, R76). -/
def tileProduct (a b : Tile) (i ka j kb : Nat) : Num :=
  if a.fmt = 8 then lg6Product (a.elem i ka) (b.elem j kb) else ((a.value i ka).mul (b.value j kb)).1

/-- The products of one group of 16 positions for element (i, j). -/
def groupProducts (a : Tile) (b : List Tile) (i j g : Nat) : List Num :=
  if a.spn = 0 then
    (List.range (min 16 (a.cols - 16 * g))).map fun k => tileProduct a (b.headD {}) i (16 * g + k) j (16 * g + k)
  else
    let n := a.perGroup
    let m := a.mask i g
    (List.range 16).map fun pos =>
      if m / 2 ^ pos % 2 = 0 then .zero
      else
        let k := 16 * g + pos
        tileProduct a (b.getD (k / a.cols) {}) i (n * g + onesIn pos m) j (k % a.cols)

/-- The number of groups along K (R76, R155). -/
def groupCount (a : Tile) : Nat := if a.spn = 0 then (a.cols + 15) / 16 else a.cols / a.perGroup

/-- One group's contribution added to an accumulator element, with its flags (R76). -/
def accumulate (factor : Num) (acc : F32) (products : List Num) : F32 × Flags :=
  let c := (factor.mul (sumNums false products).1).1
  if c.isNan then (f32 fp32.nanCode, fNV)
  else
    let x := decodeFp fp32 acc.toNat
    if x.isNan then (f32 fp32.nanCode, 0)
    else
      let r := x.add false c
      let o := roundFp fp32 .ne r.1
      (f32 o.1, r.2 ||| o.2)

/-- An accumulator element after every group of a product (R76). -/
def accumulateAll (factor : Num) (acc : F32) (gs : List (List Num)) : F32 × Flags :=
  gs.foldl (fun r g => let o := accumulate factor r.1 g; (o.1, r.2 ||| o.2)) (acc, 0)

/-- Element (i, j) of slot data (R92). -/
def Slot.elem (t : Slot) (i j : Nat) : F32 := f32 (bits t.data (32 * (16 * i + j)) 32)
/-- The packed residues of element (i, j). -/
def Slot.packed (t : Slot) (i j : Nat) : Nat := bits t.res (60 * (16 * i + j)) 60

/-- The positions of a product's or drain's elements. -/
def positions (rows cols : Nat) : List (Nat × Nat) := (List.range rows).flatMap fun i => (List.range cols).map fun j => (i, j)

/-- A slot after a floating-point product (R154). -/
def Slot.mma (t : Slot) (a : Tile) (b : List Tile) (fa fb : F32) : Slot :=
  let factor := ((decodeFp fp32 fa.toNat).mul (decodeFp fp32 fb.toNat)).1
  (positions a.rows (b.headD {}).rows).foldl (fun u p =>
    let r := accumulateAll factor (t.elem p.1 p.2) ((List.range (groupCount a)).map (groupProducts a b p.1 p.2))
    { u with data := putBits u.data (32 * (16 * p.1 + p.2)) 32 r.1.toNat }.orFlags r.2) t

/-- A slot after an RNS product: `f` gives an element's residue in a channel (R158). -/
def Slot.rnsMma (t : Slot) (a b : Tile) (f : Tile → Nat → Nat → Nat → Nat) : Slot :=
  (positions a.rows b.rows).foldl (fun u p =>
    let w := packWord fun ch =>
      ((List.range a.cols).foldl (fun n k => n + f a p.1 k ch * f b p.2 k ch) (residueOf (t.packed p.1 p.2) ch)) % modulus ch
    { u with res := putBits u.res (60 * (16 * p.1 + p.2)) 60 w }) t

/-- The residue of an i8 element (R81). -/
def i8Residue (t : Tile) (r k ch : Nat) : Nat := (readInt true 8 (t.elem r k) % (modulus ch : Int)).toNat
/-- The residue of a packed element (R145). -/
def packedResidue (t : Tile) (r k ch : Nat) : Nat := residueOf (t.elem r k) ch

/-- A slot after the completion of matrix work, its version increased (R151, R157). -/
def Slot.complete (t : Slot) (op : MatOp) (tag : Nat × Nat) : Slot :=
  (match op with
   | .mma a b fa fb => t.mma a b fa fb
   | .rnsI8 a b => t.rnsMma a b i8Residue
   | .rnsRes a b => t.rnsMma a b packedResidue
   | .clear rns => { t with data := 0, res := 0, status := putBits (putBits (putBits t.status 4 5 0) 10 1 0) 11 1 rns.toNat }
   | .claim atS => { t with owner := if atS then some tag else t.owner }.unpark
   | .free => { t with owner := none }.unpark).bump

/-! ## Slot management (R157) -/

/-- `aclear`. -/
def execAclear (c v : Nat) (s : State) : Host.Outcome State Fault Refusal :=
  finish s (do s.needRoom; s.commitMatrix c v (.clear false))

/-- `aclear.rns`. -/
def execAclearRns (c v : Nat) (s : State) : Host.Outcome State Fault Refusal :=
  finish s (do s.needRoom; s.commitMatrix c v (.clear true))

/-- The owner check of `aclaim` and `afree`: at U the slot's tag must be the executing context's (R157). -/
def State.ownsAtU (s : State) (n : Nat) : Except Stop Unit :=
  need (s.me.priv != 0 || (s.slot n).owner == some s.tag) (trapWith .accOwner (word n))

/-- `aclaim`: the tag, PARKED and the version change at its completion. -/
def execAclaim (c : Nat) (s : State) : Host.Outcome State Fault Refusal :=
  finish s (do
    s.needRoom
    let n ← s.slotName c
    s.afterRetag n
    s.ownsAtU n
    .ok (s.enqueue (.matrix n none (.claim (s.me.priv != 0)))).advance)

/-- `afree`: the slot becomes free at its completion. -/
def execAfree (c : Nat) (s : State) : Host.Outcome State Fault Refusal :=
  finish s (do
    s.needRoom
    let n ← s.slotName c
    s.afterRetag n
    s.ownsAtU n
    .ok (s.enqueue (.matrix n none .free)).advance)

/-- The value of `astat`. -/
def Slot.statWord (t : Slot) : Word :=
  word (t.version.toNat + t.status.toNat * 2 ^ 16 +
    (match t.owner with | some o => (o.1 * 16 + o.2) * 2 ^ 32 | none => 2 ^ 38))

/-- `astat`: read, when the matrix engine has bound it, after the context's earlier matrix instructions on the slot complete. -/
def execAstat (c v : Nat) (s : State) : Host.Outcome State Fault Refusal :=
  finish s (do
    s.destX v
    let n ← s.slotName c
    s.fromEngine (.astat c v) fun s =>
      if s.slotBusy s.cur n then waitRetry (s.holdHead (.astat c v)) else .ok (s.setX v (s.slot n).statWord).advance)

/-! ## Drains (R156, R160) -/

/-- The FMT of a drain's tile (R91, R156). -/
def DrainFmt.code : DrainFmt → Nat
  | .f32 => 1 | .bf16 => 2 | .f16 => 3 | .e4m3 => 4 | .e5m2 => 5 | .fb8 => 6 | .fb4 => 7

/-- The element format of a drain (R156). -/
def DrainFmt.fmt : DrainFmt → Fmt
  | .f32 => fp32 | .bf16 => Sys2Proof.Machine.bf16 | .f16 => fp16 | .e4m3 => Sys2Proof.Machine.e4m3
  | .e5m2 => Sys2Proof.Machine.e5m2 | .fb8 => Sys2Proof.Machine.e4m3 | .fb4 => Sys2Proof.Machine.e2m1

/-- A list in blocks of `n`, the last as long as it comes out (R63). -/
def blocksBy {α : Type} (n : Nat) : Nat → List α → List (List α)
  | 0, _ => []
  | k + 1, l => if l.isEmpty then [] else l.take n :: blocksBy n k (l.drop n)

/-- One narrowed row: its element codes, its sidecar area and the flags (R156). -/
def narrowRow (f : DrainFmt) (q : Prefix) (xs : List Num) : List Nat × Nat × Flags :=
  let fb4 := f == .fb4
  if f == .fb8 || fb4 then
    let bs := (blocksBy 4 4 (xs.map fun x => (modify q x, sigFlags [x]))).map (renormBlock fb4 .tz)
    (bs.flatMap (·.1), joinElems 10 (bs.map (·.2.1)), bs.foldl (fun fl b => fl ||| b.2.2) 0)
  else
    let r := xs.map (finishFp (DrainFmt.fmt f) .tz q)
    (r.map (·.1), 0, r.foldl (fun fl e => fl ||| e.2) 0)

/-- A tile written whole by rows of elements, with the rows' sidecar areas (R143, R156). -/
def Tile.written (t : Tile) (rows : List (List Nat)) (areas : List Nat) : Tile :=
  { t with
    data := t.placed (rows.map (joinElems (fmtBits t.fmt)))
    side := BitVec.ofNat 4096 (joinElems 256 areas)
    dirty := true }

/-- The values of a row of a slot. -/
def Slot.rowValues (t : Slot) (i cols : Nat) : List Num := (List.range cols).map fun j => decodeFp fp32 (t.elem i j).toNat

/-- A drain that the engine has bound works once its version is met; otherwise it goes on waiting at the head (R151, R156). -/
def State.atVersion (s : State) (op : QMem) (n v : Nat) (body : State → Body) : Body :=
  if (s.slot n).version = BitVec.ofNat 16 (s.x v).toNat then body s else waitRetry (s.holdHead op)

/-- The program counter after a drain: a prefix and its word are a body instruction of the repetition buffer (R139). -/
def State.drainAdvance (s : State) : State := if s.mods.isSome then s.bodyAdvance else s.advance

/-- VSTAT with flags recorded (R68). -/
def State.raiseV (s : State) (fl : Flags) : State := s.modMe fun c => { c with vstat := Sys2Proof.Machine.orFlags c.vstat fl }

/-- A drain's effect (R156). -/
def State.drain (s : State) (n t : Nat) (u : Tile) (z : Bool) (f : DrainFmt) (q : Prefix) : State :=
  let sl := s.slot n
  let rows := (List.range u.rows).map fun i => narrowRow f q (sl.rowValues i u.cols)
  let fl := rows.foldl (fun a r => a ||| r.2.2) sl.flags
  let s := ((s.takeSlot n).setTile t (u.written (rows.map (·.1)) (rows.map (·.2.1)))).raiseV fl
  s.modSlot s.cur.core n fun sl =>
    (if z then { sl with data := 0, status := putBits sl.status 4 5 0 } else sl).bump

/-- The operand checks of a drain, and its slot (R150, R156). -/
def State.drainChecks (s : State) (c t : Nat) (f : DrainFmt) : Except Stop (Nat × Tile) := do
  let u ← s.tileOf t
  need (u.fmt == DrainFmt.code f && u.cols ≤ 16) (trapWith .tileShape (word t))
  s.slotKind c false
  scalesFor t u
  let n ← s.slotName c
  s.afterRetag n
  s.slotUse n
  .ok (n, u)

/-- `adrain` (R156), with the modifiers of its prefix. -/
def execAdrain (c t v : Nat) (z : Bool) (f : DrainFmt) (s : State) : Host.Outcome State Fault Refusal :=
  finish s (do
    (if s.mods.isSome then s.bodyFits else .ok ())
    let r ← s.drainChecks c t f
    let op : QMem := .adrain c t v z f s.mods
    s.fromEngine op fun s => s.atVersion op r.1 v fun s =>
      if (s.slot r.1).err then trapWith .uncorrectableData (word r.1)
      else .ok (s.drain r.1 t r.2 z f s.prefixOf).drainAdvance)

/-- An i32 tile of a drain (R160). -/
def drainTile (n : Nat) (t : Tile) : Except Stop Unit := need (t.fmt == 12 && t.cols ≤ 16) (trapWith .tileShape (word n))

/-- The elements of an RNS drain, in ascending position: position, value and status (R84, R160). -/
def rnsElements (cfg : BitVec 10) (sl : Slot) (rows cols : Nat) : List (Nat × Int × RnsStatus) :=
  (positions rows cols).map fun p => let r := rnsReverse cfg (sl.packed p.1 p.2); (16 * p.1 + p.2, r.1, r.2)

/-- RNSSTAT after a drain (R161). -/
def rnsStatWord (old : Word) (l : List (Nat × Int × RnsStatus)) : Word :=
  let count := fun k => (l.filter fun e => e.2.2.kind == k).length
  let chans := l.filterMap fun e => match e.2.2 with | .corrected ch => some ch | _ => none
  let loc : Word := chans.foldl (fun w ch => w ||| word (2 ^ (48 + ch))) (word (bits old 48 10 * 2 ^ 48))
  word ((l.foldl (fun m e => max m e.2.2.kind) 0) + chans.headD 0 * 2 ^ 4 + count 2 * 2 ^ 8 + count 3 * 2 ^ 17 +
    count 4 * 2 ^ 26 + count 1 * 2 ^ 35) ||| loc

/-- The traps of an RNS drain that is not quiet (R160, rank 7). -/
def rnsTraps (l : List (Nat × Int × RnsStatus)) : Except Stop Unit :=
  match l.find? (fun e => e.2.2.kind == 4) with
  | some e => trapWith .rnsUncorrectable (word e.1)
  | none =>
    match l.find? (fun e => e.2.2.kind == 3) with
    | some e => trapWith .rnsOverflow (word e.1)
    | none => .ok ()

/-- The rows of an RNS drain's results, each mapped by `f`. -/
def rnsRows (l : List (Nat × Int × RnsStatus)) (rows cols : Nat) (f : Int → Nat) : List (List Nat) :=
  blocksBy cols rows (l.map fun e => f e.2.1)

/-- The end of an RNS drain on a slot: RNSSTAT and the version (R160, R161). -/
def State.rnsDone (s : State) (n : Nat) (l : List (Nat × Int × RnsStatus)) : State :=
  ((s.takeSlot n).modCluster (clusterOf s.cur.core) fun c => { c with rnsstat := rnsStatWord c.rnsstat l }).modSlot
    s.cur.core n Slot.bump

/-- The slot of an RNS drain, checked (R150). -/
def State.rnsSlot (s : State) (c : Nat) : Except Stop Nat := do
  s.slotKind c true
  let n ← s.slotName c
  s.afterRetag n
  s.slotUse n
  .ok n

/-- `adrain.rns` and `adrain.rns.q` (R160). -/
def execAdrainRns (c t v : Nat) (q : Bool) (s : State) : Host.Outcome State Fault Refusal :=
  finish s (do
    let u ← s.tileOf t
    drainTile t u
    let n ← s.rnsSlot c
    let op : QMem := .adrainRns c t v q
    s.fromEngine op fun s => s.atVersion op n v fun s =>
      if (s.slot n).err then trapWith .uncorrectableData (word n)
      else do
        let l := rnsElements (s.cluster (clusterOf s.cur.core)).rnscfg (s.slot n) u.rows u.cols
        (if q then .ok () else rnsTraps l)
        let rows := rnsRows l u.rows u.cols fun y => wrapInt 32 (clampInt true 32 y)
        .ok ((s.rnsDone n l).setTile t (u.written rows [])).advance)

/-- `adrain.rns.w` and `adrain.rns.w.q` (R160). -/
def execAdrainRnsW (c t u v : Nat) (q : Bool) (s : State) : Host.Outcome State Fault Refusal :=
  finish s (do
    let ta ← s.tileOf t
    let tb ← s.tileOf u
    drainTile t ta
    drainTile u tb
    need (ta.rows == tb.rows && ta.cols == tb.cols) (trapWith .tileShape (word u))
    let n ← s.rnsSlot c
    let op : QMem := .adrainRnsW c t u v q
    s.fromEngine op fun s => s.atVersion op n v fun s =>
      if (s.slot n).err then trapWith .uncorrectableData (word n)
      else do
        let l := rnsElements (s.cluster (clusterOf s.cur.core)).rnscfg (s.slot n) ta.rows ta.cols
        (if q then .ok () else rnsTraps l)
        let lo := rnsRows l ta.rows ta.cols fun y => wrapInt 64 y % 2 ^ 32
        let hi := rnsRows l ta.rows ta.cols fun y => wrapInt 64 y / 2 ^ 32
        .ok (((s.rnsDone n l).setTile t (ta.written lo [])).setTile u (tb.written hi [])).advance)

/-! ## RNS products and vector forms (R158, R162) -/

/-- `tmma.i8.i8` (R158). -/
def execTmmaI8I8 (c a b v : Nat) (s : State) : Host.Outcome State Fault Refusal :=
  finish s (do
    s.needRoom
    let t ← s.productTiles a b 9 9
    s.slotKind c true
    s.commitMatrix c v (.rnsI8 t.1 t.2))

/-- `tmma.rns.rns` (R158). -/
def execTmmaRnsRns (c a b v : Nat) (s : State) : Host.Outcome State Fault Refusal :=
  finish s (do
    s.needRoom
    let t ← s.productTiles a b 13 13
    s.slotKind c true
    s.commitMatrix c v (.rnsRes t.1 t.2))

/-- A vector RNS form over 32 elements (R162). -/
def State.rnsVector (s : State) (d a p : Nat) (c : Bool) (f : BitVec 10 → Nat → Nat) : Host.Outcome State Fault Refusal :=
  finish s (do
    let t ← s.vecWork false [a, d] [d] [p] [] fun s =>
      let cfg := (s.cluster (clusterOf s.cur.core)).rnscfg
      let r := mapLanes (s.active p c) 8 (fun x _ _ => (f cfg x, 0)) 0 (vElems 64 (s.vdata a)) (vElems 64 (s.vdata d))
        (vElems 64 (s.vdata d))
      (s.setV d (vJoin 64 r.1) none, 0)
    .ok t.advance)

/-- `rnsfwd` (R162). -/
def execRnsfwd (d a p : Nat) (c : Bool) (s : State) : Host.Outcome State Fault Refusal :=
  s.rnsVector d a p c fun _ x => packResidues (readInt true 64 x)

/-- `rnsrev` (R162). -/
def execRnsrev (d a p : Nat) (c : Bool) (s : State) : Host.Outcome State Fault Refusal :=
  s.rnsVector d a p c fun cfg x => wrapInt 64 (rnsReverse cfg x).1

/-- `rnsrev.st` (R162). -/
def execRnsrevSt (d a p : Nat) (c : Bool) (s : State) : Host.Outcome State Fault Refusal :=
  s.rnsVector d a p c fun cfg x => (rnsReverse cfg x).2.byte

/-- `rnsstat` (R162): the status of every element of a slot, read after the context's earlier matrix instructions on it complete. -/
def execRnsstat (d a : Nat) (s : State) : Host.Outcome State Fault Refusal :=
  finish s (do
    s.needRoom
    let t ← s.vAccess [] [d]
    let m := bits t.myCore.aslotmap (5 * a) 5
    if 16 ≤ m && t.slotBusy t.cur (m % 16) then waitRetry t
    else t.keepFaults (do
      t.slotKind a true
      let n ← t.slotName a
      need (t.mayUse n) (trapWith .accOwner (word n))
      let l := rnsElements (t.cluster (clusterOf t.cur.core)).rnscfg (t.slot n) 16 16
      .ok ((t.setV d (vJoin 8 (l.map fun e => e.2.2.byte)) none).enqueue (.vector ⟨0, false, [], [d]⟩)).advance))

/-! ## The engine at work (R26, R151) -/

/-- The credits and losses of the four cores of a cluster at a binding (R25): the winner, the credits and the losses after it. -/
def arbitrate (weight : Nat → Nat) (contenders : List Nat) (credit : SMap Int) (loss : SMap Nat) :
    Option (Nat × SMap Int × SMap Nat) :=
  let raised : SMap Int := contenders.map fun k => (k, smGet credit k 0 + (weight k : Int))
  let best : Option (Nat × Int) := raised.foldl (fun (b : Option (Nat × Int)) (e : Nat × Int) =>
    match b with
    | none => some e
    | some (c : Nat × Int) => if c.2 < e.2 then some e else some c) none
  let winner := match contenders.find? (fun k => 45 ≤ smGet loss k 0) with
    | some k => some k
    | none => best.map Prod.fst
  let sum : Int := contenders.foldl (fun n k => n + (weight k : Int)) 0
  winner.map fun w =>
    (w, raised.map (fun (e : Nat × Int) => if e.1 = w then (e.1, e.2 - sum) else e),
     (contenders.filter (· != w)).map fun k => (k, smGet loss k 0 + 1))

/-- The name and the version register of an uncommitted instruction that the matrix engine binds: a drain, or `astat`, which has no
version (R26). -/
def QMem.engineName : QMem → Option (Nat × Option Nat)
  | .adrain c _ v _ _ _ => some (c, some v)
  | .adrainRns c _ v _ => some (c, some v)
  | .adrainRnsW c _ _ v _ => some (c, some v)
  | .astat c _ => some (c, none)
  | _ => none

/-- The slot that a name of a core maps, whatever its V bit. -/
def Core.slotNumber (c : Core) (a : Nat) : Nat := bits c.aslotmap (5 * a) 5 % 16

/-- Whether a drain that is bound, and has not yet committed, works on a slot of a cluster. -/
def State.drainBound (s : State) (cl n : Nat) : Bool :=
  [0, 1, 2, 3].any fun k => match (s.core (4 * cl + k)).queue with
    | ⟨_, .memory op true⟩ :: _ => (match op.engineName with
        | some (a, some _) => (s.core (4 * cl + k)).slotNumber a == n
        | _ => false)
    | _ => false

/-- Whether matrix work may be bound: its version is met and the slot's earlier work has left the engine, and an `afree` has no
committed work on the slot before it in the cluster (R151, R157). -/
def State.matReady (s : State) (core n : Nat) (version : Option (BitVec 16)) (op : MatOp) : Bool :=
  let cl := s.cluster (clusterOf core)
  !s.drainBound (clusterOf core) n &&
  (match version with | some v => v == (cl.slot n).version | none => true) &&
  (match op with
   | .free => !cl.mat.any (fun w => w.slot == n) &&
       [0, 1, 2, 3].all fun k => 4 * clusterOf core + k == core ||
         !(s.core (4 * clusterOf core + k)).queue.any (fun e => e.onSlot n && !e.freesSlot n)
   | _ => version.isNone || !cl.mat.any (fun w => w.slot == n))

/-- Whether a waiting drain or `astat` at a head may be bound: a drain once its version is met and the slot's earlier work is complete,
`astat` once its context's earlier work on the slot is (R151, R157). -/
def State.waiterReady (s : State) (core k : Nat) (op : QMem) : Bool :=
  let cl := s.cluster (clusterOf core)
  match op.engineName with
  | none => false
  | some (a, v) =>
    let n := (s.core core).slotNumber a
    match v with
    | none => !s.slotBusy ⟨core, k⟩ n
    | some v => (cl.slot n).version == BitVec.ofNat 16 ((s.ctx ⟨core, k⟩).xreg v).toNat && !cl.mat.any (fun w => w.slot == n) &&
        !s.drainBound (clusterOf core) n

/-- Whether the head of a core's queue contends for the matrix engine (R26). -/
def State.matContends (s : State) (core : Nat) : Bool :=
  match (s.core core).queue with
  | ⟨_, .matrix n v op⟩ :: _ => s.matReady core n v op
  | ⟨k, .memory op false⟩ :: _ => s.waiterReady core k op
  | _ => false

/-- The head of a core's queue bound to the matrix engine: committed work leaves the queue, and a drain or `astat` is then carried out by its
context from the head (R23, R26). -/
def State.bindHead (s : State) (core : Nat) : State :=
  match (s.core core).queue with
  | ⟨k, .matrix n _ op⟩ :: _ =>
    (s.modCore core fun c => { c with queue := popQueue c.queue }).modCluster (clusterOf core) fun c =>
      { c with mat := c.mat ++ [⟨core, k, n, op⟩] }
  | ⟨k, .memory op _⟩ :: rest => s.modCore core fun c => { c with queue := ⟨k, .memory op true⟩ :: rest }
  | _ => s

/-- One binding of a cluster's matrix engine (R26). -/
def execMatrixEngineBinding (cl : Nat) (s : State) : Host.Outcome State Fault Refusal :=
  let c := s.cluster cl
  let heads := if s.running (4 * cl) then [0, 1, 2, 3].filter fun k => s.matContends (4 * cl + k) else []
  match arbitrate (fun k => (s.core (4 * cl + k)).vweight) heads c.mcredit c.mloss with
  | none => .next s
  | some (k, cr, ls) => .next ((s.bindHead (4 * cl + k)).modCluster cl fun c => { c with mcredit := cr, mloss := ls })

/-- The completion of the `k`-th bound work of a cluster's engine, once it is the first on its slot (R26, R151). -/
def execMatrixCompletion (cl k : Nat) (s : State) : Host.Outcome State Fault Refusal :=
  let c := s.cluster cl
  match c.mat[k]? with
  | none => .next s
  | some w =>
    if (c.mat.take k).any (fun u => u.slot == w.slot) then .next s
    else
      .next ((s.modSlot w.core w.slot fun t => t.complete w.op (w.core % 4, w.ctx)).modCluster cl fun c =>
        { c with mat := c.mat.eraseIdx k })

/-- One binding of a lane group of a cluster, the lowest that is free (R25). -/
def execLaneGroupBinding (cl : Nat) (s : State) : Host.Outcome State Fault Refusal :=
  let c := s.cluster cl
  let heads : List (Nat × LaneWork) := if !s.running (4 * cl) then [] else [0, 1, 2, 3].filterMap fun k =>
    match (s.core (4 * cl + k)).queue with
    | ⟨j, .vector w⟩ :: _ =>
      if c.lanes.any (fun (l : Nat × LaneWork) =>
        l.2.core == 4 * cl + k && l.2.ctx == j && w.reads.any (fun r => l.2.work.writes.contains r)) then none
      else some (k, (⟨4 * cl + k, j, w⟩ : LaneWork))
    | _ => (none : Option (Nat × LaneWork))
  match [0, 1, 2, 3].find? (fun l => !smHas c.lanes l) with
  | none => .next s
  | some lane =>
    match arbitrate (fun k => (s.core (4 * cl + k)).vweight) (heads.map (·.1)) c.vcredit c.vloss with
    | none => .next s
    | some (k, cr, ls) =>
      match heads.find? (fun h => h.1 == k) with
      | none => .next s
      | some (_, w) =>
        .next ((s.modCore (4 * cl + k) fun c => { c with queue := popQueue c.queue }).modCluster cl fun c =>
          { c with lanes := smSet c.lanes lane w, vcredit := cr, vloss := ls })

/-- The completion of the work on a lane group: its flags are recorded in its context's VSTAT (R68, R123). -/
def execVectorCompletion (cl lane : Nat) (s : State) : Host.Outcome State Fault Refusal :=
  match (s.cluster cl).lanes.find? (fun l => l.1 == lane) with
  | none => .next s
  | some (_, w) =>
    .next ((s.modCluster cl fun c => { c with lanes := smErase c.lanes lane }).modCtx ⟨w.core, w.ctx⟩ fun c =>
      { c with vstat := Sys2Proof.Machine.orFlags c.vstat w.work.flags })

end Sys2Proof.Machine
end

