-- ==== Sys2Proof/Machine/Groups.lean ====
section
/-! DEFINITION. Groups and their barriers, and how a helper starts and becomes FREE (R19, R27 to R29, R33, R106 to R111). -/

namespace Sys2Proof.Machine

open Sys2Proof

/-! ## Groups (R27, R28) -/

/-- A group of a partition. -/
def Partition.group (p : Partition) (g : Nat) : Group := smGet p.groups g {}

/-- The partition with a group replaced; a group without members has no state (R27). -/
def Partition.setGroup (p : Partition) (g : Nat) (v : Group) : Partition :=
  { p with groups := if v.members.isEmpty then smErase p.groups g else smSet p.groups g v }

/-- Whether a context is a member of a group. -/
def Partition.isMember (p : Partition) (i : CtxId) (g : Nat) : Bool := (p.group g).members.contains i

/-- GROUPS of a context: the mask of the groups it belongs to (R27). -/
def State.groupsMask (s : State) (i : CtxId) : Word :=
  let p := s.part (s.core i.core).partid
  word ((List.range 64).foldl (fun n g => if p.isMember i g then n + 2 ^ g else n) 0)

/-- Whether an episode is complete: every expected member, or the expected count of members, has arrived (R28). -/
def Episode.complete (e : Episode) (b : Nat) : Bool :=
  if b = 0 then e.expected.all e.arrived.contains else e.arrived.length == e.count

/-- A context released from a barrier: it goes on behind its `gbar` (R110). -/
def Ctx.release (c : Ctx) : Ctx := { c with wait := .none, pc := c.pc + 4 }

/-- The contexts of a list released. -/
def State.releaseAll (s : State) (l : List CtxId) : State := l.foldl (fun s i => s.modCtx i Ctx.release) s

/-- An episode's end, if it is complete: its arrivals go on, and the next arrival opens a new one (R28, R110). -/
def State.closeEpisode (s : State) (p g b : Nat) : State :=
  let gr := (s.part p).group g
  match gr.bars.find? (fun e => e.1 == b) with
  | none => s
  | some (_, e) =>
    if e.complete b then
      (s.modPart p fun q => q.setGroup g { gr with bars := smErase gr.bars b }).releaseAll e.arrived
    else s

/-- A context's departure from a group (R28): it stops being expected, which may complete open episodes. -/
def State.depart (s : State) (p : Nat) (i : CtxId) (g : Nat) : State :=
  let gr := (s.part p).group g
  let bars := gr.bars.map fun e =>
    (e.1, { e.2 with expected := e.2.expected.filter (· != i), arrived := e.2.arrived.filter (· != i) })
  let bars := bars.filter fun e => !e.2.arrived.isEmpty
  let s := s.modPart p fun q => q.setGroup g { gr with members := gr.members.filter (· != i), bars := bars }
  (smKeys bars).foldl (fun s b => s.closeEpisode p g b) s

/-- A context's departure from every group (R27). -/
def State.departAll (s : State) (i : CtxId) : State :=
  let p := (s.core i.core).partid
  ((List.range 64).filter ((s.part p).isMember i)).foldl (fun s g => s.depart p i g) s

/-- An arrival at a barrier (R28): the context waits, and a complete episode ends. A context that joined the group while an episode of
barrier 0 is open, and arrives before that episode completes, arrives in it and is released with it, though it is not expected in it: the
manual does not say to which episode its arrival belongs (DESIGN CHOICE, log entry 100). -/
def State.arriveAt (s : State) (i : CtxId) (g b count : Nat) : State :=
  let p := (s.core i.core).partid
  let gr := (s.part p).group g
  let e := match gr.bars.find? (fun e => e.1 == b) with
    | some (_, e) => e
    | none => ⟨count, if b = 0 then gr.members else [], []⟩
  let s := s.modPart p fun q => q.setGroup g { gr with bars := smSet gr.bars b { e with arrived := e.arrived ++ [i] } }
  (s.modCtx i fun c => { c with wait := .gbar g b }).closeEpisode p g b

/-! ## FREE and LIVE (R19, R107, R108) -/

/-- A context's open instances discarded (R363). -/
def State.dropInstances (s : State) (i : CtxId) : State :=
  s.modCluster (clusterOf i.core) fun c => { c with apx := c.apx.map fun a => (a.1, a.2.close i) }

/-- A context that becomes FREE: it leaves every group, and its registers take their reset values (R108). -/
def State.freeCtx (s : State) (i : CtxId) : State :=
  ((s.departAll i).dropInstances i).modCtx i fun _ => freshCtx i.ctx

/-- A helper made FREE other than by `hexit`: its entries are discarded and not awaited (R19). -/
def State.makeFree (s : State) (i : CtxId) : State :=
  let s := s.modCore i.core fun c => { c with queue := (c.queue.filter fun e => e.ctx != i.ctx).dropWhile QEntry.passes }
  let s := s.modCluster (clusterOf i.core) fun c =>
    { c with lanes := c.lanes.filter fun l => !(l.2.core == i.core && l.2.ctx == i.ctx) }
  s.freeCtx i

/-- The entry state of a fresh context (R107): its argument in x1 and its pc. -/
def startedCtx (k : Nat) (pc : Word) (args : List Word) : Ctx :=
  let c := freshCtx k
  { c with life := .live, pc := pc, x := (args.zipIdx).foldl (fun x e => smSet x (e.2 + 1) e.1) c.x }

/-- Start_fresh of R107: the helper joins the starter's slice group and takes its SLICE, DEADLINE and BUDGET. -/
def State.startHelper (s : State) (h : Nat) (pc val : Word) : State :=
  let me := s.me
  let s := s.modCtx ⟨s.cur.core, h⟩ fun _ =>
    { startedCtx h pc [val] with slice := me.slice, deadline := me.deadline, budget := me.budget, group := me.group }
  s.modGroup s.cur fun g => { g with members := g.members ++ [h] }

end Sys2Proof.Machine
end

