-- ==== Sys2Proof/Machine/Controller.lean ====
section
/-! DEFINITION. The queue controller: QTAB, descriptors, launches, edges, reservation, selection, placement, completion and
re-execution of slices (R32 to R34, R220, R224 to R245). -/

namespace Sys2Proof.Machine

open Sys2Proof

/-! ## The controller's accesses (R276) -/

/-- The controller of a partition as a requester: the translation of the supervisor's core, at privilege S. -/
def State.ctlReq (s : State) (p : Nat) : Req :=
  let c := (s.part p).supervisor
  { core := c, ctx := 0, priv := 1, ptroot := (s.core c).ptroot, eng := some 2, direct := true }

/-- `n` consecutive 8-byte words read. -/
def State.readWords (s : State) (rq : Req) (va n : Nat) : Except MemErr (List Nat × State) :=
  match s.loadBytes rq (vaRange va (8 * n)) with
  | .error e => .error e
  | .ok (l, s) => .ok (elemsOf 64 n (bytesToNat l), s)

/-- The failure of an engine command whose access failed (R251). -/
def MemErr.failure : MemErr → Failure
  | .xlat f _ => ⟨1, word f.va⟩
  | .page _ va => ⟨1, word va⟩
  | .pure v => ⟨1, word v⟩
  | .counted _ va => ⟨3, word (lineOf va)⟩
  | .capacity _ va => ⟨12, word va⟩
  | .unreachable _ va _ => ⟨1, word va⟩
  | .data va => ⟨4, word va⟩

/-! ## Queues (R225 to R227, R243) -/

/-- QTAB.EN. -/
def Partition.queuesOn (p : Partition) : Bool := p.qtab.getLsbD 0
/-- The descriptor address of a queue. -/
def Partition.descriptor (p : Partition) (q : Nat) : Nat := bits p.qtab 11 44 * 2048 + 64 * q

/-- A queue in service. -/
def State.queueOf (s : State) (p q : Nat) : Option Queue :=
  if (s.part p).queuesOn then
    match (s.part p).queues.find? (fun e => e.1 == q) with
    | some (_, x) => if x.on then some x else none
    | none => none
  else none

/-- The bytes of a queue's entries. -/
def Queue.entryBytes (x : Queue) : Nat := 2 ^ x.elog
/-- The address of ring entry `c` (R226). -/
def Queue.entry (x : Queue) (c : Nat) : Nat := (x.base.toNat + c % 2 ^ x.logn * x.entryBytes) % 2 ^ 64

/-- Word 1 of a descriptor in service (R226). -/
def Queue.word1 (x : Queue) : Nat := x.logn + (!x.task).toNat * 256 + x.elog * 512 + 2 ^ 15 + x.stop.toNat * 2 ^ 16

/-- A descriptor's write-back (R226); a failed one raises reason 4 (R243). -/
def State.writeBack (s : State) (p q : Nat) : State :=
  match s.queueOf p q with
  | none => s
  | some x =>
    let s := s.modQueue p q fun x => { x with dirty := false }
    let data := [x.word1, x.tail, x.head, x.retire, x.restarts % 2 ^ 32].flatMap (natToBytes 8)
    match s.storeBytes (s.ctlReq p) (vaRange ((s.part p).descriptor q + 8) 40) data with
    | .ok s => s
    | .error _ => (s.modQueue p q fun x => { x with stop := true }).queueFault p q 0 4

/-- A descriptor read as eight words: the queue, or none where a field is out of range (R226). -/
def parseDescriptor (w : List Nat) : Option Queue :=
  let g := fun i => w.getD i 0
  let logn := g 1 % 32
  let task := g 1 / 256 % 2 == 0
  let elog := g 1 / 512 % 32
  let clean := g 1 / 32 % 8 == 0 && g 1 / 2 ^ 14 % 2 == 0 && g 1 / 2 ^ 17 == 0 && g 5 / 2 ^ 32 == 0 && g 6 == 0 && g 7 == 0
  if clean && 1 ≤ logn && logn ≤ 16 && (if task then elog == 6 else 3 ≤ elog && elog ≤ 8) && g 0 % 2 ^ elog == 0 then
    some { base := word (g 0), logn := logn, task := task, elog := elog, tail := g 2, head := g 3, retire := g 4,
           restarts := g 5, stop := false }
  else none

/-! ## Launches (R228 to R233, R284) -/

/-- A launch record read as eight words (R228), or none where a reserved field is set or both RST and PAIR are (R230). -/
def parseLaunch (w : List Nat) : Option Launch :=
  let g := fun i => w.getD i 0
  let rst := g 0 / 2 ^ 16 % 2 == 1
  let pair := g 0 / 2 ^ 17 % 2 == 1
  if g 0 / 2 ^ 18 % 2 ^ 14 != 0 || g 0 / 2 ^ 48 != 0 || g 1 / 2 ^ 48 != 0 || g 3 / 2 ^ 32 != 0 || g 5 / 2 ^ 32 != 0 || g 7 != 0
      || (rst && pair) then none
  else some ⟨g 0 % 65536, rst, pair, g 1 % 65536, g 1 / 2 ^ 16 % 65536, g 1 / 2 ^ 32 % 65536, word (g 2), g 3 % 2 ^ 32,
    word (g 4), g 5 % 65536, g 5 / 2 ^ 16 % 65536, word (g 6)⟩

/-- A task-type entry read as four words (R284). -/
def parseTask (w : List Nat) : Option TaskType :=
  let g := fun i => w.getD i 0
  let t : TaskType := ⟨word (g 0), g 1 % 16, g 1 / 16 % 512, g 1 / 2 ^ 13 % 64, g 1 / 2 ^ 19 % 8, g 2 % 2 ^ 32⟩
  if g 0 % 4 != 0 || t.h == 0 || 10 < t.h || 256 < t.v || 40 < t.t || 4 < t.a || g 1 / 2 ^ 22 != 0 || g 2 / 2 ^ 32 != 0 || g 3 != 0
  then none else some t

/-- The number of slices of a launch (R231). -/
def Launch.total (l : Launch) : Nat := l.nx * l.ny * l.nz

/-- The slots that a core's ASLOTMAP maps (R92, R235), lowest first. -/
def Core.mapped (c : Core) : List Nat :=
  (List.range 16).filter fun n => [0, 1, 2, 3].any fun k => bits c.aslotmap (5 * k) 5 == 16 + n

/-- The scratch bytes of a core in flow mode (R170). -/
def Core.scratchBytes (c : Core) : Nat := 0x80000 - c.cacheBytes

/-- Whether some core of a partition could meet a slice's demands with every resource free (R235). -/
def State.meetable (s : State) (p : Nat) (t : TaskType) : Bool :=
  (s.part p).cores.any fun n => t.a ≤ (s.core n).mapped.length && t.b ≤ (s.core n).scratchBytes

/-- The launch at the head of a queue read with its task-type entry, or the reason of the QUEUE_FAULT (R230, R235, R284). -/
def State.readLaunch (s : State) (p : Nat) (x : Queue) : Except Nat (Launch × TaskType × State) :=
  match s.readWords (s.ctlReq p) (x.entry x.head) 8 with
  | .error _ => .error 4
  | .ok (w, s) =>
    match parseLaunch w with
    | none => .error 5
    | some l =>
      if bits (s.part p).ttn 0 17 ≤ l.tti then .error 5
      else
        match s.readWords (s.ctlReq p) (bits (s.part p).ttab 5 50 * 32 + 32 * l.tti) 4 with
        | .error _ => .error 4
        | .ok (w, s) =>
          match parseTask w with
          | none => .error 5
          | some t => if l.total != 0 && !s.meetable p t then .error 1 else .ok (l, t, s)

/-- The launch at the head of a queue. -/
def Queue.headProg (x : Queue) : Option LaunchProg := x.progs.find? fun l => l.on && l.count == x.head

/-- The queue with the launch read at its head: a new one, or the one whose slices are being placed, read again (R225, R230). -/
def Queue.setHead (x : Queue) (id : Nat) (l : Launch) (t : TaskType) : Queue :=
  { x with progs := match x.headProg with
      | some h => x.progs.map fun g => if g.id = h.id then { g with launch := l, tt := t } else g
      | none => x.progs ++ [{ id := id, count := x.head, launch := l, tt := t, placed := 0, done := 0 }] }

/-- The launch record at a queue's head read (R230). -/
def State.readHead (s : State) (p q : Nat) : State :=
  match s.queueOf p q with
  | none => s
  | some x =>
    if !x.task || x.stop || x.tail ≤ x.head then s
    else
      match s.readLaunch p x with
      | .error r => s.stopQueue p q x.head r
      | .ok (l, t, s) =>
        (s.modQueue p q fun x => x.setHead (s.part p).launchNext l t).modPart p fun pt => { pt with launchNext := pt.launchNext + 1 }

/-- A queue's new head: its skip count is zeroed, and its launch is read (R230, R237). -/
def State.newHead (s : State) (p q : Nat) : State :=
  match s.queueOf p q with
  | none => s
  | some x =>
    let s := s.modQueue p q fun x => { x with skip := 0, urgent := none }
    if x.headProg.isSome then s else s.readHead p q

/-- Whether every slice of a launch is complete, or a launch whose copies differed has been replaced (R232, R400). -/
def LaunchProg.complete (l : LaunchProg) : Bool := l.launch.total ≤ l.done

/-- RETIRE past every complete launch behind it (R232). -/
def Queue.retireAll (x : Queue) : Nat → Queue
  | 0 => x
  | fuel + 1 =>
    match x.progs.find? (fun l => l.on && l.count == x.retire && x.retire < x.head && l.complete) with
    | none => x
    | some l => Queue.retireAll
        { x with retire := x.retire + 1, dirty := true, progs := x.progs.filter fun k => k.id != l.id } fuel

/-- Whether an address is a launch record's in a task queue of a partition (R229, R234). While QTAB.EN is 0, as for slices that run on after
a write of it, the partition has no task queues, and every DEP counts as outside them (DESIGN CHOICE, log entry 102). -/
def State.recordAt (s : State) (p va : Nat) : Bool :=
  (s.part p).queuesOn && (s.part p).queues.any fun e =>
    e.2.on && e.2.task && e.2.base.toNat ≤ va && va < e.2.base.toNat + 64 * 2 ^ e.2.logn && (va - e.2.base.toNat) % 64 == 0

/-- One edge's decrement of GATE at a record (R234): the reason of its QUEUE_FAULT, or 0, and the state after it. -/
def State.decrementGate (s : State) (p va : Nat) : Nat × State :=
  if !s.recordAt p va then (3, s)
  else
    match s.atomicBytes (s.ctlReq p) va 8 (fun w => if w / 2 ^ 32 % 65536 = 0 then w else w - 2 ^ 32) with
    | .error _ => (4, s)
    | .ok (old, s) => (if old / 2 ^ 32 % 65536 = 0 then 2 else 0, s)

/-- One edge of a completion publish (R234). -/
def State.publishEdge (s : State) (p q count : Nat) (edge : Nat) : State :=
  let r := match s.readWords (s.ctlReq p) edge 1 with
    | .error _ => (4, s)
    | .ok (w, s) => s.decrementGate p (w.headD 0)
  if r.1 = 0 then r.2 else r.2.stopQueue p q count r.1

/-- The completion publish of a launch: every edge in order, then RETIRE, which a queue that is out of service advances when QTAB is next
loaded (R225, R232, R234). -/
def State.publishLaunch (s : State) (p q : Nat) (l : LaunchProg) : State :=
  let s := (List.range l.launch.outn).foldl (fun s i => s.publishEdge p q l.count ((l.launch.outptr.toNat + 32 * i) % 2 ^ 64)) s
  s.modQueue p q fun x => if x.on then x.retireAll (x.progs.length + 1) else x

/-! ## QTAB (R225) -/

/-- What a queue that comes into service keeps of the queue of its number: the launches in progress, and the re-execution list. A launch stays
in the ring where the ring is the same one and HEAD and RETIRE have it behind the head, or at a head that has not moved; of another, only
its slices run on, and its completion publish is to come (R225; log entry 101). -/
def Queue.after (x y : Queue) : Queue :=
  let stays := fun (l : LaunchProg) => l.on && y.base == x.base && y.logn == x.logn &&
    (decide (x.retire ≤ l.count && l.count < x.head) || (l.count == x.head && y.head == x.head))
  { x with
    reexec := y.reexec
    progs := (y.progs.map fun l => { l with on := stays l }).filter fun l => l.on || (!l.failed && !l.complete) }

/-- One descriptor read at a QTAB write: a queue comes into service, or a fault is raised (R225, R226, R243). -/
def State.loadQueue (s : State) (p q : Nat) : State :=
  let va := (s.part p).descriptor q
  match s.readWords (s.ctlReq p) va 8 with
  | .error _ => s.queueFault p q 0 4
  | .ok (w, s) =>
    if w.getD 1 0 / 2 ^ 15 % 2 = 0 then s
    else
      match parseDescriptor w with
      | none =>
        let s := s.queueFault p q 0 5
        (match s.storeBytes (s.ctlReq p) (vaRange (va + 8) 8)
            (natToBytes 8 (if w.getD 1 0 / 2 ^ 16 % 2 = 1 then w.getD 1 0 else w.getD 1 0 + 2 ^ 16)) with
         | .ok s => s
         | .error _ => s)
      | some x =>
        let x := match (s.part p).queues.find? (fun e => e.1 == q) with
          | some (_, y) => x.after y
          | none => x
        (s.modPart p fun pt => { pt with queues := smSet pt.queues q (x.retireAll (x.progs.length + 1)) }).readHead p q

/-- A write of QTAB (R225). -/
def State.writeQtab (s : State) (p : Nat) (v : Word) : State :=
  let s := if (s.part p).queuesOn then (smKeys (s.part p).queues).foldl (fun s q => s.writeBack p q) s else s
  let s := s.modPart p fun pt => { pt with
    qtab := word (bits v 0 1 + bits v 11 44 * 2048), queues := pt.queues.map fun e => (e.1, { e.2 with on := false }) }
  if v.getLsbD 0 then (List.range 32).foldl (fun s q => s.loadQueue p q) s else s

/-! ## Reservation (R235) -/

/-- The FREE helpers of a core that no slice has reserved, lowest first. -/
def Core.freeHelpers (c : Core) : List Nat :=
  helperNumbers.filter fun h => (c.ctx h).life == .free && !c.slices.any fun g => g.2.helpers.contains h

/-- The slice groups on a cluster. -/
def State.clusterGroups (s : State) (cl : Nat) : List SliceGroup := [0, 1, 2, 3].flatMap fun k => (s.core (4 * cl + k)).slices.map (·.2)

/-- The slots of a core that a slice may reserve now. -/
def State.freeSlots (s : State) (core : Nat) : List Nat :=
  let cl := clusterOf core
  (s.core core).mapped.filter fun n =>
    let t := (s.cluster cl).slot n
    t.owner.isNone && !t.parked && !(s.clusterGroups cl).any fun g => g.slots.contains n

/-- Whether a slice fits a core: the helpers and slots that it would reserve (R235). -/
def State.fits (s : State) (core : Nat) (t : TaskType) : Option (List Nat × List Nat) :=
  let c := s.core core
  let hs := c.freeHelpers
  let sl := s.freeSlots core
  let v := (s.clusterGroups (clusterOf core)).foldl (fun n g => n + g.tt.v) 0
  let b := c.slices.foldl (fun n g => n + g.2.tt.b) 0
  if t.h ≤ hs.length && v + t.v ≤ 256 && t.t ≤ c.freeTiles && t.a ≤ sl.length && b + t.b ≤ c.scratchBytes then
    some (hs.take t.h, sl.take t.a)
  else none

/-- |Δcol| + |Δrow| of two cores' clusters (R241). -/
def meshDistance (a b : Nat) : Nat :=
  let d := fun (x y : Nat) => (x - y) + (y - x)
  d (clusterOf a % 16) (clusterOf b % 16) + d (clusterOf a / 16) (clusterOf b / 16)

/-- The cores on which the second copy of a paired slice fits (R241). -/
def State.secondCores (s : State) (p core : Nat) (t : TaskType) : List Nat :=
  (s.part p).cores.filter fun n => 2 ≤ meshDistance n core && (s.fits n t).isSome

/-- Whether a launch's slice fits a core, with its second copy if it is paired. -/
def State.launchFits (s : State) (p core : Nat) (l : LaunchProg) : Bool :=
  (s.fits core l.tt).isSome && (!l.launch.pair || !(s.secondCores p core l.tt).isEmpty)

/-! ## Placement (R33, R220, R231) -/

/-- The regions of a list of edge records, as base and length, and whether every record could be read (R220, R243). -/
def State.edgeRegions (s : State) (rq : Req) : List Nat → State × Bool × List (Nat × Nat)
  | [] => (s, true, [])
  | e :: rest =>
    match s.readWords rq e 3 with
    | .ok (w, s) =>
      let r := State.edgeRegions s rq rest
      (r.1, r.2.1, (w.getD 1 0, w.getD 2 0 % 2 ^ 32) :: r.2.2)
    | .error _ =>
      let r := State.edgeRegions s rq rest
      (r.1, false, r.2.2)

/-- The lines of a core's cache portion in regions, translated as the core's loads (R220). -/
def State.regionLines (s : State) (core : Nat) (regions : List (Nat × Nat)) : List Nat :=
  let rq : Req := { core := core, ctx := 0, priv := 1, ptroot := (s.core core).ptroot }
  let parts := regions.flatMap fun r => (regionParts r.1 r.2).filterMap fun k =>
    match s.translate rq .load k.1 with
    | .ok x => some (x, k.2)
    | .error _ => none
  (smKeys (s.core core).lc).filter (inRegion parts)

/-- The cache work at a list of edges (R220): `f` on each cached line of their regions. A record that cannot be read stops the queue, with
reason 4 (R243). -/
def State.edgeWork (s : State) (p q count core : Nat) (edges : List Nat) (f : State → Nat → State) : State :=
  let r := s.edgeRegions (s.ctlReq p) edges
  let s := if r.2.1 then r.1 else r.1.stopQueue p q count 4
  (s.regionLines core r.2.2).foldl f s

/-- The outgoing edge records of a launch. -/
def Launch.outEdges (l : Launch) : List Nat := (List.range l.outn).map fun i => (l.outptr.toNat + 32 * i) % 2 ^ 64

/-- The cache work before a slice's first instruction: the lines of its incoming regions are dropped (R220). An INPTR array that cannot be
read stops the queue, with reason 4 (R243). -/
def State.dropIncoming (s : State) (p q core : Nat) (l : LaunchProg) : State :=
  match s.readWords (s.ctlReq p) l.launch.inptr.toNat l.launch.inn with
  | .error _ => s.stopQueue p q l.count 4
  | .ok (w, s) => s.edgeWork p q l.count core w fun s n => s.modCore core fun c => { c with lc := smErase c.lc n }

/-- One copy of a slice placed on a core with what it reserves (R33, R231). -/
def State.placeCopy (s : State) (p q core : Nat) (l : LaunchProg) (k failures : Nat) (r : List Nat × List Nat) (other : Option Nat) :
    State :=
  let h := r.1.headD 1
  let x := k % l.launch.nx
  let y := k / l.launch.nx % l.launch.ny
  let z := k / (l.launch.nx * l.launch.ny)
  let g : SliceGroup := ⟨l.id, q, l.count, k, l.launch, l.tt, r.1, [h], r.2, word l.launch.budget, l.launch.budget != 0,
    word l.launch.budget, false, l.launch.rst && failures < 2, failures, other, false⟩
  let s := (s.dropIncoming p q core l).modCore core fun c => { c with slices := smSet c.slices h g }
  s.modCtx ⟨core, h⟩ fun _ => { startedCtx h l.tt.pc [word x, word y, word z] with
    slice := word (q % 32 * 2 ^ 32 + l.count % 2 ^ 32), deadline := l.launch.deadline, budget := word l.launch.budget,
    group := some h }

/-- Slice `k` of a launch placed on a core, both copies together if it is paired (R241). -/
def State.placeSlice (s : State) (p q core : Nat) (l : LaunchProg) (k failures : Nat) : State :=
  match s.fits core l.tt with
  | none => s
  | some r =>
    let s := s.progress core
    if l.launch.pair then
      let cs := s.secondCores p core l.tt
      let n := cs.getD (Config.freeChoice s.freeIdx % cs.length) core
      match s.fits n l.tt with
      | none => s
      | some r2 => (s.drawn.placeCopy p q core l k failures r (some n)).placeCopy p q n l k failures r2 (some core)
    else s.placeCopy p q core l k failures r none

/-- HEAD past a launch whose slices are all placed (R232). -/
def State.afterPlacement (s : State) (p q : Nat) : State :=
  match s.queueOf p q with
  | none => s
  | some x =>
    match x.headProg with
    | some l =>
      if l.launch.total ≤ l.placed then
        (s.modQueue p q fun x => ({ x with head := x.head + 1, dirty := true } : Queue).retireAll (x.progs.length + 1)).newHead p q
      else s
    | none => s

/-! ## Selection (R236, R237, R240) -/

/-- Whether the controller makes selections for a core now (R236). -/
def State.selects (s : State) (core : Nat) : Bool :=
  match s.partOf core with
  | none => false
  | some p =>
    let pt := s.part p
    pt.live && pt.stopped.isNone && !pt.mode && pt.queuesOn && !(s.core core).freeHelpers.isEmpty

/-- GATE of the head's record, read again (R230). -/
def State.readGate (s : State) (p : Nat) (x : Queue) : Except MemErr (Nat × State) :=
  match s.readWords (s.ctlReq p) (x.entry x.head) 1 with
  | .error e => .error e
  | .ok (w, s) => .ok (w.headD 0 / 2 ^ 32 % 65536, s)

/-- The candidates among queues (R236), and the state after their gates were read. -/
def State.candidates (s : State) (p : Nat) : List Nat → State × List (Nat × Queue × LaunchProg)
  | [] => (s, [])
  | q :: rest =>
    let skip := State.candidates s p rest
    match s.queueOf p q with
    | none => skip
    | some x =>
      match x.headProg with
      | none => skip
      | some l =>
        if x.stop || l.failed || l.launch.total ≤ l.placed then skip
        else
          match s.readGate p x with
          | .error _ => State.candidates (s.stopQueue p q x.head 4) p rest
          | .ok (n, s) =>
            let r := State.candidates s p rest
            if n = 0 then (r.1, (q, x, l) :: r.2) else r

/-- The oldest entry of the re-execution lists that fits a core, the lowest queue first (R240). -/
def State.reexecFor (s : State) (p core : Nat) : Option (Nat × Reexec × LaunchProg) :=
  (smKeys (s.part p).queues).findSome? fun q =>
    match s.queueOf p q with
    | none => none
    | some x =>
      if x.stop then none else
      x.reexec.findSome? fun e =>
        match x.progs.find? (fun l => l.id == e.launchId) with
        | some l => if e.core != core && s.launchFits p core l then some (q, e, l) else none
        | none => none

/-- The candidate that a selection places on a core (R236). -/
def State.chooseHead (s : State) (p core : Nat) (cands : List (Nat × Queue × LaunchProg)) : Option (Nat × Queue × LaunchProg) :=
  let urgent := cands.filter fun c => c.2.1.urgent.isSome
  let oldest := urgent.foldl (fun (b : Option (Nat × Queue × LaunchProg)) c =>
    match b with
    | none => some c
    | some d => if c.2.1.urgent.getD 0 < d.2.1.urgent.getD 0 then some c else b) none
  match oldest with
  | some c => if s.launchFits p core c.2.2 then some c else none
  | none =>
    (cands.filter fun c => s.launchFits p core c.2.2).foldl (fun (b : Option (Nat × Queue × LaunchProg)) c =>
      match b with
      | none => some c
      | some d => if c.2.2.launch.deadline < d.2.2.launch.deadline then some c else b) none

/-- The skips of a placement from a head that is not urgent (R237). -/
def State.addSkips (s : State) (p q : Nat) (cands : List (Nat × Queue × LaunchProg)) : State :=
  let stamp := (s.part p).urgentNext
  (cands.filter fun c => c.1 != q).foldl (fun s c => s.modQueue p c.1 fun x =>
    let n := min 64 (x.skip + 1)
    { x with skip := n, urgent := if n = 64 && x.urgent.isNone then some stamp else x.urgent })
    (s.modPart p fun pt => { pt with urgentNext := stamp + 1 })

/-- A selection for a core (R236, R237, R240). -/
def State.select (s : State) (p core : Nat) : State :=
  match s.reexecFor p core with
  | some (q, e, l) => (s.modQueue p q fun x => { x with reexec := x.reexec.erase e }).placeSlice p q core l e.k e.failures
  | none =>
    let r := s.candidates p (smKeys (s.part p).queues)
    match r.1.chooseHead p core r.2 with
    | none => r.1
    | some (q, x, l) =>
      let t := if x.urgent.isSome then r.1 else r.1.addSkips p q r.2
      let t := t.placeSlice p q core l l.placed 0
      let t := t.modQueue p q fun x => { x with
        skip := 0, urgent := none, progs := x.progs.map fun m => if m.id = l.id then { m with placed := m.placed + 1 } else m }
      t.afterPlacement p q

/-- A selection event of a core (R236). -/
def execSliceSelection (core : Nat) (s : State) : Host.Outcome State Fault Refusal :=
  .next (match s.partOf core with
    | some p => if s.selects core then s.select p core else s
    | none => s)

/-- A zero-slice launch that heads a queue with GATE 0 completes (R233). -/
def execZeroSliceLaunch (part q : Nat) (s : State) : Host.Outcome State Fault Refusal :=
  .next (match s.queueOf part q with
    | none => s
    | some x =>
      match x.headProg with
      | none => s
      | some l =>
        if x.stop || l.launch.total != 0 || (s.part part).mode || (s.part part).stopped.isSome then s
        else
          match s.readGate part x with
          | .error _ => s.stopQueue part q x.head 4
          | .ok (n, s) =>
            if n != 0 then s
            else ((s.modQueue part q fun x => { x with head := x.head + 1, dirty := true }).publishLaunch part q l).newHead part q)

/-- A descriptor's write-back by the controller (R226). -/
def execDescriptorWriteback (part q : Nat) (s : State) : Host.Outcome State Fault Refusal := .next (s.writeBack part q)

/-! ## Completion (R34, R220, R232) -/

/-- A slice's completion: its cache work, its part of the completion publish, and the publish of a complete launch. A slice whose copies
differed publishes nothing (R400). -/
def State.completeSlice (s : State) (core : Nat) (g : SliceGroup) : State :=
  let p := (s.core core).partid
  let s := s.edgeWork p g.queue g.count core g.launch.outEdges fun s n => s.cleanLine core n false
  let other := match g.pairCore with
    | some n => (s.core n).slices.any fun h => h.2.launchId == g.launchId && h.2.k == g.k
    | none => false
  if g.mismatch || other then s
  else
    let s := s.modQueue p g.queue fun x =>
      { x with progs := x.progs.map fun l => if l.id = g.launchId then { l with done := l.done + 1 } else l }
    match ((s.part p).queues.find? (fun e => e.1 == g.queue)).bind (fun e => e.2.progs.find? (fun l => l.id == g.launchId)) with
    | none => s
    | some l =>
      if l.failed || l.launch.total != l.done then s
      else (s.publishLaunch p g.queue l).modQueue p g.queue fun x => { x with progs := x.progs.filter fun k => k.on || k.id != l.id }

/-- A context's exit from its slice group; the last one releases the reservations and completes the slice (R34). -/
def State.exitSlice (s : State) (core g h : Nat) : State :=
  match (s.core core).slices.find? (fun e => e.1 == g) with
  | none => s
  | some (_, x) =>
    let left := x.members.filter (· != h)
    if left.isEmpty then (s.modCore core fun c => { c with slices := smErase c.slices g }).completeSlice core x
    else s.modCore core fun c => { c with slices := smSet c.slices g { x with members := left } }

/-! ## Re-execution (R239, R240) -/

/-- A slot freed with its data undefined (R239). -/
def Slot.freed (t : Slot) (n : Nat) : Slot :=
  { t.unpark with owner := none, data := Config.freeSlot n, res := Config.freeResidues n }

/-- The slots that a context of a core owns, freed with their data undefined (R239). -/
def State.freeSlotsOf (s : State) (core : Nat) (ks : List Nat) : State :=
  s.modCluster (clusterOf core) fun c => { c with slots := (c.slots.zipIdx).map fun e =>
    match e.1.2.owner with
    | some (k, j) =>
      if k = core % 4 && ks.contains j then
        (e.1.1, e.1.2.freed (s.freeIdx + e.2))
      else e.1
    | none => e.1 }

/-- A slice abandoned and put into its queue's re-execution list (R239). -/
def State.reexecute (s : State) (p core g : Nat) (x : SliceGroup) : State :=
  let s : State := { (s.freeSlotsOf core x.members) with freeIdx := s.freeIdx + 16 }
  let s := x.members.foldl (fun s h => s.makeFree ⟨core, h⟩) s
  let s := s.modCore core fun c => { c with slices := smErase c.slices g }
  s.modQueue p x.queue fun y =>
    { y with restarts := y.restarts + 1, dirty := true, reexec := y.reexec ++ [⟨x.launchId, x.k, core, x.failures + 1⟩] }

/-- UNCORRECTABLE_DATA for a core's control context (R387). -/
def State.coreError (s : State) (core : Nat) : State := s.raise ⟨core, 0⟩ .uncorrectableData 0 none

/-- A restartable slice whose core met a hardware error (R239): its contexts become FREE, its reservations are released, and it
enters the re-execution list; a full list makes it non-restartable, and the error is then the core's (R240). -/
def execSliceReexecution (core g : Nat) (s : State) : Host.Outcome State Fault Refusal :=
  .next (match (s.core core).slices.find? (fun e => e.1 == g) with
    | none => s
    | some (_, x) =>
      let p := (s.core core).partid
      if !x.restartable then s
      else if (s.part p).reexecFull x.queue then (s.refuseReexec core g x).coreError core
      else s.reexecute p core g x)

/-! ## Queue commands (R227, R261) -/

/-- The end of a queue command: the state, and the command's failure. -/
abbrev CmdEnd := State × Option Failure

/-- A command that fails. -/
def failed (s : State) (code v : Nat) : CmdEnd := (s, some ⟨code, word v⟩)

/-- A ring access of the controller that failed: translation raises reason 4 as well (R243, R437). -/
def State.ringFailed (s : State) (p q count : Nat) (e : MemErr) : CmdEnd :=
  match e with
  | .counted .. => (s, some e.failure)
  | _ => (s.stopQueue p q count 4, some e.failure)

/-- The queue with its oldest launch whose copies differed replaced by the launch that has just been published: it is behind the head, and
complete without a completion publish (R400; log entry 104). -/
def Queue.replaceFailed (x : Queue) : Queue :=
  match x.progs.find? (fun l => l.on && l.failed && !l.complete) with
  | none => x
  | some l => { x with progs := x.progs.map fun k =>
      if k.id = l.id then { k with placed := k.launch.total, done := k.launch.total } else k }

/-- The state after a publish to a task queue: a launch that it replaces leaves the head and is retired (R232, R400). -/
def State.afterPublish (s : State) (p q : Nat) : State :=
  let t := s.modQueue p q Queue.replaceFailed
  let t := if (s.queueOf p q).any fun x => x.progs.any (·.failed) then
      (t.modQueue p q fun x => x.retireAll (x.progs.length + 1)).afterPlacement p q else t
  if ((t.queueOf p q).bind Queue.headProg).isNone then t.newHead p q else t

/-- A publish to a queue of the bytes at an address of the issuer (R227, R261). -/
def State.publish (s : State) (p : Nat) (rq : Req) (a q : Nat) (task : Bool) : CmdEnd :=
  if q < 32 then
    match s.queueOf p q with
    | none => failed s 8 q
    | some x =>
      if x.stop || x.task != task then failed s 8 q
      else if a % x.entryBytes != 0 then failed s 2 a
      else if 2 ^ x.logn ≤ x.tail - x.retire then failed s 7 q
      else
        match s.loadBytes rq (vaRange a x.entryBytes) with
        | .error e => (s, some e.failure)
        | .ok (data, s) =>
          match s.storeBytes (s.ctlReq p) (vaRange (x.entry x.tail) x.entryBytes) data with
          | .error e => s.ringFailed p q x.tail e
          | .ok s =>
            ((s.modQueue p q fun x => { x with tail := x.tail + 1, dirty := true }).afterPublish p q, none)
  else failed s 8 q

/-- A claim from a data queue into an address of the issuer (R227, R261). -/
def State.claim (s : State) (p : Nat) (rq : Req) (a q : Nat) : CmdEnd :=
  if q < 32 then
    match s.queueOf p q with
    | none => failed s 8 q
    | some x =>
      if x.stop || x.task then failed s 8 q
      else if a % x.entryBytes != 0 then failed s 2 a
      else if x.tail = x.head then failed s 6 q
      else
        match s.loadBytes (s.ctlReq p) (vaRange (x.entry x.head) x.entryBytes) with
        | .error e => s.ringFailed p q x.head e
        | .ok (data, s) =>
          match s.storeBytes rq (vaRange a x.entryBytes) data with
          | .error e => (s, some e.failure)
          | .ok s =>
            ((s.modQueue p q fun x => { x with head := x.head + 1, retire := x.head + 1, dirty := true }).progress rq.core, none)
  else failed s 8 q

/-- A signal of one edge (R234, R261); its QUEUE_FAULT stops no queue (R243). -/
def State.signal (s : State) (p a : Nat) : CmdEnd :=
  if a % 8 != 0 then failed s 2 a
  else
    let r := s.decrementGate p a
    (if r.1 = 0 then r.2 else r.2.queueFault p 0xFF 0 r.1, none)

end Sys2Proof.Machine
end

