-- ==== Sys2Proof/Machine/Engine.lean ====
section
/-! DEFINITION. Engine commands: issue, tickets, failure words, completion, geometry registers and the timeline instructions
(R218, R249 to R253, R261 to R263, R265 to R269). -/

namespace Sys2Proof.Machine

open Sys2Proof

/-! ## Engine contexts (R249) -/

/-- The engine of a command (R48). -/
def EngOp.engine : EngOp → Nat
  | .ecopy | .egather | .escatter | .ecopy2d | .ecfill | .emigrate => 0
  | .callred | .callgat | .credsc | .cbcast | .cabort => 1
  | .qpub | .qclaim | .qlaunch | .qsignal => 2
  | .xbind | .xfollow | .xtok | .xdetok | .xmask => 3
  | .apxLoad | .apxSave => 4
  | .ccfg | .crejoin => 5

/-- An engine context of a core. -/
def State.eng (s : State) (core e : Nat) : EngCtx := smGet (s.core core).engs e {}

/-- The state with an engine context changed. -/
def State.modEng (s : State) (core e : Nat) (f : EngCtx → EngCtx) : State :=
  s.modCore core fun c => { c with engs := smSet c.engs e (f (smGet c.engs e {})) }

/-- The state with an outstanding command changed. -/
def State.modCmd (s : State) (core e t : Nat) (f : EngCmd → EngCmd) : State :=
  s.modEng core e fun c => { c with out := c.out.map fun k => if k.ticket = t then f k else k }

/-- An outstanding command. -/
def State.cmd (s : State) (core e t : Nat) : Option EngCmd := (s.eng core e).out.find? fun k => k.ticket == t

/-- The failure word after a failure (R251). -/
def EngCtx.fail (c : EngCtx) (t : Nat) (f : Failure) : EngCtx :=
  if c.code = 0 then { c with code := BitVec.ofNat 8 f.code, ticket := word t, addr := f.addr } else { c with more := true }

/-- The timeline counter: every ticket up to it is complete (R218). -/
def EngCtx.reached (c : EngCtx) : Word :=
  match c.out with
  | [] => c.issue
  | k :: _ => word (k.ticket - 1)

/-- The engine context after a command's completion (R218, R250, R251). -/
def EngCtx.finish (c : EngCtx) (t : Nat) (f : Option Failure) : EngCtx :=
  let c : EngCtx := match f with | some f => c.fail t f | none => c
  let c : EngCtx := { c with out := c.out.filter fun k => k.ticket != t }
  { c with counter := c.reached }

/-- A command with every access performed, and its failure if it has one. -/
def EngCmd.ended (k : EngCmd) (f : Option Failure) : EngCmd := { k with phase := .done, fail := f }

/-- Whether a command is the one of a paired slice's copy for which the other copy's, with this number, is performed (R242). -/
def EngCmd.replicaOf (k : EngCmd) (id : Nat) : Bool := k.phase == .replica && k.pair == some id

/-- The state in which the copy of a completed command of a paired slice ends as it did (R242). -/
def State.tellReplica (s : State) (e : Nat) (k : EngCmd) : State :=
  match k.pair with
  | none => s
  | some id =>
    if k.phase = .replica then s
    else { s with cores := s.cores.map fun c => (c.1, { c.2 with engs := c.2.engs.map fun g =>
      if g.1 = e then (e, { g.2 with out := g.2.out.map fun j => if j.replicaOf id then j.ended k.fail else j }) else g }) }

/-- A command's completion. -/
def State.finishCmd (s : State) (core e : Nat) (k : EngCmd) : State :=
  (s.modEng core e fun c => c.finish k.ticket k.fail).tellReplica e k

/-- The core and the command that is performed for a replica too (R242). -/
def State.original (s : State) (e : Nat) (k : EngCmd) : Option (Nat × EngCmd) :=
  if k.phase = .replica then
    s.cores.findSome? fun c => ((smGet c.2.engs e {}).out.find? fun j => j.pair == k.pair && j.phase != .replica).map fun j => (c.1, j)
  else none

/-- A command as a requester of memory accesses (R252, R276). -/
def EngCmd.req (k : EngCmd) (core : Nat) : Req :=
  { core := core, ctx := k.ctx, priv := k.priv, ptroot := k.ptroot, task := k.task, eng := some k.op.engine, step := k.step }

/-- A geometry register of a command as captured at its commit (R253). -/
def EngCmd.geo (k : EngCmd) (i : Nat) : Nat := (k.g.getD i 0).toNat

/-! ## Issue (R250) -/

/-- The geometry registers of an engine of the executing context. -/
def State.geometry (s : State) (e : Nat) : List Word := (List.range 8).map fun k => smGet s.me.geom (8 * e + k) 0

/-- Whether a command issued in step mode fails at once: a queue command does, with QSTATE (R252). -/
def EngOp.noStep (op : EngOp) : Bool := op.engine == 2

/-- The command that the executing context issues now. -/
def State.newCmd (s : State) (op : EngOp) (a b : Word) (o : Bool) : EngCmd :=
  let k : EngCmd :=
    { op := op, a := a, b := b, g := s.geometry op.engine, ticket := (s.eng s.cur.core op.engine).issue.toNat + 1, o := o,
      ctx := s.cur.ctx, priv := s.me.priv, ptroot := s.myCore.ptroot, task := s.myCore.taskId,
      step := s.stepMode s.cur.core }
  if op.noStep && s.stepMode s.cur.core then k.ended (some ⟨8, b⟩) else k

/-- The issue of a command (R250): its ticket is written to xd. -/
def State.issue (s : State) (op : EngOp) (d a b : Nat) (o needS : Bool) : Host.Outcome State Fault Refusal :=
  finish s (do
    s.destX d
    need (!needS || s.me.priv != 0) (trapPrivilege s)
    need (!s.me.pureMarked) (trapWith .apxStore 0)
    let c := s.eng s.cur.core op.engine
    if 32 ≤ c.out.length then waitRetry s
    else
      let k := s.newCmd op (s.x a) (s.x b) o
      let t := s.modEng s.cur.core op.engine fun c => { c with issue := c.issue + 1, out := c.out ++ [k] }
      .ok (t.commanded.setX d (word k.ticket)).advance)

/-- `ecopy` (R254). -/
def execEcopy (d a b : Nat) (o : Bool) (s : State) : Host.Outcome State Fault Refusal := s.issue .ecopy d a b o false
/-- `egather` (R254). -/
def execEgather (d a b : Nat) (o : Bool) (s : State) : Host.Outcome State Fault Refusal := s.issue .egather d a b o false
/-- `escatter` (R254). -/
def execEscatter (d a b : Nat) (o : Bool) (s : State) : Host.Outcome State Fault Refusal := s.issue .escatter d a b o false
/-- `ecopy2d` (R254). -/
def execEcopy2d (d a b : Nat) (o : Bool) (s : State) : Host.Outcome State Fault Refusal := s.issue .ecopy2d d a b o false
/-- `ecfill` (R255). -/
def execEcfill (d a b : Nat) (o : Bool) (s : State) : Host.Outcome State Fault Refusal := s.issue .ecfill d a b o false
/-- `emigrate` (R256). -/
def execEmigrate (d a b : Nat) (o : Bool) (s : State) : Host.Outcome State Fault Refusal := s.issue .emigrate d a b o true
/-- `callred` (R259). -/
def execCallred (d a b : Nat) (o : Bool) (s : State) : Host.Outcome State Fault Refusal := s.issue .callred d a b o false
/-- `callgat` (R259). -/
def execCallgat (d a b : Nat) (o : Bool) (s : State) : Host.Outcome State Fault Refusal := s.issue .callgat d a b o false
/-- `credsc` (R259). -/
def execCredsc (d a b : Nat) (o : Bool) (s : State) : Host.Outcome State Fault Refusal := s.issue .credsc d a b o false
/-- `cbcast` (R259). -/
def execCbcast (d a b : Nat) (o : Bool) (s : State) : Host.Outcome State Fault Refusal := s.issue .cbcast d a b o false
/-- `cabort` (R260). -/
def execCabort (d a : Nat) (o : Bool) (s : State) : Host.Outcome State Fault Refusal := s.issue .cabort d a 0 o false
/-- `qpub` (R261). -/
def execQpub (d a b : Nat) (o : Bool) (s : State) : Host.Outcome State Fault Refusal := s.issue .qpub d a b o false
/-- `qclaim` (R261). -/
def execQclaim (d a b : Nat) (o : Bool) (s : State) : Host.Outcome State Fault Refusal := s.issue .qclaim d a b o false
/-- `qlaunch` (R261). -/
def execQlaunch (d a b : Nat) (o : Bool) (s : State) : Host.Outcome State Fault Refusal := s.issue .qlaunch d a b o false
/-- `qsignal` (R261). -/
def execQsignal (d a : Nat) (o : Bool) (s : State) : Host.Outcome State Fault Refusal := s.issue .qsignal d a 0 o false
/-- `xbind` (R262). -/
def execXbind (d a b : Nat) (o : Bool) (s : State) : Host.Outcome State Fault Refusal := s.issue .xbind d a b o true
/-- `xfollow` (R262). -/
def execXfollow (d a b : Nat) (o : Bool) (s : State) : Host.Outcome State Fault Refusal := s.issue .xfollow d a b o false
/-- `xtok` (R263). -/
def execXtok (d a b : Nat) (o : Bool) (s : State) : Host.Outcome State Fault Refusal := s.issue .xtok d a b o false
/-- `xdetok` (R263). -/
def execXdetok (d a b : Nat) (o : Bool) (s : State) : Host.Outcome State Fault Refusal := s.issue .xdetok d a b o false
/-- `xmask` (R263). -/
def execXmask (d a b : Nat) (o : Bool) (s : State) : Host.Outcome State Fault Refusal := s.issue .xmask d a b o false
/-- `apx.load` (R377). -/
def execApxLoad (d a b : Nat) (o : Bool) (s : State) : Host.Outcome State Fault Refusal := s.issue .apxLoad d a b o false
/-- `apx.save` (R377). -/
def execApxSave (d a b : Nat) (o : Bool) (s : State) : Host.Outcome State Fault Refusal := s.issue .apxSave d a b o false

/-! ## Geometry registers (R253) -/

/-- The state with a geometry register of an engine written. -/
def State.eset (s : State) (e k a : Nat) : Host.Outcome State Fault Refusal :=
  .next (s.modMe fun c => { c with geom := smSet c.geom (8 * e + k) (s.x a) }).advance

/-- `eset` of the copy engine. -/
def execEsetCopy (k a : Nat) (s : State) : Host.Outcome State Fault Refusal := s.eset 0 k a
/-- `eset` of the collective engine. -/
def execEsetColl (k a : Nat) (s : State) : Host.Outcome State Fault Refusal := s.eset 1 k a
/-- `eset` of the text engine. -/
def execEsetText (k a : Nat) (s : State) : Host.Outcome State Fault Refusal := s.eset 3 k a

/-! ## Timelines (R265 to R269) -/

/-- The id of an engine (R48). -/
def engId : Eng → Nat
  | .copy => 0 | .coll => 1 | .queue => 2 | .text => 3 | .apx => 4 | .catchUnit => 5

/-- `twait` (R265). -/
def execTwait (e : Eng) (a : Nat) (s : State) : Host.Outcome State Fault Refusal :=
  finish s (if (s.x a).toNat ≤ (s.eng s.cur.core (engId e)).counter.toNat then .ok s.advance.commanded else waitRetry s)

/-- `tget` (R266). -/
def execTget (e : Eng) (d : Nat) (s : State) : Host.Outcome State Fault Refusal :=
  finish s (do
    s.destX d
    .ok ((s.setX d (s.eng s.cur.core (engId e)).counter).advance).commanded)

/-- The value of `tget.e` (R266). -/
def EngCtx.failWord (c : EngCtx) : Word := word (bits c.ticket 0 48 + c.more.toNat * 2 ^ 55 + c.code.toNat * 2 ^ 56)

/-- `tget.e` (R266): the failure word is zeroed. -/
def execTgetE (e : Eng) (d : Nat) (s : State) : Host.Outcome State Fault Refusal :=
  finish s (do
    s.destX d
    let v := (s.eng s.cur.core (engId e)).failWord
    let t := s.modEng s.cur.core (engId e) fun c => { c with code := 0, more := false, ticket := 0, addr := 0 }
    .ok (t.setX d v).advance.commanded)

/-- `tget.a` (R266). -/
def execTgetA (e : Eng) (d : Nat) (s : State) : Host.Outcome State Fault Refusal :=
  finish s (do
    s.destX d
    .ok ((s.setX d (s.eng s.cur.core (engId e)).addr).advance).commanded)

/-- `tnote` (R267). -/
def execTnote (e : Eng) (a : Nat) (s : State) : Host.Outcome State Fault Refusal :=
  .next (s.modMe fun c => { c with tnote := word (bits (s.x a) 0 48 + engId e * 2 ^ 48 + 2 ^ 56) }).advance.commanded

/-- TNOTE.ARM. -/
def Ctx.noteArmed (c : Ctx) : Bool := c.tnote.getLsbD 56

/-- Whether an armed note is reached (R267): `(c − TICKET) mod 2^48 < 2^47`. -/
def State.noteReached (s : State) (i : CtxId) : Bool :=
  let n := (s.ctx i).tnote
  let e := bits n 48 3
  (s.ctx i).noteArmed && e < 6 && (bits (s.eng i.core e).counter 0 48 + 2 ^ 48 - bits n 0 48) % 2 ^ 48 < 2 ^ 47

/-- Whether a context takes its note at its next boundary (R268). -/
def State.noteDue (s : State) (i : CtxId) : Bool :=
  let c := s.ctx i
  s.noteReached i && c.life == .live && c.priv == 0 && !c.ui && c.wait.interruptible

/-- The entry to a user completion handler (R268). -/
def State.enterNote (s : State) (i : CtxId) : State :=
  let e := bits (s.ctx i).tnote 48 3
  let k := s.eng i.core e
  (s.squash i).modCtx i fun c => { c with
    tnote := putBits c.tnote 56 1 0, uepc := c.pc,
    shadow := smSet (smSet (smSet c.shadow 1 k.counter) 2 (word e)) 3 k.failWord,
    status := putBits c.status 6 1 1, pc := alignPc c.uvec, entering := some true, wait := .none, remote := none }

/-- The entry to a completion handler of a context whose note is due, at one of its instruction boundaries (R268). -/
def execCompletionHandlerEntry (core ctx : Nat) (s : State) : Host.Outcome State Fault Refusal :=
  .next (if s.running core && s.noteDue ⟨core, ctx⟩ && !s.causeDue ⟨core, ctx⟩ then s.enterNote ⟨core, ctx⟩ else s)

/-! ## Completion -/

/-- Whether a command ends with uncorrectable data read. -/
def EngCmd.dataFailed (k : EngCmd) : Bool := match k.fail with | some f => f.code == 4 | none => false

/-- The completion of a command that has performed every access (R218, R250). In step mode, uncorrectable data are no failure of the
command but a rollback or an escalation (R387, R397, R399). -/
def execEngineCommandCompletion (core e ticket : Nat) (s : State) : Host.Outcome State Fault Refusal :=
  .next (match s.cmd core e ticket with
    | some k =>
      if k.phase != .done then s
      else if k.dataFailed && s.stepMode core then
        let t := s.finishCmd core e (k.ended none)
        (t.errorOverride ⟨core, 0⟩).1
      else s.finishCmd core e k
    | none => s)

/-- Whether a command may begin (R218): an ordered one follows every earlier one of its engine context. -/
def EngCtx.mayBegin (c : EngCtx) (k : EngCmd) : Bool :=
  k.phase == .issued && (!k.o || c.out.all fun j => k.ticket ≤ j.ticket)

/-! ## Accesses of the copy engine and its like -/

/-- The end of a command whose access failed; a down expander's ended writes may have been performed (R251, R360). -/
def State.cmdFail (s : State) (e : MemErr) : CmdEnd :=
  ((match e with | .unreachable _ _ l => s.endWrites l | _ => s), some e.failure)

/-- Bytes in runs, each within one line. -/
def vaRuns : List (Nat × Byte) → List (Nat × List Byte)
  | [] => []
  | (a, b) :: rest =>
    match vaRuns rest with
    | (c, l) :: more => if c = a + 1 && c / 128 == a / 128 then (a, b :: l) :: more else (a, [b]) :: (c, l) :: more
    | [] => [(a, [b])]

/-- Requests of an engine that write, each within one line; a failure stops them (R254). -/
def State.engWrite (s : State) (rq : Req) : List (Nat × List Byte) → CmdEnd
  | [] => (s, none)
  | (va, l) :: rest =>
    match s.storeBytes rq (vaRange va l.length) l with
    | .error e => s.cmdFail e
    | .ok t => State.engWrite t rq rest

/-- Consecutive bytes written by an engine. -/
def State.engStore (s : State) (rq : Req) (va : Nat) (l : List Byte) : CmdEnd :=
  s.engWrite rq (vaRuns ((vaRange va l.length).zip l))

/-- Free bytes, and the state with their draws counted (R6). -/
def State.freeBytes (s : State) (n : Nat) : List Byte × State :=
  ((List.range n).map fun i => Config.freeByte (s.freeIdx + i), { s with freeIdx := s.freeIdx + n })

end Sys2Proof.Machine
end

