-- ==== Sys2Proof/Machine/Copy.lean ====
section
/-! DEFINITION. The copy engine: copies, gathers, scatters, counted fills, and the migration of a page (R183, R254 to R256). -/

namespace Sys2Proof.Machine

open Sys2Proof

/-! ## Copies (R254) -/

/-- Whether an address lies in one of a command's source ranges, given as start and length. -/
def overlapped (src : List (Nat × Nat)) (va : Nat) : Bool := src.any fun r => (va + 2 ^ 64 - r.1 % 2 ^ 64) % 2 ^ 64 < r.2

/-- Bytes for destination addresses, with free ones where a source range overlaps them (R6, R254). -/
def State.overlay (s : State) (ranges : List (Nat × Nat)) (dest : List Nat) (l : List Byte) : List Byte × State :=
  if dest.any (overlapped ranges) then
    let f := s.freeBytes dest.length
    ((dest.zip (l.zip f.1)).map fun (c : Nat × Byte × Byte) => if overlapped ranges c.1 then c.2.2 else c.2.1, f.2)
  else (l, s)

/-- The bytes at `source` written at `dest` in order, the later of two writes of one byte last; destination bytes that a source
range overlaps are free (R6, R254). -/
def State.transfer (s : State) (rq : Req) (ranges : List (Nat × Nat)) (dest source : List Nat) : CmdEnd :=
  match s.loadBytes rq source with
  | .error e => s.cmdFail e
  | .ok (l, s) =>
    let o := s.overlay ranges dest l
    o.2.engWrite rq (vaRuns (dest.zip o.1))

/-- `ecopy`. -/
def State.doCopy (s : State) (core : Nat) (k : EngCmd) : CmdEnd :=
  let n := k.geo 0
  if 2 ^ 32 < n then failed s 9 n
  else s.transfer (k.req core) [(k.b.toNat, n)] (vaRange k.a.toNat n) (vaRange k.b.toNat n)

/-- The addresses of `n` elements of `w` bytes, each at its own base. -/
def elemVas (w : Nat) (bases : List Nat) : List Nat := bases.flatMap fun b => vaRange b w

/-- `egather` and `escatter`: `dest` says that D is the index array. -/
def State.doIndexed (s : State) (core : Nat) (k : EngCmd) (scatter : Bool) : CmdEnd :=
  let elem := k.geo 0
  let n := k.geo 1
  let index := if scatter then k.a.toNat else k.b.toNat
  let dense := if scatter then k.b.toNat else k.a.toNat
  if elem = 0 || 4096 < elem then failed s 9 elem
  else if 2 ^ 24 < n then failed s 9 n
  else if index % 4 != 0 then failed s 2 index
  else
    match s.loadBytes (k.req core) (vaRange index (4 * n)) with
    | .error e => s.cmdFail e
    | .ok (l, s) =>
      let far := (elemsOf 32 n (bytesToNat l)).map fun off => (k.geo 2 + off) % 2 ^ 64
      let near := (List.range n).map fun i => (dense + i * elem) % 2 ^ 64
      let idx := (index, 4 * n)
      if scatter then
        s.transfer (k.req core) [idx, (dense, n * elem)] (elemVas elem far) (elemVas elem near)
      else s.transfer (k.req core) (idx :: far.map fun a => (a, elem)) (elemVas elem near) (elemVas elem far)

/-- `ecopy2d`. -/
def State.doCopy2d (s : State) (core : Nat) (k : EngCmd) : CmdEnd :=
  let w := k.geo 0
  let n := k.geo 1
  if 2 ^ 20 < w then failed s 9 w
  else if 2 ^ 24 < n then failed s 9 n
  else
    let rows := fun (base stride : Nat) => (List.range n).map fun r => (base + r * stride) % 2 ^ 64
    let src := rows k.b.toNat (k.geo 4)
    s.transfer (k.req core) (src.map fun a => (a, w)) (elemVas w (rows k.a.toNat (k.geo 3))) (elemVas w src)

/-! ## Counted fills (R255) -/

/-- The lines of an `ecfill` from line `i` on, with the failure of the lowest refused line so far; `len` is the length of the whole source,
which may overlap the destination (R254). -/
def State.fillLoop (s : State) (rq : Req) (d src len count : Nat) (first : Option Failure) : Nat → Nat → CmdEnd
  | 0, _ => (s, first)
  | n + 1, i =>
    let va := (d + 128 * i) % 2 ^ 64
    match s.loadBytes rq (vaRange ((src + 128 * i) % 2 ^ 64) 128) with
    | .error e =>
      let r := s.cmdFail e
      (r.1, if first.isSome then first else r.2)
    | .ok (l, s) =>
      let o := s.overlay [(src, len)] (vaRange va 128) l
      match o.2.fillBytes rq va 1 o.1 count with
      | .ok s => State.fillLoop s rq d src len count first n (i + 1)
      | .error e =>
        let f : Failure := ⟨e.failure.code, word va⟩
        State.fillLoop o.2 rq d src len count (if first.isSome then first else some f) n (i + 1)

/-- `ecfill`. -/
def State.doFill (s : State) (core : Nat) (k : EngCmd) : CmdEnd :=
  let n := k.geo 0
  let count := k.geo 5 % 64
  if k.a.toNat % 128 != 0 then failed s 2 k.a.toNat
  else if n % 128 != 0 || 2 ^ 24 < n then failed s 9 n
  else if count = 0 then failed s 9 (k.geo 5)
  else s.fillLoop (k.req core) k.a.toNat k.b.toNat n count none (n / 128) 0

/-! ## Migration (R183, R256) -/

/-- The physical address of the level-3 entry that maps an address which walks to level 3. -/
def State.entryAddr (s : State) (ptroot : Word) (va : Nat) : Nat :=
  let e1 := s.walkEntry (bits ptroot 16 36 * 65536 + 8 * vaIndex va 1)
  let e2 := s.walkEntry (e1 / 65536 % 2 ^ 36 * 65536 + 8 * vaIndex va 2)
  e2 / 65536 % 2 ^ 36 * 65536 + 8 * vaIndex va 3

/-- The lines of a 64 KiB page. -/
def pageLines (page : Nat) : List Nat := (List.range 512).map fun i => page * 512 + i

/-- Whether a line refuses the start of a migration: counted or emptied, with a bound accumulator, or with a shadow line. -/
def State.refusesMove (s : State) (line : Nat) : Bool :=
  smHas s.lines line || s.accs.any (fun a => a.1 / 128 == line) ||
    s.cores.any fun (c : Nat × Core) => c.2.writeSet.any fun d => d.pa / 128 == line

/-- A key that a table does not use: one above its greatest. -/
def freshKey {α : Type} (m : SMap α) : Nat := (smKeys m).foldl (fun n k => max n (k + 1)) 0

/-- The cache-portion copies of a page's lines written back and dropped in every core (R183). -/
def State.dropPage (s : State) (page : Nat) : State :=
  (smKeys s.cores).foldl (fun s c =>
    ((smKeys (s.core c).lc).filter fun l => l / 512 == page).foldl (fun s l => s.cleanLine c l true) s) s

/-- The start of a migration (R183, R256): its failure, or the migration begun. -/
def State.startMigration (s : State) (core : Nat) (k : EngCmd) : CmdEnd :=
  let va := k.a.toNat
  let dst := k.b.toNat
  if va % 65536 != 0 then failed s 2 va
  else if dst % 65536 != 0 then failed s 2 dst
  else
    match (if 2 ^ 55 ≤ va then .error ⟨va, 1, 0⟩ else s.walk (s.reqPart (k.req core)) va 3 (k.req core).root 1 :
      Except XFault (Nat × Nat)) with
    | .error f => failed s 1 f.va
    | .ok (e, lvl) =>
      if lvl != 3 || !(e / 64 % 4 = 0 || e / 64 % 4 = 2) then failed s 1 va
      else if !(isL2 dst && s.cxlExists dst) then failed s 9 dst
      else
        let page := e / 65536 % 2 ^ 36
        match (List.range 512).find? (fun i => s.refusesMove (page * 512 + i)) with
        | some i => failed s 5 (va + 128 * i)
        | none =>
          let m : Migration := ⟨(s.core core).partid, core, k.ticket, page, dst / 65536, s.entryAddr k.ptroot va, false⟩
          let t := s.dropPage page
          ({ t with migrations := smSet t.migrations (freshKey t.migrations) m }, none)

/-- A line number, or an address in units of `u`, moved from one page to another. -/
def movePage (src dst u n : Nat) : Nat := if n / u = src then dst * u + n % u else n

/-- A table with the keys of one page moved to another. -/
def moveKeys {α : Type} (src dst u : Nat) (m : SMap α) : SMap α := m.foldl (fun m e => smSet m (movePage src dst u e.1) e.2) []

/-- The first line of a page whose data cannot be read. -/
def State.unreadableIn (s : State) (page : Nat) : Option Nat := (pageLines page).find? s.unreadable

/-- The home that an address of the destination takes in place of the source's: a PINSLICE page's stays (R166, R183). -/
def State.homeAfter (s : State) (p : Nat) (q : Place) (pa : Nat) : Place :=
  if q.pin then q else (s.part p).placeOf ⟨0, pa, 0, false, 0⟩

/-- A table keyed by addresses in units of `65536 / u` bytes moved from one page to another, each entry with its home at the destination. -/
def State.moveAt {α : Type} (s : State) (p src dst u : Nat) (place : α → Place) (put : α → Place → α) (m : SMap α) : SMap α :=
  (moveKeys src dst u m).map fun e => if e.1 / u = dst then (e.1, put e.2 (s.homeAfter p (place e.2) (e.1 * (65536 / u)))) else e

/-- What the homes hold of a page moved with it: counted lines and closed bits, accumulators, shadow lines and what step mode has kept. The
lines that slices hold of either page are dropped. -/
def State.moveHomes (s : State) (p src dst : Nat) : State :=
  let move : Deferred → Deferred := fun d =>
    if d.pa / 65536 = src then
      { d with pa := movePage src dst 65536 d.pa, place := s.homeAfter p d.place (movePage src dst 65536 d.pa) } else d
  let cores := s.cores.map fun (c : Nat × Core) => (c.1, { c.2 with writeSet := c.2.writeSet.map move })
  let parts := s.parts.map fun (q : Nat × Partition) =>
    (q.1, { q.2 with
      snap := moveKeys src dst 512 (q.2.snap.filter fun e => e.1 / 512 != dst)
      accSnap := moveKeys src dst 65536 (q.2.accSnap.filter fun e => e.1 / 65536 != dst) })
  { s with
    lines := s.moveAt p src dst 512 (·.place) (fun l q => { l with place := q }) s.lines
    accs := s.moveAt p src dst 65536 (·.place) (fun a q => { a with place := q }) s.accs
    closed := s.closed.map (movePage src dst 512)
    cores := cores
    parts := parts }

/-- The heat of a page's copy: each line read at S and written at D (R182, R183). -/
def State.heatCopy (s : State) (src dst : Nat) : State :=
  (List.range 512).foldl (fun s _ => (s.heat (src * 65536)).heat (dst * 65536)) s

/-- The switch of a migration (R183): the page's data are at D, and the entry names D; uncorrectable data end it. The engine's writes
are progress (R355). -/
def execMigrationSwitch (k : Nat) (s : State) : Host.Outcome State Fault Refusal :=
  .next (match s.migrations.find? (fun m => m.1 == k) with
    | none => s
    | some (_, m) =>
      if m.switched then s
      else
        match s.unreadableIn m.src with
        | some line =>
          let va := (s.cmd m.core 0 m.ticket).elim 0 fun c => c.a.toNat
          let s : State := { s with migrations := smErase s.migrations k }
          s.modCmd m.core 0 m.ticket fun c => c.ended (some ⟨4, word (va + 128 * (line % 512))⟩)
        | none =>
          let s := (pageLines m.src ++ pageLines m.dst).foldl State.dropL2 s
          let data := (List.range 65536).map fun i => (m.dst * 65536 + i, s.mem.get (m.src * 65536 + i))
          let e := s.walkEntry m.entry
          let t := ((s.writeCells data).moveHomes m.part m.src m.dst).heatCopy m.src m.dst
          let t := t.writeCells (((List.range 8).map (m.entry + ·)).zip
            (natToBytes 8 (e - e / 65536 % 2 ^ 36 * 65536 + m.dst % 2 ^ 36 * 65536)))
          { t.progress m.core with
            migrations := smSet t.migrations k { m with switched := true }
            poison := t.poison.filter fun l => l / 512 != m.dst })

/-- The completion of a migration (R183): its ticket completes, and accesses are forwarded no more. -/
def execMigrationCompletion (k : Nat) (s : State) : Host.Outcome State Fault Refusal :=
  .next (match s.migrations.find? (fun m => m.1 == k) with
    | none => s
    | some (_, m) =>
      if m.switched then
        let s : State := { s with migrations := smErase s.migrations k }
        match s.cmd m.core 0 m.ticket with
        | some c => s.finishCmd m.core 0 (c.ended none)
        | none => s
      else s)

/-! ## The commands -/

/-- A copy command carried out: the state, and how the command stands after it. -/
def State.runCopy (s : State) (core : Nat) (k : EngCmd) : CmdEnd × CmdPhase :=
  match k.op with
  | .ecopy => (s.doCopy core k, .done)
  | .egather => (s.doIndexed core k false, .done)
  | .escatter => (s.doIndexed core k true, .done)
  | .ecopy2d => (s.doCopy2d core k, .done)
  | .ecfill => (s.doFill core k, .done)
  | _ =>
    let r := s.startMigration core k
    (r, if r.2.isSome then .done else .waiting)

end Sys2Proof.Machine
end

