-- ==== Sys2Proof/Machine/Collective.lean ====
section
/-! DEFINITION. The collective engine: communicator records, matching, reductions and aborts (R257 to R260). -/

namespace Sys2Proof.Machine

open Sys2Proof

/-! ## Communicators (R257) -/

/-- A communicator record: its number, the issuing rank, and a participant's device and core for each rank. -/
structure Communicator where
  cid   : Nat
  rank  : Nat
  parts : List (Nat × Nat)
  deriving DecidableEq, Repr

/-- The number of participants. -/
def Communicator.n (c : Communicator) : Nat := c.parts.length

/-- The cores of this device that participate. -/
def Communicator.local (c : Communicator) : List Nat :=
  (c.parts.filter fun p => p.1 == Config.deviceNumber % 64).map (·.2)

/-- Whether a record's first word keeps its limits. -/
def headOk (w : Nat) : Bool :=
  let n := w / 2 ^ 16 % 65536
  1 ≤ n && n ≤ 4096 && w / 2 ^ 32 % 65536 < n && w / 2 ^ 48 == 0

/-- The record at an address (R257), or the failure: a fault, or LIMIT with the word that breaks a limit. -/
def State.readComm (s : State) (rq : Req) (va : Nat) : Except Failure (Communicator × State) :=
  match s.readWords rq va 1 with
  | .error e => .error e.failure
  | .ok (w, s) =>
    let h := w.headD 0
    if !headOk h then .error ⟨9, word h⟩
    else
      match s.readWords rq ((va + 8) % 2 ^ 64) (h / 2 ^ 16 % 65536) with
      | .error e => .error e.failure
      | .ok (l, s) =>
        match l.find? (fun e => e / 65536 != 0) with
        | some e => .error ⟨9, word e⟩
        | none =>
          let c : Communicator := ⟨h % 65536, h / 2 ^ 32 % 65536, l.map fun e => (e % 64, e / 64 % 1024)⟩
          let me := c.parts.getD c.rank (0, 0)
          if me = (Config.deviceNumber % 64, rq.core) then .ok (c, s) else .error ⟨9, word (l.getD c.rank 0)⟩

/-! ## Elements (R258) -/

/-- Element types of collectives, by TYPE. -/
inductive CollTy | f32 | bf16 | i32 | n32 | i64 | n64
  deriving DecidableEq, Repr

/-- The type of a TYPE value. -/
def collTy : Nat → CollTy
  | 0 => .f32 | 1 => .bf16 | 2 => .i32 | 3 => .n32 | 4 => .i64 | _ => .n64

/-- An element's size in bytes. -/
def CollTy.bytes : CollTy → Nat
  | .f32 => 4 | .bf16 => 2 | .i32 => 4 | .n32 => 4 | .i64 => 8 | .n64 => 8

/-- g0, the element count E. -/
def EngCmd.elems (k : EngCmd) : Nat := k.geo 0
/-- g1.TYPE. -/
def EngCmd.collTy (k : EngCmd) : CollTy := Sys2Proof.Machine.collTy (k.geo 1 % 16)
/-- g1.OP. -/
def EngCmd.collOp (k : EngCmd) : Nat := k.geo 1 / 16 % 16
/-- g1.ROOT. -/
def EngCmd.root (k : EngCmd) : Nat := k.geo 1 / 256 % 65536

/-- The limits of g0 and g1 for `n` participants, or the value that breaks one (R258). -/
def EngCmd.limits (k : EngCmd) (n : Nat) : Option Nat :=
  if k.elems = 0 || 2 ^ 32 ≤ k.elems then some k.elems
  else if 5 < k.geo 1 % 16 || 2 < k.collOp || n ≤ k.root || k.geo 1 / 2 ^ 24 != 0 then some (k.geo 1)
  else none

/-- Codes of one position combined in a floating-point format (R79, R121, R258). -/
def reduceFp (f : Fmt) (op : Nat) (xs : List Nat) : Nat :=
  if op = 0 then
    let a := xs.foldl (fun (a : WideAcc) x => a.add (decodeFp f x)) noAcc
    (accRead f a.acc.toInt a.pinf a.ninf a.nan).1
  else
    match xs.map (decodeFp f) with
    | [] => 0
    | x :: rest => (roundFp f .ne (rest.foldl (fun m y => if op = 1 then (maxExact m y).1 else (minExact m y).1) x)).1

/-- Integers of one position combined (R258). -/
def reduceInt (signed : Bool) (w op : Nat) (xs : List Nat) : Nat :=
  match xs.map (readInt signed w) with
  | [] => 0
  | x :: rest => wrapInt w (rest.foldl (fun m y => if op = 0 then m + y else if op = 1 then max m y else min m y) x)

/-- Elements of one position combined (R258). -/
def reduceElem (t : CollTy) (op : Nat) (xs : List Nat) : Nat :=
  match t with
  | .f32 => reduceFp fp32 op xs
  | .bf16 => reduceFp Sys2Proof.Machine.bf16 op xs
  | .i32 => reduceInt true 32 op xs
  | .n32 => reduceInt false 32 op xs
  | .i64 => reduceInt true 64 op xs
  | .n64 => reduceInt false 64 op xs

/-- Buffers of bytes combined element by element. -/
def reduceBytes (t : CollTy) (op n : Nat) (bufs : List (List Byte)) : List Byte :=
  let w := t.bytes
  let elems := bufs.map fun b => elemsOf (8 * w) n (bytesToNat b)
  (List.range n).flatMap fun j => natToBytes w (reduceElem t op (elems.map fun e => e.getD j 0))

/-! ## Buffers (R259) -/

/-- The bytes that a participant reads at Src. -/
def EngCmd.srcLen (k : EngCmd) (n rank : Nat) : Nat :=
  let b := k.elems * k.collTy.bytes
  match k.op with
  | .credsc => n * b
  | .cbcast => if rank = k.root then b else 0
  | _ => b

/-- The bytes that a participant receives at D. -/
def EngCmd.dstLen (k : EngCmd) (n rank : Nat) : Nat :=
  let b := k.elems * k.collTy.bytes
  match k.op with
  | .callgat => n * b
  | .cbcast => if rank = k.root && k.a == k.b then 0 else b
  | _ => b

/-- What a participant receives, from the buffers of every rank. -/
def EngCmd.result (k : EngCmd) (rank : Nat) (bufs : List (List Byte)) : List Byte :=
  let b := k.elems * k.collTy.bytes
  match k.op with
  | .callgat => bufs.flatten
  | .cbcast => if rank = k.root && k.a == k.b then [] else bufs.getD k.root []
  | .credsc => reduceBytes k.collTy k.collOp k.elems (bufs.map fun l => (l.drop (rank * b)).take b)
  | _ => reduceBytes k.collTy k.collOp k.elems bufs

/-- Whether two ranges of addresses share a byte. -/
def rangesMeet (a n b m : Nat) : Bool :=
  n != 0 && m != 0 && ((b + 2 ^ 64 - a) % 2 ^ 64 < n || (a + 2 ^ 64 - b) % 2 ^ 64 < m)

/-! ## Matching (R257) -/

/-- The number of a collective's operation as the engine compares it. -/
def EngOp.collCode : EngOp → Nat
  | .callred => 0 | .callgat => 1 | .credsc => 2 | _ => 3

/-- What the engine compares across the participants: the operation, g0, g1 and the record outside RANK. -/
def EngCmd.compared (k : EngCmd) (c : Communicator) : List Nat :=
  k.op.collCode :: k.geo 0 :: k.geo 1 :: c.parts.map fun p => p.1 + 64 * p.2

/-- A begun collective's key: its CID, its number on it, its rank, and what is compared. -/
def EngCmd.withKey (k : EngCmd) (c : Communicator) (seq : Nat) (src : List Byte) : EngCmd :=
  { k with phase := .waiting, key := c.cid :: seq :: c.rank :: k.compared c, src := src }

/-- A begun collective's participants. -/
def EngCmd.parts (k : EngCmd) : List (Nat × Nat) := (k.key.drop 6).map fun e => (e % 64, e / 64)

/-- Whether a command is a begun collective on a CID. -/
def EngCmd.onCid (k : EngCmd) (cid : Nat) : Bool := k.phase == .waiting && k.key.head? == some cid

/-- A core's begun collective with a CID and a number. -/
def State.collOf (s : State) (core cid seq : Nat) : Option EngCmd :=
  (s.eng core 1).out.find? fun k => k.phase == .waiting && k.key.take 2 == [cid, seq]

/-- How many collectives a core has begun on a CID. -/
def State.collCount (s : State) (core cid : Nat) : Nat := smGet (s.core core).collSeq cid 0

/-! ## Aborts (R260) -/

/-- The destination bytes of a command left undefined (R6). -/
def State.spoil (s : State) (core : Nat) (k : EngCmd) (n : Nat) : State :=
  let f := s.freeBytes n
  (f.2.engStore (k.req core) k.a.toNat f.1).1

/-- One command ended ABORTED at its participant, whose context is told. -/
def State.abortCmd (s : State) (core : Nat) (k : EngCmd) (cid n : Nat) : State :=
  let s := (s.spoil core k n).modCmd core 1 k.ticket fun k => k.ended (some ⟨10, word cid⟩)
  s.raise ⟨core, k.ctx⟩ .collectiveAbort (word k.ticket) (some 1)

/-- An abort reaching a participant: every begun collective on the CID ends, and later ones will (R260). -/
def State.abortAt (s : State) (cid core : Nat) : State :=
  let s := s.modCore core fun c =>
    { c with collAborted := if c.collAborted.contains cid then c.collAborted else c.collAborted ++ [cid] }
  ((s.eng core 1).out.filter fun k => k.onCid cid).foldl
    (fun s k => s.abortCmd core k cid (k.dstLen k.parts.length (k.key.getD 2 0))) s

/-- An abort of a CID at participants of this device. -/
def State.abortCid (s : State) (cid : Nat) (cores : List Nat) : State := cores.foldl (fun s c => s.abortAt cid c) s

/-- The participants of this device of a begun collective. -/
def EngCmd.localParts (k : EngCmd) : List Nat := (k.parts.filter fun p => p.1 == Config.deviceNumber % 64).map (·.2)

/-- The abort of a begun collective at every participant (R260). -/
def execCollectiveAbort (core ticket : Nat) (s : State) : Host.Outcome State Fault Refusal :=
  .next (match s.cmd core 1 ticket with
    | some k => if k.phase = .waiting then s.abortCid (k.key.headD 0) k.localParts else s
    | none => s)

/-- The outstanding collectives of other participants that named a core whose command failed (R257). -/
def State.abortPeers (s : State) (core cid : Nat) : State :=
  (smKeys s.cores).foldl (fun s c =>
    if (s.eng c 1).out.any fun k => k.onCid cid && k.localParts.contains core then s.abortAt cid c else s) s

/-! ## Carrying a collective out -/

/-- The buffers of every rank, those of other devices free (R6). -/
def State.buffers (s : State) (cid seq : Nat) (k : EngCmd) : List (Nat × Nat) → Nat → List (List Byte) × State
  | [], _ => ([], s)
  | p :: rest, r =>
    let here := if p.1 = Config.deviceNumber % 64 then s.collOf p.2 cid seq else none
    let (b, t) := match here with
      | some j => (j.src, s)
      | none => s.freeBytes (k.srcLen k.parts.length r)
    let more := State.buffers t cid seq k rest (r + 1)
    (b :: more.1, more.2)

/-- One participant's end: its result written, or free bytes where its buffers overlap (R259). -/
def State.deliver (s : State) (core : Nat) (k : EngCmd) (bufs : List (List Byte)) : State :=
  let n := k.parts.length
  let rank := k.key.getD 2 0
  let own := k.op = .cbcast && rank = k.root && k.a == k.b
  let meet := !own && rangesMeet k.a.toNat (k.dstLen n rank) k.b.toNat (k.srcLen n rank)
  let data := if meet then (s.freeBytes (k.dstLen n rank)).1 else k.result rank bufs
  let s := if meet then (s.freeBytes (k.dstLen n rank)).2 else s
  let r := s.engStore (k.req core) k.a.toNat data
  (r.1.modCmd core 1 k.ticket fun k => k.ended r.2).progress core

/-- A collective all of whose participants have begun it. -/
def State.collDone (s : State) (cid seq : Nat) (k : EngCmd) : State :=
  let b := s.buffers cid seq k k.parts 0
  k.localParts.foldl (fun s c => match s.collOf c cid seq with | some j => s.deliver c j b.1 | none => s) b.2

/-- What another participant's state says of a collective that a core begins: still to come, the same, or a mismatch. A collective that the
participant could not read counts as the one that is to come (log entry 105). -/
def State.peerAgrees (s : State) (cid seq : Nat) (cmp : List Nat) (c : Nat) : Option Bool :=
  match s.collOf c cid seq with
  | some j => some (j.key.drop 3 == cmp)
  | none => if seq < s.collCount c cid || 0 < (s.core c).collLost then some false else none

/-- A participant's unread collective accounted for by the abort that a peer sees (R257). -/
def State.seenLost (s : State) (cid seq c : Nat) : State :=
  if (s.collOf c cid seq).isNone && !(seq < s.collCount c cid) then s.modCore c fun x => { x with collLost := x.collLost - 1 } else s

/-- A collective that has begun: aborted on a mismatch, done when it is the last to begin, and otherwise waiting. -/
def State.matchColl (s : State) (core cid seq ticket : Nat) : State :=
  match s.cmd core 1 ticket with
  | none => s
  | some k =>
    let answers := k.localParts.map (s.peerAgrees cid seq (k.key.drop 3))
    if answers.contains (some false) then (k.localParts.foldl (fun s c => s.seenLost cid seq c) s).abortCid cid k.localParts
    else if answers.contains none then s
    else s.collDone cid seq k

/-- A failure of a collective's record or limits, which its peers see as an abort (R257). -/
def State.collFail (s : State) (core ticket cid : Nat) (f : Failure) : State :=
  (s.modCmd core 1 ticket fun k => k.ended (some f)).abortPeers core cid

/-- The state with a core's next collective on a CID counted (R257). -/
def State.countColl (s : State) (core cid : Nat) : State :=
  s.modCore core fun x => { x with collSeq := smSet x.collSeq cid (smGet x.collSeq cid 0 + 1) }

/-- The CID of a record, where its first word can be read. -/
def State.commCid (s : State) (rq : Req) (va : Nat) : Option Nat :=
  match s.readWords rq va 1 with
  | .ok (w, _) => some (w.headD 0 % 65536)
  | .error _ => none

/-- The begun collectives of other cores that name a core: their CIDs and cores. -/
def State.waitingFor (s : State) (core : Nat) : List (Nat × Nat) :=
  (smKeys s.cores).flatMap fun c => (s.eng c 1).out.filterMap fun k =>
    if k.phase == .waiting && k.localParts.contains core then some (k.key.headD 0, c) else none

/-- A collective whose record faults or breaks a limit: it is counted, and its peers see an abort (R257). Where not even its CID can be read,
those are the collectives that wait for the core, or the next one that does (DESIGN CHOICE, log entry 105). -/
def State.commFail (s : State) (core : Nat) (k : EngCmd) (f : Failure) : State :=
  match s.commCid (k.req core) (k.geo 2) with
  | some cid => (s.countColl core cid).collFail core k.ticket cid f
  | none =>
    let s := s.modCmd core 1 k.ticket fun k => k.ended (some f)
    match s.waitingFor core with
    | [] => s.modCore core fun x => { x with collLost := x.collLost + 1 }
    | l => l.foldl (fun s e => s.abortAt e.1 e.2) s

/-- A collective begins: its record is read and its source captured (R257 to R259). One on a CID that an abort has reached, or that names a
participant on a device that is down, ends ABORTED (R260, R360). -/
def State.runColl (s : State) (core : Nat) (k : EngCmd) : State :=
  match s.readComm (k.req core) (k.geo 2) with
  | .error f => s.commFail core k f
  | .ok (c, s) =>
    let seq := s.collCount core c.cid
    let s := s.countColl core c.cid
    if (s.core core).collAborted.contains c.cid then s.abortCmd core k c.cid (k.dstLen c.n c.rank)
    else if c.parts.any (fun e => (s.part (s.core core).partid).peerDown.contains e.1) then
      (s.modCmd core 1 k.ticket fun k => k.withKey c seq []).abortCid c.cid c.local
    else
      match k.limits c.n with
      | some v => s.collFail core k.ticket c.cid ⟨9, word v⟩
      | none =>
        match s.loadBytes (k.req core) (vaRange k.b.toNat (k.srcLen c.n c.rank)) with
        | .error e => s.collFail core k.ticket c.cid e.failure
        | .ok (l, s) =>
          (s.modCmd core 1 k.ticket fun k => k.withKey c seq l).matchColl core c.cid seq k.ticket

/-- `cabort` (R260). -/
def State.runAbort (s : State) (core : Nat) (k : EngCmd) : State :=
  match s.readComm (k.req core) k.a.toNat with
  | .error f => s.modCmd core 1 k.ticket fun k => k.ended (some f)
  | .ok (c, s) => (s.abortCid c.cid c.local).modCmd core 1 k.ticket fun k => k.ended none

/-- An outstanding collective of a core whose partition a gang switch takes: it ends ABORTED at every participant, begun or not (R252,
R260). -/
def State.endColl (s : State) (core : Nat) (k : EngCmd) : State :=
  match k.phase with
  | .done | .replica => s
  | .waiting => s.abortCid (k.key.headD 0) k.localParts
  | .issued =>
    if k.op = .cabort then s.runAbort core k
    else
      match s.readComm (k.req core) (k.geo 2) with
      | .error f => s.commFail core k f
      | .ok (c, s) =>
        let seq := s.collCount core c.cid
        ((s.countColl core c.cid).modCmd core 1 k.ticket fun k => k.withKey c seq []).abortCid c.cid c.local
end Sys2Proof.Machine
end

