-- ==== Sys2Proof/Machine/Text.lean ====
section
/-! DEFINITION. The text engine: binding, UTF-8 reading, segmentation, stop strings, grammar masks, and following a
committee's stream (R262 to R264, R288 to R307). -/

namespace Sys2Proof.Machine

open Sys2Proof

/-! ## Contexts and configuration (R288 to R291) -/

/-- A text context, by die × 8 plus its number. -/
def State.textCtx (s : State) (k : Nat) : TextCtx := smGet s.texts k {}

/-- The state with a text context's own state replaced; which tables it has read stays. -/
def State.setText (s : State) (k : Nat) (t : TextCtx) : State :=
  let old := s.textCtx k
  { s with texts := smSet s.texts k { t with reads := old.reads, touched := old.touched } }

/-- The state with a text context bound anew, or unbound: it has read no table yet. -/
def State.bindText (s : State) (k : Nat) (t : TextCtx) : State := { s with texts := smSet s.texts k t }

/-- The key of text context `n` of a core's die. -/
def textKey (core n : Nat) : Nat := 8 * dieOf (clusterOf core) + n

/-- Whether a configuration record's reserved fields are zero (R290). -/
def cfgClean (w1 w3 w6 : Nat) : Bool :=
  w1 / 2 ^ 50 == 0 && w3 / 2 ^ 19 % 2 ^ 13 == 0 && w3 / 2 ^ 50 == 0 && w6 / 2 ^ 20 == 0

/-- Whether a configuration keeps its limits (R290). -/
def TextCfg.ok (c : TextCfg) : Bool :=
  c.trie.toNat % 16 == 0 && c.pstr.toNat % 8 == 0 && c.stops.toNat % 8 == 0 && c.gram.toNat % 32 == 0 && c.out.toNat % 128 == 0 &&
  1 ≤ c.nnode && 1 ≤ c.lmax && c.lmax ≤ 64 && 1 ≤ c.npiece && c.npiece ≤ 2 ^ 18 && c.fbbase + 255 < c.npiece && c.ufffd < c.npiece &&
  (c.gram == 0 || 1 ≤ c.nstate)

/-- A configuration record read as eight words, or none where it is refused (R290). -/
def parseCfg (w : List Nat) : Option TextCfg :=
  let g := fun i => w.getD i 0
  let c : TextCfg := ⟨word (g 0), g 1 % 2 ^ 24, g 1 / 2 ^ 24 % 128, g 1 / 2 ^ 31 % 2 == 1, g 1 / 2 ^ 32 % 2 ^ 18, word (g 2),
    g 3 % 2 ^ 19, g 3 / 2 ^ 32 % 2 ^ 18, word (g 4), word (g 5), g 6 % 2 ^ 20, word (g 7)⟩
  if cfgClean (g 1) (g 3) (g 6) && c.ok then some c else none

/-! ## Work that reads memory -/

/-- A computation of the text engine: it reads and writes memory and may end in a failure. -/
abbrev TextM := ExceptT Failure (StateM State)

/-- A computation's environment: the configuration, the requester and the context's key. -/
structure TextEnv where
  cfg : TextCfg
  rq  : Req
  key : Nat
  deriving DecidableEq, Repr

/-- Bytes read. -/
def textRead (rq : Req) (va n : Nat) : TextM (List Byte) := ExceptT.mk fun s =>
  match s.loadBytes rq (vaRange va n) with
  | .error e => (.error e.failure, s)
  | .ok (l, t) => (.ok l, t)

/-- Bytes written. -/
def textWrite (rq : Req) (va : Nat) (l : List Byte) : TextM Unit := ExceptT.mk fun s =>
  match s.engStore rq va l with
  | (t, some f) => (.error f, t)
  | (t, none) => (.ok (), t)

/-- Bytes of a table read. A context whose tables have changed since it read them reads undefined bytes of them (R6, R271). -/
def TextEnv.table (e : TextEnv) (va n : Nat) : TextM (List Byte) := ExceptT.mk fun s =>
  match s.loadBytes e.rq (vaRange va n) with
  | .error x => (.error x.failure, s)
  | .ok (l, t) =>
    let c := t.textCtx e.key
    if c.touched then
      let f := t.freeBytes n
      (.ok f.1, f.2)
    else
      let lines := ((t.translateEach e.rq .load (vaRange va n)).2.map (fun x => x.pa / 128)).eraseDups
      (.ok l, t.bindText e.key { c with reads := c.reads ++ lines.filter fun k => !c.reads.contains k })

/-- A malformed table: TEXT, with the context's number (R251, R292). -/
def TextEnv.bad {α : Type} (e : TextEnv) : TextM α := throw ⟨11, word (e.key % 8)⟩

/-- A check of a table. -/
def TextEnv.must (e : TextEnv) (c : Bool) : TextM Unit := if c then pure () else e.bad

/-! ## The trie (R292) -/

/-- A trie node. -/
structure TrieNode where
  first  : Nat
  nchild : Nat
  label  : Nat
  piece  : Bool
  id     : Nat
  logp   : F32
  deriving DecidableEq, Repr

/-- A node read and checked. -/
def TextEnv.node (e : TextEnv) (i : Nat) : TextM TrieNode := do
  e.must (i < e.cfg.nnode)
  let l ← e.table ((e.cfg.trie.toNat + 16 * i) % 2 ^ 64) 16
  let g := fun a n => bytesToNat ((l.drop a).take n)
  let n : TrieNode := ⟨g 0 4, g 4 2, g 6 1, g 7 1 % 2 == 1, g 8 4, f32 (g 12 4)⟩
  let lp := num32 n.logp
  e.must (n.nchild ≤ 256 && g 7 1 < 2 && n.id < 2 ^ 18 && !(lp.isNan || lp.isInf))
  pure n

/-- Nodes read one after another, their labels strictly rising. -/
def TextEnv.children (e : TextEnv) : Option Nat → List Nat → TextM (List (Nat × Nat))
  | _, [] => pure []
  | last, i :: rest => do
    let n ← e.node i
    e.must (match last with | some b => b < n.label | none => true)
    let more ← TextEnv.children e (some n.label) rest
    pure ((n.label, i) :: more)

/-- The child of a node along a byte. -/
def TextEnv.child (e : TextEnv) (i : Nat) (b : Byte) : TextM (Option Nat) := do
  let n ← e.node i
  let l ← e.children none ((List.range n.nchild).map (n.first + ·))
  pure ((l.find? fun c => c.1 == b.toNat).map (·.2))

/-- The node reached from a node at a depth along bytes; a piece deeper than LMAX is an error. -/
def TextEnv.walk (e : TextEnv) (depth i : Nat) : List Byte → TextM (Option Nat)
  | [] => pure (some i)
  | b :: rest => do
    match ← e.child i b with
    | none => pure none
    | some c =>
      let n ← e.node c
      e.must (!(n.piece && e.cfg.lmax < depth + 1))
      TextEnv.walk e (depth + 1) c rest

/-! ## Characters (R293) -/

/-- The length of the character that a byte leads, with the limits of its second byte. -/
def utf8Lead (b : Nat) : Option (Nat × Nat × Nat) :=
  if b < 0x80 then some (1, 0, 0)
  else if b < 0xC2 then none
  else if b < 0xE0 then some (2, 0x80, 0xBF)
  else if b = 0xE0 then some (3, 0xA0, 0xBF)
  else if b = 0xED then some (3, 0x80, 0x9F)
  else if b < 0xF0 then some (3, 0x80, 0xBF)
  else if b = 0xF0 then some (4, 0x90, 0xBF)
  else if b < 0xF4 then some (4, 0x80, 0xBF)
  else if b = 0xF4 then some (4, 0x80, 0x8F)
  else none

/-- Whether `n` continuation bytes follow: none where the input ends before that is known. -/
def utf8Cont : Nat → Nat → Nat → List Byte → Option Bool
  | 0, _, _, _ => some true
  | _ + 1, _, _, [] => none
  | n + 1, lo, hi, c :: rest => if lo ≤ c.toNat && c.toNat ≤ hi then utf8Cont n 0x80 0xBF rest else some false

/-- The next character of an input, or none where it ends inside a sequence that may still be valid. -/
def nextChar (l : List Byte) : Option TextChar :=
  match l with
  | [] => none
  | b :: rest =>
    match utf8Lead b.toNat with
    | none => some ⟨false, [b]⟩
    | some (n, lo, hi) =>
      match utf8Cont (n - 1) lo hi rest with
      | none => none
      | some true => some ⟨true, l.take n⟩
      | some false => some ⟨false, [b]⟩

/-! ## The lattice (R294, R295) -/

/-- A path: its score and its tokens with the offsets at which they end, in order. -/
structure TextPath where
  score : F32
  toks  : List (Nat × Nat)
  deriving DecidableEq, Repr

/-- The empty path. -/
def TextPath.empty : TextPath := ⟨0, []⟩

/-- The path extended by a token (R295). -/
def TextPath.extend (p : TextPath) (id stop : Nat) (logp : F32) : TextPath :=
  ⟨code32 ((num32 p.score).add false (num32 logp)).1, p.toks ++ [(id, stop)]⟩

/-- Whether one list of numbers is lower than another at their first difference. -/
def lexLower : List Nat → List Nat → Bool
  | a :: as, b :: bs => if a = b then lexLower as bs else a < b
  | _, _ => false

/-- Whether a path wins over another to the same boundary (R295). -/
def TextPath.beats (a b : TextPath) : Bool :=
  match (num32 a.score).cmp (num32 b.score) with
  | .gt => true
  | .lt => false
  | .eq =>
    if a.toks.length = b.toks.length then lexLower (a.toks.map (·.1)) (b.toks.map (·.1)) else a.toks.length < b.toks.length

/-- The best paths with one more candidate. -/
def offer (best : SMap TextPath) (pos : Nat) (p : TextPath) : SMap TextPath :=
  match best.find? (fun e => e.1 == pos) with
  | some (_, q) => if p.beats q then smSet best pos p else best
  | none => smSet best pos p

/-- The piece edges that leave a boundary, as lengths with ids and scores, and whether a piece may still be completed. -/
def TextEnv.edges (e : TextEnv) : List TextChar → Nat → Nat → TextM (List (Nat × Nat × F32) × Bool)
  | [], _, _ => pure ([], true)
  | c :: rest, i, len => do
    if !c.valid then pure ([], false) else
    match ← e.walk len i c.bytes with
    | none => pure ([], false)
    | some j =>
      let n ← e.node j
      let l := len + c.bytes.length
      let more ← if l < e.cfg.lmax then TextEnv.edges e rest j l else pure ([], false)
      pure (if n.piece then (l, n.id, n.logp) :: more.1 else more.1, more.2)

/-- The fallback tokens of a character at an offset, with the bytes of their pieces (R294). -/
def TextEnv.fallback (e : TextEnv) (off : Nat) (c : TextChar) : List (Nat × Nat × List Byte) :=
  if e.cfg.fb then (c.bytes.zipIdx).map fun b => (e.cfg.fbbase + b.1.toNat, off + b.2 + 1, [b.1])
  else [(e.cfg.ufffd, off + c.bytes.length, [0xEF, 0xBF, 0xBD])]

/-- The score of a fallback piece (R294). -/
def TextEnv.fallbackScore (e : TextEnv) (id : Nat) (key : List Byte) : TextM F32 := do
  match ← e.walk 0 0 key with
  | none => e.bad
  | some j =>
    let n ← e.node j
    e.must (n.piece && n.id == id)
    pure n.logp

/-- A path extended by fallback tokens. -/
def TextEnv.extendAll (e : TextEnv) (p : TextPath) : List (Nat × Nat × List Byte) → TextM TextPath
  | [] => pure p
  | (id, stop, key) :: rest => do
    let lp ← e.fallbackScore id key
    TextEnv.extendAll e (p.extend id stop lp) rest

/-- The best path to every boundary of a lattice, by offset (R294, R295). A boundary from which a piece may still be completed has no fallback
edges: the lattice of "Under" after a space, where only longer pieces begin, would otherwise look up a fallback piece that the trie of
22_prog_alignment.md does not have (DEDUCED, log entry 106). -/
def TextEnv.best (e : TextEnv) : List TextChar → Nat → SMap TextPath → TextM (SMap TextPath)
  | [], _, best => pure best
  | c :: rest, off, best => do
    let g ← e.edges (c :: rest) 0 0
    let best ← match best.find? (fun b => b.1 == off) with
      | none => pure best
      | some (_, p) =>
        if g.1.isEmpty && !g.2 then do
          let q ← e.extendAll p (e.fallback off c)
          pure (offer best (off + c.bytes.length) q)
        else pure (g.1.foldl (fun b x => offer b (off + x.1) (p.extend x.2.1 (off + x.1) x.2.2)) best)
    TextEnv.best e rest (off + c.bytes.length) best

/-! ## Settling (R296) -/

/-- The boundaries of a lattice after its start. -/
def ends : Nat → List TextChar → List Nat
  | _, [] => []
  | off, c :: rest => (off + c.bytes.length) :: ends (off + c.bytes.length) rest

/-- The length of a lattice in bytes. -/
def latticeLen (l : List TextChar) : Nat := l.foldl (fun n c => n + c.bytes.length) 0

/-- The common prefix of two lists. -/
def commonPrefix : List (Nat × Nat) → List (Nat × Nat) → List (Nat × Nat)
  | a :: as, b :: bs => if a = b then a :: commonPrefix as bs else []
  | _, _ => []

/-- The lattice from an offset on. -/
def dropTo : Nat → List TextChar → List TextChar
  | _, [] => []
  | n, c :: rest => if n = 0 then c :: rest else dropTo (n - c.bytes.length) rest

/-- Every token up to the last boundary of a lattice: where it has no best path, the characters behind the last boundary that has one by
their fallback edges, each looked up in the trie (R294, R296). -/
def TextEnv.allTokens (e : TextEnv) (best : SMap TextPath) (l : List TextChar) : TextM (List (Nat × Nat)) := do
  let q := ((0 :: ends 0 l).filter (smHas best)).foldl max 0
  let tail := (l.zip (0 :: ends 0 l)).filter fun c => q ≤ c.2
  let p ← e.extendAll (smGet best q TextPath.empty) (tail.flatMap fun c => e.fallback c.2 c.1)
  pure p.toks

/-- A step: its tokens with the offsets at which they end, the lattice after it, and whether it was forced. -/
structure TextStep where
  toks    : List (Nat × Nat)
  lattice : List TextChar
  forced  : Bool
  deriving DecidableEq, Repr

/-- The step after a character (R296). -/
def TextEnv.settle (e : TextEnv) (l : List TextChar) : TextM TextStep := do
  let best ← e.best l 0 [(0, TextPath.empty)]
  let p := latticeLen l
  let live := ((0 :: ends 0 l).filter fun b => p < b + e.cfg.lmax).filterMap fun b =>
    (best.find? fun x => x.1 == b).map fun x => x.2.toks
  let toks := match live with
    | [] => []
    | t :: rest => rest.foldl commonPrefix t
  let start := (toks.getLast?.map (·.2)).getD 0
  if 64 < p - start then do
    let all ← e.allTokens best l
    pure ⟨all, [], true⟩
  else pure ⟨toks, dropTo start l, false⟩

/-- What reading an input gave: the tokens with the positions at which they end, counted from the lattice's first start, the
lattice, the bytes not taken, and the flags. -/
structure TextFed where
  toks    : List (Nat × Nat)
  lattice : List TextChar
  rest    : List Byte
  full    : Bool
  forced  : Bool
  deriving DecidableEq, Repr

/-- Characters read from an input, each with its step; `base` is where the lattice starts (R293, R296). A step whose tokens would pass `cap` is
not taken; with `past`, as for a follower, it is, and the reading stops where there are `cap` tokens (R306). -/
def TextEnv.feed (e : TextEnv) (cap : Nat) (past : Bool) : Nat → Nat → TextFed → TextM TextFed
  | 0, _, r => pure r
  | fuel + 1, base, r =>
    match nextChar r.rest with
    | none => pure r
    | some c =>
      if past && cap ≤ r.toks.length then pure { r with full := true } else do
      let st ← e.settle (r.lattice ++ [c])
      if !past && cap < r.toks.length + st.toks.length then pure { r with full := true }
      else
        let len := latticeLen r.lattice + c.bytes.length
        TextEnv.feed e cap past fuel (base + (len - latticeLen st.lattice))
          { r with toks := r.toks ++ st.toks.map (fun t => (t.1, base + t.2)), lattice := st.lattice,
                   rest := r.rest.drop c.bytes.length, forced := r.forced || st.forced }

/-- The final step (R293, R296): the carried bytes are read as a broken sequence, and every token is emitted at once. -/
def TextEnv.finalStep (e : TextEnv) (cap base : Nat) (r : TextFed) : TextM TextFed := do
  let l := r.lattice ++ r.rest.map fun b => (⟨false, [b]⟩ : TextChar)
  let best ← e.best l 0 [(0, TextPath.empty)]
  let toks ← e.allTokens best l
  pure (if cap < r.toks.length + toks.length then { r with full := true }
    else { r with toks := r.toks ++ toks.map (fun t => (t.1, base + t.2)), lattice := [], rest := [] })

/-- A context's input read (R293 to R297). -/
def TextEnv.tokenize (e : TextEnv) (t : TextCtx) (input : List Byte) (final past : Bool) (cap : Nat) : TextM TextFed := do
  let buf := t.carried ++ input
  let r ← e.feed cap past buf.length 0 ⟨[], t.lattice, buf, false, false⟩
  if final && !r.full then
    e.finalStep cap (latticeLen t.lattice + (buf.length - r.rest.length) - latticeLen r.lattice) r
  else pure r

/-- The bytes of an input that a reading consumed: bytes carried at its end count as consumed (R293, R296). -/
def TextFed.used (r : TextFed) (input : Nat) : Nat := if (nextChar r.rest).isSome then input - r.rest.length else input

/-- The bytes carried after a reading: an incomplete tail, or what was carried before and was not taken. -/
def TextFed.carried (r : TextFed) (input : Nat) : List Byte :=
  if (nextChar r.rest).isSome then r.rest.take (r.rest.length - input) else r.rest

/-! ## Stop strings (R298 to R300) -/

/-- A used stop string. -/
structure StopString where
  text : List Byte
  incl : Bool
  deriving DecidableEq, Repr

/-- The stop strings of a table, the lowest entry first (R299); a malformed entry fails with LIMIT and its word. -/
def parseStops : List (List Byte) → Except Failure (List StopString)
  | [] => .ok []
  | l :: rest =>
    let len := bytesToNat ((l.drop 32).take 1)
    let tail := bytesToNat (l.drop 32)
    if 32 < len || 2 ^ 9 ≤ tail then .error ⟨9, word tail⟩
    else
      match parseStops rest with
      | .error f => .error f
      | .ok more => .ok (if len = 0 then more else ⟨l.take len, bytesToNat ((l.drop 33).take 1) == 1⟩ :: more)

/-- Whether a list ends with another. -/
def endsWith (l s : List Byte) : Bool := s.length ≤ l.length && l.drop (l.length - s.length) == s

/-- The longest suffix of bytes that is a proper prefix of a stop string: its length (R300). -/
def heldLen (stops : List StopString) (l : List Byte) : Nat :=
  ((List.range 32).filter fun n => n ≤ l.length && stops.any fun s => n < s.text.length && endsWith l (s.text.take n)).foldl max 0

/-- The output of a detokenizer: the bytes emitted, those held back, and whether a stop string has ended it. -/
structure DetokOut where
  out  : List Byte
  held : List Byte
  stop : Bool
  deriving DecidableEq, Repr

/-- One more byte of output (R300). -/
def DetokOut.put (stops : List StopString) (o : DetokOut) (b : Byte) : DetokOut :=
  let t := o.held ++ [b]
  match stops.find? (fun s => endsWith t s.text) with
  | some s => ⟨o.out ++ (if s.incl then t else t.take (t.length - s.text.length)), [], true⟩
  | none =>
    let n := heldLen stops t
    ⟨o.out ++ t.take (t.length - n), t.drop (t.length - n), false⟩

/-- A token's bytes put out until a stop string completes. -/
def DetokOut.putAll (stops : List StopString) (o : DetokOut) : List Byte → DetokOut
  | [] => o
  | b :: rest => if o.stop then o else DetokOut.putAll stops (o.put stops b) rest

/-- The bytes of a piece (R291). -/
def TextEnv.piece (e : TextEnv) (id : Nat) : TextM (List Byte) := do
  let w := bytesToNat (← e.table ((e.cfg.pstr.toNat + 8 * id) % 2 ^ 64) 8)
  let len := w / 2 ^ 32
  e.must (1 ≤ len && len ≤ 64)
  e.table (w % 2 ^ 32) len

/-- What detokenizing gave: the output, the tokens consumed, whether the capacity was reached, and a token's failure. -/
structure Detok where
  out  : DetokOut
  used : Nat
  full : Bool
  fail : Option Failure
  deriving DecidableEq, Repr

/-- Tokens turned into bytes (R298, R300): a token whose bytes would pass the capacity leaves the output as it was. -/
def TextEnv.detok (e : TextEnv) (stops : List StopString) (cap : Nat) : List Nat → Detok → TextM Detok
  | [], r => pure r
  | id :: rest, r => do
    if r.out.stop then pure r
    else if e.cfg.npiece ≤ id then pure { r with fail := some ⟨9, word id⟩ }
    else do
      let l ← e.piece id
      let o := r.out.putAll stops l
      if cap < o.out.length then pure { r with full := true }
      else TextEnv.detok e stops cap rest { r with out := o, used := r.used + 1 }

/-- The end of the input: with FINAL, the held bytes are emitted if they fit (R300). -/
def Detok.final (r : Detok) (cap : Nat) : Detok :=
  if r.full || r.fail.isSome || r.out.stop then r
  else if cap < r.out.out.length + r.out.held.length then { r with full := true }
  else { r with out := ⟨r.out.out ++ r.out.held, [], false⟩ }

/-! ## Grammar automata (R301 to R303) -/

/-- A state of an automaton: its number and its stack, the top first. -/
abbrev AutoState := Nat × List Byte

/-- A state record. -/
structure AutoRec where
  cimask : Nat
  cdlist : Nat
  cdn    : Nat
  trans  : Nat
  deriving DecidableEq, Repr

/-- A state's record read and checked; of CDN the low 13 bits count, the others are reserved (R5, R301). -/
def TextEnv.autoRec (e : TextEnv) (st : Nat) : TextM AutoRec := do
  let l ← e.table ((e.cfg.gram.toNat + 32 * st) % 2 ^ 64) 32
  let w := elemsOf 64 4 (bytesToNat l)
  let r : AutoRec := ⟨w.getD 0 0, w.getD 1 0, w.getD 2 0 % 2 ^ 13, w.getD 3 0⟩
  e.must (r.cimask % 128 == 0 && r.cdlist % 4 == 0 && r.trans % 4 == 0)
  pure r

/-- One byte's transition, or none where it rejects (R302). -/
def TextEnv.autoByte (e : TextEnv) (a : AutoState) (b : Byte) : TextM (Option AutoState) := do
  let r ← e.autoRec a.1
  let w := bytesToNat (← e.table ((r.trans + 4 * b.toNat) % 2 ^ 64) 4)
  e.must (w / 2 ^ 22 % 4 == 0)
  let next := w % 2 ^ 20
  let sym : Byte := BitVec.ofNat 8 (w / 2 ^ 24)
  pure (if e.cfg.nstate ≤ next then none
    else match w / 2 ^ 20 % 4 with
      | 0 => some (next, a.2)
      | 1 => if 1024 ≤ a.2.length then none else some (next, sym :: a.2)
      | 2 => (match a.2 with | t :: rest => if t = sym then some (next, rest) else none | [] => none)
      | _ => none)

/-- Bytes run from a state (R302). -/
def TextEnv.autoRun (e : TextEnv) (a : AutoState) : List Byte → TextM (Option AutoState)
  | [] => pure (some a)
  | b :: rest => do
    match ← e.autoByte a b with
    | none => pure none
    | some c => TextEnv.autoRun e c rest

/-- A token run from a state: an id of NPIECE or above is rejected. -/
def TextEnv.autoToken (e : TextEnv) (a : AutoState) (id : Nat) : TextM (Option AutoState) := do
  if e.cfg.npiece ≤ id then pure none else e.autoRun a (← e.piece id)

/-- Those of a list of ids below NPIECE that are accepted. -/
def TextEnv.accepted (e : TextEnv) (a : AutoState) : List Nat → TextM (List Nat)
  | [] => pure []
  | id :: rest => do
    let r ← e.autoToken a id
    let more ← TextEnv.accepted e a rest
    pure (if r.isSome then id :: more else more)

/-- The mask of a state, 32 KiB (R303). -/
def TextEnv.mask (e : TextEnv) (a : AutoState) : TextM (List Byte) := do
  let r ← e.autoRec a.1
  let ci ← e.table r.cimask 32768
  let n := min r.cdn 4096
  let ids := elemsOf 32 n (bytesToNat (← e.table r.cdlist (4 * n)))
  let ok ← e.accepted a ids
  pure ((ci.zipIdx).map fun b =>
    (ok.filter fun id => id / 8 == b.2).foldl (fun (v : Byte) id => v ||| BitVec.ofNat 8 (2 ^ (id % 8))) b.1)

/-! ## The commands (R262 to R264) -/

/-- A computation carried out: the state, and its result or failure. -/
def State.runText {α : Type} (s : State) (m : TextM α) : Except Failure α × State := m.run.run s

/-- A result record (R264). -/
def resultRecord (emitted used held : Nat) (stop forced full : Bool) : List Byte :=
  natToBytes 4 emitted ++ natToBytes 4 used ++ natToBytes 4 held ++
    natToBytes 4 (stop.toNat + forced.toNat * 2 + full.toNat * 4)

/-- The limits of `xtok` and `xdetok`, or the failure of the first that is broken (R263, R264). -/
def EngCmd.textLimits (k : EngCmd) (most g4 : Nat) : Option Failure :=
  if most < k.b.toNat then some ⟨9, k.b⟩
  else if k.op == .xtok && k.geo 1 % 4 != 0 then some ⟨2, word (k.geo 1)⟩
  else if k.geo 3 % 16 != 0 then some ⟨2, word (k.geo 3)⟩
  else if g4 < k.geo 4 then some ⟨9, word (k.geo 4)⟩
  else none

/-- `xtok` on a context (R293 to R297): the context after it. -/
def TextEnv.xtok (e : TextEnv) (k : EngCmd) (t : TextCtx) : TextM TextCtx := do
  let n := k.b.toNat
  let input ← textRead e.rq k.a.toNat n
  let r ← e.tokenize t input (k.geo 4 == 1) false (k.geo 2)
  textWrite e.rq (k.geo 1) (r.toks.flatMap fun x => natToBytes 4 x.1)
  let u := { t with lattice := r.lattice, carried := r.carried n }
  textWrite e.rq (k.geo 3)
    (resultRecord r.toks.length (r.used n) (latticeLen u.lattice + u.carried.length) false r.forced r.full)
  pure u

/-- The stop strings of a configuration. -/
def TextEnv.stops (e : TextEnv) : TextM (List StopString) := do
  if e.cfg.stops = 0 then pure []
  else
    let l ← e.table e.cfg.stops.toNat 320
    match parseStops ((List.range 8).map fun i => (l.drop (40 * i)).take 40) with
    | .ok x => pure x
    | .error f => throw f

/-- `xdetok` on a context (R298 to R300): the context after it, and its failure at a bad id. -/
def TextEnv.xdetok (e : TextEnv) (k : EngCmd) (t : TextCtx) : TextM (TextCtx × Option Failure) := do
  let st ← e.stops
  let restart := k.geo 4 / 2 == 1
  let held := if restart then [] else t.held
  if t.stopped && !restart then do
    textWrite e.rq (k.geo 3) (resultRecord 0 0 t.held.length true false false)
    pure (t, none)
  else do
    let ids := elemsOf 32 k.b.toNat (bytesToNat (← textRead e.rq k.a.toNat (4 * k.b.toNat)))
    let r ← e.detok st (k.geo 2) ids ⟨⟨[], held, false⟩, 0, false, none⟩
    let r := if k.geo 4 % 2 = 1 then r.final (k.geo 2) else r
    textWrite e.rq (k.geo 1) r.out.out
    textWrite e.rq (k.geo 3) (resultRecord r.out.out.length r.used r.out.held.length r.out.stop false r.full)
    pure ({ t with held := r.out.held, stopped := r.out.stop }, r.fail)

/-- `xmask` on a context (R303): the context after it. -/
def TextEnv.xmask (e : TextEnv) (k : EngCmd) (t : TextCtx) : TextM TextCtx := do
  let id := k.b.toNat
  let r ← if id = 0xFFFFFFFF then pure (some (0, [])) else e.autoToken (t.auto, t.stack) id
  match r with
  | none => throw ⟨9, k.b⟩
  | some a => do
    let m ← e.mask a
    textWrite e.rq k.a.toNat m
    pure { t with auto := a.1, stack := a.2 }

/-- `xbind` (R262, R290). -/
def State.xbind (s : State) (core : Nat) (k : EngCmd) : CmdEnd :=
  let n := k.b.toNat % 8
  let key := textKey core n
  let p := (s.core core).partid
  let t := s.textCtx key
  if t.bound.isSome && t.bound != some p then failed s 5 n
  else if k.a = 0 then (s.bindText key {}, none)
  else if k.a.toNat % 64 != 0 then failed s 2 k.a.toNat
  else
    match s.readWords (k.req core) k.a.toNat 8 with
    | .error e => s.cmdFail e
    | .ok (w, s) =>
      match parseCfg w with
      | none => failed s 11 n
      | some c => (s.bindText key { bound := some p, recAddr := k.a, cfg := some c }, none)

/-- RLOG of a follow area, checked for a tokenizer (R305). -/
def State.readRlog (s : State) (rq : Req) (c : TextCfg) : Except Failure (Nat × Nat × State) :=
  if c.gram != 0 then .ok (0, 0, s)
  else
    match s.readWords rq c.out.toNat 4 with
    | .error e => .error e.failure
    | .ok (w, s) =>
      let r := w.getD 3 0 % 32
      if 1 ≤ r && r ≤ 16 then .ok (r, w.headD 0, s) else .error ⟨9, word r⟩

/-- `xfollow` (R262, R305). -/
def State.xfollow (s : State) (core : Nat) (k : EngCmd) (key : Nat) (t : TextCtx) (c : TextCfg) : CmdEnd :=
  let cm := k.a.toNat % 8
  let cpos := (smGet s.comms cm {}).cpos.toNat
  let start := k.geo 1
  if cpos < start || start + 65536 < cpos then failed s 9 start
  else if c.out = 0 then failed s 9 0
  else
    match s.readRlog (k.req core) c with
    | .error f => (s, some f)
    | .ok (r, prod, s) =>
      let f : Follow := ⟨cm, k.b.toNat % 8, start, core, k.ticket, k.ptroot, k.priv, prod, r, []⟩
      (s.setText key { t with lattice := [], carried := [], follow := some f }, none)

/-- A text computation's end as a command's: the context it leaves, or its failure. -/
def endText (key : Nat) (r : Except Failure TextCtx × State) : CmdEnd :=
  match r with
  | (.ok t, s) => (s.setText key t, none)
  | (.error f, s) => (s, some f)

/-- A working command on a bound context (R263). -/
def State.textWork (s : State) (core : Nat) (k : EngCmd) (key : Nat) (t : TextCtx) (c : TextCfg) : CmdEnd :=
  let e : TextEnv := ⟨c, k.req core, key⟩
  match k.op with
  | .xtok =>
    (match k.textLimits 65536 1 with
     | some f => (s, some f)
     | none => endText key (s.runText (e.xtok k t)))
  | .xdetok =>
    (match k.textLimits 16384 3 with
     | some f => (s, some f)
     | none =>
       match s.runText (e.xdetok k t) with
       | (.ok (u, f), s) => (s.setText key u, f)
       | (.error f, s) => (s, some f))
  | _ =>
    if k.a.toNat % 128 != 0 then failed s 2 k.a.toNat
    else if c.gram = 0 then failed s 11 (key % 8)
    else endText key (s.runText (e.xmask k t))

/-- A text command carried out (R262, R263, R305). -/
def State.runTextCmd (s : State) (core : Nat) (k : EngCmd) : CmdEnd :=
  if k.op = .xbind then s.xbind core k
  else
    let n := k.geo 0 % 8
    let key := textKey core n
    let t := s.textCtx key
    match t.cfg with
    | none => failed s 11 n
    | some c =>
      if t.bound != some (s.core core).partid then failed s 11 n
      else if k.op = .xfollow then s.xfollow core k key t c
      else if t.follow.isSome then failed s 11 n
      else s.textWork core k key t c

/-! ## Following (R305 to R307) -/

/-- A following context as a requester: its accesses are the engine's own, with no command whose superstep defers them. -/
def Follow.req (f : Follow) : Req :=
  { core := f.core, ctx := 0, priv := f.priv, ptroot := f.ptroot, eng := some 3, direct := true }

/-- The catch unit as a requester for a committee's addresses: those of the owner, present or switched out (R276). -/
def Committee.req (c : Committee) : Req :=
  { core := c.core, ctx := 0, priv := 1, ptroot := c.ptroot, eng := some 5, direct := true, part := c.owner }

/-- The addresses of ring bytes for positions from `p` on: offset p mod the ring's size (R246, R309). -/
def ringVas (base size p n : Nat) : List Nat := (List.range n).map fun i => (base + (p + i) % size) % 2 ^ 64

/-- Committed bytes read from a committee's stream queue (R246). -/
def streamRead (c : Committee) (stream p n : Nat) : TextM (List Byte) := ExceptT.mk fun s =>
  match s.loadBytes c.req (ringVas stream 65536 p n) with
  | .error e => (.error e.failure, s)
  | .ok (l, t) => (.ok l, t)

/-- Ring entries written, from token number `prod` on (R306). -/
def Follow.writeRing (f : Follow) (out : Nat) : Nat → List (Nat × Nat) → TextM Unit
  | _, [] => pure ()
  | prod, (id, stop) :: rest => do
    textWrite f.req ((out + 0x80 + 8 * (prod % 2 ^ f.rlog)) % 2 ^ 64) (natToBytes 8 (id + stop % 2 ^ 32 * 2 ^ 32))
    Follow.writeRing f out (prod + 1) rest

/-- Tokens written to the ring as far as it has room, then SETTLED and PROD; the others wait (R306). -/
def TextEnv.emit (e : TextEnv) (t : TextCtx) (f : Follow) (toks : List (Nat × Nat)) (room : Nat) : TextM TextCtx := do
  let out := e.cfg.out.toNat
  let now := toks.take room
  f.writeRing out f.prod now
  let prod := f.prod + now.length
  match now.getLast? with
  | none => pure ()
  | some x => do
    textWrite f.req (out + 8) (natToBytes 8 x.2)
    textWrite f.req out (natToBytes 8 prod)
  pure { t with follow := some { f with prod := prod, pend := toks.drop room } }

/-- A tokenizer's step on the stream (R306): the context after it. It consumes nothing while the ring is full. -/
def TextEnv.followTokens (e : TextEnv) (t : TextCtx) (f : Follow) (c : Committee) (stream : Nat) : TextM TextCtx := do
  let rdcnt := bytesToNat (← textRead f.req (e.cfg.out.toNat + 0x10) 8)
  let room := 2 ^ f.rlog - (f.prod + 2 ^ 64 - rdcnt) % 2 ^ 64
  if room = 0 then pure t
  else if !f.pend.isEmpty then e.emit t f f.pend room
  else do
    let n := c.cpos.toNat - f.pos
    let input ← streamRead c stream f.pos n
    let start := f.pos - latticeLen t.lattice - t.carried.length
    let r ← e.tokenize t input false true room
    e.emit { t with lattice := r.lattice, carried := r.carried n } { f with pos := f.pos + r.used n }
      (r.toks.map fun x => (x.1, start + x.2)) room

/-- A grammar's step for the next commit (R305, R307): its bytes are read from the stream queue, and its token is run. -/
def TextEnv.followGrammar (e : TextEnv) (t : TextCtx) (f : Follow) (c : Committee) (stream : Nat) (k : Committed) : TextM TextCtx := do
  let out := e.cfg.out.toNat
  let _ ← streamRead c stream f.pos (k.cpos - f.pos)
  match ← e.autoToken (t.auto, t.stack) k.id with
  | none => do
    textWrite f.req out (List.replicate 32768 0)
    textWrite f.req (out + 0x8000) (natToBytes 8 (k.n + 1))
    pure { t with follow := some { f with pos := k.cpos } }
  | some a => do
    let m ← e.mask a
    textWrite f.req out m
    textWrite f.req (out + 0x8000) (natToBytes 8 (k.n + 1))
    pure { t with auto := a.1, stack := a.2, follow := some { f with pos := k.cpos } }

/-- A following context's step, where a commit is before it. -/
def TextEnv.followStep (e : TextEnv) (t : TextCtx) (f : Follow) (c : Committee) : TextM TextCtx :=
  match c.record with
  | none => pure t
  | some r =>
    if e.cfg.gram = 0 then e.followTokens t f c r.stream.toNat
    else
      match c.log.find? (fun k => f.pos < k.cpos) with
      | none => pure t
      | some k => e.followGrammar t f c r.stream.toNat k

/-- A following context that meets a failure: it stops, and the failure is recorded under its `xfollow`'s ticket (R305). -/
def State.stopFollowing (s : State) (key : Nat) (f : Follow) (x : Failure) : State :=
  (s.setText key { s.textCtx key with follow := none }).modEng f.core 3 fun c => c.fail f.ticket x

/-- A following text context reads what has been committed (R305 to R307). -/
def execTextFollow (k : Nat) (s : State) : Host.Outcome State Fault Refusal :=
  let t := s.textCtx k
  match t.follow, t.cfg with
  | some f, some c =>
    let cm := smGet s.comms f.comm {}
    if cm.cpos.toNat ≤ f.pos && f.pend.isEmpty then .next s
    else
      match s.runText ((⟨c, f.req, k⟩ : TextEnv).followStep t f cm) with
      | (.ok u, s) => .next (s.setText k u)
      | (.error x, s) => .next (s.stopFollowing k f x)
  | _, _ => .next s

end Sys2Proof.Machine
end

