-- ==== Sys2Proof/Machine/Committee.lean ====
section
/-! DEFINITION. The catch unit: committees, members, arrivals, decisions and commits, and the instructions of major 0x38, op 0x00
to 0x3F (R41, R42, R96, R97, R222, R246, R308 to R333, R336, R337, R344, R348). -/

namespace Sys2Proof.Machine

open Sys2Proof

/-! ## Committees and members -/

/-- A committee. -/
def State.comm (s : State) (c : Nat) : Committee := smGet s.comms c {}

/-- The state with a committee changed. -/
def State.modComm (s : State) (c : Nat) (f : Committee → Committee) : State := { s with comms := smSet s.comms c (f (s.comm c)) }

/-- Whether a committee is configured. -/
def Committee.configured (c : Committee) : Bool := c.state != .off

/-- A member of a committee. -/
def Committee.member (c : Committee) (m : Nat) : Member := smGet c.members m {}

/-- The committee with a member changed. -/
def Committee.modMember (c : Committee) (m : Nat) (f : Member → Member) : Committee :=
  { c with members := smSet c.members m (f (c.member m)) }

/-- The committee's umpire, if it has a record. -/
def Committee.umpire (c : Committee) : Option Nat := c.record.map (·.ump)

/-- The number of shards. -/
def Committee.nshard (c : Committee) : Nat := (c.record.map (·.nshard)).getD 0

/-- The number of pivot ids. -/
def Committee.npiece (c : Committee) : Nat := (c.record.map (·.npiece)).getD 0

/-- The code of a member state (R96). -/
def MState.code : MState → Nat
  | .absent => 0 | .voting => 1 | .lagging => 2 | .late => 3 | .spent => 4 | .faulted => 5 | .rejoining => 6

/-- The code of a committee state (R329). -/
def CState.code : CState → Nat
  | .off => 0 | .opened => 1 | .decided => 2 | .halted => 3

/-- Whether a member in this state is expected at a catch that opens (R316). -/
def MState.expected : MState → Bool
  | .voting => true | .lagging => true | .late => true | _ => false

/-- The member whose crew a partition is (R308): an absent member's entry names no crew that may arrive. -/
def Committee.memberOf (c : Committee) (p : Nat) : Option Nat :=
  if !c.configured then none else (c.members.find? fun e => e.2.part == p && e.2.state != .absent).map (·.1)

/-- The committee and member whose crew a partition is. -/
def State.crewOf (s : State) (p : Nat) : Option (Nat × Nat) := s.comms.findSome? fun e => (e.2.memberOf p).map fun m => (e.1, m)

/-! ## Answers (R326, R332) -/

/-- A waiting context goes on behind its answered instruction with the answer in xd. -/
def Ctx.answered (x : Ctx) (d : Nat) (v : Word) : Ctx :=
  let y := ({ x with wait := .none } : Ctx).setX d v
  { y with pc := y.pc + 4 }

/-- The boundary checkpoint of a control context (R396). -/
def Ctx.checkpoint (c : Ctx) : Checkpoint :=
  ⟨c.x, c.f, c.p, c.pc, c.fpctl, c.vstat, c.vrep, c.rcstat, c.scratch, c.qscale, c.tnote, c.vback⟩

/-- A core's contexts after an answer: each whose wait is selected goes on. A step-mode core's checkpoint is taken again, at
the address where its control context goes on. -/
def Core.answer (c : Core) (step : Bool) (sel : Wait → Option (Ctx → Ctx)) : Core :=
  let c' : Core := { c with ctxs := c.ctxs.map fun e => match sel e.2.wait with | some f => (e.1, f e.2) | none => e }
  if step && (sel (c.ctx 0).wait).isSome then { c' with checkpoint := some (c'.ctx 0).checkpoint } else c'

/-- Whether a core has a context that an answer selects. -/
def Core.awaits (c : Core) (sel : Wait → Option (Ctx → Ctx)) : Bool := c.ctxs.any fun e => (sel e.2.wait).isSome

/-- Every waiting context that an answer selects goes on; one of a partition that is switched out has it at resume (R324).
An answer is a progress event (R355). -/
def State.answerAll (s : State) (sel : Nat → Wait → Option (Ctx → Ctx)) : State :=
  let told := (s.cores.filter fun c => c.2.inPart && c.2.awaits (sel c.2.partid)).map (·.1)
  let cores := s.cores.map fun c => if c.2.inPart then (c.1, c.2.answer (s.stepMode c.1) (sel c.2.partid)) else c
  let images := s.images.map fun i =>
    (i.1, { i.2 with cores := i.2.cores.map fun c => (c.1, c.2.answer i.2.part.mode (sel i.2.partid)) })
  let t : Word := word s.time
  let heard := images.map fun i =>
    if ((smGet s.images i.1 i.2).cores.any fun c => c.2.awaits (sel i.2.partid)) then (i.1, { i.2 with part := i.2.part.progressed t }) else i
  told.foldl (fun s c => s.progress c) { s with cores := cores, images := heard }

/-- A core whose control context has a cause pending. -/
def Core.pend (c : Core) (cause : Cause) (tval : Word) (eng : Option Nat) : Core :=
  let x := c.ctx 0
  { c with ctxs := smSet c.ctxs 0 { x with pending := addPending x.pending ⟨cause, tval, eng⟩ } }

/-- A partition's cause raised for its supervisor, in its image if it is switched out. -/
def State.raisePart (s : State) (p : Nat) (cause : Cause) (tval : Word) (eng : Option Nat) : State :=
  if (s.part p).live then s.raiseSup p cause tval eng
  else { s with images := s.images.map fun i =>
    if i.2.partid = p then (i.1, { i.2 with cores := i.2.cores.map fun c =>
      if c.1 = 0 then (c.1, c.2.pend cause tval eng) else c }) else i }

/-- The answer word of a catch (R332). -/
def catchWord (status id cpos : Nat) : Word := word (id % 2 ^ 18 + status * 2 ^ 20 + cpos % 2 ^ 40 * 2 ^ 24)

/-- The id of an answer that names no draw (R332). -/
def noId : Nat := 0x3FFFF

/-- The answer to every catch of a committee that waits: its word, by the crew's partition, the catch named, and how it waits (0 counted, 1
not counted, 2 for a token that an unfinished commit has already taken). -/
def catchAnswer (c : Nat) (ans : Nat → Nat → Nat → Option Word) (p : Nat) (w : Wait) : Option (Ctx → Ctx) :=
  match w with
  | .catchAns k n d late => if k = c then (ans p n late).map fun v => fun x => x.answered d v else none
  | _ => none

/-- The answers of a committee that halts (R315, R339, R345): HALTED, to catches, `cwait`s and contributions. -/
def haltAnswer (c : Nat) (v : Word) (p : Nat) (w : Wait) : Option (Ctx → Ctx) :=
  match w with
  | .cwait k _ _ _ d => if k = c then some fun x => x.answered d (word (2 ^ 16)) else none
  | .nsum k _ _ d => if k = c then some fun x => x.answered d (word (2 ^ 32)) else none
  | w => catchAnswer c (fun _ _ _ => some v) p w

/-! ## Member events (R323) -/

/-- Whether a member event's code is recorded in CMEM.EVT. -/
def eventOfMember (code : Nat) : Bool := [1, 2, 6, 7, 8].contains code

/-- A cause of the catch unit raised for the committee's owner, if it has one (R315). -/
def State.tellOwner (s : State) (c : Nat) (cause : Cause) (tval : Nat) : State :=
  match (s.comm c).owner with
  | some p => s.raisePart p cause (word tval) (some 5)
  | none => s

/-- A member event (R323). -/
def State.memberEvent (s : State) (c m code : Nat) : State :=
  let s := if eventOfMember code then s.modComm c fun x => x.modMember m fun y => { y with evt := code } else s
  s.tellOwner c .memberEvent (c * 65536 + (if eventOfMember code then m * 4096 else 0) + code)

/-- CPAT.COUNT: patience units left (R310). -/
def Committee.patience (c : Committee) : Nat :=
  match c.timer with
  | some r => (r + 255) / 256
  | none => c.cpat.toNat

/-- The committee with its patience timer ended; CPAT keeps its count (R310, R315). -/
def Committee.stopTimer (c : Committee) : Committee := { c with timer := none, cpat := BitVec.ofNat 32 c.patience }

/-- A committee that becomes HALTED (R315). -/
def State.haltComm (s : State) (c : Nat) (event : Bool) : State :=
  let v := catchWord 5 noId (s.comm c).cpos.toNat
  let s := (s.modComm c fun x => { x.stopTimer with state := .halted, rounds := [] }).answerAll (haltAnswer c v)
  if event then s.memberEvent c 0 4 else s

/-! ## Takes of vote vectors (R313, R314, R347) -/

/-- The lines of a member's vote vectors. -/
def CRecord.voteLines (r : CRecord) (m kspec : Nat) : List Nat :=
  (List.range (kspec + 1)).flatMap fun t => (List.range ((4 * r.npiece + 127) / 128)).map fun i =>
    (r.vbase.toNat + (8 * t + m) * r.vstride + 128 * i) % 2 ^ 64

/-- One take of each line of a member's vote vectors (R314): an OVERREAD is ignored, any other refusal is a member event. -/
def State.takeVotes (s : State) (c m kspec : Nat) : State :=
  match (s.comm c).record with
  | none => s
  | some r =>
    (r.voteLines m kspec).foldl (fun s va =>
      match s.takeBytes (s.comm c).req (vaRange va 128) with
      | .ok (_, t) => t
      | .error (.counted .overread _) => s
      | .error _ => s.memberEvent c m 8) s

/-! ## Decision (R317 to R320, R336) -/

/-- CQUO.K. -/
def quoK (v : Word) : Nat := bits v 0 4
/-- CQUO.REQ. -/
def quoReq (v : Word) : Nat := bits v 8 8
/-- CQUO.PAT. -/
def quoPat (v : Word) : Nat := bits v 16 32
/-- CQUO.ACT. -/
def quoAct (v : Word) : Nat := bits v 48 2
/-- CQUO.RMAX. -/
def quoRmax (v : Word) : Nat := bits v 52 4

/-- The voters of the open catch, lowest first. -/
def Committee.voters (c : Committee) : List Nat := (List.range 8).filter fun m => (c.member m).vote

/-- A set of members as a mask. -/
def maskOf (l : List Nat) : Nat := l.foldl (fun n m => n ||| 2 ^ m) 0

/-- Whether REQ is a subset of the voters. -/
def Committee.reqMet (c : Committee) : Bool := maskOf c.voters &&& quoReq c.openCquo == quoReq c.openCquo

/-- Whether every expected member has arrived (R317). -/
def Committee.allArrived (c : Committee) : Bool := c.members.all fun e => !e.2.expected || e.2.arr

/-- Whether quorum is met (R318): K = 0 asks only for a voter. -/
def Committee.quorum (c : Committee) : Bool :=
  !c.voters.isEmpty && (quoK c.openCquo == 0 || (c.reqMet && quoK c.openCquo ≤ c.voters.length))

/-- The committee with its patience timer started (R317). -/
def Committee.startTimer (c : Committee) : Committee :=
  { c with timer := some (256 * quoPat c.openCquo), expired := false, cpat := BitVec.ofNat 32 (quoPat c.openCquo) }

/-- Whether the patience timer starts now (R317). -/
def Committee.timerStarts (c : Committee) : Bool :=
  c.timer.isNone && !c.expired && quoK c.openCquo != 0 &&
    (quoK c.openCquo ≤ c.voters.length || (quoReq c.openCquo != 0 && c.reqMet))

/-- A weight that is NaN, infinite or negative counts as +0 (R336). -/
def weightNum (w : F32) : Num :=
  match num32 w with
  | .fin false m e s => .fin false m e s
  | _ => .zero

/-- The renormalised weights of a voting set (R336). -/
def Committee.renormalised (c : Committee) (v : List Nat) : SMap F32 :=
  let w := fun (m : Nat) => weightNum (smGet c.cwgt m 0)
  let a := sumFinite false ((c.members.filter fun e => e.2.act).map fun e => w e.1)
  let t := sumFinite false (v.map w)
  if t.isZero then [] else v.map fun m => (m, code32 (((w m).mul a).1.div t).1)

/-- The state of a member after a decision (R316). -/
def Member.decided (y : Member) (inV : Bool) : Member :=
  if inV then { y with state := .voting }
  else if y.state.expected then { y with state := if y.arr then .lagging else .late }
  else y

/-- The combine block of a decision (R334, R335). -/
def Committee.block (c : Committee) (k : Nat) (v : List Nat) (alone : Bool) : Combine :=
  let noise : Word := c.cnoise
  { valid := true, comm := k, catchN := c.ccatch.toNat + 1, mask := BitVec.ofNat 8 (maskOf v), alone := alone,
    weights := c.renormalised v, ctemp := c.ctemp, cpen := c.cpen, cex := c.cex, cnoise := noise, cseed := c.cseed,
    filter := c.filter }

/-- The CVOTE word of a decision (R310). -/
def Committee.voteWord (c : Committee) (v : List Nat) (alone : Bool) : Word :=
  word (maskOf v + alone.toNat * 2 ^ 8 + c.nretry % 16 * 2 ^ 12 + (c.ccatch.toNat + 1) % 2 ^ 40 * 2 ^ 24)

/-- `cwait`'s decision record (R339). -/
def Committee.decisionRecord (c : Committee) : List Byte :=
  natToBytes 8 c.cvote.toNat ++ natToBytes 8 c.decidedPos.toNat ++
    ([0, 1, 2, 3, 4, 5, 6, 7].flatMap fun m => natToBytes 4 (smGet c.decision.weights m 0).toNat) ++
    natToBytes 4 c.decision.ctemp.toNat ++ List.replicate 12 0

/-- The answer to one `cwait` of a decided catch (R339): its record is written at the issuing core's translation, and the
combine block is loaded. -/
def State.answerCwait (s : State) (i : CtxId) (c : Nat) (rec ptroot : Word) (d : Nat) : State :=
  let x := s.comm c
  let rq : Req := { core := i.core, ctx := i.ctx, priv := (s.ctx i).priv, ptroot := ptroot, eng := some 5, direct := true }
  let r : Bool × State :=
    if rec = 0 then (true, s)
    else if rec.toNat % 64 != 0 then (false, s)
    else match s.storeBytes rq (vaRange rec.toNat 64) x.decisionRecord with
      | .ok s => (true, s)
      | .error _ => (false, s)
  (r.2.modCtx i fun y =>
    ({ y with combine := x.decision } : Ctx).answered d (x.cvote ||| word ((if r.1 then 0 else 6) * 65536))).progress i.core

/-- The contexts of the partitions present whose `cwait` waits for a committee's decision, with its record, its PTROOT and its xd. -/
def State.cwaiters (s : State) (c : Nat) : List (CtxId × Word × Word × Nat) :=
  s.cores.flatMap fun k => if !k.2.inPart then [] else k.2.ctxs.filterMap fun e =>
    match e.2.wait with
    | .cwait j n rec pt d => if j = c && n = (s.comm c).decision.catchN then some (⟨k.1, e.1⟩, rec, pt, d) else none
    | _ => none

/-- Every `cwait` of the partitions present that waits for the decided catch is answered (R222, R339). -/
def State.answerCwaits (s : State) (c : Nat) : State :=
  if (s.comm c).state = .decided then (s.cwaiters c).foldl (fun s e => s.answerCwait e.1 c e.2.1 e.2.2.1 e.2.2.2) s else s

/-- A decision (R319, R320): `v` is the voting set. -/
def State.decideCatch (s : State) (c : Nat) (v : List Nat) (alone : Bool) : State :=
  let x := s.comm c
  let back := (x.members.filter fun e => e.2.state == .rejoining && v.contains e.1).map (·.1)
  let out := (x.members.filter fun e => e.2.cast && !v.contains e.1).map (·.1)
  let s := s.modComm c fun x =>
    { x.stopTimer with members := x.members.map fun e => (e.1, e.2.decided (v.contains e.1)) }
  let s := back.foldl (fun s m => s.memberEvent c m 6) s
  let s := out.foldl (fun s m => s.takeVotes c m x.kspec) s
  let s := s.modComm c fun x =>
    { x with state := .decided, cvote := x.voteWord v alone, decision := x.block c v alone, decidedPos := x.cpos }
  s.answerCwaits c

/-- A committee that tries its catch again (R320): with K = 0 the timer never starts (R317). -/
def Committee.retried (x : Committee) : Committee :=
  let y := { x with nretry := x.nretry + 1, stalled := false }
  if quoK x.openCquo = 0 then y else y.startTimer

/-- The action of a shortfall (R320). -/
def State.shortfall (s : State) (c : Nat) : State :=
  let x := s.comm c
  let stroke := (x.record.map (·.stroke)).getD 0
  match quoAct x.openCquo with
  | 0 =>
    let s := s.modComm c fun x => { x with stalled := true }
    if x.allArrived then s.memberEvent c 0 3 else s
  | 1 => if x.voters.contains stroke then s.decideCatch c [stroke] true else s.haltComm c true
  | 3 =>
    if x.nretry < quoRmax x.openCquo then
      (s.modComm c Committee.retried).memberEvent c 0 5
    else s.haltComm c true
  | _ => s.haltComm c true

/-- R317 evaluated: the timer starts, or the catch is decided. -/
def State.evaluate (s : State) (c : Nat) (expiry : Bool) : State :=
  if (s.comm c).state != .opened then s else
  let s := if (s.comm c).timerStarts then s.modComm c Committee.startTimer else s
  let x := s.comm c
  if x.allArrived || expiry || x.stalled then
    if x.quorum then s.decideCatch c x.voters false else s.shortfall c
  else s

/-- The patience timer expires (R317). -/
def execPatienceExpiry (c : Nat) (s : State) : Host.Outcome State Fault Refusal :=
  let x := s.comm c
  .next (if x.state = .opened && x.timer = some 0 && !x.expired && quoPat x.openCquo != 0xFFFFFFFF then
    (s.modComm c fun x => { x with timer := none, expired := true, cpat := 0 }).evaluate c true else s)

/-- A member as a catch opens (R316, R322). -/
def Member.reopened (y : Member) : Member :=
  { y with arr := false, rdy := false, last := false, vote := false, cast := false, expected := y.state.expected, faultDue := false }

/-- A committee whose next catch opens (R322): CQUO and KSPEC are sampled. -/
def Committee.reopened (x : Committee) : Committee :=
  { x with
    state := .opened, openCquo := x.cquo, kspec := bits x.cnoise 2 4, timer := none, expired := false, nretry := 0
    stalled := false, pairs := [], run := none, rounds := [], members := x.members.map fun e => (e.1, e.2.reopened) }

/-- The opening of a catch. -/
def State.openCatch (s : State) (c : Nat) : State := (s.modComm c Committee.reopened).evaluate c false

/-! ## Fault events (R316, R324) -/

/-- A fault event of a member. -/
def State.memberFault (s : State) (c m code : Nat) : State :=
  let x := s.comm c
  let y := x.member m
  if !x.configured || y.state == .absent || y.state == .spent || y.state == .faulted then s
  else if x.state = .decided then s.modComm c fun x => x.modMember m fun y => { y with faultDue := true }
  else
    let s := s.modComm c fun x => x.modMember m fun y =>
      { y with state := .faulted, arr := false, rdy := false, last := false, vote := false, expected := false }
    let v := catchWord 4 noId x.cpos.toNat
    let s := (s.memberEvent c m code).answerAll (catchAnswer c fun p _ _ => if p = y.part then some v else none)
    s.evaluate c false

/-- A fault event that strikes the crew of partition `p` (R324). -/
def State.crewFault (s : State) (p : Nat) : State :=
  match s.crewOf p with
  | some (c, m) => s.memberFault c m 1
  | none => s

/-- A write of CMEMm with FAULT set (R310, R324). -/
def execCmemFault (c m : Nat) (s : State) : Host.Outcome State Fault Refusal := .next (s.memberFault c m 1)

/-! ## Arrivals (R311, R331) -/

/-- The history's entry of a catch. -/
def Committee.past (x : Committee) (n : Nat) : Option Committed := x.history.find? fun k => k.n == n

/-- What the catch unit answers to an arrival: an answer at once, or a wait, with whether it is late. -/
abbrev Arrival := State × Except Word Nat

/-- Whether a commit of several tokens is under way (R348): it has taken some, and its end, which writes the mirror, is still to come. -/
def Committee.midCommit (x : Committee) : Bool := x.state == .decided && x.decision.catchN ≤ x.ccatch.toNat

/-- The arrival of a partition's crew (R331): its position, LAST, the catch number, and whether it votes. Every arrival declares a position, and
CMEM.POS takes it; ARR, RDY and LAST are those of the arrival for the open catch (R310; DEDUCED, log entry 108). An arrival that names a token which an
unfinished commit has taken is answered at that commit's end, when every write of it is complete (R222). -/
def State.arrive (s : State) (p pos : Nat) (last : Bool) (n : Nat) (vote : Bool) : Arrival :=
  match s.crewOf p with
  | none => (s, .error (catchWord 7 noId 0))
  | some (c, m) =>
    let x := s.comm c
    let y := x.member m
    let now := fun st => catchWord st noId x.cpos.toNat
    let s := s.modComm c fun x => x.modMember m fun y => { y with pos := BitVec.ofNat 32 pos }
    if x.state = .halted then (s, .error (now 5))
    else if y.state = .spent then (s, .error (now 3))
    else if y.state = .faulted then (s, .error (now 4))
    else if n = 0 || x.ccatch.toNat + 1 < n then (s, .error (now 6))
    else if n ≤ x.ccatch.toNat then
      let k := ((x.past n).map (·.kspec)).getD x.kspec
      let s := if vote then s.takeVotes c m k else s
      if x.midCommit then (s, .ok 2)
      else (s, .error (match x.past n with | some h => catchWord 2 h.id h.cpos | none => now 2))
    else if y.arr then (s, .ok 1)
    else if x.state = .decided then
      let s := if vote then s.takeVotes c m x.kspec else s
      (s.modComm c fun x => x.modMember m fun y => { y with arr := true, rdy := vote, last := last }, .ok 1)
    else
    let s := s.modComm c fun x => x.modMember m fun y => { y with cast := y.cast || vote }
    if x.cpos.toNat < pos then
      ((s.memberFault c m 7), .error (now 4))
    else
      let s := s.modComm c fun x => x.modMember m fun y =>
        { y with
          arr := true, rdy := vote, last := last, vote := vote && pos == x.cpos.toNat }
      (s, .ok 0)

/-- A flow-mode `catch` or `catch.nv` (R42, R330). -/
def State.flowCatch (s : State) (d a b : Nat) (vote : Bool) : State :=
  let p := s.myPart
  let n := (s.x b).toNat
  let r := s.arrive p (bits (s.x a) 0 63) ((s.x a).getLsbD 63) n vote
  match r.2 with
  | .error v => (r.1.progress s.cur.core).modMe fun x => x.answered d v
  | .ok late =>
    let c := ((s.crewOf p).map (·.1)).getD 0
    let t := r.1.modMe fun x => { x with wait := .catchAns c n d late }
    if late = 0 then t.evaluate c false else t

/-! ## The commit (R246, R322, R344, R348) -/

/-- Whether one pair ranks above another (R344). -/
def pairAbove (a b : F32 × Nat) : Bool :=
  let u := num32 a.1
  let v := num32 b.1
  v.lt u || (u.cmp v == .eq && a.2 < b.2)

/-- The highest-ranked pair. -/
def bestPair : List (F32 × Nat) → F32 × Nat
  | [] => (0xFF800000, 0)
  | p :: rest => rest.foldl (fun b q => if pairAbove q b then q else b) p

/-- The winner of a catch (R344). -/
def Committee.winner (x : Committee) : F32 × Nat := bestPair (x.pairs.map (·.2))

/-- Whether every contribution that the commit waits for has come (R222, R348). -/
def Committee.ready (x : Committee) : Bool :=
  x.state == .decided && x.pairs.length == x.nshard && (x.kspec == 0 || x.run.isSome)

/-- h1 of an id (R337). -/
def hash1 (i : Nat) : Nat := Nat.xor (i % 4096) (i / 4096 % 64)
/-- h2 of an id (R337). -/
def hash2 (i : Nat) : Nat := i * 0x9E3779B1 % 2 ^ 32 / 2 ^ 20

/-- One saturating step of a counter of the filter. -/
def bumpFilter (f : SMap Nat) (h : Nat) : SMap Nat := smSet f h (min 255 (smGet f h 0 + 1))

/-- The counting filter after a committed token (R337). -/
def countToken (f : SMap Nat) (i : Nat) : SMap Nat :=
  if hash1 i = hash2 i then bumpFilter f (hash1 i) else bumpFilter (bumpFilter f (hash1 i)) (hash2 i)

/-- Whether a text context follows a committee's stream and has not yet consumed a byte that a commit of `len` bytes would overwrite (R246). -/
def Committee.heldBy (x : Committee) (c len : Nat) (t : TextCtx) : Bool :=
  match t.follow with
  | some f => f.comm == c &&
      (let st := (x.member f.member).state; st.expected || st == .rejoining) && f.pos + 65536 < x.cpos.toNat + len
  | none => false

/-- Whether a member that follows the stream, present or switched out, holds a commit (R246). -/
def State.streamHeld (s : State) (c len : Nat) : Bool :=
  (s.texts.any fun t => (s.comm c).heldBy c len t.2) || s.images.any fun i => i.2.texts.any fun t => (s.comm c).heldBy c len t.2

/-- The bytes of a piece as the catch unit reads them (R291, R322). -/
def State.readPiece (s : State) (rq : Req) (pstr w : Nat) : Except MemErr (List Byte × State) :=
  match s.readWords rq ((pstr + 8 * w) % 2 ^ 64) 1 with
  | .error e => .error e
  | .ok (l, s) => s.loadBytes rq (vaRange (l.headD 0 % 2 ^ 32) (l.headD 0 / 2 ^ 32 % 128))

/-- The bytes of a commit written to both rings (R309, R322): the state, and whether every byte was written. -/
def State.writeRings (s : State) (rq : Req) (r : CRecord) (pos : Nat) (l : List Byte) : Bool × State :=
  let put := fun (t : State) (base size : Nat) => t.engWrite rq (vaRuns ((ringVas base size pos l.length).zip l))
  match put s r.stream.toNat 65536 with
  | (s, some _) => (false, s)
  | (s, none) =>
    match put s r.hist.toNat (2 ^ r.hlog) with
    | (s, some _) => (false, s)
    | (s, none) => (true, s)

/-- The committee after steps 2 and 3 of a commit (R322). The log keeps every commit whose bytes the stream queue may still hold, for the grammar
contexts that run each commit's token (R307). -/
def Committee.counted (x : Committee) (w len : Nat) : Committee :=
  let k : Committed := ⟨x.ccatch.toNat + 1, w, x.cpos.toNat + len, x.kspec⟩
  let hist := x.history ++ [k]
  { x with
    filter := countToken x.filter w, cpos := x.cpos + word len, ccatch := x.ccatch + 1
    history := hist.drop (hist.length - 256), log := (x.log ++ [k]).filter fun j => k.cpos ≤ j.cpos + 65536 }

/-- The words of a committee's mirror (R96). -/
def Committee.mirrorWords (x : Committee) : List Word :=
  [x.cpos, x.ccatch, x.cvote, word (x.members.foldl (fun n e => n + e.2.state.code * 256 ^ e.1) 0)]

/-- Whether a partition is a member's crew or the umpire of a committee (R96). -/
def Committee.concerns (x : Committee) (p : Nat) : Bool := x.configured && ((x.memberOf p).isSome || x.umpire == some p)

/-- A partition's mirror with a committee's words written. -/
def Partition.mirrored (q : Partition) (c : Nat) (l : List Word) : Partition :=
  { q with mirror := (l.zipIdx).foldl (fun m e => smSet m (8 * c + e.2) e.1) q.mirror }

/-- The mirror words of a committee written together (R96). -/
def State.writeMirror (s : State) (c : Nat) : State :=
  let x := s.comm c
  let l := x.mirrorWords
  let parts := s.parts.map fun p => if x.concerns p.1 then (p.1, p.2.mirrored c l) else p
  let images := s.images.map fun i => if x.concerns i.2.partid then (i.1, { i.2 with part := i.2.part.mirrored c l }) else i
  { s with parts := parts, images := images }

/-- Steps 4 to 6 of a commit, after the winner `w` (R316, R322). -/
def State.endCommit (s : State) (c w : Nat) : State :=
  let spent := ((s.comm c).members.filter fun e =>
    e.2.arr && e.2.last && (e.2.state == .voting || e.2.state == .lagging)).map (·.1)
  let s := spent.foldl (fun s m =>
    (s.modComm c fun x => x.modMember m fun y => { y with state := .spent }).memberEvent c m 2) s
  let due := ((s.comm c).members.filter fun e => e.2.faultDue && e.2.state != .spent).map (·.1)
  let s := due.foldl (fun s m =>
    (s.modComm c fun x => x.modMember m fun y => { y with state := .faulted }).memberEvent c m 1) s
  let s := s.writeMirror c
  let x := s.comm c
  let mask := bits x.cvote 0 8
  let ans := fun (p n late : Nat) => (x.members.find? fun e => e.2.part == p && e.2.state != .absent).map fun e =>
    if e.2.state = .faulted then catchWord 4 noId x.cpos.toNat
    else if late = 2 then (match x.past n with | some h => catchWord 2 h.id h.cpos | none => catchWord 2 noId x.cpos.toNat)
    else catchWord (if late = 1 then 2 else if mask / 2 ^ e.1 % 2 = 1 then 0 else 1) w x.cpos.toNat
  (s.answerAll (catchAnswer c ans)).openCatch c

/-- One token of a commit (R322, R348): the run's tokens in turn, then the winner. -/
def State.commitToken (s : State) (c : Nat) (r : CRecord) : State :=
  let x := s.comm c
  let run := x.run.getD []
  let w := run.headD x.winner.2
  match s.readPiece x.req r.pstr.toNat w with
  | .error e => (s.cmdFail e).1.haltComm c true
  | .ok (l, s) =>
    if s.streamHeld c l.length then s
    else
      match s.writeRings x.req r x.cpos.toNat l with
      | (false, s) => s.haltComm c true
      | (true, s) =>
        let s := s.modComm c fun x => x.counted w l.length
        if run.isEmpty then s.endCommit c w else s.modComm c fun x => { x with run := some (run.drop 1) }

/-- The commit of a decided catch, token by token, or NO_CANDIDATE (R322, R344). -/
def execCatchCommit (c : Nat) (s : State) : Host.Outcome State Fault Refusal :=
  let x := s.comm c
  .next (match x.record with
    | none => s
    | some r =>
      if !x.ready then s
      else if num32 x.winner.1 = .inf true then
        (s.tellOwner c .noCandidate (c * 2 ^ 40 + (x.ccatch.toNat + 1) % 2 ^ 40)).haltComm c false
      else s.commitToken c r)

/-! ## Resets that reach committees (R315, R324) -/

/-- What a partition reset does to the committees it umpires or owns, and to its member (R315, R324). -/
def State.resetReaches (s : State) (p : Nat) : State :=
  let s := s.crewFault p
  (smKeys s.comms).foldl (fun s c =>
    let x := s.comm c
    let s := if (x.state = .opened || x.state = .decided) && x.umpire = some p then s.haltComm c true else s
    let x := s.comm c
    if x.configured && x.owner = some p then
      (if x.state = .halted then s else s.haltComm c false).modComm c fun x => { x with owner := none }
    else s) s

/-! ## `ccfg` and `crejoin` (R309, R321, R327) -/

/-- A committee record read as 24 words, or none where a field breaks R309. -/
def parseRecord (a : Word) (w : List Nat) : Option CRecord :=
  let g := fun i => w.getD i 0
  let nmem := g 2 % 16
  let r : CRecord := ⟨word (g 0), word (g 1), nmem, g 2 / 16 % 8, g 2 / 256 % 64, g 2 / 65536 % 512, g 2 / 2 ^ 32 % 64,
    g 3 % 2 ^ 40, word (g 4), g 5 % 2 ^ 19, word (g 6), g 7 % 2 ^ 32, a⟩
  let clean := g 2 / 2 ^ 7 % 2 == 0 && g 2 / 2 ^ 14 % 4 == 0 && g 2 / 2 ^ 25 % 2 ^ 7 == 0 && g 2 / 2 ^ 38 == 0
    && g 3 / 2 ^ 40 == 0 && g 5 / 2 ^ 19 == 0 && g 7 / 2 ^ 32 == 0
  let entries := (List.range nmem).all fun m =>
    g (8 + 2 * m) / 64 % 4 == 0 && g (8 + 2 * m) / 512 == 0 && g (9 + 2 * m) == 0
  if clean && entries && g 0 % 65536 == 0 && g 1 % 65536 == 0 && 1 ≤ nmem && nmem ≤ 8 && r.stroke < nmem
      && 16 ≤ r.hlog && r.hlog ≤ 40 && 1 ≤ r.nshard && r.nshard ≤ 256 && 1 ≤ r.npiece && r.npiece ≤ 2 ^ 18
      && g 6 % 128 == 0 && r.vstride % 128 == 0 && 4 * r.npiece ≤ r.vstride then some r else none

/-- The member entries of a record: PART and ACT of the entries below NMEM. -/
def recordMembers (nmem : Nat) (w : List Nat) : List (Nat × Bool) :=
  (List.range nmem).map fun m => (w.getD (8 + 2 * m) 0 % 64, w.getD (8 + 2 * m) 0 / 256 % 2 == 1)

/-- Whether a partition exists, switched out ones included. -/
def State.partExists (s : State) (p : Nat) : Bool := (s.part p).live || s.images.any fun i => i.2.partid == p

/-- The crews of the members of every configured committee. -/
def State.crews (s : State) : List Nat :=
  s.comms.flatMap fun e => if e.2.configured then (e.2.members.filter fun m => m.2.state != .absent).map (·.2.part) else []

/-- The committee as `ccfg` configures it (R321); CMEM.EVT and CMEM.POS keep their values. -/
def Committee.configure (x : Committee) (owner core : Nat) (ptroot : Word) (r : CRecord) (ms : List (Nat × Bool)) : Committee :=
  let members := (ms.zipIdx).map fun e =>
    let old := x.member e.2
    let y : Member := { state := if e.1.2 then .voting else .absent, part := e.1.1, act := e.1.2, evt := old.evt, pos := old.pos }
    (e.2, y)
  { x with
    owner := some owner, record := some r, ptroot := ptroot, core := core, cpos := word r.start, ccatch := 0, cvote := 0
    cpat := 0, members := members, filter := [], history := [], log := [], decision := {} }

/-- The committee after deconfiguration (R315): every member absent, the other registers kept. -/
def Committee.unconfigure (x : Committee) : Committee :=
  { x.stopTimer with state := .off, owner := none, rounds := [], members := x.members.map fun e =>
    (e.1, { e.2 with state := .absent, act := false, arr := false, rdy := false, last := false, vote := false, cast := false }) }

/-- `ccfg` at the catch unit (R327). -/
def State.ccfg (s : State) (core : Nat) (k : EngCmd) : CmdEnd :=
  let c := k.b.toNat % 8
  let p := (s.core core).partid
  let x := s.comm c
  if x.configured && x.owner.isSome && x.owner != some p then failed s 5 c
  else if k.a = 0 then
    if x.configured then
      ((s.answerAll (haltAnswer c (catchWord 5 noId x.cpos.toNat))).modComm c Committee.unconfigure, none)
    else (s, none)
  else if x.configured then failed s 5 c
  else if k.a.toNat % 64 != 0 then failed s 2 k.a.toNat
  else
    match s.readWords (k.req core) k.a.toNat 24 with
    | .error e => s.cmdFail e
    | .ok (w, s) =>
      match parseRecord k.a w with
      | none => failed s 9 k.a.toNat
      | some r =>
        let ms := recordMembers r.nmem w
        let act := (ms.filter fun m => m.2).map (·.1)
        if !(ms.getD r.stroke (0, false)).2 || act.eraseDups.length != act.length || 32 < s.crews.length + act.length then
          failed s 9 k.a.toNat
        else if act.any s.crews.contains || !s.partExists r.ump then failed s 5 k.a.toNat
        else
          let s := s.modComm c fun x => x.configure p core k.ptroot r ms
          (((s.modComm c fun x => { x with state := .opened }).writeMirror c).openCatch c, none)

/-- `crejoin` at the catch unit (R327). -/
def State.crejoin (s : State) (core : Nat) (k : EngCmd) : CmdEnd :=
  let c := k.a.toNat / 256 % 8
  let m := k.a.toNat % 8
  let x := s.comm c
  match x.record with
  | none => failed s 5 m
  | some r =>
    if x.owner != some (s.core core).partid || (x.member m).state != .faulted then failed s 5 m
    else
      match s.readWords x.req ((r.addr.toNat + 0x40 + 16 * m) % 2 ^ 64) 1 with
      | .error e => s.cmdFail e
      | .ok (w, s) =>
        let v := w.headD 0
        (s.modComm c fun x => x.modMember m fun y =>
          { y with state := .rejoining, part := v % 64, act := v / 256 % 2 == 1 }, none)

/-- `ccfg` (R327). -/
def execCcfg (d a b : Nat) (o : Bool) (s : State) : Host.Outcome State Fault Refusal := s.issue .ccfg d a b o true
/-- `crejoin` (R327). -/
def execCrejoin (d a : Nat) (o : Bool) (s : State) : Host.Outcome State Fault Refusal := s.issue .crejoin d a 0 o true

/-! ## Registers (R97, R310, R328, R335) -/

/-- Whether a number names a committee register (R97). -/
def commReg (n : Nat) : Bool := n < 0x1A || (0x20 ≤ n && n < 0x30)

/-- Whether a committee register is read-only (R328). -/
def commReadOnly (n : Nat) : Bool := n == 0 || n == 1 || n == 3 || n == 4

/-- CMEM of a member (R310). -/
def Member.reg (y : Member) : Word :=
  word (y.state.code + y.arr.toNat * 8 + y.rdy.toNat * 16 + y.last.toNat * 32 + y.part % 64 * 2 ^ 8 + y.evt % 16 * 2 ^ 16
    + y.pos.toNat * 2 ^ 32)

/-- A committee register's value. -/
def Committee.reg (x : Committee) (n : Nat) : Word :=
  match n with
  | 0 => x.cpos
  | 1 => x.ccatch
  | 2 => x.cquo
  | 3 => word x.patience
  | 4 => x.cvote
  | 5 => x.cnoise
  | 6 => x.cseed
  | 7 => x.ctemp.setWidth 64
  | 0x18 => x.cfloor.setWidth 64
  | 0x19 => x.cpen
  | n =>
    if n < 0x10 then (x.member (n - 8)).reg
    else if n < 0x18 then (smGet x.cwgt (n - 0x10) 0).setWidth 64
    else (smGet x.cex (n - 0x20) 0).setWidth 64

/-- CQUO as it is stored (R310). -/
def storedQuo (v : Word) : Word :=
  let k := min 8 (bits v 0 4)
  word (k + quoReq v * 2 ^ 8 + quoPat v * 2 ^ 16 + quoAct v * 2 ^ 48 + quoRmax v * 2 ^ 52)

/-- A committee register written, apart from CMEM and CQUO's further effect. -/
def Committee.setReg (x : Committee) (n : Nat) (v : Word) : Committee :=
  match n with
  | 2 => { x with cquo := storedQuo v }
  | 5 => { x with cnoise := word (bits v 0 6) }
  | 6 => { x with cseed := v }
  | 7 => { x with ctemp := v.setWidth 32 }
  | 0x18 => { x with cfloor := v.setWidth 32 }
  | 0x19 => { x with cpen := v }
  | n =>
    if n < 0x18 then { x with cwgt := smSet x.cwgt (n - 0x10) (v.setWidth 32) }
    else { x with cex := smSet x.cex (n - 0x20) (v.setWidth 32 &&& 0xF7000000) }

/-- The effect of a `cmwr` (R310, R328). -/
def State.writeCommReg (s : State) (c n : Nat) (v : Word) : State :=
  if 8 ≤ n && n < 0x10 then (if v.getLsbD 31 then s.memberFault c (n - 8) 1 else s)
  else
    let s := s.modComm c fun x => x.setReg n v
    let x := s.comm c
    if n = 2 && x.state = .opened && x.stalled then (s.modComm c fun x => { x with openCquo := x.cquo }).evaluate c false else s

/-- `cmrd` (R328). -/
def execCmrd (d a : Nat) (s : State) : Host.Outcome State Fault Refusal :=
  finish s (do
    s.destX d
    let c := bits (s.x a) 8 3
    let n := bits (s.x a) 0 6
    let x := s.comm c
    need (commReg n) (trapIllegal s)
    need (s.me.priv != 0 && (x.owner == some s.myPart || x.concerns s.myPart)) (trapPrivilege s)
    .ok ((s.setX d (x.reg n)).advance).commanded)

/-- `cmwr` (R328). -/
def execCmwr (d a b : Nat) (s : State) : Host.Outcome State Fault Refusal :=
  finish s (do
    s.destX d
    let c := bits (s.x a) 8 3
    let n := bits (s.x a) 0 6
    let x := s.comm c
    need (commReg n && !commReadOnly n) (trapIllegal s)
    need (s.me.priv != 0 && (!x.configured || x.owner.isNone || x.owner == some s.myPart)) (trapPrivilege s)
    let v := s.x b
    .ok (((s.setX d (x.reg n)).advance.writeCommReg c n v)).commanded)

/-- The standing of a partition (R329). -/
def State.standing (s : State) (p : Nat) : Word :=
  match s.crewOf p with
  | some (c, m) =>
    let x := s.comm c
    word (1 + c * 4 + m * 2 ^ 5 + (x.member m).state.code * 2 ^ 8 + x.state.code * 2 ^ 11 + x.ccatch.toNat % 2 ^ 40 * 2 ^ 24)
  | none =>
    match s.comms.find? (fun e => e.2.configured && e.2.umpire == some p) with
    | some (c, x) => word (3 + c * 4 + x.state.code * 2 ^ 11 + x.ccatch.toNat % 2 ^ 40 * 2 ^ 24)
    | none => 0

/-- `cstat` (R329): like every E-format command of its major, it traps APX_STORE inside a pure region (R374). -/
def execCstat (d : Nat) (s : State) : Host.Outcome State Fault Refusal :=
  finish s (do
    s.destX d
    need (!s.me.pureMarked) (trapWith .apxStore 0)
    .ok ((s.setX d (s.standing s.myPart)).advance).commanded)

end Sys2Proof.Machine
end

