-- ==== Sys2Proof/Machine/Transc.lean ====
section
/-! DEFINITION. Base-2 exponential and logarithm, the logarithm of a sum of exponentials, the estimates' 12-bit rounding
and the Gumbel table (R136, R137, R338, R341), by fixed-point series with 320 fraction bits. Irrational results carry a
sticky bit, so that the one rounding of each result is the correct one (log entry 7). -/

namespace Sys2Proof.Machine

open Sys2Proof

/-- One in fixed point. -/
def fixOne : Nat := 2 ^ 320

/-- The natural logarithm of 2 in fixed point, rounded down. -/
def ln2Fix : Nat := 0xB17217F7D1CF79ABC9E3B39803F2F6AF40F343267298B62D8A0D175B8BAAFA2BE7B876206DEBAC98

/-- The tail of the exponential series of `r` from its term `n`. -/
def expSum (r : Nat) : Nat → Nat → Nat → Nat → Nat
  | 0, _, _, acc => acc
  | f + 1, n, t, acc => let u := t * r / fixOne / n; expSum r f (n + 1) u (acc + u)

/-- `e^r` for a fixed-point `r` in [0, 1). -/
def expFix (r : Nat) : Nat := expSum r 80 1 fixOne fixOne

/-- The tail of the series z + z³/3 + z⁵/5 + … -/
def atanhSum (zz : Nat) : Nat → Nat → Nat → Nat → Nat
  | 0, _, _, acc => acc
  | f + 1, n, t, acc => atanhSum zz f (n + 2) (t * zz / fixOne) (acc + t / n)

/-- The fixed-point natural logarithm of `m / 2^log2(m)`, which lies in [0, ln 2). -/
def lnMant (m : Nat) : Nat :=
  let p := 2 ^ Nat.log2 m
  let z := (m - p) * fixOne / (m + p)
  2 * atanhSum (z * z / fixOne) 105 1 z 0

/-- The fixed-point natural logarithm of `m × 2^e`, for `m ≥ 1`. -/
def lnFix (m : Nat) (e : Int) : Int := ((Nat.log2 m : Int) + e) * ln2Fix + lnMant m

/-- The exact value of an irrational fixed-point result: 290 fraction bits and a sticky bit. -/
def ofFix (v : Int) : Num := .fin (v < 0) (v.natAbs / 2 ^ 30) (-290) true

/-- 2^x (R136). -/
def exp2Num (x : Num) : Num × Flags :=
  match x with
  | .nan s => (.nan false, if s then fNV else 0)
  | .inf n => (if n then .zero else .inf false, 0)
  | .fin n m e s =>
    if m == 0 then (.one, 0)
    else if 14 < (Nat.log2 m : Int) + e then (.fin false 1 (if n then -32768 else 32768) true, 0)
    else
      let v : Int := (Num.fin n m e s).atExp (-320)
      let i := v / fixOne
      let f := (v % fixOne).toNat
      if f == 0 then (.fin false 1 i false, 0)
      else (.fin false (expFix (f * ln2Fix / fixOne) / 2 ^ 30) (i - 290) true, 0)

/-- log2 x (R136). -/
def log2Num (x : Num) : Num × Flags :=
  match x with
  | .nan s => (.nan false, if s then fNV else 0)
  | .inf n => if n then (.nan false, fNV) else (.inf false, 0)
  | .fin n m e _ =>
    if m == 0 then (.inf true, fDZ)
    else if n then (.nan false, fNV)
    else
      let i : Int := (Nat.log2 m : Int) + e
      if m == 2 ^ Nat.log2 m then (.ofInt i, 0)
      else (ofFix (i * fixOne + (lnMant m * fixOne / ln2Fix : Nat)), 0)

/-- `e^x` in fixed point for a fixed-point `x ≤ 0`, at least one unit. -/
def expNeg (x : Int) : Nat :=
  let i := x / ln2Fix
  if i < -400 then 1 else
  max 1 (expFix (x % ln2Fix).toNat / 2 ^ (-i).toNat)

/-- ln(e^v + w × e^s) as an exact value (R341), for a positive `w` and `v`, `s` that are not NaN; `s` is not −inf. -/
def logAddExp (v w s : Num) : Num :=
  match w with
  | .fin _ wm we _ =>
    if v == .inf false || s == .inf false then .inf false
    else
      let lw := lnFix wm we
      let ls := s.atExp (-320) + lw
      match v with
      | .inf _ =>
        if wm == 2 ^ Nat.log2 wm && (Nat.log2 wm : Int) + we == 0 then (if s.isZero then .zero else s) else ofFix ls
      | _ =>
        let lv := v.atExp (-320)
        let hi := max lv ls
        let d := min lv ls - hi
        ofFix (hi + lnFix (fixOne + expNeg d) (-320))
  | _ => .inf false

/-- A value rounded to 12 significant bits, ties to even (R136), and whether it was inexact. -/
def est12 (x : Num) : Num × Bool :=
  match x with
  | .fin n m e s =>
    if m == 0 then (x, s) else
    let q : Int := (Nat.log2 m : Int) + e - 11
    let (u, ix) := toUnits .ne n m e q s
    (.fin n u q false, ix)
  | y => (y, false)

/-- Est12 as an FP32 code with its flags (R136): beyond the FP32 range an infinity, below 2^−126 a zero. -/
def estCode (x : Num) : Nat × Flags :=
  let (r, ix) := est12 x
  match r with
  | .fin n m e _ =>
    let lg : Int := (Nat.log2 m : Int) + e
    if m == 0 then (fp32.signed n 0, 0)
    else if 128 ≤ lg then (fp32.signed n fp32.infCode, fOF ||| fNX)
    else if lg < -126 then (fp32.signed n 0, fUF ||| fNX)
    else ((roundFp fp32 .ne r).1, if ix then fNX else 0)
  | y => roundFp fp32 .ne y

/-- `vrcp` on one value (R136). -/
def rcpEst (x : Num) : Nat × Flags :=
  match x with
  | .nan s => (fp32.nanCode, if s then fNV else 0)
  | y => let (r, fl) := Num.one.div y; let (c, g) := estCode r; (c, fl ||| g)

/-- `vrsq` on one value (R136). -/
def rsqEst (x : Num) : Nat × Flags :=
  match x with
  | .nan s => (fp32.nanCode, if s then fNV else 0)
  | .inf n => if n then (fp32.nanCode, fNV) else (0, 0)
  | .fin n m e _ =>
    if m == 0 then (fp32.signed n fp32.infCode, fDZ)
    else if n then (fp32.nanCode, fNV)
    else
      let odd : Nat := (e % 2).toNat
      let d := m * 2 ^ odd
      let r := isqrt (2 ^ 400 / d)
      estCode (.fin false r (-200 - (e - odd) / 2) (r * r * d != 2 ^ 400))

/-- Whether a product of the factors multiplies an infinity by a zero (R137). -/
def infTimesZero (xs : List Num) : Bool := xs.any Num.isInf && xs.any Num.isZero

/-- `vrcps` (R137): y × (2 − x × y), rounded once. -/
def rcpStep (x y : Num) : Nat × Flags :=
  if x.isNan || y.isNan then (fp32.nanCode, if x.isSig || y.isSig then fNV else 0)
  else if infTimesZero [x, y] then roundFp fp32 .ne y
  else if x.isInf || y.isInf then roundFp fp32 .ne (.inf (!x.sign))
  else
    let t := ((Num.ofInt 2).add false (x.mul y).1.negate).1
    roundFp fp32 .ne (y.mul t).1

/-- `vrsqs` (R137): y × (3 − x × y × y) / 2, rounded once. -/
def rsqStep (x y : Num) : Nat × Flags :=
  if x.isNan || y.isNan then (fp32.nanCode, if x.isSig || y.isSig then fNV else 0)
  else if infTimesZero [x, y] then roundFp fp32 .ne y
  else if x.isInf || y.isInf then roundFp fp32 .ne (.inf (!(x.sign != y.sign)))
  else
    let t := ((Num.ofInt 3).add false ((x.mul y).1.mul y).1.negate).1
    roundFp fp32 .ne ((y.mul t).1.scale (-1))

/-- The Gumbel table's entry `k` (R338), as an FP32 code. -/
def gumbelTable (k : Nat) : Nat :=
  let u := (-(lnFix (2 * k + 1) (-17))).toNat
  (roundFp fp32 .ne (ofFix (-(lnFix u (-320))))).1

/-- The Gumbel value of a hash (R338), as an FP32 code, with the flags of its steps. -/
def gumbel (h : Nat) : Nat × Flags :=
  let k := h / 65536
  let f := h % 65536
  if k == 65535 then (gumbelTable 65535, 0) else
  let lo := decodeFp fp32 (gumbelTable k)
  let d := roundFp fp32 .ne ((decodeFp fp32 (gumbelTable (k + 1))).add false lo.negate).1
  let t := roundFp fp32 .ne ((decodeFp fp32 d.1).mul (.fin false f (-16) false)).1
  let r := roundFp fp32 .ne (lo.add false (decodeFp fp32 t.1)).1
  (r.1, d.2 ||| t.2 ||| r.2)

/-- The uniform value of a hash (R338), as an FP32 code. -/
def uniform (h : Nat) : Nat := (roundFp fp32 .ne (.fin false (2 * (h / 512) + 1) (-24) false)).1

/-- The hash of R338; all arithmetic is modulo 2^32. -/
def drawHash (seed : Word) (c i : Nat) : Nat :=
  let s : BitVec 32 := seed.extractLsb' 0 32 ^^^ seed.extractLsb' 32 32
  let x := s ^^^ (BitVec.ofNat 32 c * 0x85EBCA6B#32) ^^^ (BitVec.ofNat 32 i * 0xC2B2AE35#32)
  let x := (x ^^^ (x >>> 16)) * 0x7FEB352D#32
  let x := (x ^^^ (x >>> 15)) * 0x846CA68B#32
  (x ^^^ (x >>> 16)).toNat

end Sys2Proof.Machine
end

