-- ==== Sys2Proof/Machine/Combine.lean ====
section
/-! DEFINITION. Combining, drawing and drafting: `cwait`, `nmax`, `nsum`, `nsum.max`, `catch.k`, `ccomb`, `gnoise` and `gnoise.u`
(R334, R335, R337 to R348). -/

namespace Sys2Proof.Machine

open Sys2Proof

/-! ## Answered instructions of the umpire (R339, R343, R345, R348) -/

/-- The checks common to the umpire's answered instructions: the destination, flow mode (ILLEGAL) and the pure mark (R374). -/
def State.umpireChecks (s : State) (d : Nat) : Except Stop Unit := do
  s.destX d
  need (!s.stepMode s.cur.core) (trapIllegal s)
  need (!s.me.pureMarked) (trapWith .apxStore 0)

/-- An answered instruction that is answered at once: a progress event (R355), and an E-format command committed. -/
def State.reply (s : State) (d : Nat) (v : Word) : State := (s.commanded.progress s.cur.core).modMe fun x => x.answered d v

/-- HALTED and NOTUMP, which come first for every umpire instruction, or 0 (R339). -/
def Committee.umpireStatus (x : Committee) (p : Nat) : Nat :=
  if x.state = .off || x.state = .halted then 1 else if x.umpire != some p then 3 else 0

/-- The status that `cwait` answers at once, or 0 (R339). -/
def Committee.cwaitStatus (x : Committee) (p n : Nat) : Nat :=
  let u := x.umpireStatus p
  if u != 0 then u
  else if n = 0 || x.ccatch.toNat + 2 < n then 2
  else if n ≤ x.ccatch.toNat then 5
  else 0

/-- The status of a contribution to catch `n` before its own cases, or 0 (R343). -/
def Committee.sendStatus (x : Committee) (p n : Nat) : Nat :=
  let u := x.umpireStatus p
  if u != 0 then u
  else if n != (x.ccatch.toNat + 1) % 2 ^ 32 || x.state = .opened then 2
  else 0

/-- `cwait` (R339): its answer comes at once, or when its catch is decided. -/
def execCwait (d a b : Nat) (s : State) : Host.Outcome State Fault Refusal :=
  finish s (do
    s.umpireChecks d
    let n := bits (s.x b) 0 40
    let c := bits (s.x b) 40 3
    let st := (s.comm c).cwaitStatus s.myPart n
    if st != 0 then .ok (s.reply d (word (st * 65536)))
    else
      let at0 := s.x a
      let ptroot := s.myCore.ptroot
      .ok ((s.commanded.modMe fun x => { x with wait := .cwait c n at0 ptroot d }).answerCwaits c))

/-- A VALUE as it is counted (R343): a NaN counts as −inf. -/
def countedValue (v : F32) : F32 := if (num32 v).isNan then 0xFF800000 else v

/-- One shard's pair counted (R343): the status, and the committee after it. -/
def Committee.contribute (x : Committee) (shard : Nat) (v : F32) (id : Nat) : Nat × Committee :=
  if x.nshard ≤ shard || (v != 0xFF800000 && x.npiece ≤ id) then (6, x)
  else if smHas x.pairs shard then (4, x)
  else (0, { x with pairs := smSet x.pairs shard (v, id) })

/-- `nmax` (R343). -/
def execNmax (d a b : Nat) (s : State) : Host.Outcome State Fault Refusal :=
  finish s (do
    s.umpireChecks d
    let c := bits (s.x b) 32 3
    let x := s.comm c
    let st := x.sendStatus s.myPart (bits (s.x a) 32 32)
    if st != 0 then .ok (s.reply d (word st))
    else
      let r := x.contribute (bits (s.x b) 24 8) (countedValue (f32 (bits (s.x a) 0 32))) (bits (s.x b) 0 18)
      .ok ((s.modComm c fun _ => r.2).reply d (word r.1)))

/-- The result of a complete round (R345): the exact sum rounded once as `xacc.rd` rounds (R79), or the largest value. -/
def Round.result (r : Round) : F32 :=
  let xs := r.values.map fun e => num32 e.2
  if xs.any Num.isNan then 0x7FC00000
  else if r.isMax then
    match xs with
    | [] => 0
    | x :: rest => code32 (rest.foldl (fun m y => if m.ltz y then y else m) x)
  else
    let fin := xs.filter fun x => !x.isInf
    f32 (accRead fp32 (fin.foldl (fun t x => t + accUnits x) 0) (xs.any fun x => x.isInf && !x.sign)
      (xs.any fun x => x.isInf && x.sign) false).1

/-- A contribution to a round (R345): the status, and the committee after it. -/
def Committee.addRound (x : Committee) (shard round : Nat) (isMax : Bool) (v : F32) : Nat × Committee :=
  let r := smGet x.rounds round ⟨isMax, []⟩
  if x.nshard ≤ shard || r.isMax != isMax then (6, x)
  else if smHas r.values shard then (4, x)
  else (0, { x with rounds := smSet x.rounds round { r with values := smSet r.values shard v } })

/-- The answers of a complete round. -/
def roundAnswer (c n round : Nat) (v : F32) (_ : Nat) (w : Wait) : Option (Ctx → Ctx) :=
  match w with
  | .nsum k j r d => if k = c && j = n && r = round then some fun x => x.answered d (v.setWidth 64) else none
  | _ => none

/-- `nsum` and `nsum.max` (R345). -/
def State.sumRound (s : State) (d a b : Nat) (isMax : Bool) : Host.Outcome State Fault Refusal :=
  finish s (do
    s.umpireChecks d
    let c := bits (s.x b) 32 3
    let n := bits (s.x a) 32 32
    let round := bits (s.x b) 0 4
    let x := s.comm c
    let st := x.sendStatus s.myPart n
    if st != 0 then .ok (s.reply d (word (st * 2 ^ 32)))
    else
      let r := x.addRound (bits (s.x b) 24 8) round isMax (f32 (bits (s.x a) 0 32))
      if r.1 != 0 then .ok (s.reply d (word (r.1 * 2 ^ 32)))
      else
        let s := (s.commanded.modComm c fun _ => r.2).modMe fun y => { y with wait := .nsum c n round d }
        let q := smGet r.2.rounds round ⟨isMax, []⟩
        .ok (if q.values.length = x.nshard then s.answerAll (roundAnswer c n round q.result) else s))

/-- `nsum` (R345). -/
def execNsum (d a b : Nat) (s : State) : Host.Outcome State Fault Refusal := s.sumRound d a b false
/-- `nsum.max` (R345). -/
def execNsumMax (d a b : Nat) (s : State) : Host.Outcome State Fault Refusal := s.sumRound d a b true

/-- The ids of a `catch.k` (R348), read at the issuing core's translation: none where a limit is broken. -/
def State.runIds (s : State) (x : Committee) (a : Word) (j : Nat) : Option (List Nat × State) :=
  let rq : Req := { s.req with eng := some 5, direct := true }
  if x.kspec < j then none
  else if j = 0 then some ([], s)
  else if a.toNat % 4 != 0 then none
  else
    match s.loadBytes rq (vaRange a.toNat (4 * j)) with
    | .error _ => none
    | .ok (l, s) =>
      let ids := elemsOf 32 j (bytesToNat l)
      if ids.all fun i => i < x.npiece then some (ids, s) else none

/-- `catch.k` (R348). -/
def execCatchK (d a b : Nat) (s : State) : Host.Outcome State Fault Refusal :=
  finish s (do
    s.umpireChecks d
    let c := bits (s.x b) 8 3
    let x := s.comm c
    let st := x.sendStatus s.myPart (bits (s.x b) 32 32)
    if st != 0 then .ok (s.reply d (word st))
    else if x.kspec = 0 then .ok (s.reply d 7)
    else
      match s.runIds x (s.x a) (bits (s.x b) 0 4) with
      | none => .ok (s.reply d 6)
      | some (ids, s) =>
        if x.run.isSome then .ok (s.reply d 4)
        else .ok ((s.modComm c fun x => { x with run := some ids }).reply d 0))

/-! ## The aux register (R340) -/

/-- BASE. -/
def auxBase (v : BitVec 2048) : Nat := bits v 64 32
/-- POS. -/
def auxPos (v : BitVec 2048) : Nat := bits v 96 4
/-- The drafted id `d_t`, for t from 1 to 15. -/
def auxDraft (v : BitVec 2048) (t : Nat) : Nat := bits v (32 * (t + 3)) 18

/-! ## The expression (R335, R341) -/

/-- A step of the expression: its operation and member. -/
structure CexStep where
  op : Nat
  mem : Nat
  deriving DecidableEq, Repr

/-- Whether an operation names a member. -/
def CexStep.named (k : CexStep) : Bool := 3 ≤ k.op && k.op ≤ 6

/-- The steps of the expression before its END (R335: 11 to 15 act as END). -/
def Combine.steps (x : Combine) : List CexStep :=
  ((List.range 16).map fun k => let w := smGet x.cex k 0; (⟨bits w 28 4, bits w 24 3⟩ : CexStep)).takeWhile fun k =>
    k.op != 0 && k.op < 11

/-- The members that a step names and the voting set holds (R341). -/
def Combine.read (x : Combine) : List Nat := ((x.steps.filter fun k => k.named && x.mask.getLsbD k.mem).map (·.mem)).eraseDups

/-- The estimate of an id (R337). -/
def estimate (f : SMap Nat) (i : Nat) : Nat := min (smGet f (hash1 i) 0) (smGet f (hash2 i) 0)

/-- The penalty of an id (R337), rounded once, with its flags. -/
def penalty (cpen : Word) (f : SMap Nat) (i : Nat) : Num × Flags :=
  let e := estimate f i
  let pres := num32 (f32 (bits cpen 0 32))
  let freq := num32 (f32 (bits cpen 32 32))
  let a := pres.mul (if 0 < e then .one else .zero)
  let b := freq.mul (.ofInt e)
  let t := a.1.add false b.1
  let r := roundFp fp32 .ne t.1
  (num32 (f32 r.1), a.2 ||| b.2 ||| t.2 ||| r.2)

/-- A value rounded to nearest even into FP32, with flags. -/
def rounded (x : Num × Flags) : Num × Flags :=
  let r := roundFp fp32 .ne x.1
  (num32 (f32 r.1), x.2 ||| r.2)

/-- LADDW (R341): ln(e^v + w × e^sc); a zero weight or a score of −inf leaves `v`. -/
def addLog (v w sc : Num) : Num × Flags :=
  if w.isZero || sc == .inf true then (v, 0)
  else if v.isNan || sc.isNan then (.nan false, sigFlags [v, sc])
  else rounded (logAddExp v w sc, 0)

/-- What one element of `ccomb` reads: its id, its scores by member, its mask bit and bias, and the filter of its position. -/
structure CombIn where
  id : Nat
  scores : SMap F32
  maskBit : Bool
  bias : F32
  filter : SMap Nat
  deriving DecidableEq, Repr

/-- One step of the expression on a working value (R341). -/
def Combine.step (x : Combine) (e : CombIn) (k : CexStep) (v : Num) : Num × Flags :=
  let w := num32 (smGet x.weights k.mem 0)
  let sc := num32 (smGet e.scores k.mem 0)
  if k.named && !x.mask.getLsbD k.mem then (v, 0)
  else
    match k.op with
    | 1 => (.zero, 0)
    | 2 => (.inf true, 0)
    | 3 => if w.isZero then (v, 0) else rounded (fmaExact .ne v w sc)
    | 4 => addLog v w sc
    | 5 => maxExact v sc
    | 6 => minExact v sc
    | 7 => rounded (v.mul (num32 x.ctemp))
    | 8 => let p := penalty x.cpen e.filter e.id; let r := rounded (v.add false p.1.negate); (r.1, p.2 ||| r.2)
    | 9 => (if e.maskBit then v else .inf true, 0)
    | _ => rounded (v.add false (num32 e.bias))

/-- One element of `ccomb`: a NaN becomes −inf with NV (R341). -/
def Combine.element (x : Combine) (e : CombIn) : Nat × Flags :=
  let r := x.steps.foldl (fun (a : Num × Flags) k => let b := x.step e k a.1; (b.1, a.2 ||| b.2)) (.zero, 0)
  if r.1.isNan then (0xFF800000, r.2 ||| fNV) else ((roundFp fp32 .ne r.1).1, r.2)

/-- The filter of a position: the copy with the drafted ids counted (R341). -/
def Combine.filterAt (x : Combine) (aux : BitVec 2048) : SMap Nat :=
  (List.range (auxPos aux)).foldl (fun f t => countToken f (auxDraft aux (t + 1))) x.filter

/-- The 64 elements of an instruction of major 0x39: the active ones computed, the others a constant. -/
def State.elements64 (s : State) (p : Nat) (c : Bool) (idle : Nat) (f : Nat → Nat × Flags) : List Nat × Flags :=
  let l := (List.range 64).map fun i => if s.active p c (4 * i) then f i else (idle, 0)
  (l.map (·.1), l.foldl (fun a e => a ||| e.2) 0)

/-- Element `i` of a vector of FP32 codes. -/
def elem32 (v : BitVec 2048) (i : Nat) : F32 := v.extractLsb' (32 * i) 32

/-- `ccomb` (R341). -/
def execCcomb (d a b p : Nat) (c : Bool) (s : State) : Host.Outcome State Fault Refusal :=
  finish s (do
    let x := s.me.combine
    let vd := s.stag 0 d
    let va := s.stag 1 a
    let vb := s.stag 2 b
    need (va % 8 == 0 && vb % 2 == 0 && x.valid) (trapIllegal s)
    let ms := x.read
    s.vecBody (ms.map (fun m => (va + m) % 32) ++ [vb, (vb + 1) % 32]) [vd] [p] [] fun s =>
      let aux := s.vdata ((vb + 1) % 32)
      let bias := s.vdata vb
      let f := x.filterAt aux
      let r := s.elements64 p c 0xFF800000 fun i =>
        x.element ⟨auxBase aux + i, ms.map fun m => (m, elem32 (s.vdata ((va + m) % 32)) i), aux.getLsbD i, elem32 bias i, f⟩
      (s.setV vd (vJoin 32 r.1) none, r.2))

/-! ## Perturbing (R338, R342) -/

/-- The noise of `gnoise` added to a working value (R342): `own` is the element of vd before the instruction. -/
def Combine.noisy (x : Combine) (h : Nat) (a own : F32) : Nat × Flags :=
  let r : Num × Flags := match bits x.cnoise 0 2 with
    | 0 => let g := gumbel h; let r := rounded ((num32 a).add false (num32 (f32 g.1))); (r.1, g.2 ||| r.2)
    | 1 => rounded ((num32 a).add false (num32 own))
    | _ => (num32 a, 0)
  if r.1.isNan then (0xFF800000, r.2 ||| fNV)
  else if 2 ≤ bits x.cnoise 0 2 then (a.toNat, 0) else ((roundFp fp32 .ne r.1).1, r.2)

/-- `gnoise` (R342). -/
def execGnoise (d a b p : Nat) (c : Bool) (s : State) : Host.Outcome State Fault Refusal :=
  finish s (do
    let x := s.me.combine
    need x.valid (trapIllegal s)
    let vd := s.stag 0 d
    let va := s.stag 1 a
    let vb := s.stag 2 b
    s.vecBody [va, vb, vd] [vd] [p] [] fun s =>
      let aux := s.vdata vb
      let r := s.elements64 p c 0xFF800000 fun i =>
        x.noisy (drawHash x.cseed (x.catchN + auxPos aux) (auxBase aux + i)) (elem32 (s.vdata va) i) (elem32 (s.vdata vd) i)
      (s.setV vd (vJoin 32 r.1) none, r.2))

/-- `gnoise.u` (R342). -/
def execGnoiseU (d b p : Nat) (c : Bool) (s : State) : Host.Outcome State Fault Refusal :=
  finish s (do
    let x := s.me.combine
    need x.valid (trapIllegal s)
    let vd := s.stag 0 d
    let vb := s.stag 2 b
    s.vecBody [vb] [vd] [p] [] fun s =>
      let aux := s.vdata vb
      let r := s.elements64 p c 0 fun i => (uniform (drawHash x.cseed (x.catchN + auxPos aux) (auxBase aux + i)), 0)
      (s.setV vd (vJoin 32 r.1) none, r.2))

end Sys2Proof.Machine
end

