-- ==== Sys2Proof/Machine/ApxImage.lean ====
section
/-! DEFINITION. The images of apprentice slots that `apx.save` writes and `apx.load` reads (R377). -/

namespace Sys2Proof.Machine

open Sys2Proof

/-- The number of weights and biases of a network (R365). -/
def weightCount : List Nat → Nat
  | m :: n :: rest => n * (m + 1) + weightCount (n :: rest)
  | _ => 0

/-- The FP32 codes of a list, as bytes. -/
def codeBytes (l : List F32) : List Byte := l.flatMap fun c => natToBytes 4 c.toNat

/-- Bytes filled up with zeros to a length. -/
def padTo (n : Nat) (l : List Byte) : List Byte := (l ++ List.replicate (n - l.length) 0).take n

/-- A slot's weights and biases in the order of its image. -/
def ApxSlot.weightList (a : ApxSlot) : List F32 :=
  match a.weights with
  | some l => l
  | none => (List.range (weightCount (axSizes a.ctl))).map Config.apxWeight

/-- The image of a slot (R377). -/
def ApxSlot.image (a : ApxSlot) : List Byte :=
  padTo 0x3000 (padTo 0x40 (natToBytes 8 a.ctl.toNat) ++ codeBytes ((List.range 32).map a.low) ++
    codeBytes ((List.range 32).map a.high) ++ codeBytes a.weightList)

/-- `n` FP32 codes at an offset of an image. -/
def imageCodes (l : List Byte) (off n : Nat) : List F32 := (elemsOf 32 n (bytesToNat ((l.drop off).take (4 * n)))).map f32

/-- A slot loaded from an image whose header passed its checks (R371, R377). -/
def ApxSlot.loadImage (a : ApxSlot) (v : Word) (l : List Byte) : ApxSlot :=
  { a.go .serve with
    ctl := v, frozen := true, due := false, fresh := 0, ring := [], pages := none, opens := []
    lo := imageCodes l 0x40 32, hi := imageCodes l 0xC0 32, weights := some (imageCodes l 0x140 (weightCount (axSizes v))) }

/-- `apx.save` (R377). -/
def State.saveSlot (s : State) (core : Nat) (k : EngCmd) : CmdEnd :=
  let n := k.a.toNat % 4
  let cl := clusterOf core
  let a := ((s.cluster cl).apxSlot n).begin (s.stepMode core)
  let s := s.setApx cl n a
  if a.state = .off || a.state = .invalid then failed s 5 n
  else s.engStore (k.req core) k.b.toNat a.image

/-- `apx.load` (R377). -/
def State.loadSlot (s : State) (core : Nat) (k : EngCmd) : CmdEnd :=
  let n := k.a.toNat % 4
  let cl := clusterOf core
  match s.loadBytes (k.req core) (vaRange k.b.toNat 0x3000) with
  | .error e => s.cmdFail e
  | .ok (l, s) =>
    let v : Word := word (bytesToNat (l.take 8))
    if axNin v = 0 || !axClean v || !axFull v then failed s 9 v.toNat
    else (s.setApx cl n (((s.cluster cl).apxSlot n).loadImage v l), none)

/-- An `apx.load` or `apx.save` carried out (R377). -/
def State.runApx (s : State) (core : Nat) (k : EngCmd) : CmdEnd :=
  if k.b.toNat % 128 != 0 then failed s 2 k.b.toNat
  else if k.op = .apxSave then s.saveSlot core k
  else s.loadSlot core k

end Sys2Proof.Machine
end

