-- ==== Sys2Proof/Machine/Commands.lean ====
section
/-! DEFINITION. Engine commands carried out: which may begin, what each does, and how the outstanding commands of an engine are run to
their end (R218, R250 to R252, R387). -/

namespace Sys2Proof.Machine

open Sys2Proof

/-- The state after an event. -/
def afterEvent (s : State) (o : Host.Outcome State Fault Refusal) : State :=
  match o with
  | .next t => t
  | _ => s

/-- A queue command carried out (R261). -/
def State.runQueueCmd (s : State) (core : Nat) (k : EngCmd) : CmdEnd :=
  let p := (s.core core).partid
  let rq := k.req core
  match k.op with
  | .qpub => s.publish p rq k.a.toNat k.b.toNat false
  | .qlaunch => s.publish p rq k.a.toNat k.b.toNat true
  | .qclaim => s.claim p rq k.a.toNat k.b.toNat
  | _ => s.signal p k.a.toNat

/-- A command of engines 2 to 5 carried out. -/
def State.runOther (s : State) (core : Nat) (k : EngCmd) : CmdEnd :=
  match k.op.engine with
  | 2 => s.runQueueCmd core k
  | 3 => s.runTextCmd core k
  | 4 => s.runApx core k
  | _ => if k.op = .ccfg then s.ccfg core k else s.crejoin core k

/-- The end of a command that has performed every access. -/
def State.endCmd (s : State) (core e t : Nat) (f : Option Failure) : State := s.modCmd core e t fun k => k.ended f

/-- A command begun: its accesses are performed, or it waits for other parties. -/
def State.runCmd (s : State) (core : Nat) (k : EngCmd) : State :=
  match k.op.engine with
  | 0 =>
    let r := s.runCopy core k
    (match r.2 with
     | .waiting => r.1.1.modCmd core 0 k.ticket fun k => { k with phase := .waiting }
     | _ => r.1.1.endCmd core 0 k.ticket r.1.2)
  | 1 => if k.op = .cabort then s.runAbort core k else s.runColl core k
  | e =>
    let r := s.runOther core k
    r.1.endCmd core e k.ticket r.2

/-- Whether a command's turn has come: the collective and text engines begin their commands in the order of tickets (R257,
R263), and an ordered command follows every earlier one (R218). -/
def EngCtx.turnOf (c : EngCtx) (e : Nat) (k : EngCmd) : Bool :=
  c.mayBegin k && (!(e == 1 || e == 3) || c.out.all fun j => j.phase != .issued || k.ticket ≤ j.ticket)

/-- A command begins (R218). -/
def execEngineCommandBegin (core e ticket : Nat) (s : State) : Host.Outcome State Fault Refusal :=
  .next (match s.cmd core e ticket with
    | some k => if (s.core core).inPart && (s.eng core e).turnOf e k then s.runCmd core k else s
    | none => s)

/-- The migration of a command, carried to its end (R183, R252). -/
def State.endMigration (s : State) (core t : Nat) : State :=
  match s.migrations.find? (fun m => m.2.core == core && m.2.ticket == t) with
  | none => s
  | some (k, _) =>
    let s := afterEvent s (execMigrationSwitch k s)
    afterEvent s (execMigrationCompletion k s)

/-- An outstanding command carried to its completion. -/
def State.carryOut (s : State) (core e : Nat) (k : EngCmd) : State :=
  let s := if k.phase = CmdPhase.issued then s.runCmd core k else s
  let s := match s.cmd core e k.ticket with
    | some j => if j.phase = CmdPhase.waiting then s.endMigration core k.ticket else s
    | none => s
  match s.cmd core e k.ticket with
  | some j => s.finishCmd core e j
  | none => s

/-- The outstanding commands of an engine context run to completion in the order of their tickets (R252); before a replica ends, the command
that is performed for both copies does (R242). -/
def State.settleEngine (s : State) (core e : Nat) : Nat → State
  | 0 => s
  | fuel + 1 =>
    match (s.eng core e).out with
    | [] => s
    | k :: _ =>
      let s := match s.original e k with
        | some (c, j) => s.carryOut c e j
        | none => s
      State.settleEngine (s.carryOut core e k) core e fuel

/-- The collectives of a core that a gang switch or a rollback takes: its own end ABORTED at every participant, begun or not, and so do those of
other cores that wait for it (R252, R260, R398). -/
def State.endColls (s : State) (core : Nat) : State :=
  let s := (s.eng core 1).out.foldl (fun s k =>
    match s.original 1 k, s.cmd core 1 k.ticket with
    | some (c, j), _ => s.endColl c j
    | none, some j => s.endColl core j
    | none, none => s) s
  let s := (s.waitingFor core).foldl (fun s e => s.abortAt e.1 e.2) s
  (s.eng core 1).out.foldl (fun s k =>
    let s := match s.original 1 k with
      | some (c, j) => s.finishCmd c 1 j
      | none => s
    match s.cmd core 1 k.ticket with
    | some j => s.finishCmd core 1 j
    | none => s) s

end Sys2Proof.Machine
end

