-- ==== Sys2Proof/Machine/Control.lean ====
section
/-! DEFINITION. Contexts, groups and barriers: `hstart`, `hstart.n`, `hexit`, `gjoin`, `gleave`, `gbar` (R106 to R111). -/

namespace Sys2Proof.Machine

open Sys2Proof

/-! ## Starting helpers (R106, R107) -/

/-- Whether a helper of the core is available to the executing context (R106). -/
def State.available (s : State) (h : Nat) : Bool :=
  let c := s.myCore
  (c.ctx h).life == .free &&
    (match s.groupOf s.cur with
     | some g => g.helpers.contains h && decide (g.members.length < g.helpers.length)
     | none => !c.slices.any fun g => g.2.helpers.contains h)

/-- The check of a start address, MISALIGNED in rank 7 (R107, R108). -/
def State.startAligned (s : State) (a : Nat) : Except Stop Unit :=
  need (bits (s.x a) 0 2 == 0) (trapWith .misaligned (s.x a))

/-- `hstart` (R107). -/
def execHstart (d a b : Nat) (s : State) : Host.Outcome State Fault Refusal :=
  finish s (do
    s.destX d
    s.startAligned a
    match helperNumbers.find? s.available with
    | none => .ok (s.setX d 0).advance
    | some h => .ok ((s.startHelper h (s.x a) (s.x b)).setX d (word h)).advance)

/-- A HELD helper resumed at an address, its pending trap withdrawn (R20). -/
def State.resumeHelper (s : State) (h : Nat) (pc : Word) : State :=
  s.modCtx ⟨s.cur.core, h⟩ fun c => { c with life := .live, pc := pc, trapPending := false }

/-- `hstart.n` (R107). -/
def execHstartN (d a b : Nat) (s : State) : Host.Outcome State Fault Refusal :=
  finish s (do
    s.destX d
    s.startAligned a
    let h := (s.x b).toNat
    let named := decide (1 ≤ h) && decide (h ≤ 10)
    if named && (s.myCore.ctx h).life == .held then do
      need (s.me.priv != 0) (trapPrivilege s)
      .ok ((s.resumeHelper h (s.x a)).setX d (word h)).advance
    else if named && s.available h then .ok ((s.startHelper h (s.x a) 0).setX d (word h)).advance
    else .ok (s.setX d 0).advance)

/-! ## Ending (R108) -/

/-- Whether every engine-queue entry of the executing context has completed. -/
def State.queueDone (s : State) : Bool :=
  let k := s.cur
  let cl := s.cluster (clusterOf k.core)
  !s.myCore.queue.any (fun e => e.ctx == k.ctx) &&
    !cl.lanes.any (fun l => l.2.core == k.core && l.2.ctx == k.ctx) && !cl.mat.any (fun m => m.core == k.core && m.ctx == k.ctx)

/-- The slots that a context owns PARKED, their tags kept (R153). -/
def State.parkOwned (s : State) (i : CtxId) : State :=
  let own := (s.cluster (clusterOf i.core)).slots.filter fun t => t.2.owner == some (i.core % 4, i.ctx)
  own.foldl (fun s t => s.modSlot i.core t.1 Slot.park) s

/-- `hexit` (R108). -/
def execHexit (s : State) : Host.Outcome State Fault Refusal :=
  finish s (do
    need (s.cur.ctx != 0) (trapIllegal s)
    if s.queueDone then
      let g := s.me.group
      let t := (s.parkOwned s.cur).freeCtx s.cur
      .ok (match g with | some g => t.exitSlice s.cur.core g s.cur.ctx | none => t)
    else waitRetry s)

/-! ## Groups and barriers (R110, R111) -/

/-- Whether the executing context is a member of a group. -/
def State.inGroup (s : State) (g : Nat) : Bool := (s.part s.myPart).isMember s.cur g

/-- GROUP_FAULT unless a condition holds (R29). -/
def needGroup (c : Bool) : Except Stop Unit := need c (trapWith .groupFault 0)

/-- `gjoin` (R110). -/
def execGjoin (g : Nat) (s : State) : Host.Outcome State Fault Refusal :=
  finish s (do
    needGroup (!s.inGroup g)
    .ok (s.modPart s.myPart fun p => let q := p.group g; p.setGroup g { q with members := q.members ++ [s.cur] }).advance)

/-- `gleave` (R110). -/
def execGleave (g : Nat) (s : State) : Host.Outcome State Fault Refusal :=
  finish s (do
    needGroup (s.inGroup g)
    .ok (s.depart s.myPart s.cur g).advance)

/-- Whether an expected count may arrive at a named barrier now (R110). -/
def State.countFits (s : State) (g b : Nat) (n : Nat) : Bool :=
  1 ≤ n && n ≤ 65535 &&
    (match ((s.part s.myPart).group g).bars.find? (fun e => e.1 == b) with
     | some (_, e) => e.arrived.isEmpty || e.count == n
     | none => true)

/-- `gbar` (R110, R111). -/
def execGbar (g b x : Nat) (s : State) : Host.Outcome State Fault Refusal :=
  finish s (do
    needGroup (s.inGroup g)
    needGroup (b == 0 || s.countFits g b (s.x x).toNat)
    .ok (s.arriveAt s.cur g b (s.x x).toNat))

end Sys2Proof.Machine
end

