-- ==== Sys2Proof/Machine/Convert.lean ====
section
/-! DEFINITION. Conversions and block formats (R131 to R135). -/

namespace Sys2Proof.Machine

open Sys2Proof

/-- What an element of a conversion holds: an FP format, LG6, or an integer type. -/
inductive Kind | fp (f : Fmt) | lg6 | int (signed : Bool) (w : Nat)
  deriving DecidableEq, Repr

/-- The element of the narrower side of a conversion pair (R132). -/
def CvtPair.small : CvtPair → Kind
  | .f16F32 => .fp fp16 | .bf16F32 => .fp Sys2Proof.Machine.bf16 | .e4m3F32 => .fp Sys2Proof.Machine.e4m3
  | .e5m2F32 => .fp Sys2Proof.Machine.e5m2
  | .e2m1F32 => .fp Sys2Proof.Machine.e2m1 | .lg6F32 => .lg6 | .e4m3F16 => .fp Sys2Proof.Machine.e4m3
  | .e5m2F16 => .fp Sys2Proof.Machine.e5m2 | .e4m3Bf16 => .fp Sys2Proof.Machine.e4m3
  | .i32F32 => .int true 32 | .n32F32 => .int false 32 | .i16F32 => .int true 16 | .i8F32 => .int true 8
  | .n8F32 => .int false 8

/-- The FP format of the other side of a conversion pair (R132). -/
def CvtPair.big : CvtPair → Fmt
  | .e4m3F16 => fp16 | .e5m2F16 => fp16 | .e4m3Bf16 => Sys2Proof.Machine.bf16 | _ => fp32

/-- The width of an element in bits: E2M1 is packed two to a byte, LG6 takes a byte (R63, R71). -/
def Kind.width : Kind → Nat
  | .fp f => f.width | .lg6 => 8 | .int _ w => w

/-- The exact value of an element's code. -/
def Kind.value (k : Kind) (c : Nat) : Num :=
  match k with
  | .fp f => decodeFp f c
  | .lg6 => decodeFp fp32 (roundFp fp32 .ne (lg6Value c)).1
  | .int sg w => .ofInt (readInt sg w c)

/-- An exact value converted to an element with Finish and Round_NE (R125, R132). -/
def Kind.convert (k : Kind) (q : Prefix) (x : Num) : Nat × Flags :=
  match k with
  | .fp f => finishFp f .ne q x
  | .lg6 => toLg6 (modify q x)
  | .int sg w => finishToInt sg w q x

/-- The registers of a group (R131). -/
def groupRegs (first k : Nat) : List Nat := (List.range k).map fun i => (first + i) % 32

/-- The elements of a group of registers (R131). -/
def State.groupElems (s : State) (w first k : Nat) : List Nat := (groupRegs first k).flatMap fun n => vElems w (s.vdata n)

/-- A group of registers written, `n` elements to a register; the sidecars are kept. -/
def State.setGroup (s : State) (w first : Nat) : Nat → List Nat → State
  | 0, _ => s
  | k + 1, l => (State.setGroup s w (first + 1) k (l.drop (2048 / w))).setV (first % 32) (vJoin w (l.take (2048 / w))) none

/-- The check that a group starts at a multiple of its size, ILLEGAL in rank 2 (R131, R139). -/
def State.groupAligned (s : State) (n k : Nat) : Except Stop Unit := need (n % k == 0) (trapIllegal s)

/-- Converted elements from index `i` on; the lane of index `i` lies at `i × w` bits of the single register (R131). -/
def convertLanes (act : Nat → Bool) (w : Nat) (op : Nat → Nat × BitVec 5) : Nat → List Nat → List Nat → List Nat × BitVec 5
  | i, a :: as, d :: ds =>
    let r := convertLanes act w op (i + 1) as ds
    if act (i * w / 8) then
      let e := op a
      (e.1 :: r.1, e.2 ||| r.2)
    else (d :: r.1, r.2)
  | _, _, _ => ([], 0)

/-- `vcvt` between element formats (R131, R132): `up` converts from the narrower format. -/
def execVcvt (d a p : Nat) (c : Bool) (k : CvtPair) (up : Bool) (s : State) : Host.Outcome State Fault Refusal :=
  let q := s.prefixOf
  let lo := CvtPair.small k
  let hi := CvtPair.big k
  let r := hi.width / lo.width
  let vd := s.stag 0 d
  let va := s.stag 1 a
  finish s (do
    s.groupAligned (if up then vd else va) r
    if up then
      s.vecBody (va :: groupRegs vd r) (groupRegs vd r) [p] [] fun s =>
        let out := convertLanes (s.active p c) lo.width (fun x => (Kind.fp hi).convert q (lo.value x)) 0
          (vElems lo.width (s.vdata va)) (s.groupElems hi.width vd r)
        (s.setGroup hi.width vd r out.1, out.2)
    else
      s.vecBody (vd :: groupRegs va r) [vd] [p] [] fun s =>
        let out := convertLanes (s.active p c) lo.width (fun x => lo.convert q (decodeFp hi x)) 0
          (s.groupElems hi.width va r) (vElems lo.width (s.vdata vd))
        (s.setV vd (vJoin lo.width out.1) none, out.2))

/-- A list cut into blocks of `k`, for at most `n` blocks. -/
def blocksOf {α : Type} (k : Nat) : Nat → List α → List (List α)
  | 0, _ => []
  | n + 1, l => l.take k :: blocksOf k n (l.drop k)

/-- The width of an FB element in bits, and the blocks of four in a register (R63, R64). -/
def fbWidth (fb4 : Bool) : Nat := if fb4 then 4 else 8

/-- The format of an FB element (R63). -/
def fbFmt (fb4 : Bool) : Fmt := if fb4 then Sys2Proof.Machine.e2m1 else Sys2Proof.Machine.e4m3

/-- Results renormalised in blocks of four (R70): the register's data, its sidecar and the flags. -/
def fbRegister (fb4 : Bool) (xs : List (Num × Flags)) : BitVec 2048 × BitVec 1280 × Flags :=
  let bs := (blocksOf 4 (if fb4 then 128 else 64) xs).map (renormBlock fb4 .ne)
  (vJoin (fbWidth fb4) (bs.flatMap (·.1)), BitVec.ofNat 1280 (joinElems 10 (bs.map (·.2.1))), bs.foldl (fun f b => f ||| b.2.2) 0)

/-- The scaled values of an FB register (R63, R64). -/
def fbValues (fb4 : Bool) (data : BitVec 2048) (side : BitVec 1280) : List Num :=
  ((vElems (fbWidth fb4) data).zipIdx).map fun e =>
    scaledValue (decodeFp (fbFmt fb4) e.1) (e8m2Value (side.toNat / 2 ^ (10 * (e.2 / 4)) % 1024))

/-- `vcvt` between FP32 and FB8 or FB4 (R133). -/
def execVcvtFb (d a : Nat) (fb4 up : Bool) (s : State) : Host.Outcome State Fault Refusal :=
  let q := s.prefixOf
  let r := 32 / fbWidth fb4
  let vd := s.stag 0 d
  let va := s.stag 1 a
  finish s (do
    s.groupAligned (if up then vd else va) r
    if up then
      s.vecBody [va] (groupRegs vd r) [] [] fun s =>
        let out := (fbValues fb4 (s.vdata va) (s.vside va)).map (finishFp fp32 .ne q)
        (s.setGroup 32 vd r (out.map (·.1)), out.foldl (fun f x => f ||| x.2) 0)
    else
      s.vecBody (groupRegs va r) [vd] [] [] fun s =>
        let out := fbRegister fb4 ((s.groupElems 32 va r).map fun x =>
          (modify q (decodeFp fp32 x), sigFlags [decodeFp fp32 x]))
        (s.setV vd out.1 (some out.2.1), out.2.2))

/-- The exponent of an MX block whose largest magnitude is `m` (R134). -/
def mxExponent (m : Num) : Int :=
  match m with
  | .inf _ => 127
  | .fin _ k e _ => if k = 0 then 0 else max (-127) (min 127 ((Nat.log2 k : Int) + e - 2))
  | .nan _ => 0

/-- One MX block of 32 values (R134): the elements' codes, the scale's code and the flags. -/
def mxBlock (xs : List Num) : List Nat × Nat × Flags :=
  if xs.any Num.isNan then (xs.map fun _ => 0, 0xFF, fNV)
  else
    let e := mxExponent (maxMag xs)
    let out := xs.map fun x => roundFp Sys2Proof.Machine.e2m1 .ne (x.scale (-e))
    (out.map (·.1), (e + 127).toNat, out.foldl (fun f x => f ||| x.2) 0)

/-- `vmxcvt` between FP32 and MX E2M1 (R134). -/
def execVmxcvt (d a : Nat) (up : Bool) (s : State) : Host.Outcome State Fault Refusal :=
  let q := s.prefixOf
  let vd := s.stag 0 d
  let va := s.stag 1 a
  finish s (do
    s.groupAligned (if up then vd else va) 8
    if up then
      s.vecBody [va] (groupRegs vd 8) [] [] fun s =>
        let out := ((vElems 4 (s.vdata va)).zipIdx).map fun e =>
          finishFp fp32 .ne q (scaledValue (decodeFp Sys2Proof.Machine.e2m1 e.1)
            (e8m0Value ((s.vside va).toNat / 2 ^ (8 * (e.2 / 32)) % 256)))
        (s.setGroup 32 vd 8 (out.map (·.1)), out.foldl (fun f x => f ||| x.2) 0)
    else
      s.vecBody (groupRegs va 8) [vd] [] [] fun s =>
        let bs := (blocksOf 32 16 ((s.groupElems 32 va 8).map fun x => modify q (decodeFp fp32 x))).map mxBlock
        (s.setV vd (vJoin 4 (bs.flatMap (·.1))) (some (BitVec.ofNat 1280 (joinElems 8 (bs.map (·.2.1))))),
          bs.foldl (fun f b => f ||| b.2.2) 0))

/-- An element-wise block operation (R135): exact on the scaled values, then Finish, then renormalised. -/
def State.fbArith (s : State) (d a b : Nat) (fb4 : Bool) (f : Num → Num → Num × Flags) : Host.Outcome State Fault Refusal :=
  let q := s.prefixOf
  let vd := s.stag 0 d
  let va := s.stag 1 a
  let vb := s.stag 2 b
  finish s (s.vecBody [va, vb] [vd] [] [] fun s =>
    let xs := ((fbValues fb4 (s.vdata va) (s.vside va)).zip (fbValues fb4 (s.vdata vb) (s.vside vb))).map fun e =>
      let r := f e.1 e.2
      (modify q r.1, r.2)
    let out := fbRegister fb4 xs
    (s.setV vd out.1 (some out.2.1), out.2.2))

/-- The LG6 result of `vmul.lg6` with abs, then neg, on its sign (R135). -/
def lg6Finish (q : Prefix) (c : Nat) : Nat :=
  let c := if q.abs then c % 32 else c
  if q.neg then (if c / 32 % 2 = 1 then c % 32 else c + 32) else c

/-- `vadd` on FB elements (R135). -/
def execVaddFb (d a b : Nat) (fb4 : Bool) (s : State) : Host.Outcome State Fault Refusal :=
  s.fbArith d a b fb4 fun x y => x.add false y

/-- `vsub` on FB elements (R135). -/
def execVsubFb (d a b : Nat) (fb4 : Bool) (s : State) : Host.Outcome State Fault Refusal :=
  s.fbArith d a b fb4 fun x y => x.add false y.negate

/-- `vmul` on FB elements (R135). -/
def execVmulFb (d a b : Nat) (fb4 : Bool) (s : State) : Host.Outcome State Fault Refusal :=
  s.fbArith d a b fb4 fun x y => x.mul y

/-- `vmul.lg6` (R73, R135). -/
def execVmulLg6 (d a b p : Nat) (c : Bool) (s : State) : Host.Outcome State Fault Refusal :=
  let q := s.prefixOf
  finish s (s.elementwise d a (some (s.stag 2 b)) p c 1 (fun s' => vElems 8 (s'.vdata (s.stag 2 b))) fun x y _ =>
    let r := lg6Mul x y
    (lg6Finish q r.1, r.2))

end Sys2Proof.Machine
end

