-- ==== Sys2Proof/Machine/StepMode.lean ====
section
/-! DEFINITION. Step mode: arrivals at the boundary, the merge of write sets with its conflict and unread-line checks, `sstep`,
`svote`, `sexit`, and the crew's `catch` (R35 to R38, R41, R112, R113, R174, R177 to R179, R252, R396). -/

namespace Sys2Proof.Machine

open Sys2Proof

/-! ## Merging (R38) -/

/-- A deferred write with the core whose write set holds it. -/
abbrev Owned := Nat × Deferred

/-- Whether one write merges no later than another: ascending task id, then ascending core number (R38). -/
def ownedLe (a b : Owned) : Bool := a.2.task.toNat < b.2.task.toNat || (a.2.task == b.2.task && a.1 ≤ b.1)

/-- A write put into a sorted list, before the writes that it merges no later than. -/
def insertOwned (a : Owned) : List Owned → List Owned
  | [] => [a]
  | b :: rest => if ownedLe a b then a :: b :: rest else b :: insertOwned a rest

/-- The writes in the order of the merge; those of one task id of one core keep their order. -/
def sortOwned : List Owned → List Owned
  | [] => []
  | a :: rest => insertOwned a (sortOwned rest)

/-- The bytes that a deferred write writes: its first address and their number. -/
def Deferred.span (d : Deferred) : Nat × Nat :=
  match d.op with
  | .bytes l => (d.pa, l.length)
  | .fill .. => (d.pa / 128 * 128, 128)
  | .fadd _ => (d.pa, 0)
  | .xacc l => (d.pa, l.length)

/-- Whether a write is an `xacc.rd`'s. -/
def DefOp.isRead : DefOp → Bool
  | .xacc _ => true | _ => false

/-- Whether a write works on a wide accumulator. -/
def DefOp.isExact : DefOp → Bool
  | .xacc _ => true | .fadd _ => true | _ => false

/-- The lowest byte on which two deferred writes conflict, if they do (R38, R177). -/
def conflictOf (a b : Owned) : Option Nat :=
  let sa := a.2.span
  let sb := b.2.span
  let lo := max sa.1 sb.1
  let hi := min (sa.1 + sa.2) (sb.1 + sb.2)
  if (a.1 != b.1 || a.2.task != b.2.task) && lo < hi then some lo
  else if a.2.pa = b.2.pa && ((a.2.op.isRead && b.2.op.isExact) || (b.2.op.isRead && a.2.op.isExact)) then some a.2.pa
  else none

/-- The lesser of two addresses, where there are any. -/
def lower (a b : Option Nat) : Option Nat :=
  match a, b with
  | some x, some y => some (min x y)
  | some x, none => some x
  | none, y => y

/-- The lowest conflicting address of a list of deferred writes (R38). -/
def lowestConflict : List Owned → Option Nat
  | [] => none
  | a :: rest => rest.foldl (fun m b => lower m (conflictOf a b)) (lowestConflict rest)

/-- The deferred writes of a partition. -/
def State.deferrals (s : State) (p : Nat) : List Owned :=
  sortOwned ((s.part p).cores.flatMap fun n => (s.core n).writeSet.map fun d => (n, d))

/-- The lowest line that was filled in an earlier superstep, is not closed and still has a count (R38). -/
def State.unreadLine (s : State) (p : Nat) : Option Nat :=
  ((s.lines.find? fun l => l.2.part == p && l.2.aged && !s.closed.contains l.1 && l.2.count != 0).map fun l => l.1 * 128)

/-- Why a merge fails (R38, R113): the cause and TVAL. -/
def State.mergeFailure (s : State) (p : Nat) : Option (Cause × Nat) :=
  match lowestConflict (s.deferrals p) with
  | some a => some (.mergeConflict, a)
  | none => (s.unreadLine p).map fun a => (.underread, a)

/-- The reservations of a partition's superstep released (R179). -/
def State.releaseReserved (s : State) (p : Nat) : State :=
  let s := (s.part p).cores.foldl (fun s n => s.modCore n fun c => { c with released := true }) s
  { s with accs := s.accs.filter fun a => !(a.2.reserved && a.2.part == p) }

/-- The home of a deferred write reached at the merge: its line is there, and about to be written (R166). The write reserved its place when it
was deferred (R179), so that it finds room. -/
def State.reachHome (s : State) (d : Deferred) : State :=
  let line := d.pa / 128
  if !d.held then s
  else
    match s.visitLine d.place line (line * 128) .storeFault with
    | .ok s => s.dirtyLine line
    | .error _ => s

/-- One deferred write applied at its home (R38): `filled` are the lines that this merge fills. -/
def State.applyOne (s : State) (filled : List Nat) (o : Owned) : State :=
  let d := o.2
  let line := d.pa / 128
  let agent : Agent := .core o.1 d.eng
  match d.op with
  | .bytes l =>
    if filled.contains line || smHas s.lines line then s
    else
      let pas := (List.range l.length).map (d.pa + ·)
      let s := ((s.reachHome d).writeCells (pas.zip l)).watch agent .st pas
      if d.eng.isSome && l.length = 128 then { s with poison := s.poison.filter (· != line) } else s
  | .fill v n =>
    if smHas s.lines line then s
    else
      ((s.roomL2 d.place.slice).countLine line ⟨n, none, true, v, d.place, (s.core o.1).partid⟩).watch agent .st
        ((List.range 128).map (line * 128 + ·))
  | .fadd code =>
    let s := s.keepAcc d.pa
    let a := smGet s.accs d.pa (freshAcc d.place (s.core o.1).partid)
    ({ s with accs := smSet s.accs d.pa { a.add (decodeFp fp32 code.toNat) with reserved := false } }).watch agent .st
      ((List.range 4).map (d.pa + ·))
  | .xacc l =>
    let pas := (List.range 4).map (d.pa + ·)
    let s := s.keepAcc d.pa
    let s := if smHas s.lines line then s else (s.reachHome d).writeCells (pas.zip l)
    ({ s with accs := smErase s.accs d.pa }).watch agent .st pas

/-- A partition's EMPTIED lines dropped without write-back at its boundary (R174). -/
def State.dropEmptied (s : State) (p : Nat) : State :=
  let gone := (s.lines.filter fun l => l.2.emptied == some p).map (·.1)
  let s := gone.foldl (fun s l => s.keepLine l) s
  { s with lines := s.lines.filter fun l => l.2.emptied != some p }

/-- A core at the start of a superstep: no write set, task id 0, an empty undo log (R38, R112, R180). -/
def Core.newStep (c : Core) : Core := { c with writeSet := [], released := false, taskId := 0, undo := [] }

/-- A merge without failure (R38): every write applied, and a new superstep begun. -/
def State.mergeAll (s : State) (p : Nat) : State :=
  let l := s.deferrals p
  let filled := l.filterMap fun o => match o.2.op with | .fill .. => some (o.2.pa / 128) | _ => none
  let s := l.foldl (fun s o => s.applyOne filled o) s
  let s := s.dropEmptied p
  let s := { s with accs := s.accs.filter fun a => !(a.2.reserved && a.2.part == p) }
  let s := (s.part p).cores.foldl (fun s n => s.modCore n Core.newStep) s
  s.modPart p fun q => { q with snap := [], accSnap := [], stepctl := 0 }

/-- The boundary checkpoints of a partition's cores (R396). -/
def State.takeCheckpoints (s : State) (p : Nat) : State :=
  (s.part p).cores.foldl (fun s n => s.modCore n fun c => { c with checkpoint := some (c.ctx 0).checkpoint }) s

/-! ## The boundary (R35, R41, R112) -/

/-- Whether a wait is an arrival at the boundary. -/
def Wait.arrived : Wait → Bool
  | .boundary .. => true | .stepCatch .. => true | _ => false

/-- The waits of the control contexts of a partition. -/
def State.controlWaits (s : State) (p : Nat) : List Wait := (s.part p).cores.map fun n => (s.ctx ⟨n, 0⟩).wait

/-- Every control context takes a trap at its arriving instruction (R38, R41). -/
def State.trapAll (s : State) (p : Nat) (c : Cause) (v : Nat) : State :=
  (s.part p).cores.foldl (fun s n => s.takeCause ⟨n, 0⟩ { cause := c, tval := word v } false none) s

/-- The vote of an arrival. -/
def Wait.voteOf : Wait → Word
  | .boundary v _ _ => v
  | _ => 0

/-- The result of `svote` (R112): the number of cores with a nonzero vote, and the OR of all votes. -/
def voteResult (ws : List Wait) : Word :=
  let vs := ws.map Wait.voteOf
  word ((vs.filter (· != 0)).length % 65536 * 2 ^ 32) ||| vs.foldl (· ||| ·) 0

/-- A control context that goes on after `sstep` or `svote`. -/
def Ctx.passBoundary (c : Ctx) (v : Word) : Ctx :=
  match c.wait with
  | .boundary _ true d => c.answered d v
  | _ => { c with wait := .none, pc := c.pc + 4 }

/-- The register that an arriving `catch` writes. -/
def Wait.catchDest : Wait → Nat
  | .stepCatch _ _ d _ => d
  | _ => 0

/-- The crew's single arrival after its merge (R41): every control context waits for the one answer, or has it at once. -/
def State.crewArrives (s : State) (p : Nat) (a b : Word) (vote : Bool) : State :=
  let r := s.arrive p (bits a 0 63) (a.getLsbD 63) b.toNat vote
  let cores := (s.part p).cores
  match r.2 with
  | .error v => cores.foldl (fun s n => (s.modCtx ⟨n, 0⟩ fun x => x.answered (x.wait.catchDest) v).progress n) r.1
  | .ok late =>
    let c := ((s.crewOf p).map (·.1)).getD 0
    let t := cores.foldl (fun s n => s.modCtx ⟨n, 0⟩ fun x => { x with wait := .catchAns c b.toNat (x.wait.catchDest) late }) r.1
    if late = 0 then t.evaluate c false else t

/-- Whether every arrival is a `catch` of one position, one readiness and one number (R41). -/
def sameCatch (w : Wait) (ws : List Wait) : Bool :=
  match w with
  | .stepCatch a b _ v => ws.all fun x => match x with | .stepCatch a' b' _ v' => a == a' && b == b' && v == v' | _ => false
  | _ => false

/-- Whether an arrival is a `catch`. -/
def Wait.isCatch : Wait → Bool
  | .stepCatch .. => true | _ => false

/-- A boundary's completion without failure: the merge, STEPNO, and each core's result (R35, R38, R41, R112, R396). -/
def State.passAll (s : State) (p : Nat) (ws : List Wait) : State :=
  let s := s.mergeAll p
  let s := (s.modPart p fun q => { q with stepno := q.stepno + 1 }).progress (s.part p).supervisor
  match ws with
  | .stepCatch a b _ v :: _ => ((s.takeCheckpoints p).crewArrives p a b v).takeCheckpoints p
  | _ =>
    let v := voteResult ws
    ((s.part p).cores.foldl (fun s n => s.modCtx ⟨n, 0⟩ fun c => c.passBoundary v) s).takeCheckpoints p

/-- The boundary of a partition, where every core has arrived (R35, R38, R41). -/
def State.completeBoundary (s : State) (p : Nat) : State :=
  let ws := s.controlWaits p
  if !ws.all Wait.arrived then s
  else if ws.any Wait.isCatch && !(match ws with | w :: _ => sameCatch w ws | [] => false) then s.trapAll p .groupFault 0
  else
    match s.mergeFailure p with
    | some (c, v) => (s.releaseReserved p).trapAll p c v
    | none => s.passAll p ws

/-- Whether a core's helpers are all FREE or STOPPED at rest, none LIVE or HELD (R35). -/
def State.helpersRest (s : State) (core : Nat) : Bool :=
  helperNumbers.all fun h => let l := (s.ctx ⟨core, h⟩).life; l != .live && l != .held

/-- Whether the core has no outstanding command that an arrival waits for (R252). -/
def State.enginesRest (s : State) (core : Nat) : Bool := [0, 1, 3, 4, 5].all fun e => (s.eng core e).out.isEmpty

/-- An arrival at the boundary (R35, R113): the wait for helpers and commands first, which may be interrupted. -/
def State.arriveBoundary (s : State) (w : Wait) : Body :=
  if !s.helpersRest s.cur.core || !s.enginesRest s.cur.core then waitRetry s
  else .ok ((s.modMe fun c => { c with wait := w }).completeBoundary s.myPart)

/-- Step mode and the control context, or ILLEGAL (R112). -/
def State.needStep (s : State) : Except Stop Unit := need (s.stepMode s.cur.core && s.cur.ctx == 0) (trapIllegal s)

/-- `sstep` (R112). -/
def execSstep (s : State) : Host.Outcome State Fault Refusal :=
  finish s (do
    s.needStep
    s.arriveBoundary (.boundary 0 false 0))

/-- `svote` (R112). -/
def execSvote (d a : Nat) (s : State) : Host.Outcome State Fault Refusal :=
  finish s (do
    s.needStep
    s.destX d
    s.arriveBoundary (.boundary (word (bits (s.x a) 0 32)) true d))

/-- `sexit` (R112). -/
def execSexit (a : Nat) (s : State) : Host.Outcome State Fault Refusal :=
  finish s (do
    s.needStep
    if s.helpersRest s.cur.core then
      let t : BitVec 32 := (s.x a).setWidth 32
      .ok (s.modCore s.cur.core fun c => { c with taskId := t }).advance
    else waitRetry s)

/-- `catch` and `catch.nv` (R41, R42, R330): in step mode an arrival at the boundary. -/
def State.catchInstr (s : State) (d a b : Nat) (vote : Bool) : Host.Outcome State Fault Refusal :=
  finish s (do
    s.destX d
    need (!s.me.pureMarked) (trapWith .apxStore 0)
    if s.stepMode s.cur.core then s.arriveBoundary (.stepCatch (s.x a) (s.x b) d vote)
    else .ok (s.commanded.flowCatch d a b vote))

/-- `catch` (R330). -/
def execCatch (d a b : Nat) (s : State) : Host.Outcome State Fault Refusal := s.catchInstr d a b true
/-- `catch.nv` (R330). -/
def execCatchNv (d a b : Nat) (s : State) : Host.Outcome State Fault Refusal := s.catchInstr d a b false

end Sys2Proof.Machine
end

