-- ==== Sys2Proof/Machine/Partition.lean ====
section
/-! DEFINITION. HEALTH, a partition's creation and reset, the bell, MODE writes, and step-mode rollback (R30, R31, R170, R174, R244, R245, R282, R285,
R287, R361, R362, R379, R389 to R391, R396 to R399). -/

namespace Sys2Proof.Machine

open Sys2Proof

/-! ## The event ring and HEALTH (R361, R362, R411) -/

/-- An event reported to the host. -/
def State.report (s : State) (e : HostEvent) : State := { s with events := s.events ++ [e] }

/-- The clusters with at least `n` RNS channels out of service. -/
def State.rnsOut (s : State) (n : Nat) : Nat :=
  (s.clusters.filter fun c => n ≤ ((List.range 10).filter fun i => c.2.rnscfg.getLsbD i).length).length

/-- HEALTH as firmware writes it: LINKDN and a REPLACE that is set stand (R362). -/
def State.healthWord (s : State) : Word :=
  let n := s.retired.length
  let worn := 0 < s.rnsOut 2 || 1024 < n
  let bit := fun (b : Bool) => b.toNat
  word (bit (worn || s.health.getLsbD 0) + bit (0 < s.rnsOut 2) * 2 ^ 4 + bit (1024 < n) * 2 ^ 5
    + bit (65536 ≤ n) * 2 ^ 6 + s.rnsOut 1 * 2 ^ 8 + s.rnsOut 2 * 2 ^ 17 + n % 2 ^ 17 * 2 ^ 26
    + bits s.health 48 16 * 2 ^ 48)

/-- Firmware's update of HEALTH; a REPLACE newly set is reported to the host (R362, R404, R411). -/
def State.updateHealth (s : State) : State :=
  let h := s.healthWord
  let old := s.health.getLsbD 0
  let s : State := { s with health := h }
  if h.getLsbD 0 && !old then s.report ⟨4, none, 0, none⟩ else s

/-! ## Contexts of a partition -/

/-- A core with every context changed. -/
def Core.mapCtxs (c : Core) (f : Ctx → Ctx) : Core := { c with ctxs := c.ctxs.map fun e => (e.1, f e.2) }

/-- The state with every core of a partition changed. -/
def State.mapCores (s : State) (p : Nat) (f : Nat → Core → Core) : State :=
  (s.part p).cores.foldl (fun s n => s.modCore n (f n)) s

/-- The state with every cluster of a partition changed. -/
def State.mapClusters (s : State) (p : Nat) (f : Cluster → Cluster) : State :=
  (s.part p).clusters.foldl (fun s n => s.modCluster n f) s

/-- A context's stop by the bell: only LIVE contexts become STOPPED (R19, R389). -/
def Ctx.stop (c : Ctx) : Ctx := if c.life = .live then { c with life := .stopped } else c

/-- A context's return to its state before the stop (R391). -/
def Ctx.resume (c : Ctx) : Ctx := if c.life = .stopped then { c with life := .live } else c

/-- The control context that starts at an address at privilege S (R287, step 8). -/
def startedControl (rvec : Word) : Ctx := { freshCtx 0 with life := .live, pc := alignPc rvec }

/-! ## Creation (R285, R287) -/

/-- The core of a partition as creation and reset leave it (R287, steps 7 and 8). -/
def startedCore (p : Nat) (ptroot rvec : Word) : Core :=
  { partid := p, inPart := true, ptroot := ptroot, ctxs := [(0, startedControl rvec)] }

/-- The ASIDs granted to a partition: the first, and their number (R282). -/
def Partition.asids (q : Partition) : Nat × Nat := (bits q.asidr 0 10, bits q.asidr 16 11)

/-- Whether two ranges meet. -/
def asidsMeet (a b : Nat × Nat) : Bool := a.1 < b.1 + b.2 && b.1 < a.1 + a.2

/-- Whether a rectangle lies in the device mesh (R10). -/
def rectInMesh (col row width height : Nat) : Bool := 1 ≤ width && 1 ≤ height && col + width ≤ 16 && row + height ≤ 16

/-- Whether no partition holds a cluster of a rectangle (R30). -/
def State.rectFree (s : State) (col row width height : Nat) : Bool :=
  (rectClusters col row width height).all fun c => s.parts.all fun q => !q.2.live || !q.2.clusters.contains c

/-- The partitions that exist, present or switched out. -/
def State.partitions (s : State) : List (Nat × Partition) := (s.parts.filter fun q => q.2.live) ++ s.images.map fun i => (i.2.partid, i.2.part)

/-- Whether firmware can create a partition with these arguments (R30, R282, R285). -/
def State.mayCreate (s : State) (x : CreateArgs) : Bool :=
  x.partid < 64 && !(s.partitions.any fun q => q.1 == x.partid)
    && rectInMesh x.col x.row x.width x.height && s.rectFree x.col x.row x.width x.height
    && 1 ≤ x.asidCount && x.asidBase + x.asidCount ≤ 1024
    && !(s.partitions.any fun q => asidsMeet q.2.asids (x.asidBase, x.asidCount))
    && 1 ≤ x.qos && x.qos ≤ 15 && x.granted.all fun g => g < 1024

/-- RVEC as it is stored: ADDR (R273). -/
def storedRvec (v : Word) : Word := word (bits v 2 53 * 4)
/-- PTROOT as it is stored: ASID and ROOT (R273). -/
def storedPtroot (v : Word) : Word := word (bits v 0 10 + bits v 16 36 * 65536)

/-- A partition as firmware creates it (R285). -/
def createdPartition (x : CreateArgs) : Partition :=
  { live := true
    col := x.col
    row := x.row
    width := x.width
    height := x.height
    ccol := x.col
    crow := x.row
    granted := x.granted
    asidr := word (x.asidBase + x.asidCount * 65536)
    qos := word x.qos
    rvec := storedRvec x.rvec
    initPtroot := storedPtroot x.ptroot }

/-- A partition created: its cores start at RVEC at privilege S (R285, R287, step 8). CREATE resets no CYCLE (R353). -/
def State.createPartition (s : State) (x : CreateArgs) : State :=
  let q := createdPartition x
  let s := s.modPart x.partid fun _ => q
  s.mapCores x.partid fun _ c => { startedCore x.partid q.initPtroot q.rvec with cycle := c.cycle }

/-! ## The partition reset (R287) -/

/-- The placed slices and re-execution lists of a partition discarded, its descriptors written back, and QTAB cleared (R245). -/
def State.quiesce (s : State) (p : Nat) : State :=
  let s := s.mapCores p fun _ c => { c with slices := [] }
  let s := if (s.part p).queuesOn then (smKeys (s.part p).queues).foldl (fun s q => s.writeBack p q) s else s
  s.modPart p fun q => { q with qtab := 0, queues := [], urgentNext := 0 }

/-- Engine commands discarded, and every item of R249 at its reset value (R252). -/
def State.dropEngines (s : State) (p : Nat) : State :=
  let s := s.mapCores p fun _ c => { c with engs := [], collSeq := [], collAborted := [] }
  { s with migrations := s.migrations.filter fun m => m.2.part != p }

/-- Whether a home is a slice of a partition's own, and not a granted slice of the device (R166, R394). -/
def Partition.owns (q : Partition) (h : Place) : Bool := !h.abs && q.cores.contains h.slice

/-- The ordinary lines in a partition's own slices. -/
def State.ownLines (s : State) (p : Nat) : List Nat := (s.l2.filter fun l => (s.part p).owns l.2.place).map (·.1)

/-- The counted lines of a partition dropped, its accumulators released and its shadow lines emptied (R287, step 4): the address of
the lowest line, and the state after it. The other lines leave its slices, and closed bits go with their lines (R163). -/
def State.dropLines (s : State) (p : Nat) : Option Nat × State :=
  let mine := s.lines.filter fun l => l.2.part == p
  let own := s.ownLines p
  let s := mine.foldl (fun s l => s.keepLine l.1) s
  let s := (s.accs.filter fun a => a.2.part == p).foldl (fun s a => s.keepAcc a.1) s
  let s := own.foldl State.dropL2 s
  (mine.head?.map fun l => l.1 * 128,
   { s with
     lines := s.lines.filter fun l => l.2.part != p
     accs := s.accs.filter fun a => a.2.part != p
     closed := s.closed.filter fun l => !(smHas mine l || own.contains l) })

/-- The scratch of a partition's cores zeroed (R163). -/
def State.zeroScratch (s : State) (p : Nat) : State :=
  let own := (s.part p).cores
  { s with mem := s.mem.filter fun c => !(match regionOf c.1 with | .sram n => own.contains n | _ => false) }

/-- A host queue pair after a partition reset (R407, R409): EN, LASTCONS and LASTPROD are zero, and entries not consumed are discarded. -/
def HostPair.reset (h : HostPair) : HostPair :=
  { h with qcfg := putBits h.qcfg 0 1 0, lastcons := 0, lastprod := 0, consIdx := h.sqdb.toNat, wrong := false, subs := [] }

/-- A partition after its reset: what firmware assigned stands, RVEC is written again, and every other register has its reset value
(R285, R287). -/
def Partition.afterReset (q : Partition) : Partition :=
  { live := true
    col := q.col
    row := q.row
    width := q.width
    height := q.height
    ccol := q.ccol
    crow := q.crow
    granted := q.granted
    asidr := q.asidr
    qos := q.qos
    rvec := q.rvec
    initPtroot := q.initPtroot
    pairs := q.pairs.map fun e => (e.1, e.2.reset)
    msix := q.msix }

/-- A partition reset (R287), reported to the host with the lowest counted line that it dropped (R174, R411). -/
def State.resetPartition (s : State) (p : Nat) : State :=
  let s := s.resetReaches p
  let s := ((s.dropEngines p).quiesce p)
  let d := s.dropLines p
  let s : State := { d.2 with
    texts := d.2.texts.map fun t => if t.2.bound = some p then (t.1, {}) else t
    paired := d.2.paired.filter fun r => r.2.part != p }
  let s := s.zeroScratch p
  let s := s.mapClusters p fun _ => {}
  let q := (s.part p).afterReset
  let s := s.mapCores p fun _ _ => startedCore p q.initPtroot q.rvec
  (s.modPart p fun _ => q).updateHealth.report ⟨1, some p, 0, d.1⟩

/-- A partition reset by firmware (R287); a partition that is switched out is reset when it resumes. -/
def State.requestReset (s : State) (p : Nat) : State :=
  if (s.part p).live then s.resetPartition p
  else { s with images := s.images.map fun i =>
    if i.2.partid = p then (i.1, { i.2 with part := { i.2.part with fnReset := true } }) else i }

/-- A partition reset by firmware (R287). -/
def execPartitionReset (part : Nat) (s : State) : Host.Outcome State Fault Refusal := .next (s.requestReset part)

/-- A function-level reset of a partition's virtual function (R287, R406). -/
def execFunctionLevelReset (part : Nat) (s : State) : Host.Outcome State Fault Refusal := .next (s.requestReset part)

/-! ## The bell (R389 to R391) -/

/-- Bound vector work and matrix operations in flight of a cluster finished (R389). -/
def State.finishBound (s : State) (cl : Nat) : State :=
  let s := (smKeys (s.cluster cl).lanes).foldl (fun s k => afterEvent s (execVectorCompletion cl k s)) s
  (s.cluster cl).mat.foldl (fun s _ => afterEvent s (execMatrixCompletion cl 0 s)) s

/-- Every owned slot PARKED (R153). -/
def Cluster.parkAll (c : Cluster) : Cluster :=
  { c with slots := c.slots.map fun t => if t.2.owner.isSome then (t.1, t.2.park) else t }

/-- BELL.CAUSE and NSTOP after a stop (R379). -/
def bellAfter (b : Word) (cause : Nat) : Word := putBits (putBits b 8 4 cause) 16 32 (bits b 16 32 + 1)

/-- The messages that cores have sent and received since the last stop, as free numbers (R378, log entry 30): where none is still in a router, the
totals come out equal (R390). -/
def State.freeCounts (s : State) (cores : List Nat) (settled : Bool) : List (Word × Word) × State :=
  let n := cores.length
  let sent := cores.zipIdx.map fun e => (s.core e.1).sent + Config.freeWord (s.freeIdx + e.2)
  let recv := cores.zipIdx.map fun e => (s.core e.1).recv + Config.freeWord (s.freeIdx + n + e.2)
  let off : Word := if settled then sent.foldl (· + ·) 0 - recv.foldl (· + ·) 0 else 0
  let recv := match recv with | r :: rest => (r + off) :: rest | [] => []
  (sent.zip recv, { s with freeIdx := s.freeIdx + 2 * n })

/-- SENT and RECV recorded by each core at a stop (R390): a request that a router holds is counted as sent and not as received (R247). -/
def State.recordCounts (s : State) (p : Nat) : State :=
  let cores := (s.part p).cores
  let r := s.freeCounts cores (s.paired.all fun q => q.2.part != p)
  (cores.zip r.1).foldl (fun s e => s.modCore e.1 fun c => { c with sent := e.2.1, recv := e.2.2 }) r.2

/-! ## Writes of agents that use NOCACHE homes (R168, R405, R437) -/

/-- Whether a line stands in an L2 slice, so that a party which reaches it through a NOCACHE home maps its page with another home (R168). -/
def State.strayLine (s : State) (line : Nat) : Bool := smHas s.lines line || smHas s.l2 line

/-- The cells that a write through NOCACHE homes writes. On a line that stands in a slice the outcome is undefined (R168): of a counted line the
backing memory is written or the byte is lost (R437), and of an ordinary one the byte is free (R6). -/
def State.nocacheCells (s : State) (l : List Host.Cell) : List Host.Cell :=
  l.zipIdx.filterMap fun e =>
    let line := e.1.1 / 128
    if smHas s.lines line then (if Config.freeBool (s.freeIdx + e.2) then some e.1 else none)
    else if smHas s.l2 line then some (e.1.1, Config.freeByte (s.freeIdx + e.2))
    else some e.1

/-- A write through NOCACHE homes. -/
def State.nocacheWrite (s : State) (l : List Host.Cell) : State :=
  { s.writeCells (s.nocacheCells l) with freeIdx := s.freeIdx + l.length }

/-- A core's bell record (R390). -/
def Core.bellRecord (c : Core) : List Byte :=
  natToBytes 8 c.cycle ++ natToBytes 8 c.sent.toNat ++ natToBytes 8 c.recv.toNat ++ natToBytes 8 (c.ctx 0).pc.toNat

/-- The bell records written at BELLADR, if it is not zero (R390). -/
def State.writeBellRecords (s : State) (p : Nat) : State :=
  let base := bits (s.part p).belladr 5 47 * 32
  if base = 0 then s
  else ((s.part p).cores.zipIdx).foldl (fun s e =>
    let a := base + 32 * e.2
    let l := (s.core e.1).bellRecord
    s.nocacheWrite (((List.range 32).map (a + ·)).zip l)) s

/-- The bell stop of a partition (R389, R390, R153, R324, R411). -/
def State.stopFor (s : State) (p cause : Nat) : State :=
  let s := (s.part p).clusters.foldl (fun s c => s.finishBound c) s
  let s := s.mapCores p fun _ c => c.mapCtxs Ctx.stop
  let s := (s.recordCounts p).writeBellRecords p
  let now := s.time
  let s := s.modPart p fun q =>
    { q with bell := bellAfter q.bell cause, stopped := some cause, ringing := none, stopTime := now }
  let s := if cause ≤ 4 then s.mapClusters p Cluster.parkAll else s
  let s := if cause = 2 || cause = 3 then s.crewFault p else s
  s.report ⟨5, some p, cause, none⟩

/-- The bell stop that a ring brings about (R389); a gang switch goes on after it (R393). -/
def execBellStop (part : Nat) (s : State) : Host.Outcome State Fault Refusal :=
  .next (match (s.part part).ringing with
    | some c => if (s.part part).live then s.stopFor part c else s
    | none => s)

/-- Every context of a partition back in its state before the stop (R391). -/
def State.continuePart (s : State) (p : Nat) : State :=
  (s.mapCores p fun _ c => c.mapCtxs Ctx.resume).modPart p fun q => { q with stopped := none }

/-! ## MODE writes (R31, R170) -/

/-- Whether MODE may be written now (R31). -/
def State.modeFree (s : State) (p : Nat) : Bool :=
  let q := s.part p
  q.cores.all fun n =>
    helperNumbers.all (fun h => (s.ctx ⟨n, h⟩).life == .free) && (s.core n).queue.isEmpty &&
      (match (s.ctx ⟨n, 0⟩).wait with
       | .boundary .. => false
       | .stepCatch .. => false
       | .catchAns .. => !q.mode
       | _ => true)

/-- The 64 KiB below a core's cache portion read as zero again (R170). -/
def State.clearLog (s : State) (core : Nat) : State :=
  let top := sramBase + core * 0x80000 + 0x80000 - (s.core core).cacheBytes
  { s with mem := s.mem.filter fun c => !(top - 0x10000 ≤ c.1 && c.1 < top) }

/-- The commands that a core issued in a superstep which a MODE write ends: those of its own engines are carried out in it (R252), and a
collective that still waits for its peers belongs to the mode that follows (DEDUCED, log entry 49). -/
def State.closeCommands (s : State) (v : Bool) (core : Nat) : State :=
  let s := [0, 3, 4, 5].foldl (fun s e => s.settleEngine core e 64) s
  s.modEng core 1 fun c => { c with out := c.out.map fun k => { k with step := v } }

/-- A MODE write (R31): the superstep it ends, then MODE and STEPNO; the checkpoints follow when the write has taken effect. The merge performs
writes at their homes, which is a progress event (R355). -/
def State.setMode (s : State) (v : Bool) : Except Stop State :=
  let p := s.myPart
  if !s.modeFree p then trapPrivilege s
  else
    let old := (s.part p).mode
    let put := fun (s : State) => s.modPart p fun q => { q with mode := v, stepno := 0 }
    if !old then .ok (put s)
    else
      let s := (s.part p).cores.foldl (fun s n => s.closeCommands v n) s
      match s.mergeFailure p with
      | some (c, a) => .error (.wait ((s.releaseReserved p).takeTrap { cause := c, tval := word a }))
      | none =>
        let s := (put (s.mergeAll p)).progress (s.part p).supervisor
        .ok (if v then s else (s.part p).cores.foldl (fun s n => s.clearLog n) s)

/-! ## Rollback (R396 to R399) -/

/-- An undo-log entry restored (R181, R396). -/
def State.undoOne (s : State) (core : Nat) (u : Undo) : State :=
  match u with
  | .scratch line old => { s with mem := s.mem.setBytes (line * 128) (natToBytes 128 old.toNat) }
  | .take line n =>
    { s with lines := s.lines.map fun l => if l.1 = line then (l.1, { l.2 with count := max l.2.count n, emptied := none }) else l }
  | .vreg n old => s.modCtx ⟨core, 0⟩ fun c => { c with v := smSet c.v n old }
  | .tile n old => s.modCtx ⟨core, 0⟩ fun c => { c with t := smSet c.t n old }
  | .slot n d r v o st =>
    s.modCluster (clusterOf core) fun c => { c with slots := smSet c.slots n ⟨d, r, v, o, st⟩ }

/-- The control context restored from its checkpoint (R398): it goes on at the checkpoint's PC, or waits for the answer that it
waited for there. -/
def Ctx.restore (c : Ctx) (k : Checkpoint) : Ctx :=
  { c with
    life := .live
    wait := (match c.wait with | .catchAns a b d e => .catchAns a b d e | _ => .none)
    x := k.x
    f := k.f
    p := k.p
    pc := k.pc
    fpctl := k.fpctl
    vstat := k.vstat
    vrep := k.vrep
    rcstat := k.rcstat
    scratch := k.scratch
    qscale := k.qscale
    tnote := k.tnote
    vback := k.vback
    vregFault := none
    entering := none }

/-- One core rolled back (R398). -/
def State.rollbackCore (s : State) (n : Nat) : State :=
  let s := s.modCore n fun c => { c with queue := [] }
  let s := (helperNumbers.filter fun h => (s.ctx ⟨n, h⟩).life != .free).foldl (fun s h => s.makeFree ⟨n, h⟩) s
  let s := (s.core n).undo.reverse.foldl (fun s u => s.undoOne n u) s
  let s := match (s.core n).checkpoint with
    | some k => s.modCtx ⟨n, 0⟩ fun c => c.restore k
    | none => s.modCtx ⟨n, 0⟩ Ctx.resume
  s.modCore n Core.newStep

/-- The arrivals of a partition's control contexts at barriers withdrawn, which a rollback undoes. -/
def Partition.withdraw (q : Partition) : Partition :=
  { q with groups := q.groups.map fun g => (g.1, { g.2 with bars := [] }) }

/-- STEPCTL after a rollback: NROLL counts it, and the superstep that begins again is repeatable (R378, R398; DEDUCED, log entry 111). -/
def rolledStepctl (v : Word) : Word := putBits (putBits v 8 2 (bits v 8 2 + 1)) 16 1 0

/-- A rollback (R398). The arrivals at barriers are withdrawn before the helpers become FREE, so that no departure completes an episode. -/
def State.rollBack (s : State) (p : Nat) : State :=
  let s := s.stopFor p 5
  let cores := (s.part p).cores
  let s := cores.foldl (fun s n => ([0, 3, 4, 5].foldl (fun s e => s.settleEngine n e 64) s).endColls n) s
  let s := s.modPart p Partition.withdraw
  let s := cores.foldl (fun s n => s.rollbackCore n) s
  let s : State := { s with accs := s.accs.filter fun a => !(a.2.reserved && a.2.part == p) }
  s.modPart p fun q => { q with stepctl := rolledStepctl q.stepctl, stopped := none }

/-- A rollback requested or caused by an error; the third of a superstep escalates (R397 to R399). -/
def execRollback (part : Nat) (s : State) : Host.Outcome State Fault Refusal :=
  let q := s.part part
  .next (if q.live && q.mode && q.stopped.isNone && q.ringing.isNone then
    (if 2 ≤ bits q.stepctl 8 2 then s.ring part 3 else s.rollBack part)
  else s)

end Sys2Proof.Machine
end

