-- ==== Sys2Proof/Machine/Gang.lean ====
section
/-! DEFINITION. The gang switch, partition images and their resume, and the commands of the management function (R98, R153, R244,
R247, R252, R283, R285, R288, R358, R372, R391 to R395, R410). -/

namespace Sys2Proof.Machine

open Sys2Proof

/-! ## Positions (R98, R167, R283) -/

/-- A core of one rectangle at its relative position in another. -/
def moveCore (old new : Partition) (n : Nat) : Nat := new.cores.getD (old.cores.idxOf n) n

/-- A context at its relative position in another rectangle. -/
def moveCtx (old new : Partition) (i : CtxId) : CtxId := ⟨moveCore old new i.core, i.ctx⟩

/-- A home at its relative position in another rectangle; one at an absolute PINSLICE target stays (R167, R394). -/
def movePlace (old new : Partition) (h : Place) : Place := if h.abs then h else { h with slice := moveCore old new h.slice }

/-- A line of local SRAM at its relative position in another rectangle; any other line stays. -/
def moveLine (old new : Partition) (line : Nat) : Nat :=
  match regionOf (line * 128) with
  | .sram n => line - n * 4096 + moveCore old new n * 4096
  | _ => line

/-- The dies of a partition, lowest first. -/
def Partition.dies (q : Partition) : List Nat := (List.range 4).filter fun d => q.clusters.any fun c => dieOf c == d

/-- A text context's number at its relative die: die by position, then the context's index on it. -/
def textIndex (q : Partition) (k : Nat) : Nat := 8 * q.dies.idxOf (k / 8) + k % 8

/-- A text context's number on the device from its index in an image, where the rectangle has the die. -/
def textNumber (q : Partition) (k : Nat) : Option Nat := (q.dies[k / 8]?).map fun d => 8 * d + k % 8

/-! ## The switch out (R392 to R394) -/

/-- The resident vector registers of a context with a backing area spilled (R98). -/
def State.spillCtx (s : State) (i : CtxId) : State :=
  let c := s.ctx i
  if bits c.vback 14 41 = 0 then s
  else (c.v.filter fun e => e.2.isResident).foldl (fun s e => s.spillOne i e.1) s

/-- The resident vector registers of a partition's contexts spilled (R98). -/
def State.spillAll (s : State) (p : Nat) : State :=
  (s.part p).cores.foldl (fun s n => (smKeys (s.core n).ctxs).foldl (fun s k => s.spillCtx ⟨n, k⟩) s) s

/-- An apprentice slot at a gang switch: invalidated, its weights, bounds and ring lost (R372). -/
def ApxSlot.switchOut (a : ApxSlot) : ApxSlot :=
  { a.invalidate 3 with weights := none, lo := [], hi := [], ring := [], opens := [] }

/-- A cluster as an image saves it: the switch parks no slot, and saves each as it stands (R98, R153, R394). -/
def Cluster.saved (c : Cluster) : Cluster := { slots := c.slots, apx := c.apx.map fun a => (a.1, a.2.switchOut) }

/-- A cluster that its partition has left: RNSCFG and RNSSTAT belong to the cluster (R395). -/
def Cluster.left (c : Cluster) : Cluster := { rnscfg := c.rnscfg, rnsstat := c.rnsstat }

/-- The work of a switch before the image is saved (R244, R252, R393): engine commands, then the descriptors that they may have changed, cache
portions, resident registers, and the lines of the partition's own slices. -/
def State.settleForSwitch (s : State) (p : Nat) : State :=
  let cores := (s.part p).cores
  let s := cores.foldl (fun s n => ([0, 2, 3, 4, 5].foldl (fun s e => s.settleEngine n e 64) s).endColls n) s
  let s := (smKeys (s.part p).queues).foldl (fun s q => s.writeBack p q) s
  let s := (cores.foldl (fun s n => s.emptyCache n) s).spillAll p
  (s.ownLines p).foldl State.dropL2 s

/-- The scratch of a core, with its addresses relative to the first core of the image. -/
def State.scratchOf (s : State) (n index : Nat) : Memory :=
  let base := sramBase + n * 0x80000
  (s.mem.filter fun c => base ≤ c.1 && c.1 < base + 0x80000).map fun c => (c.1 - base + index * 0x80000, c.2)

/-- Whether a counted line or accumulator of partition `p` goes with its image: those with absolute PINSLICE homes stay (R394). -/
def goesAlong (p part : Nat) (h : Place) : Bool := part == p && !h.abs

/-- The counted lines that go with a partition's image. -/
def State.linesAlong (s : State) (p : Nat) : SMap CLine := s.lines.filter fun l => goesAlong p l.2.part l.2.place

/-- The accumulators that go with a partition's image. -/
def State.accsAlong (s : State) (p : Nat) : SMap WideAcc := s.accs.filter fun a => goesAlong p a.2.part a.2.place

/-- The image of a stopped partition (R394). A request to another device that has no answer yet is asked again after the resume (R360). -/
def State.image (s : State) (p : Nat) : Image :=
  let q := s.part p
  let cores := q.cores
  { part := q
    partid := p
    cores := (cores.zipIdx).map fun e => (e.2, (s.core e.1).mapCtxs fun c => { c with remote := none })
    clusters := (q.clusters.zipIdx).map fun e => (e.2, (s.cluster e.1).saved)
    lines := s.linesAlong p
    accs := s.accsAlong p
    closed := s.closed.filter fun l => smHas (s.linesAlong p) l
    captured := s.paired.filter fun r => r.2.part == p
    scratch := (cores.zipIdx).flatMap fun e => s.scratchOf e.1 e.2
    texts := (s.texts.filter fun t => t.2.bound == some p).map fun t => (textIndex q t.1, t.2)
    time := word q.stopTime
    standing := (match q.stopped with | some c => if c ≤ 4 then some c else none | none => none) }

/-- The state without a partition's cores, lines, scratch, text contexts and captured requests, its clusters free (R393). A vacated core's CYCLE
holds (R353); its other registers are at their reset values (DESIGN CHOICE, log entry 110). -/
def State.vacate (s : State) (p : Nat) : State :=
  let own := (s.part p).cores
  let s := (s.linesAlong p).foldl (fun s l => s.keepLine l.1) s
  let s := (s.accsAlong p).foldl (fun s a => s.keepAcc a.1) s
  let s := s.zeroScratch p
  let s := s.mapClusters p Cluster.left
  { s with
    cores := s.cores.map fun c => if own.contains c.1 then (c.1, { cycle := c.2.cycle }) else c
    lines := s.lines.filter fun l => !goesAlong p l.2.part l.2.place
    accs := s.accs.filter fun a => !goesAlong p a.2.part a.2.place
    closed := s.closed.filter fun l => !smHas (s.linesAlong p) l
    texts := s.texts.map fun t => if t.2.bound = some p then (t.1, {}) else t
    paired := s.paired.filter fun r => r.2.part != p
    parts := smErase s.parts p }

/-- A gang switch after its stop (R393): the image goes to its area. -/
def execGangSwitch (part : Nat) (s : State) : Host.Outcome State Fault Refusal :=
  .next (match (s.part part).switchTo with
    | none => s
    | some area =>
      if (s.part part).live && (s.part part).stopped.isSome then
        let s := s.settleForSwitch part
        let im := s.image part
        let t := s.vacate part
        { t with images := smSet t.images area im }
      else s)

/-- The start of a gang switch (R389, R392): ARM is cleared and the bell rings with cause 6; from a standing stop the switch
proceeds at once. -/
def State.startSwitch (s : State) (p area : Nat) : State :=
  (s.modPart p fun q => { q with preempt := putBits q.preempt 63 1 0, switchTo := some area }).ring p 6

/-- An image area that holds no image. -/
def State.freeArea (s : State) : Nat := s.images.foldl (fun n i => max n (i.1 + 1)) 0

/-- Whether PREEMPT starts a switch now (R392). -/
def State.preemptDue (s : State) (p : Nat) : Bool :=
  let q := s.part p
  q.live && q.switchTo.isNone && q.preempt.getLsbD 63 && bits q.preempt 0 62 ≤ s.time

/-- The switch that PREEMPT has armed starts (R392). -/
def execPreemptExpiry (part : Nat) (s : State) : Host.Outcome State Fault Refusal :=
  .next (if s.preemptDue part then s.startSwitch part s.freeArea else s)

/-! ## The resume (R395) -/

/-- A group with its contexts moved. -/
def Group.move (old new : Partition) (g : Group) : Group :=
  { members := g.members.map (moveCtx old new)
    bars := g.bars.map fun e =>
      (e.1, { e.2 with expected := e.2.expected.map (moveCtx old new), arrived := e.2.arrived.map (moveCtx old new) }) }

/-- A queue with the cores of its re-execution list moved (R244). -/
def Queue.move (old new : Partition) (x : Queue) : Queue :=
  { x with reexec := x.reexec.map fun e => { e with core := moveCore old new e.core } }

/-- A core of an image in its new place: homes and positions are moved; contexts that a switch's own stop held are LIVE again. -/
def Core.move (old new : Partition) (stands : Bool) (c : Core) : Core :=
  let c := if stands then c else c.mapCtxs Ctx.resume
  { c with
    writeSet := c.writeSet.map fun d => if d.held then { d with place := movePlace old new d.place } else d
    undo := c.undo.map fun u => match u with | .scratch l v => .scratch (moveLine old new l) v | u => u
    slices := c.slices.map fun g => (g.1, { g.2 with pairCore := g.2.pairCore.map (moveCore old new) }) }

/-- The partition of an image in a new rectangle. -/
def Image.placed (im : Image) (col row : Nat) : Partition := { im.part with col := col, row := row }

/-- Whether the text contexts that an image binds are free on the corresponding dies (R410). -/
def State.textsFree (s : State) (im : Image) (col row : Nat) : Bool :=
  let q := im.placed col row
  im.texts.all fun t => match textNumber q t.1 with
    | some k => (smGet s.texts k {}).bound.isNone
    | none => false

/-- Whether an image can be resumed at a place (R395, R410). -/
def State.mayResume (s : State) (im : Image) (col row : Nat) : Bool :=
  rectInMesh col row im.part.width im.part.height && s.rectFree col row im.part.width im.part.height && s.textsFree im col row

/-- A captured request with its contexts moved (R247). -/
def PairedReq.move (old new : Partition) (r : PairedReq) : PairedReq :=
  { r with first := moveCtx old new r.first, second := r.second.map (moveCtx old new) }

/-- Captured requests injected again at the routers of the new rectangle (R247). -/
def State.injectPaired (s : State) (l : SMap PairedReq) (old new : Partition) : State :=
  { s with paired := l.foldl (fun m r => smSet m r.1 (r.2.move old new)) s.paired }

/-- An image restored at relative positions (R395). -/
def State.restoreImage (s : State) (im : Image) (col row : Nat) : State :=
  let old := im.part
  let new := im.placed col row
  let p := im.partid
  let stands := im.standing.isSome
  let s := s.modPart p fun _ =>
    { new with
      stopped := im.standing
      switchTo := none
      groups := old.groups.map fun g => (g.1, g.2.move old new)
      accSnap := old.accSnap.map fun a => (a.1, a.2.map fun w => { w with place := movePlace old new w.place })
      queues := old.queues.map fun x => (x.1, x.2.move old new) }
  let s := (new.cores.zipIdx).foldl (fun s e => s.modCore e.1 fun _ => (smGet im.cores e.2 {}).move old new stands) s
  let s := (new.clusters.zipIdx).foldl (fun s e => s.modCluster e.1 fun c =>
    let k := smGet im.clusters e.2 {}
    { c with slots := k.slots, apx := k.apx }) s
  let s := im.lines.foldl (fun s l => s.keepLine l.1) s
  let s := im.accs.foldl (fun s a => s.keepAcc a.1) s
  let s : State := { s with
    lines := im.lines.foldl (fun m l => smSet m l.1 { l.2 with place := movePlace old new l.2.place }) s.lines
    accs := im.accs.foldl (fun m a => smSet m a.1 { a.2 with place := movePlace old new a.2.place }) s.accs
    closed := s.closed ++ im.closed
    mem := im.scratch.foldl (fun m c => m.set (sramBase + new.cores.getD (c.1 / 0x80000) 0 * 0x80000 + c.1 % 0x80000) c.2) s.mem
    texts := im.texts.foldl (fun m t => match textNumber new t.1 with
      | some k => smSet m k { t.2 with follow := t.2.follow.map fun f => { f with core := moveCore old new f.core } }
      | none => m) s.texts
    comms := s.comms.map fun c => if c.2.owner = some p then (c.1, { c.2 with core := moveCore old new c.2.core }) else c }
  s.injectPaired im.captured old new

/-- A resume (R395): PREEMPTED becomes pending for the supervisor core, and what was decided meanwhile reaches those that wait. -/
def State.resumeImage (s : State) (area : Nat) (im : Image) (col row : Nat) : State :=
  let s := s.restoreImage im col row
  let s := s.raiseSup im.partid .preempted im.time none
  let s := (smKeys s.comms).foldl (fun s c => s.answerCwaits c) s
  let s : State := { s with images := smErase s.images area }
  if im.part.fnReset then s.resetPartition im.partid else s

/-! ## The management function (R410) -/

/-- The end of a management command: GO is cleared, RESULT and vector 0. A refusal's RESULT is any nonzero value (R410). -/
def State.endMgmt (s : State) (ok : Bool) : State :=
  if ok then { s with mbGo := false, mbResult := 0, mbVector := true }
  else { s.drawn with mbGo := false, mbResult := 1 + Config.freeChoice s.freeIdx % 255, mbVector := true }

/-- A command written to the command area and started by GO (R410): carried out if a condition holds, and refused otherwise. The area's layout is
not given, and a command ends in the event that starts it (DESIGN CHOICE, log entry 112). -/
def State.mgmt (s : State) (code : Nat) (c : Bool) (f : State → State) : Host.Outcome State Fault Refusal :=
  let s : State := { s with mbCommand := code, mbGo := true, mbVector := false }
  .next (if c then (f s).endMgmt true else s.endMgmt false)

/-- CREATE (R285, R410). -/
def execCreate (x : CreateArgs) (s : State) : Host.Outcome State Fault Refusal :=
  s.mgmt 1 (s.mayCreate x) fun s => s.createPartition x

/-- A partition's clusters freed after its reset (R410). -/
def State.freePartition (s : State) (p : Nat) : State :=
  let own := (s.part p).cores
  { s with cores := s.cores.filter fun c => !own.contains c.1, parts := smErase s.parts p }

/-- The area of a switched-out partition's image. -/
def State.areaOf (s : State) (p : Nat) : Option Nat := (s.images.find? fun i => i.2.partid == p).map (·.1)

/-- DESTROY (R410). A switched-out partition's image is discarded, its committees told as at a reset. -/
def execDestroy (part : Nat) (s : State) : Host.Outcome State Fault Refusal :=
  s.mgmt 2 ((s.part part).live || (s.areaOf part).isSome) fun s =>
    if (s.part part).live then (s.resetPartition part).freePartition part
    else
      let s := s.resetReaches part
      { s with images := s.images.filter fun i => i.2.partid != part, paired := s.paired.filter fun r => r.2.part != part }

/-- SWITCH (R392, R410). -/
def execSwitch (part area : Nat) (s : State) : Host.Outcome State Fault Refusal :=
  s.mgmt 3 ((s.part part).live && (s.part part).switchTo.isNone && !smHas s.images area) fun s => s.startSwitch part area

/-- RESUME (R395, R410). -/
def execResume (area col row : Nat) (s : State) : Host.Outcome State Fault Refusal :=
  match s.images.find? (fun i => i.1 == area) with
  | none => s.mgmt 4 false id
  | some (_, im) => s.mgmt 4 (s.mayResume im col row) fun s => s.resumeImage area im col row

/-- BELL (R389, R410). -/
def execBell (part : Nat) (s : State) : Host.Outcome State Fault Refusal :=
  s.mgmt 5 (s.part part).live fun s => s.ring part 4

/-- CONTINUE (R391, R410). -/
def execContinue (part : Nat) (s : State) : Host.Outcome State Fault Refusal :=
  let q := s.part part
  s.mgmt 6 (q.live && (match q.stopped with | some c => 1 ≤ c && c ≤ 4 | none => false)) fun s => s.continuePart part

/-- GROUPS (R358, R410). -/
def execGroups (table : List Nat) (s : State) : Host.Outcome State Fault Refusal :=
  s.mgmt 7 (table.length == 64 && table.all fun g => g < 64) fun s => { s with switchGroup := table }

end Sys2Proof.Machine
end

