-- ==== Sys2Proof/Machine/HostIf.lean ====
section
/-! DEFINITION. Accesses of the host and of remote devices, and the host queue pairs of the virtual functions (R223, R248, R405 to R409,
R437). -/

namespace Sys2Proof.Machine

open Sys2Proof

/-! ## Accesses from outside (R223, R405, R437) -/

/-- The byte that a party finds at an address through a NOCACHE home. The outcome is undefined for a line that stands in a slice, whose page
a partition maps with another home, and for a line that cannot be read (R6, R168, R387, R437). -/
def State.nocacheByte (s : State) (pa k : Nat) : Byte :=
  if s.strayLine (pa / 128) || s.unreadable (pa / 128) then Config.freeByte (s.freeIdx + k) else s.mem.get pa

/-- The bytes of an access from outside as it finds them at its homes. -/
def State.outsideRead (s : State) (x : ExtAccess) : List Byte := (List.range x.width).map fun i => s.nocacheByte (x.pa + i) i

/-- The new value that an atomic gives its location (R191, R193). -/
def ExtAtomic.apply (x : ExtAtomic) (old : Nat) : Nat :=
  let n := 8 * T8.bytes x.ty
  let rd := readInt (T8.isSigned x.ty) n
  let u := rd old
  let v := rd x.b.toNat
  match x.fn with
  | .swap => wrapInt n v
  | .add => wrapInt n (u + v)
  | .and => wrapInt n (bitwiseInt (fun x y => x &&& y) u v)
  | .or => wrapInt n (bitwiseInt (fun x y => x ||| y) u v)
  | .xor => wrapInt n (bitwiseInt (fun x y => x ^^^ y) u v)
  | .min => wrapInt n (min u v)
  | .max => wrapInt n (max u v)
  | .cas => wrapInt n (if u = rd x.e.toNat then v else u)
  | .nib => nibble old (bits x.b 4 1 * 4) (bits x.b 0 4)

/-- The width in bytes of an atomic. -/
def ExtAtomic.bytes (x : ExtAtomic) : Nat := if x.fn = .nib then 1 else T8.bytes x.ty

/-- An access from outside performed at its homes: the answer of a read, and the old value of an atomic, are kept in `hostRead`. -/
def State.outside (s : State) (x : ExtAccess) (a : Agent) : State :=
  let pas := (List.range x.width).map (x.pa + ·)
  let old := s.outsideRead x
  let put := fun (l : List Byte) => ((s.nocacheWrite (pas.zip l)).watch a .st pas)
  match x.atomic with
  | some y => { put (natToBytes x.width (ExtAtomic.apply y (bytesToNat old))) with hostRead := old }
  | none =>
    if x.write then put x.data
    else { (s.watch a .ld pas) with hostRead := old, freeIdx := s.freeIdx + x.width }

/-- Whether an access is one that the host makes: a read or a write (R405). -/
def ExtAccess.plain (x : ExtAccess) : Bool := x.atomic.isNone

/-- Whether an atomic has its type's width and alignment (R191); a read or a write is one of any bytes. -/
def ExtAccess.proper (x : ExtAccess) : Bool :=
  match x.atomic with
  | some y => x.width == ExtAtomic.bytes y && x.pa % ExtAtomic.bytes y == 0
  | none => true

/-- Whether the whole of an access lies below an address. -/
def accessBelow (x : ExtAccess) (top : Nat) : Bool := 1 ≤ x.width && x.pa + x.width ≤ top

/-- An access of the host over CXL.mem (R405): performed at its home as a NOCACHE access, which its heat counter counts (R182). -/
def execHostAccess (x : ExtAccess) (s : State) : Host.Outcome State Fault Refusal :=
  .next (if accessBelow x 0x7FF8000000 && ExtAccess.plain x then (s.outside x .host).heat x.pa else s)

/-- An access of a remote device into this device's HBM (R223): a read, a write, or an atomic, which its home performs in one event (R191). -/
def execRemoteAccess (dev : Nat) (x : ExtAccess) (s : State) : Host.Outcome State Fault Refusal :=
  .next (if accessBelow x 0x8000000000 && ExtAccess.proper x then (s.outside x (.remote dev)).heat x.pa else s)

/-! ## Queue pairs (R407) -/

/-- The state with a partition's function changed, present or switched out. -/
def State.modFunction (s : State) (p : Nat) (f : Partition → Partition) : State :=
  if (s.part p).live then s.modPart p f
  else { s with images := s.images.map fun i => if i.2.partid = p then (i.1, { i.2 with part := f i.2.part }) else i }

/-- The state with a queue pair of a partition's function changed. -/
def State.modPair (s : State) (p q : Nat) (f : HostPair → HostPair) : State :=
  s.modFunction p fun x => { x with pairs := smSet x.pairs q (f (smGet x.pairs q {})) }

/-- A queue pair. -/
def State.pair (s : State) (p q : Nat) : HostPair := smGet (s.part p).pairs q {}

/-- QCFG.EN. -/
def HostPair.en (h : HostPair) : Bool := h.qcfg.getLsbD 0
/-- QCFG.IEN. -/
def HostPair.ien (h : HostPair) : Bool := h.qcfg.getLsbD 3
/-- QCFG.SQLOG. -/
def HostPair.sqlog (h : HostPair) : Nat := bits h.qcfg 8 4
/-- QCFG.CQLOG. -/
def HostPair.cqlog (h : HostPair) : Nat := bits h.qcfg 16 4

/-- QCFG as it is stored: a field out of range leaves EN at 0 (R407). -/
def storedQcfg (v : Nat) : BitVec 32 :=
  let sq := v / 2 ^ 8 % 16
  let cq := v / 2 ^ 16 % 16
  let ok := 4 ≤ sq && sq ≤ 12 && 4 ≤ cq && cq ≤ 12
  BitVec.ofNat 32 ((if ok then v % 2 else 0) + v / 2 % 8 * 2 + sq * 2 ^ 8 + cq * 2 ^ 16)

/-- A register of a queue pair written by the host: SQB (0), CQB (1) or QCFG (2); the first two are ignored while EN is 1. -/
def HostPair.write (h : HostPair) (reg v : Nat) : HostPair :=
  match reg with
  | 0 => if h.en then h else { h with sqb := word v }
  | 1 => if h.en then h else { h with cqb := word v }
  | _ => { h with qcfg := storedQcfg v }

/-- A write of QCFG, SQB or CQB (R407). -/
def execQcfgWrite (part q reg v : Nat) (s : State) : Host.Outcome State Fault Refusal :=
  .next (s.modPair part q fun h => h.write reg v)

/-! ## Consumption (R248, R408, R409) -/

/-- The SEQ that follows another: modulo 2^32, skipping 0 (R248). -/
def nextSeq (v : BitVec 32) : BitVec 32 := if v = 0xFFFFFFFF then 1 else v + 1

/-- Bytes of a ring, in host memory or in HBM. -/
def State.ringBytes (s : State) (hbm : Bool) (a n : Nat) : List Byte :=
  if hbm then (List.range n).map fun i => s.nocacheByte (a + i) i else s.hostMem.bytes a n

/-- A submission entry of 64 bytes (R408): SEQ, OPC, A, B, and whether every reserved byte is zero. -/
def parseSub (l : List Byte) : BitVec 32 × Nat × Word × Word × Bool :=
  let n := fun (i k : Nat) => bytesToNat ((l.drop i).take k)
  (BitVec.ofNat 32 (n 0 4), n 4 1, word (n 8 8), word (n 16 8), n 5 3 == 0 && n 24 40 == 0)

/-- Whether the completion ring is full (R409). -/
def HostPair.full (h : HostPair) : Bool := 2 ^ h.cqlog ≤ (BitVec.ofNat 32 h.prodIdx - h.cqdb).toNat

/-- The submission that a queue pair's ring holds next. -/
def State.nextSub (s : State) (h : HostPair) : BitVec 32 × Nat × Word × Word × Bool :=
  parseSub (s.ringBytes (h.qcfg.getLsbD 1) (h.sqb.toNat + 64 * (h.consIdx % 2 ^ h.sqlog)) 64)

/-- Submissions consumed in ring order, at most `fuel` of them: a wrong SEQ stops consumption with one SEQUENCE answer. -/
def State.consume (s : State) (h : HostPair) : Nat → HostPair
  | 0 => h
  | fuel + 1 =>
    if !h.en || h.wrong || h.full || h.consIdx % 2 ^ 32 == h.sqdb.toNat then h
    else
      let e := s.nextSub h
      if e.1 = nextSeq h.lastcons then
        let bad := 3 < e.2.1 || !e.2.2.2.2
        let sub : HostSub := ⟨e.1, e.2.1, e.2.2.1, e.2.2.2.1, if bad then some (2, e.2.1) else none⟩
        State.consume s { h with lastcons := e.1, consIdx := h.consIdx + 1, subs := h.subs ++ [sub] } fuel
      else { h with wrong := true, subs := h.subs ++ [⟨e.1, e.2.1, 0, 0, some (1, e.1.toNat)⟩] }

/-- The hub consumes what it may of a queue pair. -/
def State.consumePair (s : State) (p q : Nat) : State := s.modPair p q fun h => s.consume h 4096

/-- A doorbell write of submissions (R407, R409). -/
def execSqdbWrite (part q v : Nat) (s : State) : Host.Outcome State Fault Refusal :=
  let s := s.modPair part q fun h => { h with sqdb := BitVec.ofNat 32 v, wrong := false }
  .next (s.consumePair part q)

/-- The host's report of completions processed, after which consumption that waited for room goes on (R407, R409). -/
def execCqdbWrite (part q v : Nat) (s : State) : Host.Outcome State Fault Refusal :=
  let s := s.modPair part q fun h => { h with cqdb := BitVec.ofNat 32 v }
  .next (s.consumePair part q)

/-! ## Commands and completions (R408, R409) -/

/-- The oldest consumed submission of a queue pair that has no answer yet. -/
def HostPair.current (h : HostPair) : Option HostSub := h.subs.find? fun x => x.answer.isNone

/-- The first submission without an answer given one. -/
def answerFirst (v : Nat × Nat) : List HostSub → List HostSub
  | [] => []
  | x :: rest => if x.answer.isNone then { x with answer := some v } :: rest else x :: answerFirst v rest

/-- The STATUS and DETAIL of a command's end (R408). -/
def CmdEnd.status (r : CmdEnd) : Nat × Nat :=
  match r.2 with
  | none => (0, 0)
  | some f => (3, f.code)

/-- A submission of one OPC carried out, in order of consumption. -/
def State.runSub (s : State) (p q opc : Nat) (f : HostSub → CmdEnd) : Host.Outcome State Fault Refusal :=
  .next (match (s.pair p q).current with
    | none => s
    | some x =>
      if x.opc = opc && (s.part p).live then
        let r := f x
        r.1.modPair p q fun h => { h with subs := answerFirst r.status h.subs }
      else s)

/-- NOP (R408). -/
def execNop (part q : Nat) (s : State) : Host.Outcome State Fault Refusal := s.runSub part q 0 fun _ => (s, none)
/-- LAUNCH (R408). -/
def execLaunch (part q : Nat) (s : State) : Host.Outcome State Fault Refusal :=
  s.runSub part q 1 fun x => s.publish part (s.ctlReq part) x.a.toNat (x.b.toNat % 32) true
/-- PUBLISH (R408). -/
def execPublish (part q : Nat) (s : State) : Host.Outcome State Fault Refusal :=
  s.runSub part q 2 fun x => s.publish part (s.ctlReq part) x.a.toNat (x.b.toNat % 32) false
/-- SIGNAL (R408). -/
def execSignal (part q : Nat) (s : State) : Host.Outcome State Fault Refusal :=
  s.runSub part q 3 fun x => s.signal part x.a.toNat

/-- A completion entry of 16 bytes (R408). -/
def completionBytes (seq answered : BitVec 32) (v : Nat × Nat) : List Byte :=
  natToBytes 4 seq.toNat ++ natToBytes 4 answered.toNat ++ natToBytes 2 v.1 ++ [0, 0] ++ natToBytes 4 v.2

/-- Bytes written to a ring, in host memory or in HBM. -/
def State.writeRing (s : State) (hbm : Bool) (a : Nat) (l : List Byte) : State :=
  if hbm then s.nocacheWrite (((List.range l.length).map (a + ·)).zip l) else { s with hostMem := s.hostMem.setBytes a l }

/-- A completion written in order of consumption, which is a progress event (R248, R355, R409); with IEN it raises its vector
(R406). -/
def execHostCompletionWrite (part q : Nat) (s : State) : Host.Outcome State Fault Refusal :=
  let h := s.pair part q
  .next (match h.subs with
    | [] => s
    | x :: rest =>
      match x.answer with
      | none => s
      | some v =>
        if !(s.part part).live || !h.en || h.full then s
        else
          let seq := nextSeq h.lastprod
          let s := s.writeRing (h.qcfg.getLsbD 2) (h.cqb.toNat + 16 * (h.prodIdx % 2 ^ h.cqlog)) (completionBytes seq x.seq v)
          let s := s.modPair part q fun h => { h with lastprod := seq, prodIdx := h.prodIdx + 1, subs := rest }
          let s := if h.ien then s.modPart part fun p => { p with msix := p.msix ++ [q] } else s
          s.progress (s.part part).supervisor)

end Sys2Proof.Machine
end

