-- ==== Sys2Proof/Machine/Events.lean ====
section
/-! DEFINITION. The remaining events of the device: causes taken, budgets, the watchdog and time-outs, heat and retirement, errors of
cores, FREEZE, power and bring-up (R182, R184, R238, R260, R356 to R362, R384, R387, R403, R412 to R417). -/

namespace Sys2Proof.Machine

open Sys2Proof

/-! ## Causes (R20, R384) -/

/-- A control context takes a pending cause or a helper's trap at its boundary (R384). -/
def execAsyncTrapEntry (core ctx : Nat) (s : State) : Host.Outcome State Fault Refusal :=
  .next (if s.running core && s.causeDue ⟨core, ctx⟩ then s.takeAsync ⟨core, ctx⟩ else s)

/-- A helper takes a cause at its boundary and becomes HELD (R20). -/
def execHelperCauseTaken (core ctx : Nat) (s : State) : Host.Outcome State Fault Refusal :=
  .next (if s.running core && ctx != 0 && s.causeDue ⟨core, ctx⟩ then s.takeAsync ⟨core, ctx⟩ else s)

/-! ## Budgets (R238) -/

/-- Whether a group's count has reached zero and is still to be reported. -/
def SliceGroup.spent (g : SliceGroup) : Bool := g.budgetOn && g.budget == 0 && !g.expired

/-- The lowest-numbered LIVE context of a group. -/
def State.lowestLive (s : State) (core : Nat) (g : SliceGroup) : Option Nat :=
  helperNumbers.find? fun h => g.members.contains h && (s.ctx ⟨core, h⟩).life == .live

/-- A group's budget count reaches zero (R238). -/
def execBudgetExpiry (core g : Nat) (s : State) : Host.Outcome State Fault Refusal :=
  .next (match (s.core core).slices.find? (fun e => e.1 == g) with
    | none => s
    | some (_, x) =>
      if x.spent then
        let s := s.modCore core fun c => { c with slices := smSet c.slices g { x with expired := true } }
        match s.lowestLive core x with
        | some h => s.raise ⟨core, h⟩ .budget (s.ctx ⟨core, h⟩).slice none
        | none => s
      else s)

/-! ## The watchdog (R356) -/

/-- Whether a partition's watchdog has run out. -/
def Partition.hangs (q : Partition) : Bool := q.wdogArmed && q.wdogInterval != 0 && q.wdogRemain == 0

/-- The watchdog runs out: HANG, once (R356). -/
def execWatchdogExpiry (part : Nat) (s : State) : Host.Outcome State Fault Refusal :=
  .next (let q := s.part part
    if q.live && q.hangs then
      (s.modPart part fun q => { q with wdogArmed := false }).raiseSup part .hang q.lastProgress none
    else s)

/-! ## Time-outs (R357 to R360) -/

/-- A time-out register's time, or its default (R357). -/
def timeOr (r : Word) (d : Nat) : Nat := if bits r 0 32 = 0 then d else bits r 0 32

/-- The effective TOLINK (R357). -/
def Partition.effLink (q : Partition) : Nat := timeOr q.tolink 2000
/-- The effective TOGROUP (R357). -/
def Partition.effGroup (q : Partition) : Nat := max (timeOr q.togroup 20000) (2 * q.effLink)
/-- The effective TOPEER (R357). -/
def Partition.effPeer (q : Partition) : Nat := max (timeOr q.topeer 200000) (2 * q.effGroup)

/-- The outstanding requests of a partition to other devices, with their contexts (R351). -/
def State.outstanding (s : State) (p : Nat) : List (CtxId × RemoteReq) :=
  (s.part p).cores.flatMap fun n => ctxNumbers.filterMap fun k => (s.ctx ⟨n, k⟩).remote.map fun r => (⟨n, k⟩, r)

/-- Whether a request has gone without its link's acknowledgement for a time (R358). -/
def RemoteReq.silent (r : RemoteReq) (link time now : Nat) : Bool := r.link == link && !r.acked && decide (r.sent + time ≤ now)

/-- Whether a link is due to go down for a partition, `late` units after the time-out (R358, R359). -/
def State.linkDue (s : State) (p link late : Nat) : Bool :=
  (s.outstanding p).any fun e => e.2.silent link ((s.part p).effLink + late) s.time

/-- The devices of a switch group (R358). -/
def State.groupDevices (s : State) (g : Nat) : List Nat :=
  (List.range 64).filter fun d => d != Config.deviceNumber % 64 && s.switchGroup.getD d 0 == g

/-- The least number of a list. -/
def leastOf : List Nat → Option Nat
  | [] => none
  | x :: rest => match leastOf rest with | some y => some (min x y) | none => some x

/-- Whether a partition has requests outstanding to a switch group from which no answer has come in time (R358). -/
def State.groupDue (s : State) (p g : Nat) : Bool :=
  let devs := s.groupDevices g
  match leastOf ((s.outstanding p).filterMap fun e => if devs.contains e.2.dev then some e.2.first else none) with
  | none => false
  | some t => decide ((devs.foldl (fun t d => max t (smGet (s.part p).heard d 0)) t) + (s.part p).effGroup ≤ s.time)

/-- Whether a device is due to go down for a partition, `late` units after the time-out (R358, R359). -/
def State.peerDue (s : State) (p dev late : Nat) : Bool :=
  (s.outstanding p).any fun e => e.2.dev == dev && decide (e.2.first + (s.part p).effPeer + late ≤ s.time)

/-- HEALTH.LINKDN with a link's bit set or cleared (R358, R361). -/
def State.linkBit (s : State) (link : Nat) (down : Bool) : State := { s with health := putBits s.health (48 + link) 1 down.toNat }

/-- The outstanding collectives of a partition's cores that a condition on their participants selects, aborted (R260). -/
def State.abortWhere (s : State) (p : Nat) (f : EngCmd → Bool) : State :=
  (s.part p).cores.foldl (fun s n => (s.eng n 1).out.foldl (fun s k =>
    if k.phase = CmdPhase.waiting && f k then afterEvent s (execCollectiveAbort n k.ticket s) else s) s) s

/-- A partition's request sent again over another link (R358). -/
def State.resend (s : State) (p link : Nat) (e : CtxId × RemoteReq) : State :=
  if e.2.silent link (s.part p).effLink s.time then
    let now := s.time
    let l := s.pickLink p
    s.drawn.modCtx e.1 fun c => { c with remote := some { e.2 with link := l, sent := now } }
  else s

/-- A link is down for a partition (R358): its unacknowledged requests are sent again; whether a collective has a participant behind that
link is free (R260). -/
def execLinkTimeout (part link : Nat) (s : State) : Host.Outcome State Fault Refusal :=
  .next (if (s.part part).live && s.linkDue part link 0 then
    let s := (s.linkBit link true).modPart part fun q => { q with linkDown := (q.linkDown ++ [link]).eraseDups }
    let s := (s.outstanding part).foldl (fun s e => s.resend part link e) s
    let hit := Config.freeBool s.freeIdx
    let s := s.drawn.abortWhere part fun k => hit && k.parts.any fun e => e.1 != Config.deviceNumber % 64
    s.raiseSup part .linkDown (word link) none
  else s)

/-- Devices down for a partition (R360): the outstanding requests to them end, so that their instructions run again and trap, and the
collectives that name them end ABORTED (R260). -/
def State.peersDown (s : State) (p : Nat) (devs : List Nat) : State :=
  let s := (s.outstanding p).foldl (fun s e =>
    if devs.contains e.2.dev then s.modCtx e.1 fun c => { c with remote := none } else s) s
  let s := s.modPart p fun q => { q with peerDown := (q.peerDown ++ devs).eraseDups }
  s.abortWhere p fun k => k.parts.any fun e => devs.contains e.1

/-- A whole switch group is down for a partition (R358). -/
def execGroupTimeout (part g : Nat) (s : State) : Host.Outcome State Fault Refusal :=
  .next (if (s.part part).live && s.groupDue part g then
    (s.peersDown part (s.groupDevices g)).raiseSup part .peerDown (word (2 ^ 63 + g % 64)) none
  else s)

/-- A device is down for a partition, unless a group event has covered it (R358). -/
def execPeerTimeout (part dev : Nat) (s : State) : Host.Outcome State Fault Refusal :=
  .next (if (s.part part).live && s.peerDue part dev 0 && !(s.part part).peerDown.contains dev then
    (s.peersDown part [dev]).raiseSup part .peerDown (word dev) none
  else s)

/-- A link retrains (R361). -/
def execLinkRetrain (link : Nat) (s : State) : Host.Outcome State Fault Refusal :=
  .next (let s := s.linkBit link false
    { s with parts := s.parts.map fun q => (q.1, { q.2 with linkDown := q.2.linkDown.filter (· != link) }) })

/-! ## Heat and retirement (R182, R184) -/

/-- A heat counter that is due is incremented at its home, saturating at 255 (R182). -/
def execHeatCounterIncrement (page : Nat) (s : State) : Host.Outcome State Fault Refusal :=
  .next (if s.heatDue.contains page then
    let a := heatAddr (page * 65536)
    let v := (s.homeByte a).toNat
    { s.writeRaw a (BitVec.ofNat 8 (if v = 255 then 255 else v + 1)) with heatDue := s.heatDue.erase page }
  else s)

/-- The address of a page's byte in the retired-page map, where its bit is `page % 8` (R165). -/
def retiredByte (page : Nat) : Nat := 0x7FFC800000 + page / 8

/-- Whether a page is marked in the retired-page map. -/
def State.isRetired (s : State) (page : Nat) : Bool := (s.mem.get (retiredByte page)).getLsbD (page % 8)

/-- The state with a page's bit set in the retired-page map. -/
def State.markRetired (s : State) (page : Nat) : State :=
  s.writeRaw (retiredByte page) (s.mem.get (retiredByte page) ||| BitVec.ofNat 8 (2 ^ (page % 8)))

/-- A page retired (R184): an entry of the record while it has room, the map's bit, and HEALTH (R362). -/
def State.retire (s : State) (page : Nat) (corrected : Bool) : State :=
  if s.isRetired page then s
  else
    let s := if s.retired.length < 65536 then { s with retired := s.retired ++ [⟨page, corrected, s.powerCycle⟩] } else s
    (s.markRetired page).updateHealth

/-- The retirement of an HBM page (R184). With `corrected` false an uncorrectable error has been read from one of its rows: whether the row
fails from now on is free, so that every page whose rows fail is retired. -/
def execHbmPageRetirement (page : Nat) (corrected : Bool) (s : State) : Host.Outcome State Fault Refusal :=
  .next (let t := s.retire page corrected
    if !corrected && Config.freeBool s.freeIdx then { t.drawn with dead := page :: t.dead.erase page } else t.drawn)

/-- A corrected error of a row of a page: the third in one power cycle retires the page (R184). -/
def execHbmCorrectedError (page row : Nat) (s : State) : Host.Outcome State Fault Refusal :=
  .next (let key := page * 65536 + row
    let n := smGet s.corrected key 0 + 1
    let s : State := { s with corrected := smSet s.corrected key n }
    if 3 ≤ n then s.retire page true else s)

/-! ## Errors of cores and expanders (R387, R412) -/

/-- The restartable slices of a core. -/
def State.restartables (s : State) (core : Nat) : List Nat := ((s.core core).slices.filter fun g => g.2.restartable).map (·.1)

/-- An accumulator slot after an uncorrectable error (R152): ERR is set and its data are undefined. -/
def Slot.failed (t : Slot) (k : Nat) : Slot :=
  { t with data := Config.freeSlot k, res := Config.freeResidues k, status := putBits t.status 10 1 1 }

/-- The state in which the matrix engine has met an uncorrectable error in a slot (R152). -/
def State.failSlot (s : State) (cl slot : Nat) : State :=
  s.drawn.modCluster cl fun c => { c with slots := smSet c.slots slot ((smGet c.slots slot {}).failed s.freeIdx) }

/-- The state in which a line's data are found uncorrectable when its slice evicts it or writes it back (R387). -/
def State.failLine (s : State) (line : Nat) : State :=
  if smHas s.l2 line then { s.dropL2 line with poison := line :: s.poison.erase line } else s

/-- An uncorrectable error in a core's own state: in the control context's registers (`k` = 0), in those of helper `k` (1 to 10), or elsewhere
in the core (11) (R239, R387, R397); in the fetch of the management processor's own handler (12), which the hub reports as a fatal device
error (R386, R411); in slot `k - 16` of the core's cluster; or, from 32 on, in L2 line `k - 32` (R152, R387). -/
def execUncorrectableCoreError (core k : Nat) (s : State) : Host.Outcome State Fault Refusal :=
  .next (if k = 12 then s.report ⟨3, none, 0, none⟩
  else if 32 ≤ k then s.failLine (k - 32)
  else if 16 ≤ k then s.failSlot (clusterOf core) (k - 16)
  else match s.partOf core with
    | none => s
    | some p =>
      if k = 0 then s.ring p 3
      else
        let hit := s.restartables core
        if 10 < k && !hit.isEmpty then hit.foldl (fun s g => s.pushMove (.event (.sliceReexecution core g))) s
        else
          let r := s.errorOverride ⟨core, if k ≤ 10 then k else 0⟩
          if r.2 then r.1 else r.1.coreError core)

/-- The link to an expander goes down (R412). -/
def execExpanderLinkDown (e : Nat) (s : State) : Host.Outcome State Fault Refusal :=
  .next { s with expanders := s.expanders.map fun x => if x.1 = e then (x.1, { x.2 with up := false }) else x }

/-! ## The Garfy port (R403, R414) -/

/-- FREEZE (R403): every clock stops, every LIVE context is STOPPED (R19), and memory keeps its contents. -/
def execFreeze (s : State) : Host.Outcome State Fault Refusal :=
  .next { s with frozen := true, cores := s.cores.map fun c => (c.1, c.2.mapCtxs Ctx.stop) }

/-- What the Garfy port shows of a frozen device besides its memories (R403). -/
def State.garfyView (s : State) : GarfyView :=
  { cores := s.cores, clusters := s.clusters, parts := s.parts, comms := s.comms, lines := s.lines, closed := s.closed, l2 := s.l2,
    accs := s.accs, captured := s.images.map fun i => i.2.captured }

/-- The readings of the Garfy port (R414), which are free. -/
def freeReadings (k : Nat) : GarfyReadings :=
  ⟨Config.freeWord k, [Config.freeWord (k + 1), Config.freeWord (k + 2), Config.freeWord (k + 3), Config.freeWord (k + 4)], Config.freeWord (k + 5)⟩

/-- The Garfy port used: its readings are taken (R414), and of a frozen device the registers, the arrays, and bytes of the memories are read
out (R403). -/
def execGarfyReadout (pa n : Nat) (s : State) : Host.Outcome State Fault Refusal :=
  let s := { s with readings := some (freeReadings s.freeIdx), freeIdx := s.freeIdx + 6 }
  .next (if s.frozen then { s with hostRead := s.mem.bytes pa n, garfy := some s.garfyView } else s)

/-- A new firmware image written to the flash die (R414). -/
def execFirmwareImageWrite (image : Nat) (s : State) : Host.Outcome State Fault Refusal := .next { s with flashImage := image }

/-! ## Power, cooling and bring-up (R415 to R417) -/

/-- A die above 105 °C (R416): every partition's bell rings with cause 4, and event 6 is reported. -/
def execThermalTrip (die : Nat) (s : State) : Host.Outcome State Fault Refusal :=
  .next (((s.parts.filter fun q => q.2.live && die < 4).foldl (fun s q => s.ring q.1 4) s).report ⟨6, none, 0, none⟩)

/-- The cells of the CXL tier, which the expanders hold. -/
def cxlCells (m : Memory) : Memory := m.filter fun c => cxlBase ≤ c.1 && c.1 < sramBase

/-- Memory without what stands in L2 slices only: data not yet written back (R163, R415). -/
def State.behindL2 (s : State) : Memory :=
  s.l2.foldl (fun m l => match l.2.back with
    | some v => m.setBytes (l.1 * 128) (natToBytes 128 v.toNat)
    | none => m) s.mem

/-- A state that keeps what lies outside the device, the flash die, and the model's own fields. -/
def State.kept (s : State) : State :=
  { State.reset with
    agenda := s.agenda
    freeIdx := s.freeIdx
    mem := cxlCells s.behindL2
    retired := s.retired
    powerCycle := s.powerCycle
    flashImage := s.flashImage
    hostMem := s.hostMem }

/-- Removal of board power (R415). -/
def execPowerLoss (s : State) : Host.Outcome State Fault Refusal := .next { s.kept with powered := false }

/-- The expanders found at bring-up (R412). -/
def foundExpanders : SMap Expander :=
  (List.range (min 4 Config.expanderCount)).map fun e => (e, ⟨min (Config.expanderPages e * 65536) 0x1000000000000, true⟩)

/-- The retired pages whose rows cannot be written at power-up, which is free (R184). -/
def State.unwritable (s : State) : List Nat :=
  (s.retired.zipIdx.filter fun r => Config.freeBool (s.freeIdx + r.2)).map fun r => r.1.page

/-- Bring-up at power-up (R417): HBM is zero but for the retired pages whose rows cannot be written (R184), the retired-page map and HEALTH
are rebuilt from the record, the links are up, and the expanders are enumerated. -/
def execBringUp (s : State) : Host.Outcome State Fault Refusal :=
  let t : State := { s.kept with
    powered := true
    powerCycle := s.powerCycle + 1
    firmware := s.flashImage
    dead := s.unwritable
    freeIdx := s.freeIdx + s.retired.length
    expanders := foundExpanders }
  .next ((s.retired.foldl (fun t r => t.markRetired r.page) t).updateHealth)

/-- Whether an address lies in the retired-page map (R165). -/
def inRetiredMap (a : Nat) : Bool := 0x7FFC800000 ≤ a && a < 0x7FFC900000

/-- A device reset (R403): every item at its device-reset value. What a power cycle fixes stands: the retired-page map, the row counts,
the enumerated expanders, and HEALTH's REPLACE and LINKDN (R184, R362, R412). -/
def execDeviceReset (s : State) : Host.Outcome State Fault Refusal :=
  .next (if s.powered then
    let t : State := { s.kept with
      mem := s.behindL2.filter fun c => inRetiredMap c.1 || (cxlBase ≤ c.1 && c.1 < sramBase)
      dead := s.dead
      corrected := s.corrected
      firmware := s.firmware
      expanders := s.expanders
      health := s.health }
    t.updateHealth
  else s)

end Sys2Proof.Machine
end

