-- ==== Sys2Proof/Machine/Paired.lean ====
section
/-! DEFINITION. Paired slices: the requests that the two copies send beyond their cores, held at the home until both have arrived,
compared, and performed once (R241, R242). -/

namespace Sys2Proof.Machine

open Sys2Proof

/-! ## Requests -/

/-- A request: the virtual addresses that it names, the first of them its address, and its kind and data (R242). -/
abbrev Request := List Nat × List Nat

/-- The request of a scalar memory instruction. -/
def State.scalarRequest (s : State) (kind a : Nat) (i : Int) (data : List Nat) : Option Request := some ([(s.ea a i).toNat], kind :: data)

/-- The request of an atomic. -/
def State.amoRequest (s : State) (kind a b : Nat) (t : T8) : Option Request := s.scalarRequest kind a 0 [T8.bytes t, (s.x b).toNat]

/-- The request of a scaled atomic add. -/
def State.saddRequest (s : State) (k a b : Nat) (t : Bool) : Option Request :=
  s.scalarRequest 0x20 a 0 [k, t.toNat, (s.f b).toNat, (smGet s.me.qscale k 0).toNat]

/-- Whether a vector or tile memory instruction of the executing context is performed now, at the head of the engine queue. -/
def State.atHead (s : State) : Bool :=
  match s.myCore.queue with
  | [] => true
  | e :: _ => e.isMemoryOf s.cur.ctx

/-- The request of a vector or tile memory instruction, with the addresses that it names; one of no address is none. -/
def State.queueRequest (s : State) (kind : Nat) (vas : List Nat) (data : List Nat) : Option Request :=
  if s.atHead && !vas.isEmpty then some (vas, kind :: data) else none

/-- The addresses of the active lanes of a contiguous vector access (R201). -/
def State.laneVas (s : State) (a p : Nat) (c : Bool) : List Nat := (s.lanes p c).map fun l => ((s.x a).toNat + l) % 2 ^ 64

/-- The addresses of a run of bytes by the first byte of each of its lines. -/
def State.runVas (s : State) (a n : Nat) : List Nat := (List.range (n / 128)).map fun i => ((s.x a).toNat + 128 * i) % 2 ^ 64

/-- The first and last bytes of a tile's rows (R147). -/
def State.rowVas (s : State) (t a b : Nat) : List Nat :=
  let u := s.me.tile t
  (List.range u.rows).flatMap fun k =>
    let r := (s.x a).toNat + k * (s.x b).toNat
    [r % 2 ^ 64, (r + (u.rowBytes - 1)) % 2 ^ 64]

/-- The addresses of an indexed vector access (R201). -/
def State.indexVas (s : State) (v b p : Nat) (c w : Bool) : List Nat := (s.indexed (s.stag 1 v) b p c w).map (·.2)

/-- The request of an engine command (R250), or of an instruction that an engine answers: the operands that its two registers hold. -/
def State.commandRequest (s : State) (kind e a b : Nat) : Option Request :=
  some ([(s.x a).toNat], (0x80 + kind) :: (s.x b).toNat :: (s.geometry e).map (·.toNat))

/-- The request that an instruction of the executing context sends to memory or to an engine, if it sends one (R242). -/
def instrRequest (i : Instr) (s : State) : Option Request :=
  match i with
  | .ld _ a t o => s.scalarRequest 0 a o [LdTy.bytes t]
  | .st b a t o => s.scalarRequest 1 a o [StTy.bytes t, (s.x b).toNat]
  | .fld _ a t o => s.scalarRequest 2 a o [FpW.bytes t]
  | .fst b a t o => s.scalarRequest 3 a o [FpW.bytes t, (s.f b).toNat]
  | .amoSwap _ a b t => s.amoRequest 4 a b t
  | .amoAdd _ a b t => s.amoRequest 5 a b t
  | .amoAnd _ a b t => s.amoRequest 6 a b t
  | .amoOr _ a b t => s.amoRequest 7 a b t
  | .amoXor _ a b t => s.amoRequest 8 a b t
  | .amoMin _ a b t => s.amoRequest 9 a b t
  | .amoMax _ a b t => s.amoRequest 10 a b t
  | .amoCas d a b t => s.scalarRequest 11 a 0 [T8.bytes t, (s.x b).toNat, (s.x d).toNat]
  | .amoNib _ a b => s.scalarRequest 12 a 0 [(s.x b).toNat]
  | .amoSadd0 _ a b t => s.saddRequest 0 a b t
  | .amoSadd1 _ a b t => s.saddRequest 1 a b t
  | .amoSadd2 _ a b t => s.saddRequest 2 a b t
  | .amoSadd3 _ a b t => s.saddRequest 3 a b t
  | .faddX a b t => s.scalarRequest 13 a 0 [(match t with | .bf16 => 1 | .f32 => 2), (s.f b).toNat]
  | .xaccRd _ a t => s.scalarRequest 14 a 0 [match t with | .bf16 => 1 | .f32 => 2]
  | .ldTake _ a t o => s.scalarRequest 15 a o [LdTy.bytes t]
  | .stFill x a n => s.scalarRequest 16 a 0 (n :: (List.range 16).map fun k => (s.x (x + k)).toNat)
  | .rcClose b a =>
    let n := (s.x b).toNat / 65536 + 1
    some ((List.range (min n 17)).map (fun k => ((s.x a).toNat + 65536 * k) % 2 ^ 64), [17, (s.x b).toNat])
  | .vld _ a p c => s.queueRequest 0x40 (s.laneVas a p c) [(s.laneMask p c).toNat]
  | .vst d a p c => s.queueRequest 0x41 (s.laneVas a p c) [(s.laneMask p c).toNat, (s.vdata (s.stag 0 d)).toNat]
  | .vgather _ v b p c w => s.queueRequest 0x42 (s.indexVas v b p c w) [(s.laneMask p c).toNat, w.toNat, (s.vdata (s.stag 1 v)).toNat]
  | .vscatter d v b p c w =>
    s.queueRequest 0x43 (s.indexVas v b p c w) [(s.laneMask p c).toNat, w.toNat, (s.vdata (s.stag 1 v)).toNat, (s.vdata (s.stag 0 d)).toNat]
  | .vtake _ a => s.queueRequest 0x44 (s.runVas a 256) []
  | .vfill d a b => s.queueRequest 0x45 (s.runVas a 256) [bits (s.x b) 0 6, (s.vdata (s.stag 0 d)).toNat]
  | .vlds _ a => s.queueRequest 0x46 (s.runVas a 256) []
  | .vsts d a => s.queueRequest 0x47 (s.runVas a 256) [(s.vside d).toNat]
  | .tld t a b => s.queueRequest 0x48 (s.rowVas t a b) [(s.x b).toNat, (s.me.tile t).tsh.toNat]
  | .tst t a b => s.queueRequest 0x49 (s.rowVas t a b) [(s.x b).toNat, (s.me.tile t).tsh.toNat, (s.me.tile t).data.toNat]
  | .ttake _ a => s.queueRequest 0x4A (s.runVas a 2048) []
  | .tfill t a b => s.queueRequest 0x4B (s.runVas a 2048) [bits (s.x b) 0 6, (s.me.tile t).data.toNat]
  | .tlds _ a => s.queueRequest 0x4C (s.runVas a 512) []
  | .tsts t a => s.queueRequest 0x4D (s.runVas a 512) [(s.me.tile t).side.toNat]
  | .ecopy _ a b _ => s.commandRequest 0 0 a b
  | .egather _ a b _ => s.commandRequest 1 0 a b
  | .escatter _ a b _ => s.commandRequest 2 0 a b
  | .ecopy2d _ a b _ => s.commandRequest 3 0 a b
  | .ecfill _ a b _ => s.commandRequest 4 0 a b
  | .callred _ a b _ => s.commandRequest 5 1 a b
  | .callgat _ a b _ => s.commandRequest 6 1 a b
  | .credsc _ a b _ => s.commandRequest 7 1 a b
  | .cbcast _ a b _ => s.commandRequest 8 1 a b
  | .cabort _ a _ => s.commandRequest 9 1 a 0
  | .qpub _ a b _ => s.commandRequest 10 2 a b
  | .qclaim _ a b _ => s.commandRequest 11 2 a b
  | .qlaunch _ a b _ => s.commandRequest 12 2 a b
  | .qsignal _ a _ => s.commandRequest 13 2 a 0
  | .xfollow _ a b _ => s.commandRequest 14 3 a b
  | .xtok _ a b _ => s.commandRequest 15 3 a b
  | .xdetok _ a b _ => s.commandRequest 16 3 a b
  | .xmask _ a b _ => s.commandRequest 17 3 a b
  | .apxLoad _ a b _ => s.commandRequest 18 4 a b
  | .apxSave _ a b _ => s.commandRequest 19 4 a b
  | .apxBegin _ a b => s.commandRequest 32 4 a b
  | .apxEnd _ a => s.commandRequest 33 4 a 0
  | .apxCfg _ a b => s.commandRequest 34 4 a b
  | .apxInv _ a => s.commandRequest 35 4 a 0
  | .apxStat _ a => s.commandRequest 36 4 a 0
  | .cmrd _ a => s.commandRequest 37 5 a 0
  | .cstat _ => s.commandRequest 38 5 0 0
  | .catch _ a b => s.commandRequest 39 5 a b
  | .catchNv _ a b => s.commandRequest 40 5 a b
  | .cwait _ a b => s.commandRequest 41 5 a b
  | .nmax _ a b => s.commandRequest 42 5 a b
  | .nsum _ a b => s.commandRequest 43 5 a b
  | .nsumMax _ a b => s.commandRequest 44 5 a b
  | .catchK _ a b => s.commandRequest 45 5 a b
  | _ => none

/-- Whether a request is an engine command. -/
def Request.isCommand (r : Request) : Bool := 0x80 ≤ r.2.headD 0

/-- Whether a request leaves its own core: a command does, and an access of which some address is translated to anything but the core's own
scratch (R242). -/
def State.leavesCore (s : State) (r : Request) : Bool :=
  r.isCommand || r.1.any fun va =>
    match s.translate s.req .load va, s.translate s.req .store va with
    | .ok x, _ => regionOf x.pa != .sram s.cur.core
    | _, .ok x => regionOf x.pa != .sram s.cur.core
    | _, _ => false

/-- The hash of a request (R242). -/
def Request.hash (r : Request) : BitVec 32 := Config.pairHash (r.1 ++ r.2)

/-! ## Arrivals -/

/-- The executing context's slice group and its partner's core, where its slice is paired and its copies agree so far. -/
def State.pairing (s : State) : Option (SliceGroup × Nat) :=
  match s.groupOf s.cur with
  | some g => if g.mismatch then none else g.pairCore.map fun n => (g, n)
  | none => none

/-- Whether two groups are the copies of one slice. -/
def SliceGroup.twin (a b : SliceGroup) : Bool := a.launchId == b.launchId && a.k == b.k

/-- A context's position in its slice group, which the pair tag names. -/
def SliceGroup.position (g : SliceGroup) (h : Nat) : Nat := g.members.idxOf h

/-- Whether a held request is the other copy's of the executing context's next one. -/
def State.awaits (s : State) (g : SliceGroup) (n : Nat) (r : PairedReq) : Bool :=
  r.second.isNone && r.first.core == n && r.seq == s.me.pairSeq &&
    (match s.groupOf r.first with
     | some h => h.twin g && h.position r.first.ctx == g.position s.cur.ctx
     | none => false)

/-- A free key for a held request, which no captured one has either. -/
def State.freePair (s : State) : Nat :=
  ((smKeys s.paired) ++ s.images.flatMap fun i => smKeys i.2.captured).foldl (fun n k => max n (k + 1)) 0

/-- The executing context's request arrives at its home's router, and the context waits there (R242). -/
def State.arrivePaired (s : State) (g : SliceGroup) (n : Nat) (r : Request) : State :=
  match s.paired.find? (fun e => s.awaits g n e.2) with
  | some (k, e) =>
    ({ s with paired := smSet s.paired k { e with second := some s.cur, hash2 := r.hash } }).modMe fun c => { c with wait := .paired k }
  | none =>
    let k := s.freePair
    let e : PairedReq := ⟨s.myPart, s.cur, none, s.me.pairSeq, r.hash, 0, word (r.1.headD 0), 0⟩
    ({ s with paired := smSet s.paired k e }).modMe fun c => { c with wait := .paired k }

/-- The state in which the executing context waits for its partner's copy of a request, if the instruction sends one that has not
been matched. -/
def State.holdPaired (s : State) (i : Instr) : Option State :=
  match s.pairing with
  | none => none
  | some (g, n) =>
    if s.me.pairGo then none
    else
      match instrRequest i s with
      | none => none
      | some r => if s.leavesCore r then some (s.arrivePaired g n r) else none

/-! ## The match (R242) -/

/-- A context that may perform its request now, under the model's number of the request. -/
def Ctx.releasePair (c : Ctx) (id : Nat) (reply : Bool) : Ctx :=
  { c with wait := .none, pairSeq := c.pairSeq + 1, pairGo := true, pairReply := reply, pairId := id }

/-- A launch marked as one of whose slices the copies have differed (R400). -/
def Queue.markFailed (x : Queue) (id : Nat) : Queue :=
  { x with progs := x.progs.map fun l => if l.id = id then { l with failed := true } else l }

/-- Every context of a slice group HELD, and the group and its launch marked (R242, R400). -/
def State.holdGroup (s : State) (i : CtxId) : State :=
  match s.groupOf i with
  | none => s
  | some g =>
    let s := g.members.foldl (fun s h => (s.squash ⟨i.core, h⟩).modCtx ⟨i.core, h⟩ fun c => { c with life := .held, wait := .none }) s
    (s.modGroup i fun g => { g with mismatch := true }).modQueue (s.core i.core).partid g.queue fun x => x.markFailed g.launchId

/-- The partner's context by which the other copy's group is found. -/
def State.twinOf (s : State) (i : CtxId) : Option CtxId :=
  match s.groupOf i with
  | none => none
  | some g => g.pairCore.bind fun n => ((s.core n).slices.find? fun h => h.2.twin g).map fun h => ⟨n, h.2.members.headD 0⟩

/-- A mismatch (R242): neither copy is performed, both groups' contexts are HELD, and the supervisor is told. -/
def State.pairMismatch (s : State) (k : Nat) (r : PairedReq) : State :=
  let s : State := { s with paired := smErase s.paired k }
  let t := s.twinOf r.first
  let s := s.holdGroup r.first
  let s := match t with | some j => s.holdGroup j | none => s
  s.raiseSup r.part .pairMismatch r.addr none

/-- The second copy of a request has arrived (R242): equal hashes let the pair be performed once. -/
def execPairedRequestMatch (k : Nat) (s : State) : Host.Outcome State Fault Refusal :=
  .next (match s.paired.find? (fun e => e.1 == k) with
    | none => s
    | some (_, r) =>
      match r.second with
      | none => s
      | some j =>
        if !(s.part r.part).live then s
        else if r.hash != r.hash2 then s.pairMismatch k r
        else
          let id := s.freeIdx
          let s : State := { s.drawn with paired := smErase s.paired k }
          let s := (s.modCtx r.first fun c => c.releasePair id false).modCtx j fun c => c.releasePair id true
          (s.pushMove (.ctx r.first)).pushMove (.ctx j))

/-- The cycles for which a first copy waits (R242). -/
def pairWindow : Nat := 2 ^ 20

/-- The second copy has not arrived in time (R242). -/
def execPairTimeout (k : Nat) (s : State) : Host.Outcome State Fault Refusal :=
  .next (match s.paired.find? (fun e => e.1 == k) with
    | some (_, r) => if (s.part r.part).live && r.second.isNone && pairWindow ≤ r.age then s.pairMismatch k r else s
    | none => s)

/-- Whether an instruction has not committed but waits to run again. -/
def Ctx.waiting (c : Ctx) : Bool := c.wait == .retry

/-- A core with a change to the commands that it has issued since an earlier state. -/
def Core.onIssued (old new : Core) (f : EngCmd → EngCmd) : Core :=
  { new with engs := new.engs.map fun e =>
    let n := (smGet old.engs e.1 {}).issue.toNat
    (e.1, { e.2 with out := e.2.out.map fun k => if n < k.ticket then f k else k }) }

/-- The first copy's turn ended, in the state `t`: its request is performed, unless it waits to run again, and its command is performed for
both copies. -/
def State.endPaired (s t : State) (i : CtxId) : State :=
  if (t.ctx i).waiting then t
  else (t.modCore i.core fun c => (s.core i.core).onIssued c fun k => { k with pair := some (s.ctx i).pairId }).modCtx i fun c =>
    { c with pairGo := false, pairReply := false }

/-- Memory `m` with the bytes of a core's own local SRAM as `n` has them. -/
def withScratch (m n : Memory) (core : Nat) : Memory :=
  let lo := sramBase + core * 0x80000
  (m.filter fun c => c.1 < lo) ++ (n.filter fun c => lo ≤ c.1 && c.1 < lo + 0x80000) ++ m.filter fun c => lo + 0x80000 ≤ c.1

/-- Whether the copy that a context's request is performed for has still to take its reply. -/
def State.replyPending (s : State) : Bool :=
  s.me.pairGo && !s.me.pairReply && s.cores.any fun c => c.2.ctxs.any fun x => x.2.pairGo && x.2.pairReply && x.2.pairId == s.me.pairId

/-- The state after the copy that is not performed has its reply, in the state `t` (R242): of what its run did, its own core and its scratch
stand, and a command that it has issued ends with the other copy's. -/
def State.keepReply (s t : State) (i : CtxId) : State :=
  let u := { s with mem := withScratch s.mem t.mem i.core }.modCore i.core fun c =>
    c.onIssued (t.core i.core) fun k => { k with phase := .replica, pair := some (s.ctx i).pairId }
  if (t.ctx i).waiting then u else u.modCtx i fun c => { c with pairGo := false, pairReply := false }

end Sys2Proof.Machine
end

