-- ==== Sys2Proof/Machine/Permute.lean ====
section
/-! DEFINITION. Vector permutes and reductions (R129, R130). -/

namespace Sys2Proof.Machine

open Sys2Proof

/-- The active elements of a vector with their indices, in rising order. -/
def activeElems (act : Nat → Bool) (w : Nat) : Nat → List Nat → List (Nat × Nat)
  | _, [] => []
  | i, a :: as => if act (w * i) then (i, a) :: activeElems act w (i + 1) as else activeElems act w (i + 1) as

/-- `vexpand` (R129) from element `i` on, with the source elements still to place. -/
def expandElems (act : Nat → Bool) (w : Nat) : Nat → Nat → List Nat → List Nat
  | _, 0, _ => []
  | i, n + 1, src =>
    if act (w * i) then
      (match src with
       | [] => 0 :: expandElems act w (i + 1) n []
       | a :: rest => a :: expandElems act w (i + 1) n rest)
    else 0 :: expandElems act w (i + 1) n src

/-- An instruction from one vector to one vector, every bit of which is written (R129, R130). -/
def State.wholeVector (s : State) (d a p w : Nat) (f : State → List Nat → Nat × BitVec 5) : Body :=
  let vd := s.stag 0 d
  let va := s.stag 1 a
  s.vecBody [va] [vd] [p] [] fun s =>
    let r := f s (vElems (8 * w) (s.vdata va))
    (s.setV vd (BitVec.ofNat 2048 r.1) none, r.2)

/-- `vperm` (R129): the index element is read as a natural number modulo the element count. -/
def execVperm (d a b p : Nat) (c : Bool) (t : T8) (s : State) : Host.Outcome State Fault Refusal :=
  let w := T8.bytes t
  let vd := s.stag 0 d
  let va := s.stag 1 a
  let vb := s.stag 2 b
  finish s (s.vecBody [va, vb, vd] [vd] [p] [] fun s =>
    let src := vElems (8 * w) (s.vdata va)
    let r := mapLanes (s.active p c) w (fun x _ _ => (src.getD (x % (256 / w)) 0, 0)) 0 (vElems (8 * w) (s.vdata vb))
      src (vElems (8 * w) (s.vdata vd))
    (s.setV vd (vJoin (8 * w) r.1) none, 0))

/-- `vcompress` (R129). -/
def execVcompress (d a p : Nat) (c : Bool) (t : T8) (s : State) : Host.Outcome State Fault Refusal :=
  let w := T8.bytes t
  finish s (s.wholeVector d a p w fun s l => (joinElems (8 * w) ((activeElems (s.active p c) w 0 l).map (·.2)), 0))

/-- `vexpand` (R129). -/
def execVexpand (d a p : Nat) (c : Bool) (t : T8) (s : State) : Host.Outcome State Fault Refusal :=
  let w := T8.bytes t
  finish s (s.wholeVector d a p w fun s l => (joinElems (8 * w) (expandElems (s.active p c) w 0 (256 / w) l), 0))

/-- The best element of a list with its index, the first among equals; `better x y` says that x beats y. -/
def best {α : Type} (better : α → α → Bool) : List (Nat × α) → Option (Nat × α)
  | [] => none
  | e :: rest =>
    match best better rest with
    | none => some e
    | some f => if better f.2 e.2 then some f else some e

/-- An integer reduction (R130): the 64-bit value, and with `arg` the index word. -/
def State.reduceInt (s : State) (d a p : Nat) (c : Bool) (t : T8) (arg : Bool) (f : List (Nat × Int) → Int × Nat) :
    Host.Outcome State Fault Refusal :=
  let w := T8.bytes t
  finish s (s.wholeVector d a p w fun s l =>
    let r := f ((activeElems (s.active p c) w 0 l).map fun e => (e.1, readInt (T8.isSigned t) (8 * w) e.2))
    (wrapInt 64 r.1 + (if arg then r.2 * 2 ^ 64 else 0), 0))

/-- The least or greatest element with its index, or the given value and an index of all ones when none is active (R130). -/
def extremeInt (better : Int → Int → Bool) (none : Int) (l : List (Nat × Int)) : Int × Nat :=
  match best better l with
  | .none => (none, 0xFFFFFFFF)
  | some e => (e.2, e.1)

/-- An FP reduction to the least or greatest number (R130): NaN elements are skipped, −0 counts as below +0. -/
def extremeFp (f : Fmt) (better : Num → Num → Bool) (l : List (Nat × Nat)) : Nat × Nat × Flags :=
  let xs := l.map fun e => (e.1, decodeFp f e.2)
  let fl := sigFlags (xs.map (·.2))
  match best better (xs.filter fun e => !e.2.isNan) with
  | none => (f.nanCode, 0xFFFFFFFF, fl)
  | some e => ((roundFp f .ne e.2).1, e.1, fl)

/-- An FP reduction to the least or greatest number, and with `arg` the index word (R130). -/
def State.reduceFp (s : State) (d a p : Nat) (c : Bool) (t : FTy) (arg : Bool) (better : Num → Num → Bool) :
    Host.Outcome State Fault Refusal :=
  let w := FTy.bits t / 8
  finish s (s.wholeVector d a p w fun s l =>
    let r := extremeFp (FTy.fmt t) better (activeElems (s.active p c) w 0 l)
    (r.1 + (if arg then r.2.1 * 2 ^ 64 else 0), r.2.2))

/-- `vredsum` on integers (R130). -/
def execVredsumInt (d a p : Nat) (c : Bool) (t : T8) (s : State) : Host.Outcome State Fault Refusal :=
  s.reduceInt d a p c t false fun l => (l.foldl (fun n e => n + e.2) 0, 0)

/-- `vredmin` on integers (R130). -/
def execVredminInt (d a p : Nat) (c : Bool) (t : T8) (s : State) : Host.Outcome State Fault Refusal :=
  s.reduceInt d a p c t false (extremeInt (fun x y => x < y) (maxInt (T8.isSigned t) (8 * T8.bytes t)))

/-- `vredmax` on integers (R130). -/
def execVredmaxInt (d a p : Nat) (c : Bool) (t : T8) (s : State) : Host.Outcome State Fault Refusal :=
  s.reduceInt d a p c t false (extremeInt (fun x y => y < x) (minInt (T8.isSigned t) (8 * T8.bytes t)))

/-- `vargmax` on integers (R130). -/
def execVargmaxInt (d a p : Nat) (c : Bool) (t : T8) (s : State) : Host.Outcome State Fault Refusal :=
  s.reduceInt d a p c t true (extremeInt (fun x y => y < x) (minInt (T8.isSigned t) (8 * T8.bytes t)))

/-- `vargmin` on integers (R130). -/
def execVargminInt (d a p : Nat) (c : Bool) (t : T8) (s : State) : Host.Outcome State Fault Refusal :=
  s.reduceInt d a p c t true (extremeInt (fun x y => x < y) (maxInt (T8.isSigned t) (8 * T8.bytes t)))

/-- `vredsum` on FP elements (R130): one rounding with FPCTL.RM. -/
def execVredsumFp (d a p : Nat) (c : Bool) (t : FTy) (s : State) : Host.Outcome State Fault Refusal :=
  let w := FTy.bits t / 8
  let rm := s.rm
  finish s (s.wholeVector d a p w fun s l =>
    roundWith (FTy.fmt t) rm (sumNums (rm = .down)
      ((activeElems (s.active p c) w 0 l).map fun e => decodeFp (FTy.fmt t) e.2)))

/-- `vredmin` on FP elements (R130). -/
def execVredminFp (d a p : Nat) (c : Bool) (t : FTy) (s : State) : Host.Outcome State Fault Refusal :=
  s.reduceFp d a p c t false Num.ltz

/-- `vredmax` on FP elements (R130). -/
def execVredmaxFp (d a p : Nat) (c : Bool) (t : FTy) (s : State) : Host.Outcome State Fault Refusal :=
  s.reduceFp d a p c t false fun x y => y.ltz x

/-- `vargmax` on FP elements (R130). -/
def execVargmaxFp (d a p : Nat) (c : Bool) (t : FTy) (s : State) : Host.Outcome State Fault Refusal :=
  s.reduceFp d a p c t true fun x y => y.ltz x

/-- `vargmin` on FP elements (R130). -/
def execVargminFp (d a p : Nat) (c : Bool) (t : FTy) (s : State) : Host.Outcome State Fault Refusal :=
  s.reduceFp d a p c t true Num.ltz

end Sys2Proof.Machine
end

