-- ==== Sys2Proof/Machine/Predicate.lean ====
section
/-! DEFINITION. Vector compares and predicate instructions (R127, R128). -/

namespace Sys2Proof.Machine

open Sys2Proof

/-- The lanes of a compare from element `i` on: each active element's result in its `w` byte lanes, with its flags (R127). -/
def compareLanes (act : Nat → Bool) (w : Nat) (op : Nat → Nat → Bool × BitVec 5) :
    Nat → List Nat → List Nat → BitVec 256 → BitVec 256 × BitVec 5
  | i, a :: as, b :: bs, old =>
    let r := compareLanes act w op (i + 1) as bs old
    if act (w * i) then
      let e := op a b
      (putBits r.1 (w * i) w (if e.1 then 2 ^ w - 1 else 0), e.2 ||| r.2)
    else r
  | _, [], _, old => (old, 0)
  | _, _, [], old => (old, 0)

/-- The predicate that an instruction writes; a write to p0 is discarded (R86). -/
def predDest (d : Nat) : List Nat := if d = 0 then [] else [d]

/-- A compare of elements of `8w` bits into a predicate (R127). -/
def State.compare (s : State) (d a b p : Nat) (c : Bool) (w : Nat) (op : Nat → Nat → Bool × BitVec 5) : Body :=
  let va := s.stag 1 a
  let vb := s.stag 2 b
  s.vecBody [va, vb] [] [p, d] (predDest d) fun s =>
    let r := compareLanes (s.active p c) w op 0 (vElems (8 * w) (s.vdata va)) (vElems (8 * w) (s.vdata vb)) (s.me.pred d)
    (s.setP d r.1, r.2)

/-- An integer compare, read by the type (R127). -/
def State.compareInt (s : State) (d a b p : Nat) (c : Bool) (t : T8) (f : Int → Int → Bool) : Host.Outcome State Fault Refusal :=
  let w := T8.bytes t
  finish s (s.compare d a b p c w fun x y =>
    (f (readInt (T8.isSigned t) (8 * w) x) (readInt (T8.isSigned t) (8 * w) y), 0))

/-- An FP compare with its flags (R127). -/
def State.compareFp (s : State) (d a b p : Nat) (c : Bool) (t : FTy) (f : Num → Num → Bool × Flags) :
    Host.Outcome State Fault Refusal :=
  finish s (s.compare d a b p c (FTy.bits t / 8) fun x y => f (decodeFp (FTy.fmt t) x) (decodeFp (FTy.fmt t) y))

/-- `vceq` on integers (R127). -/
def execVceqInt (d a b p : Nat) (c : Bool) (t : T8) (s : State) : Host.Outcome State Fault Refusal :=
  s.compareInt d a b p c t fun x y => x == y

/-- `vcne` on integers (R127). -/
def execVcneInt (d a b p : Nat) (c : Bool) (t : T8) (s : State) : Host.Outcome State Fault Refusal :=
  s.compareInt d a b p c t fun x y => x != y

/-- `vclt` on integers (R127). -/
def execVcltInt (d a b p : Nat) (c : Bool) (t : T8) (s : State) : Host.Outcome State Fault Refusal :=
  s.compareInt d a b p c t fun x y => x < y

/-- `vcle` on integers (R127). -/
def execVcleInt (d a b p : Nat) (c : Bool) (t : T8) (s : State) : Host.Outcome State Fault Refusal :=
  s.compareInt d a b p c t fun x y => x ≤ y

/-- `vceq` on FP elements (R127). -/
def execVceqFp (d a b p : Nat) (c : Bool) (t : FTy) (s : State) : Host.Outcome State Fault Refusal :=
  s.compareFp d a b p c t eqFlags

/-- `vcne` on FP elements (R127). -/
def execVcneFp (d a b p : Nat) (c : Bool) (t : FTy) (s : State) : Host.Outcome State Fault Refusal :=
  s.compareFp d a b p c t (fun x y => ((eqFlags x y).1 == false, (eqFlags x y).2))

/-- `vclt` on FP elements (R127). -/
def execVcltFp (d a b p : Nat) (c : Bool) (t : FTy) (s : State) : Host.Outcome State Fault Refusal :=
  s.compareFp d a b p c t ltFlags

/-- `vcle` on FP elements (R127). -/
def execVcleFp (d a b p : Nat) (c : Bool) (t : FTy) (s : State) : Host.Outcome State Fault Refusal :=
  s.compareFp d a b p c t leFlags

/-- `vcun` (R127): either is a NaN. -/
def execVcun (d a b p : Nat) (c : Bool) (t : FTy) (s : State) : Host.Outcome State Fault Refusal :=
  s.compareFp d a b p c t unordFlags

/-- A predicate instruction that writes a predicate: `f` gives the new bits of the active lanes, `src` the predicates it reads
(R128). -/
def State.predOp (s : State) (d p : Nat) (c : Bool) (src : List Nat) (f : BitVec 256) : Host.Outcome State Fault Refusal :=
  finish s (s.vecBody [] [] (p :: d :: src) (predDest d) fun s => (s.setP d (mergePred (s.me.pred d) f (s.laneMask p c)), 0))

/-- A predicate instruction that writes an x register (R128). -/
def State.predToX (s : State) (d : Nat) (src : List Nat) (v : Nat) : Host.Outcome State Fault Refusal :=
  finish s (do s.destX d; s.vecBody [] [] src [] fun s => (s.setX d (word v), 0))

/-- The set lanes of a 256-bit value, in rising order. -/
def setLanes (v : BitVec 256) : List Nat := (List.range 256).filter v.getLsbD

/-- `pand` (R128). -/
def execPand (d a b p : Nat) (c : Bool) (s : State) : Host.Outcome State Fault Refusal :=
  s.predOp d p c [a, b] (s.me.pred a &&& s.me.pred b)

/-- `por` (R128). -/
def execPor (d a b p : Nat) (c : Bool) (s : State) : Host.Outcome State Fault Refusal :=
  s.predOp d p c [a, b] (s.me.pred a ||| s.me.pred b)

/-- `pxor` (R128). -/
def execPxor (d a b p : Nat) (c : Bool) (s : State) : Host.Outcome State Fault Refusal :=
  s.predOp d p c [a, b] (s.me.pred a ^^^ s.me.pred b)

/-- `pandn` (R128). -/
def execPandn (d a b p : Nat) (c : Bool) (s : State) : Host.Outcome State Fault Refusal :=
  s.predOp d p c [a, b] (s.me.pred a &&& ~~~(s.me.pred b))

/-- `pnot` (R128). -/
def execPnot (d a p : Nat) (c : Bool) (s : State) : Host.Outcome State Fault Refusal :=
  s.predOp d p c [a] (~~~(s.me.pred a))

/-- `pcnt` (R128). -/
def execPcnt (d a p : Nat) (c : Bool) (s : State) : Host.Outcome State Fault Refusal :=
  s.predToX d [a, p] (setLanes (s.me.pred a &&& s.laneMask p c)).length

/-- `pffs` (R128): 256 when there is none. -/
def execPffs (d a p : Nat) (c : Bool) (s : State) : Host.Outcome State Fault Refusal :=
  s.predToX d [a, p] ((setLanes (s.me.pred a &&& s.laneMask p c)).head?.getD 256)

/-- `pmask` (R128). -/
def execPmask (d a p : Nat) (c : Bool) (s : State) : Host.Outcome State Fault Refusal :=
  s.predOp d p c [] (BitVec.ofNat 256 (2 ^ min (s.x a).toNat 256 - 1))

end Sys2Proof.Machine
end

