-- ==== Sys2Proof/Machine/Special.lean ====
section
/-! DEFINITION. Special functions and vector control (R136 to R141). -/

namespace Sys2Proof.Machine

open Sys2Proof

/-- A special function of one FP32 source (R136). -/
def State.special (s : State) (d a p : Nat) (c : Bool) (f : Num → Nat × Flags) : Host.Outcome State Fault Refusal :=
  finish s (s.elementwise d a none p c 4 (fun s' => vElems 32 (s'.vdata (s.stag 1 a))) fun x _ _ => f (decodeFp fp32 x))

/-- A refinement step of two FP32 sources (R137). -/
def State.refine (s : State) (d a b p : Nat) (c : Bool) (f : Num → Num → Nat × Flags) : Host.Outcome State Fault Refusal :=
  finish s (s.elementwise d a (some (s.stag 2 b)) p c 4 (fun s' => vElems 32 (s'.vdata (s.stag 2 b))) fun x y _ =>
    f (decodeFp fp32 x) (decodeFp fp32 y))

/-- `vrcp` (R136). -/
def execVrcp (d a p : Nat) (c : Bool) (s : State) : Host.Outcome State Fault Refusal :=
  s.special d a p c rcpEst

/-- `vrsq` (R136). -/
def execVrsq (d a p : Nat) (c : Bool) (s : State) : Host.Outcome State Fault Refusal :=
  s.special d a p c rsqEst

/-- `vrcps` (R137). -/
def execVrcps (d a b p : Nat) (c : Bool) (s : State) : Host.Outcome State Fault Refusal :=
  s.refine d a b p c rcpStep

/-- `vrsqs` (R137). -/
def execVrsqs (d a b p : Nat) (c : Bool) (s : State) : Host.Outcome State Fault Refusal :=
  s.refine d a b p c rsqStep

/-- `vexp2` (R136). -/
def execVexp2 (d a p : Nat) (c : Bool) (s : State) : Host.Outcome State Fault Refusal :=
  let rm := s.rm
  let q := s.prefixOf
  s.special d a p c fun x => finishWith fp32 rm q (exp2Num x)

/-- `vlog2` (R136). -/
def execVlog2 (d a p : Nat) (c : Bool) (s : State) : Host.Outcome State Fault Refusal :=
  let rm := s.rm
  let q := s.prefixOf
  s.special d a p c fun x => finishWith fp32 rm q (log2Num x)

/-- A broadcast into the active elements (R138); major 0x27 is no body instruction. -/
def State.broadcast (s : State) (d p : Nat) (c : Bool) (w v : Nat) : Host.Outcome State Fault Refusal :=
  finish s (do
    let t ← s.vecWork true [d] [d] [p] [] fun s =>
      let old := vElems (8 * w) (s.vdata d)
      let r := mapLanes (s.active p c) w (fun x _ _ => (x, 0)) 0 (List.replicate (256 / w) (v % 2 ^ (8 * w))) old old
      (s.setV d (vJoin (8 * w) r.1) none, 0)
    .ok t.advance)

/-- `vdup` of an x register. -/
def execVdupInt (d b p : Nat) (c : Bool) (t : T8) (s : State) : Host.Outcome State Fault Refusal :=
  s.broadcast d p c (T8.bytes t) (s.x b).toNat

/-- `vdup` of an f register (R87). -/
def execVdupFp (d b p : Nat) (c : Bool) (t : FTy) (s : State) : Host.Outcome State Fault Refusal :=
  s.broadcast d p c (FTy.bits t / 8) (s.f b).toNat

/-- VREP as `vrep` loads it (R139): COUNT, LEN, STRIDE and MASK of the operand, ACTIVE 1, IDX 0, POS 0. -/
def vrepLoad (cfg : Word) : Word :=
  word (bits cfg 0 6 + bits cfg 8 4 * 2 ^ 8 + bits cfg 16 5 * 2 ^ 16 + bits cfg 24 3 * 2 ^ 24 + 2 ^ 32)

/-- `vrep` (R139): a COUNT of 0 skips the body. -/
def execVrep (b : Nat) (s : State) : Host.Outcome State Fault Refusal :=
  finish s (do
    s.needRoom
    let cfg := s.x b
    let t := s.enqueue (.vector ⟨0, true, [], []⟩)
    if bits cfg 0 6 = 0 then .ok (t.setPc (t.pc + word (4 + 4 * (bits cfg 8 4 + 1))))
    else .ok (t.modMe fun c => { c with vrep := vrepLoad cfg }).advance)

/-- Whether an entry is committed work that `vbusy` counts (R141). -/
def QEntry.counted (e : QEntry) : Bool := match e.op with | .vector w => w.counts | .unit b => b | _ => false

/-- The committed vector work of a context that has not completed and that `vbusy` counts: in the queue and on the lane
groups (R141). -/
def State.pendingVector (s : State) (core k : Nat) : Nat :=
  ((s.core core).queue.filter fun e => e.ctx == k && e.counted).length
  + ((s.cluster (clusterOf core)).lanes.filter fun l => l.2.core == core && l.2.ctx == k && l.2.work.counts).length

/-- `vbusy` (R141). -/
def execVbusy (d : Nat) (s : State) : Host.Outcome State Fault Refusal :=
  finish s (do
    s.destX d
    s.needRoom
    .ok ((s.setX d (word (s.pendingVector s.cur.core s.cur.ctx))).enqueueUnit true).advance)

/-- `vfence` at the head of the queue (R141): it stays there until every earlier vector instruction of its context has completed. -/
def vfenceBody (s : State) : Body :=
  if s.pendingVector s.cur.core s.cur.ctx = 0 then .ok s.advance else waitRetry (s.holdHead .vfence)

/-- `vfence` (R141): it holds its context until it is at the head of the queue and the context's earlier vector instructions have
completed. -/
def execVfence (s : State) : Host.Outcome State Fault Refusal := finish s (s.fromHead .vfence vfenceBody)

end Sys2Proof.Machine
end

