-- ==== Sys2Proof/Machine/System.lean ====
section
/-! DEFINITION. Control registers: the map, the access rules, and each register's read and write, with `sysrd`, `syswr`, `sysset`,
`sysclr` and the writes that have an effect of their own (R31, R93 to R97, R114, R115, R206, R225, R267, R272, R273, R281, R286, R354,
R357, R364, R379). -/

namespace Sys2Proof.Machine

open Sys2Proof

/-! ## The map (R93, R94) -/

/-- Whether a number is assigned (R94). -/
def crKnown (n : Nat) : Bool :=
  n ≤ 0x00F || (0x100 ≤ n && n ≤ 0x105) || (0x180 ≤ n && n ≤ 0x18B) || n == 0x1C0 || n == 0x1C1 || (0x200 ≤ n && n ≤ 0x20C)
    || n == 0x280 || (0x2C0 ≤ n && n ≤ 0x2DB) || (0x300 ≤ n && n ≤ 0x33F) || (0x380 ≤ n && n ≤ 0x385)
    || (0x400 ≤ n && n ≤ 0x40B) || (0x440 ≤ n && n ≤ 0x442)

/-- Whether a register is read-only (R94, R272). -/
def crReadOnly (n : Nat) : Bool :=
  [0x008, 0x00A, 0x00B, 0x00F, 0x103, 0x105, 0x18A, 0x18B, 0x20C, 0x384, 0x401, 0x405, 0x408].contains n
    || (0x2D4 ≤ n && n ≤ 0x2DB) || (0x300 ≤ n && n ≤ 0x33F)

/-- Whether U may write a register (R94). -/
def crUser (n : Nat) : Bool :=
  [0x005, 0x006, 0x007, 0x009, 0x101, 0x1C0, 0x1C1, 0x280].contains n || (0x200 ≤ n && n ≤ 0x203) || (0x2C0 ≤ n && n ≤ 0x2D3)

/-- Whether a number lies in the machine range (R93). -/
def crMachine (n : Nat) : Bool := 0x800 ≤ n && n ≤ 0x8FF

/-- The checks of an access (R93): ILLEGAL in rank 2, then PRIVILEGE in rank 3. -/
def State.crCheck (s : State) (n : Nat) (write : Bool) : Except Stop Unit := do
  need (crMachine n || (crKnown n && !(write && crReadOnly n))) (trapIllegal s)
  need (!crMachine n && (s.me.priv != 0 || (n < 0x400 && (!write || crUser n)))) (trapPrivilege s)

/-! ## Reading -/

/-- CTXID (R95). -/
def State.ctxidOf (s : State) (i : CtxId) : Word :=
  let q := s.part (s.core i.core).partid
  let cl := clusterOf i.core
  word (i.ctx + i.core % 4 * 2 ^ 4 + cl * 2 ^ 6 + (cl % 16 - q.col) * 2 ^ 16 + (cl / 16 - q.row) * 2 ^ 20)

/-- BUDGET of the executing context: its group's count, where it belongs to one (R238). -/
def State.budgetOf (s : State) : Word :=
  match s.groupOf s.cur with
  | some g => g.budget
  | none => s.me.budget

/-- A register of the committee mirror: zero for a partition that the committee does not concern (R96). -/
def State.mirrorReg (s : State) (k : Nat) : Word :=
  if (s.comm (k / 8)).concerns s.myPart then smGet (s.part s.myPart).mirror k 0 else 0

/-- A register of the context group 0x000 to 0x00F. -/
def State.readCtxReg (s : State) (n : Nat) : Word :=
  let c := s.me
  match n with
  | 0x0 => c.status
  | 0x1 => c.cause
  | 0x2 => c.epc
  | 0x3 => c.tval
  | 0x4 => c.tvec
  | 0x5 => c.uvec
  | 0x6 => c.uepc
  | 0x7 => c.scratch
  | 0x8 => s.ctxidOf s.cur
  | 0x9 => c.fpctl
  | 0xA => word s.myCore.cycle
  | 0xB => word s.time
  | 0xC => s.budgetOf
  | 0xD => c.deadline
  | 0xE => c.slice
  | _ => s.groupsMask s.cur

/-- The registers of a slot of the apprentice, by kind: AXCTL, AXLIM, AXMEAN, AXSAMP, AXSTEP, AXSTAT, AXCNT (R364). -/
def ApxSlot.reg (a : ApxSlot) (kind : Nat) : Word :=
  match kind with
  | 0 => a.ctl
  | 1 => a.lim
  | 2 => a.mean
  | 3 => a.samp
  | 4 => a.step
  | 5 => a.statWord
  | _ => a.countWord

/-- RNSRANGE: the product of the moduli of the working set (R82). -/
def rnsRange (cfg : BitVec 10) : Word := word (modProduct (workSet cfg))

/-- A register of 0x100 to 0x33F. -/
def State.readLowReg (s : State) (n : Nat) : Word :=
  let c := s.me
  let k := s.myCore
  let q := s.part s.myPart
  let cl := s.cluster (clusterOf s.cur.core)
  match n with
  | 0x100 => word (k.lmsplit % 4)
  | 0x101 => c.vback
  | 0x102 => word k.vweight
  | 0x103 => word k.partid
  | 0x104 => word q.mode.toNat
  | 0x105 => q.stepno
  | 0x188 => k.aslotmap
  | 0x189 => cl.rnscfg.setWidth 64
  | 0x18A => cl.rnsstat
  | 0x18B => rnsRange cl.rnscfg
  | 0x1C0 => c.vstat
  | 0x1C1 => c.vrep
  | 0x20C => c.rcstat
  | 0x280 => c.tnote
  | n =>
    if n < 0x188 then (c.tile (n - 0x180)).tsh
    else if n < 0x204 then (smGet c.qscale (n - 0x200) 0).setWidth 64
    else if n < 0x208 then smGet k.wpa (n - 0x204) 0
    else if n < 0x20C then smGet k.wpm (n - 0x208) 0
    else if n < 0x2DC then ((s.cluster (clusterOf s.cur.core)).apxSlot (n % 4)).reg ((n - 0x2C0) / 4)
    else s.mirrorReg (n - 0x300)

/-- A register of the partition: 0x380 to 0x442. -/
def State.readPartReg (s : State) (n : Nat) : Word :=
  let c := s.me
  let k := s.myCore
  let q := s.part s.myPart
  match n with
  | 0x380 => word (q.wdogInterval.toNat + q.wdogRemain.toNat * 2 ^ 32)
  | 0x381 => q.tolink
  | 0x382 => q.togroup
  | 0x383 => q.topeer
  | 0x384 => s.health
  | 0x385 => q.preempt
  | 0x400 => k.ptroot
  | 0x401 => q.asidr
  | 0x403 => k.tinva
  | 0x404 => q.rvec
  | 0x405 => q.qos
  | 0x408 => c.tfstat
  | 0x409 => q.bell
  | 0x40A => q.belladr
  | 0x40B => q.stepctl
  | 0x440 => q.qtab
  | 0x441 => q.ttab
  | 0x442 => q.ttn
  | _ => 0

/-- A control register as the executing context reads it. -/
def State.readCR (s : State) (n : Nat) : Word :=
  if n < 0x100 then s.readCtxReg n else if n < 0x380 then s.readLowReg n else s.readPartReg n

/-- Whether vector work of the executing context is outstanding. -/
def State.vectorOut (s : State) : Bool :=
  let i := s.cur
  s.myCore.queue.any (fun e => e.ctx == i.ctx && (match e.op with | .vector _ => true | _ => false))
    || (s.cluster (clusterOf i.core)).lanes.any fun l => l.2.core == i.core && l.2.ctx == i.ctx

/-- The wait of a read of VSTAT (R115); the other registers of R115 are changed by instructions that have completed when they
commit. -/
def State.crWait (s : State) (n : Nat) : Except Stop Unit := if n = 0x1C0 && s.vectorOut then waitRetry s else .ok ()

/-! ## Writing -/

/-- A value with only the bits [lo+n-1:lo] of each range kept (R5). -/
def keepBits (v : Word) (l : List (Nat × Nat)) : Word := word (l.foldl (fun m e => m + bits v e.1 e.2 * 2 ^ e.1) 0)

/-- STATUS as a write leaves it: only PPRIV, AE and PAE change, and a PPRIV of 2 or 3 is stored as 1 (R114). -/
def statusWritten (old v : Word) : Word :=
  putBits (putBits (putBits old 2 2 (min 1 (bits v 2 2))) 4 1 (bits v 4 1)) 5 1 (bits v 5 1)

/-- TNOTE as a write leaves it: an ENG of 6 or 7 stores ARM as 0 (R267). -/
def noteWritten (v : Word) : Word :=
  let w := keepBits v [(0, 48), (48, 3), (56, 1)]
  if 6 ≤ bits v 48 3 then putBits w 56 1 0 else w

/-- VREP as a write leaves it (R138). -/
def vrepWritten (v : Word) : Word := keepBits v [(0, 6), (8, 4), (16, 5), (24, 3), (32, 1), (40, 6), (48, 4)]

/-- A slice group with its budget count set; 0 is no budget (R238). -/
def SliceGroup.allot (g : SliceGroup) (v : Word) : SliceGroup := { g with budget := v, budgetOn := v != 0, expired := false }

/-- The helper whose trap the executing control context handles (R20). -/
def State.handled (s : State) : CtxId := ⟨s.cur.core, s.me.hctx⟩

/-- The write of BUDGET: the executing context's own, and the count of a whole group (R238). No context of a slice group runs at S (R18): the
group is the one of the helper whose trap the writer handles, as STATUS.HCTX names it (DESIGN CHOICE, log entry 103). -/
def State.writeBudget (s : State) (v : Word) : State :=
  let t := if s.me.hctx = 0 then s else s.modGroup s.handled fun g => g.allot v
  t.modMe fun c => { c with budget := v }

/-- The state in which the 64 KiB of a step-mode core's undo log below an address become scratch again: what they held before is lost (R170),
so that they read as free bytes. -/
def State.freeLog (s : State) (top : Nat) : State :=
  { s with
    mem := s.mem.setBytes (top - 0x10000) ((List.range 0x10000).map fun i => Config.freeByte (s.freeIdx + i))
    freeIdx := s.freeIdx + 0x10000 }

/-- The write of LMSPLIT: the cache portion is written back and emptied, and the bytes that change their use read as zero (R172). In step mode
the undo log moves with the cache portion's lower end (R170). -/
def State.writeLmsplit (s : State) (v : Nat) : State :=
  let n := s.cur.core
  let s := s.emptyCache n
  let old := s.myCore.cacheBytes
  let s := s.modCore n fun c => { c with lmsplit := v % 4 }
  let new := s.myCore.cacheBytes
  let top := sramBase + n * 0x80000 + 0x80000
  let s := if s.stepMode n && new < old then s.freeLog (top - old) else s
  { s with mem := s.mem.filter fun c => !(top - max old new ≤ c.1 && c.1 < top - min old new) }

/-- The write of RNSCFG: RNSSTAT.LOC is cleared, and HEALTH follows (R159, R161, R362). -/
def State.writeRnscfg (s : State) (v : Word) : State :=
  (s.modCluster (clusterOf s.cur.core) fun c =>
    { c with rnscfg := v.setWidth 10, rnsstat := putBits c.rnsstat 48 10 0 }).updateHealth

/-- The write of WPAk or WPMk discards the pending match of watchpoint `k` (R207). -/
def State.writeWatch (s : State) (k : Nat) (f : Core → Core) : State :=
  s.modCore s.cur.core fun c =>
    let c := f c
    { c with wpHit := smErase c.wpHit k, wpEng := smErase c.wpEng k }

/-- The write of a slot register of the apprentice, by kind (R364). -/
def State.writeApx (s : State) (k kind : Nat) (v : Word) : State :=
  let cl := clusterOf s.cur.core
  let a := (s.cluster cl).apxSlot k
  match kind with
  | 0 => s.setApx cl k (a.configure v).2
  | 1 => s.setApx cl k { a with lim := keepBits v [(0, 32)] }
  | 2 => s.setApx cl k { a with mean := keepBits v [(0, 32)] }
  | 3 => s.setApx cl k { a with samp := keepBits v [(0, 48)] }
  | _ => s.setApx cl k { a with step := keepBits v [(0, 48)] }

/-- The write of WDOG (R354, R356): REMAIN ← INTERVAL, armed, with no progress event since. -/
def Partition.writeWdog (q : Partition) (v : Word) : Partition :=
  { q with wdogInterval := v.setWidth 32, wdogRemain := v.setWidth 32, wdogArmed := true, lastProgress := 0 }

/-- The write of PREEMPT: AT and ARM (R379). -/
def preemptWritten (v : Word) : Word := keepBits v [(0, 62), (63, 1)]

/-- Whether an ASID is granted to a partition (R273, R282). -/
def Partition.grants (q : Partition) (asid : Nat) : Bool := q.asids.1 ≤ asid && asid < q.asids.1 + q.asids.2

/-- The state with a partition register of the executing context's partition changed. -/
def State.modMyPart (s : State) (f : Partition → Partition) : State := s.modPart s.myPart f

/-- A write of a context register (0x000 to 0x00F). -/
def State.writeCtxReg (s : State) (n : Nat) (v : Word) : State :=
  match n with
  | 0x0 => s.modMe fun c => { c with status := statusWritten c.status v }
  | 0x1 => s.modMe fun c => { c with cause := keepBits v [(0, 13)] }
  | 0x2 => s.modMe fun c => { c with epc := v }
  | 0x3 => s.modMe fun c => { c with tval := v }
  | 0x4 => s.modMe fun c => { c with tvec := v }
  | 0x5 => s.modMe fun c => { c with uvec := v }
  | 0x6 => s.modMe fun c => { c with uepc := v }
  | 0x7 => s.modMe fun c => { c with scratch := v }
  | 0x9 => s.modMe fun c => { c with fpctl := keepBits v [(0, 2), (4, 5)] }
  | 0xC => s.writeBudget v
  | 0xD => s.modMe fun c => { c with deadline := v }
  | _ => s.modMe fun c => { c with slice := v }

/-- A write of a register of 0x100 to 0x2D3. -/
def State.writeLowReg (s : State) (n : Nat) (v : Word) : Except Stop State :=
  let core := s.cur.core
  match n with
  | 0x100 => .ok (s.writeLmsplit (bits v 0 2))
  | 0x101 => .ok (s.modMe fun c => { c with vback := keepBits v [(14, 41)] })
  | 0x102 => .ok (s.modCore core fun c => { c with vweight := max 1 (bits v 0 4) })
  | 0x104 => s.setMode (v.getLsbD 0)
  | 0x188 => .ok (s.modCore core fun c => { c with aslotmap := keepBits v [(0, 20)] })
  | 0x189 => .ok (s.writeRnscfg v)
  | 0x1C0 => .ok (s.modMe fun c => { c with vstat := keepBits v [(4, 5)] })
  | 0x1C1 => .ok (s.modMe fun c => { c with vrep := vrepWritten v })
  | 0x280 => .ok (s.modMe fun c => { c with tnote := noteWritten v })
  | n =>
    if n < 0x188 then s.configure (n - 0x180) v
    else if n < 0x204 then .ok (s.modMe fun c => { c with qscale := smSet c.qscale (n - 0x200) (v.setWidth 32) })
    else if n < 0x208 then
      .ok (s.writeWatch (n - 0x204) fun c => { c with wpa := smSet c.wpa (n - 0x204) (keepBits v [(0, 52)]) })
    else if n < 0x20C then
      .ok (s.writeWatch (n - 0x208) fun c => { c with wpm := smSet c.wpm (n - 0x208) (keepBits v [(0, 6), (8, 3), (15, 1)]) })
    else .ok (s.writeApx (n % 4) ((n - 0x2C0) / 4) v)

/-- Whether a write of TINV names identifiers of the partition (R273). -/
def Partition.tinvOk (q : Partition) (v : Word) : Bool :=
  let mode := bits v 0 2
  mode == 2 || (mode != 3 && q.grants (bits v 16 10))

/-- A write of a register of 0x380 to 0x442. Translations are not cached, so TINV drops nothing (R280, R281, log entry 22). -/
def State.writePartReg (s : State) (n : Nat) (v : Word) : Except Stop State :=
  let core := s.cur.core
  match n with
  | 0x380 => .ok (s.modMyPart fun q => q.writeWdog v)
  | 0x381 => .ok (s.modMyPart fun q => { q with tolink := keepBits v [(0, 32)] })
  | 0x382 => .ok (s.modMyPart fun q => { q with togroup := keepBits v [(0, 32)] })
  | 0x383 => .ok (s.modMyPart fun q => { q with topeer := keepBits v [(0, 32)], peerDown := [] })
  | 0x385 => .ok (s.modMyPart fun q => { q with preempt := preemptWritten v })
  | 0x400 =>
    if (s.part s.myPart).grants (bits v 0 10) then .ok (s.modCore core fun c => { c with ptroot := storedPtroot v })
    else trapPrivilege s
  | 0x402 => if (s.part s.myPart).tinvOk v then .ok s else trapPrivilege s
  | 0x403 => .ok (s.modCore core fun c => { c with tinva := keepBits v [(16, 39)] })
  | 0x404 => .ok (s.modMyPart fun q => { q with rvec := storedRvec v })
  | 0x406 => .ok (s.modMyPart fun q => { q with msix := q.msix ++ [bits v 0 5] })
  | 0x40A => .ok (s.modMyPart fun q => { q with belladr := keepBits v [(5, 47)] })
  | 0x440 => .ok (s.writeQtab s.myPart v)
  | 0x441 => .ok (s.modMyPart fun q => { q with ttab := keepBits v [(5, 50)] })
  | 0x442 => .ok (s.modMyPart fun q => { q with ttn := keepBits v [(0, 17)] })
  | _ => .ok s

/-- A control register written by the executing context. -/
def State.writeCR (s : State) (n : Nat) (v : Word) : Except Stop State :=
  if n < 0x100 then .ok (s.writeCtxReg n v) else if n < 0x380 then s.writeLowReg n v else s.writePartReg n v

/-- What a write starts once its instruction has completed: the checkpoints of a MODE write (R396), a gang switch that PREEMPT starts at
once (R392), a partition reset (R287), a ring (R379), a rollback (R397). -/
def State.afterWrite (s : State) (n : Nat) (v : Word) : State :=
  let p := s.myPart
  match n with
  | 0x104 => if (s.part p).mode then s.takeCheckpoints p else s
  | 0x385 => if s.preemptDue p then s.startSwitch p s.freeArea else s
  | 0x407 => if v.getLsbD 0 then s.resetPartition p else s
  | 0x409 => if v.getLsbD 0 then s.ring p 1 else s
  | 0x40B => if v.getLsbD 0 then s.pushMove (.event (.rollback p)) else s
  | _ => s

/-! ## The instructions (R114) -/

/-- The value that a write forms from the old value and xa (R114). -/
def formed (w : WrKind) (old a : Word) : Word :=
  match w with
  | .wr => a
  | .set => old ||| a
  | .clr => old &&& ~~~a

/-- `syswr`, `sysset` and `sysclr` (R114): the old value goes to xd. -/
def State.sysWrite (s : State) (w : WrKind) (d a n : Nat) : Host.Outcome State Fault Refusal :=
  finish s (do
    s.destX d
    s.crCheck n true
    s.crWait n
    let old := s.readCR n
    let v := formed w old (s.x a)
    let t ← s.writeCR n v
    .ok ((t.setX d old).advance.afterWrite n v))

/-- `sysrd` (R114). -/
def execSysrd (d c : Nat) (s : State) : Host.Outcome State Fault Refusal :=
  finish s (do
    s.destX d
    s.crCheck c false
    s.crWait c
    .ok (s.setX d (s.readCR c)).advance)

/-- `syswr` (R114). -/
def execSyswr (d a c : Nat) (s : State) : Host.Outcome State Fault Refusal := s.sysWrite .wr d a c
/-- `sysset` (R114). -/
def execSysset (d a c : Nat) (s : State) : Host.Outcome State Fault Refusal := s.sysWrite .set d a c
/-- `sysclr` (R114). -/
def execSysclr (d a c : Nat) (s : State) : Host.Outcome State Fault Refusal := s.sysWrite .clr d a c

/-! ## Writes with an effect of their own: each is the write of its register by the executing context -/

/-- A write of TNOTE (R267). -/
def execTnoteWrite (w : WrKind) (d a : Nat) (s : State) : Host.Outcome State Fault Refusal := s.sysWrite w d a 0x280
/-- A write of BUDGET (R238). -/
def execBudgetWrite (w : WrKind) (d a : Nat) (s : State) : Host.Outcome State Fault Refusal := s.sysWrite w d a 0x00C
/-- A write of MODE (R31). -/
def execModeWrite (w : WrKind) (d a : Nat) (s : State) : Host.Outcome State Fault Refusal := s.sysWrite w d a 0x104
/-- A write of QTAB that enables the queues (R225). -/
def execQtabEnable (w : WrKind) (d a : Nat) (s : State) : Host.Outcome State Fault Refusal := s.sysWrite w d a 0x440
/-- A write of QTAB that disables the queues (R225). -/
def execQtabDisable (w : WrKind) (d a : Nat) (s : State) : Host.Outcome State Fault Refusal := s.sysWrite w d a 0x440
/-- A write of LMSPLIT (R172). -/
def execLmsplitWrite (w : WrKind) (d a : Nat) (s : State) : Host.Outcome State Fault Refusal := s.sysWrite w d a 0x100
/-- A write of TSHn (R91). -/
def execTshWrite (w : WrKind) (n d a : Nat) (s : State) : Host.Outcome State Fault Refusal := s.sysWrite w d a (0x180 + n % 8)
/-- A write of RNSCFG (R159). -/
def execRnscfgWrite (w : WrKind) (d a : Nat) (s : State) : Host.Outcome State Fault Refusal := s.sysWrite w d a 0x189
/-- A write of AXCTLk (R364). -/
def execAxctlWrite (w : WrKind) (k d a : Nat) (s : State) : Host.Outcome State Fault Refusal := s.sysWrite w d a (0x2C0 + k % 4)
/-- A write of a watch register: WPA0 to WPA3, then WPM0 to WPM3 (R206, R207). -/
def execWatchRegisterWrite (w : WrKind) (n d a : Nat) (s : State) : Host.Outcome State Fault Refusal :=
  s.sysWrite w d a (0x204 + n % 8)
/-- A write of PTROOT (R273). -/
def execPtrootWrite (w : WrKind) (d a : Nat) (s : State) : Host.Outcome State Fault Refusal := s.sysWrite w d a 0x400
/-- A write of TINV with mode 0 (R281). -/
def execTinvPage (w : WrKind) (d a : Nat) (s : State) : Host.Outcome State Fault Refusal := s.sysWrite w d a 0x402
/-- A write of TINV with mode 1 (R281). -/
def execTinvAsid (w : WrKind) (d a : Nat) (s : State) : Host.Outcome State Fault Refusal := s.sysWrite w d a 0x402
/-- A write of TINV with mode 2 (R281). -/
def execTinvPartition (w : WrKind) (d a : Nat) (s : State) : Host.Outcome State Fault Refusal := s.sysWrite w d a 0x402
/-- A write of HINT (R286). -/
def execHintWrite (w : WrKind) (d a : Nat) (s : State) : Host.Outcome State Fault Refusal := s.sysWrite w d a 0x406
/-- A write of PRST (R287). -/
def execPrstGo (w : WrKind) (d a : Nat) (s : State) : Host.Outcome State Fault Refusal := s.sysWrite w d a 0x407
/-- A write of BELL (R379). -/
def execBellRing (w : WrKind) (d a : Nat) (s : State) : Host.Outcome State Fault Refusal := s.sysWrite w d a 0x409
/-- A write of STEPCTL (R397). -/
def execStepctlRoll (w : WrKind) (d a : Nat) (s : State) : Host.Outcome State Fault Refusal := s.sysWrite w d a 0x40B
/-- A write of PREEMPT (R392). -/
def execPreemptWrite (w : WrKind) (d a : Nat) (s : State) : Host.Outcome State Fault Refusal := s.sysWrite w d a 0x385
/-- A write of WDOG (R356). -/
def execWdogWrite (w : WrKind) (d a : Nat) (s : State) : Host.Outcome State Fault Refusal := s.sysWrite w d a 0x380
/-- A write of TOPEER (R357). -/
def execTopeerWrite (w : WrKind) (d a : Nat) (s : State) : Host.Outcome State Fault Refusal := s.sysWrite w d a 0x383

end Sys2Proof.Machine
end

