-- ==== Sys2Proof/Machine/Vector.lean ====
section
/-! DEFINITION. Vector arithmetic, logic and select (R126). -/

namespace Sys2Proof.Machine

open Sys2Proof

/-- An integer element operation (R126): `f` gives the exact result of a and b, read by the type; Finish wraps or saturates it. -/
def State.intArith (s : State) (m : Bool) (d a b p : Nat) (c : Bool) (t : T8) (f : Int → Int → Int) :
    Host.Outcome State Fault Refusal :=
  let w := T8.bytes t
  let q := s.prefixOf
  finish s (s.elementwise d a (s.vbOf m b) p c w (State.srcInt m b (s.stag 2 b) w) fun x y _ =>
    (finishInt (T8.isSigned t) (8 * w) q (f (readInt (T8.isSigned t) (8 * w) x) (readInt (T8.isSigned t) (8 * w) y)), 0))

/-- An integer element operation on codes without modifiers (R126). -/
def State.intCode (s : State) (m : Bool) (d a b p : Nat) (c : Bool) (t : T8) (f : Int → Int → Int) :
    Host.Outcome State Fault Refusal :=
  let w := T8.bytes t
  finish s (s.elementwise d a (s.vbOf m b) p c w (State.srcInt m b (s.stag 2 b) w) fun x y _ =>
    (wrapInt (8 * w) (f (readInt (T8.isSigned t) (8 * w) x) (readInt (T8.isSigned t) (8 * w) y)), 0))

/-- A byte operation (R126). -/
def State.byteLogic (s : State) (m : Bool) (d a b p : Nat) (c : Bool) (f : Nat → Nat → Nat) : Host.Outcome State Fault Refusal :=
  finish s (s.elementwise d a (s.vbOf m b) p c 1 (State.srcBytes m b (s.stag 2 b)) fun x y _ => (f x y, 0))

/-- An FP element operation (R126): `f` gives the exact result of a, b and the old d; Finish rounds it with FPCTL.RM. -/
def State.fpArith (s : State) (m : Bool) (d a b p : Nat) (c : Bool) (t : FTy) (f : Num → Num → Num → Num × Flags) :
    Host.Outcome State Fault Refusal :=
  let w := FTy.bits t / 8
  let ft := FTy.fmt t
  let rm := s.rm
  let q := s.prefixOf
  finish s (s.elementwise d a (s.vbOf m b) p c w (State.srcFp m b (s.stag 2 b) w) fun x y z =>
    finishWith ft rm q (f (decodeFp ft x) (decodeFp ft y) (decodeFp ft z)))

/-- An FP element operation on one source (R126). -/
def State.fpUnary (s : State) (d a p : Nat) (c : Bool) (t : FTy) (f : Num → Num × Flags) : Host.Outcome State Fault Refusal :=
  let w := FTy.bits t / 8
  let ft := FTy.fmt t
  let rm := s.rm
  finish s (s.elementwise d a none p c w (fun s => vElems (8 * w) (s.vdata (s.stag 1 a))) fun x _ _ =>
    roundWith ft rm (f (decodeFp ft x)))

/-- `vadd` on integers (R126). -/
def execVaddInt (m : Bool) (d a b p : Nat) (c : Bool) (t : T8) (s : State) : Host.Outcome State Fault Refusal :=
  s.intArith m d a b p c t (· + ·)

/-- `vsub` on integers (R126). -/
def execVsubInt (m : Bool) (d a b p : Nat) (c : Bool) (t : T8) (s : State) : Host.Outcome State Fault Refusal :=
  s.intArith m d a b p c t (· - ·)

/-- `vmul` on integers (R126). -/
def execVmulInt (m : Bool) (d a b p : Nat) (c : Bool) (t : T8) (s : State) : Host.Outcome State Fault Refusal :=
  s.intArith m d a b p c t (· * ·)

/-- `vmulh` (R126): the high half of the product. -/
def execVmulh (m : Bool) (d a b p : Nat) (c : Bool) (t : T8) (s : State) : Host.Outcome State Fault Refusal :=
  s.intCode m d a b p c t fun x y => x * y / 2 ^ (8 * T8.bytes t)

/-- `vmin` on integers (R126). -/
def execVminInt (m : Bool) (d a b p : Nat) (c : Bool) (t : T8) (s : State) : Host.Outcome State Fault Refusal :=
  s.intCode m d a b p c t min

/-- `vmax` on integers (R126). -/
def execVmaxInt (m : Bool) (d a b p : Nat) (c : Bool) (t : T8) (s : State) : Host.Outcome State Fault Refusal :=
  s.intCode m d a b p c t max

/-- `vshl` (R126): the shift amount is the low bits of b. -/
def execVshl (m : Bool) (d a b p : Nat) (c : Bool) (t : T8) (s : State) : Host.Outcome State Fault Refusal :=
  s.intCode m d a b p c t fun x y => x * 2 ^ (y % (8 * T8.bytes t : Nat)).toNat

/-- `vshr` (R126): arithmetic for i types, logical for n types. -/
def execVshr (m : Bool) (d a b p : Nat) (c : Bool) (t : T8) (s : State) : Host.Outcome State Fault Refusal :=
  s.intCode m d a b p c t fun x y => x / 2 ^ (y % (8 * T8.bytes t : Nat)).toNat

/-- `vand` (R126). -/
def execVand (m : Bool) (d a b p : Nat) (c : Bool) (s : State) : Host.Outcome State Fault Refusal :=
  s.byteLogic m d a b p c fun x y => x &&& y

/-- `vor` (R126). -/
def execVor (m : Bool) (d a b p : Nat) (c : Bool) (s : State) : Host.Outcome State Fault Refusal :=
  s.byteLogic m d a b p c fun x y => x ||| y

/-- `vxor` (R126). -/
def execVxor (m : Bool) (d a b p : Nat) (c : Bool) (s : State) : Host.Outcome State Fault Refusal :=
  s.byteLogic m d a b p c fun x y => x ^^^ y

/-- `vandn` (R126). -/
def execVandn (m : Bool) (d a b p : Nat) (c : Bool) (s : State) : Host.Outcome State Fault Refusal :=
  s.byteLogic m d a b p c fun x y => x &&& (255 - y)

/-- The bytes that `vsel` chooses from byte `i` on (R126). -/
def selectBytes (act : Nat → Bool) : Nat → List Nat → List Nat → List Nat
  | i, a :: as, b :: bs => (if act i then a else b) :: selectBytes act (i + 1) as bs
  | _, _, _ => []

/-- `vsel` (R126): every byte lane is written, a where active and b elsewhere. -/
def execVsel (m : Bool) (d a b p : Nat) (c : Bool) (s : State) : Host.Outcome State Fault Refusal :=
  let vd := s.stag 0 d
  let va := s.stag 1 a
  finish s (s.vecBody (va :: (s.vbOf m b).toList) [vd] [p] [] fun s' =>
    (s'.setV vd (vJoin 8 (selectBytes (s'.active p c) 0 (vElems 8 (s'.vdata va)) (State.srcBytes m b (s.stag 2 b) s'))) none, 0))

/-- `vadd` on FP elements (R126). -/
def execVaddFp (m : Bool) (d a b p : Nat) (c : Bool) (t : FTy) (s : State) : Host.Outcome State Fault Refusal :=
  s.fpArith m d a b p c t fun x y _ => addExact s.rm x y

/-- `vsub` on FP elements (R126). -/
def execVsubFp (m : Bool) (d a b p : Nat) (c : Bool) (t : FTy) (s : State) : Host.Outcome State Fault Refusal :=
  s.fpArith m d a b p c t fun x y _ => subExact s.rm x y

/-- `vmul` on FP elements (R126). -/
def execVmulFp (m : Bool) (d a b p : Nat) (c : Bool) (t : FTy) (s : State) : Host.Outcome State Fault Refusal :=
  s.fpArith m d a b p c t fun x y _ => x.mul y

/-- `vfma` (R126). -/
def execVfma (m : Bool) (d a b p : Nat) (c : Bool) (t : FTy) (s : State) : Host.Outcome State Fault Refusal :=
  s.fpArith m d a b p c t fun x y z => fmaExact s.rm z x y

/-- `vfnma` (R126). -/
def execVfnma (m : Bool) (d a b p : Nat) (c : Bool) (t : FTy) (s : State) : Host.Outcome State Fault Refusal :=
  s.fpArith m d a b p c t fun x y z => fnmaExact s.rm z x y

/-- `vmin` on FP elements (R126). -/
def execVminFp (m : Bool) (d a b p : Nat) (c : Bool) (t : FTy) (s : State) : Host.Outcome State Fault Refusal :=
  s.fpArith m d a b p c t fun x y _ => minExact x y

/-- `vmax` on FP elements (R126). -/
def execVmaxFp (m : Bool) (d a b p : Nat) (c : Bool) (t : FTy) (s : State) : Host.Outcome State Fault Refusal :=
  s.fpArith m d a b p c t fun x y _ => maxExact x y

/-- `vabs` (R126). -/
def execVabs (d a p : Nat) (c : Bool) (t : FTy) (s : State) : Host.Outcome State Fault Refusal :=
  s.fpUnary d a p c t absExact

/-- `vneg` (R126). -/
def execVneg (d a p : Nat) (c : Bool) (t : FTy) (s : State) : Host.Outcome State Fault Refusal :=
  s.fpUnary d a p c t negExact

end Sys2Proof.Machine
end

