-- ==== Sys2Proof/Machine/Prefixed.lean ====
section
/-! DEFINITION. A modifier prefix with its word, words that are no instruction, and the memory instruction at the head of an engine
queue carried out by the memory system (R23, R49, R50, R53, R202). -/

namespace Sys2Proof.Machine

open Sys2Proof

/-- An outcome with the modifiers of the pair forgotten. -/
def clearMods (o : Host.Outcome State Fault Refusal) : Host.Outcome State Fault Refusal :=
  match o with
  | .next s => .next { s with mods := none }
  | o => o

/-- A prefix and its word (R50): the instruction with its result modified; any instruction that takes no prefix, or not these
modifiers, traps ILLEGAL with the prefix in TVAL (R53). -/
def execPrefixed (q : Prefix) (i : Instr) (s : State) : Host.Outcome State Fault Refusal :=
  let t : State := { s with mods := some q }
  if !takesPrefix q i then finish s (trapIllegal s)
  else
    match i with
    | .vaddInt m d a b p c y => clearMods (execVaddInt m d a b p c y t)
    | .vsubInt m d a b p c y => clearMods (execVsubInt m d a b p c y t)
    | .vmulInt m d a b p c y => clearMods (execVmulInt m d a b p c y t)
    | .vaddFp m d a b p c y => clearMods (execVaddFp m d a b p c y t)
    | .vsubFp m d a b p c y => clearMods (execVsubFp m d a b p c y t)
    | .vmulFp m d a b p c y => clearMods (execVmulFp m d a b p c y t)
    | .vfma m d a b p c y => clearMods (execVfma m d a b p c y t)
    | .vfnma m d a b p c y => clearMods (execVfnma m d a b p c y t)
    | .vcvt d a p c k up => clearMods (execVcvt d a p c k up t)
    | .vexp2 d a p c => clearMods (execVexp2 d a p c t)
    | .vlog2 d a p c => clearMods (execVlog2 d a p c t)
    | .adrain c u v z f => clearMods (execAdrain c u v z f t)
    | .vcvtFb d a fb4 up => clearMods (execVcvtFb d a fb4 up t)
    | .vmxcvt d a up => clearMods (execVmxcvt d a up t)
    | .vaddFb d a b fb4 => clearMods (execVaddFb d a b fb4 t)
    | .vsubFb d a b fb4 => clearMods (execVsubFb d a b fb4 t)
    | .vmulFb d a b fb4 => clearMods (execVmulFb d a b fb4 t)
    | .vmulLg6 d a b p c => clearMods (execVmulLg6 d a b p c t)
    | _ => finish s (trapIllegal s)

/-- A word that is no instruction (R53): ILLEGAL with the word in TVAL. -/
def execIllegalInstruction (w : Nat) (s : State) : Host.Outcome State Fault Refusal :=
  finish s (trapWith .illegal (word (w % 2 ^ 32)))

/-- A queued memory instruction or drain carried out by the executing context (R23). -/
def State.runQueued (s : State) (op : QMem) : Host.Outcome State Fault Refusal :=
  match op with
  | .vld d a p c => execVld d a p c s
  | .vst d a p c => execVst d a p c s
  | .vgather d v b p c w => execVgather d v b p c w s
  | .vscatter d v b p c w => execVscatter d v b p c w s
  | .vtake d a => execVtake d a s
  | .vfill d a b => execVfill d a b s
  | .vlds d a => execVlds d a s
  | .vsts d a => execVsts d a s
  | .tld t a b => execTld t a b s
  | .tst t a b => execTst t a b s
  | .ttake t a => execTtake t a s
  | .tfill t a b => execTfill t a b s
  | .tlds t a => execTlds t a s
  | .tsts t a => execTsts t a s
  | .adrain c t v z f q => clearMods (execAdrain c t v z f { s with mods := q })
  | .adrainRns c t v q => execAdrainRns c t v q s
  | .adrainRnsW c t u v q => execAdrainRnsW c t u v q s
  | .vfence => execVfence s
  | .astat c v => execAstat c v s

/-- The context and the operation of the memory instruction at the head of a core's engine queue, where it may be carried out. -/
def State.queuedHead (s : State) (core : Nat) : Option (Nat × QMem) :=
  match (s.core core).queue with
  | ⟨k, .memory op _⟩ :: _ =>
    let c := s.ctx ⟨core, k⟩
    let paired := match s.groupOf ⟨core, k⟩ with | some g => g.pairCore.isSome && !g.mismatch | none => false
    if s.running core && c.life == .live && c.wait == .retry && !paired then some (k, op) else none
  | _ => none

/-- Every home that the memory instruction at the head of a core's engine queue addresses has answered: it commits or traps as
its context's instruction (R23, R202). -/
def execQueuedMemoryCompletion (core : Nat) (s : State) : Host.Outcome State Fault Refusal :=
  match s.queuedHead core with
  | none => .next s
  | some (k, op) =>
    let i : CtxId := ⟨core, k⟩
    let t : State := { (s.modCtx i fun c => { c with wait := .none }) with cur := i }
    match t.runQueued op with
    | .next u => .next { u with cur := s.cur }
    | o => o

end Sys2Proof.Machine
end

