-- ==== Sys2Proof/Machine/Scalar.lean ====
section
/-! DEFINITION. Integer register operations, immediates, `lih` and `adrp` (R100 to R103). -/

namespace Sys2Proof.Machine

open Sys2Proof

/-! ## The functions of R100 and R101 -/

/-- A truth as 0 or 1. -/
def truth (b : Bool) : Word := if b then 1 else 0

/-- Arithmetic shift right: the floor of S(a) / 2^sh. -/
def shiftRightSigned (a : Word) (sh : Nat) : Word := wordI (a.toInt / 2 ^ sh)

/-- Rotate left by sh below 64. -/
def rotateLeft (a : Word) (sh : Nat) : Word := if sh = 0 then a else a <<< sh ||| a >>> (64 - sh)

/-- Bits [127:64] of the signed product. -/
def mulHigh (a b : Word) : Word := wordI (a.toInt * b.toInt / 2 ^ 64)

/-- Bits [127:64] of the natural product. -/
def mulHighN (a b : Word) : Word := word (a.toNat * b.toNat / 2 ^ 64)

/-- Signed division (R101). -/
def divSigned (a b : Word) : Word := if b = 0 then -1 else wordI (a.toInt.tdiv b.toInt)

/-- Natural division (R101). -/
def divNatural (a b : Word) : Word := if b = 0 then -1 else word (a.toNat / b.toNat)

/-- Signed remainder (R101). -/
def remSigned (a b : Word) : Word := if b = 0 then a else wordI (a.toInt.tmod b.toInt)

/-- Natural remainder (R101). -/
def remNatural (a b : Word) : Word := if b = 0 then a else word (a.toNat % b.toNat)

/-- The number of leading zero bits. -/
def leadingZeros (a : Word) : Word := if a = 0 then 64 else word (63 - a.toNat.log2)

/-- The number of trailing zero bits. -/
def trailingZeros (a : Word) : Word := word (((List.range 64).find? a.getLsbD).getD 64)

/-- The number of one bits. -/
def popCount (a : Word) : Word := word ((List.range 64).filter a.getLsbD).length

/-- The eight bytes in reverse order. -/
def byteSwap (a : Word) : Word := word (bytesToNat (natToBytes 8 a.toNat).reverse)

/-- SignExtend of the low bits (R57). -/
def signExt (n : Nat) (a : Word) : Word := (a.setWidth n).signExtend 64

/-- ZeroExtend of the low bits (R57). -/
def zeroExt (n : Nat) (a : Word) : Word := (a.setWidth n).setWidth 64

/-- The shift amount of R100: bits [5:0]. -/
def shiftAmount (b : Word) : Nat := b.toNat % 64

/-! ## Register operations -/

/-- `add` (R100). -/
def execAdd (d a b : Nat) (s : State) : Host.Outcome State Fault Refusal := s.writeTo d (s.x a + s.x b)

/-- `sub` (R100). -/
def execSub (d a b : Nat) (s : State) : Host.Outcome State Fault Refusal := s.writeTo d (s.x a - s.x b)

/-- `and` (R100). -/
def execAnd (d a b : Nat) (s : State) : Host.Outcome State Fault Refusal := s.writeTo d (s.x a &&& s.x b)

/-- `or` (R100). -/
def execOr (d a b : Nat) (s : State) : Host.Outcome State Fault Refusal := s.writeTo d (s.x a ||| s.x b)

/-- `xor` (R100). -/
def execXor (d a b : Nat) (s : State) : Host.Outcome State Fault Refusal := s.writeTo d (s.x a ^^^ s.x b)

/-- `andn` (R100). -/
def execAndn (d a b : Nat) (s : State) : Host.Outcome State Fault Refusal := s.writeTo d (s.x a &&& ~~~s.x b)

/-- `sll` (R100). -/
def execSll (d a b : Nat) (s : State) : Host.Outcome State Fault Refusal := s.writeTo d (s.x a <<< shiftAmount (s.x b))

/-- `srl` (R100). -/
def execSrl (d a b : Nat) (s : State) : Host.Outcome State Fault Refusal := s.writeTo d (s.x a >>> shiftAmount (s.x b))

/-- `sra` (R100). -/
def execSra (d a b : Nat) (s : State) : Host.Outcome State Fault Refusal := s.writeTo d (shiftRightSigned (s.x a) (shiftAmount (s.x b)))

/-- `rol` (R100). -/
def execRol (d a b : Nat) (s : State) : Host.Outcome State Fault Refusal := s.writeTo d (rotateLeft (s.x a) (shiftAmount (s.x b)))

/-- `slt` (R100). -/
def execSlt (d a b : Nat) (s : State) : Host.Outcome State Fault Refusal := s.writeTo d (truth ((s.x a).slt (s.x b)))

/-- `sltn` (R100). -/
def execSltn (d a b : Nat) (s : State) : Host.Outcome State Fault Refusal := s.writeTo d (truth ((s.x a).ult (s.x b)))

/-- `seq` (R100). -/
def execSeq (d a b : Nat) (s : State) : Host.Outcome State Fault Refusal := s.writeTo d (truth (s.x a == s.x b))

/-- `sne` (R100). -/
def execSne (d a b : Nat) (s : State) : Host.Outcome State Fault Refusal := s.writeTo d (truth (s.x a != s.x b))

/-- `min` (R100). -/
def execMin (d a b : Nat) (s : State) : Host.Outcome State Fault Refusal := s.writeTo d (if (s.x a).slt (s.x b) then s.x a else s.x b)

/-- `max` (R100). -/
def execMax (d a b : Nat) (s : State) : Host.Outcome State Fault Refusal := s.writeTo d (if (s.x a).slt (s.x b) then s.x b else s.x a)

/-- `minn` (R100). -/
def execMinn (d a b : Nat) (s : State) : Host.Outcome State Fault Refusal := s.writeTo d (if (s.x a).ult (s.x b) then s.x a else s.x b)

/-- `maxn` (R100). -/
def execMaxn (d a b : Nat) (s : State) : Host.Outcome State Fault Refusal := s.writeTo d (if (s.x a).ult (s.x b) then s.x b else s.x a)

/-- `mul` (R100). -/
def execMul (d a b : Nat) (s : State) : Host.Outcome State Fault Refusal := s.writeTo d (s.x a * s.x b)

/-- `mulh` (R100). -/
def execMulh (d a b : Nat) (s : State) : Host.Outcome State Fault Refusal := s.writeTo d (mulHigh (s.x a) (s.x b))

/-- `mulhn` (R100). -/
def execMulhn (d a b : Nat) (s : State) : Host.Outcome State Fault Refusal := s.writeTo d (mulHighN (s.x a) (s.x b))

/-- `div` (R100, R101). -/
def execDiv (d a b : Nat) (s : State) : Host.Outcome State Fault Refusal := s.writeTo d (divSigned (s.x a) (s.x b))

/-- `divn` (R100, R101). -/
def execDivn (d a b : Nat) (s : State) : Host.Outcome State Fault Refusal := s.writeTo d (divNatural (s.x a) (s.x b))

/-- `rem` (R100, R101). -/
def execRem (d a b : Nat) (s : State) : Host.Outcome State Fault Refusal := s.writeTo d (remSigned (s.x a) (s.x b))

/-- `remn` (R100, R101). -/
def execRemn (d a b : Nat) (s : State) : Host.Outcome State Fault Refusal := s.writeTo d (remNatural (s.x a) (s.x b))

/-- `clz` (R100). -/
def execClz (d a : Nat) (s : State) : Host.Outcome State Fault Refusal := s.writeTo d (leadingZeros (s.x a))

/-- `ctz` (R100). -/
def execCtz (d a : Nat) (s : State) : Host.Outcome State Fault Refusal := s.writeTo d (trailingZeros (s.x a))

/-- `popc` (R100). -/
def execPopc (d a : Nat) (s : State) : Host.Outcome State Fault Refusal := s.writeTo d (popCount (s.x a))

/-- `bswap` (R100). -/
def execBswap (d a : Nat) (s : State) : Host.Outcome State Fault Refusal := s.writeTo d (byteSwap (s.x a))

/-- `sext.i8` (R100). -/
def execSextI8 (d a : Nat) (s : State) : Host.Outcome State Fault Refusal := s.writeTo d (signExt 8 (s.x a))

/-- `sext.i16` (R100). -/
def execSextI16 (d a : Nat) (s : State) : Host.Outcome State Fault Refusal := s.writeTo d (signExt 16 (s.x a))

/-- `sext.i32` (R100). -/
def execSextI32 (d a : Nat) (s : State) : Host.Outcome State Fault Refusal := s.writeTo d (signExt 32 (s.x a))

/-- `zext.n8` (R100). -/
def execZextN8 (d a : Nat) (s : State) : Host.Outcome State Fault Refusal := s.writeTo d (zeroExt 8 (s.x a))

/-- `zext.n16` (R100). -/
def execZextN16 (d a : Nat) (s : State) : Host.Outcome State Fault Refusal := s.writeTo d (zeroExt 16 (s.x a))

/-- `zext.n32` (R100). -/
def execZextN32 (d a : Nat) (s : State) : Host.Outcome State Fault Refusal := s.writeTo d (zeroExt 32 (s.x a))

/-! ## Immediates -/

/-- `addi` (R102). -/
def execAddi (d a : Nat) (i : Int) (s : State) : Host.Outcome State Fault Refusal := s.writeTo d (s.x a + wordI i)

/-- `andi` (R102). -/
def execAndi (d a : Nat) (i : Int) (s : State) : Host.Outcome State Fault Refusal := s.writeTo d (s.x a &&& wordI i)

/-- `ori` (R102). -/
def execOri (d a : Nat) (i : Int) (s : State) : Host.Outcome State Fault Refusal := s.writeTo d (s.x a ||| wordI i)

/-- `xori` (R102). -/
def execXori (d a : Nat) (i : Int) (s : State) : Host.Outcome State Fault Refusal := s.writeTo d (s.x a ^^^ wordI i)

/-- `slti` (R102). -/
def execSlti (d a : Nat) (i : Int) (s : State) : Host.Outcome State Fault Refusal := s.writeTo d (truth ((s.x a).slt (wordI i)))

/-- `sltni` (R102). -/
def execSltni (d a : Nat) (i : Int) (s : State) : Host.Outcome State Fault Refusal := s.writeTo d (truth ((s.x a).ult (wordI i)))

/-- `seqi` (R102). -/
def execSeqi (d a : Nat) (i : Int) (s : State) : Host.Outcome State Fault Refusal := s.writeTo d (truth (s.x a == wordI i))

/-- `slli` (R102). -/
def execSlli (d a n : Nat) (s : State) : Host.Outcome State Fault Refusal := s.writeTo d (s.x a <<< n)

/-- `srli` (R102). -/
def execSrli (d a n : Nat) (s : State) : Host.Outcome State Fault Refusal := s.writeTo d (s.x a >>> n)

/-- `srai` (R102). -/
def execSrai (d a n : Nat) (s : State) : Host.Outcome State Fault Refusal := s.writeTo d (shiftRightSigned (s.x a) n)

/-- `lih` (R103). -/
def execLih (d : Nat) (i : Int) (s : State) : Host.Outcome State Fault Refusal := s.writeTo d (wordI (i * 4096))

/-- `adrp` (R103). -/
def execAdrp (d : Nat) (i : Int) (s : State) : Host.Outcome State Fault Refusal := s.writeTo d (s.pc + wordI (i * 4))

end Sys2Proof.Machine
end

