-- ==== Sys2Proof/Machine/ScalarFp.lean ====
section
/-! DEFINITION. Scalar floating point (R120 to R122). -/

namespace Sys2Proof.Machine

open Sys2Proof

/-- The value of an f register read in a format (R87). -/
def State.fnum (s : State) (f : SFmt) (n : Nat) : Num := decodeFp (SFmt.fmt f) (s.f n).toNat

/-- An FP result written to an f register, zero above its width (R87), with its flags in FPCTL (R68). -/
def State.writeFp (s : State) (d : Nat) (r : Nat × Flags) : Host.Outcome State Fault Refusal :=
  .next (((s.raiseFp r.2).setF d (word r.1)).advance)

/-- An exact result rounded with FPCTL.RM and written (R66, R120). -/
def State.roundTo (s : State) (d : Nat) (f : SFmt) (x : Num × Flags) : Host.Outcome State Fault Refusal :=
  s.writeFp d (roundWith (SFmt.fmt f) s.rm x)

/-- A result for an x register with its flags in FPCTL (R68). -/
def State.writeXFp (s : State) (d : Nat) (v : Word) (fl : Flags) : Host.Outcome State Fault Refusal :=
  finish s (do s.destX d; .ok ((s.raiseFp fl).setX d v).advance)

/-- `fadd` (R120, R121). -/
def execFadd (d a b : Nat) (f : SFmt) (s : State) : Host.Outcome State Fault Refusal :=
  s.roundTo d f (addExact s.rm (s.fnum f a) (s.fnum f b))

/-- `fsub` (R120, R121). -/
def execFsub (d a b : Nat) (f : SFmt) (s : State) : Host.Outcome State Fault Refusal :=
  s.roundTo d f (subExact s.rm (s.fnum f a) (s.fnum f b))

/-- `fmul` (R120, R121). -/
def execFmul (d a b : Nat) (f : SFmt) (s : State) : Host.Outcome State Fault Refusal :=
  s.roundTo d f ((s.fnum f a).mul (s.fnum f b))

/-- `fdiv` (R120, R121). -/
def execFdiv (d a b : Nat) (f : SFmt) (s : State) : Host.Outcome State Fault Refusal :=
  s.roundTo d f ((s.fnum f a).div (s.fnum f b))

/-- `fmin` (R120, R121). -/
def execFmin (d a b : Nat) (f : SFmt) (s : State) : Host.Outcome State Fault Refusal :=
  s.roundTo d f (minExact (s.fnum f a) (s.fnum f b))

/-- `fmax` (R120, R121). -/
def execFmax (d a b : Nat) (f : SFmt) (s : State) : Host.Outcome State Fault Refusal :=
  s.roundTo d f (maxExact (s.fnum f a) (s.fnum f b))

/-- `fmac` (R120, R121). -/
def execFmac (d a b : Nat) (f : SFmt) (s : State) : Host.Outcome State Fault Refusal :=
  s.roundTo d f (fmaExact s.rm (s.fnum f d) (s.fnum f a) (s.fnum f b))

/-- `fnmac` (R120, R121). -/
def execFnmac (d a b : Nat) (f : SFmt) (s : State) : Host.Outcome State Fault Refusal :=
  s.roundTo d f (fnmaExact s.rm (s.fnum f d) (s.fnum f a) (s.fnum f b))

/-- `fsqrt` (R120). -/
def execFsqrt (d a : Nat) (f : SFmt) (s : State) : Host.Outcome State Fault Refusal :=
  s.roundTo d f (s.fnum f a).sqrt

/-- `fneg` (R120, R121). -/
def execFneg (d a : Nat) (f : SFmt) (s : State) : Host.Outcome State Fault Refusal :=
  s.roundTo d f (negExact (s.fnum f a))

/-- `fabs` (R120, R121). -/
def execFabs (d a : Nat) (f : SFmt) (s : State) : Host.Outcome State Fault Refusal :=
  s.roundTo d f (absExact (s.fnum f a))

/-- `feq` (R120, R121). -/
def execFeq (d a b : Nat) (f : SFmt) (s : State) : Host.Outcome State Fault Refusal :=
  let r := eqFlags (s.fnum f a) (s.fnum f b)
  s.writeXFp d (if r.1 then 1 else 0) r.2

/-- `flt` (R120, R121). -/
def execFlt (d a b : Nat) (f : SFmt) (s : State) : Host.Outcome State Fault Refusal :=
  let r := ltFlags (s.fnum f a) (s.fnum f b)
  s.writeXFp d (if r.1 then 1 else 0) r.2

/-- `fle` (R120, R121). -/
def execFle (d a b : Nat) (f : SFmt) (s : State) : Host.Outcome State Fault Refusal :=
  let r := leFlags (s.fnum f a) (s.fnum f b)
  s.writeXFp d (if r.1 then 1 else 0) r.2

/-- Whether an integer type of `fcvt` is signed. -/
def CvtInt.isSigned : CvtInt → Bool
  | .i64 => true | .i32 => true | .n64 => false | .n32 => false

/-- The width in bits of an integer type of `fcvt`. -/
def CvtInt.width : CvtInt → Nat
  | .i64 => 64 | .n64 => 64 | .i32 => 32 | .n32 => 32

/-- `fcvt` from FP to an integer type (R120, R122). -/
def execFcvtFpToInt (d a : Nat) (t : CvtInt) (f : SFmt) (s : State) : Host.Outcome State Fault Refusal :=
  let r := toIntType s.rm (CvtInt.isSigned t) (CvtInt.width t) (s.fnum f a)
  s.writeXFp d (wordI r.1) r.2

/-- `fcvt` from an integer type to FP (R120, R122). -/
def execFcvtIntToFp (d a : Nat) (t : CvtInt) (f : SFmt) (s : State) : Host.Outcome State Fault Refusal :=
  s.roundTo d f (.ofInt (readInt (CvtInt.isSigned t) (CvtInt.width t) (s.x a).toNat), 0)

/-- `fcvt` from format `y` to format `f` (R120, R122). -/
def execFcvtFpToFp (d a : Nat) (y f : SFmt) (s : State) : Host.Outcome State Fault Refusal :=
  s.roundTo d f (s.fnum y a, 0)

/-- `fmvx` (R120, R121): all 64 bits. -/
def execFmvx (d a : Nat) (s : State) : Host.Outcome State Fault Refusal :=
  s.writeTo d (s.f a)

/-- `fmvf` (R120, R121): all 64 bits. -/
def execFmvf (d a : Nat) (s : State) : Host.Outcome State Fault Refusal :=
  .next (s.setF d (s.x a)).advance

end Sys2Proof.Machine
end

