-- ==== Sys2Proof/Machine/Dispatch.lean ====
section
/-! DEFINITION. The dispatch: one arm for each operation, a direct call of its meaning. -/

namespace Sys2Proof.Machine

open Sys2Proof

/-- The meaning of each operation: its effect on the state in which it executes, or in which the event happens. -/
def exec (i : Instr) (s : State) : Host.Outcome State Fault Refusal :=
  match i with
  | .laneGroupBinding cl => Sys2Proof.Machine.execLaneGroupBinding cl s
  | .vectorCompletion cl lane => Sys2Proof.Machine.execVectorCompletion cl lane s
  | .matrixEngineBinding cl => Sys2Proof.Machine.execMatrixEngineBinding cl s
  | .matrixCompletion cl k => Sys2Proof.Machine.execMatrixCompletion cl k s
  | .cmemFault c m => Sys2Proof.Machine.execCmemFault c m s
  | .patienceExpiry c => Sys2Proof.Machine.execPatienceExpiry c s
  | .catchCommit c => Sys2Proof.Machine.execCatchCommit c s
  | .textFollow k => Sys2Proof.Machine.execTextFollow k s
  | .engineCommandBegin core e ticket => Sys2Proof.Machine.execEngineCommandBegin core e ticket s
  | .engineCommandCompletion core e ticket => Sys2Proof.Machine.execEngineCommandCompletion core e ticket s
  | .collectiveAbort core ticket => Sys2Proof.Machine.execCollectiveAbort core ticket s
  | .migrationSwitch k => Sys2Proof.Machine.execMigrationSwitch k s
  | .migrationCompletion k => Sys2Proof.Machine.execMigrationCompletion k s
  | .completionHandlerEntry core ctx => Sys2Proof.Machine.execCompletionHandlerEntry core ctx s
  | .tnoteWrite w d a => Sys2Proof.Machine.execTnoteWrite w d a s
  | .asyncTrapEntry core ctx => Sys2Proof.Machine.execAsyncTrapEntry core ctx s
  | .helperCauseTaken core ctx => Sys2Proof.Machine.execHelperCauseTaken core ctx s
  | .budgetExpiry core g => Sys2Proof.Machine.execBudgetExpiry core g s
  | .budgetWrite w d a => Sys2Proof.Machine.execBudgetWrite w d a s
  | .modeWrite w d a => Sys2Proof.Machine.execModeWrite w d a s
  | .sliceSelection core => Sys2Proof.Machine.execSliceSelection core s
  | .zeroSliceLaunch part q => Sys2Proof.Machine.execZeroSliceLaunch part q s
  | .sliceReexecution core g => Sys2Proof.Machine.execSliceReexecution core g s
  | .pairedRequestMatch k => Sys2Proof.Machine.execPairedRequestMatch k s
  | .pairTimeout k => Sys2Proof.Machine.execPairTimeout k s
  | .qtabEnable w d a => Sys2Proof.Machine.execQtabEnable w d a s
  | .qtabDisable w d a => Sys2Proof.Machine.execQtabDisable w d a s
  | .descriptorWriteback part q => Sys2Proof.Machine.execDescriptorWriteback part q s
  | .lmsplitWrite w d a => Sys2Proof.Machine.execLmsplitWrite w d a s
  | .tshWrite w n d a => Sys2Proof.Machine.execTshWrite w n d a s
  | .rnscfgWrite w d a => Sys2Proof.Machine.execRnscfgWrite w d a s
  | .axctlWrite w k d a => Sys2Proof.Machine.execAxctlWrite w k d a s
  | .watchRegisterWrite w n d a => Sys2Proof.Machine.execWatchRegisterWrite w n d a s
  | .ptrootWrite w d a => Sys2Proof.Machine.execPtrootWrite w d a s
  | .tinvPage w d a => Sys2Proof.Machine.execTinvPage w d a s
  | .tinvAsid w d a => Sys2Proof.Machine.execTinvAsid w d a s
  | .tinvPartition w d a => Sys2Proof.Machine.execTinvPartition w d a s
  | .hintWrite w d a => Sys2Proof.Machine.execHintWrite w d a s
  | .prstGo w d a => Sys2Proof.Machine.execPrstGo w d a s
  | .partitionReset part => Sys2Proof.Machine.execPartitionReset part s
  | .functionLevelReset part => Sys2Proof.Machine.execFunctionLevelReset part s
  | .bellRing w d a => Sys2Proof.Machine.execBellRing w d a s
  | .bellStop part => Sys2Proof.Machine.execBellStop part s
  | .stepctlRoll w d a => Sys2Proof.Machine.execStepctlRoll w d a s
  | .rollback part => Sys2Proof.Machine.execRollback part s
  | .preemptWrite w d a => Sys2Proof.Machine.execPreemptWrite w d a s
  | .preemptExpiry part => Sys2Proof.Machine.execPreemptExpiry part s
  | .gangSwitch part => Sys2Proof.Machine.execGangSwitch part s
  | .uncorrectableCoreError core k => Sys2Proof.Machine.execUncorrectableCoreError core k s
  | .hbmPageRetirement page corrected => Sys2Proof.Machine.execHbmPageRetirement page corrected s
  | .heatCounterIncrement page => Sys2Proof.Machine.execHeatCounterIncrement page s
  | .wdogWrite w d a => Sys2Proof.Machine.execWdogWrite w d a s
  | .watchdogExpiry part => Sys2Proof.Machine.execWatchdogExpiry part s
  | .topeerWrite w d a => Sys2Proof.Machine.execTopeerWrite w d a s
  | .linkTimeout part link => Sys2Proof.Machine.execLinkTimeout part link s
  | .groupTimeout part g => Sys2Proof.Machine.execGroupTimeout part g s
  | .peerTimeout part dev => Sys2Proof.Machine.execPeerTimeout part dev s
  | .linkRetrain link => Sys2Proof.Machine.execLinkRetrain link s
  | .remoteAccess dev x => Sys2Proof.Machine.execRemoteAccess dev x s
  | .hostAccess x => Sys2Proof.Machine.execHostAccess x s
  | .qcfgWrite part q reg v => Sys2Proof.Machine.execQcfgWrite part q reg v s
  | .sqdbWrite part q v => Sys2Proof.Machine.execSqdbWrite part q v s
  | .cqdbWrite part q v => Sys2Proof.Machine.execCqdbWrite part q v s
  | .nop part q => Sys2Proof.Machine.execNop part q s
  | .launch part q => Sys2Proof.Machine.execLaunch part q s
  | .publish part q => Sys2Proof.Machine.execPublish part q s
  | .signal part q => Sys2Proof.Machine.execSignal part q s
  | .hostCompletionWrite part q => Sys2Proof.Machine.execHostCompletionWrite part q s
  | .create x => Sys2Proof.Machine.execCreate x s
  | .destroy part => Sys2Proof.Machine.execDestroy part s
  | .switch part area => Sys2Proof.Machine.execSwitch part area s
  | .resume area col row => Sys2Proof.Machine.execResume area col row s
  | .bell part => Sys2Proof.Machine.execBell part s
  | .continue part => Sys2Proof.Machine.execContinue part s
  | .groups table => Sys2Proof.Machine.execGroups table s
  | .freeze => Sys2Proof.Machine.execFreeze s
  | .garfyReadout pa n => Sys2Proof.Machine.execGarfyReadout pa n s
  | .firmwareImageWrite image => Sys2Proof.Machine.execFirmwareImageWrite image s
  | .thermalTrip die => Sys2Proof.Machine.execThermalTrip die s
  | .powerLoss => Sys2Proof.Machine.execPowerLoss s
  | .bringUp => Sys2Proof.Machine.execBringUp s
  | .illegalInstruction w => Sys2Proof.Machine.execIllegalInstruction w s
  | .queuedMemoryCompletion core => Sys2Proof.Machine.execQueuedMemoryCompletion core s
  | .expanderLinkDown e => Sys2Proof.Machine.execExpanderLinkDown e s
  | .deviceReset => Sys2Proof.Machine.execDeviceReset s
  | .hbmCorrectedError page row => Sys2Proof.Machine.execHbmCorrectedError page row s
  | .add d a b => Sys2Proof.Machine.execAdd d a b s
  | .sub d a b => Sys2Proof.Machine.execSub d a b s
  | .and d a b => Sys2Proof.Machine.execAnd d a b s
  | .or d a b => Sys2Proof.Machine.execOr d a b s
  | .xor d a b => Sys2Proof.Machine.execXor d a b s
  | .andn d a b => Sys2Proof.Machine.execAndn d a b s
  | .sll d a b => Sys2Proof.Machine.execSll d a b s
  | .srl d a b => Sys2Proof.Machine.execSrl d a b s
  | .sra d a b => Sys2Proof.Machine.execSra d a b s
  | .rol d a b => Sys2Proof.Machine.execRol d a b s
  | .slt d a b => Sys2Proof.Machine.execSlt d a b s
  | .sltn d a b => Sys2Proof.Machine.execSltn d a b s
  | .seq d a b => Sys2Proof.Machine.execSeq d a b s
  | .sne d a b => Sys2Proof.Machine.execSne d a b s
  | .min d a b => Sys2Proof.Machine.execMin d a b s
  | .max d a b => Sys2Proof.Machine.execMax d a b s
  | .minn d a b => Sys2Proof.Machine.execMinn d a b s
  | .maxn d a b => Sys2Proof.Machine.execMaxn d a b s
  | .mul d a b => Sys2Proof.Machine.execMul d a b s
  | .mulh d a b => Sys2Proof.Machine.execMulh d a b s
  | .mulhn d a b => Sys2Proof.Machine.execMulhn d a b s
  | .div d a b => Sys2Proof.Machine.execDiv d a b s
  | .divn d a b => Sys2Proof.Machine.execDivn d a b s
  | .rem d a b => Sys2Proof.Machine.execRem d a b s
  | .remn d a b => Sys2Proof.Machine.execRemn d a b s
  | .clz d a => Sys2Proof.Machine.execClz d a s
  | .ctz d a => Sys2Proof.Machine.execCtz d a s
  | .popc d a => Sys2Proof.Machine.execPopc d a s
  | .bswap d a => Sys2Proof.Machine.execBswap d a s
  | .sextI8 d a => Sys2Proof.Machine.execSextI8 d a s
  | .sextI16 d a => Sys2Proof.Machine.execSextI16 d a s
  | .sextI32 d a => Sys2Proof.Machine.execSextI32 d a s
  | .zextN8 d a => Sys2Proof.Machine.execZextN8 d a s
  | .zextN16 d a => Sys2Proof.Machine.execZextN16 d a s
  | .zextN32 d a => Sys2Proof.Machine.execZextN32 d a s
  | .addi d a im => Sys2Proof.Machine.execAddi d a im s
  | .andi d a im => Sys2Proof.Machine.execAndi d a im s
  | .ori d a im => Sys2Proof.Machine.execOri d a im s
  | .xori d a im => Sys2Proof.Machine.execXori d a im s
  | .slti d a im => Sys2Proof.Machine.execSlti d a im s
  | .sltni d a im => Sys2Proof.Machine.execSltni d a im s
  | .seqi d a im => Sys2Proof.Machine.execSeqi d a im s
  | .slli d a sz => Sys2Proof.Machine.execSlli d a sz s
  | .srli d a sz => Sys2Proof.Machine.execSrli d a sz s
  | .srai d a sz => Sys2Proof.Machine.execSrai d a sz s
  | .lih d im => Sys2Proof.Machine.execLih d im s
  | .adrp d im => Sys2Proof.Machine.execAdrp d im s
  | .beq a b o => Sys2Proof.Machine.execBeq a b o s
  | .bne a b o => Sys2Proof.Machine.execBne a b o s
  | .blt a b o => Sys2Proof.Machine.execBlt a b o s
  | .bge a b o => Sys2Proof.Machine.execBge a b o s
  | .bltn a b o => Sys2Proof.Machine.execBltn a b o s
  | .bgen a b o => Sys2Proof.Machine.execBgen a b o s
  | .j o => Sys2Proof.Machine.execJ o s
  | .jl o => Sys2Proof.Machine.execJl o s
  | .jlr d a im => Sys2Proof.Machine.execJlr d a im s
  | .hstart d a b => Sys2Proof.Machine.execHstart d a b s
  | .hstartN d a b => Sys2Proof.Machine.execHstartN d a b s
  | .hexit => Sys2Proof.Machine.execHexit s
  | .gjoin g => Sys2Proof.Machine.execGjoin g s
  | .gleave g => Sys2Proof.Machine.execGleave g s
  | .gbar g b x => Sys2Proof.Machine.execGbar g b x s
  | .sstep => Sys2Proof.Machine.execSstep s
  | .svote d a => Sys2Proof.Machine.execSvote d a s
  | .sexit a => Sys2Proof.Machine.execSexit a s
  | .sysrd d c => Sys2Proof.Machine.execSysrd d c s
  | .syswr d a c => Sys2Proof.Machine.execSyswr d a c s
  | .sysset d a c => Sys2Proof.Machine.execSysset d a c s
  | .sysclr d a c => Sys2Proof.Machine.execSysclr d a c s
  | .tret => Sys2Proof.Machine.execTret s
  | .uret => Sys2Proof.Machine.execUret s
  | .svc im => Sys2Proof.Machine.execSvc im s
  | .brk im => Sys2Proof.Machine.execBrk im s
  | .yield => Sys2Proof.Machine.execYield s
  | .fadd d a b f => Sys2Proof.Machine.execFadd d a b f s
  | .fsub d a b f => Sys2Proof.Machine.execFsub d a b f s
  | .fmul d a b f => Sys2Proof.Machine.execFmul d a b f s
  | .fdiv d a b f => Sys2Proof.Machine.execFdiv d a b f s
  | .fsqrt d a f => Sys2Proof.Machine.execFsqrt d a f s
  | .fmin d a b f => Sys2Proof.Machine.execFmin d a b f s
  | .fmax d a b f => Sys2Proof.Machine.execFmax d a b f s
  | .fmac d a b f => Sys2Proof.Machine.execFmac d a b f s
  | .fnmac d a b f => Sys2Proof.Machine.execFnmac d a b f s
  | .fneg d a f => Sys2Proof.Machine.execFneg d a f s
  | .fabs d a f => Sys2Proof.Machine.execFabs d a f s
  | .feq d a b f => Sys2Proof.Machine.execFeq d a b f s
  | .flt d a b f => Sys2Proof.Machine.execFlt d a b f s
  | .fle d a b f => Sys2Proof.Machine.execFle d a b f s
  | .fcvtFpToInt d a t f => Sys2Proof.Machine.execFcvtFpToInt d a t f s
  | .fcvtIntToFp d a t f => Sys2Proof.Machine.execFcvtIntToFp d a t f s
  | .fcvtFpToFp d a sz f => Sys2Proof.Machine.execFcvtFpToFp d a sz f s
  | .fmvx d a => Sys2Proof.Machine.execFmvx d a s
  | .fmvf d a => Sys2Proof.Machine.execFmvf d a s
  | .ld d a sz im => Sys2Proof.Machine.execLd d a sz im s
  | .st b a sz im => Sys2Proof.Machine.execSt b a sz im s
  | .fld d a sz im => Sys2Proof.Machine.execFld d a sz im s
  | .fst b a sz im => Sys2Proof.Machine.execFst b a sz im s
  | .amoSwap d a b t => Sys2Proof.Machine.execAmoSwap d a b t s
  | .amoAdd d a b t => Sys2Proof.Machine.execAmoAdd d a b t s
  | .amoAnd d a b t => Sys2Proof.Machine.execAmoAnd d a b t s
  | .amoOr d a b t => Sys2Proof.Machine.execAmoOr d a b t s
  | .amoXor d a b t => Sys2Proof.Machine.execAmoXor d a b t s
  | .amoMin d a b t => Sys2Proof.Machine.execAmoMin d a b t s
  | .amoMax d a b t => Sys2Proof.Machine.execAmoMax d a b t s
  | .amoCas d a b t => Sys2Proof.Machine.execAmoCas d a b t s
  | .amoNib d a b => Sys2Proof.Machine.execAmoNib d a b s
  | .amoSadd0 d a b t => Sys2Proof.Machine.execAmoSadd0 d a b t s
  | .amoSadd1 d a b t => Sys2Proof.Machine.execAmoSadd1 d a b t s
  | .amoSadd2 d a b t => Sys2Proof.Machine.execAmoSadd2 d a b t s
  | .amoSadd3 d a b t => Sys2Proof.Machine.execAmoSadd3 d a b t s
  | .faddX a b t => Sys2Proof.Machine.execFaddX a b t s
  | .xaccRd d a t => Sys2Proof.Machine.execXaccRd d a t s
  | .ldTake d a sz im => Sys2Proof.Machine.execLdTake d a sz im s
  | .stFill x a n => Sys2Proof.Machine.execStFill x a n s
  | .rcClose b a => Sys2Proof.Machine.execRcClose b a s
  | .fence sz => Sys2Proof.Machine.execFence sz s
  | .fenceRel sz => Sys2Proof.Machine.execFenceRel sz s
  | .fenceAcq sz => Sys2Proof.Machine.execFenceAcq sz s
  | .lcClean a b => Sys2Proof.Machine.execLcClean a b s
  | .lcInv a b => Sys2Proof.Machine.execLcInv a b s
  | .lcFlush a b => Sys2Proof.Machine.execLcFlush a b s
  | .l2Evict d a b => Sys2Proof.Machine.execL2Evict d a b s
  | .vld d a p c => Sys2Proof.Machine.execVld d a p c s
  | .vst d a p c => Sys2Proof.Machine.execVst d a p c s
  | .vgather d v b p c w => Sys2Proof.Machine.execVgather d v b p c w s
  | .vscatter d v b p c w => Sys2Proof.Machine.execVscatter d v b p c w s
  | .vtake d a => Sys2Proof.Machine.execVtake d a s
  | .vfill d a b => Sys2Proof.Machine.execVfill d a b s
  | .vlds d a => Sys2Proof.Machine.execVlds d a s
  | .vsts d a => Sys2Proof.Machine.execVsts d a s
  | .prefixed q im => Sys2Proof.Machine.execPrefixed q im s
  | .vaddInt m d a b p c t => Sys2Proof.Machine.execVaddInt m d a b p c t s
  | .vsubInt m d a b p c t => Sys2Proof.Machine.execVsubInt m d a b p c t s
  | .vmulInt m d a b p c t => Sys2Proof.Machine.execVmulInt m d a b p c t s
  | .vmulh m d a b p c t => Sys2Proof.Machine.execVmulh m d a b p c t s
  | .vminInt m d a b p c t => Sys2Proof.Machine.execVminInt m d a b p c t s
  | .vmaxInt m d a b p c t => Sys2Proof.Machine.execVmaxInt m d a b p c t s
  | .vshl m d a b p c t => Sys2Proof.Machine.execVshl m d a b p c t s
  | .vshr m d a b p c t => Sys2Proof.Machine.execVshr m d a b p c t s
  | .vand m d a b p c => Sys2Proof.Machine.execVand m d a b p c s
  | .vor m d a b p c => Sys2Proof.Machine.execVor m d a b p c s
  | .vxor m d a b p c => Sys2Proof.Machine.execVxor m d a b p c s
  | .vandn m d a b p c => Sys2Proof.Machine.execVandn m d a b p c s
  | .vsel m d a b p c => Sys2Proof.Machine.execVsel m d a b p c s
  | .vaddFp m d a b p c t => Sys2Proof.Machine.execVaddFp m d a b p c t s
  | .vsubFp m d a b p c t => Sys2Proof.Machine.execVsubFp m d a b p c t s
  | .vmulFp m d a b p c t => Sys2Proof.Machine.execVmulFp m d a b p c t s
  | .vfma m d a b p c t => Sys2Proof.Machine.execVfma m d a b p c t s
  | .vfnma m d a b p c t => Sys2Proof.Machine.execVfnma m d a b p c t s
  | .vminFp m d a b p c t => Sys2Proof.Machine.execVminFp m d a b p c t s
  | .vmaxFp m d a b p c t => Sys2Proof.Machine.execVmaxFp m d a b p c t s
  | .vabs d a p c t => Sys2Proof.Machine.execVabs d a p c t s
  | .vneg d a p c t => Sys2Proof.Machine.execVneg d a p c t s
  | .vceqInt d a b p c t => Sys2Proof.Machine.execVceqInt d a b p c t s
  | .vcneInt d a b p c t => Sys2Proof.Machine.execVcneInt d a b p c t s
  | .vcltInt d a b p c t => Sys2Proof.Machine.execVcltInt d a b p c t s
  | .vcleInt d a b p c t => Sys2Proof.Machine.execVcleInt d a b p c t s
  | .vceqFp d a b p c t => Sys2Proof.Machine.execVceqFp d a b p c t s
  | .vcneFp d a b p c t => Sys2Proof.Machine.execVcneFp d a b p c t s
  | .vcltFp d a b p c t => Sys2Proof.Machine.execVcltFp d a b p c t s
  | .vcleFp d a b p c t => Sys2Proof.Machine.execVcleFp d a b p c t s
  | .vcun d a b p c t => Sys2Proof.Machine.execVcun d a b p c t s
  | .pand d a b p c => Sys2Proof.Machine.execPand d a b p c s
  | .por d a b p c => Sys2Proof.Machine.execPor d a b p c s
  | .pxor d a b p c => Sys2Proof.Machine.execPxor d a b p c s
  | .pandn d a b p c => Sys2Proof.Machine.execPandn d a b p c s
  | .pnot d a p c => Sys2Proof.Machine.execPnot d a p c s
  | .pcnt d a p c => Sys2Proof.Machine.execPcnt d a p c s
  | .pffs d a p c => Sys2Proof.Machine.execPffs d a p c s
  | .pmask d a p c => Sys2Proof.Machine.execPmask d a p c s
  | .vperm d a b p c t => Sys2Proof.Machine.execVperm d a b p c t s
  | .vcompress d a p c t => Sys2Proof.Machine.execVcompress d a p c t s
  | .vexpand d a p c t => Sys2Proof.Machine.execVexpand d a p c t s
  | .vredsumInt d a p c t => Sys2Proof.Machine.execVredsumInt d a p c t s
  | .vredminInt d a p c t => Sys2Proof.Machine.execVredminInt d a p c t s
  | .vredmaxInt d a p c t => Sys2Proof.Machine.execVredmaxInt d a p c t s
  | .vargmaxInt d a p c t => Sys2Proof.Machine.execVargmaxInt d a p c t s
  | .vargminInt d a p c t => Sys2Proof.Machine.execVargminInt d a p c t s
  | .vredsumFp d a p c t => Sys2Proof.Machine.execVredsumFp d a p c t s
  | .vredminFp d a p c t => Sys2Proof.Machine.execVredminFp d a p c t s
  | .vredmaxFp d a p c t => Sys2Proof.Machine.execVredmaxFp d a p c t s
  | .vargmaxFp d a p c t => Sys2Proof.Machine.execVargmaxFp d a p c t s
  | .vargminFp d a p c t => Sys2Proof.Machine.execVargminFp d a p c t s
  | .vcvt d a p c k up => Sys2Proof.Machine.execVcvt d a p c k up s
  | .vcvtFb d a fb4 up => Sys2Proof.Machine.execVcvtFb d a fb4 up s
  | .vmxcvt d a up => Sys2Proof.Machine.execVmxcvt d a up s
  | .vaddFb d a b fb4 => Sys2Proof.Machine.execVaddFb d a b fb4 s
  | .vsubFb d a b fb4 => Sys2Proof.Machine.execVsubFb d a b fb4 s
  | .vmulFb d a b fb4 => Sys2Proof.Machine.execVmulFb d a b fb4 s
  | .vmulLg6 d a b p c => Sys2Proof.Machine.execVmulLg6 d a b p c s
  | .vrcp d a p c => Sys2Proof.Machine.execVrcp d a p c s
  | .vrsq d a p c => Sys2Proof.Machine.execVrsq d a p c s
  | .vrcps d a b p c => Sys2Proof.Machine.execVrcps d a b p c s
  | .vrsqs d a b p c => Sys2Proof.Machine.execVrsqs d a b p c s
  | .vexp2 d a p c => Sys2Proof.Machine.execVexp2 d a p c s
  | .vlog2 d a p c => Sys2Proof.Machine.execVlog2 d a p c s
  | .vdupInt d b p c t => Sys2Proof.Machine.execVdupInt d b p c t s
  | .vdupFp d b p c t => Sys2Proof.Machine.execVdupFp d b p c t s
  | .vrep b => Sys2Proof.Machine.execVrep b s
  | .vbusy d => Sys2Proof.Machine.execVbusy d s
  | .vfence => Sys2Proof.Machine.execVfence s
  | .tcfg t a => Sys2Proof.Machine.execTcfg t a s
  | .tzero t => Sys2Proof.Machine.execTzero t s
  | .tld t a b => Sys2Proof.Machine.execTld t a b s
  | .tst t a b => Sys2Proof.Machine.execTst t a b s
  | .ttake t a => Sys2Proof.Machine.execTtake t a s
  | .tfill t a b => Sys2Proof.Machine.execTfill t a b s
  | .tlds t a => Sys2Proof.Machine.execTlds t a s
  | .tsts t a => Sys2Proof.Machine.execTsts t a s
  | .tmvr t v b => Sys2Proof.Machine.execTmvr t v b s
  | .tmvc t v b => Sys2Proof.Machine.execTmvc t v b s
  | .tgetr d t b => Sys2Proof.Machine.execTgetr d t b s
  | .tgetc d t b => Sys2Proof.Machine.execTgetc d t b s
  | .tmma c a b v sz n => Sys2Proof.Machine.execTmma c a b v sz n s
  | .tmmaSp c a b v sz n => Sys2Proof.Machine.execTmmaSp c a b v sz n s
  | .adrain c t v z f => Sys2Proof.Machine.execAdrain c t v z f s
  | .aclear c v => Sys2Proof.Machine.execAclear c v s
  | .aclearRns c v => Sys2Proof.Machine.execAclearRns c v s
  | .aclaim c => Sys2Proof.Machine.execAclaim c s
  | .afree c => Sys2Proof.Machine.execAfree c s
  | .astat c v => Sys2Proof.Machine.execAstat c v s
  | .tmmaI8I8 c a b v => Sys2Proof.Machine.execTmmaI8I8 c a b v s
  | .tmmaRnsRns c a b v => Sys2Proof.Machine.execTmmaRnsRns c a b v s
  | .adrainRns c t v q => Sys2Proof.Machine.execAdrainRns c t v q s
  | .adrainRnsW c t u v q => Sys2Proof.Machine.execAdrainRnsW c t u v q s
  | .rnsfwd d a p c => Sys2Proof.Machine.execRnsfwd d a p c s
  | .rnsrev d a p c => Sys2Proof.Machine.execRnsrev d a p c s
  | .rnsrevSt d a p c => Sys2Proof.Machine.execRnsrevSt d a p c s
  | .rnsstat d a => Sys2Proof.Machine.execRnsstat d a s
  | .esetCopy k a => Sys2Proof.Machine.execEsetCopy k a s
  | .esetColl k a => Sys2Proof.Machine.execEsetColl k a s
  | .esetText k a => Sys2Proof.Machine.execEsetText k a s
  | .ecopy d a b o => Sys2Proof.Machine.execEcopy d a b o s
  | .egather d a b o => Sys2Proof.Machine.execEgather d a b o s
  | .escatter d a b o => Sys2Proof.Machine.execEscatter d a b o s
  | .ecopy2d d a b o => Sys2Proof.Machine.execEcopy2d d a b o s
  | .ecfill d a b o => Sys2Proof.Machine.execEcfill d a b o s
  | .emigrate d a b o => Sys2Proof.Machine.execEmigrate d a b o s
  | .callred d a b o => Sys2Proof.Machine.execCallred d a b o s
  | .callgat d a b o => Sys2Proof.Machine.execCallgat d a b o s
  | .credsc d a b o => Sys2Proof.Machine.execCredsc d a b o s
  | .cbcast d a b o => Sys2Proof.Machine.execCbcast d a b o s
  | .cabort d a o => Sys2Proof.Machine.execCabort d a o s
  | .qpub d a b o => Sys2Proof.Machine.execQpub d a b o s
  | .qclaim d a b o => Sys2Proof.Machine.execQclaim d a b o s
  | .qlaunch d a b o => Sys2Proof.Machine.execQlaunch d a b o s
  | .qsignal d a o => Sys2Proof.Machine.execQsignal d a o s
  | .xbind d a b o => Sys2Proof.Machine.execXbind d a b o s
  | .xfollow d a b o => Sys2Proof.Machine.execXfollow d a b o s
  | .xtok d a b o => Sys2Proof.Machine.execXtok d a b o s
  | .xdetok d a b o => Sys2Proof.Machine.execXdetok d a b o s
  | .xmask d a b o => Sys2Proof.Machine.execXmask d a b o s
  | .twait e a => Sys2Proof.Machine.execTwait e a s
  | .tget e d => Sys2Proof.Machine.execTget e d s
  | .tgetE e d => Sys2Proof.Machine.execTgetE e d s
  | .tgetA e d => Sys2Proof.Machine.execTgetA e d s
  | .tnote e a => Sys2Proof.Machine.execTnote e a s
  | .apxBegin d a b => Sys2Proof.Machine.execApxBegin d a b s
  | .apxEnd d a => Sys2Proof.Machine.execApxEnd d a s
  | .apxCfg d a b => Sys2Proof.Machine.execApxCfg d a b s
  | .apxInv d a => Sys2Proof.Machine.execApxInv d a s
  | .apxStat d a => Sys2Proof.Machine.execApxStat d a s
  | .apxLoad d a b o => Sys2Proof.Machine.execApxLoad d a b o s
  | .apxSave d a b o => Sys2Proof.Machine.execApxSave d a b o s
  | .ccfg d a b o => Sys2Proof.Machine.execCcfg d a b o s
  | .crejoin d a o => Sys2Proof.Machine.execCrejoin d a o s
  | .cmrd d a => Sys2Proof.Machine.execCmrd d a s
  | .cmwr d a b => Sys2Proof.Machine.execCmwr d a b s
  | .cstat d => Sys2Proof.Machine.execCstat d s
  | .catch d a b => Sys2Proof.Machine.execCatch d a b s
  | .catchNv d a b => Sys2Proof.Machine.execCatchNv d a b s
  | .cwait d a b => Sys2Proof.Machine.execCwait d a b s
  | .nmax d a b => Sys2Proof.Machine.execNmax d a b s
  | .nsum d a b => Sys2Proof.Machine.execNsum d a b s
  | .nsumMax d a b => Sys2Proof.Machine.execNsumMax d a b s
  | .catchK d a b => Sys2Proof.Machine.execCatchK d a b s
  | .ccomb d a b p c => Sys2Proof.Machine.execCcomb d a b p c s
  | .gnoise d a b p c => Sys2Proof.Machine.execGnoise d a b p c s
  | .gnoiseU d b p c => Sys2Proof.Machine.execGnoiseU d b p c s

end Sys2Proof.Machine
end

