-- ==== Sys2Proof/Machine/Sched.lean ====
section
/-! DEFINITION. One move of the device: a context's fetch and what comes before it, an event, the passing of time, and the schedule that is
followed where none is laid down (R20, R22, R43, R50, R53, R54, R119, R182, R238, R242, R268, R317, R353, R356, R384, R386, R392, R403). -/

namespace Sys2Proof.Machine

open Sys2Proof

/-! ## Fetch (R43, R50, R276) -/

/-- Why a fetch fails, at the address of a word: a translation fault, an address or a home that it cannot reach, or data that cannot be
read. -/
inductive FetchErr
  | xlat (f : XFault)
  | refused (va : Nat)
  | data (va : Nat)
  deriving DecidableEq, Repr

/-- The trap of a failed fetch (R50, R278). A fetch beyond the scratch, from a device or an expander that is down, or at a full slice takes
FETCH_FAULT (log entry 96). -/
def FetchErr.trap : FetchErr → Trap
  | .xlat f => { cause := .fetchFault, tval := word f.va, tf := some (f.tfstat .fetch) }
  | .refused va => { cause := .fetchFault, tval := word va }
  | .data va => { cause := .uncorrectableData, tval := word va }

/-- The executing context as the requester of a fetch, which no cache portion serves and step mode does not change. -/
def State.fetchReq (s : State) : Req := { s.req with direct := true }

/-- The four bytes of the word at an address, read at their home, and the state after the access. -/
def State.fetchWord (s : State) (va : Nat) : Except FetchErr (List Byte × State) :=
  let rq := s.fetchReq
  match s.translate rq .fetch va with
  | .error f => .error (.xlat f)
  | .ok x =>
    if s.scratchBad rq x || s.unreachable rq x.pa then .error (.refused va)
    else if s.unreadable (x.pa / 128) then .error (.data va)
    else
      match s.visit rq .fetchFault [x] with
      | .error _ => .error (.refused va)
      | .ok t =>
        let odd := s.stray rq x
        let l := (List.range 4).map fun i => if odd then Config.strayByte (x.pa + i) s.freeIdx else t.byteFor rq (x.pa + i)
        .ok (l, (if odd || isRemote x.pa then t.drawn else t).heatAccess rq [x])

/-- The word that four bytes hold. -/
def wordAt (l : List Byte) : Nat := bytesToNat (l.take 4)

/-- The bytes of the instruction at the executing context's pc: one word, or two where the first is a prefix (R50), and the state after
the fetch. -/
def State.fetchBytes (s : State) : Except FetchErr (List Byte × State) :=
  match s.fetchWord s.me.pc.toNat with
  | .error e => .error e
  | .ok (l, t) =>
    if isPrefixWord (wordAt l) then
      match t.fetchWord (s.me.pc + 4).toNat with
      | .error e => .error e
      | .ok (m, t) => .ok (l ++ m, t)
    else .ok (l, t)

/-! ## Executing -/

/-- The double fault of a handler entry (R386): at UVEC, DOUBLE_FAULT at S with EPC and TVAL holding UVEC. -/
def State.doubleFaultU (s : State) : State :=
  let v := s.me.uvec
  let t := s.takeCause s.cur { cause := .doubleFault, tval := v } false none
  t.modCtx s.cur fun c => { c with epc := v, entering := if s.cur.ctx = 0 then some false else none }

/-- The double fault of a handler entry (R386): at TVEC, the context stops, the bell rings with cause 2, and the host is told. -/
def State.doubleFaultS (s : State) : State :=
  let s := s.modMe fun c => { c with life := .stopped }
  (s.ring s.myPart 2).report ⟨2, some s.myPart, bits s.me.cause 0 8, none⟩

/-- Whether the address that a handler entry went to is misaligned (R386). -/
def Ctx.badEntry (c : Ctx) : Bool :=
  match c.entering with
  | some false => c.tvec.toNat % 4 != 0
  | some true => c.uvec.toNat % 4 != 0
  | none => false

/-- A fetch that failed: a double fault at a handler's entry, and otherwise the trap (R54, R386). -/
def State.fetchFailed (s : State) (e : FetchErr) : State :=
  match s.me.entering with
  | some false => s.doubleFaultS
  | some true => s.doubleFaultU
  | none => s.takeTrap e.trap

/-- The instruction that bytes decode to; a word that is none traps ILLEGAL (R53). -/
noncomputable def instrOf (l : List Byte) : Instr :=
  match decode l with
  | some (i, _) => i
  | none => .illegalInstruction (wordAt l)

/-- The executing context performs an instruction, or waits at its home's router for the other copy of its request (R242). -/
def State.perform (s : State) (i : Instr) : Host.Outcome State Fault Refusal :=
  match s.holdPaired i with
  | some t => .next t
  | none =>
    if s.replyPending then .next (s.modMe fun c => { c with wait := .retry }) else
    match exec i s with
    | .next t => .next (if s.me.pairReply then s.keepReply t s.cur else if s.me.pairGo then s.endPaired t s.cur else t)
    | o => o

/-- The state in which the executing context performs the instruction whose bytes it has fetched. -/
def State.fetched (s : State) (l : List Byte) : State :=
  { (s.modMe fun c => { c with entering := none }) with insn := BitVec.ofNat 32 (wordAt l) }

/-- The executing context's fetch and instruction. -/
noncomputable def State.fetchRun (s : State) : Host.Outcome State Fault Refusal :=
  if s.me.badEntry then .next (if s.me.entering = some false then s.doubleFaultS else s.doubleFaultU)
  else
    match s.fetchBytes with
    | .error e => .next (s.fetchFailed e)
    | .ok (l, t) => (t.fetched l).perform (instrOf l)

/-! ## A context's turn (R22, R268, R384) -/

/-- Whether a context belongs to a slice group whose budget is spent, so that it is not fetched (R238). -/
def State.starved (s : State) (i : CtxId) : Bool := match s.groupOf i with | some g => g.expired | none => false

/-- Whether a context may have a turn: LIVE in a running partition, and waiting for nothing, or with an instruction that runs again. -/
def State.mayRun (s : State) (i : CtxId) : Bool :=
  let c := s.ctx i
  s.running i.core && c.life == .live && c.wait.interruptible

/-- Whether a context yields now to others of its core that are ready, fetched, and have not had their turn since (R119). -/
def State.yields (s : State) (i : CtxId) : Bool :=
  (s.ctx i).yielded.any fun k => ((s.core i.core).ctx k).ready && !s.starved ⟨i.core, k⟩

/-- Whether a context may be fetched for now (R22, R119, R238). -/
def State.fetchable (s : State) (i : CtxId) : Bool := s.mayRun i && !s.starved i && !s.yields i

/-- A core's contexts in the order of their turns: those after the one that had the last, then the others. -/
def turnOrder (last : Nat) : List Nat := ctxNumbers.drop (last + 1) ++ ctxNumbers.take (last + 1)

/-- The context for which a core fetches next, round-robin (R22): the first in order, after the one that had the last turn, for which it may. -/
def State.nextOf (s : State) (core : Nat) : Option Nat := (turnOrder (s.core core).lastCtx).find? fun k => s.fetchable ⟨core, k⟩

/-- The core with a context's turn recorded: no other context yields to it any longer (R119). -/
def Core.fetchedFor (c : Core) (k : Nat) : Core :=
  { c with lastCtx := k, ctxs := c.ctxs.map fun e => (e.1, { e.2 with yielded := e.2.yielded.filter (· != k) }) }

/-- The state in which a context is about to fetch. -/
def State.turnOf (s : State) (i : CtxId) : State :=
  let s := (s.modCore i.core fun c => c.fetchedFor i.ctx).modCtx i fun c => { c with wait := .none }
  { s with cur := i, mods := none }

/-- Whether it is a context's turn: its core's next, or one of a pair whose request is being performed (R22, R242). -/
def State.itsTurn (s : State) (i : CtxId) : Bool := s.nextOf i.core == some i.ctx || (s.ctx i).pairGo

/-- A context's turn: a cause that is due is taken first, then a note, then an instruction (R384), where its core fetches for it now. -/
noncomputable def State.turn (s : State) (i : CtxId) : Host.Outcome State Fault Refusal :=
  if !s.mayRun i then .next s
  else if s.causeDue i then .next (s.takeAsync i)
  else if s.noteDue i then .next (s.enterNote i)
  else if s.itsTurn i then (s.turnOf i).fetchRun
  else .next s

/-! ## Events -/

/-- Whether an operation is an event that some agent other than a context's instruction brings about. -/
def isEvent : Instr → Bool
  | .laneGroupBinding _ | .vectorCompletion _ _ | .matrixEngineBinding _ | .matrixCompletion _ _ => true
  | .cmemFault _ _ | .patienceExpiry _ | .catchCommit _ | .textFollow _ => true
  | .engineCommandBegin _ _ _ | .engineCommandCompletion _ _ _ | .collectiveAbort _ _ => true
  | .migrationSwitch _ | .migrationCompletion _ | .completionHandlerEntry _ _ => true
  | .asyncTrapEntry _ _ | .helperCauseTaken _ _ | .budgetExpiry _ _ => true
  | .sliceSelection _ | .zeroSliceLaunch _ _ | .sliceReexecution _ _ | .pairedRequestMatch _ | .pairTimeout _ => true
  | .descriptorWriteback _ _ | .partitionReset _ | .functionLevelReset _ | .bellStop _ | .rollback _ => true
  | .preemptExpiry _ | .gangSwitch _ | .uncorrectableCoreError _ _ | .hbmPageRetirement _ _ => true
  | .heatCounterIncrement _ | .watchdogExpiry _ | .linkTimeout _ _ | .groupTimeout _ _ | .peerTimeout _ _ => true
  | .linkRetrain _ | .remoteAccess _ _ | .hostAccess _ | .qcfgWrite _ _ _ _ | .sqdbWrite _ _ _ | .cqdbWrite _ _ _ => true
  | .nop _ _ | .launch _ _ | .publish _ _ | .signal _ _ | .hostCompletionWrite _ _ => true
  | .create _ | .destroy _ | .switch _ _ | .resume _ _ _ | .bell _ | .continue _ | .groups _ => true
  | .freeze | .garfyReadout _ _ | .firmwareImageWrite _ | .thermalTrip _ | .powerLoss | .bringUp => true
  | .queuedMemoryCompletion _ | .expanderLinkDown _ | .deviceReset | .hbmCorrectedError _ _ => true
  | _ => false

/-- What a frozen device still does (R403, R414): read-out, a firmware write, the loss of power, a device reset. -/
def frozenMay : Instr → Bool
  | .garfyReadout _ _ | .firmwareImageWrite _ | .powerLoss | .deviceReset => true
  | _ => false

/-- What a device without power does: it powers up (R415, R417). -/
def unpoweredMay : Instr → Bool
  | .bringUp => true
  | _ => false

/-- Whether the device's clocks run (R403, R415). -/
def State.clocked (s : State) : Bool := s.powered && !s.frozen

/-- Whether an event can happen now. -/
def State.admits (s : State) (i : Instr) : Bool := if !s.powered then unpoweredMay i else if s.frozen then frozenMay i else true

/-- An event happens; one of a unit that no BY-2800 has is no event. -/
def State.event (s : State) (i : Instr) : Host.Outcome State Fault Refusal :=
  if isEvent i && i.wf then (if s.admits i then exec i s else .next s) else .fault .badEvent

/-! ## Time (R238, R242, R317, R353, R356, R392) -/

/-- A slice group after a cycle in which one of its contexts was LIVE: its count, where it has one (R238). -/
def SliceGroup.count1 (g : SliceGroup) : SliceGroup := if g.budgetOn && g.budget != 0 then { g with budget := g.budget - 1 } else g

/-- Whether a member of a slice group is LIVE. -/
def Core.groupLive (c : Core) (g : SliceGroup) : Bool := g.members.any fun h => (c.ctx h).life == .live

/-- A running core after a cycle: CYCLE and the budgets. -/
def Core.cycle1 (c : Core) : Core :=
  { c with
    cycle := c.cycle + 1
    slices := c.slices.map fun g => if c.groupLive g.2 then (g.1, g.2.count1) else g }

/-- A partition after a tick of its watchdog (R356). -/
def Partition.tick1 (q : Partition) : Partition :=
  if q.wdogInterval != 0 && q.wdogArmed && q.wdogRemain != 0 then { q with wdogRemain := q.wdogRemain - 1 } else q

/-- A committee after a cycle: its patience timer (R317). -/
def Committee.cycle1 (c : Committee) : Committee := { c with timer := c.timer.map fun n => n - 1 }

/-- The partitions whose watchdog ticks in the cycle that has just passed. -/
def State.ticking (s : State) : List Nat :=
  (s.parts.filter fun q => q.2.live && q.2.stopped.isNone && (s.core q.2.supervisor).cycle % 1024 == 0).map (·.1)

/-- The patience timers that have run out in the cycle that ends: an arrival of that cycle has come before (R317). -/
def State.patienceOver (s : State) : List Instr :=
  (s.comms.filter fun c => c.2.timer == some 0 && !c.2.expired).map fun c => .patienceExpiry c.1

/-- The time-outs of a partition's requests that come by their bounds at the latest (R359). -/
def State.overdue (s : State) (p : Nat) : List Instr :=
  ((List.range 16).filter fun l => s.linkDue p l 2000).map (fun l => .linkTimeout p l)
  ++ ((((s.outstanding p).map fun e => e.2.dev).eraseDups).filter fun d => s.peerDue p d 2000).map fun d => .peerTimeout p d

/-- The events that a cycle has brought due, which happen at once. -/
def State.dueEvents (s : State) : List Instr :=
  (s.cores.flatMap fun c => if s.running c.1 then (c.2.slices.filter fun g => g.2.spent).map (fun g => .budgetExpiry c.1 g.1) else [])
  ++ (s.parts.filter fun q => q.2.live && q.2.hangs).map (fun q => .watchdogExpiry q.1)
  ++ (s.parts.filter fun q => s.preemptDue q.1).map (fun q => .preemptExpiry q.1)
  ++ (s.paired.filter fun r => r.2.second.isNone && r.2.age == pairWindow && (s.part r.2.part).live).map (fun r => .pairTimeout r.1)
  ++ (s.parts.filter fun q => q.2.live).flatMap fun q => s.overdue q.1

/-- One cycle of the arithmetic clock; the time base runs on in a frozen device (R352, R403). -/
def State.cycle1 (s : State) : State :=
  if !s.powered then s
  else if s.frozen then { s with cycles := s.cycles + 1 }
  else
    let t : State := { s with
      cycles := s.cycles + 1
      cores := s.cores.map fun c => if s.running c.1 then (c.1, c.2.cycle1) else c
      comms := s.comms.map fun c => (c.1, c.2.cycle1)
      paired := s.paired.map fun r => if (s.part r.2.part).live then (r.1, { r.2 with age := r.2.age + 1 }) else r }
    let due := t.ticking
    let t : State := { t with parts := t.parts.map fun q => if due.contains q.1 then (q.1, q.2.tick1) else q }
    { t with agenda := (s.patienceOver ++ t.dueEvents).map Move.event ++ t.agenda }

/-- Cycles pass, one after another: what one brings due happens before the next. -/
def State.cyclesPass (s : State) : Nat → State
  | 0 => s
  | 1 => s.cycle1
  | n + 2 => (s.pushMove (.tick (n + 1))).cycle1

/-! ## Moves -/

/-- Whether a context's number is one that a BY-2800 has (R10, R18). -/
def CtxId.exists (i : CtxId) : Bool := i.core < 1024 && i.ctx < 11

/-- One move of the device. -/
noncomputable def State.move (s : State) (m : Move) : Host.Outcome State Fault Refusal :=
  match m with
  | .ctx i => if i.exists then (if s.clocked then s.turn i else .next s) else .fault .badEvent
  | .event i => s.event i
  | .tick n => .next (s.cyclesPass n)

/-! ## The schedule that is followed where none is laid down -/

/-- The clusters that have a core in a partition. -/
def State.busyClusters (s : State) : List Nat := ((s.cores.filter fun c => c.2.inPart).map fun c => clusterOf c.1).eraseDups

/-- The events of a cluster's units that may be due. -/
def State.clusterEvents (s : State) (cl : Nat) : List Instr :=
  let c := s.cluster cl
  c.lanes.map (fun l => Instr.vectorCompletion cl l.1) ++ (List.range c.mat.length).map (fun k => Instr.matrixCompletion cl k)
    ++ [.laneGroupBinding cl, .matrixEngineBinding cl]

/-- The events of a core's queue and engines that may be due. -/
def State.coreEvents (s : State) (n : Nat) : List Instr :=
  Instr.queuedMemoryCompletion n ::
    ([0, 1, 2, 3, 4, 5].flatMap fun e => (s.eng n e).out.flatMap fun k =>
      [Instr.engineCommandBegin n e k.ticket, Instr.engineCommandCompletion n e k.ticket])

/-- The events of a partition that may be due. -/
def State.partEvents (s : State) (p : Nat) : List Instr :=
  let q := s.part p
  [Instr.bellStop p] ++ (if q.stopped.isSome then [Instr.gangSwitch p] else [])
    ++ ((List.range 16).filter fun l => s.linkDue p l 0).map (fun l => Instr.linkTimeout p l)
    ++ ((List.range 64).filter fun g => s.groupDue p g).map (fun g => Instr.groupTimeout p g)
    ++ (((s.outstanding p).map fun e => e.2.dev).eraseDups).map (fun d => Instr.peerTimeout p d)
    ++ (q.queues.flatMap fun x => Instr.zeroSliceLaunch p x.1 :: (if x.2.dirty then [Instr.descriptorWriteback p x.1] else []))
    ++ (q.pairs.flatMap fun h =>
      [Instr.nop p h.1, Instr.launch p h.1, Instr.publish p h.1, Instr.signal p h.1, Instr.hostCompletionWrite p h.1])

/-- The events of the device that may be due, in the order in which they are tried. -/
def State.candidateEvents (s : State) : List Instr :=
  (s.heatDue.take 1).map Instr.heatCounterIncrement
    ++ s.busyClusters.flatMap s.clusterEvents
    ++ (s.cores.map (·.1)).flatMap s.coreEvents
    ++ s.migrations.flatMap (fun m => [Instr.migrationSwitch m.1, Instr.migrationCompletion m.1])
    ++ s.comms.map (fun c => Instr.catchCommit c.1)
    ++ s.texts.map (fun t => Instr.textFollow t.1)
    ++ s.paired.map (fun r => Instr.pairedRequestMatch r.1)
    ++ (s.parts.map (·.1)).flatMap s.partEvents
    ++ s.cores.map (fun c => Instr.sliceSelection c.1)

/-- A state as an event's effect is judged: reads that only count heat or draw free values change nothing. -/
def State.essence (s : State) : State := { s with heatDue := [], freeIdx := 0 }

/-- The state after an event that may be due, if it changes anything. -/
def State.tryEvent (s : State) (i : Instr) : Option State :=
  match exec i s with
  | .next t => if i ≠ .heatCounterIncrement (s.heatDue.headD 0) ∧ t.essence = s.essence then none else some t
  | _ => none

/-- Every context of the cores of partitions, in order. -/
def State.allCtxs (s : State) : List CtxId :=
  (s.cores.filter fun c => c.2.inPart).flatMap fun c => ctxNumbers.map fun k => ⟨c.1, k⟩

/-- Whether a context takes a cause or a note at its next boundary. -/
def State.interrupted (s : State) (i : CtxId) : Bool := s.mayRun i && (s.causeDue i || s.noteDue i)

/-- The context that is next: one that a cause or a note interrupts, or else the next of the first core, after the one that had the last
turn, that has one (R22). -/
def State.nextCtx (s : State) : Option CtxId :=
  match s.allCtxs.find? s.interrupted with
  | some i => some i
  | none =>
    let l := (s.cores.filter fun c => c.2.inPart).map (·.1)
    let k := l.idxOf s.cur.core + 1
    (l.drop k ++ l.take k).findSome? fun n => (s.nextOf n).map fun k => ⟨n, k⟩

/-- A step where no move is laid down: an event that is due, or else a context's turn, and a cycle passes. -/
noncomputable def State.defaultMove (s : State) : Host.Outcome State Fault Refusal :=
  if !s.clocked then .next s.cycle1
  else
    match s.candidateEvents.findSome? s.tryEvent with
    | some t => .next t
    | none =>
      match s.nextCtx with
      | none => .next s.cycle1
      | some i =>
        match s.turn i with
        | .next t => .next t.cycle1
        | o => o

/-- One step of the device: the next move that is laid down, or the schedule's. -/
noncomputable def State.advanceDevice (s : State) : Host.Outcome State Fault Refusal :=
  match s.agenda with
  | [] => s.defaultMove
  | m :: rest => State.move { s with agenda := rest } m

/-! ## A place to run an instruction from (log entry 3) -/

/-- Eight bytes of a table entry. -/
def entryBytes (v : Nat) : List Byte := natToBytes 8 v

/-- The page tables and the word placed in HBM: VA 0 is mapped to PA 0x40000, readable, writable and executable at S. -/
def placeWord (m : Memory) (w : Nat) : Memory :=
  (((m.setBytes 0x10000 (entryBytes 0x20001)).setBytes 0x20000 (entryBytes 0x30001)).setBytes 0x30000
    (entryBytes (0x40000 + 0x1E))).setBytes 0x40000 (natToBytes 8 w)

/-- The arguments with which the partition of a placed word is created. -/
def placeArgs : CreateArgs := ⟨0, 0, 0, 1, 1, 0, 1, 1, 0, 0x10000, []⟩

end Sys2Proof.Machine
end

