-- ==== Sys2Proof/Machine/Step.lean ====
section
/-! DEFINITION. One step of the device, and a state whose next step runs a given instruction. -/

namespace Sys2Proof.Machine

open Sys2Proof

/-- One step of the device (see Machine/Sched.lean). -/
noncomputable def step (s : State) : Host.Outcome State Fault Refusal := s.advanceDevice

/-- A state whose next step fetches and runs the instruction of `w`: partition 0 on cluster 0 with its page tables, the control context
of core 0 LIVE at S with pc 0, the instruction at virtual address 0, and that context's turn next (log entry 3). -/
def State.withFetchWord (s : State) (nbits w : Nat) : State :=
  let t : State := { s with mem := placeWord s.mem (w % 2 ^ nbits), powered := true, frozen := false }
  let t := t.createPartition placeArgs
  { t with cur := ⟨0, 0⟩, agenda := .ctx ⟨0, 0⟩ :: s.agenda, mods := none }

end Sys2Proof.Machine
end

