-- ==== Sys2Proof/Safety.lean ====
section
/-! DEFINITION. What claims say of a run: the invariants of the device's state, and what an instruction of each shape leaves
behind, its results together with everything that it does not change. -/

namespace Sys2Proof.Machine

open Sys2Proof

/-! ## Frames -/

/-- Nothing outside the executing context changes, and so every byte of memory reads as before. -/
structure OnlyContext (s t : State) : Prop where
  outside : t = s.modMe fun _ => t.me
  memory : ∀ pa, t.homeByte pa = s.homeByte pa

/-- An instruction that only goes to an address: no register, flag or byte of memory changes. -/
structure GoesTo (s t : State) (target : Word) : Prop where
  context : t.me = { s.me with pc := target }
  outside : OnlyContext s t

/-- An instruction that only writes a value to an x register and goes to an address (R45, R87, R269): x0 discards it, in a user
completion handler the shadow bank takes x1 to x8, and every other register keeps its value. -/
structure XWritten (s t : State) (d : Nat) (v target : Word) : Prop where
  written : d ≠ 0 → t.x d = v
  zero : t.x 0 = 0
  others : ∀ n, n ≠ d → t.x n = s.x n
  bank : if s.me.shadows d then t.me.x = s.me.x else t.me.shadow = s.me.shadow
  context : t.me = { s.me with x := t.me.x, shadow := t.me.shadow, pc := target }
  outside : OnlyContext s t

/-- An instruction whose whole effect is a value in an x register; the next instruction follows (R43). -/
def XResult (s t : State) (d : Nat) (v : Word) : Prop := XWritten s t d v (s.pc + s.len)

/-- An instruction that writes a value to an f register and raises flags in FPCTL (R68, R87). -/
structure FResult (s t : State) (d : Nat) (v : Word) (fl : Flags) : Prop where
  written : t.f d = v
  others : ∀ n, n ≠ d → t.f n = s.f n
  context : t.me = { s.me with f := t.me.f, fpctl := orFlags s.me.fpctl fl, pc := s.pc + s.len }
  outside : OnlyContext s t

/-- An instruction that writes a value to an x register and raises flags in FPCTL (R68). -/
structure XFlagged (s t : State) (d : Nat) (v : Word) (fl : Flags) : Prop where
  written : d ≠ 0 → t.x d = v
  zero : t.x 0 = 0
  others : ∀ n, n ≠ d → t.x n = s.x n
  context : t.me = { s.me with x := t.me.x, shadow := t.me.shadow, fpctl := orFlags s.me.fpctl fl, pc := s.pc + s.len }
  outside : OnlyContext s t

/-! ## Frames of memory accesses -/

/-- A core without what an access to memory may change of it: its cache portion, its pending watchpoint match, its write set, its
undo log, and whether a slice may be run again. Its contexts stay, and so do every special register and every engine. -/
def Core.besidesAccess (c : Core) : Core :=
  { c with
    lc := [], wpHit := [], wpEng := [], writeSet := [], undo := []
    slices := c.slices.map fun e => (e.1, { e.2 with restartable := false }) }

/-- A cluster without its apprentices, which a write to their code invalidates (R372). -/
def Cluster.besidesAccess (c : Cluster) : Cluster := { c with apx := [] }

/-- A partition without the lines and accumulators kept for step mode (R36, R177), its progress (R355) and STEPCTL.UNREP (R180). -/
def Partition.besidesAccess (p : Partition) : Partition :=
  { p with snap := [], accSnap := [], wdogRemain := 0, wdogArmed := false, lastProgress := 0, stepctl := putBits p.stepctl 16 1 0 }

/-- A text context without the mark that a write to its tables sets (R271). -/
def TextCtx.besidesAccess (x : TextCtx) : TextCtx := { x with touched := false }

/-- The device without its memory, its homes and what the other definitions describe. -/
def State.besidesAccess (s : State) : State :=
  { s with
    freeIdx := 0, cores := [], clusters := [], parts := [], mem := [], lines := [], closed := [], l2 := [], accs := [], poison := []
    heatDue := [], texts := s.texts.map fun t => (t.1, t.2.besidesAccess) }

/-- What an access to memory leaves: every context with all its registers, and all but what an access may change. -/
structure AccessFrame (s t : State) : Prop where
  device : t.besidesAccess = s.besidesAccess
  cores : ∀ n, (t.core n).besidesAccess = (s.core n).besidesAccess
  clusters : ∀ n, (t.cluster n).besidesAccess = (s.cluster n).besidesAccess
  parts : ∀ n, (t.part n).besidesAccess = (s.part n).besidesAccess

/-! ## Plain accesses -/

/-- What an access that does not go through the core's cache portion reads at a byte (R36, R210): local SRAM's own byte, in step mode
the core's deferred write or the superstep's start, else the byte at its home. -/
def State.sees (s : State) (pa : Nat) : Byte :=
  match regionOf pa with
  | .sram _ => s.mem.get pa
  | _ => if s.stepMode s.cur.core then s.stepByte s.cur.core pa else s.homeByte pa

/-- Nothing stands in the way of an access to a byte of this device (R166, R168, R169, R170, R412): it lies in the scratch, its expander is
up, a PINSLICE page's line is held or finds room, and no slice holds its line for a page that is mapped with another home. Its page is not
LC. -/
structure Reaches (s : State) (rq : Req) (x : Xlat) : Prop where
  scratch : s.scratchBad rq x = false
  up : s.unreachable rq x.pa = false
  here : isRemote x.pa = false
  room : x.home = 2 → smHas s.l2 (x.pa / 128) = false → smHas s.lines (x.pa / 128) = false → s.pinCount (s.placeOf rq x).slice < 4096
  place : s.stray rq x = false
  direct : x.lc = false

/-- The byte that a list of writes, the last of them winning, leaves at an address, if one of them covers it (R148, R201). -/
def lastWrite : List (Nat × Byte) → Nat → Option Byte
  | [], _ => none
  | e :: rest, pa => (lastWrite rest pa).or (if e.1 = pa then some e.2 else none)

/-! ## Vector instructions -/

/-- Element `i` of `w` bits of a vector (R123). -/
def vElem (w : Nat) (v : BitVec 2048) (i : Nat) : Nat := bits v (w * i) w

/-- The flags that the elements `i` below `n` raise together (R68). -/
def flagsOf (n : Nat) (f : Nat → Flags) : Flags := ((List.range n).map f).foldr (fun x y => x ||| y) 0

/-- What bringing registers into the pool leaves (R89): contexts but for where their vector registers stand, cores but for their
contexts and what a spill's access changes, and the device but for what spills write. -/
structure PoolFrame (s u : State) : Prop where
  contexts : ∀ i, ({ u.ctx i with v := [], vregFault := none } : Ctx) = { s.ctx i with v := [], vregFault := none }
  cores : ∀ n, ({ (u.core n).besidesAccess with ctxs := [] } : Core) = { (s.core n).besidesAccess with ctxs := [] }
  clusters : ∀ n, (u.cluster n).besidesAccess = (s.cluster n).besidesAccess
  parts : ∀ n, (u.part n).besidesAccess = (s.part n).besidesAccess
  device : u.besidesAccess = s.besidesAccess

/-- A committed vector instruction that writes no vector register and goes on in its body (R23, R68, R139): its work joins the queue with
the flags to record; memory and the other contexts stay. -/
structure VecQueued (u t : State) (w : VecWork) : Prop where
  queued : t.myCore.queue = u.myCore.queue ++ [⟨u.cur.ctx, .vector w⟩]
  contexts : ∀ i, i ≠ u.cur → t.ctx i = u.ctx i
  memory : ∀ pa, t.homeByte pa = u.homeByte pa

/-- A committed vector instruction that writes one vector register (R123): its data and its sidecar; every other register of the context
stays but the pc and the repetition buffer's position. -/
structure VecResult (u t : State) (d : Nat) (data : BitVec 2048) (side : BitVec 1280) (w : VecWork) : Prop where
  written : t.me.vpair d = (data, side)
  others : ∀ n, n ≠ d → t.me.vpair n = u.me.vpair n
  context : t.me = { u.me.bodyNext (u.len.toNat / 4) with v := t.me.v }
  queue : VecQueued u t w

/-- A committed vector instruction that writes a group of registers (R131): element `i` of the group takes `f i`, counted through the
registers from the first on, modulo 32; sidecars and every other register stay. -/
structure GroupResult (u t : State) (w first k : Nat) (f : Nat → Nat) (wk : VecWork) : Prop where
  written : ∀ i, i < k * (2048 / w) →
    vElem w (t.me.vpair ((first + i / (2048 / w)) % 32)).1 (i % (2048 / w)) = f i
  sides : ∀ n, (t.me.vpair n).2 = (u.me.vpair n).2
  others : ∀ n, n ∉ groupRegs first k → t.me.vpair n = u.me.vpair n
  context : t.me = { u.me.bodyNext (u.len.toNat / 4) with v := t.me.v }
  queue : VecQueued u t wk

/-- A vector memory instruction that has brought bytes into a register (R201) after its access left `u`. -/
structure VecLoaded (u t : State) (d : Nat) (data : BitVec 2048) (side : BitVec 1280) : Prop where
  written : t.me.vpair d = (data, side)
  others : ∀ n, n ≠ d → t.me.vpair n = u.me.vpair n
  context : t.me = { u.me.bodyNext (u.len.toNat / 4) with v := t.me.v }
  contexts : ∀ i, i ≠ u.cur → t.ctx i = u.ctx i
  memory : ∀ pa, t.homeByte pa = u.homeByte pa

/-- A vector or tile memory instruction of the executing context that may be performed (R23): its core's queue is empty, or its own entry
is at the head, which leaves the queue; `h` is the state it works from. -/
def AtHead (s h : State) : Prop :=
  (s.myCore.queue = [] ∧ h = s) ∨
  ∃ e rest, s.myCore.queue = e :: rest ∧ e.isMemoryOf s.cur.ctx = true ∧ h = s.popHead

/-- A drain or `astat` of the executing context that may be performed (R26): its own entry is at the head of its core's queue, bound to the
matrix engine, and leaves the queue; `h` is the state it works from. -/
def AtEngine (s h : State) : Prop := s.atEngine = true ∧ h = s.popHead

/-- A committed vector instruction that writes a predicate (R127, R128); p0 discards it (R86). -/
structure PredResult (u t : State) (d : Nat) (v : BitVec 256) (w : VecWork) : Prop where
  written : d ≠ 0 → t.me.pred d = v
  others : ∀ n, n ≠ d → t.me.pred n = u.me.pred n
  context : t.me = { u.me.bodyNext (u.len.toNat / 4) with p := t.me.p }
  queue : VecQueued u t w

/-! ## Tiles and accumulator slots -/

/-- Nothing changes but the executing context and what step mode logs of its old values (R396); memory reads as before. -/
structure InContext (u t : State) : Prop where
  rest : AccessFrame (u.modMe fun _ => t.me) t
  memory : ∀ pa, t.homeByte pa = u.homeByte pa

/-- An instruction that writes one tile and goes on: every other register stays (R90, R143). -/
structure TileResult (u t : State) (n : Nat) (v : Tile) : Prop where
  written : t.me.tile n = v
  others : ∀ m, m ≠ n → t.me.tile m = u.me.tile m
  context : t.me = { u.me with t := t.me.t, pc := u.pc + u.len }
  frame : InContext u t

/-- An instruction that moves data into one vector register and goes on (R149). -/
structure VecMoved (u t : State) (d : Nat) (data : BitVec 2048) (side : BitVec 1280) : Prop where
  written : t.me.vpair d = (data, side)
  others : ∀ n, n ≠ d → t.me.vpair n = u.me.vpair n
  context : t.me = { u.me with v := t.me.v, pc := u.pc + u.len }
  frame : InContext u t

/-- An instruction that commits by putting its work into its core's engine queue, and goes on (R21, R23): no register changes. -/
structure Queued (s t : State) (op : QOp) : Prop where
  queued : t.myCore.queue = s.myCore.queue ++ [⟨s.cur.ctx, op⟩]
  context : t.me = { s.me with pc := s.pc + s.len }
  contexts : ∀ i, i ≠ s.cur → t.ctx i = s.ctx i
  memory : ∀ pa, t.homeByte pa = s.homeByte pa

/-- A matrix instruction's commit (R150, R151): its work with the version to wait for joins the queue, a free slot is taken by the
executing context's tag, and nothing else of any slot changes. -/
structure MatrixCommitted (s t : State) (n : Nat) (version : BitVec 16) (op : MatOp) : Prop where
  queue : Queued s t (.matrix n (some version) op)
  slot : t.slot n = if (s.slot n).owner = none then { s.slot n with owner := some s.tag } else s.slot n
  slots : ∀ m, m ≠ n → t.slot m = s.slot m

/-- A committed vector instruction outside the bodies of the repetition buffer (R138, R162): one vector register written, its work queued. -/
structure VecWritten (u t : State) (d : Nat) (data : BitVec 2048) (side : BitVec 1280) (w : VecWork) : Prop where
  written : t.me.vpair d = (data, side)
  others : ∀ n, n ≠ d → t.me.vpair n = u.me.vpair n
  context : t.me = { u.me with v := t.me.v, pc := u.pc + u.len }
  queue : VecQueued u t w

/-- A drain of slot `n` at the head of the queue (R151, R156, R160): the executing context keeps every register but those named, the slot
takes its new contents and a new version, other slots, other contexts and memory stay. -/
structure Drained (h t : State) (n : Nat) (new : Slot) : Prop where
  slot : t.slot n = new.bump
  slots : ∀ m, m ≠ n → t.slot m = h.slot m
  contexts : ∀ i, i ≠ h.cur → t.ctx i = h.ctx i
  memory : ∀ pa, t.homeByte pa = h.homeByte pa

/-- The executing context may commit matrix work with the name `c`, which maps slot `n`, of the given kind after
the context's own earlier work (R92, R150, R157): the slot is free for it or its own, not PARKED, and no earlier `aclaim` or `afree` of
it is under way. -/
structure MayCommit (s : State) (c n : Nat) (rns : Bool) : Prop where
  room : s.queueRoom = true
  name : bits s.myCore.aslotmap (5 * c) 5 = 16 + n
  kind : s.rnsSeen n = rns
  settled : s.afterRetag n = .ok ()
  use : s.mayUse n = true
  unparked : (s.slot n).parked = false

/-! ## Events -/

/-- Only the named contexts change, and memory reads as before. -/
structure OnlyCtxs (s t : State) (l : List CtxId) : Prop where
  contexts : ∀ i, i ∉ l → t.ctx i = s.ctx i
  memory : ∀ pa, t.homeByte pa = s.homeByte pa

/-- A cause becomes pending for a context (R384), and only that of all contexts changes. -/
structure Pends (s t : State) (i : CtxId) (c : Cause) (v : Word) (e : Option Nat) : Prop where
  pending : t.ctx i = { s.ctx i with pending := addPending (s.ctx i).pending ⟨c, v, e⟩ }
  rest : OnlyCtxs s t [i]

/-- A time-out's cause becomes pending for a supervisor; of the other contexts only their outstanding requests change (R358, R360). -/
structure TimedOut (s t : State) (sup : CtxId) (c : Cause) (v : Word) : Prop where
  pending : ∀ i, (t.ctx i).pending = if i = sup then addPending (s.ctx i).pending ⟨c, v, none⟩ else (s.ctx i).pending
  contexts : ∀ i, ({ t.ctx i with pending := [], remote := none } : Ctx) = { s.ctx i with pending := [], remote := none }
  memory : ∀ pa, t.homeByte pa = s.homeByte pa

/-! ## Taking an exception (R20, R380) -/

/-- STATUS after a trap entry: PPRIV and PAE hold the old PRIV and AE, PRIV is 1 and AE 0, HCTX names the helper (0 for the context
itself), and every other bit stands. -/
structure EnteredStatus (old new : Word) (helper : Nat) : Prop where
  pprv : bits new 2 2 = bits old 0 2
  pae : bits new 5 1 = bits old 4 1
  priv : bits new 0 2 = 1
  ae : bits new 4 1 = 0
  hctx : bits new 8 4 = helper
  rest : ∀ k, (k = 6 ∨ k = 7 ∨ 12 ≤ k) → new.getLsbD k = old.getLsbD k

/-- The executing control context enters its trap handler with a synchronous cause (R380): EPC holds its own pc, CAUSE the code, TVAL
the value, TFSTAT a translation fault's detail (R278), and the pc goes to TVEC, whose low two bits read as zero (R43). The core's
uncommitted entries of the context leave its queue (R23); nothing else of the device changes. -/
structure EntersTrap (s t : State) (c : Cause) (v : Word) (tf : Option Word := none) : Prop where
  epc : t.me.epc = s.pc
  cause : t.me.cause = word c.code
  tval : t.me.tval = v
  tfstat : t.me.tfstat = tf.getD s.me.tfstat
  pc : t.pc = alignPc s.me.tvec
  status : EnteredStatus s.me.status t.me.status 0
  context : t.me = { s.me with
    epc := s.pc, cause := word c.code, tval := v, tfstat := t.me.tfstat, status := t.me.status, pc := alignPc s.me.tvec,
    entering := some false, wait := .none, remote := none }
  outside : t = (({ s with mods := none } : State).squash s.cur).modMe fun _ => t.me
  memory : ∀ pa, t.homeByte pa = s.homeByte pa

/-- The executing helper is HELD at its instruction with the trap in its own registers, and the trap is pending for the control
context of its core (R20). -/
structure HeldByTrap (s t : State) (c : Cause) (v : Word) (tf : Option Word := none) : Prop where
  context : t.me = { s.me with
    epc := s.pc, cause := word c.code, tval := v, tfstat := tf.getD s.me.tfstat, life := .held, trapPending := true, wait := .none, remote := none }
  outside : t = (({ s with mods := none } : State).squash s.cur).modMe fun _ => t.me
  memory : ∀ pa, t.homeByte pa = s.homeByte pa

/-- An instruction that takes a trap: a control context enters its handler, a helper is HELD. -/
def Traps (s t : State) (c : Cause) (v : Word) (tf : Option Word := none) : Prop :=
  (s.cur.ctx = 0 → EntersTrap s t c v tf) ∧ (s.cur.ctx ≠ 0 → HeldByTrap s t c v tf)

end Sys2Proof.Machine

namespace Sys2Proof

open Sys2Proof.Machine

/-! ## Invariants -/

/-- The memory is in its canonical form: addresses strictly rise, and no byte is listed that an unlisted address reads as. -/
def MemoryCanonical (s : State) : Prop := s.mem.wf = true

end Sys2Proof
end

