-- ==== Sys2Proof/Certificates/Slice0/Obligations.lean ====
section
/-! DEFINITION. The statements. -/

open Sys2Proof Sys2Proof.Machine

/-! ## Scalar instructions -/

/-- Integer arithmetic and logic on registers, the counting of bits, byte reversal, and the forms with an immediate, `lih` and `adrp`, for every
register and operand (R100, R102, R103): the result reaches xd and nothing else changes. S(v) is `toInt`, N(v) is `toNat`, and an immediate
form is the register form with b the sign-extended immediate. Division has a statement of its own. -/
def Obligations.IntegerResults : Prop :=
  (∀ (s : State) (d a b : Nat), s.me.canWrite d = true →
    ∀ e ∈ ([
      (.add d a b, BitVec.ofNat 64 ((s.x a).toNat + (s.x b).toNat)),
      (.sub d a b, BitVec.ofInt 64 ((s.x a).toInt - (s.x b).toInt)),
      (.and d a b, s.x a &&& s.x b),
      (.or d a b, s.x a ||| s.x b),
      (.xor d a b, s.x a ^^^ s.x b),
      (.andn d a b, s.x a &&& ~~~(s.x b)),
      (.sll d a b, BitVec.ofNat 64 ((s.x a).toNat * 2 ^ ((s.x b).toNat % 64))),
      (.srl d a b, BitVec.ofNat 64 ((s.x a).toNat / 2 ^ ((s.x b).toNat % 64))),
      (.sra d a b, BitVec.ofInt 64 ((s.x a).toInt / 2 ^ ((s.x b).toNat % 64))),
      (.rol d a b, (s.x a).rotateLeft ((s.x b).toNat % 64)),
      (.slt d a b, if (s.x a).toInt < (s.x b).toInt then 1 else 0),
      (.sltn d a b, if (s.x a).toNat < (s.x b).toNat then 1 else 0),
      (.seq d a b, if s.x a = s.x b then 1 else 0),
      (.sne d a b, if s.x a = s.x b then 0 else 1),
      (.min d a b, BitVec.ofInt 64 (min (s.x a).toInt (s.x b).toInt)),
      (.max d a b, BitVec.ofInt 64 (max (s.x a).toInt (s.x b).toInt)),
      (.minn d a b, BitVec.ofNat 64 (min (s.x a).toNat (s.x b).toNat)),
      (.maxn d a b, BitVec.ofNat 64 (max (s.x a).toNat (s.x b).toNat)),
      (.mul d a b, BitVec.ofNat 64 ((s.x a).toNat * (s.x b).toNat)),
      (.mulh d a b, BitVec.ofInt 64 ((s.x a).toInt * (s.x b).toInt / 2 ^ 64)),
      (.mulhn d a b, BitVec.ofNat 64 ((s.x a).toNat * (s.x b).toNat / 2 ^ 64)),
      (.sextI8 d a, BitVec.ofInt 64 ((s.x a).setWidth 8).toInt),
      (.sextI16 d a, BitVec.ofInt 64 ((s.x a).setWidth 16).toInt),
      (.sextI32 d a, BitVec.ofInt 64 ((s.x a).setWidth 32).toInt),
      (.zextN8 d a, BitVec.ofNat 64 ((s.x a).toNat % 2 ^ 8)),
      (.zextN16 d a, BitVec.ofNat 64 ((s.x a).toNat % 2 ^ 16)),
      (.zextN32 d a, BitVec.ofNat 64 ((s.x a).toNat % 2 ^ 32))] : List (Instr × Word)),
    ∃ t, exec e.1 s = .next t ∧ XResult s t d e.2) ∧
  (∀ (s : State) (d a : Nat), s.me.canWrite d = true →
    ∀ e ∈ ([
      (.clz d a, (s.x a).clz),
      (.ctz d a, (s.x a).ctz),
      (.popc d a, (s.x a).cpop),
      (.bswap d a, BitVec.ofNat 64 ((s.x a).toNat % 256 * 2 ^ 56 + ((s.x a).toNat / 2 ^ 8 % 256 * 2 ^ 48 + ((s.x a).toNat / 2 ^ 16 % 256 * 2 ^ 40
        + ((s.x a).toNat / 2 ^ 24 % 256 * 2 ^ 32 + ((s.x a).toNat / 2 ^ 32 % 256 * 2 ^ 24 + ((s.x a).toNat / 2 ^ 40 % 256 * 2 ^ 16
        + ((s.x a).toNat / 2 ^ 48 % 256 * 2 ^ 8 + (s.x a).toNat / 2 ^ 56 % 256))))))))] :
      List (Instr × Word)),
    ∃ t, exec e.1 s = .next t ∧ XResult s t d e.2) ∧
  (∀ (s : State) (d a n : Nat) (i : Int), s.me.canWrite d = true → n < 64 →
    ∀ e ∈ ([
      (.addi d a i, s.x a + BitVec.ofInt 64 i),
      (.andi d a i, s.x a &&& BitVec.ofInt 64 i),
      (.ori d a i, s.x a ||| BitVec.ofInt 64 i),
      (.xori d a i, s.x a ^^^ BitVec.ofInt 64 i),
      (.slti d a i, if (s.x a).toInt < (BitVec.ofInt 64 i).toInt then 1 else 0),
      (.sltni d a i, if (s.x a).toNat < (BitVec.ofInt 64 i).toNat then 1 else 0),
      (.seqi d a i, if s.x a = BitVec.ofInt 64 i then 1 else 0),
      (.slli d a n, BitVec.ofNat 64 ((s.x a).toNat * 2 ^ n)),
      (.srli d a n, BitVec.ofNat 64 ((s.x a).toNat / 2 ^ n)),
      (.srai d a n, BitVec.ofInt 64 ((s.x a).toInt / 2 ^ n)),
      (.lih d i, BitVec.ofInt 64 (i * 4096)),
      (.adrp d i, s.pc + BitVec.ofInt 64 (i * 4))] : List (Instr × Word)),
    ∃ t, exec e.1 s = .next t ∧ XResult s t d e.2)

/-- Division never traps (R101): a zero divisor gives −1 as the quotient and the dividend as the remainder, −2^63 by −1 gives −2^63
and 0, and otherwise the quotient is rounded toward zero and the remainder takes the sign of the dividend. -/
def Obligations.DivisionNeverTraps : Prop :=
  ∀ (s : State) (d a b : Nat), s.me.canWrite d = true →
    ∀ e ∈ ([
      (.div d a b, if s.x b = 0 then -1 else if s.x a = 0x8000000000000000 ∧ s.x b = -1 then 0x8000000000000000
        else BitVec.ofInt 64 ((s.x a).toInt.tdiv (s.x b).toInt)),
      (.rem d a b, if s.x b = 0 then s.x a else if s.x a = 0x8000000000000000 ∧ s.x b = -1 then 0
        else BitVec.ofInt 64 ((s.x a).toInt.tmod (s.x b).toInt)),
      (.divn d a b, if s.x b = 0 then -1 else BitVec.ofNat 64 ((s.x a).toNat / (s.x b).toNat)),
      (.remn d a b, if s.x b = 0 then s.x a else BitVec.ofNat 64 ((s.x a).toNat % (s.x b).toNat))] : List (Instr × Word)),
    ∃ t, exec e.1 s = .next t ∧ XResult s t d e.2

/-- Branches and jumps (R46, R104, R105): to the target when the condition holds, else to the next instruction, and nothing else changes. With
`jl` and `jlr` the register takes the address of the next instruction, and the target of `jlr` is read before xd is written, also where
xd = xa; a misaligned target traps MISALIGNED with the target in TVAL. -/
def Obligations.ControlTransfers : Prop :=
  (∀ (s : State) (a b : Nat) (o : Int), s.mods = none →
    ∀ e ∈ ([
      (.beq a b o, s.x a = s.x b),
      (.bne a b o, s.x a ≠ s.x b),
      (.blt a b o, (s.x a).toInt < (s.x b).toInt),
      (.bge a b o, (s.x b).toInt ≤ (s.x a).toInt),
      (.bltn a b o, (s.x a).toNat < (s.x b).toNat),
      (.bgen a b o, (s.x b).toNat ≤ (s.x a).toNat),
      (.j o, True)] : List (Instr × Prop)),
    ∃ t, exec e.1 s = .next t ∧ (e.2 → GoesTo s t (s.pc + BitVec.ofInt 64 (o * 4))) ∧ (¬e.2 → GoesTo s t (s.pc + 4))) ∧
  (∀ (s : State) (d a : Nat) (o i : Int),
    (s.me.canWrite 31 = true → ∃ t, exec (.jl o) s = .next t ∧ XWritten s t 31 (s.pc + 4) (s.pc + BitVec.ofInt 64 (o * 4))) ∧
    (s.me.canWrite d = true → (s.x a + BitVec.ofInt 64 i).toNat % 4 = 0 →
      ∃ t, exec (.jlr d a i) s = .next t ∧ XWritten s t d (s.pc + 4) (s.x a + BitVec.ofInt 64 i)) ∧
    (s.me.canWrite d = true → (s.x a + BitVec.ofInt 64 i).toNat % 4 ≠ 0 →
      ∃ t, exec (.jlr d a i) s = .next t ∧ Traps s t .misaligned (s.x a + BitVec.ofInt 64 i)))

/-- Scalar floating point (R87, R120 to R122): the exact result rounded once with FPCTL.RM reaches the f register, a compare's or a
conversion's result the x register, the flags are raised in FPCTL, and every other register is as before; moves raise nothing. -/
def Obligations.ScalarFloatingPoint : Prop :=
  (∀ (s : State) (d a b : Nat) (f y : SFmt) (k : CvtInt),
    (∀ e ∈ ([
      (.fadd d a b f, addExact s.rm (s.fnum f a) (s.fnum f b)),
      (.fsub d a b f, subExact s.rm (s.fnum f a) (s.fnum f b)),
      (.fmul d a b f, (s.fnum f a).mul (s.fnum f b)),
      (.fdiv d a b f, (s.fnum f a).div (s.fnum f b)),
      (.fsqrt d a f, (s.fnum f a).sqrt),
      (.fmin d a b f, minExact (s.fnum f a) (s.fnum f b)),
      (.fmax d a b f, maxExact (s.fnum f a) (s.fnum f b)),
      (.fmac d a b f, fmaExact s.rm (s.fnum f d) (s.fnum f a) (s.fnum f b)),
      (.fnmac d a b f, fnmaExact s.rm (s.fnum f d) (s.fnum f a) (s.fnum f b)),
      (.fneg d a f, negExact (s.fnum f a)),
      (.fabs d a f, absExact (s.fnum f a)),
      (.fcvtIntToFp d a k f, (.ofInt (readInt (CvtInt.isSigned k) (CvtInt.width k) (s.x a).toNat), 0)),
      (.fcvtFpToFp d a y f, (s.fnum y a, 0))] : List (Instr × (Machine.Num × Flags))),
    ∃ t, exec e.1 s = .next t ∧
      FResult s t d (word (roundWith (SFmt.fmt f) s.rm e.2).1) (roundWith (SFmt.fmt f) s.rm e.2).2) ∧
    ∃ t, exec (.fmvf d a) s = .next t ∧ FResult s t d (s.x a) 0) ∧
  (∀ (s : State) (d a b : Nat) (f : SFmt) (k : CvtInt), s.me.canWrite d = true →
    (∀ e ∈ ([
      (.feq d a b f, (truth (eqFlags (s.fnum f a) (s.fnum f b)).1, (eqFlags (s.fnum f a) (s.fnum f b)).2)),
      (.flt d a b f, (truth (ltFlags (s.fnum f a) (s.fnum f b)).1, (ltFlags (s.fnum f a) (s.fnum f b)).2)),
      (.fle d a b f, (truth (leFlags (s.fnum f a) (s.fnum f b)).1, (leFlags (s.fnum f a) (s.fnum f b)).2)),
      (.fcvtFpToInt d a k f, (BitVec.ofInt 64 (toIntType s.rm (CvtInt.isSigned k) (CvtInt.width k) (s.fnum f a)).1,
        (toIntType s.rm (CvtInt.isSigned k) (CvtInt.width k) (s.fnum f a)).2))] : List (Instr × (Word × Flags))),
    ∃ t, exec e.1 s = .next t ∧ XFlagged s t d e.2.1 e.2.2) ∧
    ∃ t, exec (.fmvx d a) s = .next t ∧ XResult s t d (s.f a))

/-! ## Exceptions, their return, and `yield` -/

/-- `svc` and `break` (R118) take SYSCALL and BREAKPOINT with the immediate in TVAL. A control context enters its handler, EPC holding the
instruction's own address (R380), and a helper becomes HELD (R20). No x, f, v, p or t register and no byte of memory changes. -/
def Obligations.SystemCallsTrap : Prop :=
  ∀ (s : State) (i : Nat),
    (∃ t, exec (.svc i) s = .next t ∧ Traps s t .syscall (word i)) ∧ (∃ t, exec (.brk i) s = .next t ∧ Traps s t .breakpoint (word i))

/-- `tret` and `uret` (R116, R117). `tret` at S: PRIV and AE return from PPRIV and PAE, HCTX is 0, the pc goes to EPC, or to the EPC of the
helper that HCTX named, and no other register changes; at U it traps PRIVILEGE, and with a misaligned target MISALIGNED with the target in
TVAL. `uret`: UI becomes 0, so that register fields name the context's own bank again, the pc goes to UEPC, and both banks keep their values;
outside a user completion handler it traps ILLEGAL, and with a misaligned UEPC MISALIGNED. -/
def Obligations.HandlerReturns : Prop :=
  (∀ (s : State),
    let target := if s.me.hctx = 0 then s.me.epc else (s.ctx ⟨s.cur.core, s.me.hctx⟩).epc
    s.me.priv ≠ 0 → target.toNat % 4 = 0 →
      ∃ t, exec .tret s = .next t ∧ t.pc = target ∧ OnlyContext s t ∧
        t.me = { s.me with status := t.me.status, pc := target } ∧
        bits t.me.status 0 2 = bits s.me.status 2 2 ∧ bits t.me.status 4 1 = bits s.me.status 5 1 ∧ bits t.me.status 8 4 = 0 ∧
        ∀ k, (k = 2 ∨ k = 3 ∨ k = 5 ∨ k = 6 ∨ k = 7 ∨ 12 ≤ k) → t.me.status.getLsbD k = s.me.status.getLsbD k) ∧
  (∀ (s : State),
    (s.me.priv = 0 → ∃ t, exec .tret s = .next t ∧ Traps s t .privilege (s.insn.setWidth 64)) ∧
    (s.me.priv ≠ 0 → s.returnTarget.toNat % 4 ≠ 0 → ∃ t, exec .tret s = .next t ∧ Traps s t .misaligned s.returnTarget) ∧
    (s.me.ui = false → ∃ t, exec .uret s = .next t ∧ Traps s t .illegal (s.insn.setWidth 64)) ∧
    (s.me.ui = true → s.me.uepc.toNat % 4 ≠ 0 → ∃ t, exec .uret s = .next t ∧ Traps s t .misaligned s.me.uepc)) ∧
  (∀ (s : State), s.me.ui = true → s.me.uepc.toNat % 4 = 0 →
    ∃ t, exec .uret s = .next t ∧ t.pc = s.me.uepc ∧ OnlyContext s t ∧
      t.me = { s.me with status := t.me.status, pc := s.me.uepc } ∧ t.me.ui = false ∧
      (∀ k, k ≠ 6 → t.me.status.getLsbD k = s.me.status.getLsbD k) ∧
      ∀ n, t.x n = if n = 0 then 0 else smGet s.me.x n 0)

/-- `yield` (R119): no register, flag or byte of memory changes; every other ready context of the core is fetched before this one; and a slice
group with a budget starts its count afresh. Fences (R203), in a core whose accesses complete at their instructions (log entry 6): they leave
every register, flag and byte. -/
def Obligations.FencesAndYield : Prop :=
  (∀ (s : State), ∃ t, exec .yield s = .next t ∧
    t.me = { s.me with
      yielded := ctxNumbers.filter fun k => k != s.cur.ctx && (s.myCore.ctx k).life == .live && (s.myCore.ctx k).wait == .none
      pc := s.pc + s.len } ∧
    (∀ i, i ≠ s.cur → t.ctx i = s.ctx i) ∧ (∀ pa, t.homeByte pa = s.homeByte pa) ∧
    t.groupOf s.cur = (s.groupOf s.cur).map SliceGroup.refresh) ∧
  (∀ (s : State) (n : Nat), ∀ e ∈ ([.fence n, .fenceRel n, .fenceAcq n] : List Instr),
    ∃ t, exec e s = .next t ∧ GoesTo s t (s.pc + s.len))

/-- A user completion handler at U may not write x9 to x31 (R269). Every unprefixed instruction that names one of them as its destination,
and `jl`, whose destination is x31, traps ILLEGAL, with the instruction's word in TVAL. -/
def Obligations.HandlerRegistersProtected : Prop :=
  ∀ (s : State), s.me.ui = true → s.me.priv = 0 →
    (∀ i : Int, ∃ t, exec (.jl i) s = .next t ∧ Traps s t .illegal (s.insn.setWidth 64)) ∧
    ∀ (d a b c : Nat) (i : Int) (o : Bool) (f : SFmt) (k : CvtInt) (y : LdTy) (u : T8) (e : Eng) (w : WrKind), 9 ≤ d → ∀ j ∈ ([
      .add d a b, .sub d a b, .and d a b, .or d a b, .xor d a b, .andn d a b, .sll d a b, .srl d a b, .sra d a b, .rol d a b, .slt d a b,
      .sltn d a b, .seq d a b, .sne d a b, .min d a b, .max d a b, .minn d a b, .maxn d a b, .mul d a b, .mulh d a b, .mulhn d a b,
      .div d a b, .divn d a b, .rem d a b, .remn d a b, .clz d a, .ctz d a, .popc d a, .bswap d a, .sextI8 d a, .sextI16 d a, .sextI32 d a,
      .zextN8 d a, .zextN16 d a, .zextN32 d a, .addi d a i, .andi d a i, .ori d a i, .xori d a i, .slti d a i, .sltni d a i, .seqi d a i,
      .slli d a b, .srli d a b, .srai d a b, .lih d i, .adrp d i, .jlr d a i, .hstart d a b, .hstartN d a b, .svote d a, .sysrd d b,
      .syswr d a b, .sysset d a b, .sysclr d a b, .tnoteWrite w d a, .budgetWrite w d a, .modeWrite w d a, .qtabEnable w d a,
      .qtabDisable w d a, .lmsplitWrite w d a, .tshWrite w c d a, .rnscfgWrite w d a, .axctlWrite w c d a, .watchRegisterWrite w c d a,
      .ptrootWrite w d a, .tinvPage w d a, .tinvAsid w d a, .tinvPartition w d a, .hintWrite w d a, .prstGo w d a, .bellRing w d a,
      .stepctlRoll w d a, .preemptWrite w d a, .wdogWrite w d a, .topeerWrite w d a, .feq d a b f, .flt d a b f, .fle d a b f,
      .fcvtFpToInt d a k f, .fmvx d a, .ld d a y i, .amoSwap d a b u, .amoAdd d a b u, .amoAnd d a b u, .amoOr d a b u, .amoXor d a b u,
      .amoMin d a b u, .amoMax d a b u, .amoCas d a b u, .amoNib d a b, .amoSadd0 d a b o, .amoSadd1 d a b o, .amoSadd2 d a b o,
      .amoSadd3 d a b o, .ldTake d a y i, .l2Evict d a b, .pcnt d a c o, .pffs d a c o, .vbusy d, .astat a d, .ecopy d a b o,
      .egather d a b o, .escatter d a b o, .ecopy2d d a b o, .ecfill d a b o, .emigrate d a b o, .callred d a b o, .callgat d a b o,
      .credsc d a b o, .cbcast d a b o, .cabort d a o, .qpub d a b o, .qclaim d a b o, .qlaunch d a b o, .qsignal d a o, .xbind d a b o,
      .xfollow d a b o, .xtok d a b o, .xdetok d a b o, .xmask d a b o, .tget e d, .tgetE e d, .tgetA e d, .apxBegin d a b, .apxEnd d a,
      .apxCfg d a b, .apxInv d a, .apxStat d a, .apxLoad d a b o, .apxSave d a b o, .ccfg d a b o, .crejoin d a o, .cmrd d a, .cmwr d a b,
      .cstat d, .catch d a b, .catchNv d a b, .cwait d a b, .nmax d a b, .nsum d a b, .nsumMax d a b, .catchK d a b] : List Instr),
      ∃ t, exec j s = .next t ∧ Traps s t .illegal (s.insn.setWidth 64)

/-! ## Memory instructions -/

/-- Loads and stores whose access meets no error (R189, R190), on any page and in either mode, once another device, if the access is to one,
has answered. A load: the loaded bytes, lowest address least significant, sign- or zero-extended by the type, reach xd, and zero-extended reach
fd, and no other register changes. A store changes no register. Of the device only what an access changes. A scalar access to another
device that is not answered yet waits at its instruction, with its request outstanding (R351, R358; when the device answers is free, log entry
113). -/
def Obligations.LoadsAndStoresComplete : Prop :=
  (∀ (s v u : State) (d a : Nat) (y : LdTy) (w : FpW) (i : Int) (l : List Byte), s.awaitAnswer s.req .load (s.ea a i) = .ok v →
    (s.me.canWrite d = true → (s.ea a i).toNat % LdTy.bytes y = 0 →
      v.loadBytes v.req (vaRange (s.ea a i).toNat (LdTy.bytes y)) = .ok (l, u) →
      ∃ t, exec (.ld d a y i) s = .next t ∧ AccessFrame v u ∧
        XWritten u t d (BitVec.ofInt 64 (readInt (LdTy.signs y) (8 * LdTy.bytes y) (bytesToNat l))) (s.pc + s.len)) ∧
    ((s.ea a i).toNat % FpW.bytes w = 0 → v.loadBytes v.req (vaRange (s.ea a i).toNat (FpW.bytes w)) = .ok (l, u) →
      ∃ t, exec (.fld d a w i) s = .next t ∧ AccessFrame v u ∧ FResult u t d (BitVec.ofNat 64 (bytesToNat l)) 0)) ∧
  (∀ (s v u : State) (b a : Nat) (y : StTy) (w : FpW) (i : Int), s.awaitAnswer (s.reqW (s.ea a i).toNat) .store (s.ea a i) = .ok v →
    ((s.ea a i).toNat % StTy.bytes y = 0 →
      v.storeBytes (v.reqW (s.ea a i).toNat) (vaRange (s.ea a i).toNat (StTy.bytes y)) (natToBytes (StTy.bytes y) (s.x b).toNat)
        = .ok u →
      ∃ t, exec (.st b a y i) s = .next t ∧ AccessFrame v u ∧ GoesTo u t (s.pc + s.len)) ∧
    ((s.ea a i).toNat % FpW.bytes w = 0 →
      v.storeBytes (v.reqW (s.ea a i).toNat) (vaRange (s.ea a i).toNat (FpW.bytes w)) (natToBytes (FpW.bytes w) (s.f b).toNat)
        = .ok u →
      ∃ t, exec (.fst b a w i) s = .next t ∧ AccessFrame v u ∧ GoesTo u t (s.pc + s.len))) ∧
  (∀ (s : State) (rq : Req) (k : Acc) (e : Word) (x : Xlat), s.translate rq k e.toNat = .ok x →
    (isRemote x.pa = false → s.awaitAnswer rq k e = .ok s) ∧
    (∀ dev, regionOf x.pa = .remote dev → s.me.pairGo = false → rq.pure = none → (s.reqPart rq).peerDown.contains dev = false →
      s.awaitAnswer rq k e = (if Config.freeBool s.freeIdx then .ok (s.heardFrom dev) else .error (.wait (s.sendTo dev))))) ∧
  (∀ (s v : State) (d b a : Nat) (y : LdTy) (z : StTy) (w : FpW) (i : Int),
    (s.me.canWrite d = true → (s.ea a i).toNat % LdTy.bytes y = 0 → s.awaitAnswer s.req .load (s.ea a i) = .error (.wait v) →
      exec (.ld d a y i) s = .next v ∧ v.pc = s.pc ∧ ∀ n, v.x n = s.x n) ∧
    ((s.ea a i).toNat % FpW.bytes w = 0 → s.awaitAnswer s.req .load (s.ea a i) = .error (.wait v) →
      exec (.fld d a w i) s = .next v ∧ v.pc = s.pc ∧ ∀ n, v.f n = s.f n) ∧
    ((s.ea a i).toNat % StTy.bytes z = 0 → s.awaitAnswer (s.reqW (s.ea a i).toNat) .store (s.ea a i) = .error (.wait v) →
      exec (.st b a z i) s = .next v ∧ v.pc = s.pc ∧ v.mem = s.mem) ∧
    ((s.ea a i).toNat % FpW.bytes w = 0 → s.awaitAnswer (s.reqW (s.ea a i).toNat) .store (s.ea a i) = .error (.wait v) →
      exec (.fst b a w i) s = .next v ∧ v.pc = s.pc ∧ v.mem = s.mem))

/-- Loads and stores of a location of this device that nothing hinders (R54, R186, R189, R190, R210). A load outside the context's own backing
area (R89) completes with the bytes that the core sees at the translated address, and every byte of memory reads as before. A store in flow
mode leaves the low bytes of the register, least significant first, at the translated address, and every other byte of memory reads as
before. -/
def Obligations.LoadsReadAndStoresWriteHome : Prop :=
  (∀ (s : State) (d a : Nat) (y : LdTy) (w : FpW) (i : Int) (x : Xlat),
    s.translate s.req .load (s.ea a i).toNat = .ok x → Reaches s s.req x → s.unreadable (x.pa / 128) = false →
    (∀ k, k < 8 → s.ownBacking s.req ((s.ea a i).toNat + k) = false) →
    (s.me.canWrite d = true → (s.ea a i).toNat % LdTy.bytes y = 0 →
      ∃ t, exec (.ld d a y i) s = .next t ∧
        (d ≠ 0 → t.x d = BitVec.ofInt 64 (readInt (LdTy.signs y) (8 * LdTy.bytes y)
          (bytesToNat ((List.range (LdTy.bytes y)).map fun k => s.sees (x.pa + k))))) ∧
        (∀ n, n ≠ d → t.x n = s.x n) ∧ ∀ pa, t.homeByte pa = s.homeByte pa) ∧
    ((s.ea a i).toNat % FpW.bytes w = 0 →
      ∃ t, exec (.fld d a w i) s = .next t ∧
        t.f d = BitVec.ofNat 64 (bytesToNat ((List.range (FpW.bytes w)).map fun k => s.sees (x.pa + k))) ∧
        (∀ n, n ≠ d → t.f n = s.f n) ∧ ∀ pa, t.homeByte pa = s.homeByte pa)) ∧
  (∀ (s : State) (b a : Nat) (y : StTy) (w : FpW) (i : Int) (x : Xlat),
    MemoryCanonical s → s.stepMode s.cur.core = false → s.me.pureMarked = false →
    s.translate (s.reqW (s.ea a i).toNat) .store (s.ea a i).toNat = .ok x → Reaches s s.req x → smHas s.lines (x.pa / 128) = false →
    ((s.ea a i).toNat % StTy.bytes y = 0 →
      ∃ t, exec (.st b a y i) s = .next t ∧ t.me = { s.me with pc := s.pc + s.len } ∧ ∀ pa, t.homeByte pa =
        if x.pa ≤ pa ∧ pa < x.pa + StTy.bytes y then BitVec.ofNat 8 ((s.x b).toNat / 256 ^ (pa - x.pa)) else s.homeByte pa) ∧
    ((s.ea a i).toNat % FpW.bytes w = 0 →
      ∃ t, exec (.fst b a w i) s = .next t ∧ t.me = { s.me with pc := s.pc + s.len } ∧ ∀ pa, t.homeByte pa =
        if x.pa ≤ pa ∧ pa < x.pa + FpW.bytes w then BitVec.ofNat 8 ((s.f b).toNat / 256 ^ (pa - x.pa)) else s.homeByte pa))

/-- `st` in step mode to a page homed at L2 (R37, R178): the write enters the core's write set with its task id and its home, and
every byte of memory reads as before. -/
def Obligations.StepModeStoresWait : Prop :=
  ∀ (s : State) (b a : Nat) (y : StTy) (i : Int) (x : Xlat),
    s.stepMode s.cur.core = true → s.me.pureMarked = false →
    s.translate (s.reqW (s.ea a i).toNat) .store (s.ea a i).toNat = .ok x → Reaches s s.req x → isL2 x.pa = true →
    smHas s.lines (x.pa / 128) = false → s.myCore.filledBy s.myCore.taskId (x.pa / 128) = false →
    s.myCore.setLines.length < 4096 → s.shadowCount (s.placeOf s.req x).slice < 1024 →
    (s.ea a i).toNat % StTy.bytes y = 0 →
      ∃ t, exec (.st b a y i) s = .next t ∧ t.me = { s.me with pc := s.pc + s.len } ∧
        t.myCore.writeSet = s.myCore.writeSet ++ [⟨s.myCore.taskId, none, x.pa, s.placeOf s.req x, x.held,
          .bytes (natToBytes (StTy.bytes y) (s.x b).toNat)⟩] ∧
        ∀ pa, t.homeByte pa = s.homeByte pa

/-- Atomics (R191 to R194). One whose access meets no error, once another device has answered: the old value reaches xd, the new one is written
in the same event, and no other register changes; `amo.sadd` raises the flags of its conversion. An integer one in flow mode at a location
that nothing hinders (R210): xd takes the bytes that stood there, `amo.add` leaves the sum and `amo.swap` the operand, and every other byte
of memory reads as before. -/
def Obligations.Atomics : Prop :=
  (∀ (s v u : State) (d a b old : Nat) (y : T8) (wide : Bool), s.me.canWrite d = true →
    s.awaitAnswer (s.reqW (s.x a).toNat) .atomic (s.x a) = .ok v →
    (∀ e ∈ ([
      (.amoSwap d a b y, fun _ n => n),
      (.amoAdd d a b y, fun m n => m + n),
      (.amoAnd d a b y, fun m n => wrapInt 64 m &&& wrapInt 64 n),
      (.amoOr d a b y, fun m n => wrapInt 64 m ||| wrapInt 64 n),
      (.amoXor d a b y, fun m n => wrapInt 64 m ^^^ wrapInt 64 n),
      (.amoMin d a b y, min),
      (.amoMax d a b y, max),
      (.amoCas d a b y, fun m n => if m = readInt (T8.isSigned y) (8 * T8.bytes y) (s.x d).toNat then n else m)] :
      List (Instr × (Int → Int → Int))),
      (s.x a).toNat % T8.bytes y = 0 →
      v.atomicBytes (v.reqW (s.x a).toNat) (s.x a).toNat (T8.bytes y) (fun o => wrapInt (8 * T8.bytes y)
        (e.2 (readInt (T8.isSigned y) (8 * T8.bytes y) o) (readInt (T8.isSigned y) (8 * T8.bytes y) (s.x b).toNat))) = .ok (old, u) →
      ∃ t, exec e.1 s = .next t ∧ AccessFrame v u ∧
        XWritten u t d (BitVec.ofInt 64 (readInt (T8.isSigned y) (8 * T8.bytes y) old)) (s.pc + s.len)) ∧
    (v.atomicBytes (v.reqW (s.x a).toNat) (s.x a).toNat 1 (fun o =>
        o - o / 2 ^ (bits (s.x b) 4 1 * 4) % 16 * 2 ^ (bits (s.x b) 4 1 * 4) + bits (s.x b) 0 4 * 2 ^ (bits (s.x b) 4 1 * 4))
        = .ok (old, u) →
      ∃ t, exec (.amoNib d a b) s = .next t ∧ AccessFrame v u ∧
        XWritten u t d (BitVec.ofNat 64 (old / 2 ^ (bits (s.x b) 4 1 * 4) % 16)) (s.pc + s.len)) ∧
    ∀ e ∈ ([(.amoSadd0 d a b wide, 0), (.amoSadd1 d a b wide, 1), (.amoSadd2 d a b wide, 2), (.amoSadd3 d a b wide, 3)] :
      List (Instr × Nat)),
      let w := if wide then 8 else 4
      let q := saddConvert (decodeFp fp32 (s.f b).toNat) (decodeFp fp32 (smGet s.me.qscale e.2 0).toNat) (8 * w)
      (s.x a).toNat % w = 0 →
      v.atomicBytes (v.reqW (s.x a).toNat) (s.x a).toNat w (fun o => wrapInt (8 * w)
        (readInt true (8 * w) o + readInt true (8 * w) (wrapInt 64 q.1))) = .ok (old, u) →
      ∃ t, exec e.1 s = .next t ∧ AccessFrame v u ∧ XFlagged u t d (BitVec.ofInt 64 (readInt true (8 * w) old)) q.2) ∧
  (∀ (s : State) (d a b : Nat) (y : T8) (x : Xlat), s.me.canWrite d = true → d ≠ 0 →
    MemoryCanonical s → s.stepMode s.cur.core = false → s.me.pureMarked = false → (s.x a).toNat % T8.bytes y = 0 →
    s.translate (s.reqW (s.x a).toNat) .atomic (s.x a).toNat = .ok x → Reaches s s.req x → isL2 x.pa = true →
    smHas s.lines (x.pa / 128) = false → s.unreadable (x.pa / 128) = false →
    let old := bytesToNat ((List.range (T8.bytes y)).map fun k => s.homeByte (x.pa + k))
    ∀ e ∈ ([(.amoAdd d a b y, old + (s.x b).toNat), (.amoSwap d a b y, (s.x b).toNat)] : List (Instr × Nat)),
      ∃ t, exec e.1 s = .next t ∧ t.x d = BitVec.ofInt 64 (readInt (T8.isSigned y) (8 * T8.bytes y) old) ∧
        ∀ pa, t.homeByte pa = if x.pa ≤ pa ∧ pa < x.pa + T8.bytes y then BitVec.ofNat 8 (e.2 / 256 ^ (pa - x.pa)) else s.homeByte pa)

/-- `fadd.x` and `xacc.rd` in flow mode (R78, R79, R176, R195, R196): the addend joins the accumulator of its word and no byte of memory
changes; the read rounds the accumulator to its code, which reaches fd and the word, and releases the accumulator. -/
def Obligations.ExactAccumulators : Prop :=
  ∀ (s : State) (d a b : Nat) (y : XTy) (x : Xlat), s.stepMode s.cur.core = false → s.me.pureMarked = false → (s.x a).toNat % 4 = 0 →
    s.translate s.req .atomic (s.x a).toNat = .ok x → Reaches s s.req x → x.held = true → smHas s.lines (x.pa / 128) = false →
    (smHas s.accs x.pa = true ∨ s.accCount (s.placeOf s.req x).slice < 64 →
      ∃ t, exec (.faddX a b y) s = .next t ∧ t.me = { s.me with pc := s.pc + s.len } ∧ (∀ pa, t.homeByte pa = s.homeByte pa) ∧
        t.accs = smSet s.accs x.pa ((smGet s.accs x.pa (freshAcc (s.placeOf s.req x) s.myPart)).add
          (decodeFp fp32 (match y with | .f32 => (s.f b).toNat % 2 ^ 32 | .bf16 => (s.f b).toNat % 2 ^ 16 * 2 ^ 16)))) ∧
    (MemoryCanonical s → s.accs.all (fun e => !e.2.reserved) = true →
      let acc := smGet s.accs x.pa noAcc
      let r := accRead (match y with | .f32 => fp32 | .bf16 => Sys2Proof.Machine.bf16) acc.acc.toInt acc.pinf acc.ninf acc.nan
      ∃ t, exec (.xaccRd d a y) s = .next t ∧ t.f d = BitVec.ofNat 64 r.1 ∧ t.me.fpctl = orFlags s.me.fpctl r.2 ∧
        t.accs = smErase s.accs x.pa ∧
        ∀ pa, t.homeByte pa = if x.pa ≤ pa ∧ pa < x.pa + 4 then BitVec.ofNat 8 (r.1 / 256 ^ (pa - x.pa)) else s.homeByte pa)

/-- `ld.take`, `st.fill` and `rc.close` that meet no error (R174, R197 to R200): the taken bytes reach xd and RCSTAT the count that is left
and the lines taken; a fill changes no register; a close sets the closed bits of the region's lines and RCSTAT. The life of a counted line
in flow mode (R174): a fill of an uncounted line makes it COUNTED with its data, clears its closed bit and leaves every other line; a fill of a
counted one is RC_REFILL; a take returns its bytes and lowers the count, the take of a count of 1 drops the line; a take of an uncounted one is
OVERREAD. -/
def Obligations.CountedLines : Prop :=
  (∀ (s u : State) (d a b n : Nat) (y : LdTy) (i : Int) (xs : List Xlat) (l : List Byte),
    (s.me.canWrite d = true → (s.ea a i).toNat % LdTy.bytes y = 0 →
      s.reach (s.reqW (s.ea a i).toNat) .take (s.uncountable (s.reqW (s.ea a i).toNat)) (vaRange (s.ea a i).toNat (LdTy.bytes y)) = .ok xs →
      s.takeX (s.reqW (s.ea a i).toNat) xs = .ok (l, u) →
      ∃ t, exec (.ldTake d a y i) s = .next t ∧ AccessFrame s u ∧
        XWritten (u.modMe fun c => { c with
            rcstat := rcTaken c.rcstat (u.countOf ((xs.map (·.pa)).headD 0 / 128)) (lineHeads xs).length }) t d
          (BitVec.ofInt 64 (readInt (LdTy.signs y) (8 * LdTy.bytes y) (bytesToNat l))) (s.pc + s.len)) ∧
    ((s.x a).toNat % 128 = 0 →
      s.fillBytes (s.reqW (s.x a).toNat) (s.x a).toNat 1 ((List.range 16).flatMap fun k => natToBytes 8 (s.x (d + k)).toNat) n
        = .ok u →
      ∃ t, exec (.stFill d a n) s = .next t ∧ AccessFrame s u ∧ GoesTo u t (s.pc + s.len)) ∧
    ((s.x a).toNat % 128 = 0 → (s.x b).toNat % 128 = 0 → (s.x b).toNat ≤ 0x100000 →
      s.reach s.req .take (s.uncountable s.req) ((List.range ((s.x b).toNat / 128)).map fun k => ((s.x a).toNat + 128 * k) % 2 ^ 64)
        = .ok xs →
      (∀ x ∈ xs, s.countOf (x.pa / 128) = 0) →
      ∃ t, exec (.rcClose b a) s = .next t ∧
        t.me = { s.me with rcstat := rcClosed s.me.rcstat xs.length, pc := s.pc + s.len } ∧ t.lines = s.lines ∧
        (∀ line, t.closed.contains line = (s.closed.contains line || xs.any fun x => x.pa / 128 == line)) ∧
        ∀ pa, t.homeByte pa = s.homeByte pa)) ∧
  (∀ (s : State) (x : Xlat) (v : BitVec 1024) (n : Nat), s.stepMode s.cur.core = false → s.unreachable s.req x.pa = false →
    (smHas s.lines (x.pa / 128) = false → n ≠ 0 →
      ((s.l2.any fun l => l.1 == x.pa / 128 && l.2.place.pin) = true ∨ s.pinCount (s.placeOf s.req x).slice < 4096) →
      ∃ u, s.fillX s.req [(x, v)] n = .ok u ∧ AccessFrame s u ∧ u.countOf (x.pa / 128) = n ∧ u.closed.contains (x.pa / 128) = false ∧
        ∀ pa, u.homeByte pa = if pa / 128 = x.pa / 128 then v.extractLsb' (8 * (pa % 128)) 8 else s.homeByte pa) ∧
    (smHas s.lines (x.pa / 128) = true → n ≠ 0 → s.fillX s.req [(x, v)] n = .error (.counted .rcRefill x.va)) ∧
    (s.countOf (x.pa / 128) = n + 1 → s.unreadable (x.pa / 128) = false →
      ∃ u, s.takeX s.req [x] = .ok ([s.homeByte x.pa], u) ∧ AccessFrame s u ∧ u.mem = s.mem ∧
        (n = 0 → u.lines = smErase s.lines (x.pa / 128)) ∧ (n ≠ 0 → u.countOf (x.pa / 128) = n)) ∧
    (s.countOf (x.pa / 128) = 0 → s.takeX s.req [x] = .error (.counted .overread x.va)))

/-- Cache maintenance in flow mode (R171, R204): the region's lines of LC pages leave the core's cache portion with `lc.inv` and `lc.flush`,
and are clean after `lc.clean`; `lc.inv` changes no byte of memory; no register changes. `l2.evict` at S (R205): xd takes the number of the
region's lines that stay, the others leave the slices, and no byte changes. -/
def Obligations.CacheMaintenance : Prop :=
  (∀ (s : State) (a b : Nat) (parts : List (Xlat × Nat)), s.stepMode s.cur.core = false → s.regionXlat a b = .ok parts →
    let held := inRegion (parts.filter fun p => p.1.lc)
    (∃ t, exec (.lcInv a b) s = .next t ∧ t.me = { s.me with pc := s.pc + s.len } ∧ (∀ i, i ≠ s.cur → t.ctx i = s.ctx i) ∧
      t.myCore.lc = s.myCore.lc.filter (fun e => !held e.1) ∧ ∀ pa, t.homeByte pa = s.homeByte pa) ∧
    (∃ t, exec (.lcFlush a b) s = .next t ∧ t.me = { s.me with pc := s.pc + s.len } ∧ (∀ i, i ≠ s.cur → t.ctx i = s.ctx i) ∧
      t.myCore.lc = s.myCore.lc.filter (fun e => !held e.1)) ∧
    (∃ t, exec (.lcClean a b) s = .next t ∧ t.me = { s.me with pc := s.pc + s.len } ∧ (∀ i, i ≠ s.cur → t.ctx i = s.ctx i) ∧
      ∀ l, held l = true → (smGet t.myCore.lc l ⟨0, 0, ⟨0, false, false⟩⟩).dirty = 0)) ∧
  (∀ (s : State) (d a b : Nat) (parts : List (Xlat × Nat)), s.me.canWrite d = true → s.me.priv ≠ 0 → s.regionXlat a b = .ok parts →
    let region := inRegion (parts.filter fun p => p.1.held)
    ∃ t, exec (.l2Evict d a b) s = .next t ∧ (d ≠ 0 → t.x d = BitVec.ofNat 64 (s.heldLines.filter region).length) ∧
      (∀ n, n ≠ d → t.x n = s.x n) ∧
      t.l2 = s.l2.filter (fun l => !region l.1 || (s.heldLines.filter region).contains l.1) ∧
      ∀ pa, t.homeByte pa = s.homeByte pa)

/-- Misaligned data addresses (R54, R186, R189 to R198): MISALIGNED with the address in TVAL, and nothing of the instruction happens.
Translation faults of scalar accesses (R276, R278): LOAD_FAULT or STORE_FAULT with the faulting address in TVAL and its reason, level and
access in TFSTAT; a take reports LOAD_FAULT and an integer atomic STORE_FAULT. -/
def Obligations.MemoryTraps : Prop :=
  (∀ (s : State) (d a b n : Nat) (i : Int) (y : LdTy) (z : StTy) (w : FpW) (k : T8) (q : XTy) (wide : Bool), s.me.canWrite d = true →
    ∀ e ∈ ([
      (.ld d a y i, s.ea a i, LdTy.bytes y), (.st b a z i, s.ea a i, StTy.bytes z),
      (.fld d a w i, s.ea a i, FpW.bytes w), (.fst b a w i, s.ea a i, FpW.bytes w),
      (.amoSwap d a b k, s.x a, T8.bytes k), (.amoAdd d a b k, s.x a, T8.bytes k), (.amoAnd d a b k, s.x a, T8.bytes k),
      (.amoOr d a b k, s.x a, T8.bytes k), (.amoXor d a b k, s.x a, T8.bytes k), (.amoMin d a b k, s.x a, T8.bytes k),
      (.amoMax d a b k, s.x a, T8.bytes k), (.amoCas d a b k, s.x a, T8.bytes k),
      (.amoSadd0 d a b wide, s.x a, if wide then 8 else 4), (.amoSadd1 d a b wide, s.x a, if wide then 8 else 4),
      (.amoSadd2 d a b wide, s.x a, if wide then 8 else 4), (.amoSadd3 d a b wide, s.x a, if wide then 8 else 4),
      (.faddX a b q, s.x a, 4), (.xaccRd d a q, s.x a, 4),
      (.ldTake d a y i, s.ea a i, LdTy.bytes y), (.stFill d a n, s.x a, 128), (.rcClose b a, s.x a, 128)] :
      List (Instr × (Word × Nat))),
      e.2.1.toNat % e.2.2 ≠ 0 → ∃ t, exec e.1 s = .next t ∧ Traps s t .misaligned e.2.1) ∧
  (∀ (s : State) (d a b : Nat) (i : Int) (y : LdTy) (z : StTy) (w : FpW) (k : T8) (f : XFault), s.me.canWrite d = true →
    (s.translate s.req .load (s.ea a i).toNat = .error f → ∀ e ∈ ([(.ld d a y i, LdTy.bytes y), (.fld d a w i, FpW.bytes w)] :
      List (Instr × Nat)), (s.ea a i).toNat % e.2 = 0 →
        ∃ t, exec e.1 s = .next t ∧ Traps s t .loadFault (s.ea a i) (some (f.tfstat .load))) ∧
    (s.translate (s.reqW (s.ea a i).toNat) .store (s.ea a i).toNat = .error f →
      ∀ e ∈ ([(.st b a z i, StTy.bytes z), (.fst b a w i, FpW.bytes w)] : List (Instr × Nat)), (s.ea a i).toNat % e.2 = 0 →
        ∃ t, exec e.1 s = .next t ∧ Traps s t .storeFault (s.ea a i) (some (f.tfstat .store))) ∧
    ((s.ea a i).toNat % LdTy.bytes y = 0 → s.translate (s.reqW (s.ea a i).toNat) .take (s.ea a i).toNat = .error f →
      ∃ t, exec (.ldTake d a y i) s = .next t ∧ Traps s t .loadFault (s.ea a i) (some (f.tfstat .take))) ∧
    ((s.x a).toNat % T8.bytes k = 0 → s.translate (s.reqW (s.x a).toNat) .atomic (s.x a).toNat = .error f →
      ∀ e ∈ ([.amoSwap d a b k, .amoAdd d a b k, .amoAnd d a b k, .amoOr d a b k, .amoXor d a b k, .amoMin d a b k, .amoMax d a b k,
          .amoCas d a b k] : List Instr),
        ∃ t, exec e s = .next t ∧ Traps s t .storeFault (s.x a) (some (f.tfstat .atomic))))

/-! ## Vector instructions -/

/-- Bringing vector registers into the pool (R88, R89): nothing but the places of vector registers, and what spills write, changes;
resident registers that the instruction names keep their contents; an unwritten one reads zero; a pending VREG_FAULT is taken instead, and an
instruction that accesses none takes none. -/
def Obligations.VectorRegisterAccess : Prop :=
  ∀ (s : State) (reads writes : List Nat),
    (∀ u, s.vAccess reads writes = .ok u → PoolFrame s u ∧
      ∀ n ∈ reads ++ writes, ∀ d sd, s.me.vstate n = .resident d sd → u.me.vpair n = (d, sd)) ∧
    (s.me.vregFault = none → (∀ n ∈ reads ++ writes, (s.me.vstate n).isResident = true) → s.vAccess reads writes = .ok s) ∧
    (s.me.vregFault = none → (∀ n ∈ reads, s.me.vstate n = .unwritten) → writes = [] →
      s.vAccess reads writes = .ok s ∧ ∀ n ∈ reads, s.me.vpair n = (0, 0)) ∧
    (∀ a, s.me.vregFault = some a → reads ++ writes ≠ [] → s.vAccess reads writes = .error (.trap { cause := .vregFault, tval := a.1, tf := a.2 })) ∧
    s.vAccess [] [] = .ok s

/-- Integer and bitwise vector operations (R47, R123, R125, R126, R139). Arithmetic: each active element takes the operation's exact result,
wrapped, saturated or modified by the prefix in force; each inactive one and the sidecar keep their bits. Bitwise, by byte lanes, the scalar
form repeating xb in every eight bytes; `vsel` writes every lane. -/
def Obligations.VectorIntegerElements : Prop :=
  (∀ (s u : State) (m : Bool) (d a b p : Nat) (c : Bool) (y : T8),
    let w := T8.bytes y
    let vd := s.stag 0 d
    let reads := s.stag 1 a :: vd :: (s.vbOf m b).toList
    s.bodyFits = .ok () → s.queueRoom = true → s.vAccess reads [vd] = .ok u →
    let A := fun i => readInt (T8.isSigned y) (8 * w) (vElem (8 * w) (u.vdata (s.stag 1 a)) i)
    let B := fun i => readInt (T8.isSigned y) (8 * w) (if m then (u.x b).toNat else vElem (8 * w) (u.vdata (s.stag 2 b)) i)
    ∀ e ∈ ([
      (.vaddInt m d a b p c y, fun x z => finishInt (T8.isSigned y) (8 * w) s.prefixOf (x + z)),
      (.vsubInt m d a b p c y, fun x z => finishInt (T8.isSigned y) (8 * w) s.prefixOf (x - z)),
      (.vmulInt m d a b p c y, fun x z => finishInt (T8.isSigned y) (8 * w) s.prefixOf (x * z)),
      (.vmulh m d a b p c y, fun x z => wrapInt (8 * w) (x * z / 2 ^ (8 * w))),
      (.vminInt m d a b p c y, fun x z => wrapInt (8 * w) (min x z)),
      (.vmaxInt m d a b p c y, fun x z => wrapInt (8 * w) (max x z)),
      (.vshl m d a b p c y, fun x z => wrapInt (8 * w) (x * 2 ^ (z % (8 * w : Nat)).toNat)),
      (.vshr m d a b p c y, fun x z => wrapInt (8 * w) (x / 2 ^ (z % (8 * w : Nat)).toNat))] : List (Instr × (Int → Int → Nat))),
    ∃ t data, exec e.1 s = .next t ∧ VecResult u t vd data (u.vside vd) ⟨0, true, reads ++ [32 + p], [vd]⟩ ∧
      ∀ i, i < 256 / w → vElem (8 * w) data i
        = if u.active p c (w * i) then e.2 (A i) (B i) else vElem (8 * w) (u.vdata vd) i) ∧
  (∀ (s u : State) (m : Bool) (d a b p : Nat) (c : Bool),
    let vd := s.stag 0 d
    s.bodyFits = .ok () → s.queueRoom = true →
    let A := fun i => vElem 8 (u.vdata (s.stag 1 a)) i
    let B := fun i => if m then (u.x b).toNat / 2 ^ (8 * (i % 8)) % 256 else vElem 8 (u.vdata (s.stag 2 b)) i
    (s.vAccess (s.stag 1 a :: vd :: (s.vbOf m b).toList) [vd] = .ok u →
      ∀ e ∈ ([
        (.vand m d a b p c, fun x z => x &&& z), (.vor m d a b p c, fun x z => x ||| z),
        (.vxor m d a b p c, fun x z => x ^^^ z), (.vandn m d a b p c, fun x z => x &&& (255 - z))] : List (Instr × (Nat → Nat → Nat))),
      ∃ t data, exec e.1 s = .next t ∧
        VecResult u t vd data (u.vside vd) ⟨0, true, s.stag 1 a :: vd :: (s.vbOf m b).toList ++ [32 + p], [vd]⟩ ∧
        ∀ i, i < 256 → vElem 8 data i = if u.active p c i then e.2 (A i) (B i) else vElem 8 (u.vdata vd) i) ∧
    (s.vAccess (s.stag 1 a :: (s.vbOf m b).toList) [vd] = .ok u →
      ∃ t data, exec (.vsel m d a b p c) s = .next t ∧
        VecResult u t vd data (u.vside vd) ⟨0, true, s.stag 1 a :: (s.vbOf m b).toList ++ [32 + p], [vd]⟩ ∧
        ∀ i, i < 256 → vElem 8 data i = if u.active p c i then A i else B i))

/-- Floating-point vector arithmetic (R65, R68, R125, R126): each active element is the exact result rounded once with FPCTL.RM, modified by
the prefix in force; the flags of all active elements are queued to be recorded. -/
def Obligations.VectorFpElements : Prop :=
  ∀ (s u : State) (m : Bool) (d a b p : Nat) (c : Bool) (y : FTy),
    let w := FTy.bits y
    let vd := s.stag 0 d
    s.bodyFits = .ok () → s.queueRoom = true →
    let A := fun i => decodeFp (FTy.fmt y) (vElem w (u.vdata (s.stag 1 a)) i)
    let B := fun i => decodeFp (FTy.fmt y) (if m then (u.f b).toNat % 2 ^ w else vElem w (u.vdata (s.stag 2 b)) i)
    let D := fun i => decodeFp (FTy.fmt y) (vElem w (u.vdata vd) i)
    (s.vAccess (s.stag 1 a :: vd :: (s.vbOf m b).toList) [vd] = .ok u →
      ∀ e ∈ ([
        (.vaddFp m d a b p c y, fun x z _ => finishWith (FTy.fmt y) s.rm s.prefixOf (addExact s.rm x z)),
        (.vsubFp m d a b p c y, fun x z _ => finishWith (FTy.fmt y) s.rm s.prefixOf (subExact s.rm x z)),
        (.vmulFp m d a b p c y, fun x z _ => finishWith (FTy.fmt y) s.rm s.prefixOf (x.mul z)),
        (.vfma m d a b p c y, fun x z v => finishWith (FTy.fmt y) s.rm s.prefixOf (fmaExact s.rm v x z)),
        (.vfnma m d a b p c y, fun x z v => finishWith (FTy.fmt y) s.rm s.prefixOf (fnmaExact s.rm v x z)),
        (.vminFp m d a b p c y, fun x z _ => finishWith (FTy.fmt y) s.rm s.prefixOf (minExact x z)),
        (.vmaxFp m d a b p c y, fun x z _ => finishWith (FTy.fmt y) s.rm s.prefixOf (maxExact x z))] :
        List (Instr × (Machine.Num → Machine.Num → Machine.Num → Nat × Flags))),
      ∃ t data, exec e.1 s = .next t ∧
        VecResult u t vd data (u.vside vd)
          ⟨flagsOf (2048 / w) fun i => if u.active p c (w / 8 * i) then (e.2 (A i) (B i) (D i)).2 else 0, true,
            s.stag 1 a :: vd :: (s.vbOf m b).toList ++ [32 + p], [vd]⟩ ∧
        ∀ i, i < 2048 / w → vElem w data i
          = if u.active p c (w / 8 * i) then (e.2 (A i) (B i) (D i)).1 % 2 ^ w else vElem w (u.vdata vd) i) ∧
    (s.vAccess [s.stag 1 a, vd] [vd] = .ok u →
      ∀ e ∈ ([(.vabs d a p c y, absExact), (.vneg d a p c y, negExact)] : List (Instr × (Machine.Num → Machine.Num × Flags))),
      ∃ t data, exec e.1 s = .next t ∧
        VecResult u t vd data (u.vside vd)
          ⟨flagsOf (2048 / w) fun i => if u.active p c (w / 8 * i) then (roundWith (FTy.fmt y) s.rm (e.2 (A i))).2 else 0, true,
            [s.stag 1 a, vd, 32 + p], [vd]⟩ ∧
        ∀ i, i < 2048 / w → vElem w data i
          = if u.active p c (w / 8 * i) then (roundWith (FTy.fmt y) s.rm (e.2 (A i))).1 % 2 ^ w else vElem w (u.vdata vd) i)

/-- Special functions, refinement steps and `vmul.lg6` (R73, R135 to R137): each active element takes the function's code. -/
def Obligations.VectorSpecialFunctions : Prop :=
  ∀ (s u : State) (d a b p : Nat) (c : Bool),
    let vd := s.stag 0 d
    s.bodyFits = .ok () → s.queueRoom = true →
    let A := fun i => decodeFp fp32 (vElem 32 (u.vdata (s.stag 1 a)) i)
    let B := fun i => decodeFp fp32 (vElem 32 (u.vdata (s.stag 2 b)) i)
    (s.vAccess [s.stag 1 a, vd] [vd] = .ok u →
      ∀ e ∈ ([
        (.vrcp d a p c, rcpEst), (.vrsq d a p c, rsqEst),
        (.vexp2 d a p c, fun x => finishWith fp32 s.rm s.prefixOf (exp2Num x)),
        (.vlog2 d a p c, fun x => finishWith fp32 s.rm s.prefixOf (log2Num x))] : List (Instr × (Machine.Num → Nat × Flags))),
      ∃ t data, exec e.1 s = .next t ∧
        VecResult u t vd data (u.vside vd)
          ⟨flagsOf 64 fun i => if u.active p c (4 * i) then (e.2 (A i)).2 else 0, true, [s.stag 1 a, vd, 32 + p], [vd]⟩ ∧
        ∀ i, i < 64 → vElem 32 data i = if u.active p c (4 * i) then (e.2 (A i)).1 % 2 ^ 32 else vElem 32 (u.vdata vd) i) ∧
    (s.vAccess [s.stag 1 a, vd, s.stag 2 b] [vd] = .ok u →
      (∀ e ∈ ([(.vrcps d a b p c, rcpStep), (.vrsqs d a b p c, rsqStep)] : List (Instr × (Machine.Num → Machine.Num → Nat × Flags))),
        ∃ t data, exec e.1 s = .next t ∧
          VecResult u t vd data (u.vside vd)
            ⟨flagsOf 64 fun i => if u.active p c (4 * i) then (e.2 (A i) (B i)).2 else 0, true, [s.stag 1 a, vd, s.stag 2 b, 32 + p], [vd]⟩ ∧
          ∀ i, i < 64 → vElem 32 data i = if u.active p c (4 * i) then (e.2 (A i) (B i)).1 % 2 ^ 32 else vElem 32 (u.vdata vd) i) ∧
      ∃ t data, exec (.vmulLg6 d a b p c) s = .next t ∧
        VecResult u t vd data (u.vside vd)
          ⟨flagsOf 256 fun i => if u.active p c i then (lg6Mul (vElem 8 (u.vdata (s.stag 1 a)) i) (vElem 8 (u.vdata (s.stag 2 b)) i)).2
            else 0, true, [s.stag 1 a, vd, s.stag 2 b, 32 + p], [vd]⟩ ∧
        ∀ i, i < 256 → vElem 8 data i = if u.active p c i then
          lg6Finish s.prefixOf (lg6Mul (vElem 8 (u.vdata (s.stag 1 a)) i) (vElem 8 (u.vdata (s.stag 2 b)) i)).1 % 2 ^ 8
          else vElem 8 (u.vdata vd) i)

/-- Vector compares (R127): every byte lane of an active element takes the element's truth, the others keep theirs. -/
def Obligations.VectorCompares : Prop :=
  ∀ (s u : State) (d a b p : Nat) (c : Bool) (y : T8) (z : FTy),
    s.bodyFits = .ok () → s.queueRoom = true → s.vAccess [s.stag 1 a, s.stag 2 b] [] = .ok u →
    let I := fun n i => readInt (T8.isSigned y) (8 * T8.bytes y) (vElem (8 * T8.bytes y) (u.vdata n) i)
    let F := fun n i => decodeFp (FTy.fmt z) (vElem (FTy.bits z) (u.vdata n) i)
    (∀ e ∈ ([
      (.vceqInt d a b p c y, fun v w => v == w), (.vcneInt d a b p c y, fun v w => v != w),
      (.vcltInt d a b p c y, fun v w => decide (v < w)), (.vcleInt d a b p c y, fun v w => decide (v ≤ w))] :
      List (Instr × (Int → Int → Bool))),
      ∃ t new, exec e.1 s = .next t ∧ PredResult u t d new ⟨0, true, [s.stag 1 a, s.stag 2 b, 32 + p, 32 + d], (predDest d).map (32 + ·)⟩ ∧
        ∀ l, l < 256 → new.getLsbD l =
          if u.active p c (l / T8.bytes y * T8.bytes y) then e.2 (I (s.stag 1 a) (l / T8.bytes y)) (I (s.stag 2 b) (l / T8.bytes y))
          else (u.me.pred d).getLsbD l) ∧
    ∀ e ∈ ([
      (.vceqFp d a b p c z, eqFlags), (.vcneFp d a b p c z, fun v w => (!(eqFlags v w).1, (eqFlags v w).2)),
      (.vcltFp d a b p c z, ltFlags), (.vcleFp d a b p c z, leFlags), (.vcun d a b p c z, unordFlags)] :
      List (Instr × (Machine.Num → Machine.Num → Bool × Flags))),
      let k := FTy.bits z / 8
      ∃ t new, exec e.1 s = .next t ∧
        PredResult u t d new ⟨flagsOf (256 / k) fun i => if u.active p c (k * i) then (e.2 (F (s.stag 1 a) i) (F (s.stag 2 b) i)).2 else 0,
          true, [s.stag 1 a, s.stag 2 b, 32 + p, 32 + d], (predDest d).map (32 + ·)⟩ ∧
        ∀ l, l < 256 → new.getLsbD l =
          if u.active p c (l / k * k) then (e.2 (F (s.stag 1 a) (l / k)) (F (s.stag 2 b) (l / k))).1 else (u.me.pred d).getLsbD l

/-- Predicate instructions (R47, R128): the lanes that the governing predicate activates take the operation's bits and the others stay;
`pcnt` counts the active set lanes and `pffs` gives the lowest, or 256. -/
def Obligations.PredicateInstructions : Prop :=
  ∀ (s : State) (d a b p : Nat) (c : Bool), s.bodyFits = .ok () → s.queueRoom = true →
    (∀ e ∈ ([
      (.pand d a b p c, [a, b], fun l => (s.me.pred a).getLsbD l && (s.me.pred b).getLsbD l),
      (.por d a b p c, [a, b], fun l => (s.me.pred a).getLsbD l || (s.me.pred b).getLsbD l),
      (.pxor d a b p c, [a, b], fun l => (s.me.pred a).getLsbD l != (s.me.pred b).getLsbD l),
      (.pandn d a b p c, [a, b], fun l => (s.me.pred a).getLsbD l && !(s.me.pred b).getLsbD l),
      (.pnot d a p c, [a], fun l => !(s.me.pred a).getLsbD l),
      (.pmask d a p c, [], fun l => decide (l < (s.x a).toNat))] : List (Instr × (List Nat × (Nat → Bool)))),
      ∃ t new, exec e.1 s = .next t ∧ PredResult s t d new ⟨0, true, (p :: d :: e.2.1).map (32 + ·), (predDest d).map (32 + ·)⟩ ∧
        ∀ l, l < 256 → new.getLsbD l = if s.active p c l then e.2.2 l else (s.me.pred d).getLsbD l) ∧
    (s.me.canWrite d = true →
      let set := (List.range 256).filter fun l => (s.me.pred a).getLsbD l && s.active p c l
      ∀ e ∈ ([(.pcnt d a p c, set.length), (.pffs d a p c, set.head?.getD 256)] : List (Instr × Nat)),
      ∃ t, exec e.1 s = .next t ∧ (d ≠ 0 → t.x d = BitVec.ofNat 64 e.2) ∧ (∀ n, n ≠ d → t.x n = s.x n) ∧
        VecQueued s t ⟨0, true, [32 + a, 32 + p], []⟩)

/-- Permutes (R129): `vperm` picks elements by index modulo the element count, `vcompress` packs the active elements and zeroes the rest,
`vexpand` spreads the lowest elements over the active ones and zeroes the others. -/
def Obligations.VectorPermutes : Prop :=
  ∀ (s u : State) (d a b p : Nat) (c : Bool) (y : T8),
    let w := T8.bytes y
    let n := 256 / w
    let vd := s.stag 0 d
    s.bodyFits = .ok () → s.queueRoom = true →
    let A := fun i => vElem (8 * w) (u.vdata (s.stag 1 a)) i
    (s.vAccess [s.stag 1 a, s.stag 2 b, vd] [vd] = .ok u →
      ∃ t data, exec (.vperm d a b p c y) s = .next t ∧
        VecResult u t vd data (u.vside vd) ⟨0, true, [s.stag 1 a, s.stag 2 b, vd, 32 + p], [vd]⟩ ∧
        ∀ i, i < n → vElem (8 * w) data i
          = if u.active p c (w * i) then A (vElem (8 * w) (u.vdata (s.stag 2 b)) i % n) else vElem (8 * w) (u.vdata vd) i) ∧
    (s.vAccess [s.stag 1 a] [vd] = .ok u →
      (∃ t data, exec (.vcompress d a p c y) s = .next t ∧ VecResult u t vd data (u.vside vd) ⟨0, true, [s.stag 1 a, 32 + p], [vd]⟩ ∧
        ∀ i, i < n → vElem (8 * w) data i = (((List.range n).filter fun j => u.active p c (w * j)).map A).getD i 0) ∧
      ∃ t data, exec (.vexpand d a p c y) s = .next t ∧ VecResult u t vd data (u.vside vd) ⟨0, true, [s.stag 1 a, 32 + p], [vd]⟩ ∧
        ∀ i, i < n → vElem (8 * w) data i
          = if u.active p c (w * i) then A ((List.range i).filter fun j => u.active p c (w * j)).length else 0)

/-- Integer reductions (R130): the sum of the active elements modulo 2^64, and the least or greatest of them with the lowest index that holds
it; with no active element 0, the type's extreme, and an index of all ones. Every other bit of the register is zero. Floating-point
reductions (R130): the exact sum of the active elements rounded once, and the extremes with their index, as R130's rule `extremeFp` picks
them. -/
def Obligations.VectorReductions : Prop :=
  (∀ (s u : State) (d a p : Nat) (c : Bool) (y : T8),
    let w := T8.bytes y
    let vd := s.stag 0 d
    s.bodyFits = .ok () → s.queueRoom = true → s.vAccess [s.stag 1 a] [vd] = .ok u →
    let A := fun i => readInt (T8.isSigned y) (8 * w) (vElem (8 * w) (u.vdata (s.stag 1 a)) i)
    let acts := (List.range (256 / w)).filter fun i => u.active p c (w * i)
    let least := fun (v : Int) (k : Nat) => (acts = [] ∧ v = maxInt (T8.isSigned y) (8 * w) ∧ k = 0xFFFFFFFF) ∨
      (k ∈ acts ∧ v = A k ∧ ∀ j ∈ acts, A k ≤ A j ∧ (j < k → A k < A j))
    let greatest := fun (v : Int) (k : Nat) => (acts = [] ∧ v = minInt (T8.isSigned y) (8 * w) ∧ k = 0xFFFFFFFF) ∨
      (k ∈ acts ∧ v = A k ∧ ∀ j ∈ acts, A j ≤ A k ∧ (j < k → A j < A k))
    ∀ e ∈ ([
      (.vredsumInt d a p c y, fun v k => v = (acts.map A).sum ∧ k = 0, 0),
      (.vredminInt d a p c y, least, 0), (.vredmaxInt d a p c y, greatest, 0),
      (.vargmaxInt d a p c y, greatest, 1), (.vargminInt d a p c y, least, 1)] : List (Instr × ((Int → Nat → Prop) × Nat))),
    ∃ t v k, exec e.1 s = .next t ∧ e.2.1 v k ∧
      VecResult u t vd (BitVec.ofNat 2048 (wrapInt 64 v + e.2.2 * k * 2 ^ 64)) (u.vside vd) ⟨0, true, [s.stag 1 a, 32 + p], [vd]⟩) ∧
  (∀ (s u : State) (d a p : Nat) (c : Bool) (y : FTy),
    let w := FTy.bits y
    let vd := s.stag 0 d
    s.bodyFits = .ok () → s.queueRoom = true → s.vAccess [s.stag 1 a] [vd] = .ok u →
    let acts := ((List.range (2048 / w)).filter fun i => u.active p c (w / 8 * i)).map fun i => (i, vElem w (u.vdata (s.stag 1 a)) i)
    let sum := roundWith (FTy.fmt y) s.rm (sumNums (s.rm = .down) (acts.map fun e => decodeFp (FTy.fmt y) e.2))
    let low := extremeFp (FTy.fmt y) Num.ltz acts
    let high := extremeFp (FTy.fmt y) (fun v z => z.ltz v) acts
    ∀ e ∈ ([
      (.vredsumFp d a p c y, sum),
      (.vredminFp d a p c y, (low.1, low.2.2)), (.vredmaxFp d a p c y, (high.1, high.2.2)),
      (.vargmaxFp d a p c y, (high.1 + high.2.1 * 2 ^ 64, high.2.2)),
      (.vargminFp d a p c y, (low.1 + low.2.1 * 2 ^ 64, low.2.2))] : List (Instr × (Nat × Flags))),
    ∃ t, exec e.1 s = .next t ∧
      VecResult u t vd (BitVec.ofNat 2048 e.2.1) (u.vside vd) ⟨e.2.2, true, [s.stag 1 a, 32 + p], [vd]⟩)

/-- Conversions between element formats (R131, R132): element `i` of the narrower register answers to element `i` of the group, its lane
decides, and the group starts at a multiple of its size, or the instruction traps ILLEGAL. -/
def Obligations.VectorConversions : Prop :=
  ∀ (s u : State) (d a p : Nat) (c : Bool) (k : CvtPair),
    let lo := CvtPair.small k
    let hi := CvtPair.big k
    let n := 2048 / lo.width
    let r := hi.width / lo.width
    let vd := s.stag 0 d
    let va := s.stag 1 a
    let act := fun i => u.active p c (i * lo.width / 8)
    let wide := fun first i => vElem hi.width (u.vdata ((first + i / (2048 / hi.width)) % 32)) (i % (2048 / hi.width))
    (vd % r = 0 → s.bodyFits = .ok () → s.queueRoom = true → s.vAccess (va :: groupRegs vd r) (groupRegs vd r) = .ok u →
      let new := fun i => (Kind.fp hi).convert s.prefixOf (lo.value (vElem lo.width (u.vdata va) i))
      ∃ t, exec (.vcvt d a p c k true) s = .next t ∧
        GroupResult u t hi.width vd r (fun i => if act i then (new i).1 % 2 ^ hi.width else wide vd i)
          ⟨flagsOf n fun i => if act i then (new i).2 else 0, true, va :: groupRegs vd r ++ [32 + p], groupRegs vd r⟩) ∧
    (va % r = 0 → s.bodyFits = .ok () → s.queueRoom = true → s.vAccess (vd :: groupRegs va r) [vd] = .ok u →
      let new := fun i => lo.convert s.prefixOf (decodeFp hi (wide va i))
      ∃ t data, exec (.vcvt d a p c k false) s = .next t ∧
        VecResult u t vd data (u.vside vd) ⟨flagsOf n fun i => if act i then (new i).2 else 0, true, vd :: groupRegs va r ++ [32 + p], [vd]⟩ ∧
        ∀ i, i < n → vElem lo.width data i = if act i then (new i).1 % 2 ^ lo.width else vElem lo.width (u.vdata vd) i) ∧
    (vd % r ≠ 0 → ∃ t, exec (.vcvt d a p c k true) s = .next t ∧ Traps s t .illegal (s.insn.setWidth 64)) ∧
    (va % r ≠ 0 → ∃ t, exec (.vcvt d a p c k false) s = .next t ∧ Traps s t .illegal (s.insn.setWidth 64))

/-- Block formats (R70, R133 to R135): conversions to FB and MX write a register with its scales, conversions from them a group of FP32
registers, and block arithmetic is exact on the scaled values before it is renormalised. -/
def Obligations.VectorBlockFormats : Prop :=
  ∀ (s u : State) (d a b : Nat) (fb4 : Bool),
    let r := 32 / fbWidth fb4
    let vd := s.stag 0 d
    let va := s.stag 1 a
    let vb := s.stag 2 b
    let group := fun k => (List.range (k * 64)).map fun i => vElem 32 (u.vdata ((va + i / 64) % 32)) (i % 64)
    let values := fun n => fbValues fb4 (u.vdata n) (u.vside n)
    s.bodyFits = .ok () → s.queueRoom = true →
    (va % r = 0 → s.vAccess (groupRegs va r) [vd] = .ok u →
      let out := fbRegister fb4 ((group r).map fun x => (modify s.prefixOf (decodeFp fp32 x), sigFlags [decodeFp fp32 x]))
      ∃ t, exec (.vcvtFb d a fb4 false) s = .next t ∧ VecResult u t vd out.1 out.2.1 ⟨out.2.2, true, groupRegs va r, [vd]⟩) ∧
    (vd % r = 0 → s.vAccess [va] (groupRegs vd r) = .ok u →
      let out := (values va).map (finishFp fp32 .ne s.prefixOf)
      ∃ t, exec (.vcvtFb d a fb4 true) s = .next t ∧
        GroupResult u t 32 vd r (fun i => (out.getD i (0, 0)).1 % 2 ^ 32)
          ⟨out.foldl (fun f x => f ||| x.2) 0, true, [va], groupRegs vd r⟩) ∧
    (va % 8 = 0 → s.vAccess (groupRegs va 8) [vd] = .ok u →
      let bs := (blocksOf 32 16 ((group 8).map fun x => modify s.prefixOf (decodeFp fp32 x))).map mxBlock
      ∃ t, exec (.vmxcvt d a false) s = .next t ∧
        VecResult u t vd (vJoin 4 (bs.flatMap (·.1))) (BitVec.ofNat 1280 (joinElems 8 (bs.map (·.2.1))))
          ⟨bs.foldl (fun f x => f ||| x.2.2) 0, true, groupRegs va 8, [vd]⟩) ∧
    (vd % 8 = 0 → s.vAccess [va] (groupRegs vd 8) = .ok u →
      let out := (List.range 512).map fun i => finishFp fp32 .ne s.prefixOf (scaledValue
        (decodeFp Sys2Proof.Machine.e2m1 (vElem 4 (u.vdata va) i)) (e8m0Value ((u.vside va).toNat / 2 ^ (8 * (i / 32)) % 256)))
      ∃ t, exec (.vmxcvt d a true) s = .next t ∧
        GroupResult u t 32 vd 8 (fun i => (out.getD i (0, 0)).1 % 2 ^ 32)
          ⟨out.foldl (fun f x => f ||| x.2) 0, true, [va], groupRegs vd 8⟩) ∧
    (s.vAccess [va, vb] [vd] = .ok u →
      ∀ e ∈ ([
        (.vaddFb d a b fb4, fun x z => x.add false z), (.vsubFb d a b fb4, fun x z => x.add false z.negate),
        (.vmulFb d a b fb4, fun x z => x.mul z)] : List (Instr × (Machine.Num → Machine.Num → Machine.Num × Flags))),
      let out := fbRegister fb4 (((values va).zip (values vb)).map fun x => (modify s.prefixOf (e.2 x.1 x.2).1, (e.2 x.1 x.2).2))
      ∃ t, exec e.1 s = .next t ∧ VecResult u t vd out.1 out.2.1 ⟨out.2.2, true, [va, vb], [vd]⟩)

/-- `vdup`, `vrep`, `vbusy` and `vfence` (R138, R139, R141): the broadcast, the loaded repetition buffer (a count of 0 skips the body), the
number of the context's vector instructions that have not completed, and the wait for all of them, which `vfence` does at the head of the
engine queue; `vbusy` leaves its own entry in a queue that is not empty. -/
def Obligations.VectorControl : Prop :=
  ∀ (s u : State) (d b p : Nat) (c : Bool) (y : T8) (z : FTy),
    (s.queueRoom = true → s.vAccess [d] [d] = .ok u →
      ∀ e ∈ ([(.vdupInt d b p c y, T8.bytes y, (s.x b).toNat), (.vdupFp d b p c z, FTy.bits z / 8, (s.f b).toNat)] :
        List (Instr × (Nat × Nat))),
      let w := e.2.1
      ∃ t data, exec e.1 s = .next t ∧ t.me.vpair d = (data, u.vside d) ∧ (∀ n, n ≠ d → t.me.vpair n = u.me.vpair n) ∧
        t.me = { u.me with v := t.me.v, pc := u.pc + u.len } ∧ VecQueued u t ⟨0, true, [d, 32 + p], [d]⟩ ∧
        ∀ i, i < 256 / w → vElem (8 * w) data i
          = if u.active p c (w * i) then e.2.2 % 2 ^ (8 * w) else vElem (8 * w) (u.vdata d) i) ∧
    (s.queueRoom = true → ∃ t, exec (.vrep b) s = .next t ∧ VecQueued s t ⟨0, true, [], []⟩ ∧
      (bits (s.x b) 0 6 = 0 → t.me = { s.me with pc := s.pc + BitVec.ofNat 64 (8 + 4 * bits (s.x b) 8 4) }) ∧
      (bits (s.x b) 0 6 ≠ 0 → t.me = { s.me with pc := s.pc + s.len, vrep := t.me.vrep } ∧ t.me.repActive = true ∧
        bits t.me.vrep 0 6 = bits (s.x b) 0 6 ∧ bits t.me.vrep 8 4 = bits (s.x b) 8 4 ∧ bits t.me.vrep 16 5 = bits (s.x b) 16 5 ∧
        bits t.me.vrep 24 3 = bits (s.x b) 24 3 ∧ bits t.me.vrep 40 6 = 0 ∧ bits t.me.vrep 48 4 = 0)) ∧
    (s.me.canWrite d = true → s.queueRoom = true →
      ∃ t, exec (.vbusy d) s = .next (t.enqueueUnit true) ∧
        XResult s t d (BitVec.ofNat 64 (s.pendingVector s.cur.core s.cur.ctx))) ∧
    (∀ h, AtHead s h →
      (h.pendingVector s.cur.core s.cur.ctx = 0 → ∃ t, exec .vfence s = .next t ∧ GoesTo h t (s.pc + s.len)) ∧
      (h.pendingVector s.cur.core s.cur.ctx ≠ 0 →
        ∃ t, exec .vfence s = .next t ∧ t.me = { s.me with wait := .retry } ∧ OnlyContext (h.holdHead .vfence) t)) ∧
    (s.queueRoom = true → s.myCore.queue ≠ [] → (∀ e ∈ s.myCore.queue, e.isMemoryOf s.cur.ctx = false) →
      ∃ t, exec .vfence s = .next t ∧ t.me = { s.me with wait := .retry } ∧ OnlyContext (s.enqueue (.memory .vfence false)) t)

/-- Vector memory instructions at the head of the engine queue whose access meets no error (R23, R201, R202): loads and gathers place the
bytes in the active lanes and keep the others, takes and sidecar loads write their part whole, and stores change no register. -/
def Obligations.VectorMemory : Prop :=
  ∀ (s h u v : State) (d a b p : Nat) (c w : Bool) (l : List Byte), s.bodyFits = .ok () → AtHead s h →
    let vd := s.stag 0 d
    let base := (s.x a).toNat
    let k := if w then 8 else 4
    let lanes := (List.range 256).filter (u.active p c)
    let elems := u.indexed (s.stag 1 a) b p c w
    (base % 4 = 0 → h.vAccess [vd] [vd] = .ok u → u.loadBytes u.req (lanes.map fun i => (base + i) % 2 ^ 64) = .ok (l, v) →
      ∃ t, exec (.vld d a p c) s = .next t ∧ AccessFrame u v ∧
        VecLoaded v t vd (placeBytes (u.vdata vd) lanes l) (u.vside vd)) ∧
    (base % 4 = 0 → h.vAccess [vd] [] = .ok u →
      u.storeBytes (u.reqW base) (lanes.map fun i => (base + i) % 2 ^ 64) (lanes.map fun i => (u.vdata vd).extractLsb' (8 * i) 8) = .ok v →
      ∃ t, exec (.vst d a p c) s = .next t ∧ AccessFrame u v ∧ OnlyContext v t ∧ t.me = v.me.bodyNext (v.len.toNat / 4)) ∧
    (h.vAccess [s.stag 1 a, vd] [vd] = .ok u → (∀ e ∈ elems, e.2 % k = 0) →
      u.loadBytes u.req (elems.flatMap fun e => vaRange e.2 k) = .ok (l, v) →
      ∃ t, exec (.vgather d a b p c w) s = .next t ∧ AccessFrame u v ∧
        VecLoaded v t vd (placeBytes (u.vdata vd) (elems.flatMap fun e => (List.range k).map (k * e.1 + ·)) l) (u.vside vd)) ∧
    (h.vAccess [s.stag 1 a, vd] [] = .ok u → (∀ e ∈ elems, e.2 % k = 0) →
      u.storeBytes (u.reqW ((elems.map (·.2)).headD (u.x b).toNat)) (elems.flatMap fun e => vaRange e.2 k)
        (elems.flatMap fun e => (List.range k).map fun j => (u.vdata vd).extractLsb' (8 * (k * e.1 + j)) 8) = .ok v →
      ∃ t, exec (.vscatter d a b p c w) s = .next t ∧ AccessFrame u v ∧ OnlyContext v t ∧ t.me = v.me.bodyNext (v.len.toNat / 4)) ∧
    (base % 128 = 0 → h.vAccess [] [vd] = .ok u → u.takeScalar (vaRange base 256) = .ok (l, v) →
      ∃ t, exec (.vtake d a) s = .next t ∧ VecLoaded v t vd (BitVec.ofNat 2048 (bytesToNat l)) (v.vside vd)) ∧
    (base % 128 = 0 → h.vAccess [vd] [] = .ok u →
      u.fillBytes (u.reqW base) base 2 (natToBytes 256 (u.vdata vd).toNat) (bits (u.x b) 0 6) = .ok v →
      ∃ t, exec (.vfill d a b) s = .next t ∧ AccessFrame u v ∧ OnlyContext v t ∧ t.me = v.me.bodyNext (v.len.toNat / 4)) ∧
    (base % 32 = 0 → h.vAccess [d] [d] = .ok u → u.loadBytes u.req (vaRange base 160) = .ok (l, v) →
      ∃ t, exec (.vlds d a) s = .next t ∧ AccessFrame u v ∧
        VecLoaded v t d (u.vdata d) (BitVec.ofNat 1280 (bytesToNat l))) ∧
    (base % 32 = 0 → h.vAccess [d] [] = .ok u →
      u.storeBytes (u.reqW base) (vaRange base 160) (natToBytes 160 (u.vside d).toNat) = .ok v →
      ∃ t, exec (.vsts d a) s = .next t ∧ AccessFrame u v ∧ OnlyContext v t ∧ t.me = v.me.bodyNext (v.len.toNat / 4))

/-! ## Tiles, accumulator slots and the matrix engine -/

/-- `tcfg`, `tzero` and the row and column moves (R91, R143 to R149): the tile that each leaves, or the elements that it hands to a vector
register, and its entry in an engine queue that is not empty; an illegal shape traps TILE_SHAPE with its value. -/
def Obligations.TileRegisters : Prop :=
  ∀ (s u : State) (n v d a b : Nat), s.queueRoom = true →
    let tile := u.me.tile n
    let w := fmtBits tile.fmt
    let k := (u.x b).toNat
    (bits (s.x a) 0 5 = 0 → ∃ t, exec (.tcfg n a) s = .next (t.enqueueUnit false) ∧ TileResult s t n {}) ∧
    (legalShape (s.x a) = true → ((s.me.tile n).fmt ≠ 0 ∨ s.tileRoom = true) →
      ∃ t, exec (.tcfg n a) s = .next (t.enqueueUnit false) ∧ TileResult s t n { tsh := s.x a }) ∧
    (bits (s.x a) 0 5 ≠ 0 → legalShape (s.x a) = false →
      ∃ t, exec (.tcfg n a) s = .next t ∧ Traps s t .tileShape (s.x a)) ∧
    ((s.me.tile n).fmt ≠ 0 → ∃ t, exec (.tzero n) s = .next (t.enqueueUnit false) ∧ TileResult s t n { tsh := (s.me.tile n).tsh }) ∧
    ((s.me.tile n).fmt = 0 → ∃ t, exec (.tzero n) s = .next t ∧ Traps s t .tileUnconfig (BitVec.ofNat 64 n)) ∧
    (legalShape tile.tsh = true → s.vAccess [v] [] = .ok u →
      (k < tile.rows → ∃ t new, exec (.tmvr n v b) s = .next (t.enqueueUnit false) ∧ TileResult u t n new ∧ new.tsh = tile.tsh ∧
        new.dirty = true ∧
        (∀ r, r < 16 → new.row r = if r = k then (u.vdata v).toNat % 2 ^ (8 * tile.rowBytes) else tile.row r) ∧
        ∀ r, r < 16 → new.area r = if r = k ∧ tile.sided = true then (u.vside v).toNat % 2 ^ 256 else tile.area r) ∧
      (k < tile.cols → tile.sided = false →
        ∃ t new, exec (.tmvc n v b) s = .next (t.enqueueUnit false) ∧ TileResult u t n new ∧ new.tsh = tile.tsh ∧
        new.side = tile.side ∧ new.dirty = true ∧
        ∀ r j, r < 16 → j < 1024 / w →
          new.elem r j = if j = k ∧ r < tile.rows then vElem w (u.vdata v) r else tile.elem r j)) ∧
    (legalShape tile.tsh = true → s.vAccess [] [d] = .ok u →
      (k < tile.rows → ∃ t, exec (.tgetr d n b) s = .next (t.enqueueUnit false) ∧
        VecMoved u t d (BitVec.ofNat 2048 (tile.row k % 2 ^ (8 * tile.rowBytes)))
          (if tile.sided = true then BitVec.ofNat 1280 (tile.area k) else u.vside d)) ∧
      (k < tile.cols → tile.sided = false → ∃ t data, exec (.tgetc d n b) s = .next (t.enqueueUnit false) ∧
        VecMoved u t d data (u.vside d) ∧
        ∀ i, i < 2048 / w → vElem w data i = if i < tile.rows then tile.elem i k else 0))

/-- Tile memory instructions at the head of the engine queue whose access meets no error (R147, R148): a load replaces the rows below ROWS and
zeroes the rest, a take and a sidecar load write their part whole, and stores change no register. -/
def Obligations.TileMemory : Prop :=
  ∀ (s h v : State) (n a b : Nat) (l : List Byte), AtHead s h → (s.me.tile n).fmt ≠ 0 →
    let u := s.me.tile n
    let base := (s.x a).toNat
    let stride := (s.x b).toNat
    let cells := (List.range u.rows).flatMap fun k => vaRange ((base + k * stride) % 2 ^ 64) u.rowBytes
    (base % 4 = 0 → stride % 4 = 0 → h.loadBytes h.req cells = .ok (l, v) →
      ∃ t, exec (.tld n a b) s = .next t ∧ AccessFrame h v ∧ TileResult v t n { u with
        data := u.placed (elemsOf (8 * u.rowBytes) u.rows (bytesToNat l)), dirty := true }) ∧
    (base % 4 = 0 → stride % 4 = 0 → h.storeBytes (h.reqW base) cells
        ((List.range u.rows).flatMap fun k => natToBytes u.rowBytes (u.row k)) = .ok v →
      ∃ t, exec (.tst n a b) s = .next t ∧ AccessFrame h v ∧ GoesTo v t (v.pc + v.len)) ∧
    (base % 128 = 0 → h.takeScalar (vaRange base 2048) = .ok (l, v) →
      ∃ t, exec (.ttake n a) s = .next t ∧ TileResult v t n { u with
        data := u.placed (elemsOf 1024 16 (bytesToNat l)), dirty := true }) ∧
    (base % 128 = 0 → h.fillBytes (h.reqW base) base 16 (natToBytes 2048 u.data.toNat) (bits (s.x b) 0 6) = .ok v →
      ∃ t, exec (.tfill n a b) s = .next t ∧ AccessFrame h v ∧ GoesTo v t (v.pc + v.len)) ∧
    (base % 64 = 0 → h.loadBytes h.req (vaRange base 512) = .ok (l, v) →
      ∃ t, exec (.tlds n a) s = .next t ∧ AccessFrame h v ∧
        TileResult v t n { u with side := BitVec.ofNat 4096 (bytesToNat l), dirty := true }) ∧
    (base % 64 = 0 → h.storeBytes (h.reqW base) (vaRange base 512) (natToBytes 512 u.side.toNat) = .ok v →
      ∃ t, exec (.tsts n a) s = .next t ∧ AccessFrame h v ∧ GoesTo v t (v.pc + v.len))

/-- Matrix instructions commit (R150, R151, R154, R155, R157, R158): their operands are captured, their version is captured, and a free slot
is taken; `aclaim` and `afree` queue their change of the slot; `astat`, once the engine has bound it at the head of the queue, reads the slot's
version, status and owner. -/
def Obligations.MatrixCommits : Prop :=
  ∀ (s : State) (c n a b v fs : Nat) (pair : MmaPair) (sp : SpPair),
    let ta := s.me.tile a
    let tb := s.me.tile b
    let tc := s.me.tile (b + 1)
    let version := BitVec.ofNat 16 (s.x v).toNat
    let scaled := fun (t : Tile) => (t.fmt = 6 ∨ t.fmt = 7) → (t.cols + 3) / 4 ≤ t.scnt
    (MayCommit s c n false →
      (∃ t, exec (.aclear c v) s = .next t ∧ MatrixCommitted s t n version (.clear false)) ∧
      (ta.spn = 0 → tb.spn = 0 → ta.cols = tb.cols → (ta.fmt, tb.fmt) = MmaPair.fmts pair → scaled ta → scaled tb →
        ∃ t, exec (.tmma c a b v fs pair) s = .next t ∧
          MatrixCommitted s t n version (.mma ta [tb] (s.factors fs).1 (s.factors fs).2)) ∧
      (ta.spn = 1 → ta.masksOk = true → (ta.fmt, tb.fmt) = SpPair.fmts sp → b % 2 = 0 → b < 8 →
        tc.fmt = tb.fmt → tb.spn = 0 → tc.spn = 0 → tb.cols = ta.cols → tc.cols = ta.cols → tc.rows = tb.rows →
        ∃ t, exec (.tmmaSp c a b v fs sp) s = .next t ∧
          MatrixCommitted s t n version (.mma ta [tb, tc] (s.factors fs).1 (s.factors fs).2))) ∧
    (s.queueRoom = true → bits s.myCore.aslotmap (5 * c) 5 = 16 + n → s.afterRetag n = .ok () → s.mayUse n = true →
      (s.slot n).parked = false → ∃ t, exec (.aclearRns c v) s = .next t ∧ MatrixCommitted s t n version (.clear true)) ∧
    (MayCommit s c n true → ta.spn = 0 → tb.spn = 0 → ta.cols = tb.cols →
      (ta.fmt = 9 → tb.fmt = 9 →
        ∃ t, exec (.tmmaI8I8 c a b v) s = .next t ∧ MatrixCommitted s t n version (.rnsI8 ta tb)) ∧
      (ta.fmt = 13 → tb.fmt = 13 →
        ∃ t, exec (.tmmaRnsRns c a b v) s = .next t ∧ MatrixCommitted s t n version (.rnsRes ta tb))) ∧
    (s.queueRoom = true → bits s.myCore.aslotmap (5 * c) 5 = 16 + n → s.afterRetag n = .ok () →
      (s.me.priv ≠ 0 ∨ (s.slot n).owner = some s.tag) →
      (∃ t, exec (.aclaim c) s = .next t ∧ Queued s t (.matrix n none (.claim (s.me.priv != 0))) ∧ ∀ m, t.slot m = s.slot m) ∧
      ∃ t, exec (.afree c) s = .next t ∧ Queued s t (.matrix n none .free) ∧ ∀ m, t.slot m = s.slot m) ∧
    (∀ h, AtEngine s h → s.me.canWrite v = true → bits s.myCore.aslotmap (5 * c) 5 = 16 + n → h.slotBusy s.cur n = false →
      ∃ t, exec (.astat c v) s = .next t ∧ XResult h t v (BitVec.ofNat 64 ((s.slot n).version.toNat +
        (s.slot n).status.toNat * 2 ^ 16 + match (s.slot n).owner with | some o => (o.1 * 16 + o.2) * 2 ^ 32 | none => 2 ^ 38)))

/-- The engines at work (R25, R26, R76, R151, R154, R157): the head of a cluster's only contending queue is bound, and a drain or `astat`
then stays at the head for its context to carry out; a completion of matrix
work changes its slot alone, and a product adds its groups into the elements of the slot; vector work that completes records its flags. -/
def Obligations.EnginesAtWork : Prop :=
  ∀ (s : State) (cl k n : Nat) (w : MatWork) (lw : VecWork), k < 4 →
    let core := 4 * cl + k
    (∀ ctx rest, s.running (4 * cl) = true → s.matContends core = true →
      (∀ j, j < 4 → j ≠ k → s.matContends (4 * cl + j) = false) →
      (∀ v, (s.core core).queue = ⟨ctx, .matrix w.slot v w.op⟩ :: rest →
        ∃ t, exec (.matrixEngineBinding cl) s = .next t ∧ (t.cluster cl).mat = (s.cluster cl).mat ++ [⟨core, ctx, w.slot, w.op⟩] ∧
          (t.core core).queue = popQueue (s.core core).queue ∧ (t.cluster cl).slots = (s.cluster cl).slots ∧
          (∀ i, t.ctx i = s.ctx i) ∧ ∀ pa, t.homeByte pa = s.homeByte pa) ∧
      ∀ op, (s.core core).queue = ⟨ctx, .memory op false⟩ :: rest →
        ∃ t, exec (.matrixEngineBinding cl) s = .next t ∧ (t.cluster cl).mat = (s.cluster cl).mat ∧
          (t.core core).queue = ⟨ctx, .memory op true⟩ :: rest ∧ (t.cluster cl).slots = (s.cluster cl).slots ∧
          (∀ i, t.ctx i = s.ctx i) ∧ ∀ pa, t.homeByte pa = s.homeByte pa) ∧
    ((s.cluster cl).mat[n]? = some w → clusterOf w.core = cl → (∀ u ∈ (s.cluster cl).mat.take n, u.slot ≠ w.slot) →
      let old := (s.cluster cl).slot w.slot
      ∃ t, exec (.matrixCompletion cl n) s = .next t ∧ (t.cluster cl).mat = (s.cluster cl).mat.eraseIdx n ∧
        (t.cluster cl).slot w.slot = old.complete w.op (w.core % 4, w.ctx) ∧
        (∀ m, m ≠ w.slot → (t.cluster cl).slot m = (s.cluster cl).slot m) ∧
        (∀ i, t.ctx i = s.ctx i) ∧ ∀ pa, t.homeByte pa = s.homeByte pa) ∧
    (∀ (old : Slot) (a : Tile) (b : List Tile) (fa fb : F32) (i j : Nat), a.rows ≤ 16 → (b.headD {}).rows ≤ 16 → i < 16 → j < 16 →
      (old.complete (.mma a b fa fb) (0, 0)).elem i j = if i < a.rows ∧ j < (b.headD {}).rows
        then (accumulateAll ((decodeFp fp32 fa.toNat).mul (decodeFp fp32 fb.toNat)).1 (old.elem i j)
          ((List.range (groupCount a)).map (groupProducts a b i j))).1
        else old.elem i j) ∧
    (∀ ctx rest, s.running (4 * cl) = true → (s.core core).queue = ⟨ctx, .vector lw⟩ :: rest → (s.cluster cl).lanes = [] →
      (∀ j, j < 4 → j ≠ k → (s.core (4 * cl + j)).queue = []) →
      ∃ t, exec (.laneGroupBinding cl) s = .next t ∧ (t.core core).queue = popQueue (s.core core).queue ∧
        (t.cluster cl).lanes = [(0, ⟨core, ctx, lw⟩)] ∧ (∀ i, t.ctx i = s.ctx i) ∧ ∀ pa, t.homeByte pa = s.homeByte pa) ∧
    ∀ lane core' ctx, (s.cluster cl).lanes.find? (fun l => l.1 == lane) = some (lane, ⟨core', ctx, lw⟩) →
      ∃ t, exec (.vectorCompletion cl lane) s = .next t ∧ (t.cluster cl).lanes = smErase (s.cluster cl).lanes lane ∧
        t.ctx ⟨core', ctx⟩ = { s.ctx ⟨core', ctx⟩ with vstat := orFlags (s.ctx ⟨core', ctx⟩).vstat lw.flags } ∧
        (∀ i, i ≠ ⟨core', ctx⟩ → t.ctx i = s.ctx i) ∧ ∀ pa, t.homeByte pa = s.homeByte pa

/-- Drains that the matrix engine has bound at the head of the queue and whose version is met (R84, R151, R156, R160, R161): the tile takes the slot's narrowed elements, the
flags reach VSTAT or the reconstruction's counts RNSSTAT, and the slot's version rises. -/
def Obligations.Drains : Prop :=
  ∀ (s h : State) (c n a b v : Nat) (z q : Bool) (f : DrainFmt), AtEngine s h →
    let ta := s.me.tile a
    let tb := s.me.tile b
    let sl := s.slot n
    let held := if sl.owner = none then { sl with owner := some s.tag } else sl
    let l := rnsElements (s.cluster (clusterOf s.cur.core)).rnscfg sl ta.rows ta.cols
    bits s.myCore.aslotmap (5 * c) 5 = 16 + n → s.afterRetag n = .ok () → s.mayUse n = true → sl.parked = false →
    sl.version = BitVec.ofNat 16 (s.x v).toNat → sl.err = false → ta.cols ≤ 16 →
    (s.rnsSeen n = false → (s.mods.isSome = true → s.bodyFits = .ok ()) → ta.fmt = Machine.DrainFmt.code f →
      ((ta.fmt = 6 ∨ ta.fmt = 7) → (ta.cols + 3) / 4 ≤ ta.scnt) →
      let rows := (List.range ta.rows).map fun i => narrowRow f s.prefixOf (sl.rowValues i ta.cols)
      ∃ t, exec (.adrain c a v z f) s = .next t ∧
        Drained h t n (if z then { held with data := 0, status := putBits held.status 4 5 0 } else held) ∧
        t.me = { h.drainAdvance.me with
          t := smSet h.me.t a (ta.written (rows.map (·.1)) (rows.map (·.2.1)))
          vstat := orFlags h.me.vstat (rows.foldl (fun e r => e ||| r.2.2) sl.flags) }) ∧
    (s.rnsSeen n = true → ta.fmt = 12 → (q = true ∨ rnsTraps l = .ok ()) →
      (∃ t, exec (.adrainRns c a v q) s = .next t ∧ Drained h t n held ∧
        (t.cluster (clusterOf s.cur.core)).rnsstat = rnsStatWord (s.cluster (clusterOf s.cur.core)).rnsstat l ∧
        t.me = { h.me with
          t := smSet h.me.t a (ta.written (rnsRows l ta.rows ta.cols fun y => wrapInt 32 (clampInt true 32 y)) [])
          pc := h.pc + h.len }) ∧
      (tb.fmt = 12 → tb.cols = ta.cols → tb.rows = ta.rows →
        ∃ t, exec (.adrainRnsW c a b v q) s = .next t ∧ Drained h t n held ∧
        (t.cluster (clusterOf s.cur.core)).rnsstat = rnsStatWord (s.cluster (clusterOf s.cur.core)).rnsstat l ∧
        t.me = { h.me with
          t := smSet (smSet h.me.t a (ta.written (rnsRows l ta.rows ta.cols fun y => wrapInt 64 y % 2 ^ 32) [])) b
            (tb.written (rnsRows l ta.rows ta.cols fun y => wrapInt 64 y / 2 ^ 32) [])
          pc := h.pc + h.len }))

/-- RNS vector forms (R81 to R84, R162): integers become packed residues and back, each element under its lane; `rnsstat` gives the status of
every element of a slot. -/
def Obligations.ResidueVectors : Prop :=
  ∀ (s u : State) (d a p n : Nat) (c : Bool), s.queueRoom = true →
    let cfg := (u.cluster (clusterOf u.cur.core)).rnscfg
    let A := fun i => vElem 64 (u.vdata a) i
    (s.vAccess [a, d] [d] = .ok u →
      ∀ e ∈ ([
        (.rnsfwd d a p c, fun x => packResidues (readInt true 64 x)), (.rnsrev d a p c, fun x => wrapInt 64 (rnsReverse cfg x).1),
        (.rnsrevSt d a p c, fun x => (rnsReverse cfg x).2.byte)] : List (Instr × (Nat → Nat))),
      ∃ t data, exec e.1 s = .next t ∧ VecWritten u t d data (u.vside d) ⟨0, false, [a, d, 32 + p], [d]⟩ ∧
        ∀ i, i < 32 → vElem 64 data i = if u.active p c (8 * i) then e.2 (A i) % 2 ^ 64 else vElem 64 (u.vdata d) i) ∧
    (s.vAccess [] [d] = .ok u → bits u.myCore.aslotmap (5 * a) 5 = 16 + n → (u.slot n).rns = true → u.mayUse n = true →
      u.slotBusy u.cur n = false →
      ∃ t data, exec (.rnsstat d a) s = .next t ∧ VecWritten u t d data (u.vside d) ⟨0, false, [], [d]⟩ ∧
        ∀ i, i < 16 → ∀ j, j < 16 → vElem 8 data (16 * i + j) = (rnsReverse cfg ((u.slot n).packed i j)).2.byte % 256)

/-! ## Engine commands, timelines and the apprentice -/

/-- The issue of an engine command (R218, R249, R250): the next ticket reaches xd, the command with its operands and geometry joins the
engine context, and nothing else changes; a full context makes it wait, and `emigrate`, `xbind`, `ccfg` and `crejoin` need S. -/
def Obligations.EngineCommandsIssue : Prop :=
  ∀ (s : State) (d a b : Nat) (o : Bool), s.me.canWrite d = true → s.me.pureMarked = false →
    ∀ e ∈ ([
      (.ecopy d a b o, .ecopy, s.x b, false), (.egather d a b o, .egather, s.x b, false),
      (.escatter d a b o, .escatter, s.x b, false), (.ecopy2d d a b o, .ecopy2d, s.x b, false),
      (.ecfill d a b o, .ecfill, s.x b, false), (.emigrate d a b o, .emigrate, s.x b, true),
      (.callred d a b o, .callred, s.x b, false), (.callgat d a b o, .callgat, s.x b, false),
      (.credsc d a b o, .credsc, s.x b, false), (.cbcast d a b o, .cbcast, s.x b, false), (.cabort d a o, .cabort, 0, false),
      (.qpub d a b o, .qpub, s.x b, false), (.qclaim d a b o, .qclaim, s.x b, false), (.qlaunch d a b o, .qlaunch, s.x b, false),
      (.qsignal d a o, .qsignal, 0, false), (.xbind d a b o, .xbind, s.x b, true), (.xfollow d a b o, .xfollow, s.x b, false),
      (.xtok d a b o, .xtok, s.x b, false), (.xdetok d a b o, .xdetok, s.x b, false), (.xmask d a b o, .xmask, s.x b, false),
      (.apxLoad d a b o, .apxLoad, s.x b, false), (.apxSave d a b o, .apxSave, s.x b, false),
      (.ccfg d a b o, .ccfg, s.x b, true), (.crejoin d a o, .crejoin, 0, true)] : List (Instr × (EngOp × (Word × Bool)))),
    let op := e.2.1
    let eng := s.eng s.cur.core op.engine
    let k := s.newCmd op (s.x a) e.2.2.1 o
    ((e.2.2.2 = true → s.me.priv ≠ 0) → eng.out.length < 32 →
      ∃ t, exec e.1 s = .next t ∧ k.ticket = eng.issue.toNat + 1 ∧ (d ≠ 0 → t.x d = BitVec.ofNat 64 k.ticket) ∧
        (∀ n, n ≠ d → t.x n = s.x n) ∧ t.me = { s.me with x := t.me.x, shadow := t.me.shadow, pc := s.pc + s.len } ∧
        t.eng s.cur.core op.engine = { eng with issue := eng.issue + 1, out := eng.out ++ [k] } ∧
        (∀ j, j ≠ op.engine → t.eng s.cur.core j = s.eng s.cur.core j) ∧ (∀ i, i ≠ s.cur → t.ctx i = s.ctx i) ∧
        ∀ pa, t.homeByte pa = s.homeByte pa) ∧
    ((e.2.2.2 = true → s.me.priv ≠ 0) → 32 ≤ eng.out.length →
      ∃ t, exec e.1 s = .next t ∧ t.me = { s.me with wait := .retry } ∧ OnlyContext s t) ∧
    (e.2.2.2 = true → s.me.priv = 0 → ∃ t, exec e.1 s = .next t ∧ Traps s t .privilege (s.insn.setWidth 64))

/-- Geometry registers and timelines (R251, R253, R265 to R268): `eset`, `twait`, `tget`, `tget.e`, `tget.a` and `tnote`; a command's
completion advances the counter to the last ticket below which none is outstanding and records the first failure, and a paired slice's
other copy of it ends alike; a due note enters the user completion handler. An instruction that commits leaves its slice restartable no
more (R239). -/
def Obligations.EngineTimelines : Prop :=
  ∀ (s : State) (d a k : Nat) (e : Eng),
    let eng := s.eng s.cur.core (engId e)
    (∀ x ∈ ([(.esetCopy k a, 0), (.esetColl k a, 1), (.esetText k a, 3)] : List (Instr × Nat)),
      ∃ t, exec x.1 s = .next t ∧ OnlyContext s t ∧
        t.me = { s.me with geom := smSet s.me.geom (8 * x.2 + k) (s.x a), pc := s.pc + s.len }) ∧
    ((s.x a).toNat ≤ eng.counter.toNat → ∃ t, exec (.twait e a) s = .next t.commanded ∧ GoesTo s t (s.pc + s.len)) ∧
    (eng.counter.toNat < (s.x a).toNat →
      ∃ t, exec (.twait e a) s = .next t ∧ t.me = { s.me with wait := .retry } ∧ OnlyContext s t) ∧
    (∃ t, exec (.tnote e a) s = .next t.commanded ∧ OnlyContext s t ∧ t.me = { s.me with
      tnote := BitVec.ofNat 64 (bits (s.x a) 0 48 + engId e * 2 ^ 48 + 2 ^ 56), pc := s.pc + s.len }) ∧
    (s.me.canWrite d = true →
      (∃ t, exec (.tget e d) s = .next t.commanded ∧ XResult s t d eng.counter) ∧
      (∃ t, exec (.tgetA e d) s = .next t.commanded ∧ XResult s t d eng.addr) ∧
      ∃ t, exec (.tgetE e d) s = .next t.commanded ∧
        XWritten (s.modEng s.cur.core (engId e) fun c => { c with code := 0, more := false, ticket := 0, addr := 0 }) t d
          (BitVec.ofNat 64 (bits eng.ticket 0 48 + eng.more.toNat * 2 ^ 55 + eng.code.toNat * 2 ^ 56)) (s.pc + s.len)) ∧
    (∀ core j n c, s.cmd core j n = some c → c.phase = .done → c.dataFailed = false →
      ∃ t, exec (.engineCommandCompletion core j n) s = .next t ∧ (∀ i, t.ctx i = s.ctx i) ∧ (∀ pa, t.homeByte pa = s.homeByte pa) ∧
        let old := s.eng core j
        let new := t.eng core j
        let told := fun x : EngCmd => if c.pair.any (fun id => x.replicaOf id) then x.ended c.fail else x
        new.issue = old.issue ∧ new.out = (old.out.filter fun x => x.ticket != c.ticket).map told ∧
        (∀ k, k ≠ core → (t.eng k j).out = (s.eng k j).out.map told) ∧
        new.counter = (match new.out with | [] => old.issue | x :: _ => BitVec.ofNat 64 (x.ticket - 1)) ∧
        (c.fail = none → (new.code, new.more, new.ticket, new.addr) = (old.code, old.more, old.ticket, old.addr)) ∧
        ∀ f, c.fail = some f → (new.code, new.more, new.ticket, new.addr) =
          if old.code = 0 then (BitVec.ofNat 8 f.code, old.more, BitVec.ofNat 64 c.ticket, f.addr)
          else (old.code, true, old.ticket, old.addr)) ∧
    (∀ core j n c, s.cmd core j n = some c →
      ((s.core core).inPart = true → (s.eng core j).turnOf j c = true → exec (.engineCommandBegin core j n) s = .next (s.runCmd core c)) ∧
      ((s.eng core j).turnOf j c = false → exec (.engineCommandBegin core j n) s = .next s)) ∧
    (∀ core ctx, s.running core = true → s.noteDue ⟨core, ctx⟩ = true → s.causeDue ⟨core, ctx⟩ = false →
      let c := s.ctx ⟨core, ctx⟩
      let j := bits c.tnote 48 3
      ∃ t, exec (.completionHandlerEntry core ctx) s = .next t ∧ (∀ i, i ≠ ⟨core, ctx⟩ → t.ctx i = s.ctx i) ∧
        (∀ pa, t.homeByte pa = s.homeByte pa) ∧ t.ctx ⟨core, ctx⟩ = { c with
          tnote := putBits c.tnote 56 1 0, uepc := c.pc, status := putBits c.status 6 1 1, pc := alignPc c.uvec, entering := some true
          wait := .none, remote := none
          shadow := smSet (smSet (smSet c.shadow 1 (s.eng core j).counter) 2 (BitVec.ofNat 64 j)) 3 (s.eng core j).failWord })

/-- The apprentice's instructions (R364, R372, R375, R376): each leaves its slot as the rules of the slot's state machine say and its answer
word in xd; a served run writes the surrogate's outputs and goes on behind `apx.end`. The
slot is the one found once the registers are in the pool, and the slice is restartable no more (R239). -/
def Obligations.ApprenticeInstructions : Prop :=
  ∀ (s u : State) (d a b pe pb : Nat), s.me.canWrite d = true →
    let k := bits (s.x a) 0 2
    let cl := clusterOf s.cur.core
    let ctl := (s.apxSlot k).ctl
    (∃ t, exec (.apxCfg d a b) s = .next t.commanded ∧ XWritten (s.setApx cl k ((s.apxSlot k).configure (s.x b)).2) t d
      (if axValid (s.x b) then 0 else 1) (s.pc + s.len)) ∧
    (∃ t, exec (.apxStat d a) s = .next t.commanded ∧
      XWritten (s.setApx cl k (s.apxSlot k)) t d (s.apxSlot k).statWord (s.pc + s.len)) ∧
    (∃ t, exec (.apxInv d a) s = .next t ∧ (d ≠ 0 → t.x d = 0) ∧ (∀ n, n ≠ d → t.x n = s.x n) ∧
      (∀ j, (t.cluster cl).apxSlot j = if j ∈ invNames (s.x a) then (s.apxSlot j).invalidate 2 else (s.cluster cl).apxSlot j) ∧
      (∀ i, i ≠ s.cur → t.ctx i = s.ctx i) ∧ ∀ pa, t.homeByte pa = s.homeByte pa) ∧
    (s.vAccess [axVin ctl] [axVout ctl] = .ok u → bits (s.x b) 0 2 = 0 → u.codeAddress (s.x b).toNat = .ok pe →
      u.codeAddress u.pc.toNat = .ok pb →
      let sl := u.apxSlot k
      let x := u.lanes32 (axVin sl.ctl) (axNin sl.ctl)
      let r := sl.arrive pb pe x (u.stepMode u.cur.core)
      let w := apxAnswer sl.state r.1.res (r.1.kind != .plain) r.1.served
      let open' := { r.2.close u.cur with opens := (r.2.close u.cur).opens ++ [⟨u.cur.core, u.cur.ctx, r.1.kind, x⟩] }
      (r.1.served = true → ∃ t, exec (.apxBegin d a b) s = .next t.commanded ∧
        XWritten ((u.setApx cl k r.2).serveOutputs (axVout sl.ctl) (sl.surrogate x)) t d w (s.x b + 4)) ∧
      (r.1.served = false → axPure sl.ctl = false → ∃ t, exec (.apxBegin d a b) s = .next t.commanded ∧
        XWritten (u.setApx cl k open') t d w (u.pc + u.len)) ∧
      (r.1.served = false → axPure sl.ctl = true → ∃ t, exec (.apxBegin d a b) s = .next t.commanded ∧
        XWritten ((u.setApx cl k open').modMe fun c => { c with pure := some k }) t d w (u.pc + u.len))) ∧
    (s.vAccess [axVout ctl] [] = .ok u →
      let sl := u.apxSlot k
      let r := sl.finish u.cur (u.lanes32 (axVout sl.ctl) (axNout sl.ctl)) (u.stepMode u.cur.core)
      ∃ t, exec (.apxEnd d a) s = .next t.commanded ∧
        XWritten ((u.setApx cl k r.2).modMe fun c => { c with pure := if c.pure = some k then none else c.pure }) t d r.1 (u.pc + u.len))

/-! ## Contexts, groups and supersteps -/

/-- Helpers, groups and barriers (R19, R20, R106 to R111): which helper starts, with which registers; `hexit` frees the context once its
queue is done; joining, leaving and arriving. -/
def Obligations.ContextsAndGroups : Prop :=
  ∀ (s : State) (d a b g n : Nat),
    let core := s.cur.core
    let go := s.pc + s.len
    (s.me.canWrite d = true → bits (s.x a) 0 2 = 0 →
      ((∀ h ∈ helperNumbers, s.available h = false) → ∃ t, exec (.hstart d a b) s = .next t ∧ XResult s t d 0) ∧
      (∀ h, helperNumbers.find? s.available = some h → h ≠ s.cur.ctx →
        ∃ t, exec (.hstart d a b) s = .next t ∧ XWritten (s.startHelper h (s.x a) (s.x b)) t d (BitVec.ofNat 64 h) go ∧
          t.ctx ⟨core, h⟩ = { freshCtx h with
            life := .live, pc := s.x a, x := smSet (freshCtx h).x 1 (s.x b), slice := s.me.slice, deadline := s.me.deadline
            budget := s.me.budget, group := s.me.group }) ∧
      (∀ h, (s.x b).toNat = h → 1 ≤ h → h ≤ 10 → h ≠ s.cur.ctx → (s.myCore.ctx h).life = .held → s.me.priv ≠ 0 →
        ∃ t, exec (.hstartN d a b) s = .next t ∧ XWritten (s.resumeHelper h (s.x a)) t d (BitVec.ofNat 64 h) go) ∧
      (∀ h, (s.x b).toNat = h → 1 ≤ h → h ≤ 10 → h ≠ s.cur.ctx → (s.myCore.ctx h).life ≠ .held → s.available h = true →
        ∃ t, exec (.hstartN d a b) s = .next t ∧ XWritten (s.startHelper h (s.x a) 0) t d (BitVec.ofNat 64 h) go) ∧
      (10 < (s.x b).toNat → ∃ t, exec (.hstartN d a b) s = .next t ∧ XResult s t d 0)) ∧
    (s.cur.ctx ≠ 0 → s.queueDone = true → s.me.group = none →
      ∃ t, exec .hexit s = .next t ∧ t.ctx s.cur = freshCtx s.cur.ctx ∧ ∀ pa, t.homeByte pa = s.homeByte pa) ∧
    (s.cur.ctx = 0 → ∃ t, exec .hexit s = .next t ∧ EntersTrap s t .illegal (s.insn.setWidth 64)) ∧
    (s.inGroup g = false → ∃ t, exec (.gjoin g) s = .next t ∧ t.me = { s.me with pc := go } ∧
      ((t.part s.myPart).group g).members = ((s.part s.myPart).group g).members ++ [s.cur] ∧
      (∀ j, j ≠ g → (t.part s.myPart).group j = (s.part s.myPart).group j) ∧ (∀ i, i ≠ s.cur → t.ctx i = s.ctx i) ∧
      ∀ pa, t.homeByte pa = s.homeByte pa) ∧
    (s.inGroup g = true → ((s.part s.myPart).group g).bars = [] →
      ∃ t, exec (.gleave g) s = .next t ∧ t.me = { s.me with pc := go } ∧
      t.part s.myPart = (s.part s.myPart).setGroup g ⟨((s.part s.myPart).group g).members.filter (· != s.cur), []⟩ ∧
      (∀ i, i ≠ s.cur → t.ctx i = s.ctx i) ∧ ∀ pa, t.homeByte pa = s.homeByte pa) ∧
    (s.inGroup g = true → (n = 0 ∨ s.countFits g n (s.x a).toNat = true) →
      exec (.gbar g n a) s = .next (s.arriveAt s.cur g n (s.x a).toNat)) ∧
    (∀ e ∈ ([(.gjoin g, s.inGroup g), (.gleave g, !s.inGroup g), (.gbar g n a, !s.inGroup g)] : List (Instr × Bool)), e.2 = true →
      ∃ t, exec e.1 s = .next t ∧ Traps s t .groupFault 0)

/-- Supersteps (R31, R35, R112, R113): in step mode the control context arrives at the boundary and waits there, or starts a task with
`sexit`; anywhere else these instructions trap ILLEGAL. -/
def Obligations.SuperstepInstructions : Prop :=
  ∀ (s : State) (d a : Nat),
    let vote := BitVec.ofNat 64 (bits (s.x a) 0 32)
    (s.stepMode s.cur.core = true → s.cur.ctx = 0 → s.helpersRest s.cur.core = true →
      (∃ t, exec (.sexit a) s = .next t ∧ t.me = { s.me with pc := s.pc + s.len } ∧ t.myCore.taskId = (s.x a).setWidth 32 ∧
        (∀ i, i ≠ s.cur → t.ctx i = s.ctx i) ∧ ∀ pa, t.homeByte pa = s.homeByte pa) ∧
      (s.me.canWrite d = true → s.enginesRest s.cur.core = true →
        ∀ e ∈ ([(.sstep, .boundary 0 false 0), (.svote d a, .boundary vote true d)] : List (Instr × Wait)),
        exec e.1 s = .next ((s.modMe fun c => { c with wait := e.2 }).completeBoundary s.myPart) ∧
        (((s.modMe fun c => { c with wait := e.2 }).controlWaits s.myPart).all Wait.arrived = false →
          ∃ t, exec e.1 s = .next t ∧ t.me = { s.me with wait := e.2 } ∧ OnlyContext s t))) ∧
    (s.stepMode s.cur.core = false ∨ s.cur.ctx ≠ 0 → s.me.canWrite d = true →
      ∀ i ∈ ([.sstep, .svote d a, .sexit a] : List Instr), ∃ t, exec i s = .next t ∧ Traps s t .illegal (s.insn.setWidth 64))

/-! ## Control registers -/

/-- The access rules of control registers (R93, R114): a number that R94 does not assign and a write of a read-only register trap ILLEGAL, the
machine range and what the level may not do trap PRIVILEGE, both before anything is read or written. Reads and writes of control registers
(R114, R115): the old value goes to xd, and the register takes what its own rule makes of the value formed; of STATUS only PPRIV, AE and
PAE change. -/
def Obligations.ControlRegisters : Prop :=
  (∀ (s : State) (d a n : Nat), s.me.canWrite d = true →
    ∀ e ∈ ([(.sysrd d n, false), (.syswr d a n, true), (.sysset d a n, true), (.sysclr d a n, true)] : List (Instr × Bool)),
      (0x800 ≤ n → n ≤ 0x8FF → ∃ t, exec e.1 s = .next t ∧ Traps s t .privilege (s.insn.setWidth 64)) ∧
      ((n < 0x800 ∨ 0x8FF < n) → (crKnown n = false ∨ (e.2 = true ∧ crReadOnly n = true)) →
        ∃ t, exec e.1 s = .next t ∧ Traps s t .illegal (s.insn.setWidth 64)) ∧
      (s.me.priv = 0 → crKnown n = true → (e.2 = true → crReadOnly n = false) → (0x400 ≤ n ∨ (e.2 = true ∧ crUser n = false)) →
        ∃ t, exec e.1 s = .next t ∧ Traps s t .privilege (s.insn.setWidth 64)) ∧
      (crKnown n = true → (e.2 = true → crReadOnly n = false) → (s.me.priv ≠ 0 ∨ (n < 0x400 ∧ (e.2 = true → crUser n = true))) →
        s.crCheck n e.2 = .ok ())) ∧
  (∀ (s u : State) (d a n k : Nat) (w : WrKind), s.me.canWrite d = true →
    (s.crCheck n false = .ok () → s.crWait n = .ok () → ∃ t, exec (.sysrd d n) s = .next t ∧ XResult s t d (s.readCR n)) ∧
    (∀ e ∈ ([
        (.syswr d a n, .wr, n), (.sysset d a n, .set, n), (.sysclr d a n, .clr, n),
        (.tnoteWrite w d a, w, 0x280), (.budgetWrite w d a, w, 0x00C), (.modeWrite w d a, w, 0x104), (.qtabEnable w d a, w, 0x440),
        (.qtabDisable w d a, w, 0x440), (.lmsplitWrite w d a, w, 0x100), (.tshWrite w k d a, w, 0x180 + k % 8),
        (.rnscfgWrite w d a, w, 0x189), (.axctlWrite w k d a, w, 0x2C0 + k % 4), (.watchRegisterWrite w k d a, w, 0x204 + k % 8),
        (.ptrootWrite w d a, w, 0x400), (.tinvPage w d a, w, 0x402), (.tinvAsid w d a, w, 0x402), (.tinvPartition w d a, w, 0x402),
        (.hintWrite w d a, w, 0x406), (.prstGo w d a, w, 0x407), (.bellRing w d a, w, 0x409), (.stepctlRoll w d a, w, 0x40B),
        (.preemptWrite w d a, w, 0x385), (.wdogWrite w d a, w, 0x380), (.topeerWrite w d a, w, 0x383)] : List (Instr × (WrKind × Nat))),
      let m := e.2.2
      let old := s.readCR m
      let v := match e.2.1 with | .wr => s.x a | .set => old ||| s.x a | .clr => old &&& ~~~s.x a
      s.crCheck m true = .ok () → s.crWait m = .ok () → s.writeCR m v = .ok u →
        ∃ t, XWritten u t d old (u.pc + u.len) ∧ exec e.1 s = .next (t.afterWrite m v)) ∧
    (s.me.priv ≠ 0 →
      (∃ t, exec (.syswr d a 0) s = .next t ∧ bits t.me.status 2 2 = min 1 (bits (s.x a) 2 2) ∧
        bits t.me.status 4 2 = bits (s.x a) 4 2 ∧ ∀ i, (i < 2 ∨ 6 ≤ i) → t.me.status.getLsbD i = s.me.status.getLsbD i) ∧
      (∀ r ∈ [0x002, 0x003, 0x004, 0x005, 0x006, 0x007, 0x00D, 0x00E], ∃ t, exec (.syswr d a r) s = .next t ∧ t.readCR r = s.x a) ∧
      ∃ t, exec (.syswr d a 0x102) s = .next t ∧ t.readCR 0x102 = BitVec.ofNat 64 (max 1 (bits (s.x a) 0 4))))

/-! ## Committees -/

/-- The committee's registers and the arrivals of `catch` and `catch.nv` in flow mode (R314, R328 to R332): `cmrd` and `cmwr` move one
register, `cstat` gives the standing, and an arrival is answered at once or recorded by the first matching case of R331; it
declares its position, and where it names a token that an unfinished commit has taken, it waits for that commit's end (log entry 108). -/
def Obligations.CommitteeArrivals : Prop :=
  ∀ (s : State) (d a b : Nat), s.me.canWrite d = true →
    let k := bits (s.x a) 8 3
    let r := bits (s.x a) 0 6
    let done := fun w : State => (w.progress s.cur.core).modMe fun c => { c with wait := .none }
    (commReg r = true → s.me.priv ≠ 0 → ((s.comm k).owner = some s.myPart ∨ (s.comm k).concerns s.myPart = true) →
      ∃ t, exec (.cmrd d a) s = .next t.commanded ∧ XResult s t d ((s.comm k).reg r)) ∧
    (commReg r = true → commReadOnly r = false → s.me.priv ≠ 0 →
      ((s.comm k).configured = false ∨ (s.comm k).owner = none ∨ (s.comm k).owner = some s.myPart) →
      ∃ t, XResult s t d ((s.comm k).reg r) ∧ exec (.cmwr d a b) s = .next (t.writeCommReg k r (s.x b)).commanded) ∧
    (s.me.pureMarked = false → ∃ t, exec (.cstat d) s = .next t.commanded ∧ XResult s t d (s.standing s.myPart)) ∧
    (s.stepMode s.cur.core = false → s.me.pureMarked = false →
      ∀ e ∈ ([(.catch d a b, true), (.catchNv d a b, false)] : List (Instr × Bool)),
      (s.crewOf s.myPart = none → ∃ t, exec e.1 s = .next t ∧ XWritten (done s.commanded) t d (catchWord 7 noId 0) (s.pc + 4)) ∧
      ∀ c m, s.crewOf s.myPart = some (c, m) →
        let x := s.comm c
        let y := x.member m
        let n := (s.x b).toNat
        let pos := bits (s.x a) 0 63
        let at' := s.commanded.modComm c fun x => x.modMember m fun z => { z with pos := BitVec.ofNat 32 pos }
        let open' := x.state = .opened ∧ y.state ≠ .spent ∧ y.state ≠ .faulted ∧ n = x.ccatch.toNat + 1
        (∀ st, (x.state = .halted ∧ st = 5) ∨ (x.state ≠ .halted ∧ ((y.state = .spent ∧ st = 3) ∨ (y.state = .faulted ∧ st = 4) ∨
            (y.state ≠ .spent ∧ y.state ≠ .faulted ∧ (n = 0 ∨ x.ccatch.toNat + 1 < n) ∧ st = 6))) →
          ∃ t, exec e.1 s = .next t ∧ XWritten (done at') t d (catchWord st noId x.cpos.toNat) (s.pc + 4)) ∧
        (e.2 = false → x.state ≠ .halted → y.state ≠ .spent → y.state ≠ .faulted → n ≠ 0 → n ≤ x.ccatch.toNat →
          (x.midCommit = false → ∃ t, exec e.1 s = .next t ∧ XWritten (done at') t d
            (match x.past n with | some h => catchWord 2 h.id h.cpos | none => catchWord 2 noId x.cpos.toNat) (s.pc + 4)) ∧
          (x.midCommit = true →
            ∃ t, exec e.1 s = .next t ∧ t.me = { s.me with wait := .catchAns c n d 2 } ∧ OnlyContext at' t)) ∧
        (open' → y.arr = true → ∃ t, exec e.1 s = .next t ∧ t.me = { s.me with wait := .catchAns c n d 1 } ∧ OnlyContext at' t) ∧
        (open' → y.arr = false → pos ≤ x.cpos.toNat → ∃ t : State, exec e.1 s = .next (t.evaluate c false) ∧
          t.comm c = x.modMember m (fun z => { z with
            cast := z.cast || e.2, arr := true, rdy := e.2, last := (s.x a).getLsbD 63, pos := BitVec.ofNat 32 pos
            vote := e.2 && pos == x.cpos.toNat }) ∧
          t.me = { s.me with wait := .catchAns c n d 0 } ∧ (∀ i, i ≠ s.cur → t.ctx i = s.ctx i) ∧
          (∀ j, j ≠ c → t.comm j = s.comm j) ∧ ∀ pa, t.homeByte pa = s.homeByte pa))

/-- The umpire's answered instructions in flow mode (R339, R343, R345, R348): HALTED and NOTUMP first, then each instruction's own cases;
a counted pair, contribution or run is recorded, a contribution waits for its round, and a `cwait` of a decided catch is answered with
CVOTE, its record written and the combine block loaded. A pair or a contribution out of bounds is BADARG before it is DUP (log entry
56). -/
def Obligations.CommitteeInstructions : Prop :=
  ∀ (s : State) (d a b : Nat), s.me.canWrite d = true → s.stepMode s.cur.core = false → s.me.pureMarked = false →
    let done := fun w : State => (w.commanded.progress s.cur.core).modMe fun c => { c with wait := .none }
    let p := s.myPart
    let go := s.pc + 4
    let n := bits (s.x a) 32 32
    let shard := bits (s.x b) 24 8
    (∀ e ∈ ([(.cwait d a b, (bits (s.x b) 40 3, 2 ^ 16)), (.nmax d a b, (bits (s.x b) 32 3, 1)), (.nsum d a b, (bits (s.x b) 32 3, 2 ^ 32)),
        (.nsumMax d a b, (bits (s.x b) 32 3, 2 ^ 32)), (.catchK d a b, (bits (s.x b) 8 3, 1))] : List (Instr × (Nat × Nat))),
      let x := s.comm e.2.1
      ((x.state = .off ∨ x.state = .halted) →
        ∃ t, exec e.1 s = .next t ∧ XWritten (done s) t d (BitVec.ofNat 64 (1 * e.2.2)) go) ∧
      (x.state ≠ .off → x.state ≠ .halted → x.umpire ≠ some p →
        ∃ t, exec e.1 s = .next t ∧ XWritten (done s) t d (BitVec.ofNat 64 (3 * e.2.2)) go)) ∧
    (let c := bits (s.x b) 40 3
     let x := s.comm c
     let k := bits (s.x b) 0 40
     x.umpireStatus p = 0 →
      ((k = 0 ∨ x.ccatch.toNat + 2 < k) → ∃ t, exec (.cwait d a b) s = .next t ∧ XWritten (done s) t d (BitVec.ofNat 64 (2 * 2 ^ 16)) go) ∧
      (k ≠ 0 → k ≤ x.ccatch.toNat → ∃ t, exec (.cwait d a b) s = .next t ∧ XWritten (done s) t d (BitVec.ofNat 64 (5 * 2 ^ 16)) go) ∧
      (x.ccatch.toNat < k → k ≤ x.ccatch.toNat + 2 → x.state ≠ .decided → ∃ t, exec (.cwait d a b) s = .next t ∧ OnlyContext s.commanded t ∧
        t.me = { s.me with wait := .cwait c k (s.x a) s.myCore.ptroot d }) ∧
      (x.state = .decided → x.ccatch.toNat < k → k ≤ x.ccatch.toNat + 2 →
        let v := s.commanded.modMe fun y => { y with wait := .cwait c k (s.x a) s.myCore.ptroot d }
        let rq : Req := { core := s.cur.core, ctx := s.cur.ctx, priv := s.me.priv, ptroot := s.myCore.ptroot, eng := some 5, direct := true }
        let loaded := fun w : State => (w.modMe fun y => { y with wait := .none, combine := x.decision }).progress s.cur.core
        let failed := x.cvote ||| BitVec.ofNat 64 (6 * 2 ^ 16)
        v.cwaiters c = [(s.cur, s.x a, s.myCore.ptroot, d)] →
        (s.x a = 0 → ∃ t, exec (.cwait d a b) s = .next t ∧ XWritten (loaded v) t d x.cvote go) ∧
        ((s.x a).toNat % 64 ≠ 0 → ∃ t, exec (.cwait d a b) s = .next t ∧ XWritten (loaded v) t d failed go) ∧
        (s.x a ≠ 0 → (s.x a).toNat % 64 = 0 →
          (∀ e, v.storeBytes rq (vaRange (s.x a).toNat 64) x.decisionRecord = .error e →
            ∃ t, exec (.cwait d a b) s = .next t ∧ XWritten (loaded v) t d failed go) ∧
          ∀ w, v.storeBytes rq (vaRange (s.x a).toNat 64) x.decisionRecord = .ok w →
            ∃ t, exec (.cwait d a b) s = .next t ∧ XWritten (loaded w) t d x.cvote go))) ∧
    (let c := bits (s.x b) 32 3
     let x := s.comm c
     let who := bits (s.x b) 0 18
     let v := countedValue (f32 (bits (s.x a) 0 32))
     let due := n = (x.ccatch.toNat + 1) % 2 ^ 32 ∧ x.state ≠ .opened
     x.umpireStatus p = 0 →
      (¬due → (∃ t, exec (.nmax d a b) s = .next t ∧ XWritten (done s) t d 2 go) ∧
        ∀ i ∈ ([.nsum d a b, .nsumMax d a b] : List Instr), ∃ t, exec i s = .next t ∧ XWritten (done s) t d (BitVec.ofNat 64 (2 * 2 ^ 32)) go) ∧
      (due → (x.nshard ≤ shard ∨ (v ≠ 0xFF800000 ∧ x.npiece ≤ who)) →
        ∃ t, exec (.nmax d a b) s = .next t ∧ XWritten (done (s.modComm c fun x => x)) t d 6 go) ∧
      (due → shard < x.nshard → (v = 0xFF800000 ∨ who < x.npiece) →
        ∃ t, exec (.nmax d a b) s = .next t ∧ if smHas x.pairs shard then XWritten (done (s.modComm c fun x => x)) t d 4 go
          else XWritten (done (s.modComm c fun x => { x with pairs := smSet x.pairs shard (v, who) })) t d 0 go) ∧
      (due → shard < x.nshard → ∀ e ∈ ([(.nsum d a b, false), (.nsumMax d a b, true)] : List (Instr × Bool)),
        let round := bits (s.x b) 0 4
        let r := smGet x.rounds round ⟨e.2, []⟩
        let q : Round := { r with values := smSet r.values shard (f32 (bits (s.x a) 0 32)) }
        let u := (s.commanded.modComm c fun x => { x with rounds := smSet x.rounds round q }).modMe fun y => { y with wait := .nsum c n round d }
        (r.isMax ≠ e.2 → ∃ t, exec e.1 s = .next t ∧ XWritten (done s) t d (BitVec.ofNat 64 (6 * 2 ^ 32)) go) ∧
        (r.isMax = e.2 → smHas r.values shard = true →
          ∃ t, exec e.1 s = .next t ∧ XWritten (done s) t d (BitVec.ofNat 64 (4 * 2 ^ 32)) go) ∧
        (r.isMax = e.2 → smHas r.values shard = false → q.values.length ≠ x.nshard → exec e.1 s = .next u) ∧
        (r.isMax = e.2 → smHas r.values shard = false → q.values.length = x.nshard →
          exec e.1 s = .next (u.answerAll (roundAnswer c n round q.result))))) ∧
    (let c := bits (s.x b) 8 3
     let x := s.comm c
     let j := bits (s.x b) 0 4
     x.umpireStatus p = 0 →
      ((bits (s.x b) 32 32 ≠ (x.ccatch.toNat + 1) % 2 ^ 32 ∨ x.state = .opened) →
        ∃ t, exec (.catchK d a b) s = .next t ∧ XWritten (done s) t d 2 go) ∧
      (bits (s.x b) 32 32 = (x.ccatch.toNat + 1) % 2 ^ 32 → x.state ≠ .opened →
        (x.kspec = 0 → ∃ t, exec (.catchK d a b) s = .next t ∧ XWritten (done s) t d 7 go) ∧
        (x.kspec ≠ 0 → (x.kspec < j ∨ (j ≠ 0 ∧ (s.x a).toNat % 4 ≠ 0)) →
          ∃ t, exec (.catchK d a b) s = .next t ∧ XWritten (done s) t d 6 go) ∧
        ∀ ids v, x.kspec ≠ 0 → s.runIds x (s.x a) j = some (ids, v) → ∃ t, exec (.catchK d a b) s = .next t ∧
          if x.run.isSome then XWritten (done v) t d 4 go else XWritten (done (v.modComm c fun x => { x with run := some ids })) t d 0 go))

/-- `ccomb`, `gnoise` and `gnoise.u` (R341, R342): each of the 64 elements that is active takes the value of the expression, of the noise or
of the draw, the others a constant. The groups of `ccomb` are those of the staggered numbers (R139), or it traps ILLEGAL. -/
def Obligations.CombiningVectors : Prop :=
  ∀ (s u : State) (d a b p : Nat) (c : Bool), s.bodyFits = .ok () → s.queueRoom = true → s.me.combine.valid = true →
    let x := s.me.combine
    let vd := s.stag 0 d
    let va := s.stag 1 a
    let vb := s.stag 2 b
    let lane := fun r i => f32 (vElem 32 (u.vdata r) i)
    let draws := fun (aux : BitVec 2048) i => drawHash x.cseed (x.catchN + bits aux 96 4) (bits aux 64 32 + i)
    let out := fun (i : Instr) (regs : List Nat) (idle : Nat) (f : Nat → Nat × Flags) =>
      s.vAccess regs [vd] = .ok u → ∃ t data, exec i s = .next t ∧
        VecResult u t vd data (u.vside vd) ⟨flagsOf 64 fun j => if u.active p c (4 * j) then (f j).2 else 0, true, regs ++ [32 + p], [vd]⟩ ∧
        ∀ j, j < 64 → vElem 32 data j = if u.active p c (4 * j) then (f j).1 % 2 ^ 32 else idle
    (va % 8 = 0 → vb % 2 = 0 →
      out (.ccomb d a b p c) (x.read.map (fun m => (va + m) % 32) ++ [vb, (vb + 1) % 32]) 0xFF800000 fun i =>
        let aux := u.vdata ((vb + 1) % 32)
        x.element ⟨bits aux 64 32 + i, x.read.map fun m => (m, lane ((va + m) % 32) i), aux.getLsbD i, lane vb i, x.filterAt aux⟩) ∧
    (va % 8 ≠ 0 ∨ vb % 2 ≠ 0 → ∃ t, exec (.ccomb d a b p c) s = .next t ∧ Traps s t .illegal (s.insn.setWidth 64)) ∧
    out (.gnoise d a b p c) [va, vb, vd] 0xFF800000 (fun i => x.noisy (draws (u.vdata vb) i) (lane va i) (lane vd i)) ∧
    out (.gnoiseU d b p c) [vb] 0 fun i => (uniform (draws (u.vdata vb) i), 0)

/-! ## Events -/

/-- Causes are taken at the boundary of a running context (R20, R384): a helper's trap before every cause, then the cause of least code; a
helper becomes HELD. Where no cause is due, nothing happens. -/
def Obligations.CausesTaken : Prop :=
  ∀ (s : State) (core ctx h : Nat) (p : Pending), s.running core = true →
    let i : CtxId := ⟨core, 0⟩
    let c := s.ctx i
    let hc := s.ctx ⟨core, h⟩
    let k := s.ctx ⟨core, ctx⟩
    let word := BitVec.ofNat 64 (p.cause.code + 2 ^ 8 + p.eng.isSome.toNat * 2 ^ 9 + p.eng.getD 0 % 8 * 2 ^ 10)
    (s.causeDue i = true → s.heldPending core = none → leastCause (s.pendingOf i) = some p →
      ∃ t, exec (.asyncTrapEntry core 0) s = .next t ∧ OnlyCtxs s t [i] ∧ EnteredStatus c.status (t.ctx i).status 0 ∧
        t.ctx i = { c with
          epc := c.pc, cause := word, tval := p.tval, status := (t.ctx i).status, pc := alignPc c.tvec, entering := some false
          wait := .none, remote := none, pending := c.pending.filter (fun q => q.cause != p.cause)
          vregFault := if p.cause = .vregFault then none else c.vregFault } ∧
        (t.core core).wpHit = (if p.cause = .watchpoint then [] else (s.core core).wpHit)) ∧
    (s.causeDue i = true → s.heldPending core = some h →
      ∃ t, exec (.asyncTrapEntry core 0) s = .next t ∧ OnlyCtxs s t [i, ⟨core, h⟩] ∧ EnteredStatus c.status (t.ctx i).status h ∧
        t.ctx i = { c with
          epc := hc.epc, cause := hc.cause, tval := hc.tval, status := (t.ctx i).status, pc := alignPc c.tvec
          entering := some false, wait := .none, remote := none } ∧
        t.ctx ⟨core, h⟩ = { hc with epc := c.pc, trapPending := false }) ∧
    (ctx ≠ 0 → s.causeDue ⟨core, ctx⟩ = true → leastCause k.pending = some p →
      ∃ t, exec (.helperCauseTaken core ctx) s = .next t ∧ OnlyCtxs s t [⟨core, ctx⟩] ∧
        t.ctx ⟨core, ctx⟩ = { k with
          epc := k.pc, cause := word, tval := p.tval, life := .held, trapPending := true, wait := .none, remote := none
          pending := k.pending.filter (fun q => q.cause != p.cause)
          vregFault := if p.cause = .vregFault then none else k.vregFault }) ∧
    (s.causeDue ⟨core, ctx⟩ = false →
      ∀ e ∈ ([.asyncTrapEntry core ctx, .helperCauseTaken core ctx] : List Instr), exec e s = .next s)

/-- Expiries raise their causes (R238, R356, R358, R360, R361): BUDGET once for a slice group, HANG once for a partition, LINK_DOWN and
PEER_DOWN with HEALTH.LINKDN and the devices that are down, once a request has gone unanswered for the effective time; the requests that
a link held are sent again, and those to a device that is down end. A retrained link is up again. -/
def Obligations.ExpiriesRaiseCauses : Prop :=
  ∀ (s : State) (core g part link dev h : Nat) (x : SliceGroup), link < 16 →
    let q := s.part part
    let sup : CtxId := ⟨q.supervisor, 0⟩
    let idle := ∀ n ∈ q.cores, (s.eng n 1).out = []
    ((s.core core).slices.find? (fun e => e.1 == g) = some (g, x) → x.budgetOn = true → x.budget = 0 → x.expired = false →
      s.lowestLive core x = some h →
      ∃ t, exec (.budgetExpiry core g) s = .next t ∧ Pends s t ⟨core, h⟩ .budget (s.ctx ⟨core, h⟩).slice none ∧
        (t.core core).slices = smSet (s.core core).slices g { x with expired := true }) ∧
    (q.live = true → q.wdogArmed = true → q.wdogInterval ≠ 0 → q.wdogRemain = 0 →
      ∃ t, exec (.watchdogExpiry part) s = .next t ∧ Pends s t sup .hang q.lastProgress none ∧
        t.part part = { q with wdogArmed := false }) ∧
    (q.live = true → idle →
      (s.linkDue part link 0 = true → ∃ t, exec (.linkTimeout part link) s = .next t ∧
        TimedOut s t sup .linkDown (BitVec.ofNat 64 link) ∧
        (∀ o ∈ s.outstanding part, if o.2.silent link q.effLink s.time = true
          then ∃ l, (t.ctx o.1).remote = some { o.2 with link := l, sent := s.time } else (t.ctx o.1).remote = some o.2) ∧
        bits t.health (48 + link) 1 = 1 ∧ t.part part = { q with linkDown := (q.linkDown ++ [link]).eraseDups }) ∧
      (s.groupDue part g = true → ∃ t, exec (.groupTimeout part g) s = .next t ∧
        TimedOut s t sup .peerDown (BitVec.ofNat 64 (2 ^ 63 + g % 64)) ∧
        (∀ o ∈ s.outstanding part, (t.ctx o.1).remote = if (s.groupDevices g).contains o.2.dev then none else some o.2) ∧
        t.part part = { q with peerDown := (q.peerDown ++ s.groupDevices g).eraseDups }) ∧
      (s.peerDue part dev 0 = true → q.peerDown.contains dev = false →
        ∃ t, exec (.peerTimeout part dev) s = .next t ∧ TimedOut s t sup .peerDown (BitVec.ofNat 64 dev) ∧
          (∀ o ∈ s.outstanding part, (t.ctx o.1).remote = if dev = o.2.dev then none else some o.2) ∧
          t.part part = { q with peerDown := (q.peerDown ++ [dev]).eraseDups })) ∧
    (∀ e ∈ ([(.linkTimeout part link, s.linkDue part link 0), (.groupTimeout part g, s.groupDue part g),
      (.peerTimeout part dev, s.peerDue part dev 0)] : List (Instr × Bool)), e.2 = false → exec e.1 s = .next s) ∧
    ∃ t, exec (.linkRetrain link) s = .next t ∧ OnlyCtxs s t [] ∧ bits t.health (48 + link) 1 = 0 ∧
      ∀ n, (t.part n).linkDown = (s.part n).linkDown.filter (· != link)

/-- Memory wear and errors (R182, R184, R387, R412): a heat counter that is due rises, saturating at 255; a page is retired once, by an
uncorrectable error or the third corrected one of a row; an error of a control context rings the bell with cause 3, one
of a slot sets its ERR, one of an L2 line makes its data unreadable, and one of the management processor is a fatal device error. -/
def Obligations.WearAndErrors : Prop :=
  ∀ (s : State) (page row core k e line : Nat) (b : Bool), MemoryCanonical s →
    let a := heatAddr (page * 65536)
    let n := smGet s.corrected (page * 65536 + row) 0 + 1
    let put := fun (u : State) (corrected : Bool) (t : State) =>
      t.retired = (if s.retired.length < 65536 then s.retired ++ [⟨page, corrected, s.powerCycle⟩] else s.retired) ∧
      t.isRetired page = true ∧ (∀ pg, pg ≠ page → t.isRetired pg = s.isRetired pg) ∧ t.corrected = u.corrected ∧
      (∀ pg, pg ≠ page → (pg ∈ t.dead ↔ pg ∈ s.dead)) ∧
      (∀ i, t.ctx i = s.ctx i) ∧ ∀ pa, pa ≠ retiredByte page → t.homeByte pa = s.homeByte pa
    (s.heatDue.contains page = false → exec (.heatCounterIncrement page) s = .next s) ∧
    (s.heatDue.contains page = true → s.lines.find? (fun c => c.1 == a / 128) = none →
      ∃ t, exec (.heatCounterIncrement page) s = .next t ∧ t.heatDue = s.heatDue.erase page ∧ (∀ i, t.ctx i = s.ctx i) ∧
        ∀ pa, t.homeByte pa = if pa = a then BitVec.ofNat 8 (min 255 ((s.homeByte a).toNat + 1)) else s.homeByte pa) ∧
    (s.isRetired page = false → ∃ t, exec (.hbmPageRetirement page b) s = .next t ∧ put s b t) ∧
    (s.isRetired page = true → ∃ t, exec (.hbmPageRetirement page b) s = .next t ∧ t.retired = s.retired ∧ t.mem = s.mem ∧
      (∀ pg, pg ≠ page → (pg ∈ t.dead ↔ pg ∈ s.dead)) ∧ ∀ i, t.ctx i = s.ctx i) ∧
    (n < 3 → exec (.hbmCorrectedError page row) s = .next { s with corrected := smSet s.corrected (page * 65536 + row) n }) ∧
    (3 ≤ n → s.isRetired page = false → ∃ t, exec (.hbmCorrectedError page row) s = .next t ∧
      put { s with corrected := smSet s.corrected (page * 65536 + row) n } true t) ∧
    ((s.core core).inPart = true →
      (∃ t, exec (.uncorrectableCoreError core 0) s = .next t ∧ OnlyCtxs s t [] ∧
        ((s.part (s.core core).partid).stopped = none → (s.part (s.core core).partid).ringing = none →
          t.part (s.core core).partid = { s.part (s.core core).partid with ringing := some 3 })) ∧
      (1 ≤ k → k ≤ 10 → s.groupOf ⟨core, k⟩ = none → s.stepMode core = false →
        ∃ t, exec (.uncorrectableCoreError core k) s = .next t ∧ Pends s t ⟨core, 0⟩ .uncorrectableData 0 none) ∧
      (s.restartables core ≠ [] → ∃ t, exec (.uncorrectableCoreError core 11) s = .next t ∧ OnlyCtxs s t [] ∧
        ∀ g ∈ s.restartables core, Move.event (.sliceReexecution core g) ∈ t.agenda)) ∧
    (∃ t, exec (.uncorrectableCoreError core 12) s = .next t ∧ OnlyCtxs s t [] ∧ t.events = s.events ++ [⟨3, none, 0, none⟩]) ∧
    (k < 16 → ∃ t, exec (.uncorrectableCoreError core (16 + k)) s = .next t ∧ OnlyCtxs s t [] ∧
      let old := (s.cluster (clusterOf core)).slot k
      let new := (t.cluster (clusterOf core)).slot k
      new.err = true ∧ new.owner = old.owner ∧ new.version = old.version ∧
        ∀ j, j ≠ k → (t.cluster (clusterOf core)).slot j = (s.cluster (clusterOf core)).slot j) ∧
    (smHas s.l2 line = true → ∃ t, exec (.uncorrectableCoreError core (32 + line)) s = .next t ∧ OnlyCtxs s t [] ∧
      smHas t.l2 line = false ∧ t.poison.contains line = true ∧ ∀ l, l ≠ line → (l ∈ t.poison ↔ l ∈ s.poison)) ∧
    ∃ t, exec (.expanderLinkDown e) s = .next t ∧ OnlyCtxs s t [] ∧
      ∀ d x, (d, x) ∈ t.expanders ↔ ∃ y, (d, y) ∈ s.expanders ∧ x = if d = e then { y with up := false } else y

/-- FREEZE, readout, thermal trip, and the device's power states (R403, R412 to R417): what stops, what a frozen device shows, what rings,
and what remains of memory, without what stood in L2 slices only, when power goes, comes back, or the device is reset. -/
def Obligations.PowerAndFreeze : Prop :=
  ∀ (s : State) (pa n image die : Nat),
    (∃ t, exec .freeze s = .next t ∧ t = { s with frozen := true, cores := t.cores } ∧
      ∀ i, t.ctx i = if (s.ctx i).life = .live then { s.ctx i with life := .stopped } else s.ctx i) ∧
    (∃ t, exec (.garfyReadout pa n) s = .next t ∧ t.readings.isSome = true ∧
      t = { s with readings := t.readings, freeIdx := t.freeIdx, hostRead := t.hostRead, garfy := t.garfy } ∧
      (s.frozen = true → t.garfy = some s.garfyView ∧ t.hostRead = (List.range n).map fun i => s.mem.get (pa + i)) ∧
      (s.frozen = false → t.garfy = s.garfy ∧ t.hostRead = s.hostRead)) ∧
    exec (.firmwareImageWrite image) s = .next { s with flashImage := image } ∧
    (die < 4 → ∃ t, exec (.thermalTrip die) s = .next t ∧ OnlyCtxs s t [] ∧ t.events = s.events ++ [⟨6, none, 0, none⟩] ∧
      ∀ p, (s.part p).live = true → smHas s.parts p = true → (s.part p).stopped = none → (s.part p).ringing = none →
        (t.part p).ringing = some 4) ∧
    (∃ t, exec .powerLoss s = .next t ∧ t.powered = false ∧ t.parts = [] ∧ t.cores = [] ∧ t.flashImage = s.flashImage ∧
      t.hostMem = s.hostMem ∧ t.mem = s.behindL2.filter fun c => cxlBase ≤ c.1 && c.1 < sramBase) ∧
    ((∀ l ∈ s.l2, l.2.back = none) → s.behindL2 = s.mem) ∧
    (∃ t, exec .bringUp s = .next t ∧ t.powered = true ∧ t.powerCycle = s.powerCycle + 1 ∧ t.firmware = s.flashImage ∧ t.parts = [] ∧
      t.cores = [] ∧ t.corrected = [] ∧ t.retired = s.retired ∧ t.frozen = false ∧ ∀ pg ∈ t.dead, ∃ r ∈ s.retired, r.page = pg) ∧
    (s.powered = true → ∃ t, exec .deviceReset s = .next t ∧ t.powered = true ∧ t.powerCycle = s.powerCycle ∧ t.firmware = s.firmware ∧
      t.parts = [] ∧ t.cores = [] ∧ t.corrected = s.corrected ∧ t.retired = s.retired ∧ t.expanders = s.expanders ∧
      t.mem = s.behindL2.filter fun c => inRetiredMap c.1 || (cxlBase ≤ c.1 && c.1 < sramBase))

/-- The management function (R285, R389, R391, R392, R395, R410): each command is carried out and answered with RESULT 0, or refused with a
RESULT that is not 0 and changes nothing else. -/
def Obligations.ManagementCommands : Prop :=
  ∀ (s : State) (x : CreateArgs) (part area col row : Nat) (table : List Nat) (im : Image),
    let q := s.part part
    let at' := fun code : Nat => ({ s with mbCommand := code, mbGo := true, mbVector := false } : State)
    let done := fun t : State => t.mbResult = 0 ∧ t.mbVector = true ∧ t.mbGo = false
    let refused := fun t : State => t.mbResult ≠ 0 ∧ t.mbVector = true ∧ t.mbGo = false ∧ t.parts = s.parts ∧ t.cores = s.cores ∧ t.mem = s.mem ∧
      t.images = s.images ∧ t.switchGroup = s.switchGroup
    let clear := q.stopped = none ∧ q.ringing = none
    (s.mayCreate x = true → ∃ t, exec (.create x) s = .next t ∧ done t ∧ t.part x.partid = createdPartition x ∧ t.mem = s.mem ∧
      ∀ n ∈ (createdPartition x).cores, t.core n =
        { partid := x.partid, inPart := true, ptroot := storedPtroot x.ptroot, cycle := (s.core n).cycle
          ctxs := [(0, { freshCtx 0 with life := .live, pc := alignPc (storedRvec x.rvec) })] }) ∧
    (q.live = true → ∃ t, exec (.destroy part) s = .next t ∧ done t ∧ t.parts = smErase ((at' 2).resetPartition part).parts part) ∧
    (q.live = false → s.areaOf part = some area → ∃ t, exec (.destroy part) s = .next t ∧ done t ∧
      ∀ i ∈ t.images, i.2.partid ≠ part) ∧
    (q.live = true → q.switchTo = none → smHas s.images area = false → ∃ t, exec (.switch part area) s = .next t ∧ done t ∧
      t.part part = { q with
        preempt := putBits q.preempt 63 1 0, switchTo := some area
        ringing := if q.stopped.isSome ∨ q.ringing.isSome then q.ringing else some 6 }) ∧
    (s.images.find? (fun i => i.1 == area) = some (area, im) → s.mayResume im col row = true →
      ∃ t, exec (.resume area col row) s = .next t ∧ done t ∧ t = ((at' 4).resumeImage area im col row).endMgmt true ∧
        (im.part.fnReset = false → t.images = smErase s.images area)) ∧
    (q.live = true → clear → ∃ t, exec (.bell part) s = .next t ∧ done t ∧ t.part part = { q with ringing := some 4 }) ∧
    (∀ c, q.live = true → q.stopped = some c → 1 ≤ c → c ≤ 4 → ∃ t, exec (.continue part) s = .next t ∧ done t ∧
      t.part part = { q with stopped := none } ∧ (∀ n ∈ q.cores, ∀ k, t.ctx ⟨n, k⟩ =
        if (s.ctx ⟨n, k⟩).life = .stopped then { s.ctx ⟨n, k⟩ with life := .live } else s.ctx ⟨n, k⟩) ∧
      (∀ n, n ∉ q.cores → t.core n = s.core n) ∧ t.mem = s.mem) ∧
    (table.length = 64 → (∀ g ∈ table, g < 64) → ∃ t, exec (.groups table) s = .next t ∧ done t ∧ t.switchGroup = table) ∧
    ∀ e ∈ ([
      (.create x, s.mayCreate x = false), (.destroy part, q.live = false ∧ s.areaOf part = none),
      (.switch part area, q.live = false ∨ q.switchTo ≠ none ∨ smHas s.images area = true),
      (.resume area col row, s.images.find? (fun i => i.1 == area) = none), (.bell part, q.live = false),
      (.continue part, q.live = false ∨ q.stopped = none ∨ q.stopped = some 5 ∨ q.stopped = some 6),
      (.groups table, table.length ≠ 64)] : List (Instr × Prop)), e.2 → ∃ t, exec e.1 s = .next t ∧ refused t

/-- What happens to a whole partition (R287, R389, R390, R392 to R394, R397 to R399, R406): its resets, its bell stop, its rollback, and
its gang switch. -/
def Obligations.PartitionEvents : Prop :=
  ∀ (s : State) (part area c : Nat),
    let q := s.part part
    (∀ e ∈ ([.partitionReset part, .functionLevelReset part] : List Instr),
      (q.live = true → ∃ t, exec e s = .next t ∧ (∃ u : Machine.Partition, t.part part = u.afterReset) ∧
        (∀ n ∈ (t.part part).cores, t.core n =
          { partid := part, inPart := true, ptroot := (t.part part).initPtroot
            ctxs := [(0, { freshCtx 0 with life := .live, pc := alignPc (t.part part).rvec })] }) ∧
        ∃ l, t.events.getLast? = some ⟨1, some part, 0, l⟩) ∧
      (q.live = false → ∃ t, exec e s = .next t ∧ t.parts = s.parts ∧ t.cores = s.cores ∧ t.mem = s.mem ∧
        ∀ a i, (a, i) ∈ t.images ↔ ∃ j, (a, j) ∈ s.images ∧
          i = if j.partid = part then { j with part := { j.part with fnReset := true } } else j)) ∧
    (q.ringing = some c → q.live = true → c ≠ 2 → c ≠ 3 → ∃ t, exec (.bellStop part) s = .next t ∧
      (t.part part).stopped = some c ∧ (t.part part).ringing = none ∧ bits (t.part part).bell 8 4 = c % 16 ∧
      bits (t.part part).bell 16 32 = (bits q.bell 16 32 + 1) % 2 ^ 32 ∧ t.events = s.events ++ [⟨5, some part, c, none⟩] ∧
      ∀ n ∈ q.cores, ∀ k, (t.ctx ⟨n, k⟩).life = if (s.ctx ⟨n, k⟩).life = .live then .stopped else (s.ctx ⟨n, k⟩).life) ∧
    (q.ringing = none → exec (.bellStop part) s = .next s) ∧
    (q.live = true → q.mode = true → q.stopped = none → q.ringing = none →
      (2 ≤ bits q.stepctl 8 2 → ∃ t, exec (.rollback part) s = .next t ∧ OnlyCtxs s t [] ∧ t.part part = { q with ringing := some 3 }) ∧
      (bits q.stepctl 8 2 < 2 → ∃ t, exec (.rollback part) s = .next t ∧ (t.part part).stopped = none ∧
        ∀ g ∈ (t.part part).groups, g.2.bars = [])) ∧
    ((q.live = false ∨ q.mode = false ∨ q.stopped ≠ none ∨ q.ringing ≠ none) → exec (.rollback part) s = .next s) ∧
    (q.live = true → q.switchTo = none → q.preempt.getLsbD 63 = true → bits q.preempt 0 62 ≤ s.time →
      ∃ t, exec (.preemptExpiry part) s = .next t ∧ OnlyCtxs s t [] ∧ t.part part = { q with
        preempt := putBits q.preempt 63 1 0, switchTo := some s.freeArea
        ringing := if q.stopped.isSome ∨ q.ringing.isSome then q.ringing else some 6 }) ∧
    ((q.preempt.getLsbD 63 = false ∨ s.time < bits q.preempt 0 62) → exec (.preemptExpiry part) s = .next s) ∧
    (q.switchTo = some area → q.live = true → q.stopped ≠ none → ∃ t u, exec (.gangSwitch part) s = .next t ∧
      u = s.settleForSwitch part ∧ t.images = smSet u.images area (u.image part) ∧ (∀ p, p ≠ part → (t.part p).besidesAccess = (u.part p).besidesAccess) ∧
      (u.image part).partid = part ∧ (u.image part).part = u.part part ∧
      ∀ n ∈ (u.part part).cores, t.core n = { cycle := (u.core n).cycle })

/-- The queue controller and paired slices (R226, R230, R232, R233, R236, R239 to R242): a selection starts a slice's context with its
coordinates, a slice is executed again, and the two copies' requests are compared. -/
def Obligations.SlicesAndPairs : Prop :=
  ∀ (s u : State) (core part p q g k h : Nat) (x : Queue) (y : SliceGroup) (l : LaunchProg) (cands : List (Nat × Queue × LaunchProg))
    (hs slots : List Nat) (r : PairedReq) (j : CtxId),
    (s.partOf core = some p → s.selects core = true → s.reexecFor p core = none →
      s.candidates p (smKeys (s.part p).queues) = (u, cands) →
      (u.chooseHead p core cands = none → exec (.sliceSelection core) s = .next u) ∧
      (u.chooseHead p core cands = some (q, x, l) → u.fits core l.tt = some (h :: hs, slots) → h ≠ 0 → l.launch.pair = false →
        ∃ t, exec (.sliceSelection core) s = .next t ∧ t.ctx ⟨core, h⟩ = { startedCtx h l.tt.pc
          [BitVec.ofNat 64 (l.placed % l.launch.nx), BitVec.ofNat 64 (l.placed / l.launch.nx % l.launch.ny),
            BitVec.ofNat 64 (l.placed / (l.launch.nx * l.launch.ny))] with
          slice := BitVec.ofNat 64 (q % 32 * 2 ^ 32 + l.count % 2 ^ 32), deadline := l.launch.deadline
          budget := BitVec.ofNat 64 l.launch.budget, group := some h })) ∧
    (s.selects core = false → exec (.sliceSelection core) s = .next s) ∧
    (s.queueOf part q = some x → x.headProg = some l → x.stop = false → l.launch.total = 0 → (s.part part).mode = false →
      (s.part part).stopped = none → s.readGate part x = .ok (k, u) →
      (k ≠ 0 → exec (.zeroSliceLaunch part q) s = .next u) ∧
      (k = 0 → ∃ t, exec (.zeroSliceLaunch part q) s = .next t ∧
        t = ((u.modQueue part q fun x => { x with head := x.head + 1, dirty := true }).publishLaunch part q l).newHead part q ∧
        ∃ z, (t.part part).queues.find? (fun e => e.1 == q) = some (q, z) ∧ z.head = x.head + 1)) ∧
    ((s.core core).slices.find? (fun e => e.1 == g) = some (g, y) →
      (y.restartable = false → exec (.sliceReexecution core g) s = .next s) ∧
      (y.restartable = true → (s.part (s.core core).partid).reexecFull y.queue = true →
        ∃ t, exec (.sliceReexecution core g) s = .next t ∧ (t.core core).slices = smSet (s.core core).slices g { y with restartable := false } ∧
          ∃ w ∈ (t.ctx ⟨core, 0⟩).pending, w.cause = .uncorrectableData) ∧
      (y.restartable = true → (s.part (s.core core).partid).reexecFull y.queue = false →
        ∃ t, exec (.sliceReexecution core g) s = .next t ∧ (t.core core).slices = smErase (s.core core).slices g ∧
          (t.part (s.core core).partid).queues = (s.part (s.core core).partid).queues.map fun e =>
            if e.1 = y.queue then (e.1, { e.2 with
              restarts := e.2.restarts + 1, dirty := true, reexec := e.2.reexec ++ [⟨y.launchId, y.k, core, y.failures + 1⟩] }) else e)) ∧
    (s.queueOf part q = none → exec (.descriptorWriteback part q) s = .next s) ∧
    (s.queueOf part q = some x → ∃ t, exec (.descriptorWriteback part q) s = .next t ∧
      (∀ e ∈ (t.part part).queues, e.1 = q → e.2.dirty = false) ∧
      ∀ v, (s.modQueue part q fun x => { x with dirty := false }).storeBytes (s.ctlReq part) (vaRange ((s.part part).descriptor q + 8) 40)
        ([x.word1, x.tail, x.head, x.retire, x.restarts % 2 ^ 32].flatMap (natToBytes 8)) = .ok v → t = v) ∧
    (s.paired.find? (fun e => e.1 == k) = some (k, r) → (s.part r.part).live = true →
      (r.second = none → exec (.pairedRequestMatch k) s = .next s) ∧
      (r.second = some j → j ≠ r.first → r.hash = r.hash2 → ∃ t, exec (.pairedRequestMatch k) s = .next t ∧
        OnlyCtxs s t [r.first, j] ∧ t.paired = smErase s.paired k ∧ t.agenda = .ctx j :: .ctx r.first :: s.agenda ∧
        t.ctx r.first = { s.ctx r.first with
          wait := .none, pairSeq := (s.ctx r.first).pairSeq + 1, pairGo := true, pairReply := false, pairId := s.freeIdx } ∧
        t.ctx j = { s.ctx j with
          wait := .none, pairSeq := (s.ctx j).pairSeq + 1, pairGo := true, pairReply := true, pairId := s.freeIdx }) ∧
      ∀ e ∈ ([(.pairedRequestMatch k, r.second = some j ∧ r.hash ≠ r.hash2), (.pairTimeout k, r.second = none ∧ 2 ^ 20 ≤ r.age)]
          : List (Instr × Prop)), e.2 →
        ∃ t, exec e.1 s = .next t ∧ t.paired = smErase s.paired k ∧
          (s.groupOf r.first = some y → ∀ n ∈ y.members, (t.ctx ⟨r.first.core, n⟩).life = .held) ∧
          ∃ w ∈ (t.ctx ⟨(t.part r.part).supervisor, 0⟩).pending, w.cause = .pairMismatch) ∧
    (s.paired.find? (fun e => e.1 == k) = some (k, r) → ((s.part r.part).live = false ∨ r.second ≠ none ∨ r.age < 2 ^ 20) →
      exec (.pairTimeout k) s = .next s)

/-- Accesses of the host and of remote devices, and the host queue pairs (R223, R405, R407 to R409, R437). -/
def Obligations.HostAndRemote : Prop :=
  ∀ (s : State) (x : ExtAccess) (dev part q v : Nat) (sub : HostSub) (rest : List HostSub) (a : Nat × Nat), MemoryCanonical s →
    let h := s.pair part q
    let live := (s.part part).live = true
    let home := ∀ i, i < x.width → s.strayLine ((x.pa + i) / 128) = false ∧ s.unreadable ((x.pa + i) / 128) = false
    let old := (List.range x.width).map fun i => s.homeByte (x.pa + i)
    let stored := fun (t : State) (l : List Byte) => (∀ i, t.ctx i = s.ctx i) ∧
      ∀ pa, t.homeByte pa = if x.pa ≤ pa ∧ pa < x.pa + x.width then l.getD (pa - x.pa) 0 else s.homeByte pa
    (∀ e ∈ ([(.hostAccess x, 0x7FF8000000), (.remoteAccess dev x, 0x8000000000)] : List (Instr × Nat)),
      (x.atomic = none → x.pa + x.width ≤ e.2 → 1 ≤ x.width → home →
        (x.write = false → ∃ t, exec e.1 s = .next t ∧ OnlyCtxs s t [] ∧ t.hostRead = old) ∧
        (x.write = true → x.data.length = x.width → ∃ t, exec e.1 s = .next t ∧ stored t x.data)) ∧
      (e.2 < x.pa + x.width → exec e.1 s = .next s)) ∧
    (∀ y, x.atomic = some y → exec (.hostAccess x) s = .next s ∧
      (x.width = ExtAtomic.bytes y → x.pa % ExtAtomic.bytes y = 0 → x.pa + x.width ≤ 0x8000000000 → home →
        ∃ t, exec (.remoteAccess dev x) s = .next t ∧ t.hostRead = old ∧
          stored t (natToBytes x.width (ExtAtomic.apply y (bytesToNat old)))) ∧
      ((x.width ≠ ExtAtomic.bytes y ∨ x.pa % ExtAtomic.bytes y ≠ 0) → exec (.remoteAccess dev x) s = .next s)) ∧
    (live →
      (∃ t, exec (.qcfgWrite part q 0 v) s = .next t ∧ t.pair part q = if h.en then h else { h with sqb := BitVec.ofNat 64 v }) ∧
      (∃ t, exec (.qcfgWrite part q 1 v) s = .next t ∧ t.pair part q = if h.en then h else { h with cqb := BitVec.ofNat 64 v }) ∧
      (∃ t, exec (.qcfgWrite part q 2 v) s = .next t ∧ t.pair part q = { h with qcfg := storedQcfg v } ∧
        (v / 2 ^ 8 % 16 < 4 → (t.pair part q).en = false)) ∧
      (∃ t, exec (.sqdbWrite part q v) s = .next t ∧
        t.pair part q = s.consume { h with sqdb := BitVec.ofNat 32 v, wrong := false } 4096) ∧
      (∃ t, exec (.cqdbWrite part q v) s = .next t ∧ t.pair part q = s.consume { h with cqdb := BitVec.ofNat 32 v } 4096) ∧
      (h.current = some sub →
        let rq := s.ctlReq part
        ∀ e ∈ ([(.nop part q, 0, (s, none)), (.launch part q, 1, s.publish part rq sub.a.toNat (sub.b.toNat % 32) true),
            (.publish part q, 2, s.publish part rq sub.a.toNat (sub.b.toNat % 32) false), (.signal part q, 3, s.signal part sub.a.toNat)]
            : List (Instr × Nat × CmdEnd)),
          (sub.opc = e.2.1 → ∃ t, exec e.1 s = .next t ∧
            t = (e.2.2.1.modPair part q fun h => { h with subs := answerFirst e.2.2.status h.subs }) ∧
            t.pair part q = { h with subs := answerFirst e.2.2.status h.subs } ∧
            (1 ≤ e.2.1 → e.2.1 ≤ 2 → e.2.2.2 = none → ∃ old new, s.queueOf part (sub.b.toNat % 32) = some old ∧ new.tail = old.tail + 1 ∧
              (t.part part).queues.find? (fun z => z.1 == sub.b.toNat % 32) = some (sub.b.toNat % 32, new))) ∧
          (sub.opc ≠ e.2.1 → exec e.1 s = .next s)) ∧
      (h.subs = sub :: rest → sub.answer = some a → h.en = true → h.full = false →
        ∃ t, exec (.hostCompletionWrite part q) s = .next t ∧ (∀ i, t.ctx i = s.ctx i) ∧
          t.pair part q = { h with lastprod := nextSeq h.lastprod, prodIdx := h.prodIdx + 1, subs := rest } ∧
          (h.qcfg.getLsbD 2 = false → t.hostMem = s.hostMem.setBytes (h.cqb.toNat + 16 * (h.prodIdx % 2 ^ h.cqlog))
            (completionBytes (nextSeq h.lastprod) sub.seq a)) ∧
          (t.part part).msix = if h.ien then (s.part part).msix ++ [q] else (s.part part).msix))

/-- The events of the engines (R183, R202, R246, R256, R260, R305): an aborted collective ends at every participant, a migration switches
its page and ends, a text context follows its committee, and a memory access at the head of a queue is performed. Each does nothing where
its condition does not hold. -/
def Obligations.EngineEvents : Prop :=
  ∀ (s : State) (core ticket k : Nat) (cmd : EngCmd) (mig : Migration) (op : QMem),
    (s.cmd core 1 ticket = some cmd →
      (cmd.phase = .waiting → ∃ t, exec (.collectiveAbort core ticket) s = .next t ∧ ∀ n ∈ cmd.localParts,
        cmd.key.headD 0 ∈ (t.core n).collAborted ∧
        ∀ x ∈ (s.eng n 1).out, x.onCid (cmd.key.headD 0) = true →
          (∃ y ∈ (t.eng n 1).out, y.ticket = x.ticket ∧ y.phase = .done ∧ y.fail = some ⟨10, BitVec.ofNat 64 (cmd.key.headD 0)⟩) ∧
          ∃ i : CtxId, i.core = n ∧ ∃ w ∈ (t.ctx i).pending, w.cause = .collectiveAbort) ∧
      (cmd.phase ≠ .waiting → exec (.collectiveAbort core ticket) s = .next s)) ∧
    (s.migrations.find? (fun e => e.1 == k) = some (k, mig) →
      (mig.switched = true → exec (.migrationSwitch k) s = .next s) ∧
      (mig.switched = false → s.unreadableIn mig.src = none → MemoryCanonical s → ∃ t, exec (.migrationSwitch k) s = .next t ∧
        t.migrations = smSet s.migrations k { mig with switched := true } ∧ (∀ i, t.ctx i = s.ctx i) ∧
        (∀ i, i < 65536 → (∀ j, j < 8 → mig.dst * 65536 + i ≠ mig.entry + j) →
          t.mem.get (mig.dst * 65536 + i) = s.mem.get (mig.src * 65536 + i)) ∧
        ((∀ i, i < 8 → isRemote (mig.entry + i) = false ∧ s.strayLine ((mig.entry + i) / 128) = false) → ∀ j, j < 8 →
          let e := bytesToNat ((List.range 8).map fun i => s.homeByte (mig.entry + i))
          t.mem.get (mig.entry + j) = (natToBytes 8 (e - e / 65536 % 2 ^ 36 * 65536 + mig.dst % 2 ^ 36 * 65536)).getD j 0)) ∧
      (∀ line, mig.switched = false → s.unreadableIn mig.src = some line → ∃ t, exec (.migrationSwitch k) s = .next t ∧
        t.migrations = smErase s.migrations k ∧ t.mem = s.mem ∧ (∀ i, t.ctx i = s.ctx i) ∧
        (s.cmd mig.core 0 mig.ticket = some cmd → ∃ y ∈ (t.eng mig.core 0).out, y.ticket = mig.ticket ∧ y.phase = .done ∧
          y.fail = some ⟨4, BitVec.ofNat 64 (cmd.a.toNat + 128 * (line % 512))⟩)) ∧
      (mig.switched = true → ∃ t, exec (.migrationCompletion k) s = .next t ∧ t.migrations = smErase s.migrations k ∧
        (∀ x ∈ (t.eng mig.core 0).out, x.ticket ≠ mig.ticket) ∧ (∀ i, t.ctx i = s.ctx i) ∧ ∀ pa, t.homeByte pa = s.homeByte pa) ∧
      (mig.switched = false → exec (.migrationCompletion k) s = .next s)) ∧
    ((s.textCtx k).follow = none → exec (.textFollow k) s = .next s) ∧
    (∀ f cfg, (s.textCtx k).follow = some f → (s.textCtx k).cfg = some cfg →
      let x := smGet s.comms f.comm {}
      let r := s.runText ((⟨cfg, f.req, k⟩ : TextEnv).followStep (s.textCtx k) f x)
      (x.cpos.toNat ≤ f.pos → f.pend = [] → exec (.textFollow k) s = .next s) ∧
      ((f.pos < x.cpos.toNat ∨ f.pend ≠ []) → ∃ t, exec (.textFollow k) s = .next t ∧
        (∀ u, r.1 = .ok u → t = r.2.setText k u ∧
          t.textCtx k = { u with reads := (r.2.textCtx k).reads, touched := (r.2.textCtx k).touched }) ∧
        ∀ e, r.1 = .error e → (t.textCtx k).follow = none ∧ t.eng f.core 3 = (r.2.eng f.core 3).fail f.ticket e)) ∧
    (s.queuedHead core = none → exec (.queuedMemoryCompletion core) s = .next s) ∧
    (s.queuedHead core = some (k, op) → ∃ u,
      ({ (s.modCtx ⟨core, k⟩ fun c => { c with wait := .none }) with cur := ⟨core, k⟩ } : State).runQueued op = .next u ∧
      exec (.queuedMemoryCompletion core) s = .next { u with cur := s.cur })

/-- The events of a committee (R310, R315, R317 to R319, R322, R324, R344): a member is faulted, at once or behind the commit; patience
that runs out decides with the quorum's voters or as ACT says; a commit appends its token's bytes and raises the counts, waits for a
following text, or halts the committee. Each does nothing where its condition does not hold. -/
def Obligations.CommitteeEvents : Prop :=
  ∀ (s u : State) (c m : Nat) (rec : CRecord) (l : List Byte),
    let x := s.comm c
    let y := x.member m
    let ends := fun (i : Instr) (st : CState) => ∃ t, exec i s = .next t ∧ (t.comm c).state = st
    (x.configured = false ∨ y.state = .absent ∨ y.state = .spent ∨ y.state = .faulted → exec (.cmemFault c m) s = .next s) ∧
    (x.configured = true → y.state ≠ .absent → y.state ≠ .spent → y.state ≠ .faulted →
      (x.state = .decided → ∃ t, exec (.cmemFault c m) s = .next t ∧
        t = s.modComm c fun x => x.modMember m fun y => { y with faultDue := true }) ∧
      (x.state ≠ .decided → ∃ t, exec (.cmemFault c m) s = .next t ∧ ((t.comm c).member m).state = .faulted)) ∧
    (x.state = .opened → x.timer = some 0 → x.expired = false → quoPat x.openCquo ≠ 0xFFFFFFFF →
      (x.quorum = true → ∃ t, exec (.patienceExpiry c) s = .next t ∧ (t.comm c).state = .decided ∧
        (t.comm c).cvote = x.voteWord x.voters false) ∧
      (x.quorum = false →
        let stroke := (x.record.map (·.stroke)).getD 0
        let act := quoAct x.openCquo
        (act = 0 → x.allArrived = false → exec (.patienceExpiry c) s = .next
          (s.modComm c fun x => { x with timer := none, expired := true, cpat := 0, stalled := true })) ∧
        (act = 1 → x.voters.contains stroke = true → ∃ t, exec (.patienceExpiry c) s = .next t ∧ (t.comm c).state = .decided ∧
          (t.comm c).cvote = x.voteWord [stroke] true) ∧
        (act = 1 → x.voters.contains stroke = false → ends (.patienceExpiry c) .halted) ∧
        (act = 2 → ends (.patienceExpiry c) .halted) ∧
        (act = 3 → x.nretry < quoRmax x.openCquo → ∃ t, exec (.patienceExpiry c) s = .next t ∧ (t.comm c).state = .opened ∧
          (t.comm c).nretry = x.nretry + 1) ∧
        (act = 3 → quoRmax x.openCquo ≤ x.nretry → ends (.patienceExpiry c) .halted))) ∧
    (x.timer ≠ some 0 → exec (.patienceExpiry c) s = .next s) ∧
    (x.ready = false → exec (.catchCommit c) s = .next s) ∧
    (x.record = some rec → x.ready = true →
      let w := (x.run.getD []).headD x.winner.2
      let piece := s.readPiece x.req rec.pstr.toNat w
      (num32 x.winner.1 = .inf true → ends (.catchCommit c) .halted) ∧
      (num32 x.winner.1 ≠ .inf true →
        (∀ e, piece = .error e → ends (.catchCommit c) .halted) ∧
        (piece = .ok (l, u) →
          (u.streamHeld c l.length = true → exec (.catchCommit c) s = .next u ∧ u.comm c = x) ∧
          (u.streamHeld c l.length = false →
            ((u.writeRings x.req rec x.cpos.toNat l).1 = false → ends (.catchCommit c) .halted) ∧
            ((u.writeRings x.req rec x.cpos.toNat l).1 = true → ∃ t, exec (.catchCommit c) s = .next t ∧
              (t.comm c).ccatch = x.ccatch + 1 ∧ (t.comm c).cpos = x.cpos + BitVec.ofNat 64 l.length)))))

/-! ## Prefixes and illegal words -/

/-- A prefix and its word (R49, R50, R53): the word's instruction with the prefix's modifiers in force for it alone. A word that takes no
prefix, or not these modifiers, and a word that is no instruction trap ILLEGAL with the prefix, or the word, in TVAL. -/
def Obligations.PrefixesAndIllegalWords : Prop :=
  ∀ (s : State) (q : Prefix) (i : Instr) (w : Nat),
    (takesPrefix q i = true → ∃ t u, exec (.prefixed q i) s = .next t ∧
      exec i { s with mods := some q } = .next u ∧ t = { u with mods := none }) ∧
    (takesPrefix q i = false → ∃ t, exec (.prefixed q i) s = .next t ∧ Traps s t .illegal (s.insn.setWidth 64)) ∧
    ∃ t, exec (.illegalInstruction w) s = .next t ∧ Traps s t .illegal (word (w % 2 ^ 32))

/-! ## The step, the encoding, and the memory's form -/

/-- A step that is a context's turn (R20, R22, R50, R53, R384, R386; the agenda is the model's own, log entry 2): a cause that is due is
taken first, then a note; otherwise, where its core fetches for it now, the instruction that the bytes at the pc decode to is performed,
with the context executing and its word kept for TVAL, unless its request waits for the slice's other copy (R242). Bytes that are no
instruction are performed as an illegal word, and a fetch that fails traps. -/
def Obligations.StepRunsTheDecodedInstruction : Prop :=
  ∀ (s : State) (c : CtxId) (rest : List Move), s.agenda = .ctx c :: rest → c.exists = true → s.clocked = true →
    let q : State := { s with agenda := rest }
    let b := q.turnOf c
    (q.mayRun c = false → step s = .next q) ∧
    (q.mayRun c = true → q.causeDue c = true → step s = .next (q.takeAsync c)) ∧
    (q.mayRun c = true → q.causeDue c = false → q.noteDue c = true → step s = .next (q.enterNote c)) ∧
    (q.mayRun c = true → q.causeDue c = false → q.noteDue c = false → q.itsTurn c = false → step s = .next q) ∧
    (q.mayRun c = true → q.causeDue c = false → q.noteDue c = false → q.itsTurn c = true → b.me.badEntry = false →
      (∀ e, b.fetchBytes = .error e → step s = .next (b.fetchFailed e)) ∧
      ∀ l v, b.fetchBytes = .ok (l, v) →
        let u : State := { (v.modMe fun x => { x with entering := none }) with insn := BitVec.ofNat 32 (wordAt l) }
        (∀ i r, decode l = some (i, r) → u.holdPaired i = none → u.me.pairGo = false → u.me.pairReply = false → step s = exec i u) ∧
        (∀ i r t, decode l = some (i, r) → u.holdPaired i = some t → step s = .next t) ∧
        (decode l = none → u.holdPaired (.illegalInstruction (wordAt l)) = none → u.me.pairGo = false → u.me.pairReply = false →
          step s = exec (.illegalInstruction (wordAt l)) u))

/-- Words whose encodings the spec works out decode to what they stand for, and words that R53 names decode to nothing. -/
def Obligations.WorkedEncodingsDecode : Prop :=
  (∀ e ∈ ([
    (0x04A53000, .add 5 5 6), (0x08A00FFF, .addi 5 0 (-1)), (0x0CA00013, .lih 5 0x13), (0x5BFFFFC0, .j (-0x40)),
    (0x44C0FFFE, .bne 6 0 (-2)), (0x64006000, .svc 0), (0x64004000, .tret), (0x64005000, .uret), (0x68000002, .hexit),
    (0x242B3000, .st 1 11 .b8 0), (0x2C1B3000, .ldTake 0 27 .i64 0), (0x2E098001, .stFill 16 9 1), (0x8022185E, .vfma false 1 2 3 0 false .f32),
    (0x9444282A, .vcltFp 2 4 5 0 false .f32), (0x9427004A, .pmask 1 7 0 false), (0x88270100, .vld 1 7 1 false), (0xA0050000, .tcfg 0 5),
    (0xA4533904, .tmma 1 2 3 7 4 .e4m3E4m3), (0xAC004814, .astat 0 9), (0xB0134801, .tmmaRnsRns 0 2 3 9), (0xC010518E, .ecopy 10 6 7 false),
    (0xD4040280, .tnote .copy 10), (0xD2006818, .apxBegin 13 0 12), (0xE290298E, .catch 5 6 7),
    (0xE6005100, .ccomb 16 0 10 1 false)] : List (Nat × Instr)), decodeTableWord 32 e.1 = some e.2) ∧
  decodeTableWord 64 (0x8022185E * 2 ^ 32 + 0xF92F8000)
    = some (.prefixed ⟨true, .none, true, false, -2⟩ (.vfma false 1 2 3 0 false .f32)) ∧
  ∀ w ∈ ([0x00000000, 0xFFFFFFFF, 0x04A53040, 0x14000000, 0xF8000001] : List Nat), decodeTableWord 32 w = none

/-- Decoding the words of a well-formed instruction, whatever bytes follow, gives it back with every operand (R43 to R51). -/
def Obligations.DecodeOfEncode : Prop :=
  ∀ (i : Instr) (rest : List Byte), i.wf = true → encode i ≠ [] → decode ((encode i).flatMap bytesOf ++ rest) = some (i, rest)

/-- A word that decodes to an instruction is that instruction's own encoding and the instruction is well formed: no bit of a word is
ignored, so a nonzero reserved field decodes to nothing (R53). -/
def Obligations.EncodeOfDecode : Prop :=
  ∀ (w : Nat) (i : Instr), w < 2 ^ 32 → decodeOne w = some i → encode i = [w] ∧ i.wf = true

/-- Every step keeps the memory in its canonical form: addresses rise, and no byte is listed that an unlisted address reads as. -/
def Obligations.StepsKeepMemoryCanonical : Prop := ∀ s t : State, MemoryCanonical s → step s = .next t → MemoryCanonical t

/-- The device after reset (R163, R417): no partition, no context that runs, HBM and the scratch zero, every line UNCOUNTED and not closed,
no line in an L2 slice, none unreadable, no accumulator in use, and its clock running; its memory is canonical. -/
def Obligations.ResetState : Prop :=
  let s := State.reset
  MemoryCanonical s ∧ s.clocked = true ∧ s.parts = [] ∧ s.images = [] ∧ s.lines = [] ∧ s.closed = [] ∧ s.l2 = [] ∧ s.poison = [] ∧ s.dead = [] ∧
    s.accs = [] ∧
    (∀ i, (s.ctx i).life = .free) ∧ (∀ n, (s.core n).inPart = false ∧ (s.core n).queue = []) ∧
    (∀ c, (s.comm c).state = .off) ∧
    ∀ pa, regionOf pa = .hbm ∨ (∃ n, regionOf pa = .sram n) → s.homeByte pa = 0
end

