-- ==== Sys2Proof/Laws/State.lean ====
section
/-! SUPPORT. What the updates of the state leave as it is: one lemma for each field and update. -/

namespace Sys2Proof.Machine

open Sys2Proof

/-! ## `modCore` -/

@[simp] theorem State.modCore_cur (s : State) (n : Nat) (f : Core → Core) : (s.modCore n f).cur = s.cur := rfl
@[simp] theorem State.modCore_agenda (s : State) (n : Nat) (f : Core → Core) : (s.modCore n f).agenda = s.agenda := rfl
@[simp] theorem State.modCore_mods (s : State) (n : Nat) (f : Core → Core) : (s.modCore n f).mods = s.mods := rfl
@[simp] theorem State.modCore_insn (s : State) (n : Nat) (f : Core → Core) : (s.modCore n f).insn = s.insn := rfl
@[simp] theorem State.modCore_freeIdx (s : State) (n : Nat) (f : Core → Core) : (s.modCore n f).freeIdx = s.freeIdx := rfl
@[simp] theorem State.modCore_clusters (s : State) (n : Nat) (f : Core → Core) : (s.modCore n f).clusters = s.clusters := rfl
@[simp] theorem State.modCore_parts (s : State) (n : Nat) (f : Core → Core) : (s.modCore n f).parts = s.parts := rfl
@[simp] theorem State.modCore_mem (s : State) (n : Nat) (f : Core → Core) : (s.modCore n f).mem = s.mem := rfl
@[simp] theorem State.modCore_lines (s : State) (n : Nat) (f : Core → Core) : (s.modCore n f).lines = s.lines := rfl
@[simp] theorem State.modCore_closed (s : State) (n : Nat) (f : Core → Core) : (s.modCore n f).closed = s.closed := rfl
@[simp] theorem State.modCore_l2 (s : State) (n : Nat) (f : Core → Core) : (s.modCore n f).l2 = s.l2 := rfl
@[simp] theorem State.modCore_dead (s : State) (n : Nat) (f : Core → Core) : (s.modCore n f).dead = s.dead := rfl
@[simp] theorem State.modCore_accs (s : State) (n : Nat) (f : Core → Core) : (s.modCore n f).accs = s.accs := rfl
@[simp] theorem State.modCore_poison (s : State) (n : Nat) (f : Core → Core) : (s.modCore n f).poison = s.poison := rfl
@[simp] theorem State.modCore_heatDue (s : State) (n : Nat) (f : Core → Core) : (s.modCore n f).heatDue = s.heatDue := rfl
@[simp] theorem State.modCore_cycles (s : State) (n : Nat) (f : Core → Core) : (s.modCore n f).cycles = s.cycles := rfl
@[simp] theorem State.modCore_timeBase (s : State) (n : Nat) (f : Core → Core) : (s.modCore n f).timeBase = s.timeBase := rfl
@[simp] theorem State.modCore_health (s : State) (n : Nat) (f : Core → Core) : (s.modCore n f).health = s.health := rfl
@[simp] theorem State.modCore_retired (s : State) (n : Nat) (f : Core → Core) : (s.modCore n f).retired = s.retired := rfl
@[simp] theorem State.modCore_corrected (s : State) (n : Nat) (f : Core → Core) : (s.modCore n f).corrected = s.corrected := rfl
@[simp] theorem State.modCore_powerCycle (s : State) (n : Nat) (f : Core → Core) : (s.modCore n f).powerCycle = s.powerCycle := rfl
@[simp] theorem State.modCore_comms (s : State) (n : Nat) (f : Core → Core) : (s.modCore n f).comms = s.comms := rfl
@[simp] theorem State.modCore_texts (s : State) (n : Nat) (f : Core → Core) : (s.modCore n f).texts = s.texts := rfl
@[simp] theorem State.modCore_migrations (s : State) (n : Nat) (f : Core → Core) : (s.modCore n f).migrations = s.migrations := rfl
@[simp] theorem State.modCore_paired (s : State) (n : Nat) (f : Core → Core) : (s.modCore n f).paired = s.paired := rfl
@[simp] theorem State.modCore_mbCommand (s : State) (n : Nat) (f : Core → Core) : (s.modCore n f).mbCommand = s.mbCommand := rfl
@[simp] theorem State.modCore_mbGo (s : State) (n : Nat) (f : Core → Core) : (s.modCore n f).mbGo = s.mbGo := rfl
@[simp] theorem State.modCore_garfy (s : State) (n : Nat) (f : Core → Core) : (s.modCore n f).garfy = s.garfy := rfl
@[simp] theorem State.modCore_readings (s : State) (n : Nat) (f : Core → Core) : (s.modCore n f).readings = s.readings := rfl
@[simp] theorem State.modCore_images (s : State) (n : Nat) (f : Core → Core) : (s.modCore n f).images = s.images := rfl
@[simp] theorem State.modCore_events (s : State) (n : Nat) (f : Core → Core) : (s.modCore n f).events = s.events := rfl
@[simp] theorem State.modCore_mbResult (s : State) (n : Nat) (f : Core → Core) : (s.modCore n f).mbResult = s.mbResult := rfl
@[simp] theorem State.modCore_mbVector (s : State) (n : Nat) (f : Core → Core) : (s.modCore n f).mbVector = s.mbVector := rfl
@[simp] theorem State.modCore_switchGroup (s : State) (n : Nat) (f : Core → Core) : (s.modCore n f).switchGroup = s.switchGroup := rfl
@[simp] theorem State.modCore_expanders (s : State) (n : Nat) (f : Core → Core) : (s.modCore n f).expanders = s.expanders := rfl
@[simp] theorem State.modCore_hostMem (s : State) (n : Nat) (f : Core → Core) : (s.modCore n f).hostMem = s.hostMem := rfl
@[simp] theorem State.modCore_hostRead (s : State) (n : Nat) (f : Core → Core) : (s.modCore n f).hostRead = s.hostRead := rfl
@[simp] theorem State.modCore_frozen (s : State) (n : Nat) (f : Core → Core) : (s.modCore n f).frozen = s.frozen := rfl
@[simp] theorem State.modCore_powered (s : State) (n : Nat) (f : Core → Core) : (s.modCore n f).powered = s.powered := rfl
@[simp] theorem State.modCore_firmware (s : State) (n : Nat) (f : Core → Core) : (s.modCore n f).firmware = s.firmware := rfl
@[simp] theorem State.modCore_flashImage (s : State) (n : Nat) (f : Core → Core) : (s.modCore n f).flashImage = s.flashImage := rfl

/-! ## `modCluster` -/

@[simp] theorem State.modCluster_cur (s : State) (n : Nat) (f : Cluster → Cluster) : (s.modCluster n f).cur = s.cur := rfl
@[simp] theorem State.modCluster_agenda (s : State) (n : Nat) (f : Cluster → Cluster) : (s.modCluster n f).agenda = s.agenda := rfl
@[simp] theorem State.modCluster_mods (s : State) (n : Nat) (f : Cluster → Cluster) : (s.modCluster n f).mods = s.mods := rfl
@[simp] theorem State.modCluster_insn (s : State) (n : Nat) (f : Cluster → Cluster) : (s.modCluster n f).insn = s.insn := rfl
@[simp] theorem State.modCluster_freeIdx (s : State) (n : Nat) (f : Cluster → Cluster) : (s.modCluster n f).freeIdx = s.freeIdx := rfl
@[simp] theorem State.modCluster_cores (s : State) (n : Nat) (f : Cluster → Cluster) : (s.modCluster n f).cores = s.cores := rfl
@[simp] theorem State.modCluster_parts (s : State) (n : Nat) (f : Cluster → Cluster) : (s.modCluster n f).parts = s.parts := rfl
@[simp] theorem State.modCluster_mem (s : State) (n : Nat) (f : Cluster → Cluster) : (s.modCluster n f).mem = s.mem := rfl
@[simp] theorem State.modCluster_lines (s : State) (n : Nat) (f : Cluster → Cluster) : (s.modCluster n f).lines = s.lines := rfl
@[simp] theorem State.modCluster_closed (s : State) (n : Nat) (f : Cluster → Cluster) : (s.modCluster n f).closed = s.closed := rfl
@[simp] theorem State.modCluster_l2 (s : State) (n : Nat) (f : Cluster → Cluster) : (s.modCluster n f).l2 = s.l2 := rfl
@[simp] theorem State.modCluster_dead (s : State) (n : Nat) (f : Cluster → Cluster) : (s.modCluster n f).dead = s.dead := rfl
@[simp] theorem State.modCluster_accs (s : State) (n : Nat) (f : Cluster → Cluster) : (s.modCluster n f).accs = s.accs := rfl
@[simp] theorem State.modCluster_poison (s : State) (n : Nat) (f : Cluster → Cluster) : (s.modCluster n f).poison = s.poison := rfl
@[simp] theorem State.modCluster_heatDue (s : State) (n : Nat) (f : Cluster → Cluster) : (s.modCluster n f).heatDue = s.heatDue := rfl
@[simp] theorem State.modCluster_cycles (s : State) (n : Nat) (f : Cluster → Cluster) : (s.modCluster n f).cycles = s.cycles := rfl
@[simp] theorem State.modCluster_timeBase (s : State) (n : Nat) (f : Cluster → Cluster) : (s.modCluster n f).timeBase = s.timeBase := rfl
@[simp] theorem State.modCluster_health (s : State) (n : Nat) (f : Cluster → Cluster) : (s.modCluster n f).health = s.health := rfl
@[simp] theorem State.modCluster_retired (s : State) (n : Nat) (f : Cluster → Cluster) : (s.modCluster n f).retired = s.retired := rfl
@[simp] theorem State.modCluster_corrected (s : State) (n : Nat) (f : Cluster → Cluster) : (s.modCluster n f).corrected = s.corrected := rfl
@[simp] theorem State.modCluster_powerCycle (s : State) (n : Nat) (f : Cluster → Cluster) : (s.modCluster n f).powerCycle = s.powerCycle := rfl
@[simp] theorem State.modCluster_comms (s : State) (n : Nat) (f : Cluster → Cluster) : (s.modCluster n f).comms = s.comms := rfl
@[simp] theorem State.modCluster_texts (s : State) (n : Nat) (f : Cluster → Cluster) : (s.modCluster n f).texts = s.texts := rfl
@[simp] theorem State.modCluster_migrations (s : State) (n : Nat) (f : Cluster → Cluster) : (s.modCluster n f).migrations = s.migrations := rfl
@[simp] theorem State.modCluster_paired (s : State) (n : Nat) (f : Cluster → Cluster) : (s.modCluster n f).paired = s.paired := rfl
@[simp] theorem State.modCluster_mbCommand (s : State) (n : Nat) (f : Cluster → Cluster) : (s.modCluster n f).mbCommand = s.mbCommand := rfl
@[simp] theorem State.modCluster_mbGo (s : State) (n : Nat) (f : Cluster → Cluster) : (s.modCluster n f).mbGo = s.mbGo := rfl
@[simp] theorem State.modCluster_garfy (s : State) (n : Nat) (f : Cluster → Cluster) : (s.modCluster n f).garfy = s.garfy := rfl
@[simp] theorem State.modCluster_readings (s : State) (n : Nat) (f : Cluster → Cluster) : (s.modCluster n f).readings = s.readings := rfl
@[simp] theorem State.modCluster_images (s : State) (n : Nat) (f : Cluster → Cluster) : (s.modCluster n f).images = s.images := rfl
@[simp] theorem State.modCluster_events (s : State) (n : Nat) (f : Cluster → Cluster) : (s.modCluster n f).events = s.events := rfl
@[simp] theorem State.modCluster_mbResult (s : State) (n : Nat) (f : Cluster → Cluster) : (s.modCluster n f).mbResult = s.mbResult := rfl
@[simp] theorem State.modCluster_mbVector (s : State) (n : Nat) (f : Cluster → Cluster) : (s.modCluster n f).mbVector = s.mbVector := rfl
@[simp] theorem State.modCluster_switchGroup (s : State) (n : Nat) (f : Cluster → Cluster) : (s.modCluster n f).switchGroup = s.switchGroup := rfl
@[simp] theorem State.modCluster_expanders (s : State) (n : Nat) (f : Cluster → Cluster) : (s.modCluster n f).expanders = s.expanders := rfl
@[simp] theorem State.modCluster_hostMem (s : State) (n : Nat) (f : Cluster → Cluster) : (s.modCluster n f).hostMem = s.hostMem := rfl
@[simp] theorem State.modCluster_hostRead (s : State) (n : Nat) (f : Cluster → Cluster) : (s.modCluster n f).hostRead = s.hostRead := rfl
@[simp] theorem State.modCluster_frozen (s : State) (n : Nat) (f : Cluster → Cluster) : (s.modCluster n f).frozen = s.frozen := rfl
@[simp] theorem State.modCluster_powered (s : State) (n : Nat) (f : Cluster → Cluster) : (s.modCluster n f).powered = s.powered := rfl
@[simp] theorem State.modCluster_firmware (s : State) (n : Nat) (f : Cluster → Cluster) : (s.modCluster n f).firmware = s.firmware := rfl
@[simp] theorem State.modCluster_flashImage (s : State) (n : Nat) (f : Cluster → Cluster) : (s.modCluster n f).flashImage = s.flashImage := rfl

/-! ## `modPart` -/

@[simp] theorem State.modPart_cur (s : State) (n : Nat) (f : Partition → Partition) : (s.modPart n f).cur = s.cur := rfl
@[simp] theorem State.modPart_agenda (s : State) (n : Nat) (f : Partition → Partition) : (s.modPart n f).agenda = s.agenda := rfl
@[simp] theorem State.modPart_mods (s : State) (n : Nat) (f : Partition → Partition) : (s.modPart n f).mods = s.mods := rfl
@[simp] theorem State.modPart_insn (s : State) (n : Nat) (f : Partition → Partition) : (s.modPart n f).insn = s.insn := rfl
@[simp] theorem State.modPart_freeIdx (s : State) (n : Nat) (f : Partition → Partition) : (s.modPart n f).freeIdx = s.freeIdx := rfl
@[simp] theorem State.modPart_cores (s : State) (n : Nat) (f : Partition → Partition) : (s.modPart n f).cores = s.cores := rfl
@[simp] theorem State.modPart_clusters (s : State) (n : Nat) (f : Partition → Partition) : (s.modPart n f).clusters = s.clusters := rfl
@[simp] theorem State.modPart_mem (s : State) (n : Nat) (f : Partition → Partition) : (s.modPart n f).mem = s.mem := rfl
@[simp] theorem State.modPart_lines (s : State) (n : Nat) (f : Partition → Partition) : (s.modPart n f).lines = s.lines := rfl
@[simp] theorem State.modPart_closed (s : State) (n : Nat) (f : Partition → Partition) : (s.modPart n f).closed = s.closed := rfl
@[simp] theorem State.modPart_l2 (s : State) (n : Nat) (f : Partition → Partition) : (s.modPart n f).l2 = s.l2 := rfl
@[simp] theorem State.modPart_dead (s : State) (n : Nat) (f : Partition → Partition) : (s.modPart n f).dead = s.dead := rfl
@[simp] theorem State.modPart_accs (s : State) (n : Nat) (f : Partition → Partition) : (s.modPart n f).accs = s.accs := rfl
@[simp] theorem State.modPart_poison (s : State) (n : Nat) (f : Partition → Partition) : (s.modPart n f).poison = s.poison := rfl
@[simp] theorem State.modPart_heatDue (s : State) (n : Nat) (f : Partition → Partition) : (s.modPart n f).heatDue = s.heatDue := rfl
@[simp] theorem State.modPart_cycles (s : State) (n : Nat) (f : Partition → Partition) : (s.modPart n f).cycles = s.cycles := rfl
@[simp] theorem State.modPart_timeBase (s : State) (n : Nat) (f : Partition → Partition) : (s.modPart n f).timeBase = s.timeBase := rfl
@[simp] theorem State.modPart_health (s : State) (n : Nat) (f : Partition → Partition) : (s.modPart n f).health = s.health := rfl
@[simp] theorem State.modPart_retired (s : State) (n : Nat) (f : Partition → Partition) : (s.modPart n f).retired = s.retired := rfl
@[simp] theorem State.modPart_corrected (s : State) (n : Nat) (f : Partition → Partition) : (s.modPart n f).corrected = s.corrected := rfl
@[simp] theorem State.modPart_powerCycle (s : State) (n : Nat) (f : Partition → Partition) : (s.modPart n f).powerCycle = s.powerCycle := rfl
@[simp] theorem State.modPart_comms (s : State) (n : Nat) (f : Partition → Partition) : (s.modPart n f).comms = s.comms := rfl
@[simp] theorem State.modPart_texts (s : State) (n : Nat) (f : Partition → Partition) : (s.modPart n f).texts = s.texts := rfl
@[simp] theorem State.modPart_migrations (s : State) (n : Nat) (f : Partition → Partition) : (s.modPart n f).migrations = s.migrations := rfl
@[simp] theorem State.modPart_paired (s : State) (n : Nat) (f : Partition → Partition) : (s.modPart n f).paired = s.paired := rfl
@[simp] theorem State.modPart_mbCommand (s : State) (n : Nat) (f : Partition → Partition) : (s.modPart n f).mbCommand = s.mbCommand := rfl
@[simp] theorem State.modPart_mbGo (s : State) (n : Nat) (f : Partition → Partition) : (s.modPart n f).mbGo = s.mbGo := rfl
@[simp] theorem State.modPart_garfy (s : State) (n : Nat) (f : Partition → Partition) : (s.modPart n f).garfy = s.garfy := rfl
@[simp] theorem State.modPart_readings (s : State) (n : Nat) (f : Partition → Partition) : (s.modPart n f).readings = s.readings := rfl
@[simp] theorem State.modPart_images (s : State) (n : Nat) (f : Partition → Partition) : (s.modPart n f).images = s.images := rfl
@[simp] theorem State.modPart_events (s : State) (n : Nat) (f : Partition → Partition) : (s.modPart n f).events = s.events := rfl
@[simp] theorem State.modPart_mbResult (s : State) (n : Nat) (f : Partition → Partition) : (s.modPart n f).mbResult = s.mbResult := rfl
@[simp] theorem State.modPart_mbVector (s : State) (n : Nat) (f : Partition → Partition) : (s.modPart n f).mbVector = s.mbVector := rfl
@[simp] theorem State.modPart_switchGroup (s : State) (n : Nat) (f : Partition → Partition) : (s.modPart n f).switchGroup = s.switchGroup := rfl
@[simp] theorem State.modPart_expanders (s : State) (n : Nat) (f : Partition → Partition) : (s.modPart n f).expanders = s.expanders := rfl
@[simp] theorem State.modPart_hostMem (s : State) (n : Nat) (f : Partition → Partition) : (s.modPart n f).hostMem = s.hostMem := rfl
@[simp] theorem State.modPart_hostRead (s : State) (n : Nat) (f : Partition → Partition) : (s.modPart n f).hostRead = s.hostRead := rfl
@[simp] theorem State.modPart_frozen (s : State) (n : Nat) (f : Partition → Partition) : (s.modPart n f).frozen = s.frozen := rfl
@[simp] theorem State.modPart_powered (s : State) (n : Nat) (f : Partition → Partition) : (s.modPart n f).powered = s.powered := rfl
@[simp] theorem State.modPart_firmware (s : State) (n : Nat) (f : Partition → Partition) : (s.modPart n f).firmware = s.firmware := rfl
@[simp] theorem State.modPart_flashImage (s : State) (n : Nat) (f : Partition → Partition) : (s.modPart n f).flashImage = s.flashImage := rfl

/-! ## `modCtx` -/

@[simp] theorem State.modCtx_cur (s : State) (n : CtxId) (f : Ctx → Ctx) : (s.modCtx n f).cur = s.cur := rfl
@[simp] theorem State.modCtx_agenda (s : State) (n : CtxId) (f : Ctx → Ctx) : (s.modCtx n f).agenda = s.agenda := rfl
@[simp] theorem State.modCtx_mods (s : State) (n : CtxId) (f : Ctx → Ctx) : (s.modCtx n f).mods = s.mods := rfl
@[simp] theorem State.modCtx_insn (s : State) (n : CtxId) (f : Ctx → Ctx) : (s.modCtx n f).insn = s.insn := rfl
@[simp] theorem State.modCtx_freeIdx (s : State) (n : CtxId) (f : Ctx → Ctx) : (s.modCtx n f).freeIdx = s.freeIdx := rfl
@[simp] theorem State.modCtx_clusters (s : State) (n : CtxId) (f : Ctx → Ctx) : (s.modCtx n f).clusters = s.clusters := rfl
@[simp] theorem State.modCtx_parts (s : State) (n : CtxId) (f : Ctx → Ctx) : (s.modCtx n f).parts = s.parts := rfl
@[simp] theorem State.modCtx_mem (s : State) (n : CtxId) (f : Ctx → Ctx) : (s.modCtx n f).mem = s.mem := rfl
@[simp] theorem State.modCtx_lines (s : State) (n : CtxId) (f : Ctx → Ctx) : (s.modCtx n f).lines = s.lines := rfl
@[simp] theorem State.modCtx_closed (s : State) (n : CtxId) (f : Ctx → Ctx) : (s.modCtx n f).closed = s.closed := rfl
@[simp] theorem State.modCtx_l2 (s : State) (n : CtxId) (f : Ctx → Ctx) : (s.modCtx n f).l2 = s.l2 := rfl
@[simp] theorem State.modCtx_dead (s : State) (n : CtxId) (f : Ctx → Ctx) : (s.modCtx n f).dead = s.dead := rfl
@[simp] theorem State.modCtx_accs (s : State) (n : CtxId) (f : Ctx → Ctx) : (s.modCtx n f).accs = s.accs := rfl
@[simp] theorem State.modCtx_poison (s : State) (n : CtxId) (f : Ctx → Ctx) : (s.modCtx n f).poison = s.poison := rfl
@[simp] theorem State.modCtx_heatDue (s : State) (n : CtxId) (f : Ctx → Ctx) : (s.modCtx n f).heatDue = s.heatDue := rfl
@[simp] theorem State.modCtx_cycles (s : State) (n : CtxId) (f : Ctx → Ctx) : (s.modCtx n f).cycles = s.cycles := rfl
@[simp] theorem State.modCtx_timeBase (s : State) (n : CtxId) (f : Ctx → Ctx) : (s.modCtx n f).timeBase = s.timeBase := rfl
@[simp] theorem State.modCtx_health (s : State) (n : CtxId) (f : Ctx → Ctx) : (s.modCtx n f).health = s.health := rfl
@[simp] theorem State.modCtx_retired (s : State) (n : CtxId) (f : Ctx → Ctx) : (s.modCtx n f).retired = s.retired := rfl
@[simp] theorem State.modCtx_corrected (s : State) (n : CtxId) (f : Ctx → Ctx) : (s.modCtx n f).corrected = s.corrected := rfl
@[simp] theorem State.modCtx_powerCycle (s : State) (n : CtxId) (f : Ctx → Ctx) : (s.modCtx n f).powerCycle = s.powerCycle := rfl
@[simp] theorem State.modCtx_comms (s : State) (n : CtxId) (f : Ctx → Ctx) : (s.modCtx n f).comms = s.comms := rfl
@[simp] theorem State.modCtx_texts (s : State) (n : CtxId) (f : Ctx → Ctx) : (s.modCtx n f).texts = s.texts := rfl
@[simp] theorem State.modCtx_migrations (s : State) (n : CtxId) (f : Ctx → Ctx) : (s.modCtx n f).migrations = s.migrations := rfl
@[simp] theorem State.modCtx_paired (s : State) (n : CtxId) (f : Ctx → Ctx) : (s.modCtx n f).paired = s.paired := rfl
@[simp] theorem State.modCtx_mbCommand (s : State) (n : CtxId) (f : Ctx → Ctx) : (s.modCtx n f).mbCommand = s.mbCommand := rfl
@[simp] theorem State.modCtx_mbGo (s : State) (n : CtxId) (f : Ctx → Ctx) : (s.modCtx n f).mbGo = s.mbGo := rfl
@[simp] theorem State.modCtx_garfy (s : State) (n : CtxId) (f : Ctx → Ctx) : (s.modCtx n f).garfy = s.garfy := rfl
@[simp] theorem State.modCtx_readings (s : State) (n : CtxId) (f : Ctx → Ctx) : (s.modCtx n f).readings = s.readings := rfl
@[simp] theorem State.modCtx_images (s : State) (n : CtxId) (f : Ctx → Ctx) : (s.modCtx n f).images = s.images := rfl
@[simp] theorem State.modCtx_events (s : State) (n : CtxId) (f : Ctx → Ctx) : (s.modCtx n f).events = s.events := rfl
@[simp] theorem State.modCtx_mbResult (s : State) (n : CtxId) (f : Ctx → Ctx) : (s.modCtx n f).mbResult = s.mbResult := rfl
@[simp] theorem State.modCtx_mbVector (s : State) (n : CtxId) (f : Ctx → Ctx) : (s.modCtx n f).mbVector = s.mbVector := rfl
@[simp] theorem State.modCtx_switchGroup (s : State) (n : CtxId) (f : Ctx → Ctx) : (s.modCtx n f).switchGroup = s.switchGroup := rfl
@[simp] theorem State.modCtx_expanders (s : State) (n : CtxId) (f : Ctx → Ctx) : (s.modCtx n f).expanders = s.expanders := rfl
@[simp] theorem State.modCtx_hostMem (s : State) (n : CtxId) (f : Ctx → Ctx) : (s.modCtx n f).hostMem = s.hostMem := rfl
@[simp] theorem State.modCtx_hostRead (s : State) (n : CtxId) (f : Ctx → Ctx) : (s.modCtx n f).hostRead = s.hostRead := rfl
@[simp] theorem State.modCtx_frozen (s : State) (n : CtxId) (f : Ctx → Ctx) : (s.modCtx n f).frozen = s.frozen := rfl
@[simp] theorem State.modCtx_powered (s : State) (n : CtxId) (f : Ctx → Ctx) : (s.modCtx n f).powered = s.powered := rfl
@[simp] theorem State.modCtx_firmware (s : State) (n : CtxId) (f : Ctx → Ctx) : (s.modCtx n f).firmware = s.firmware := rfl
@[simp] theorem State.modCtx_flashImage (s : State) (n : CtxId) (f : Ctx → Ctx) : (s.modCtx n f).flashImage = s.flashImage := rfl

/-! ## `modMe` -/

@[simp] theorem State.modMe_cur (s : State) (f : Ctx → Ctx) : (s.modMe f).cur = s.cur := rfl
@[simp] theorem State.modMe_agenda (s : State) (f : Ctx → Ctx) : (s.modMe f).agenda = s.agenda := rfl
@[simp] theorem State.modMe_mods (s : State) (f : Ctx → Ctx) : (s.modMe f).mods = s.mods := rfl
@[simp] theorem State.modMe_insn (s : State) (f : Ctx → Ctx) : (s.modMe f).insn = s.insn := rfl
@[simp] theorem State.modMe_freeIdx (s : State) (f : Ctx → Ctx) : (s.modMe f).freeIdx = s.freeIdx := rfl
@[simp] theorem State.modMe_clusters (s : State) (f : Ctx → Ctx) : (s.modMe f).clusters = s.clusters := rfl
@[simp] theorem State.modMe_parts (s : State) (f : Ctx → Ctx) : (s.modMe f).parts = s.parts := rfl
@[simp] theorem State.modMe_mem (s : State) (f : Ctx → Ctx) : (s.modMe f).mem = s.mem := rfl
@[simp] theorem State.modMe_lines (s : State) (f : Ctx → Ctx) : (s.modMe f).lines = s.lines := rfl
@[simp] theorem State.modMe_closed (s : State) (f : Ctx → Ctx) : (s.modMe f).closed = s.closed := rfl
@[simp] theorem State.modMe_l2 (s : State) (f : Ctx → Ctx) : (s.modMe f).l2 = s.l2 := rfl
@[simp] theorem State.modMe_dead (s : State) (f : Ctx → Ctx) : (s.modMe f).dead = s.dead := rfl
@[simp] theorem State.modMe_accs (s : State) (f : Ctx → Ctx) : (s.modMe f).accs = s.accs := rfl
@[simp] theorem State.modMe_poison (s : State) (f : Ctx → Ctx) : (s.modMe f).poison = s.poison := rfl
@[simp] theorem State.modMe_heatDue (s : State) (f : Ctx → Ctx) : (s.modMe f).heatDue = s.heatDue := rfl
@[simp] theorem State.modMe_cycles (s : State) (f : Ctx → Ctx) : (s.modMe f).cycles = s.cycles := rfl
@[simp] theorem State.modMe_timeBase (s : State) (f : Ctx → Ctx) : (s.modMe f).timeBase = s.timeBase := rfl
@[simp] theorem State.modMe_health (s : State) (f : Ctx → Ctx) : (s.modMe f).health = s.health := rfl
@[simp] theorem State.modMe_retired (s : State) (f : Ctx → Ctx) : (s.modMe f).retired = s.retired := rfl
@[simp] theorem State.modMe_corrected (s : State) (f : Ctx → Ctx) : (s.modMe f).corrected = s.corrected := rfl
@[simp] theorem State.modMe_powerCycle (s : State) (f : Ctx → Ctx) : (s.modMe f).powerCycle = s.powerCycle := rfl
@[simp] theorem State.modMe_comms (s : State) (f : Ctx → Ctx) : (s.modMe f).comms = s.comms := rfl
@[simp] theorem State.modMe_texts (s : State) (f : Ctx → Ctx) : (s.modMe f).texts = s.texts := rfl
@[simp] theorem State.modMe_migrations (s : State) (f : Ctx → Ctx) : (s.modMe f).migrations = s.migrations := rfl
@[simp] theorem State.modMe_paired (s : State) (f : Ctx → Ctx) : (s.modMe f).paired = s.paired := rfl
@[simp] theorem State.modMe_mbCommand (s : State) (f : Ctx → Ctx) : (s.modMe f).mbCommand = s.mbCommand := rfl
@[simp] theorem State.modMe_mbGo (s : State) (f : Ctx → Ctx) : (s.modMe f).mbGo = s.mbGo := rfl
@[simp] theorem State.modMe_garfy (s : State) (f : Ctx → Ctx) : (s.modMe f).garfy = s.garfy := rfl
@[simp] theorem State.modMe_readings (s : State) (f : Ctx → Ctx) : (s.modMe f).readings = s.readings := rfl
@[simp] theorem State.modMe_images (s : State) (f : Ctx → Ctx) : (s.modMe f).images = s.images := rfl
@[simp] theorem State.modMe_events (s : State) (f : Ctx → Ctx) : (s.modMe f).events = s.events := rfl
@[simp] theorem State.modMe_mbResult (s : State) (f : Ctx → Ctx) : (s.modMe f).mbResult = s.mbResult := rfl
@[simp] theorem State.modMe_mbVector (s : State) (f : Ctx → Ctx) : (s.modMe f).mbVector = s.mbVector := rfl
@[simp] theorem State.modMe_switchGroup (s : State) (f : Ctx → Ctx) : (s.modMe f).switchGroup = s.switchGroup := rfl
@[simp] theorem State.modMe_expanders (s : State) (f : Ctx → Ctx) : (s.modMe f).expanders = s.expanders := rfl
@[simp] theorem State.modMe_hostMem (s : State) (f : Ctx → Ctx) : (s.modMe f).hostMem = s.hostMem := rfl
@[simp] theorem State.modMe_hostRead (s : State) (f : Ctx → Ctx) : (s.modMe f).hostRead = s.hostRead := rfl
@[simp] theorem State.modMe_frozen (s : State) (f : Ctx → Ctx) : (s.modMe f).frozen = s.frozen := rfl
@[simp] theorem State.modMe_powered (s : State) (f : Ctx → Ctx) : (s.modMe f).powered = s.powered := rfl
@[simp] theorem State.modMe_firmware (s : State) (f : Ctx → Ctx) : (s.modMe f).firmware = s.firmware := rfl
@[simp] theorem State.modMe_flashImage (s : State) (f : Ctx → Ctx) : (s.modMe f).flashImage = s.flashImage := rfl

end Sys2Proof.Machine
end

