-- ==== Sys2Proof/Laws/Tables.lean ====
section
/-! SUPPORT. Reading after writing in the sparse tables that the state is built from. -/

namespace Sys2Proof

variable {α : Type}

@[simp] theorem smGet_nil (k : Nat) (d : α) : smGet [] k d = d := rfl

@[simp] theorem smGet_smSet_same (m : SMap α) (k : Nat) (v d : α) : smGet (smSet m k v) k d = v := by
  induction m with
  | nil => simp [smSet, smGet]
  | cons e rest ih =>
    obtain ⟨j, w⟩ := e
    by_cases h : j = k
    · simp [smSet, smGet, h]
    · by_cases h' : k < j
      · simp [smSet, smGet, h, h']
      · simp [smSet, smGet, h, h', ih]

theorem smGet_smSet_other (m : SMap α) {k n : Nat} (h : n ≠ k) (v d : α) : smGet (smSet m k v) n d = smGet m n d := by
  induction m with
  | nil => simp [smSet, smGet, Ne.symm h]
  | cons e rest ih =>
    obtain ⟨j, w⟩ := e
    by_cases hj : j = k
    · subst hj; simp [smSet, smGet, Ne.symm h]
    · by_cases h' : k < j
      · simp [smSet, smGet, hj, h', Ne.symm h]
      · simp [smSet, smGet, hj, h', ih]

theorem smGet_smSet (m : SMap α) (k n : Nat) (v d : α) :
    smGet (smSet m k v) n d = if n = k then v else smGet m n d := by
  by_cases h : n = k
  · simp [h]
  · simp [h, smGet_smSet_other m h]

@[simp] theorem smSet_smSet (m : SMap α) (k : Nat) (v w : α) : smSet (smSet m k v) k w = smSet m k w := by
  induction m with
  | nil => simp [smSet]
  | cons e rest ih =>
    obtain ⟨j, u⟩ := e
    by_cases h : j = k
    · simp [smSet, h]
    · by_cases h' : k < j
      · simp [smSet, h, h']
      · simp [smSet, h, h', ih]

/-- The keys of a table after a write. -/
theorem smHas_smSet (m : SMap α) (k n : Nat) (v : α) : smHas (smSet m k v) n = (k == n || smHas m n) := by
  induction m with
  | nil => simp [smSet, smHas]
  | cons e rest ih =>
    obtain ⟨j, u⟩ := e
    by_cases h : j = k
    · subst h; cases hj : j == n <;> simp [smSet, smHas, hj]
    · by_cases h' : k < j
      · simp [smSet, smHas, h, h']
      · simp only [smHas] at ih
        simp only [smSet, h, h', smHas, List.any_cons, ↓reduceIte, ih]
        cases (j == n) <;> cases (k == n) <;> simp

end Sys2Proof
end

