-- ==== Sys2Proof/Laws/Access.lean ====
section
/-! SUPPORT. Reading the state after its updates: cores, contexts, clusters, partitions and registers. -/

namespace Sys2Proof.Machine

open Sys2Proof

/-! ## Cores, clusters and partitions -/

theorem State.core_modCore (s : State) (n m : Nat) (f : Core → Core) :
    (s.modCore n f).core m = if m = n then f (s.core n) else s.core m := smGet_smSet _ _ _ _ _

@[simp] theorem State.core_modCore_same (s : State) (n : Nat) (f : Core → Core) :
    (s.modCore n f).core n = f (s.core n) := smGet_smSet_same _ _ _ _

@[simp] theorem State.modCore_modCore (s : State) (n : Nat) (f g : Core → Core) :
    (s.modCore n f).modCore n g = s.modCore n (g ∘ f) := by
  simp [State.modCore, State.core]

theorem State.cluster_modCluster (s : State) (n m : Nat) (f : Cluster → Cluster) :
    (s.modCluster n f).cluster m = if m = n then f (s.cluster n) else s.cluster m := smGet_smSet _ _ _ _ _

@[simp] theorem State.cluster_modCluster_same (s : State) (n : Nat) (f : Cluster → Cluster) :
    (s.modCluster n f).cluster n = f (s.cluster n) := smGet_smSet_same _ _ _ _

theorem State.part_modPart (s : State) (n m : Nat) (f : Partition → Partition) :
    (s.modPart n f).part m = if m = n then f (s.part n) else s.part m := smGet_smSet _ _ _ _ _

@[simp] theorem State.part_modPart_same (s : State) (n : Nat) (f : Partition → Partition) :
    (s.modPart n f).part n = f (s.part n) := smGet_smSet_same _ _ _ _

@[simp] theorem State.cluster_modCore (s : State) (n m : Nat) (f : Core → Core) : (s.modCore n f).cluster m = s.cluster m := rfl
@[simp] theorem State.part_modCore (s : State) (n m : Nat) (f : Core → Core) : (s.modCore n f).part m = s.part m := rfl
@[simp] theorem State.core_modCluster (s : State) (n m : Nat) (f : Cluster → Cluster) : (s.modCluster n f).core m = s.core m := rfl
@[simp] theorem State.part_modCluster (s : State) (n m : Nat) (f : Cluster → Cluster) : (s.modCluster n f).part m = s.part m := rfl
@[simp] theorem State.core_modPart (s : State) (n m : Nat) (f : Partition → Partition) : (s.modPart n f).core m = s.core m := rfl
@[simp] theorem State.cluster_modPart (s : State) (n m : Nat) (f : Partition → Partition) : (s.modPart n f).cluster m = s.cluster m := rfl
@[simp] theorem State.ctx_modCluster (s : State) (n : Nat) (i : CtxId) (f : Cluster → Cluster) : (s.modCluster n f).ctx i = s.ctx i := rfl
@[simp] theorem State.ctx_modPart (s : State) (n : Nat) (i : CtxId) (f : Partition → Partition) : (s.modPart n f).ctx i = s.ctx i := rfl
@[simp] theorem State.me_modCluster (s : State) (n : Nat) (f : Cluster → Cluster) : (s.modCluster n f).me = s.me := rfl
@[simp] theorem State.me_modPart (s : State) (n : Nat) (f : Partition → Partition) : (s.modPart n f).me = s.me := rfl
@[simp] theorem State.cluster_modCtx (s : State) (m : Nat) (i : CtxId) (f : Ctx → Ctx) : (s.modCtx i f).cluster m = s.cluster m := rfl
@[simp] theorem State.part_modCtx (s : State) (m : Nat) (i : CtxId) (f : Ctx → Ctx) : (s.modCtx i f).part m = s.part m := rfl
@[simp] theorem State.cluster_modMe (s : State) (m : Nat) (f : Ctx → Ctx) : (s.modMe f).cluster m = s.cluster m := rfl
@[simp] theorem State.part_modMe (s : State) (m : Nat) (f : Ctx → Ctx) : (s.modMe f).part m = s.part m := rfl
@[simp] theorem State.homeByte_modCore (s : State) (n : Nat) (f : Core → Core) (a : Nat) : (s.modCore n f).homeByte a = s.homeByte a := rfl
@[simp] theorem State.homeByte_modCluster (s : State) (n : Nat) (f : Cluster → Cluster) (a : Nat) :
    (s.modCluster n f).homeByte a = s.homeByte a := rfl
@[simp] theorem State.homeByte_modPart (s : State) (n : Nat) (f : Partition → Partition) (a : Nat) :
    (s.modPart n f).homeByte a = s.homeByte a := rfl
@[simp] theorem State.homeByte_modCtx (s : State) (i : CtxId) (f : Ctx → Ctx) (a : Nat) : (s.modCtx i f).homeByte a = s.homeByte a := rfl
@[simp] theorem State.homeByte_modMe (s : State) (f : Ctx → Ctx) (a : Nat) : (s.modMe f).homeByte a = s.homeByte a := rfl

/-! ## Contexts -/

@[simp] theorem State.ctx_modCtx_same (s : State) (i : CtxId) (f : Ctx → Ctx) : (s.modCtx i f).ctx i = f (s.ctx i) := by
  simp [State.modCtx, State.ctx, Core.ctx]

theorem State.ctx_modCtx (s : State) (i j : CtxId) (f : Ctx → Ctx) :
    (s.modCtx i f).ctx j = if j = i then f (s.ctx i) else s.ctx j := by
  by_cases h : j = i
  · subst h; simp
  · rw [if_neg h]
    simp only [State.modCtx, State.ctx, State.core_modCore]
    by_cases hc : j.core = i.core
    · have hk : j.ctx ≠ i.ctx := fun e => h (by cases i; cases j; simp_all)
      simp [hc, Core.ctx, smGet_smSet_other _ hk]
    · simp [hc]

@[simp] theorem State.modCtx_modCtx (s : State) (i : CtxId) (f g : Ctx → Ctx) :
    (s.modCtx i f).modCtx i g = s.modCtx i (g ∘ f) := by
  simp only [State.modCtx, State.modCore_modCore]
  congr 1
  funext c
  simp [Core.ctx]

@[simp] theorem State.me_modMe (s : State) (f : Ctx → Ctx) : (s.modMe f).me = f s.me := State.ctx_modCtx_same _ _ _

@[simp] theorem State.modMe_modMe (s : State) (f g : Ctx → Ctx) : (s.modMe f).modMe g = s.modMe (g ∘ f) :=
  State.modCtx_modCtx _ _ _ _

/-- A change of the executing context depends on the function at that context only. -/
theorem State.modMe_congr (s : State) (f g : Ctx → Ctx) (h : f s.me = g s.me) : s.modMe f = s.modMe g := by
  simp only [State.modMe, State.modCtx, State.modCore]
  have e : f ((s.core s.cur.core).ctx s.cur.ctx) = g ((s.core s.cur.core).ctx s.cur.ctx) := h
  rw [e]

/-- A core's field that is not its table of contexts. -/
theorem State.core_modMe (s : State) (f : Ctx → Ctx) (n : Nat) :
    (s.modMe f).core n = if n = s.cur.core then
      { s.core n with ctxs := smSet (s.core n).ctxs s.cur.ctx (f s.me) } else s.core n := by
  simp only [State.modMe, State.modCtx, State.core_modCore]
  by_cases h : n = s.cur.core
  · subst h; rfl
  · simp [h]

@[simp] theorem State.ctx_modMe_other (s : State) (f : Ctx → Ctx) {i : CtxId} (h : i ≠ s.cur) : (s.modMe f).ctx i = s.ctx i := by
  simp [State.modMe, State.ctx_modCtx, h]

/-! ## Slice groups -/

@[simp] theorem State.ctx_modGroup (s : State) (i j : CtxId) (f : SliceGroup → SliceGroup) : (s.modGroup i f).ctx j = s.ctx j := by
  unfold State.modGroup
  split
  · rfl
  · simp only [State.ctx, State.core_modCore]; split
    · rename_i h; rw [h]; rfl
    · rfl

@[simp] theorem State.modGroup_cur (s : State) (i : CtxId) (f : SliceGroup → SliceGroup) : (s.modGroup i f).cur = s.cur := by
  unfold State.modGroup; split <;> rfl
@[simp] theorem State.modGroup_mods (s : State) (i : CtxId) (f : SliceGroup → SliceGroup) : (s.modGroup i f).mods = s.mods := by
  unfold State.modGroup; split <;> rfl
@[simp] theorem State.modGroup_mem (s : State) (i : CtxId) (f : SliceGroup → SliceGroup) : (s.modGroup i f).mem = s.mem := by
  unfold State.modGroup; split <;> rfl
@[simp] theorem State.me_modGroup (s : State) (i : CtxId) (f : SliceGroup → SliceGroup) : (s.modGroup i f).me = s.me := by
  simp [State.me]
@[simp] theorem State.homeByte_modGroup (s : State) (i : CtxId) (f : SliceGroup → SliceGroup) (a : Nat) :
    (s.modGroup i f).homeByte a = s.homeByte a := by
  unfold State.modGroup; split <;> rfl

theorem find?_map_entry {α : Type} (l : List (Nat × α)) (g : Nat) (f : α → α) :
    (l.map fun e => if e.1 = g then (e.1, f e.2) else e).find? (fun e => e.1 == g)
      = (l.find? fun e => e.1 == g).map fun e => (e.1, f e.2) := by
  induction l with
  | nil => rfl
  | cons e l ih =>
    by_cases h : e.1 = g
    · simp [h]
    · rw [List.map_cons, if_neg h, List.find?_cons_of_neg (by simp [h]), List.find?_cons_of_neg (by simp [h]), ih]

theorem State.groupOf_modGroup (s : State) (i : CtxId) (f : SliceGroup → SliceGroup) :
    (s.modGroup i f).groupOf i = (s.groupOf i).map f := by
  unfold State.groupOf
  rw [State.ctx_modGroup]
  unfold State.modGroup
  rcases hg : (s.ctx i).group with _ | g
  · rfl
  · simp only [State.core_modCore_same, Option.bind_some, find?_map_entry, Option.map_map]; rfl

theorem State.groupOf_modMe (s : State) (f : Ctx → Ctx) (h : (f s.me).group = s.me.group) :
    (s.modMe f).groupOf s.cur = s.groupOf s.cur := by
  have e : ((s.modMe f).ctx s.cur).group = (s.ctx s.cur).group := by
    have := State.me_modMe s f
    rw [show (s.modMe f).ctx s.cur = f s.me from this]; exact h
  unfold State.groupOf
  rw [e, State.core_modMe]; simp

/-! ## Registers -/

@[simp] theorem Ctx.setX_zero (c : Ctx) (v : Word) : c.setX 0 v = c := rfl

@[simp] theorem Ctx.setX_status (c : Ctx) (n : Nat) (v : Word) : (c.setX n v).status = c.status := by
  unfold Ctx.setX; split
  · rfl
  · split <;> rfl

@[simp] theorem Ctx.setX_pc (c : Ctx) (n : Nat) (v : Word) : (c.setX n v).pc = c.pc := by
  unfold Ctx.setX; split
  · rfl
  · split <;> rfl

theorem Ctx.setX_shadows (c : Ctx) (n m : Nat) (v : Word) : (c.setX n v).shadows m = c.shadows m := by
  simp [Ctx.shadows, Ctx.ui, Ctx.priv]

/-- An x register read after one is written. -/
theorem Ctx.xreg_setX (c : Ctx) (n m : Nat) (v : Word) : (c.setX n v).xreg m = if m ≠ 0 ∧ m = n then v else c.xreg m := by
  unfold Ctx.xreg
  rw [Ctx.setX_shadows]
  by_cases hm : m = 0
  · simp [hm]
  · simp only [hm, if_false, ne_eq, not_false_eq_true, true_and]
    unfold Ctx.setX
    by_cases hn : n = 0
    · simp [hn, hm]
    · simp only [hn, if_false]
      by_cases hs : c.shadows n <;> by_cases hs' : c.shadows m <;> by_cases he : m = n <;>
        simp_all [smGet_smSet]

/-- What a write of an x register leaves of its context. -/
theorem Ctx.setX_rest (c : Ctx) (n : Nat) (v : Word) :
    c.setX n v = { c with x := (c.setX n v).x, shadow := (c.setX n v).shadow } := by
  unfold Ctx.setX; split
  · rfl
  · split <;> rfl

/-- Which bank a write of an x register leaves. -/
theorem Ctx.setX_bank (c : Ctx) (n : Nat) (v : Word) :
    if c.shadows n then (c.setX n v).x = c.x else (c.setX n v).shadow = c.shadow := by
  unfold Ctx.setX
  by_cases hn : n = 0
  · subst hn; split <;> rfl
  · by_cases hs : c.shadows n <;> simp [hn, hs]

end Sys2Proof.Machine
end

