-- ==== Sys2Proof/Laws/Bits.lean ====
section
/-! SUPPORT. Reading a bit field after writing one. -/

namespace Sys2Proof.Machine

open Sys2Proof

theorem putBits_toNat {w : Nat} (x : BitVec w) (lo n v : Nat) :
    x.toNat - bits x lo n * 2 ^ lo + v % 2 ^ n * 2 ^ lo
      = 2 ^ lo * (2 ^ n * (x.toNat / 2 ^ lo / 2 ^ n) + v % 2 ^ n) + x.toNat % 2 ^ lo := by
  have e1 := Nat.div_add_mod x.toNat (2 ^ lo)
  have e2 := Nat.div_add_mod (x.toNat / 2 ^ lo) (2 ^ n)
  unfold bits
  generalize x.toNat / 2 ^ lo = q at *
  generalize x.toNat % 2 ^ lo = r at *
  generalize q / 2 ^ n = g at *
  generalize q % 2 ^ n = m at *
  generalize v % 2 ^ n = v' at *
  rw [← e1, ← e2]
  have e3 : 2 ^ lo * (2 ^ n * g + m) = 2 ^ lo * (2 ^ n * g) + m * 2 ^ lo := by ring
  have e4 : 2 ^ lo * (2 ^ n * g + v') = 2 ^ lo * (2 ^ n * g) + v' * 2 ^ lo := by ring
  rw [e3, e4]
  omega

theorem mul_add_lt {A B a b : Nat} (ha : a < A) (hb : b < B) : B * a + b < B * A := by
  calc B * a + b < B * a + B := by omega
    _ = B * (a + 1) := by ring
    _ ≤ B * A := Nat.mul_le_mul_left _ ha

theorem putBits_bound {w : Nat} (x : BitVec w) (lo n v : Nat) (h : lo + n ≤ w) :
    2 ^ lo * (2 ^ n * (x.toNat / 2 ^ lo / 2 ^ n) + v % 2 ^ n) + x.toNat % 2 ^ lo < 2 ^ w := by
  obtain ⟨k, rfl⟩ := Nat.exists_eq_add_of_le h
  have hq : x.toNat / 2 ^ lo / 2 ^ n < 2 ^ k := by
    rw [Nat.div_div_eq_div_mul, ← Nat.pow_add, Nat.div_lt_iff_lt_mul (Nat.two_pow_pos _), ← Nat.pow_add, Nat.add_comm k]
    exact x.isLt
  have h1 := mul_add_lt hq (Nat.mod_lt v (Nat.two_pow_pos n))
  have h2 := mul_add_lt h1 (Nat.mod_lt x.toNat (Nat.two_pow_pos lo))
  rwa [Nat.pow_add, Nat.pow_add, Nat.mul_assoc]

/-- A bit of a value with a field replaced. -/
theorem getLsbD_putBits {w : Nat} (x : BitVec w) (lo n v i : Nat) (h : lo + n ≤ w) :
    (putBits x lo n v).getLsbD i = if lo ≤ i ∧ i < lo + n then v.testBit (i - lo) else x.getLsbD i := by
  have hb := putBits_bound x lo n v h
  rw [putBits, BitVec.getLsbD_ofNat, putBits_toNat x lo n v]
  simp only [Nat.testBit_two_pow_mul_add _ (Nat.mod_lt _ (Nat.two_pow_pos lo)),
    Nat.testBit_two_pow_mul_add _ (Nat.mod_lt _ (Nat.two_pow_pos n)), Nat.testBit_div_two_pow, Nat.testBit_mod_two_pow,
    BitVec.testBit_toNat]
  by_cases h1 : i < lo
  · simp only [h1, if_true, show ¬ (lo ≤ i ∧ i < lo + n) by omega, if_false, decide_true, Bool.true_and,
      show i < w by omega]
  · by_cases h2 : i < lo + n
    · simp [h1, show lo ≤ i ∧ i < lo + n by omega, show i - lo < n by omega, show i < w by omega]
    · simp only [h1, if_false, show ¬ i - lo < n by omega, show ¬ (lo ≤ i ∧ i < lo + n) by omega]
      rw [show i - lo - n + n + lo = i by omega]
      by_cases h3 : i < w
      · simp [h3]
      · simp [h3, BitVec.getLsbD_of_ge _ _ (Nat.le_of_not_lt h3)]

theorem testBit_bits {w : Nat} (x : BitVec w) (lo n i : Nat) :
    (bits x lo n).testBit i = (decide (i < n) && x.getLsbD (lo + i)) := by
  simp [bits, Nat.testBit_mod_two_pow, Nat.testBit_div_two_pow, BitVec.testBit_toNat, Nat.add_comm]

theorem bits_lt {w : Nat} (x : BitVec w) (lo n : Nat) : bits x lo n < 2 ^ n := Nat.mod_lt _ (Nat.two_pow_pos n)

/-- A field read after the same field is written. -/
theorem bits_putBits_same {w : Nat} (x : BitVec w) (lo n v : Nat) (h : lo + n ≤ w) :
    bits (putBits x lo n v) lo n = v % 2 ^ n := by
  apply Nat.eq_of_testBit_eq
  intro i
  rw [testBit_bits, getLsbD_putBits _ _ _ _ _ h, Nat.testBit_mod_two_pow]
  by_cases hi : i < n <;> simp [hi]

/-- A field read after another field is written. -/
theorem bits_putBits_other {w : Nat} (x : BitVec w) (lo n v k m : Nat) (h : lo + n ≤ w) (hd : k + m ≤ lo ∨ lo + n ≤ k) :
    bits (putBits x lo n v) k m = bits x k m := by
  apply Nat.eq_of_testBit_eq
  intro i
  rw [testBit_bits, testBit_bits, getLsbD_putBits _ _ _ _ _ h]
  by_cases hi : i < m
  · rw [if_neg (by omega)]
  · simp [hi]

end Sys2Proof.Machine
end

