-- ==== Sys2Proof/Laws/Memory.lean ====
section
/-! SUPPORT. Memory: every operation keeps the canonical form, a read gives what was written, and a write leaves every other
byte. -/

namespace Sys2Proof.Machine

open Sys2Proof

/-! ## The canonical form -/

theorem Memory.wfFrom_cons (lo : Option Nat) (a : Nat) (v : Byte) (m : Memory) :
    Memory.wfFrom lo ((a, v) :: m) = true ↔ (∀ b, lo = some b → b < a) ∧ v ≠ backing a ∧ Memory.wfFrom (some a) m = true := by
  cases lo <;> simp [Memory.wfFrom, and_assoc]

/-- The canonical form above a lower bound. -/
theorem Memory.wfFrom_mono {lo hi : Option Nat} (m : Memory) (h : ∀ b, lo = some b → ∃ c, hi = some c ∧ b ≤ c)
    (w : Memory.wfFrom hi m = true) : Memory.wfFrom lo m = true := by
  cases m with
  | nil => rfl
  | cons e rest =>
    obtain ⟨a, v⟩ := e
    rw [Memory.wfFrom_cons] at w ⊢
    refine ⟨fun b hb => ?_, w.2⟩
    obtain ⟨c, hc, hbc⟩ := h b hb
    exact lt_of_le_of_lt hbc (w.1 c hc)

theorem Memory.wfFrom_none {lo : Option Nat} {m : Memory} (w : Memory.wfFrom lo m = true) : m.wf = true :=
  Memory.wfFrom_mono m (by simp) w

theorem Memory.wfFrom_set (m : Memory) (lo : Option Nat) (a : Nat) (v : Byte) (hlo : ∀ b, lo = some b → b < a)
    (w : Memory.wfFrom lo m = true) : Memory.wfFrom lo (m.set a v) = true := by
  induction m generalizing lo with
  | nil =>
    unfold Memory.set
    split
    · rfl
    · rw [Memory.wfFrom_cons]; exact ⟨hlo, by assumption, rfl⟩
  | cons e rest ih =>
    obtain ⟨b, u⟩ := e
    rw [Memory.wfFrom_cons] at w
    unfold Memory.set
    by_cases hab : b = a
    · subst hab
      rw [if_pos rfl]
      split
      · exact Memory.wfFrom_mono _ (fun c hc => ⟨b, rfl, le_of_lt (hlo c hc)⟩) w.2.2
      · rw [Memory.wfFrom_cons]; exact ⟨hlo, by assumption, w.2.2⟩
    · rw [if_neg hab]
      by_cases hlt : a < b
      · rw [if_pos hlt]
        split
        · rw [Memory.wfFrom_cons]; exact w
        · rw [Memory.wfFrom_cons]
          refine ⟨hlo, by assumption, ?_⟩
          rw [Memory.wfFrom_cons]
          exact ⟨fun c hc => by cases hc; exact hlt, w.2⟩
      · rw [if_neg hlt, Memory.wfFrom_cons]
        exact ⟨w.1, w.2.1, ih _ (fun c hc => by cases hc; omega) w.2.2⟩

/-- A write keeps the canonical form. -/
theorem Memory.wf_set {m : Memory} (w : m.wf = true) (a : Nat) (v : Byte) : (m.set a v).wf = true :=
  Memory.wfFrom_set m none a v (by simp) w

/-- Writes of consecutive bytes keep the canonical form. -/
theorem Memory.wf_setBytes {m : Memory} (w : m.wf = true) (a : Nat) (l : List Byte) : (m.setBytes a l).wf = true := by
  induction l generalizing m a with
  | nil => exact w
  | cons b rest ih => exact ih (Memory.wf_set w a b) (a + 1)

theorem Memory.wfFrom_filter (m : Memory) (lo : Option Nat) (p : Host.Cell → Bool) (w : Memory.wfFrom lo m = true) :
    Memory.wfFrom lo (m.filter p) = true := by
  induction m generalizing lo with
  | nil => rfl
  | cons e rest ih =>
    obtain ⟨b, u⟩ := e
    rw [Memory.wfFrom_cons] at w
    rw [List.filter_cons]
    split
    · rw [Memory.wfFrom_cons]; exact ⟨w.1, w.2.1, ih _ w.2.2⟩
    · exact ih _ (Memory.wfFrom_mono _ (fun c hc => ⟨b, rfl, le_of_lt (w.1 c hc)⟩) w.2.2)

/-- Forgetting cells keeps the canonical form. -/
theorem Memory.wf_filter {m : Memory} (w : m.wf = true) (p : Host.Cell → Bool) : Memory.wf (m.filter p) = true :=
  Memory.wfFrom_filter m none p w

/-- A fold of writes keeps the canonical form. -/
theorem Memory.wf_foldl_set {α : Type} (l : List α) (f : α → Nat) (g : α → Byte) {m : Memory} (w : m.wf = true) :
    (l.foldl (fun m e => Memory.set m (f e) (g e)) m).wf = true := by
  induction l generalizing m with
  | nil => exact w
  | cons e rest ih => exact ih (Memory.wf_set w _ _)

/-! ## Reading after writing -/

theorem Memory.get_of_below {m : Memory} {lo a : Nat} (w : Memory.wfFrom (some lo) m = true) (h : a ≤ lo) : m.get a = backing a := by
  cases m with
  | nil => rfl
  | cons e rest =>
    obtain ⟨b, u⟩ := e
    rw [Memory.wfFrom_cons] at w
    have := w.1 lo rfl
    unfold Memory.get
    rw [if_neg (by omega), if_pos (by omega)]

theorem Memory.get_set_from (m : Memory) (lo : Option Nat) (a c : Nat) (v : Byte) (w : Memory.wfFrom lo m = true) :
    (m.set a v).get c = if c = a then v else m.get c := by
  induction m generalizing lo with
  | nil =>
    unfold Memory.set
    by_cases hv : v = backing a
    · rw [if_pos hv]
      split
      · rename_i h; rw [h, hv]; rfl
      · rfl
    · rw [if_neg hv]
      by_cases h : c = a
      · subst h; rw [if_pos rfl, Memory.get, if_pos rfl]
      · simp [Memory.get, h, Ne.symm h]
  | cons e rest ih =>
    obtain ⟨b, u⟩ := e
    rw [Memory.wfFrom_cons] at w
    unfold Memory.set
    by_cases hab : b = a
    · subst hab
      rw [if_pos rfl]
      by_cases hv : v = backing b
      · rw [if_pos hv]
        by_cases h : c = b
        · subst h; rw [if_pos rfl, hv, Memory.get_of_below w.2.2 (le_refl _)]
        · rw [if_neg h]
          by_cases hlt : c < b
          · rw [Memory.get_of_below w.2.2 (by omega), Memory.get, if_neg (Ne.symm h), if_pos hlt]
          · rw [show Memory.get ((b, u) :: rest) c = Memory.get rest c by
              rw [Memory.get, if_neg (Ne.symm h), if_neg hlt]]
      · rw [if_neg hv, Memory.get, Memory.get]
        by_cases h : c = b
        · subst h; simp
        · rw [if_neg (Ne.symm h), if_neg h, if_neg (Ne.symm h)]
    · rw [if_neg hab]
      by_cases hlt : a < b
      · rw [if_pos hlt]
        by_cases hv : v = backing a
        · rw [if_pos hv]
          by_cases h : c = a
          · subst h; rw [if_pos rfl, hv, Memory.get, if_neg hab, if_pos hlt]
          · rw [if_neg h]
        · rw [if_neg hv, Memory.get]
          by_cases h : c = a
          · subst h; rw [if_pos rfl, if_pos rfl]
          · rw [if_neg (Ne.symm h), if_neg h]
            by_cases hca : c < a
            · rw [if_pos hca, Memory.get, if_neg (by omega), if_pos (by omega)]
            · rw [if_neg hca]
      · rw [if_neg hlt, Memory.get, Memory.get]
        by_cases hbc : b = c
        · subst hbc; rw [if_pos rfl, if_neg hab, if_pos rfl]
        · rw [if_neg hbc, if_neg hbc]
          by_cases hcb : c < b
          · rw [if_pos hcb, if_pos hcb, if_neg (by omega)]
          · rw [if_neg hcb, if_neg hcb]; exact ih _ w.2.2

/-- A byte read after a byte is written. -/
theorem Memory.get_set {m : Memory} (w : m.wf = true) (a c : Nat) (v : Byte) :
    (m.set a v).get c = if c = a then v else m.get c := Memory.get_set_from m none a c v w

/-- A byte read after consecutive bytes are written. -/
theorem Memory.get_setBytes {m : Memory} (w : m.wf = true) (a c : Nat) (l : List Byte) :
    (m.setBytes a l).get c = if a ≤ c ∧ c < a + l.length then l.getD (c - a) 0 else m.get c := by
  induction l generalizing m a with
  | nil => rw [if_neg (by simp)]; rfl
  | cons b rest ih =>
    rw [Memory.setBytes, ih (Memory.wf_set w a b), Memory.get_set w]
    by_cases h1 : c = a
    · subst h1; rw [if_neg (by omega)]; simp
    · by_cases h2 : a + 1 ≤ c ∧ c < a + 1 + rest.length
      · rw [if_pos h2, if_pos (by simp; omega), show c - a = (c - (a + 1)) + 1 by omega]; simp
      · rw [if_neg h2, if_neg h1, if_neg (by simp; omega)]

end Sys2Proof.Machine
end

