-- ==== Sys2Proof/Laws/Mem.lean ====
section
/-! SUPPORT. Memory accesses: what each home operation changes and what it leaves, and translations of the bytes of one page. -/

namespace Sys2Proof.Machine

open Sys2Proof

/-! ## The snapshot and the apprentices' pages -/

theorem State.keepLine_spec (s : State) (l : Nat) : ∃ p, s.keepLine l = { s with parts := p } := by
  unfold State.keepLine; split
  · exact ⟨s.parts, rfl⟩
  · exact ⟨_, rfl⟩

theorem State.noteWrite_spec (s : State) (a : Nat) : ∃ c x, s.noteWrite a = { s with clusters := c, texts := x } := by
  have h1 : ∃ c, s.noteCode a = { s with clusters := c } := by
    unfold State.noteCode; split
    · exact ⟨s.clusters, rfl⟩
    · exact ⟨_, rfl⟩
  have h2 : ∀ t : State, ∃ x, t.noteTable a = { t with texts := x } := by
    intro t; unfold State.noteTable; split
    · exact ⟨t.texts, rfl⟩
    · exact ⟨_, rfl⟩
  obtain ⟨c, e1⟩ := h1
  obtain ⟨x, e2⟩ := h2 (s.noteCode a)
  exact ⟨c, x, by rw [State.noteWrite, e2, e1]⟩

/-- A byte written at its home: memory, the snapshots of step-mode partitions, the apprentices' slots and the marks of text contexts
change, and nothing else. -/
theorem State.writeRaw_spec (s : State) (a : Nat) (b : Byte) :
    ∃ p c x, s.writeRaw a b = { s with mem := s.mem.set a b, parts := p, clusters := c, texts := x } := by
  unfold State.writeRaw
  split
  · obtain ⟨p, hp⟩ := s.keepLine_spec (a / 128)
    obtain ⟨c, x, hc⟩ := ({ s with parts := p } : State).noteWrite_spec a
    exact ⟨p, c, x, by simp only [hp, hc]⟩
  · obtain ⟨c, x, hc⟩ := s.noteWrite_spec a
    exact ⟨s.parts, c, x, by simp only [hc]⟩

/-- Bytes written at their homes. -/
theorem State.writeCells_spec (l : List Host.Cell) (s : State) :
    ∃ p c x, s.writeCells l
      = { s with mem := l.foldl (fun m e => Memory.set m e.1 e.2) s.mem, parts := p, clusters := c, texts := x } := by
  induction l generalizing s with
  | nil => exact ⟨s.parts, s.clusters, s.texts, rfl⟩
  | cons e rest ih =>
    obtain ⟨p, c, x, h⟩ := s.writeRaw_spec e.1 e.2
    obtain ⟨p', c', x', h'⟩ := ih (s.writeRaw e.1 e.2)
    refine ⟨p', c', x', ?_⟩
    rw [State.writeCells, h', h]
    rfl

/-! ## Watchpoints, heat and progress -/

theorem smGet_map {α : Type} (m : SMap α) (f : α → α) (k : Nat) (d : α) (h : f d = d) :
    smGet (m.map fun e => (e.1, f e.2)) k d = f (smGet m k d) := by
  induction m with
  | nil => exact h.symm
  | cons e rest ih =>
    simp only [List.map_cons, smGet]
    split
    · rfl
    · exact ih

/-- A watch registers a pending match and nothing else (R207). -/
theorem Core.watch_spec (c : Core) (a : Agent) (w : Watched) (l : List Nat) :
    ∃ h e, c.watch a w l = { c with wpHit := h, wpEng := e } := by
  unfold Core.watch; dsimp only; split
  · exact ⟨c.wpHit, c.wpEng, rfl⟩
  · exact ⟨_, _, rfl⟩

theorem Core.watch_unarmed (c : Core) (a : Agent) (w : Watched) (l : List Nat) (h : c.wpm = []) : c.watch a w l = c := by
  have hw : ∀ k pa, c.watches k w pa = false := by intro k pa; simp [Core.watches, h]
  have : c.matched w l = [] := by
    have hn : ∀ k, List.find? (c.watches k w) l = none := by intro k; simp [List.find?_eq_none, hw]
    simp [Core.matched, hn]
  unfold Core.watch; rw [this]; rfl

theorem State.core_watch (s : State) (a : Agent) (w : Watched) (l : List Nat) (n : Nat) :
    (s.watch a w l).core n = (s.core n).watch a w l := by
  unfold State.watch
  split
  · rename_i h
    symm; apply Core.watch_unarmed
    unfold State.core
    have : ∀ m : SMap Core, m.all (fun c => c.2.wpm.isEmpty) = true → (smGet m n {}).wpm = [] := by
      intro m
      induction m with
      | nil => intro _; rfl
      | cons e rest ih =>
        intro hm
        simp only [List.all_cons, Bool.and_eq_true, List.isEmpty_iff] at hm
        simp only [smGet]; split
        · exact hm.1
        · exact ih hm.2
    exact this _ h
  · exact smGet_map s.cores (fun c => c.watch a w l) n {} (Core.watch_unarmed _ _ _ _ rfl)

theorem State.watch_spec (s : State) (a : Agent) (w : Watched) (l : List Nat) : ∃ c, s.watch a w l = { s with cores := c } := by
  unfold State.watch; split
  · exact ⟨s.cores, rfl⟩
  · exact ⟨_, rfl⟩

@[simp] theorem State.ctx_watch (s : State) (a : Agent) (w : Watched) (l : List Nat) (i : CtxId) :
    (s.watch a w l).ctx i = s.ctx i := by
  simp only [State.ctx, State.core_watch]
  obtain ⟨h, e, hs⟩ := (s.core i.core).watch_spec a w l
  rw [hs]; rfl

theorem State.heat_spec (s : State) (a : Nat) : ∃ h, s.heat a = { s with heatDue := h } := by
  unfold State.heat; split
  · exact ⟨_, rfl⟩
  · exact ⟨s.heatDue, rfl⟩

/-- Heat events one after another. -/
theorem State.heats_spec {α : Type} (f : State → α → State) (hf : ∀ s x, ∃ h, f s x = { s with heatDue := h }) (l : List α) (s : State) :
    ∃ h, l.foldl f s = { s with heatDue := h } := by
  induction l generalizing s with
  | nil => exact ⟨s.heatDue, rfl⟩
  | cons x rest ih =>
    obtain ⟨h, e⟩ := hf s x
    obtain ⟨h', e'⟩ := ih (f s x)
    exact ⟨h', by rw [List.foldl_cons, e', e]⟩

/-- An access makes heat events due and changes nothing else by it (R182). -/
theorem State.heatAccess_spec (s : State) (rq : Req) (l : List Xlat) : ∃ h, s.heatAccess rq l = { s with heatDue := h } := by
  obtain ⟨h, e⟩ := State.heats_spec (fun (s : State) (x : Xlat) => if x.home = 3 then s.heat x.pa else s)
    (fun s x => by
      split
      · exact s.heat_spec _
      · exact ⟨s.heatDue, rfl⟩) l s
  unfold State.heatAccess State.heatWalks
  obtain ⟨h', e'⟩ := State.heats_spec State.heat State.heat_spec _ (l.foldl (fun (s : State) (x : Xlat) => if x.home = 3 then s.heat x.pa else s) s)
  exact ⟨h', by rw [e', e]⟩

/-! ## The lines of the slices -/

theorem State.dropL2_spec (s : State) (n : Nat) : ∃ l h, s.dropL2 n = { s with l2 := l, heatDue := h } := by
  unfold State.dropL2; split
  · exact ⟨s.l2, s.heatDue, rfl⟩
  · dsimp only; split
    · obtain ⟨h, e⟩ := s.heat_spec (n * 128)
      exact ⟨_, h, by rw [e]⟩
    · exact ⟨_, s.heatDue, rfl⟩

theorem State.roomL2_spec (s : State) (n : Nat) : ∃ l h i, s.roomL2 n = { s with l2 := l, heatDue := h, freeIdx := i } := by
  unfold State.roomL2; split
  · exact ⟨s.l2, s.heatDue, s.freeIdx, rfl⟩
  · dsimp only; split
    · obtain ⟨l, h, e⟩ := s.drawn.dropL2_spec _
      exact ⟨l, h, _, e⟩
    · exact ⟨s.l2, s.heatDue, s.freeIdx, rfl⟩

/-- A line visited at its home: what the slices hold changes, with the heat events of the fill and of a line dropped for it (R166). -/
theorem State.visitLine_spec (s t : State) (q : Place) (n va : Nat) (c : Cause) (h : s.visitLine q n va c = .ok t) :
    ∃ l d i, t = { s with l2 := l, heatDue := d, freeIdx := i } := by
  unfold State.visitLine at h
  split at h
  · cases h; exact ⟨s.l2, s.heatDue, s.freeIdx, rfl⟩
  · split at h
    · cases h
    · dsimp only at h
      obtain ⟨l, d, i, e⟩ := s.roomL2_spec q.slice
      obtain ⟨d', e'⟩ := (s.roomL2 q.slice).heat_spec (n * 128)
      cases h
      exact ⟨_, d', i, by rw [e', e]⟩

theorem State.visit_spec (l : List Xlat) (s t : State) (rq : Req) (c : Cause) (h : s.visit rq c l = .ok t) :
    ∃ m d i, t = { s with l2 := m, heatDue := d, freeIdx := i } := by
  induction l generalizing s with
  | nil => cases h; exact ⟨t.l2, t.heatDue, t.freeIdx, rfl⟩
  | cons x rest ih =>
    unfold State.visit at h
    split at h
    · exact ih _ h
    · split at h
      · cases h
      · rename_i u hu
        obtain ⟨_, _, _, e⟩ := s.visitLine_spec u _ _ _ _ hu
        obtain ⟨m, d, i, e'⟩ := ih _ h
        exact ⟨m, d, i, by rw [e', e]⟩

theorem State.dirtyLine_spec (s : State) (n : Nat) : ∃ l, s.dirtyLine n = { s with l2 := l } := by
  unfold State.dirtyLine; split
  · split
    · exact ⟨s.l2, rfl⟩
    · exact ⟨_, rfl⟩
  · exact ⟨s.l2, rfl⟩

theorem State.dirtyLines_spec (l : List Nat) (s : State) : ∃ m, s.dirtyLines l = { s with l2 := m } := by
  unfold State.dirtyLines
  induction l generalizing s with
  | nil => exact ⟨s.l2, rfl⟩
  | cons n rest ih =>
    obtain ⟨m, e⟩ := s.dirtyLine_spec n
    obtain ⟨m', e'⟩ := ih (s.dirtyLine n)
    exact ⟨m', by rw [List.foldl_cons, e', e]⟩

theorem State.keepAcc_spec (s : State) (a : Nat) : ∃ p, s.keepAcc a = { s with parts := p } := by
  unfold State.keepAcc; split
  · exact ⟨s.parts, rfl⟩
  · exact ⟨_, rfl⟩

theorem State.watchAs_spec (s : State) (rq : Req) (w : Watched) (l : List Nat) : ∃ c, s.watchAs rq w l = { s with cores := c } := by
  unfold State.watchAs; split
  · exact ⟨s.cores, rfl⟩
  · exact s.watch_spec _ _ _

theorem State.progress_spec (s : State) (n : Nat) : ∃ p, s.progress n = { s with parts := p } := by
  unfold State.progress; split
  · exact ⟨_, rfl⟩
  · exact ⟨s.parts, rfl⟩

theorem State.progressAs_spec (s : State) (rq : Req) : ∃ p, s.progressAs rq = { s with parts := p } := by
  unfold State.progressAs; split
  · exact ⟨s.parts, rfl⟩
  · exact s.progress_spec _

/-! ## Translations of the bytes of one page (R274, R186) -/

theorem displace_mod (p : Partition) (pa : Nat) (h : sramBase ≤ pa) : p.displace pa % 65536 = pa % 65536 := by
  unfold Partition.displace sramBase at *
  simp only
  omega

theorem State.walk_allowed (s : State) (p : Partition) (va fuel table lvl : Nat) (e l : Nat) (h : s.walk p va fuel table lvl = .ok (e, l)) :
    s.pageForbidden p l e = false := by
  induction fuel generalizing table lvl with
  | zero => simp [State.walk] at h
  | succ n ih =>
    unfold State.walk at h
    simp only at h
    split at h
    · cases h
    · split at h
      · cases h
      · split at h
        · cases h
        · split at h
          · split at h
            · cases h
            · simp only [Except.ok.injEq, Prod.mk.injEq] at h
              obtain ⟨rfl, rfl⟩ := h
              rename_i hf; exact Bool.eq_false_iff.2 hf
          · exact ih _ _ h

theorem regionOf_sram {pa c : Nat} (h : regionOf pa = .sram c) : sramBase ≤ pa := by
  unfold regionOf at h
  by_contra hc
  by_cases h1 : pa < 0x8000000000
  · rw [if_pos h1] at h; cases h
  · rw [if_neg h1] at h
    by_cases h2 : pa < cxlBase
    · rw [if_pos h2] at h; cases h
    · rw [if_neg h2, if_pos (by omega)] at h; cases h

/-- A SCRATCH page is a 64 KiB page of local SRAM. -/
theorem State.scratch_in_sram (s : State) (p : Partition) (l e : Nat) (h : s.pageForbidden p l e = false) (hh : e / 64 % 4 = 1) :
    l = 3 ∧ sramBase ≤ e / 65536 % 2 ^ 36 * 65536 := by
  unfold State.pageForbidden at h
  dsimp only at h
  generalize e / 65536 % 2 ^ 36 * 65536 = pa at h ⊢
  rcases hr : regionOf pa with _ | k | c | d | _
  · rw [hr, hh] at h; simp at h
  · rw [hr, hh] at h; simp at h
  · refine ⟨?_, regionOf_sram hr⟩
    rw [hr, hh] at h; simp at h; exact h.1.2
  · rw [hr, hh] at h; simp at h
  · rw [hr] at h; simp at h

/-- A translation keeps the offset in the page. -/
theorem State.translate_offset (s : State) (rq : Req) (k : Acc) (va : Nat) (x : Xlat) (h : s.translate rq k va = .ok x) :
    x.pa % 65536 = va % 65536 ∧ x.va = va := by
  unfold State.translate at h
  split at h
  · cases h
  · split at h
    · cases h
    · rename_i e lvl hw
      split at h
      · cases h
      · have hf := s.walk_allowed _ _ _ _ _ _ _ hw
        simp only [Except.ok.injEq] at h
        subst h
        refine ⟨?_, rfl⟩
        simp only
        have base : (if lvl = 2 then e / 2 ^ 29 % 2 ^ 23 * 2 ^ 29 + va % 2 ^ 29 else e / 65536 % 2 ^ 36 * 65536 + va % 65536)
            % 65536 = va % 65536 := by
          split <;> omega
        split
        · rename_i hh
          rw [displace_mod]
          · exact base
          · obtain ⟨h3, hb⟩ := s.scratch_in_sram _ _ _ hf hh
            rw [if_neg (by omega)]
            exact le_trans hb (Nat.le_add_right _ _)
        · unfold State.forwarded
          split
          · refine Eq.trans ?_ base
            rw [Nat.mul_add_mod_self_right, Nat.mod_mod]
          · exact base

theorem vaRange_length (va n : Nat) : (vaRange va n).length = n := by simp [vaRange]

end Sys2Proof.Machine
end

