-- ==== Sys2Proof/Laws/Frame.lean ====
section
/-! SUPPORT. What memory accesses leave: every home operation, and so every read, write, take and fill, keeps the contexts,
everything of the device that an access does not touch, and the memory's canonical form. -/

namespace Sys2Proof.Machine

open Sys2Proof

theorem AccessFrame.refl (s : State) : AccessFrame s s := ⟨rfl, fun _ => rfl, fun _ => rfl, fun _ => rfl⟩

theorem AccessFrame.trans {s t u : State} (h : AccessFrame s t) (k : AccessFrame t u) : AccessFrame s u :=
  ⟨k.device.trans h.device, fun n => (k.cores n).trans (h.cores n), fun n => (k.clusters n).trans (h.clusters n),
    fun n => (k.parts n).trans (h.parts n)⟩

theorem AccessFrame.trans' {s t u : State} (k : AccessFrame t u) (h : AccessFrame s t) : AccessFrame s u := h.trans k

/-- An access changes no context. -/
theorem AccessFrame.ctxs {s t : State} (h : AccessFrame s t) (n : Nat) : (t.core n).ctxs = (s.core n).ctxs :=
  show (t.core n).besidesAccess.ctxs = (s.core n).besidesAccess.ctxs by rw [h.cores n]

theorem AccessFrame.ctx {s t : State} (h : AccessFrame s t) (i : CtxId) : t.ctx i = s.ctx i := by
  simp only [State.ctx, Core.ctx, h.ctxs]

theorem AccessFrame.cur {s t : State} (h : AccessFrame s t) : t.cur = s.cur :=
  show t.besidesAccess.cur = s.besidesAccess.cur by rw [h.device]

theorem AccessFrame.mods {s t : State} (h : AccessFrame s t) : t.mods = s.mods :=
  show t.besidesAccess.mods = s.besidesAccess.mods by rw [h.device]

theorem AccessFrame.me {s t : State} (h : AccessFrame s t) : t.me = s.me := by rw [State.me, State.me, h.cur, h.ctx]

/-! ## Accesses -/

/-- An access: everything outside its frame stays, and the memory keeps its canonical form. -/
structure Access (s t : State) : Prop where
  frame : AccessFrame s t
  canonical : MemoryCanonical s → MemoryCanonical t

theorem Access.refl (s : State) : Access s s := ⟨.refl s, id⟩

theorem Access.trans {s t u : State} (h : Access s t) (k : Access t u) : Access s u :=
  ⟨h.frame.trans k.frame, fun w => k.canonical (h.canonical w)⟩

theorem Access.trans' {s t u : State} (k : Access t u) (h : Access s t) : Access s u := h.trans k

/-- A change inside the frame that leaves the memory as it stands. -/
theorem Access.ofFrame {s t : State} (h : AccessFrame s t) (m : t.mem = s.mem) : Access s t :=
  ⟨h, fun w => by unfold MemoryCanonical at *; rw [m]; exact w⟩

/-- A change of what no frame holds, with cores, clusters, partitions and memory as they stand. -/
theorem Access.same {s t : State} (d : t.besidesAccess = s.besidesAccess) (c : t.cores = s.cores) (k : t.clusters = s.clusters)
    (p : t.parts = s.parts) (m : t.mem = s.mem) : Access s t :=
  .ofFrame ⟨d, fun _ => by rw [State.core, c]; rfl, fun _ => by rw [State.cluster, k]; rfl, fun _ => by rw [State.part, p]; rfl⟩ m

theorem Access.foldl {α : Type} (f : State → α → State) (hf : ∀ s a, Access s (f s a)) (l : List α) (s : State) :
    Access s (l.foldl f s) := by
  induction l generalizing s with
  | nil => exact .refl s
  | cons a rest ih => exact (hf s a).trans (ih _)

/-- A change made only where a condition holds. -/
theorem Access.cond {s t : State} (c : Bool) (h : Access s t) : Access s (if c then t else s) := by
  split
  · exact h
  · exact .refl s

/-! ## The operations -/

theorem accessFrame_modCore (s : State) (n : Nat) (f : Core → Core)
    (h : (f (s.core n)).besidesAccess = (s.core n).besidesAccess) : AccessFrame s (s.modCore n f) := by
  refine ⟨rfl, fun m => ?_, fun _ => rfl, fun _ => rfl⟩
  rw [State.core_modCore]; split
  · rename_i e; rw [e, h]
  · rfl

theorem accessFrame_modPart (s : State) (n : Nat) (f : Partition → Partition)
    (h : (f (s.part n)).besidesAccess = (s.part n).besidesAccess) : AccessFrame s (s.modPart n f) := by
  refine ⟨rfl, fun _ => rfl, fun _ => rfl, fun m => ?_⟩
  rw [State.part_modPart]; split
  · rename_i e; rw [e, h]
  · rfl

theorem access_modCore (s : State) (n : Nat) (f : Core → Core)
    (h : (f (s.core n)).besidesAccess = (s.core n).besidesAccess) : Access s (s.modCore n f) :=
  .ofFrame (accessFrame_modCore s n f h) rfl

theorem access_modPart (s : State) (n : Nat) (f : Partition → Partition)
    (h : (f (s.part n)).besidesAccess = (s.part n).besidesAccess) : Access s (s.modPart n f) :=
  .ofFrame (accessFrame_modPart s n f h) rfl

/-- Every partition changed in what an access may change. -/
theorem access_parts (s : State) (f : Partition → Partition) (h : ∀ p, (f p).besidesAccess = p.besidesAccess) (h0 : f {} = {}) :
    Access s { s with parts := s.parts.map fun p => (p.1, f p.2) } := by
  refine .ofFrame ⟨rfl, fun _ => rfl, fun _ => rfl, fun n => ?_⟩ rfl
  simp only [State.part]
  rw [smGet_map _ f _ _ h0]; exact h _

theorem access_keepLine (s : State) (l : Nat) : Access s (s.keepLine l) := by
  unfold State.keepLine; split
  · exact .refl s
  · have e : ∀ p : Nat × Partition, (if p.2.mode && !smHas p.2.snap l then (p.1, { p.2 with snap := smSet p.2.snap l (s.lineValue l) })
        else p) = (p.1, if p.2.mode && !smHas p.2.snap l then { p.2 with snap := smSet p.2.snap l (s.lineValue l) } else p.2) := by
      intro p; split <;> rfl
    simp only [e]
    exact access_parts s (fun p => if p.mode && !smHas p.snap l then { p with snap := smSet p.snap l (s.lineValue l) } else p)
      (fun p => by split <;> rfl) rfl

theorem access_keepAcc (s : State) (a : Nat) : Access s (s.keepAcc a) := by
  unfold State.keepAcc; split
  · exact .refl s
  · have e : ∀ p : Nat × Partition, (if p.2.mode && !smHas p.2.accSnap a then (p.1, { p.2 with accSnap := smSet p.2.accSnap a (s.accAt a) })
        else p) = (p.1, if p.2.mode && !smHas p.2.accSnap a then { p.2 with accSnap := smSet p.2.accSnap a (s.accAt a) } else p.2) := by
      intro p; split <;> rfl
    simp only [e]
    exact access_parts s (fun p => if p.mode && !smHas p.accSnap a then { p with accSnap := smSet p.accSnap a (s.accAt a) } else p)
      (fun p => by split <;> rfl) rfl

theorem access_noteWrite (s : State) (a : Nat) : Access s (s.noteWrite a) := by
  have h1 : Access s (s.noteCode a) := by
    unfold State.noteCode; split
    · exact .refl s
    · refine .ofFrame ⟨rfl, fun _ => rfl, fun n => ?_, fun _ => rfl⟩ rfl
      simp only [State.cluster]
      rw [smGet_map s.clusters (fun c => { c with apx := c.apx.map fun e => (e.1, if e.2.holds a then e.2.invalidate 1 else e.2) })
        n {} rfl]
      rfl
  have h2 : ∀ t : State, Access t (t.noteTable a) := by
    intro t; unfold State.noteTable; split
    · exact .refl t
    · refine .same ?_ rfl rfl rfl rfl
      simp only [State.besidesAccess, List.map_map]; rfl
  exact h1.trans (h2 _)

theorem access_writeRaw (s : State) (a : Nat) (b : Byte) : Access s (s.writeRaw a b) := by
  have h : ∀ t : State, Access t { t with mem := t.mem.set a b } := fun t =>
    ⟨⟨rfl, fun _ => rfl, fun _ => rfl, fun _ => rfl⟩, fun w => Memory.wf_set w a b⟩
  have hk : Access s (if isL2 a then s.keepLine (a / 128) else s) := .cond _ (access_keepLine _ _)
  exact (hk.trans (access_noteWrite _ a)).trans (h _)

theorem access_writeCells (l : List Host.Cell) (s : State) : Access s (s.writeCells l) := by
  induction l generalizing s with
  | nil => exact .refl s
  | cons e rest ih => exact (access_writeRaw s e.1 e.2).trans (ih _)

theorem access_watch (s : State) (a : Agent) (w : Watched) (l : List Nat) : Access s (s.watch a w l) := by
  obtain ⟨c, hc⟩ := s.watch_spec a w l
  refine .ofFrame ⟨by rw [hc]; rfl, fun n => ?_, fun _ => by rw [hc]; rfl, fun _ => by rw [hc]; rfl⟩ (by rw [hc])
  rw [State.core_watch]
  obtain ⟨h, e, hs⟩ := (s.core n).watch_spec a w l
  rw [hs]; rfl

theorem access_watchAs (s : State) (rq : Req) (w : Watched) (l : List Nat) : Access s (s.watchAs rq w l) := by
  unfold State.watchAs; split
  · exact .refl s
  · exact access_watch _ _ _ _

theorem access_heatAccess (s : State) (rq : Req) (l : List Xlat) : Access s (s.heatAccess rq l) := by
  obtain ⟨h, e⟩ := s.heatAccess_spec rq l
  rw [e]; exact .same rfl rfl rfl rfl rfl

theorem access_heat (s : State) (a : Nat) : Access s (s.heat a) := by
  obtain ⟨h, e⟩ := s.heat_spec a
  rw [e]; exact .same rfl rfl rfl rfl rfl

theorem access_progress (s : State) (n : Nat) : Access s (s.progress n) := by
  unfold State.progress; split
  · exact access_modPart _ _ _ rfl
  · exact .refl s

theorem access_progressAs (s : State) (rq : Req) : Access s (s.progressAs rq) := by
  unfold State.progressAs; split
  · exact .refl s
  · exact access_progress _ _

theorem access_drawn (s : State) : Access s s.drawn := .same rfl rfl rfl rfl rfl

/-- A change of the accumulators. -/
theorem access_accs (s : State) (l : SMap WideAcc) : Access s { s with accs := l } := .same rfl rfl rfl rfl rfl

theorem access_dropL2 (s : State) (n : Nat) : Access s (s.dropL2 n) := by
  obtain ⟨l, h, e⟩ := s.dropL2_spec n
  rw [e]; exact .same rfl rfl rfl rfl rfl

theorem access_roomL2 (s : State) (n : Nat) : Access s (s.roomL2 n) := by
  obtain ⟨l, h, i, e⟩ := s.roomL2_spec n
  rw [e]; exact .same rfl rfl rfl rfl rfl

theorem access_visitLine (s t : State) (q : Place) (n va : Nat) (c : Cause) (h : s.visitLine q n va c = .ok t) : Access s t := by
  obtain ⟨l, d, i, e⟩ := s.visitLine_spec t q n va c h
  rw [e]; exact .same rfl rfl rfl rfl rfl

theorem access_visit (s t : State) (rq : Req) (c : Cause) (l : List Xlat) (h : s.visit rq c l = .ok t) : Access s t := by
  obtain ⟨m, d, i, e⟩ := State.visit_spec l s t rq c h
  rw [e]; exact .same rfl rfl rfl rfl rfl

theorem access_dirtyLine (s : State) (n : Nat) : Access s (s.dirtyLine n) := by
  obtain ⟨l, e⟩ := s.dirtyLine_spec n
  rw [e]; exact .same rfl rfl rfl rfl rfl

theorem access_dirtyLines (s : State) (l : List Nat) : Access s (s.dirtyLines l) := .foldl _ access_dirtyLine _ _

theorem access_logUndo (s : State) (n : Nat) (u : Undo) : Access s (s.logUndo n u) := by
  unfold State.logUndo
  split
  · exact .refl s
  · split
    · apply access_modPart
      have e : ∀ v : Word, putBits (putBits v 16 1 1) 16 1 0 = putBits v 16 1 0 := by
        intro v
        apply BitVec.eq_of_getLsbD_eq
        intro i _
        simp only [getLsbD_putBits _ _ _ _ _ (show 16 + 1 ≤ 64 by omega)]
        split <;> rfl
      simp only [Partition.besidesAccess, e]
    · exact access_modCore _ _ _ rfl

theorem access_committed (s : State) (rq : Req) : Access s (s.committed rq) := by
  unfold State.committed
  split
  · exact .refl s
  · unfold State.modGroup
    split
    · exact .refl s
    · apply access_modCore
      simp only [Core.besidesAccess, List.map_map]
      congr 1
      apply List.map_congr_left
      intro e _
      simp only [Function.comp]
      split <;> rfl

theorem access_writeBackLine (s : State) (n line : Nat) (l : LcLine) : Access s (s.writeBackLine n line l) := by
  unfold State.writeBackLine
  dsimp only
  split
  · exact .refl s
  · split
    · exact .refl s
    · rename_i t ht
      exact (access_visitLine _ _ _ _ _ _ ht).trans ((((access_dirtyLine t line).trans (access_writeCells _ _)).trans
        (access_watch _ _ _ _)).trans (access_progress _ _))

theorem access_cleanLine (s : State) (n line : Nat) (d : Bool) : Access s (s.cleanLine n line d) := by
  unfold State.cleanLine
  split
  · exact .refl s
  · exact (access_writeBackLine _ _ _ _).trans (access_modCore _ _ _ rfl)

theorem access_emptyCache (s : State) (n : Nat) : Access s (s.emptyCache n) := .foldl _ (fun s l => access_cleanLine s n l true) _ _

theorem access_allocLine (s : State) (n line : Nat) (q : Place) : Access s (s.allocLine n line q) := by
  unfold State.allocLine
  split
  · exact .refl s
  · dsimp only
    refine Access.trans ?_ (access_modCore _ _ _ rfl)
    split
    · split
      · exact access_cleanLine _ _ _ _
      · exact .refl s
    · exact .refl s

theorem access_logScratch (s : State) (n a : Nat) : Access s (s.logScratch n a) := by
  unfold State.logScratch
  split
  · split
    · exact access_logUndo _ _ _
    · exact .refl s
  · exact .refl s

theorem access_writeByte (s : State) (rq : Req) (x : Xlat) (b : Byte) : Access s (s.writeByte rq x b) := by
  unfold State.writeByte
  dsimp only
  split
  · exact .refl s
  · split
    · exact (access_allocLine _ _ _ _).trans (access_modCore _ _ _ rfl)
    · exact (access_logScratch _ _ _).trans (access_writeRaw _ _ _)

theorem access_defer (s u : State) (rq : Req) (x : Xlat) (op : DefOp) (h : s.defer rq x op = .ok u) : Access s u := by
  unfold State.defer at h
  dsimp only at h
  split at h
  · cases h
  · cases h
    exact (access_modCore _ _ _ rfl).trans (access_progress _ _)

theorem access_deferRuns (l : List (Xlat × List Byte)) (s u : State) (rq : Req) (h : s.deferRuns rq l = .ok u) : Access s u := by
  induction l generalizing s with
  | nil => cases h; exact .refl _
  | cons e rest ih =>
    unfold State.deferRuns at h
    split at h
    · rename_i t ht; exact (access_defer _ _ _ _ _ ht).trans (ih _ h)
    · cases h

theorem access_unpoison (s : State) (e : Option Nat) (l : List Xlat) : Access s (s.unpoison e l) := by
  unfold State.unpoison; split
  · exact .refl s
  · exact .same rfl rfl rfl rfl rfl

/-! ## The accesses -/

theorem access_readX (s u : State) (rq : Req) (xs : List Xlat) (l : List Byte) (h : s.readX rq xs = .ok (l, u)) : Access s u := by
  unfold State.readX at h
  dsimp only at h
  split at h
  · cases h
  · split at h
    · cases h
    · split at h
      · cases h
      · rename_i t ht
        simp only [Except.ok.injEq, Prod.mk.injEq] at h
        obtain ⟨-, rfl⟩ := h
        refine (access_visit _ _ _ _ _ ht).trans ?_
        refine Access.trans ?_ (access_watchAs _ _ _ _)
        refine Access.trans ?_ (access_heatAccess _ _ _)
        have hf := Access.foldl (fun t (x : Xlat) => if t.cached rq x then t.allocLine rq.core (x.pa / 128) (t.placeOf rq x) else t)
          (fun s x => .cond _ (access_allocLine _ _ _ _)) (lineHeads xs) t
        exact hf.trans (.cond _ (access_drawn _))

theorem access_loadBytes (s u : State) (rq : Req) (vas : List Nat) (l : List Byte) (h : s.loadBytes rq vas = .ok (l, u)) :
    Access s u := by
  unfold State.loadBytes at h; split at h
  · cases h
  · exact access_readX _ _ _ _ _ h

theorem access_writeX (s u : State) (rq : Req) (xs : List Xlat) (l : List Byte) (h : s.writeX rq xs l = .ok u) : Access s u := by
  unfold State.writeX at h
  dsimp only at h
  split at h
  · cases h; exact .refl s
  · split at h
    · cases h
    · split at h
      · cases h
      · split at h
        · cases h
        · split at h
          · cases h
          · rename_i t ht
            split at h
            · cases h
            · rename_i w hw
              have hd : Access t w := by
                refine (Access.cond ((lineHeads xs).any (s.stray rq)) (access_drawn t)).trans ?_
                split at hw
                · exact access_deferRuns _ _ _ _ hw
                · cases hw; exact .refl _
              simp only [Except.ok.injEq] at h
              subst h
              have hp : ∀ (b : Bool) (v : State), Access v (if b then v else v.progressAs rq) := by
                intro b v; split
                · exact .refl v
                · exact access_progressAs _ _
              refine (access_visit _ _ _ _ _ ht).trans (hd.trans (Access.trans ?_ (hp _ _)))
              refine Access.trans ?_ (access_watchAs _ _ _ _)
              refine Access.trans ?_ (access_heatAccess _ _ _)
              have hb := fun l v => Access.foldl (fun u (q : Xlat × Byte) => u.writeByte rq q.1 q.2) (fun s q => access_writeByte s rq q.1 q.2) l v
              split
              · exact (access_dirtyLines _ _).trans (hb _ _)
              · exact ((access_dirtyLines _ _).trans (hb _ _)).trans (access_unpoison _ _ _)

theorem access_storeBytes (s u : State) (rq : Req) (vas : List Nat) (l : List Byte) (h : s.storeBytes rq vas l = .ok u) :
    Access s u := by
  unfold State.storeBytes at h; split at h
  · cases h
  · exact access_writeX _ _ _ _ _ h

theorem access_atomicBytes (s u : State) (rq : Req) (va w v : Nat) (f : Nat → Nat) (h : s.atomicBytes rq va w f = .ok (v, u)) :
    Access s u := by
  unfold State.atomicBytes at h
  split at h
  · cases h
  · dsimp only at h
    split at h
    · cases h
    · split at h
      · cases h
      · split at h
        · cases h
        · generalize hc : (lineHeads _).foldl _ s = c at h
          have hcl : Access s c := by
            rw [← hc]
            exact .foldl _ (fun s x => .cond _ (access_cleanLine _ _ _ _)) _ _
          generalize bytesToNat _ = o at h
          generalize hw : State.writeX _ rq _ _ = e at h
          cases e with
          | error e => cases h
          | ok e =>
            simp only [Except.map, Except.ok.injEq, Prod.mk.injEq] at h
            obtain ⟨-, rfl⟩ := h
            exact hcl.trans ((Access.cond _ (access_drawn c)).trans ((access_writeX _ _ _ _ _ hw).trans (access_committed _ _)))

theorem access_takeLine (s : State) (rq : Req) (pa : Nat) : Access s (s.takeLine rq pa) := by
  unfold State.takeLine
  dsimp only
  split
  · exact .refl s
  · have h0 := fun l : CLine => Access.cond (s := s) (rq.eng.isNone && !rq.direct) (access_logUndo s rq.core (.take (pa / 128) l.count))
    split
    · exact ((h0 _).trans (access_keepLine _ _)).trans (.same rfl rfl rfl rfl rfl)
    · exact (h0 _).trans (.same rfl rfl rfl rfl rfl)

theorem access_takeX (s u : State) (rq : Req) (xs : List Xlat) (l : List Byte) (h : s.takeX rq xs = .ok (l, u)) : Access s u := by
  unfold State.takeX at h
  dsimp only at h
  split at h
  · cases h
  · split at h
    · cases h
    · split at h
      · cases h
      · split at h
        · cases h
        · simp only [Except.ok.injEq, Prod.mk.injEq] at h
          obtain ⟨-, rfl⟩ := h
          refine Access.trans ?_ (access_committed _ _)
          refine Access.trans ?_ (access_progressAs _ _)
          refine Access.trans ?_ (access_watchAs _ _ _ _)
          refine Access.trans ?_ (access_heatAccess _ _ _)
          exact .foldl _ (fun s x => access_takeLine _ _ _) _ _

theorem access_takeBytes (s u : State) (rq : Req) (vas : List Nat) (l : List Byte) (h : s.takeBytes rq vas = .ok (l, u)) :
    Access s u := by
  unfold State.takeBytes at h; split at h
  · cases h
  · exact access_takeX _ _ _ _ _ h

theorem access_dropFill (s : State) (rq : Req) (line : Nat) : Access s (s.dropFill rq line) := by
  unfold State.dropFill
  split
  · exact access_modCore _ _ _ rfl
  · exact .refl _

theorem access_countLine (s : State) (line : Nat) (l : CLine) : Access s (s.countLine line l) := by
  unfold State.countLine
  exact (((access_keepLine s line).trans (access_dropL2 _ _)).trans (access_noteWrite _ _)).trans (.same rfl rfl rfl rfl rfl)

theorem access_fillLine (s u : State) (rq : Req) (x : Xlat) (v : BitVec 1024) (n : Nat) (h : s.fillLine rq x v n = .ok u) :
    Access s u := by
  unfold State.fillLine at h
  dsimp only at h
  split at h
  · cases h
  · split at h
    · exact (access_dropFill _ _ _).trans (access_defer _ _ _ _ _ h)
    · simp only [Except.ok.injEq] at h
      subst h
      refine Access.trans ?_ (access_progressAs _ _)
      refine Access.trans ?_ (access_watchAs _ _ _ _)
      refine Access.trans ?_ (access_heatAccess _ _ _)
      exact (access_roomL2 _ _).trans (access_countLine _ _ _)

theorem access_fillLines (l : List (Xlat × BitVec 1024)) (s u : State) (rq : Req) (n : Nat) (h : s.fillLines rq n l = .ok u) :
    Access s u := by
  induction l generalizing s with
  | nil => cases h; exact .refl _
  | cons e rest ih =>
    unfold State.fillLines at h
    split at h
    · rename_i t ht; exact (access_fillLine _ _ _ _ _ _ ht).trans (ih _ h)
    · cases h

theorem access_fillX (s u : State) (rq : Req) (xs : List (Xlat × BitVec 1024)) (n : Nat) (h : s.fillX rq xs n = .ok u) :
    Access s u := by
  unfold State.fillX at h
  split at h
  · cases h
  · split at h
    · cases h
    · split at h
      · cases h
      · split at h
        · cases h
        · generalize hw : s.fillLines rq n xs = e at h
          cases e with
          | error e => cases h
          | ok e =>
            simp only [Except.map, Except.ok.injEq] at h
            subst h
            exact (access_fillLines _ _ _ _ _ hw).trans (access_committed _ _)

theorem access_fillBytes (s u : State) (rq : Req) (va n : Nat) (l : List Byte) (c : Nat) (h : s.fillBytes rq va n l c = .ok u) :
    Access s u := by
  unfold State.fillBytes at h; split at h
  · cases h
  · exact access_fillX _ _ _ _ _ h

theorem access_visitWord (s u : State) (rq : Req) (x : Xlat) (h : s.visitWord rq x = .ok u) : Access s u := by
  unfold State.visitWord at h
  generalize hv : State.visit _ rq _ _ = e at h
  cases e with
  | error e => cases h
  | ok t =>
    simp only [Except.map, Except.ok.injEq] at h
    subst h
    exact ((Access.cond _ (access_cleanLine _ _ _ _)).trans (access_visit _ _ _ _ _ hv)).trans (access_committed _ _)

theorem access_exactAdd (s u : State) (rq : Req) (x : Xlat) (c : F32) (h : s.exactAdd rq x c = .ok u) : Access s u := by
  unfold State.exactAdd at h
  split at h
  · cases h
  · split at h
    · cases h
    · rename_i t ht
      refine (access_visitWord _ _ _ _ ht).trans ?_
      dsimp only at h
      split at h
      · cases h
      · split at h
        · refine Access.trans ?_ (access_defer _ _ _ _ _ h)
          split
          · exact .refl t
          · exact .same rfl rfl rfl rfl rfl
        · simp only [Except.ok.injEq] at h
          subst h
          refine Access.trans ?_ (access_progressAs _ _)
          refine Access.trans ?_ (access_watchAs _ _ _ _)
          exact ((access_keepAcc t _).trans (access_heatAccess _ _ _)).trans (access_accs _ _)

theorem access_exactRead (s u : State) (rq : Req) (x : Xlat) (f : Fmt) (v : Nat) (fl : Flags)
    (h : s.exactRead rq x f = .ok (v, fl, u)) : Access s u := by
  unfold State.exactRead at h
  split at h
  · cases h
  · split at h
    · cases h
    · rename_i t ht
      refine (access_visitWord _ _ _ _ ht).trans ?_
      dsimp only at h
      split at h
      · generalize hw : t.defer rq x _ = e at h
        cases e with
        | error e => cases h
        | ok e =>
          simp only [Except.map, Except.ok.injEq, Prod.mk.injEq] at h
          obtain ⟨-, -, rfl⟩ := h
          exact access_defer _ _ _ _ _ hw
      · simp only [Except.ok.injEq, Prod.mk.injEq] at h
        obtain ⟨-, -, rfl⟩ := h
        refine Access.trans ?_ (access_progressAs _ _)
        refine Access.trans ?_ (access_watchAs _ _ _ _)
        exact ((((access_keepAcc t _).trans (access_dirtyLine _ _)).trans (access_writeCells _ _)).trans (access_heatAccess _ _ _)).trans
          (access_accs _ _)

end Sys2Proof.Machine
end

