-- ==== Sys2Proof/Laws/Plain.lean ====
section
/-! SUPPORT. Plain accesses: the translation of the bytes of one page, what a read past the cache portion returns, and what a write
in flow mode leaves at every byte. -/

namespace Sys2Proof.Machine

open Sys2Proof

/-! ## The bytes of one page -/

theorem translateAll_fold (s : State) (rq : Req) (k : Acc) (x : Xlat) (pg : Nat) (rest : List Nat) (h : ∀ v ∈ rest, vpage v = pg)
    (out : List Xlat) (y : Xlat) (hy : y.pa - y.pa % 65536 = x.pa - x.pa % 65536) (hf : { y with va := x.va, pa := x.pa } = x) :
    ∃ y', rest.foldl (fun (acc : Option XFault × List Xlat × Option (Nat × Xlat)) (va : Nat) =>
      let (bad, out, last) := acc
      let r : Except XFault Xlat := match last with
        | some (pg, x) => if pg = vpage va then .ok { x with va := va, pa := x.pa - x.pa % 65536 + va % 65536 }
            else s.translate rq k va
        | none => s.translate rq k va
      match r with
      | .ok x => (bad, x :: out, some (vpage va, x))
      | .error f => (match bad with | some g => if f.va < g.va then some f else bad | none => some f, out, none))
      (none, out, some (pg, y))
      = (none, (rest.map fun v => { x with va := v, pa := x.pa - x.pa % 65536 + v % 65536 }).reverse ++ out, y') := by
  induction rest generalizing out y with
  | nil => exact ⟨_, rfl⟩
  | cons v rest ih =>
    have hv : pg = vpage v := (h v (by simp)).symm
    have hyv : ({ y with va := v, pa := y.pa - y.pa % 65536 + v % 65536 } : Xlat)
        = { x with va := v, pa := x.pa - x.pa % 65536 + v % 65536 } := by
      rw [hy, ← hf]
    obtain ⟨y', e⟩ := ih (fun w hw => h w (by simp [hw])) ({ x with va := v, pa := x.pa - x.pa % 65536 + v % 65536 } :: out)
      { x with va := v, pa := x.pa - x.pa % 65536 + v % 65536 } (by simp only; omega) (by cases x; rfl)
    refine ⟨y', ?_⟩
    rw [List.foldl_cons]
    simp only [hv, if_true, hyv]
    rw [hv] at e
    rw [e]
    simp

/-- The bytes of one page are translated by one walk. -/
theorem State.translateEach_page (s : State) (rq : Req) (k : Acc) (va : Nat) (rest : List Nat) (x : Xlat)
    (hx : s.translate rq k va = .ok x) (h : ∀ v ∈ rest, vpage v = vpage va) :
    s.translateEach rq k (va :: rest)
      = (none, (x :: rest.map fun v => { x with va := v, pa := x.pa - x.pa % 65536 + v % 65536 }).reverse) := by
  obtain ⟨y', e⟩ := translateAll_fold s rq k x (vpage va) rest h [x] x rfl (by cases x; rfl)
  have r := congrArg (fun r : Option XFault × List Xlat × Option (Nat × Xlat) => (r.1, r.2.1)) e
  refine Eq.trans ?_ (r.trans (by simp))
  unfold State.translateEach
  dsimp only
  rw [List.foldl_cons]
  simp only [hx]
  all_goals rfl

theorem lowestWhere_none (f : Xlat → Bool) (l : List Xlat) (h : ∀ x ∈ l, f x = false) : lowestWhere f l = none := by
  unfold lowestWhere
  rw [List.filter_eq_nil_iff.2 (fun x hx => by simp [h x hx])]; rfl

/-- The bytes of one page, none of which its page refuses. -/
theorem State.reach_page (s : State) (rq : Req) (k : Acc) (bad : Xlat → Bool) (va : Nat) (rest : List Nat) (x : Xlat)
    (hx : s.translate rq k va = .ok x) (h : ∀ v ∈ rest, vpage v = vpage va)
    (hb : ∀ y ∈ x :: rest.map (fun v => ({ x with va := v, pa := x.pa - x.pa % 65536 + v % 65536 } : Xlat)), bad y = false) :
    s.reach rq k bad (va :: rest) = .ok (x :: rest.map fun v => { x with va := v, pa := x.pa - x.pa % 65536 + v % 65536 }) := by
  unfold State.reach
  rw [s.translateEach_page rq k va rest x hx h]
  dsimp only
  rw [lowestWhere_none _ _ (fun y hy => hb y (List.mem_reverse.1 hy))]
  simp

/-- The bytes of a word that lies in one page, none of which its page refuses. -/
theorem State.reach_word (s : State) (rq : Req) (k : Acc) (bad : Xlat → Bool) (va w : Nat) (x : Xlat) (hx : s.translate rq k va = .ok x)
    (hw : 0 < w) (hp : va % 65536 + w ≤ 65536) (h64 : va + w ≤ 2 ^ 64)
    (hb : ∀ i, i < w → bad { x with va := va + i, pa := x.pa + i } = false) :
    s.reach rq k bad (vaRange va w) = .ok ((List.range w).map fun i => { x with va := va + i, pa := x.pa + i }) := by
  obtain ⟨n, rfl⟩ : ∃ n, w = n + 1 := ⟨w - 1, by omega⟩
  obtain ⟨ho, hv⟩ := s.translate_offset rq k va x hx
  have e : vaRange va (n + 1) = va :: (List.range n).map fun i => va + (i + 1) := by
    unfold vaRange
    rw [List.range_succ_eq_map, List.map_cons, List.map_map]
    congr 1
    · omega
    · apply List.map_congr_left
      intro i hi
      have := List.mem_range.1 hi
      simp only [Function.comp]; omega
  have e2 : (x :: ((List.range n).map fun i => va + (i + 1)).map
        fun v => ({ x with va := v, pa := x.pa - x.pa % 65536 + v % 65536 } : Xlat))
      = (List.range (n + 1)).map fun i => ({ x with va := va + i, pa := x.pa + i } : Xlat) := by
    rw [List.range_succ_eq_map, List.map_cons, List.map_map, List.map_map]
    congr 1
    · rw [Nat.add_zero, Nat.add_zero, ← hv]
    · apply List.map_congr_left
      intro i hi
      have := List.mem_range.1 hi
      simp only [Function.comp, Xlat.mk.injEq, true_and, and_true]
      omega
  rw [e, State.reach_page s rq k bad va _ x hx, e2]
  · intro v hv
    obtain ⟨i, hi, rfl⟩ := List.mem_map.1 hv
    have := List.mem_range.1 hi
    simp only [vpage]; omega
  · rw [e2]
    intro y hy
    obtain ⟨i, hi, rfl⟩ := List.mem_map.1 hy
    exact hb i (List.mem_range.1 hi)

/-! ## Regions and lines -/

theorem sub_div_line (c m n : Nat) : (c - 128 * m) / (128 * n) = (c / 128 * 128 - 128 * m) / (128 * n) := by
  rw [← Nat.div_div_eq_div_mul, ← Nat.div_div_eq_div_mul]
  congr 1; omega

theorem sub_mod_line (c m n k : Nat) : (c - 128 * m) % (128 * n) < 128 * k ↔ (c / 128 * 128 - 128 * m) % (128 * n) < 128 * k := by
  have e : ∀ x, x % (128 * n) < 128 * k ↔ x / 128 % n < k := by
    intro x
    rw [← Nat.mod_mul_right_div_self]; omega
  rw [e, e]
  have : (c - 128 * m) / 128 = (c / 128 * 128 - 128 * m) / 128 := by omega
  rw [this]

/-- The bytes of one line lie in one region. -/
theorem regionOf_line (a b : Nat) (h : a / 128 = b / 128) : regionOf a = regionOf b := by
  have key : ∀ c, regionOf c = regionOf (c / 128 * 128) := by
    intro c
    unfold regionOf cxlBase sramBase remoteBase
    have h1 : c < 0x8000000000 ↔ c / 128 * 128 < 0x8000000000 := by omega
    have h2 : c < 0x4000000000000 ↔ c / 128 * 128 < 0x4000000000000 := by omega
    have h3 : c < 0x8000000000000 ↔ c / 128 * 128 < 0x8000000000000 := by omega
    have h4 : c < 0x8000000000000 + 0x20000000 ↔ c / 128 * 128 < 0x8000000000000 + 0x20000000 := by omega
    have h5 : c < 0xC000000000000 ↔ c / 128 * 128 < 0xC000000000000 := by omega
    have h6 : c < 0x10000000000000 ↔ c / 128 * 128 < 0x10000000000000 := by omega
    have h7 := sub_div_line c (0x4000000000000 / 128) (0x1000000000000 / 128)
    have h8 := sub_div_line c (0x8000000000000 / 128) (0x80000 / 128)
    have h9 := sub_div_line c (0xC000000000000 / 128) (0x100000000000 / 128)
    have h10 := sub_mod_line c (0xC000000000000 / 128) (0x100000000000 / 128) (0x8000000000 / 128)
    norm_num at h7 h8 h9 h10
    norm_num at h1 h2 h3 h4 h5 h6 ⊢
    simp only [← h1, ← h2, ← h3, ← h4, ← h5, ← h6, ← h7, ← h8, ← h9, ← h10]
  rw [key a, key b, h]

theorem lineHeads_mem (l : List Xlat) : ∀ y ∈ lineHeads l, y ∈ l := by
  induction l with
  | nil => intro y hy; cases hy
  | cons z l ih =>
    intro y hy
    simp only [lineHeads, List.mem_cons] at hy ⊢
    rcases hy with rfl | hy
    · exact .inl rfl
    · exact .inr (ih y (List.mem_of_mem_filter hy))

theorem lineHeads_one (x : Xlat) (rest : List Xlat) (h : ∀ y ∈ rest, y.pa / 128 = x.pa / 128) : lineHeads (x :: rest) = [x] := by
  simp only [lineHeads]
  congr 1
  rw [List.filter_eq_nil_iff]
  intro y hy
  simp [h y (lineHeads_mem _ y hy)]

/-! ## Reads past the cache portion -/

theorem State.cached_direct (s : State) (rq : Req) (x : Xlat) (h : x.lc = false) : s.cached rq x = false := by
  simp [State.cached, h]

theorem State.lcHit_direct (s : State) (rq : Req) (x : Xlat) (h : x.lc = false) : s.lcHit rq x = false := by
  simp [State.lcHit, s.cached_direct rq x h]

/-- One line visited at its home, when nothing stands in the way. -/
theorem State.visit_reaches (s : State) (rq : Req) (c : Cause) (x : Xlat) (h : Reaches s rq x) :
    ∃ l d i, s.visit rq c [x] = .ok { s with l2 := l, heatDue := d, freeIdx := i } := by
  have hv : ∃ t, s.visit rq c [x] = .ok t := by
    unfold State.visit
    split
    · exact ⟨_, rfl⟩
    · have hl : ∃ t, s.visitLine (s.placeOf rq x) (x.pa / 128) x.va c = .ok t := by
        unfold State.visitLine
        split
        · exact ⟨_, rfl⟩
        · rename_i hn
          simp only [Bool.or_eq_true, not_or, Bool.not_eq_true] at hn
          split
          · rename_i hp
            simp only [Bool.and_eq_true, decide_eq_true_eq] at hp
            have h2 : x.home = 2 := by
              by_contra hc
              have : (s.placeOf rq x).pin = false := by
                unfold State.placeOf Partition.placeOf
                dsimp only
                split
                · rfl
                · exact absurd (by assumption) hc
                · rfl
              rw [this] at hp; exact absurd hp.1 Bool.false_ne_true
            have := h.room h2 hn.2 hn.1
            omega
          · exact ⟨_, rfl⟩
      obtain ⟨t, ht⟩ := hl
      exact ⟨t, by rw [ht]; rfl⟩
  obtain ⟨t, ht⟩ := hv
  obtain ⟨l, d, i, e⟩ := State.visit_spec _ _ _ _ _ ht
  exact ⟨l, d, i, by rw [ht, e]⟩

/-- The one line of an access that is not LC, visited. -/
theorem State.missing_one (s : State) (rq : Req) (x : Xlat) (h : x.lc = false) : s.missing rq [x] = [x] := by
  simp [State.missing, s.lcHit_direct rq x h, risingVa, insertVa]

theorem isRemote_line (a b : Nat) (h : a / 128 = b / 128) : isRemote a = isRemote b := by
  unfold isRemote; rw [regionOf_line a b h]

theorem lowestWhere_one (f : Xlat → Bool) (x : Xlat) (h : f x = false) : lowestWhere f [x] = none :=
  lowestWhere_none f _ (fun y hy => by rw [List.mem_singleton.1 hy]; exact h)

/-- A plain read of bytes of one line: what it returns, and that memory keeps every byte. -/
theorem readX_plain (s : State) (x : Xlat) (rest : List Xlat) (hl : ∀ y ∈ rest, y.pa / 128 = x.pa / 128)
    (hd : ∀ y ∈ rest, y.lc = false) (h : Reaches s s.req x) (hp : s.unreadable (x.pa / 128) = false)
    (ho : ∀ y ∈ x :: rest, s.ownBacking s.req y.va = false) :
    ∃ u, s.readX s.req (x :: rest) = .ok ((x :: rest).map fun y => s.sees y.pa, u) ∧ AccessFrame s u ∧
      (∀ pa, u.homeByte pa = s.homeByte pa) ∧ u.mem = s.mem ∧ u.lines = s.lines := by
  obtain ⟨l2, hd2, fi, hvis⟩ := s.visit_reaches s.req .loadFault x h
  have hall : ∀ y ∈ x :: rest, y.lc = false ∧ isRemote y.pa = false := by
    intro y hy
    rcases List.mem_cons.1 hy with rfl | hy
    · exact ⟨h.direct, h.here⟩
    · exact ⟨hd y hy, by rw [isRemote_line y.pa x.pa (hl y hy)]; exact h.here⟩
  have hr : ∃ u, s.readX s.req (x :: rest)
      = .ok ((x :: rest).map fun y => s.sees y.pa, u) ∧ u.mem = s.mem ∧ u.lines = s.lines := by
    unfold State.readX
    simp only [lineHeads_one x rest hl]
    rw [lowestWhere_one _ x h.up]
    dsimp only
    rw [lowestWhere_one _ x (by simp [hp])]
    dsimp only
    rw [s.missing_one s.req x h.direct, hvis]
    simp only [List.foldl_cons, List.foldl_nil, State.cached_direct _ _ _ h.direct, Bool.false_eq_true, if_false, List.any_cons,
      List.any_nil, h.place, Bool.or_false]
    have hb : ∀ y ∈ x :: rest, ({ s with l2 := l2, heatDue := hd2, freeIdx := fi } : State).readByte s.req y = s.sees y.pa := by
      intro y hy
      unfold State.readByte
      have hq : ({ s with l2 := l2, heatDue := hd2, freeIdx := fi } : State).ownBacking s.req y.va = false := ho y hy
      rw [if_neg (by rw [hq]; exact Bool.false_ne_true), if_neg (by rw [State.cached_direct _ _ _ (hall y hy).1]; exact Bool.false_ne_true)]
      unfold State.byteFor State.sees
      have hm := (hall y hy).2
      unfold isRemote at hm
      rcases hg : regionOf y.pa with _ | _ | _ | _ | _ <;> rw [hg] at hm <;>
        first
          | (simp at hm; done)
          | (simp only [Req.defers, State.req, Bool.not_false, Bool.and_true]; rfl)
          | rfl
    have e : ∀ t : State, t.mem = s.mem → t.lines = s.lines → ∀ rq w l k,
        ((t.heatAccess rq k).watchAs rq w l).mem = s.mem ∧ ((t.heatAccess rq k).watchAs rq w l).lines = s.lines := by
      intro t h1 h2 rq w l k
      obtain ⟨hh, e1⟩ := t.heatAccess_spec rq k
      obtain ⟨c, e2⟩ := (t.heatAccess rq k).watchAs_spec rq w l
      rw [e2, e1]; exact ⟨h1, h2⟩
    refine ⟨_, by rw [List.map_congr_left hb], e _ ?_ ?_ _ _ _ _⟩
    · split <;> rfl
    · split <;> rfl
  obtain ⟨u, hu, hm, hli⟩ := hr
  refine ⟨u, hu, (access_readX _ _ _ _ _ hu).frame, ?_, hm, hli⟩
  intro pa
  simp only [State.homeByte, hm, hli]

/-! ## Writes in flow mode past the cache portion -/

theorem State.logUndo_spec (s : State) (n : Nat) (u : Undo) : ∃ c p, s.logUndo n u = { s with cores := c, parts := p } := by
  unfold State.logUndo
  split
  · exact ⟨s.cores, s.parts, rfl⟩
  · split
    · exact ⟨s.cores, _, rfl⟩
    · exact ⟨_, s.parts, rfl⟩

theorem State.logScratch_spec (s : State) (n a : Nat) : ∃ c p, s.logScratch n a = { s with cores := c, parts := p } := by
  unfold State.logScratch
  split
  · split
    · exact s.logUndo_spec _ _
    · exact ⟨s.cores, s.parts, rfl⟩
  · exact ⟨s.cores, s.parts, rfl⟩

/-- One byte written past the cache portion. -/
theorem writeByte_plain (s : State) (rq : Req) (x : Xlat) (b : Byte) (hw : MemoryCanonical s) (hx : x.lc = false)
    (hr : isRemote x.pa = false) (hl : smHas s.lines (x.pa / 128) = false) :
    MemoryCanonical (s.writeByte rq x b) ∧ (s.writeByte rq x b).lines = s.lines ∧
      ∀ pa, (s.writeByte rq x b).homeByte pa = if x.pa = pa then b else s.homeByte pa := by
  unfold State.writeByte
  dsimp only
  rw [if_neg (by rw [hr]; exact Bool.false_ne_true), if_neg (by rw [State.cached_direct _ _ _ hx]; exact Bool.false_ne_true)]
  obtain ⟨c, p, e⟩ := s.logScratch_spec rq.core x.pa
  obtain ⟨p', c', t', e'⟩ := (s.logScratch rq.core x.pa).writeRaw_spec x.pa b
  rw [e', e]
  refine ⟨Memory.wf_set hw _ _, rfl, fun pa => ?_⟩
  unfold State.homeByte
  simp only [Memory.get_set (show s.mem.wf = true from hw)]
  by_cases hp : x.pa = pa
  · subst hp
    have : s.lines.find? (fun l => l.1 == x.pa / 128) = none := by
      rw [List.find?_eq_none]
      intro e he hc
      have : smHas s.lines (x.pa / 128) = true := List.any_eq_true.2 ⟨e, he, hc⟩
      rw [this] at hl; cases hl
    rw [this]
  · rw [if_neg hp]
    split
    · rfl
    · rw [if_neg (Ne.symm hp)]

/-- Bytes written one after another. -/
theorem writeBytes_plain (rq : Req) (l : List (Xlat × Byte)) (s : State) (hw : MemoryCanonical s) (hx : ∀ q ∈ l, q.1.lc = false)
    (hr : ∀ q ∈ l, isRemote q.1.pa = false) (hl : ∀ q ∈ l, smHas s.lines (q.1.pa / 128) = false) :
    MemoryCanonical (l.foldl (fun s q => s.writeByte rq q.1 q.2) s) ∧ (l.foldl (fun s q => s.writeByte rq q.1 q.2) s).lines = s.lines ∧
      ∀ pa, (l.foldl (fun s q => s.writeByte rq q.1 q.2) s).homeByte pa
        = (lastWrite (l.map fun q => (q.1.pa, q.2)) pa).getD (s.homeByte pa) := by
  induction l generalizing s with
  | nil => exact ⟨hw, rfl, fun _ => rfl⟩
  | cons q rest ih =>
    obtain ⟨h1, h2, h3⟩ := writeByte_plain s rq q.1 q.2 hw (hx q (by simp)) (hr q (by simp)) (hl q (by simp))
    obtain ⟨k1, k2, k3⟩ := ih (s.writeByte rq q.1 q.2) h1 (fun r h => hx r (by simp [h])) (fun r h => hr r (by simp [h]))
      (fun r h => by rw [h2]; exact hl r (by simp [h]))
    refine ⟨k1, k2.trans h2, fun pa => ?_⟩
    rw [List.foldl_cons, k3 pa, h3 pa, List.map_cons, lastWrite]
    cases lastWrite (rest.map fun q => (q.1.pa, q.2)) pa with
    | some v => rfl
    | none => simp only [Option.none_or, Option.getD_none]; split <;> rfl

theorem homeByte_of_eq {s t : State} (hm : t.mem = s.mem) (hl : t.lines = s.lines) (pa : Nat) : t.homeByte pa = s.homeByte pa := by
  simp only [State.homeByte, hm, hl]

/-- What a write by a core in flow mode, to pages that are not LC, leaves at every byte. -/
theorem writeX_home (s u : State) (rq : Req) (xs : List Xlat) (data : List Byte) (hw : MemoryCanonical s)
    (hf : rq.defers = false) (hx : ∀ x ∈ xs, x.lc = false) (hr : ∀ x ∈ xs, isRemote x.pa = false)
    (hl : ∀ x ∈ xs, smHas s.lines (x.pa / 128) = false) (hs : ∀ x ∈ xs, s.stray rq x = false) (h : s.writeX rq xs data = .ok u) :
    MemoryCanonical u ∧ u.lines = s.lines ∧
      ∀ pa, u.homeByte pa = (lastWrite ((xs.map (·.pa)).zip data) pa).getD (s.homeByte pa) := by
  have hodd : (lineHeads xs).any (s.stray rq) = false := by
    rw [List.any_eq_false]
    intro x hm; rw [hs x (lineHeads_mem xs x hm)]; exact Bool.false_ne_true
  unfold State.writeX at h
  simp only [hf, hodd, Bool.false_eq_true, if_false] at h
  split at h
  · rename_i he
    cases h
    rw [List.isEmpty_iff.1 he]
    exact ⟨hw, rfl, fun _ => rfl⟩
  · split at h
    · cases h
    · split at h
      · cases h
      · split at h
        · cases h
        · split at h
          · cases h
          · rename_i t ht
            obtain ⟨l, d, i, rfl⟩ := State.visit_spec _ _ _ _ _ ht
            simp only [Except.ok.injEq] at h
            have hmem : ∀ q ∈ xs.zip data, q.1 ∈ xs := fun q hq => (List.of_mem_zip hq).1
            obtain ⟨m, em⟩ := State.dirtyLines_spec ((lineHeads (((xs.zip data).filter fun q =>
              !({ s with l2 := l, heatDue := d, freeIdx := i } : State).cached rq q.1).map (·.1))).map fun x => x.pa / 128)
                { s with l2 := l, heatDue := d, freeIdx := i }
            obtain ⟨k1, k2, k3⟩ := writeBytes_plain rq (xs.zip data) { s with l2 := m, heatDue := d, freeIdx := i } hw
              (fun q hq => hx _ (hmem q hq)) (fun q hq => hr _ (hmem q hq)) (fun q hq => hl _ (hmem q hq))
            rw [em] at h
            dsimp only at h
            generalize hg : (xs.zip data).foldl (fun s q => s.writeByte rq q.1 q.2) { s with l2 := m, heatDue := d, freeIdx := i } = g at h k1 k2 k3
            have e : u.mem = g.mem ∧ u.lines = g.lines := by
              subst h
              have pr : ∀ (b : Bool) (t : State), (if b then t else t.progressAs rq).mem = t.mem ∧
                  (if b then t else t.progressAs rq).lines = t.lines := by
                intro b t; split
                · exact ⟨rfl, rfl⟩
                · obtain ⟨q, e⟩ := t.progressAs_spec rq; rw [e]; exact ⟨rfl, rfl⟩
              have wa : ∀ (t : State) l, (t.watchAs rq .st l).mem = t.mem ∧ (t.watchAs rq .st l).lines = t.lines := by
                intro t l; obtain ⟨q, e⟩ := t.watchAs_spec rq .st l; rw [e]; exact ⟨rfl, rfl⟩
              have he : ∀ (t : State) l, (t.heatAccess rq l).mem = t.mem ∧ (t.heatAccess rq l).lines = t.lines := by
                intro t l; obtain ⟨q, e⟩ := t.heatAccess_spec rq l; rw [e]; exact ⟨rfl, rfl⟩
              have un : (g.unpoison rq.eng xs).mem = g.mem ∧ (g.unpoison rq.eng xs).lines = g.lines := by
                unfold State.unpoison; split <;> exact ⟨rfl, rfl⟩
              exact ⟨(pr _ _).1.trans ((wa _ _).1.trans ((he _ _).1.trans un.1)),
                (pr _ _).2.trans ((wa _ _).2.trans ((he _ _).2.trans un.2))⟩
            refine ⟨show u.mem.wf = true by rw [e.1]; exact k1, e.2.trans k2, fun pa => ?_⟩
            rw [homeByte_of_eq e.1 e.2, k3 pa, List.zip_map_left]
            rfl

/-- A write of bytes of one line in flow mode completes when nothing stands in the way. -/
theorem writeX_completes (s : State) (rq : Req) (x : Xlat) (rest : List Xlat) (data : List Byte)
    (hl : ∀ y ∈ rest, y.pa / 128 = x.pa / 128) (hf : rq.defers = false) (h : Reaches s rq x) (hp : rq.pure = none)
    (hc : isL2 x.pa = true → smHas s.lines (x.pa / 128) = false) : ∃ u, s.writeX rq (x :: rest) data = .ok u := by
  obtain ⟨l, d, i, hvis⟩ := s.visit_reaches rq .storeFault x h
  have hc' : s.refusesStore rq x = false := by
    unfold State.refusesStore
    cases hi : isL2 x.pa
    · rfl
    · simp [hc hi, hf]
  unfold State.writeX
  simp only [lineHeads_one x rest hl, List.isEmpty_cons, Bool.false_eq_true, if_false, hp]
  rw [lowestWhere_one _ x h.up]
  dsimp only
  rw [lowestWhere_one _ x hc']
  dsimp only
  rw [s.missing_one rq x h.direct, hvis]
  simp only [hf, Bool.false_eq_true, if_false]
  exact ⟨_, rfl⟩

/-- The bytes of a word written at consecutive addresses. -/
theorem lastWrite_word (a w v pa : Nat) : lastWrite (((List.range w).map (a + ·)).zip (natToBytes w v)) pa
    = if a ≤ pa ∧ pa < a + w then some (BitVec.ofNat 8 (v / 256 ^ (pa - a))) else none := by
  induction w generalizing a v with
  | zero => rw [if_neg (by omega)]; rfl
  | succ n ih =>
    have e : (List.range (n + 1)).map (a + ·) = a :: (List.range n).map (a + 1 + ·) := by
      rw [List.range_succ_eq_map, List.map_cons, List.map_map]
      congr 1
      apply List.map_congr_left; intro i _; simp only [Function.comp]; omega
    rw [e, natToBytes, List.zip_cons_cons, lastWrite, ih]
    by_cases h1 : a + 1 ≤ pa ∧ pa < a + 1 + n
    · have h : a ≤ pa ∧ pa < a + (n + 1) := ⟨by omega, by omega⟩
      rw [if_pos h1, if_pos h, show pa - a = (pa - (a + 1)) + 1 by omega, Nat.pow_succ', Nat.div_div_eq_div_mul]; rfl
    · rw [if_neg h1]
      by_cases h2 : a = pa
      · subst h2
        have h : a ≤ a ∧ a < a + (n + 1) := ⟨le_rfl, by omega⟩
        rw [if_pos h]; simp
      · have h : ¬(a ≤ pa ∧ pa < a + (n + 1)) := by omega
        rw [if_neg h]; simp [h2]

end Sys2Proof.Machine
end

