-- ==== Sys2Proof/Laws/Results.lean ====
section
/-! SUPPORT. What the shared endings of scalar meanings leave behind: a value in an x or f register, a jump, a trap entry. -/

namespace Sys2Proof.Machine

open Sys2Proof

/-! ## Values in registers -/

theorem onlyContext_modMe (s : State) (f : Ctx → Ctx) : OnlyContext s (s.modMe f) where
  outside := by rw [State.me_modMe]; exact State.modMe_congr _ _ _ rfl
  memory _ := rfl

theorem OnlyContext.of_eq {s t : State} (f : Ctx → Ctx) (h : t = s.modMe f) : OnlyContext s t := h ▸ onlyContext_modMe s f

/-- A write of an x register and a jump, as one change of the context. -/
theorem State.setX_setPc (s : State) (d : Nat) (v w : Word) :
    (s.setX d v).setPc w = s.modMe fun c => { c.setX d v with pc := w } := by
  simp only [State.setX, State.setPc, State.modMe_modMe]; rfl

theorem State.setX_advance (s : State) (d : Nat) (v : Word) : (s.setX d v).advance = (s.setX d v).setPc (s.pc + s.len) := by
  simp only [State.setX, State.setPc, State.advance, State.modMe_modMe]
  apply State.modMe_congr
  simp [State.len, State.pc]
  rfl

theorem xWritten_setX (s : State) (d : Nat) (v w : Word) : XWritten s ((s.setX d v).setPc w) d v w := by
  rw [State.setX_setPc]
  have hx : ∀ n, ({ s.me.setX d v with pc := w } : Ctx).xreg n = (s.me.setX d v).xreg n := fun _ => rfl
  constructor
  · intro h; simp only [State.x, State.me_modMe, hx, Ctx.xreg_setX]; simp [h]
  · simp [State.x, Ctx.xreg]
  · intro n h; simp only [State.x, State.me_modMe, hx, Ctx.xreg_setX]; simp [h]
  · simpa using Ctx.setX_bank s.me d v
  · rw [State.me_modMe]; conv_lhs => rw [Ctx.setX_rest]
  · exact onlyContext_modMe _ _

/-- An instruction that writes one x register. -/
theorem State.writeTo_next (s : State) (d : Nat) (v : Word) (h : s.me.canWrite d = true) :
    s.writeTo d v = .next (s.setX d v).advance := by
  simp [State.writeTo, State.destX, need, h, finish, bind, Except.bind]

theorem xResult_writeTo (s : State) (d : Nat) (v : Word) (h : s.me.canWrite d = true) :
    ∃ t, s.writeTo d v = .next t ∧ XResult s t d v :=
  ⟨_, s.writeTo_next d v h, by rw [State.setX_advance]; exact xWritten_setX _ _ _ _⟩

theorem goesTo_setPc (s : State) (w : Word) : GoesTo s (s.setPc w) w :=
  ⟨by simp [State.setPc], onlyContext_modMe _ _⟩

theorem State.advance_eq_setPc (s : State) : s.advance = s.setPc (s.pc + s.len) := State.modMe_congr _ _ _ rfl

theorem fResult_writeFp (s : State) (d : Nat) (r : Nat × Flags) :
    ∃ t, s.writeFp d r = .next t ∧ FResult s t d (word r.1) r.2 := by
  have e : ((s.raiseFp r.2).setF d (word r.1)).advance
      = s.modMe fun c => { c with fpctl := orFlags c.fpctl r.2, f := smSet c.f d (word r.1), pc := c.pc + s.len } := by
    simp only [State.raiseFp, State.setF, State.advance, State.modMe_modMe]; rfl
  refine ⟨_, rfl, ?_⟩
  rw [e]
  constructor
  · simp [State.f]
  · intro n h; simp [State.f, smGet_smSet_other _ h]
  · simp [State.pc]
  · exact onlyContext_modMe _ _

theorem xFlagged_writeXFp (s : State) (d : Nat) (v : Word) (fl : Flags) (h : s.me.canWrite d = true) :
    ∃ t, s.writeXFp d v fl = .next t ∧ XFlagged s t d v fl := by
  have e : ((s.raiseFp fl).setX d v).advance
      = s.modMe fun c => { c.setX d v with fpctl := orFlags c.fpctl fl, pc := c.pc + s.len } := by
    simp only [State.raiseFp, State.setX, State.advance, State.modMe_modMe]
    apply State.modMe_congr
    simp only [Function.comp, Ctx.setX, State.len, State.modMe_mods]
    split
    · rfl
    · rw [show Ctx.shadows { s.me with fpctl := orFlags s.me.fpctl fl } d = s.me.shadows d from rfl]
      split <;> rfl
  refine ⟨_, by simp [State.writeXFp, State.destX, need, h, finish, bind, Except.bind]; rfl, ?_⟩
  rw [e]
  have hx : ∀ n, ({ s.me.setX d v with fpctl := orFlags s.me.fpctl fl, pc := s.me.pc + s.len } : Ctx).xreg n
      = (s.me.setX d v).xreg n := fun _ => rfl
  constructor
  · intro h; simp only [State.x, State.me_modMe, hx, Ctx.xreg_setX]; simp [h]
  · simp [State.x, Ctx.xreg]
  · intro n h; simp only [State.x, State.me_modMe, hx, Ctx.xreg_setX]; simp [h]
  · rw [State.me_modMe]; conv_lhs => rw [Ctx.setX_rest]
    rfl
  · exact onlyContext_modMe _ _

/-! ## Trap entry (R380) -/

theorem enteredStatus_trapStatus (st : Word) (h : Nat) (hh : h < 16) : EnteredStatus st (trapStatus st h) h := by
  have key : ∀ k, (trapStatus st h).getLsbD k =
      if 8 ≤ k ∧ k < 12 then h.testBit (k - 8) else if 4 ≤ k ∧ k < 5 then false else if k < 2 then (1 : Nat).testBit k
      else if 5 ≤ k ∧ k < 6 then (bits st 4 1).testBit (k - 5) else if 2 ≤ k ∧ k < 4 then (bits st 0 2).testBit (k - 2)
      else st.getLsbD k := by
    intro k
    simp only [trapStatus, getLsbD_putBits _ _ _ _ _ (show 8 + 4 ≤ 64 by omega), getLsbD_putBits _ _ _ _ _ (show 4 + 1 ≤ 64 by omega),
      getLsbD_putBits _ _ _ _ _ (show 0 + 2 ≤ 64 by omega), getLsbD_putBits _ _ _ _ _ (show 5 + 1 ≤ 64 by omega),
      getLsbD_putBits _ _ _ _ _ (show 2 + 2 ≤ 64 by omega)]
    simp
  have b1 := bits_lt st 0 2
  have b2 := bits_lt st 4 1
  constructor
  · simp only [trapStatus]
    rw [bits_putBits_other _ _ _ _ _ _ (by omega) (by omega), bits_putBits_other _ _ _ _ _ _ (by omega) (by omega),
      bits_putBits_other _ _ _ _ _ _ (by omega) (by omega), bits_putBits_other _ _ _ _ _ _ (by omega) (by omega),
      bits_putBits_same _ _ _ _ (by omega), Nat.mod_eq_of_lt b1]
  · simp only [trapStatus]
    rw [bits_putBits_other _ _ _ _ _ _ (by omega) (by omega), bits_putBits_other _ _ _ _ _ _ (by omega) (by omega),
      bits_putBits_other _ _ _ _ _ _ (by omega) (by omega), bits_putBits_same _ _ _ _ (by omega), Nat.mod_eq_of_lt b2]
  · simp only [trapStatus]
    rw [bits_putBits_other _ _ _ _ _ _ (by omega) (by omega), bits_putBits_other _ _ _ _ _ _ (by omega) (by omega),
      bits_putBits_same _ _ _ _ (by omega)]
    rfl
  · simp only [trapStatus]
    rw [bits_putBits_other _ _ _ _ _ _ (by omega) (by omega), bits_putBits_same _ _ _ _ (by omega)]
    rfl
  · simp only [trapStatus]
    rw [bits_putBits_same _ _ _ _ (by omega), Nat.mod_eq_of_lt (by omega)]
  · intro k hk
    rw [key k]
    rw [if_neg (by omega), if_neg (by omega), if_neg (by omega), if_neg (by omega), if_neg (by omega)]

theorem Cause.code_lt (c : Cause) : c.code < 64 := by cases c <;> decide

theorem causeWord_sync (c : Cause) : causeWord c false none = word c.code := by simp [causeWord]

@[simp] theorem State.me_squash (s : State) (i : CtxId) : (s.squash i).me = s.me := by
  simp only [State.squash, State.me, State.ctx, State.core_modCore, State.modCore_cur]
  split
  · rename_i h; rw [h]; rfl
  · rfl

/-- Taking a synchronous trap that no error handling overrides: everything that it does. -/
theorem takeTrap_spec (s : State) (c : Cause) (v : Word) (tf : Option Word) (hc : c ≠ .uncorrectableData) (hv : c ≠ .vregFault) :
    Traps s (s.takeTrap { cause := c, tval := v, tf := tf }) c v tf := by
  have e : s.takeTrap { cause := c, tval := v, tf := tf } = ((({ s with mods := none } : State).squash s.cur).modMe fun x =>
      if s.cur.ctx = 0 then ({ x with tfstat := tf.getD x.tfstat } : Ctx).enter x.pc (word c.code) v 0
      else ({ x with tfstat := tf.getD x.tfstat } : Ctx).hold (word c.code) v) := by
    simp only [State.takeTrap, State.endWrites, List.isEmpty_nil, if_true, hc, if_false, State.takeCause, causeWord_sync,
      Bool.false_eq_true, State.keepLost, List.foldl_nil]
    apply State.modMe_congr
    simp [hv]
  constructor
  · intro h
    simp only [h, if_true] at e
    have hm : (s.takeTrap { cause := c, tval := v, tf := tf }).me
        = ({ s.me with tfstat := tf.getD s.me.tfstat } : Ctx).enter s.me.pc (word c.code) v 0 := by
      rw [e, State.me_modMe, State.me_squash]; rfl
    refine ⟨by rw [hm]; rfl, by rw [hm]; rfl, by rw [hm]; rfl, by rw [hm]; rfl, by rw [State.pc, hm]; rfl, ?_, by rw [hm]; rfl, ?_, ?_⟩
    · rw [hm]; exact enteredStatus_trapStatus _ _ (by omega)
    · rw [hm]; conv_lhs => rw [e]
      exact State.modMe_congr _ _ _ (by rw [State.me_squash]; rfl)
    · intro a; rw [e]; rfl
  · intro h
    simp only [h, if_false] at e
    have hm : (s.takeTrap { cause := c, tval := v, tf := tf }).me
        = ({ s.me with tfstat := tf.getD s.me.tfstat } : Ctx).hold (word c.code) v := by
      rw [e, State.me_modMe, State.me_squash]; rfl
    refine ⟨by rw [hm]; rfl, ?_, ?_⟩
    · rw [hm]; conv_lhs => rw [e]
      exact State.modMe_congr _ _ _ (by rw [State.me_squash]; rfl)
    · intro a; rw [e]; rfl

end Sys2Proof.Machine
end

