-- ==== Sys2Proof/Laws/Complete.lean ====
section
/-! SUPPORT. How meanings end: traps, results, and scalar accesses that nothing hinders. -/

namespace Sys2Proof.Machine

open Sys2Proof

theorem trap_ex (s : State) (c : Cause) (v : Word) (i : Instr) (hc : c ≠ .uncorrectableData) (hv : c ≠ .vregFault)
   (h : exec i s = finish s (trapWith c v)) : ∃ t, exec i s = .next t ∧ Traps s t c v := 
  ⟨_, h.trans rfl, takeTrap_spec s c v none hc hv⟩

theorem destX_bad (s : State) (d : Nat) (h1 : s.me.ui = true) (h2 : s.me.priv = 0) (h3 : 9 ≤ d) : s.destX d = trapWith .illegal (s.insn.setWidth 64) := by
  simp [State.destX, need, Ctx.canWrite, h1, h2, h3, trapIllegal]

theorem dest_trap (s : State) (d : Nat) (i : Instr) (k : Unit → Except Stop State) (hd : s.destX d = trapWith .illegal (s.insn.setWidth 64))
   (e : exec i s = finish s (s.destX d >>= k)) : ∃ t, exec i s = .next t ∧ Traps s t .illegal (s.insn.setWidth 64) :=
  trap_ex s _ _ i (by decide) (by decide) (by rw [e, hd]; rfl)

theorem dest_trap2 {α : Type} (s : State) (d : Nat) (i : Instr) (k : Unit → Except Stop α) (k2 : α → Except Stop State) (hd : s.destX d = trapWith .illegal (s.insn.setWidth 64))
   (e : exec i s = finish s ((s.destX d >>= k) >>= k2)) : ∃ t, exec i s = .next t ∧ Traps s t .illegal (s.insn.setWidth 64) :=
  trap_ex s _ _ i (by decide) (by decide) (by rw [e, hd]; rfl)

theorem reqW_eq (s : State) (v : Nat) (h : s.me.pureMarked = false) : s.reqW v = s.req := by
  unfold State.reqW; rw [h]; rfl

theorem aligned_ok (w : Nat) (v : Word) (h : v.toNat % w = 0) : alignedTo w v = .ok () := by
  simp [alignedTo, need, h]

theorem frame_pc {s u : State} (f : AccessFrame s u) : u.pc + u.len = s.pc + s.len := by
  simp only [State.pc, State.len, f.me, f.mods]

theorem xW_advance {s u : State} (f : AccessFrame s u) (d : Nat) (v : Word) : XWritten u (u.setX d v).advance d v (s.pc + s.len) := by
  rw [State.setX_advance, frame_pc f]; exact xWritten_setX _ _ _ _

theorem orFlags_zero (r : Word) : orFlags r 0#5 = r := by simp [orFlags, word]

theorem fR_advance {s u : State} (_ : AccessFrame s u) (d : Nat) (v : Word) : FResult u (u.setF d v).advance d v 0 := by
  have e : (u.setF d v).advance = u.modMe fun c => { c with f := smSet c.f d v, pc := c.pc + u.len } := by
    simp only [State.setF, State.advance, State.modMe_modMe]; rfl
  rw [e]
  constructor
  · simp [State.f]
  · intro n h; simp [State.f, smGet_smSet_other _ h]
  · simp [State.pc, orFlags_zero]
  · exact onlyContext_modMe _ _

theorem goes_advance {s u : State} (f : AccessFrame s u) : GoesTo u u.advance (s.pc + s.len) := by
  rw [State.advance_eq_setPc, frame_pc f]; exact goesTo_setPc _ _

/-- Whether a SCRATCH access is beyond the scratch is the same for all bytes of a line. -/
theorem scratchBad_line (s : State) (rq : Req) (x y : Xlat) (h : y.pa / 128 = x.pa / 128) : s.scratchBad rq y = s.scratchBad rq x := by
  unfold State.scratchBad
  rw [regionOf_line y.pa x.pa h]
  split
  · dsimp only
    have key : ∀ k, (128 * k ≤ (y.pa - sramBase) % 0x80000) = (128 * k ≤ (x.pa - sramBase) % 0x80000) := by
      intro k
      have e : ∀ c, (c - sramBase) % 0x80000 < 128 * k ↔ (c / 128 * 128 - sramBase) % 0x80000 < 128 * k := by
        intro c
        have := sub_mod_line c (0x8000000000000 / 128) (0x80000 / 128) k
        norm_num [sramBase] at this ⊢; exact this
      have : (y.pa - sramBase) % 0x80000 < 128 * k ↔ (x.pa - sramBase) % 0x80000 < 128 * k := by rw [e y.pa, e x.pa, h]
      simp only [eq_iff_iff]; omega
    have top : ∀ n, ∃ k, 0x80000 - (s.core n).cacheBytes - (if s.stepMode n then 0x10000 else 0) = 128 * k := by
      intro n
      refine ⟨(0x80000 - (s.core n).cacheBytes - (if s.stepMode n then 0x10000 else 0)) / 128, ?_⟩
      unfold Core.cacheBytes
      split <;> split <;> rfl
    obtain ⟨k, hk⟩ := top (by assumption)
    simp only [hk, key]
  · rfl

theorem word_xlat (s : State) (rq : Req) (k : Acc) (bad : Xlat → Bool) (ea w : Nat) (x : Xlat) (hx : s.translate rq k ea = .ok x)
   (hw : w ∣ 128) (hw0 : 0 < w) (ha : ea % w = 0) (h64 : ea < 2^64)
   (hb : ∀ y : Xlat, y.pa / 128 = x.pa / 128 → y.home = x.home → bad y = false) :
   ∃ rest, s.reach rq k bad (vaRange ea w) = .ok (x :: rest) ∧ (x :: rest).map (·.pa) = (List.range w).map (x.pa + ·) ∧
     (∀ y ∈ rest, y.pa / 128 = x.pa / 128) ∧ (∀ y ∈ x :: rest, y.lc = x.lc ∧ y.home = x.home ∧ y.target = x.target)
     ∧ (x :: rest) = (List.range w).map (fun i => { x with va := ea + i, pa := x.pa + i }) := by
  obtain ⟨ho, hv⟩ := s.translate_offset _ _ _ x hx
  obtain ⟨n, rfl⟩ : ∃ n, w = n + 1 := ⟨w - 1, by omega⟩
  obtain ⟨m, hm⟩ := hw
  have d1 : (n+1) ∣ 65536 := Dvd.dvd.trans ⟨m, hm⟩ (by norm_num)
  have d2 : (n+1) ∣ 2^64 := Dvd.dvd.trans ⟨m, hm⟩ (by norm_num)
  have hdv : (n+1) ∣ ea := Nat.dvd_of_mod_eq_zero ha
  have key : ∀ M, (n+1) ∣ M → ea % M + (n+1) ≤ M ∨ M = 0 := by
    intro M hM
    rcases Nat.eq_zero_or_pos M with h0 | h0
    · right; exact h0
    · left
      have h1 : (n+1) ∣ ea % M := (Nat.dvd_mod_iff hM).2 hdv
      have h2 := Nat.mod_lt ea h0
      obtain ⟨a, ha⟩ := h1
      obtain ⟨b, hb⟩ := hM
      rw [ha, hb] at h2 ⊢
      have : a < b := Nat.lt_of_mul_lt_mul_left h2
      calc (n+1) * a + (n+1) = (n+1) * (a+1) := by ring
        _ ≤ (n+1) * b := Nat.mul_le_mul_left _ this
  have k1 := (key 65536 d1).resolve_right (by omega)
  have k2 := (key (2^64) d2).resolve_right (by omega)
  have k3 := (key 128 ⟨m, hm⟩).resolve_right (by omega)
  rw [Nat.mod_eq_of_lt h64] at k2
  have hall := s.reach_word rq k bad ea (n+1) x hx (by omega) k1 k2 (fun i hi => hb _ (by simp only; omega) rfl)
  have e : ((List.range (n+1)).map fun i => ({ x with va := ea + i, pa := x.pa + i } : Xlat)) = x :: (List.range n).map fun i => { x with va := ea + (i+1), pa := x.pa + (i+1) } := by
    rw [List.range_succ_eq_map, List.map_cons, List.map_map, ← hv]; rfl
  rw [e] at hall
  refine ⟨_, hall, ?_, ?_, ?_, e.symm⟩
  · rw [List.range_succ_eq_map, List.map_cons, List.map_cons, List.map_map, List.map_map]; rfl
  · intro y hy
    obtain ⟨j, hj, rfl⟩ := List.mem_map.1 hy
    have := List.mem_range.1 hj
    simp only
    omega
  · intro y hy
    rcases List.mem_cons.1 hy with rfl | hy
    · exact ⟨rfl, rfl, rfl⟩
    · obtain ⟨j, hj, rfl⟩ := List.mem_map.1 hy; exact ⟨rfl, rfl, rfl⟩

theorem defers_req (s : State) : s.req.defers = s.stepMode s.cur.core := by simp [Req.defers, State.req]

/-- An access to this device waits for no other's answer. -/
theorem awaitAnswer_here (s : State) (rq : Req) (k : Acc) (ea : Word) (x : Xlat) (hx : s.translate rq k ea.toNat = .ok x)
    (h : isRemote x.pa = false) : s.awaitAnswer rq k ea = .ok s := by
  unfold State.awaitAnswer
  rw [hx]
  unfold isRemote at h
  dsimp only
  split
  · rename_i hr; rw [hr] at h; cases h
  · rfl

theorem natToBytes_length (w v : Nat) : (natToBytes w v).length = w := by
  induction w generalizing v with
  | zero => rfl
  | succ n ih => simp [natToBytes, ih]

theorem isL2_line (a b : Nat) (h : a / 128 = b / 128) : isL2 a = isL2 b := by unfold isL2; rw [regionOf_line a b h]

theorem committed_spec (s : State) (rq : Req) : ∃ c, s.committed rq = { s with cores := c } := by
  unfold State.committed State.modGroup
  split
  · exact ⟨s.cores, rfl⟩
  · split
    · exact ⟨s.cores, rfl⟩
    · exact ⟨_, rfl⟩

theorem fr_inPart {s t : State} (h : AccessFrame s t) (n : Nat) : (t.core n).inPart = (s.core n).inPart :=
  show (t.core n).besidesAccess.inPart = (s.core n).besidesAccess.inPart by rw [h.cores n]

theorem fr_partid {s t : State} (h : AccessFrame s t) (n : Nat) : (t.core n).partid = (s.core n).partid :=
  show (t.core n).besidesAccess.partid = (s.core n).besidesAccess.partid by rw [h.cores n]

theorem fr_mode {s t : State} (h : AccessFrame s t) (n : Nat) : (t.part n).mode = (s.part n).mode :=
  show (t.part n).besidesAccess.mode = (s.part n).besidesAccess.mode by rw [h.parts n]

theorem fr_step {s t : State} (h : AccessFrame s t) (n : Nat) : t.stepMode n = s.stepMode n := by
  simp only [State.stepMode, fr_inPart h, fr_partid h, fr_mode h]

/-- The end of an access: watchpoints and progress leave memory, lines and accumulators. -/
theorem watchprog (t : State) (rq w l) : ((t.watchAs rq w l).progressAs rq).mem = t.mem ∧ ((t.watchAs rq w l).progressAs rq).lines = t.lines ∧
    ((t.watchAs rq w l).progressAs rq).accs = t.accs := by
  obtain ⟨q, e⟩ := (t.watchAs rq w l).progressAs_spec rq
  obtain ⟨c, e2⟩ := t.watchAs_spec rq w l
  rw [e, e2]; exact ⟨rfl, rfl, rfl⟩

theorem find_smSet {α : Type} (m : SMap α) (k : Nat) (v : α) : (smSet m k v).find? (fun e => e.1 == k) = some (k, v) := by
  induction m with
  | nil => simp [smSet]
  | cons e rest ih =>
    obtain ⟨j, w⟩ := e
    by_cases h : j = k
    · simp [smSet, h]
    · by_cases h' : k < j
      · simp [smSet, h, h']
      · simp [smSet, h, h', ih]

theorem find_smSet_other {α : Type} (m : SMap α) (k n : Nat) (v : α) (h : n ≠ k) : (smSet m k v).find? (fun e => e.1 == n) = m.find? (fun e => e.1 == n) := by
  induction m with
  | nil => simp [smSet, Ne.symm h]
  | cons e rest ih =>
    obtain ⟨j, w⟩ := e
    by_cases hj : j = k
    · subst hj; simp [smSet, Ne.symm h]
    · by_cases h' : k < j
      · simp [smSet, hj, h', Ne.symm h]
      · simp only [smSet, hj, h', if_false, List.find?_cons, ih]

theorem vaRange_head (v w : Nat) (h : v < 2 ^ 64) (hw : 0 < w) : (vaRange v w).headD 0 = v := by
  obtain ⟨n, rfl⟩ : ∃ n, w = n + 1 := ⟨w - 1, by omega⟩
  unfold vaRange
  rw [List.range_succ_eq_map]; simp; omega

theorem finish_trap (s : State) (c : Cause) (v : Word) (tf : Option Word) (hc : c ≠ .uncorrectableData) (hv : c ≠ .vregFault) :
   ∃ t, finish s (.error (.trap { cause := c, tval := v, tf := tf })) = .next t ∧ Traps s t c v tf := ⟨_, rfl, takeTrap_spec s c v tf hc hv⟩

theorem eraseKeys {α : Type} (ks : List Nat) (m : SMap α) : ks.foldl smErase m = m.filter fun e => !ks.contains e.1 := by
  induction ks generalizing m with
  | nil => simp
  | cons k ks ih =>
    rw [List.foldl_cons, ih, smErase, List.filter_filter]
    exact List.filter_congr fun e _ => by rw [List.contains_cons, Bool.not_or, Bool.and_comm, bne]

theorem eraseAll {α : Type} (m : SMap α) (P : Nat → Bool) : ((smKeys m).filter P).foldl smErase m = m.filter (fun e => !P e.1) := by
  rw [eraseKeys]
  refine List.filter_congr fun e he => ?_
  have h : ((smKeys m).filter P).contains e.1 = P e.1 := by
    rw [Bool.eq_iff_iff, List.contains_iff_mem, List.mem_filter]
    exact ⟨fun h => h.2, fun h => ⟨List.mem_map_of_mem he, h⟩⟩
  rw [h]

theorem erase_absent {α : Type} (m : SMap α) (k : Nat) (h : m.find? (fun e => e.1 == k) = none) : smErase m k = m :=
  List.filter_eq_self.2 fun e he => by simpa [bne] using List.find?_eq_none.1 h e he

theorem writeBack_lc (s : State) (n line : Nat) (l : LcLine) (m : Nat) : ((s.writeBackLine n line l).core m).lc = (s.core m).lc := by
  unfold State.writeBackLine
  dsimp only
  split
  · rfl
  · split
    · rfl
    · rename_i t ht
      have pc : ∀ (t : State) n m, (t.progress n).core m = t.core m := by
        intro t n m; obtain ⟨q, e⟩ := t.progress_spec n; rw [e]; rfl
      rw [pc, State.core_watch]
      obtain ⟨h, e, hs⟩ := Core.watch_spec (((t.dirtyLine line).writeCells (l.dirtyCells line)).core m) (.core n none) .st
        ((l.dirtyCells line).map (·.1))
      rw [hs]
      obtain ⟨p, c, x, e⟩ := (t.dirtyLine line).writeCells_spec (l.dirtyCells line)
      obtain ⟨d, e2⟩ := t.dirtyLine_spec line
      obtain ⟨a, b, i, e3⟩ := s.visitLine_spec t _ _ _ _ ht
      show (State.core _ _).lc = _
      rw [e, e2, e3]; rfl

theorem clean_lc (s : State) (n line : Nat) : ((s.cleanLine n line true).core n).lc = smErase (s.core n).lc line := by
  unfold State.cleanLine
  split
  · rename_i h; exact (erase_absent _ _ h).symm
  · simp [writeBack_lc]

theorem homeByte_set (s : State) (a : Nat) (b : Byte) (hw : MemoryCanonical s) (pa : Nat) :
    (s.writeRaw a b).homeByte pa = if pa = a ∧ s.lines.find? (fun l => l.1 == a / 128) = none then b else s.homeByte pa := by
  obtain ⟨p, c, x, h⟩ := s.writeRaw_spec a b
  rw [h]
  unfold State.homeByte
  dsimp only
  by_cases hp : pa = a
  · subst hp
    cases hh : s.lines.find? (fun l => l.1 == pa / 128) with
    | none => simp [Memory.get_set hw]
    | some l => simp
  · rw [if_neg (fun h => hp h.1)]
    split
    · rfl
    · rw [Memory.get_set hw, if_neg (by omega)]

theorem writeRaw_can (s : State) (a : Nat) (b : Byte) (hw : MemoryCanonical s) : MemoryCanonical (s.writeRaw a b) := by
  obtain ⟨p, c, x, h⟩ := s.writeRaw_spec a b
  rw [h]; exact Memory.wf_set hw a b

theorem writeRaw_lines (s : State) (a : Nat) (b : Byte) : (s.writeRaw a b).lines = s.lines := by
  obtain ⟨p, c, x, h⟩ := s.writeRaw_spec a b
  rw [h]

theorem writeRange (l : List Byte) : ∀ (s : State) (a : Nat), MemoryCanonical s → (∀ i, i < l.length → s.lines.find? (fun l => l.1 == (a + i) / 128) = none) →
    ∀ pa, (s.writeCells (((List.range l.length).map (a + ·)).zip l)).homeByte pa = if a ≤ pa ∧ pa < a + l.length then l.getD (pa - a) 0 else s.homeByte pa := by
  induction l with
  | nil => intro s a hw hh pa; rw [if_neg (by simp)]; rfl
  | cons b r ih =>
    intro s a hw hh pa
    have e : ((List.range (b :: r).length).map (a + ·)).zip (b :: r) = (a, b) :: (((List.range r.length).map (a + 1 + ·)).zip r) := by
      rw [List.length_cons, List.range_succ_eq_map, List.map_cons, List.map_map, List.zip_cons_cons]
      congr 2
      apply List.map_congr_left; intro k _; simp [Function.comp]; omega
    rw [e]
    show ((s.writeRaw a b).writeCells _).homeByte pa = _
    rw [ih (s.writeRaw a b) (a + 1) (writeRaw_can s a b hw) (by
      intro i hi; rw [writeRaw_lines]; have := hh (i + 1) (by simp; omega); rw [show a + 1 + i = a + (i + 1) by omega]; exact this) pa]
    rw [homeByte_set s a b hw]
    have h0 := hh 0 (by simp)
    rw [Nat.add_zero] at h0
    simp only [List.length_cons, h0, and_true]
    by_cases h1 : pa = a
    · subst h1; simp
    · by_cases h2 : a + 1 ≤ pa ∧ pa < a + 1 + r.length
      · rw [if_pos h2, if_pos (by omega), show pa - a = (pa - (a + 1)) + 1 by omega]; rfl
      · rw [if_neg h2, if_neg h1, if_neg (by omega)]

theorem smHas_of (m : SMap CLine) (k : Nat) (h : m.find? (fun l => l.1 == k) = none) : smHas m k = false := by
  unfold smHas
  rw [List.any_eq_false]; intro e he
  rw [List.find?_eq_none] at h
  exact h e he

end Sys2Proof.Machine
end

