-- ==== Sys2Proof/Laws/Contexts.lean ====
section
/-! SUPPORT. Contexts, groups, slices, pending causes and control-register writes. -/

namespace Sys2Proof.Machine

open Sys2Proof

theorem modGroup_frame (s : State) (i : CtxId) (f : SliceGroup → SliceGroup) :
   (s.modGroup i f).cur = s.cur ∧ (s.modGroup i f).mods = s.mods ∧ (∀ j, (s.modGroup i f).ctx j = s.ctx j) ∧ (∀ pa, (s.modGroup i f).homeByte pa = s.homeByte pa) ∧
   (∀ n, ((s.modGroup i f).core n).engs = (s.core n).engs) := by
  unfold State.modGroup; split
  · exact ⟨rfl, rfl, fun _ => rfl, fun _ => rfl, fun _ => rfl⟩
  · refine ⟨rfl, rfl, fun j => ?_, fun _ => rfl, fun n => ?_⟩
    · unfold State.ctx; rw [State.core_modCore]; split
      · rename_i h; rw [h]; rfl
      · rfl
    · rw [State.core_modCore]; split
      · rename_i h; rw [h]
      · rfl

theorem modEng_frame (s : State) (core e : Nat) (f : EngCtx → EngCtx) :
   (∀ j, (s.modEng core e f).ctx j = s.ctx j) ∧ (∀ n k, (s.modEng core e f).eng n k = if n = core ∧ k = e then f (s.eng core e) else s.eng n k) := by
  constructor
  · intro j; unfold State.modEng State.ctx; rw [State.core_modCore]; split
    · rename_i h; rw [h]; rfl
    · rfl
  · intro n k; unfold State.modEng State.eng; rw [State.core_modCore]
    by_cases h1 : n = core
    · subst h1
      by_cases h2 : k = e
      · subst h2; simp
      · simp [h2, smGet_smSet_other _ h2]
    · simp [h1]

theorem apx_fold (v : Nat) (l : List Nat) (hl : l.Nodup) : ∀ s : State, 
    let t := l.foldl (fun t k => t.setApx (clusterOf s.cur.core) k ((t.apxSlot k).invalidate v)) s
    (∀ j, (t.cluster (clusterOf s.cur.core)).apxSlot j = if j ∈ l then (s.apxSlot j).invalidate v else (s.cluster (clusterOf s.cur.core)).apxSlot j) ∧
    t.cores = s.cores ∧ t.cur = s.cur ∧ t.mods = s.mods ∧ t.mem = s.mem ∧ t.parts = s.parts ∧ (∀ pa, t.homeByte pa = s.homeByte pa) := by
  induction l with
  | nil => intro s; exact ⟨fun j => by simp, rfl, rfl, rfl, rfl, rfl, fun _ => rfl⟩
  | cons k l ih =>
    intro s
    rw [List.nodup_cons] at hl
    have ih := ih hl.2 (s.setApx (clusterOf s.cur.core) k ((s.apxSlot k).invalidate v))
    have hc : (s.setApx (clusterOf s.cur.core) k ((s.apxSlot k).invalidate v)).cur = s.cur := rfl
    rw [hc] at ih
    obtain ⟨h1, h2, h3, h4, h5, h6, h7⟩ := ih
    have cl : ∀ j, ((s.setApx (clusterOf s.cur.core) k ((s.apxSlot k).invalidate v)).cluster (clusterOf s.cur.core)).apxSlot j = if j = k then (s.apxSlot k).invalidate v else (s.cluster (clusterOf s.cur.core)).apxSlot j := by
      intro j
      unfold State.setApx; rw [State.cluster_modCluster, if_pos rfl]
      unfold Cluster.apxSlot; split
      · rename_i h; rw [h]; simp
      · rename_i h; simp only [smGet_smSet_other _ h]
    have sl : ∀ j, j ≠ k → (s.setApx (clusterOf s.cur.core) k ((s.apxSlot k).invalidate v)).apxSlot j = s.apxSlot j := by
      intro j hj
      show ((((s.setApx (clusterOf s.cur.core) k ((s.apxSlot k).invalidate v)).cluster (clusterOf s.cur.core)).apxSlot j).begin _) = _
      rw [cl, if_neg hj]; rfl
    rw [List.foldl_cons]
    refine ⟨fun j => ?_, h2, h3, h4, h5, h6, h7⟩
    rw [h1 j]
    by_cases hj : j = k
    · subst hj; rw [if_neg hl.1, cl, if_pos rfl, if_pos (by simp)]
    · by_cases hm : j ∈ l
      · rw [if_pos hm, sl j hj, if_pos (by simp [hm])]
      · rw [if_neg hm, cl, if_neg hj, if_neg (by simp [hj, hm])]

theorem xWritten_advance (s : State) (d : Nat) (v : Word) : XWritten s (s.setX d v).advance d v (s.pc + s.len) := by
  rw [State.setX_advance]; exact xWritten_setX _ _ _ _

theorem goesTo_advance (s : State) : GoesTo s s.advance (s.pc + s.len) := by rw [State.advance_eq_setPc]; exact goesTo_setPc _ _

structure Homes (s t : State) : Prop where
  home : ∀ pa, t.homeByte pa = s.homeByte pa
  cur : t.cur = s.cur
  cores : ∀ n, (t.core n).slices = (s.core n).slices

theorem Homes.refl (s : State) : Homes s s := ⟨fun _ => rfl, rfl, fun _ => rfl⟩

theorem Homes.trans {s t u : State} (a : Homes s t) (b : Homes t u) : Homes s u :=
  ⟨fun pa => (b.home pa).trans (a.home pa), b.cur.trans a.cur, fun n => (b.cores n).trans (a.cores n)⟩

theorem homes_modPart (s : State) (n : Nat) (f : Partition → Partition) : Homes s (s.modPart n f) := ⟨fun _ => rfl, rfl, fun _ => rfl⟩

theorem homes_modCluster (s : State) (n : Nat) (f : Cluster → Cluster) : Homes s (s.modCluster n f) := ⟨fun _ => rfl, rfl, fun _ => rfl⟩

theorem homes_modCtx (s : State) (i : CtxId) (f : Ctx → Ctx) : Homes s (s.modCtx i f) := by
  refine ⟨fun _ => rfl, rfl, fun n => ?_⟩
  unfold State.modCtx; rw [State.core_modCore]; split
  · rename_i h; rw [h]
  · rfl

theorem homes_foldl {α : Type} (f : State → α → State) (h : ∀ s a, Homes s (f s a)) (l : List α) : ∀ s, Homes s (l.foldl f s) := by
  induction l with
  | nil => exact Homes.refl
  | cons a l ih => intro s; exact (h s a).trans (ih _)

theorem homes_close (s : State) (p g b : Nat) : Homes s (s.closeEpisode p g b) := by
  unfold State.closeEpisode; dsimp only; split
  · exact Homes.refl _
  · split
    · exact (homes_modPart _ _ _).trans (homes_foldl _ (fun s a => homes_modCtx _ _ _) _ _)
    · exact Homes.refl _

theorem homes_depart (s : State) (p : Nat) (i : CtxId) (g : Nat) : Homes s (s.depart p i g) := by
  unfold State.depart; exact (homes_modPart _ _ _).trans (homes_foldl _ (fun s a => homes_close _ _ _ _) _ _)

theorem homes_free (s : State) (i : CtxId) : Homes s (s.freeCtx i) := by
  unfold State.freeCtx State.departAll State.dropInstances
  exact ((homes_foldl _ (fun s a => homes_depart _ _ _ _) _ _).trans (homes_modCluster _ _ _)).trans (homes_modCtx _ _ _)

theorem logUndo_frame (s : State) (n : Nat) (u : Undo) : (∀ pa, (s.logUndo n u).homeByte pa = s.homeByte pa) ∧ (s.logUndo n u).cur = s.cur ∧
    ∀ k, ((s.logUndo n u).core k).slices = (s.core k).slices := by
  unfold State.logUndo; split
  · exact ⟨fun _ => rfl, rfl, fun _ => rfl⟩
  · split
    · exact ⟨fun _ => rfl, rfl, fun _ => rfl⟩
    · refine ⟨fun _ => rfl, rfl, fun k => ?_⟩
      rw [State.core_modCore]; split
      · rename_i h; rw [h]
      · rfl

theorem xW_of (s y : State) (d : Nat) (v : Word) (h1 : y.me = s.me) (h2 : y.len = s.len) : XWritten y (y.setX d v).advance d v (s.pc + s.len) := by
  have := xWritten_advance y d v
  rwa [State.pc, h1, h2] at this

theorem start_cur (s : State) (h : Nat) (pc v : Word) : (s.startHelper h pc v).cur = s.cur := by
  unfold State.startHelper; dsimp only; exact (modGroup_frame _ _ _).1

theorem start_ctx (s : State) (h : Nat) (pc v : Word) : (s.startHelper h pc v).ctx ⟨s.cur.core, h⟩ =
   { startedCtx h pc [v] with slice := s.me.slice, deadline := s.me.deadline, budget := s.me.budget, group := s.me.group } := by
  unfold State.startHelper; dsimp only; rw [State.ctx_modGroup, State.ctx_modCtx_same]

theorem start_me (s : State) (h : Nat) (pc v : Word) (hne : h ≠ s.cur.ctx) : (s.startHelper h pc v).me = s.me := by
  rw [State.me, start_cur]
  unfold State.startHelper; dsimp only; rw [State.ctx_modGroup, State.ctx_modCtx, if_neg]; rfl
  intro h; exact hne (congrArg CtxId.ctx h).symm

theorem start_len (s : State) (h : Nat) (pc v : Word) : (s.startHelper h pc v).len = s.len := by
  unfold State.startHelper State.len; dsimp only; rw [(modGroup_frame _ _ _).2.1]; rfl

theorem group_setGroup (p : Partition) (g j : Nat) (v : Group) (h : v.members ≠ []) :
    (p.setGroup g v).group j = if j = g then v else p.group j := by
  unfold Partition.setGroup Partition.group
  rw [if_neg (by simpa using h)]
  split
  · rename_i h2; subst h2; simp
  · rename_i h2; simp only [smGet_smSet_other _ h2]

theorem homes_park (s : State) (i : CtxId) : Homes s (s.parkOwned i) := by
  unfold State.parkOwned
  refine homes_foldl _ (fun s a => ?_) _ _
  unfold State.modSlot
  refine Homes.trans ?_ (homes_modCluster _ _ _)
  obtain ⟨h1, h2, h3⟩ := logUndo_frame s i.core (.slot a.1 ((s.cluster (clusterOf i.core)).slot a.1).data ((s.cluster (clusterOf i.core)).slot a.1).res
            ((s.cluster (clusterOf i.core)).slot a.1).version ((s.cluster (clusterOf i.core)).slot a.1).owner
            ((s.cluster (clusterOf i.core)).slot a.1).status)
  exact ⟨h1, h2, h3⟩

theorem boundary_wait (s : State) (p : Nat) (h : (s.controlWaits p).all Wait.arrived = false) : s.completeBoundary p = s := by
  unfold State.completeBoundary; simp [h]

theorem sysWrite_eq (s : State) (w : WrKind) (d a n : Nat) (hw : s.me.canWrite d = true) :
   s.sysWrite w d a n = finish s (do
    s.crCheck n true
    s.crWait n
    let t ← s.writeCR n (formed w (s.readCR n) (s.x a))
    .ok ((t.setX d (s.readCR n)).advance.afterWrite n (formed w (s.readCR n) (s.x a)))) := by
  unfold State.sysWrite; simp only [bind, Except.bind, State.destX, need, hw, if_true]

theorem sysWrite_ok (s u : State) (w : WrKind) (d a n : Nat) (hw : s.me.canWrite d = true) (h1 : s.crCheck n true = .ok ()) (h2 : s.crWait n = .ok ())
    (h3 : s.writeCR n (formed w (s.readCR n) (s.x a)) = .ok u) : 
    s.sysWrite w d a n = .next ((u.setX d (s.readCR n)).advance.afterWrite n (formed w (s.readCR n) (s.x a))) := by
  rw [sysWrite_eq _ _ _ _ _ hw, h1]; simp only [bind, Except.bind, h2, h3, finish]

theorem xW_answered (b : State) (d : Nat) (v : Word) : XWritten (b.modMe fun c => { c with wait := .none }) (b.modMe fun x => x.answered d v) d v (b.pc + 4) := by
  have h := xWritten_setX (b.modMe fun c => { c with wait := .none }) d v (b.pc + 4)
  have e : (((b.modMe fun c => { c with wait := .none }).setX d v).setPc (b.pc + 4)) = b.modMe fun x => x.answered d v := by
    unfold State.setX State.setPc
    rw [State.modMe_modMe, State.modMe_modMe]
    apply State.modMe_congr
    unfold Ctx.answered
    simp only [Function.comp, Ctx.setX_pc]; rfl
  rwa [e] at h

theorem prog_frame (s : State) (n : Nat) : (s.progress n).me = s.me := (access_progress s n).frame.me

theorem xW_reply (b s : State) (d : Nat) (v : Word) (h : b.me = s.me) (hc : b.cur = s.cur) :
    XWritten ((b.commanded.progress s.cur.core).modMe fun c => { c with wait := .none }) (b.reply d v) d v (s.pc + 4) := by
  have hb : AccessFrame b b.commanded := (access_committed b b.req).frame
  have := xW_answered (b.commanded.progress b.cur.core) d v
  rw [State.pc, prog_frame, hb.me, h, hc] at this
  unfold State.reply; rw [hc]; exact this

theorem comm_modComm (s : State) (c j : Nat) (f : Committee → Committee) : (s.modComm c f).comm j = if j = c then f (s.comm c) else s.comm j := by
  unfold State.modComm State.comm; split
  · rename_i h; subst h; simp
  · rename_i h; simp only [smGet_smSet_other _ h]

theorem ctx_modCore_same (s : State) (n : Nat) (f : Core → Core) (h : ∀ c, (f c).ctxs = c.ctxs) (i : CtxId) : (s.modCore n f).ctx i = s.ctx i := by
  unfold State.ctx; rw [State.core_modCore]; split
  · rename_i hh; rw [hh]; unfold Core.ctx; rw [h]
  · rfl

theorem ctx_squash (s : State) (i j : CtxId) : (s.squash i).ctx j = s.ctx j := ctx_modCore_same s i.core (fun c => { c with queue := squashQueue i.ctx c.queue }) (fun _ => rfl) j

theorem core_modCtx_rest (s : State) (i : CtxId) (f : Ctx → Ctx) (n : Nat) : ((s.modCtx i f).core n).wpHit = (s.core n).wpHit := by
  unfold State.modCtx; rw [State.core_modCore]; split
  · rename_i h; rw [h]
  · rfl

theorem async_ctx (s : State) (i : CtxId) (p : Pending) :
   let s1 := s.modCtx i fun c => { c with pending := c.pending.filter fun q => q.cause != p.cause }
   let s2 := if p.cause = .watchpoint then s1.modCore i.core fun c => { c with wpHit := [], wpEng := [] } else s1
   let t := s2.takeCause i { cause := p.cause, tval := p.tval } true p.eng
   (∀ j, j ≠ i → t.ctx j = s.ctx j) ∧ (∀ pa, t.homeByte pa = s.homeByte pa) ∧
   (t.ctx i = (let c : Ctx := { s.ctx i with pending := (s.ctx i).pending.filter fun q => q.cause != p.cause, tfstat := (s.ctx i).tfstat, vregFault := if p.cause = Cause.vregFault then none else (s.ctx i).vregFault }
      if i.ctx = 0 then c.enter c.pc (causeWord p.cause true p.eng) p.tval 0 else c.hold (causeWord p.cause true p.eng) p.tval)) ∧
   (t.core i.core).wpHit = (if p.cause = .watchpoint then [] else (s.core i.core).wpHit) := by
  intro s1 s2 t
  have c2 : ∀ j, s2.ctx j = s1.ctx j := by
    intro j; show (if p.cause = .watchpoint then s1.modCore i.core fun c => { c with wpHit := [], wpEng := [] } else s1).ctx j = _
    split
    · exact ctx_modCore_same s1 i.core (fun c => { c with wpHit := [], wpEng := [] }) (fun _ => rfl) j
    · rfl
  refine ⟨fun j hj => ?_, fun pa => ?_, ?_, ?_⟩
  · show (State.takeCause _ _ _ _ _).ctx j = _
    unfold State.takeCause; dsimp only
    rw [State.ctx_modCtx, if_neg hj, ctx_squash, c2]; exact (State.ctx_modCtx _ _ _ _).trans (if_neg hj)
  · show (State.takeCause _ _ _ _ _).homeByte pa = _
    unfold State.takeCause; dsimp only
    show s2.homeByte pa = _
    show (if p.cause = .watchpoint then s1.modCore i.core fun c => { c with wpHit := [], wpEng := [] } else s1).homeByte pa = _
    split <;> rfl
  · show (State.takeCause _ _ _ _ _).ctx i = _
    unfold State.takeCause; dsimp only
    rw [State.ctx_modCtx_same, ctx_squash, c2, show s1.ctx i = _ from State.ctx_modCtx_same _ _ _]; rfl
  · show ((State.takeCause _ _ _ _ _).core i.core).wpHit = _
    unfold State.takeCause; dsimp only
    have := core_modCtx_rest
    rw [show ∀ (y : State) f, ((y.modCtx i f).core i.core).wpHit = (y.core i.core).wpHit from fun y f => this y i f i.core]
    unfold State.squash; rw [State.core_modCore_same]
    show (s2.core i.core).wpHit = _
    show ((if p.cause = .watchpoint then s1.modCore i.core fun c => { c with wpHit := [], wpEng := [] } else s1).core i.core).wpHit = _
    split
    · rw [State.core_modCore_same]
    · exact this s i _ i.core

theorem raise_pends (s : State) (i : CtxId) (c : Cause) (v : Word) (e : Option Nat) (h : (s.ctx i).life ≠ .free) : Pends s (s.raise i c v e) i c v e := by
  unfold State.raise
  have : ((s.ctx i).life == .free) = false := by simpa using h
  simp only [this, Bool.false_eq_true, if_false]
  exact ⟨State.ctx_modCtx_same _ _ _, ⟨fun j hj => (State.ctx_modCtx _ _ _ _).trans (if_neg (by simpa using hj)), fun _ => rfl⟩⟩

theorem raise_control (s : State) (core : Nat) (c : Cause) (v : Word) (e : Option Nat) : Pends s (s.raise ⟨core, 0⟩ c v e) ⟨core, 0⟩ c v e := by
  unfold State.raise
  have : (if ((s.ctx ⟨core, 0⟩).life == .free) = true then (⟨core, 0⟩ : CtxId) else ⟨core, 0⟩) = ⟨core, 0⟩ := by split <;> rfl
  dsimp only; rw [this]
  exact ⟨State.ctx_modCtx_same _ _ _, ⟨fun j hj => (State.ctx_modCtx _ _ _ _).trans (if_neg (by simpa using hj)), fun _ => rfl⟩⟩

theorem Pends.of {s u t : State} {i c v e} (h : Pends u t i c v e) (hc : ∀ j, u.ctx j = s.ctx j) (hm : ∀ pa, u.homeByte pa = s.homeByte pa) : Pends s t i c v e :=
  ⟨by rw [h.pending, hc], ⟨fun j hj => (h.rest.contexts j hj).trans (hc j), fun pa => (h.rest.memory pa).trans (hm pa)⟩⟩

theorem raise_part (s : State) (i : CtxId) (c : Cause) (v : Word) (e : Option Nat) : (s.raise i c v e).parts = s.parts := rfl

theorem raise_health (s : State) (i : CtxId) (c : Cause) (v : Word) (e : Option Nat) : (s.raise i c v e).health = s.health := rfl

theorem abort_idle (s : State) (p : Nat) (f : EngCmd → Bool) (h : ∀ n ∈ (s.part p).cores, (s.eng n 1).out = []) : s.abortWhere p f = s := by
  unfold State.abortWhere
  have : ∀ l : List Nat, (∀ n ∈ l, (s.eng n 1).out = []) → l.foldl (fun s n => (s.eng n 1).out.foldl (fun s k =>
    if k.phase = CmdPhase.waiting && f k then afterEvent s (execCollectiveAbort n k.ticket s) else s) s) s = s := by
    intro l
    induction l with
    | nil => intro _; rfl
    | cons a l ih =>
      intro hl
      rw [List.foldl_cons, hl a (by simp), List.foldl_nil]
      exact ih (fun n hn => hl n (by simp [hn]))
  exact this _ h

theorem sup_pends (s u : State) (p : Nat) (c : Cause) (v : Word) (e : Option Nat) (hc : ∀ j, u.ctx j = s.ctx j) (hm : ∀ pa, u.homeByte pa = s.homeByte pa)
    (hs : (u.part p).supervisor = (s.part p).supervisor) :
    Pends s (u.raiseSup p c v e) ⟨(s.part p).supervisor, 0⟩ c v e ∧ (∀ n, (u.raiseSup p c v e).part n = u.part n) := by
  constructor
  · unfold State.raiseSup; rw [hs]; exact (raise_control _ _ _ _ _).of hc hm
  · intro n; rfl

theorem retired_bits (s t : State) (page : Nat) (hm : t.mem = s.mem.set (retiredByte page) (s.mem.get (retiredByte page) ||| BitVec.ofNat 8 (2 ^ (page % 8)))) (hw : MemoryCanonical s) :
    t.isRetired page = true ∧ ∀ pg, pg ≠ page → t.isRetired pg = s.isRetired pg := by
  have tb : ∀ k : Nat, k < 8 → ∀ j, j < 8 → (BitVec.ofNat 8 (2 ^ k)).getLsbD j = decide (j = k) := by decide
  unfold State.isRetired
  rw [hm]
  constructor
  · rw [Memory.get_set hw, if_pos rfl, BitVec.getLsbD_or, tb _ (by omega) _ (by omega)]; simp
  · intro pg hp
    rw [Memory.get_set hw]
    split
    · rename_i h
      have h : pg / 8 = page / 8 := by unfold retiredByte at h; omega
      rw [BitVec.getLsbD_or, tb _ (by omega) _ (by omega), show retiredByte pg = retiredByte page by unfold retiredByte; rw [h]]
      have : decide (pg % 8 = page % 8) = false := by simp; omega
      rw [this, Bool.or_false]
    · rfl

theorem health_frame (s : State) : (∃ h e, s.updateHealth = { s with health := h, events := e }) := by
  unfold State.updateHealth; dsimp only; split
  · exact ⟨_, _, rfl⟩
  · exact ⟨_, s.events, rfl⟩

theorem writeRaw_bare (u : State) (a : Nat) (b : Byte) (h : u.parts = []) : ∃ c x, u.writeRaw a b = { u with mem := u.mem.set a b, clusters := c, texts := x } := by
  unfold State.writeRaw
  have : u.keepLine (a / 128) = u := by unfold State.keepLine; rw [h]; rfl
  rw [this, ite_self]
  obtain ⟨c, x, hc⟩ := u.noteWrite_spec a
  rw [hc]; exact ⟨c, x, rfl⟩

end Sys2Proof.Machine
end

