-- ==== Sys2Proof/Laws/Elements.lean ====
section
/-! SUPPORT. Elements of vectors: lists of elements and their joins, the element-wise pattern, and what a committed vector
instruction leaves. -/

namespace Sys2Proof.Machine

open Sys2Proof

/-! ## Elements and joins -/

theorem elemsOf_eq (w n v : Nat) : elemsOf w n v = (List.range n).map fun i => v / 2 ^ (w * i) % 2 ^ w := by
  induction n generalizing v with
  | zero => rfl
  | succ n ih =>
    rw [elemsOf, ih, List.range_succ_eq_map, List.map_cons, List.map_map]
    congr 1
    · simp
    · apply List.map_congr_left
      intro i _
      simp only [Function.comp, Nat.div_div_eq_div_mul, ← Nat.pow_add]
      rw [Nat.mul_succ, Nat.add_comm]

theorem vElems_eq (w : Nat) (v : BitVec 2048) : vElems w v = (List.range (2048 / w)).map (vElem w v) := elemsOf_eq _ _ _

theorem vElem_lt (w : Nat) (v : BitVec 2048) (i : Nat) : vElem w v i < 2 ^ w := bits_lt _ _ _

theorem joinElems_lt (w : Nat) (l : List Nat) : joinElems w l < 2 ^ (w * l.length) := by
  induction l with
  | nil => simp [joinElems]
  | cons e rest ih =>
    have h1 : e % 2 ^ w < 2 ^ w := Nat.mod_lt _ (Nat.two_pow_pos w)
    rw [joinElems, List.length_cons, Nat.mul_succ, Nat.pow_add]
    calc e % 2 ^ w + 2 ^ w * joinElems w rest < 2 ^ w + 2 ^ w * joinElems w rest := by omega
      _ = 2 ^ w * (joinElems w rest + 1) := by ring
      _ ≤ 2 ^ w * 2 ^ (w * rest.length) := Nat.mul_le_mul_left _ ih
      _ = 2 ^ (w * rest.length) * 2 ^ w := by ring

/-- Element `i` of a join. -/
theorem joinElems_elem (w : Nat) (l : List Nat) (i : Nat) (h : i < l.length) :
    joinElems w l / 2 ^ (w * i) % 2 ^ w = l[i] % 2 ^ w := by
  induction l generalizing i with
  | nil => cases h
  | cons e rest ih =>
    have hp : 0 < 2 ^ w := Nat.two_pow_pos w
    have h1 : e % 2 ^ w < 2 ^ w := Nat.mod_lt _ hp
    cases i with
    | zero =>
      simp only [joinElems, Nat.mul_zero, Nat.pow_zero, Nat.div_one, List.getElem_cons_zero]
      rw [Nat.add_mul_mod_self_left, Nat.mod_mod]
    | succ i =>
      simp only [joinElems, List.getElem_cons_succ]
      rw [← ih i (by simpa using h), Nat.mul_succ, Nat.add_comm (w * i) w, Nat.pow_add, ← Nat.div_div_eq_div_mul,
        Nat.add_mul_div_left _ _ hp, Nat.div_eq_of_lt h1, Nat.zero_add]

/-- Element `i` of a vector of elements. -/
theorem vElem_vJoin (w : Nat) (l : List Nat) (i : Nat) (h : i < l.length) (hl : w * l.length ≤ 2048) :
    vElem w (vJoin w l) i = l[i] % 2 ^ w := by
  have hlt := lt_of_lt_of_le (joinElems_lt w l) (Nat.pow_le_pow_right Nat.two_pos hl)
  rw [← joinElems_elem w l i h, vElem, bits, vJoin, BitVec.toNat_ofNat, Nat.mod_eq_of_lt hlt]

/-! ## The element-wise pattern -/

theorem mapLanes_spec (act : Nat → Bool) (w : Nat) (op : Nat → Nat → Nat → Nat × BitVec 5) (A B D : Nat → Nat) (n k : Nat) :
    mapLanes act w op k ((List.range n).map fun i => A (k + i)) ((List.range n).map fun i => B (k + i))
      ((List.range n).map fun i => D (k + i))
    = ((List.range n).map fun i => if act (w * (k + i)) then (op (A (k + i)) (B (k + i)) (D (k + i))).1 else D (k + i),
       flagsOf n fun i => if act (w * (k + i)) then (op (A (k + i)) (B (k + i)) (D (k + i))).2 else 0) := by
  induction n generalizing k with
  | zero => rfl
  | succ n ih =>
    have e : ∀ {β : Type} (f : Nat → β), ((List.range (n + 1)).map fun i => f (k + i)) = f k :: (List.range n).map fun i => f (k + 1 + i) := by
      intro β f
      rw [List.range_succ_eq_map, List.map_cons, List.map_map]
      congr 1
      apply List.map_congr_left; intro i _; simp only [Function.comp]; congr 1; omega
    rw [e A, e B, e D, e (fun j => if act (w * j) then (op (A j) (B j) (D j)).1 else D j)]
    have ef : (flagsOf (n + 1) fun i => if act (w * (k + i)) then (op (A (k + i)) (B (k + i)) (D (k + i))).2 else 0)
        = (if act (w * k) then (op (A k) (B k) (D k)).2 else 0)
          ||| flagsOf n fun i => if act (w * (k + 1 + i)) then (op (A (k + 1 + i)) (B (k + 1 + i)) (D (k + 1 + i))).2 else 0 := by
      unfold flagsOf
      rw [e (fun j => if act (w * j) then (op (A j) (B j) (D j)).2 else 0)]; rfl
    rw [ef, mapLanes, ih (k + 1)]
    split
    · rfl
    · simp

/-- The element-wise pattern over whole vectors. -/
theorem mapLanes_vectors (act : Nat → Bool) (w : Nat) (op : Nat → Nat → Nat → Nat × BitVec 5) (A B D : Nat → Nat) (n : Nat) :
    mapLanes act w op 0 ((List.range n).map A) ((List.range n).map B) ((List.range n).map D)
    = ((List.range n).map fun i => if act (w * i) then (op (A i) (B i) (D i)).1 else D i,
       flagsOf n fun i => if act (w * i) then (op (A i) (B i) (D i)).2 else 0) := by
  have := mapLanes_spec act w op A B D n 0
  simpa using this

/-! ## Committed vector work -/

theorem State.me_logUndo (s : State) (n : Nat) (u : Undo) (i : CtxId) : (s.logUndo n u).ctx i = s.ctx i := by
  unfold State.logUndo
  split
  · rfl
  · split
    · rfl
    · simp only [State.ctx, State.core_modCore]; split
      · rename_i h; rw [h]; rfl
      · rfl

theorem State.logUndo_rest (s : State) (n : Nat) (u : Undo) :
    (s.logUndo n u).cur = s.cur ∧ (s.logUndo n u).mods = s.mods ∧ (∀ pa, (s.logUndo n u).homeByte pa = s.homeByte pa) ∧
      ∀ m, ((s.logUndo n u).core m).queue = (s.core m).queue := by
  unfold State.logUndo
  split
  · exact ⟨rfl, rfl, fun _ => rfl, fun _ => rfl⟩
  · split
    · exact ⟨rfl, rfl, fun _ => rfl, fun _ => rfl⟩
    · refine ⟨rfl, rfl, fun _ => rfl, fun m => ?_⟩
      rw [State.core_modCore]; split
      · rename_i h; rw [h]
      · rfl

/-- Putting vector work into the queue, and going on. -/
theorem vecQueued_of (u s : State) (w : VecWork) (hc : s.cur = u.cur) (hx : ∀ i, i ≠ u.cur → s.ctx i = u.ctx i)
    (hq : s.myCore.queue = u.myCore.queue) (hm : ∀ pa, s.homeByte pa = u.homeByte pa) :
    VecQueued u ((s.enqueue (.vector w)).bodyAdvance) w := by
  have hcur : (s.enqueue (.vector w)).cur = s.cur := rfl
  refine ⟨?_, ?_, ?_⟩
  · simp only [State.myCore, State.bodyAdvance, State.modMe_cur, State.core_modMe, hcur, if_true]
    simp only [State.enqueue, State.core_modCore_same]
    rw [show (s.core s.cur.core).queue = u.myCore.queue from hq, hc]; rfl
  · intro i hi
    have hi' : i ≠ s.cur := by rw [hc]; exact hi
    rw [State.bodyAdvance, State.ctx_modMe_other _ _ (by rw [hcur]; exact hi')]
    have : (s.enqueue (.vector w)).ctx i = s.ctx i := by
      simp only [State.enqueue, State.ctx, State.core_modCore]; split
      · rename_i h; rw [h]; rfl
      · rfl
    rw [this, hx i hi]
  · intro pa
    simp only [State.bodyAdvance, State.homeByte_modMe, State.enqueue, State.homeByte_modCore, hm]

@[simp] theorem State.me_enqueue (s : State) (op : QOp) : (s.enqueue op).me = s.me := by
  simp only [State.enqueue, State.me, State.ctx, State.modCore_cur, State.core_modCore_same]; rfl

/-- The executing context after the same. -/
theorem me_vecQueued (s : State) (w : VecWork) : ((s.enqueue (.vector w)).bodyAdvance).me = s.me.bodyNext (s.len.toNat / 4) := by
  rw [State.bodyAdvance, State.me_modMe, State.me_enqueue]; rfl

theorem Ctx.bodyNext_other (c : Ctx) (n : Nat) : (c.bodyNext n).v = c.v ∧ (c.bodyNext n).p = c.p := by
  unfold Ctx.bodyNext
  split
  · exact ⟨rfl, rfl⟩
  · dsimp only
    split
    · split <;> exact ⟨rfl, rfl⟩
    · exact ⟨rfl, rfl⟩

theorem Ctx.bodyNext_setV (c : Ctx) (n : Nat) (m : SMap VState) : ({ c with v := m } : Ctx).bodyNext n = { c.bodyNext n with v := m } := by
  unfold Ctx.bodyNext Ctx.repActive
  rcases h1 : c.vrep.getLsbD 32 with _ | _ <;> by_cases h2 : bits c.vrep 48 4 + n = bits c.vrep 8 4 + 1 <;>
    by_cases h3 : bits c.vrep 40 6 + 1 < bits c.vrep 0 6 <;>
    simp only [h2, h3, Bool.not_true, Bool.not_false, Bool.false_eq_true, if_true, if_false]

theorem Ctx.bodyNext_setP (c : Ctx) (n : Nat) (m : SMap (BitVec 256)) :
    ({ c with p := m } : Ctx).bodyNext n = { c.bodyNext n with p := m } := by
  unfold Ctx.bodyNext Ctx.repActive
  rcases h1 : c.vrep.getLsbD 32 with _ | _ <;> by_cases h2 : bits c.vrep 48 4 + n = bits c.vrep 8 4 + 1 <;>
    by_cases h3 : bits c.vrep 40 6 + 1 < bits c.vrep 0 6 <;>
    simp only [h2, h3, Bool.not_true, Bool.not_false, Bool.false_eq_true, if_true, if_false]

/-- A vector register written by a committed vector instruction. -/
theorem vecResult_setV (u : State) (d : Nat) (data : BitVec 2048) (side : Option (BitVec 1280)) (w : VecWork) :
    VecResult u (((u.setV d data side).enqueue (.vector w)).bodyAdvance) d data (side.getD (u.vside d)) w := by
  obtain ⟨s, hs, hc, hmo, hx, hq, hm⟩ : ∃ s : State, u.setV d data side
      = s.modMe (fun c => { c with v := smSet c.v d (.resident data (side.getD (c.vpair d).2)) }) ∧ s.cur = u.cur ∧ s.mods = u.mods ∧
      (∀ i, s.ctx i = u.ctx i) ∧ s.myCore.queue = u.myCore.queue ∧ ∀ pa, s.homeByte pa = u.homeByte pa := by
    refine ⟨if u.cur.ctx = 0 then u.logUndo u.cur.core (.vreg d (u.me.vstate d)) else u, rfl, ?_⟩
    split
    · obtain ⟨h1, h2, h3, h4⟩ := u.logUndo_rest u.cur.core (.vreg d (u.me.vstate d))
      exact ⟨h1, h2, u.me_logUndo _ _, by rw [State.myCore, h1]; exact h4 _, h3⟩
    · exact ⟨rfl, rfl, fun _ => rfl, rfl, fun _ => rfl⟩
  have hme : s.me = u.me := by rw [State.me, State.me, hc, hx]
  have hlen : s.len = u.len := by rw [State.len, State.len, hmo]
  rw [hs]
  have hm2 := me_vecQueued (s.modMe fun c => { c with v := smSet c.v d (.resident data (side.getD (c.vpair d).2)) }) w
  rw [State.me_modMe, show (s.modMe _).len = s.len from rfl, hme, hlen, Ctx.bodyNext_setV] at hm2
  refine ⟨?_, ?_, ?_, vecQueued_of u _ w hc (fun i hi => ?_) ?_ hm⟩
  · rw [hm2]; simp [Ctx.vpair, Ctx.vstate, State.vside]
  · intro n hn; rw [hm2]; simp only [Ctx.vpair, Ctx.vstate, smGet_smSet_other _ hn]
  · rw [hm2]
  · rw [State.ctx_modMe_other _ _ (by rw [hc]; exact hi), hx]
  · rw [← hq]; simp only [State.myCore, State.modMe_cur, State.core_modMe, if_true]

/-- A predicate written by a committed vector instruction. -/
theorem predResult_setP (u : State) (d : Nat) (v : BitVec 256) (w : VecWork) :
    PredResult u (((u.setP d v).enqueue (.vector w)).bodyAdvance) d v w := by
  by_cases h : d = 0
  · have hm2 := me_vecQueued u w
    rw [State.setP, if_pos h]
    refine ⟨fun h' => absurd h h', fun n _ => ?_, ?_, vecQueued_of u u w rfl (fun _ _ => rfl) rfl (fun _ => rfl)⟩
    · rw [hm2]; simp only [Ctx.pred, (u.me.bodyNext_other _).2]
    · rw [hm2]
  · rw [State.setP, if_neg h]
    have hm2 := me_vecQueued (u.modMe fun c => { c with p := smSet c.p d v }) w
    rw [State.me_modMe, show (u.modMe _).len = u.len from rfl, Ctx.bodyNext_setP] at hm2
    refine ⟨fun _ => ?_, fun n hn => ?_, ?_, vecQueued_of u _ w rfl (fun i hi => State.ctx_modMe_other _ _ hi) ?_ (fun _ => rfl)⟩
    · rw [hm2]; simp [Ctx.pred, h]
    · rw [hm2]; simp only [Ctx.pred, smGet_smSet_other _ hn]
    · rw [hm2]
    · simp only [State.myCore, State.modMe_cur, State.core_modMe, if_true]

end Sys2Proof.Machine
end

