-- ==== Sys2Proof/Laws/Encode.lean ====
section
/-! SUPPORT. Fields, codes and immediates of instruction words: what a field read out and put back gives, in both directions. -/

namespace Sys2Proof

/-! ## Codes of types, and immediates put into a field -/

theorem T8.code_lt (t : T8) : t.code < 8 := by cases t <;> decide
theorem T8.ofCode_code (t : T8) : T8.ofCode t.code = some t := by cases t <;> rfl
theorem FTy.code_lt (t : FTy) : t.code < 4 := by cases t <;> decide
theorem FTy.ofCode_code (t : FTy) : FTy.ofCode t.code = some t := by cases t <;> rfl
theorem SFmt.code_lt (t : SFmt) : t.code < 4 := by cases t <;> decide
theorem SFmt.ofCode_code (t : SFmt) : SFmt.ofCode t.code = some t := by cases t <;> rfl
theorem CvtInt.code_lt (t : CvtInt) : t.code < 4 := by cases t <;> decide
theorem CvtInt.ofCode_code (t : CvtInt) : CvtInt.ofCode t.code = some t := by cases t <;> rfl
theorem LdTy.code_lt (t : LdTy) : t.code < 8 := by cases t <;> decide
theorem LdTy.ofCode_code (t : LdTy) : LdTy.ofCode t.code = some t := by cases t <;> rfl
theorem StTy.code_lt (t : StTy) : t.code < 4 := by cases t <;> decide
theorem StTy.ofCode_code (t : StTy) : StTy.ofCode t.code = some t := by cases t <;> rfl
theorem FpW.code_lt (t : FpW) : t.code < 4 := by cases t <;> decide
theorem FpW.ofCode_code (t : FpW) : FpW.ofCode t.code = some t := by cases t <;> rfl
theorem XTy.code_lt (t : XTy) : t.code < 4 := by cases t <;> decide
theorem XTy.ofCode_code (t : XTy) : XTy.ofCode t.code = some t := by cases t <;> rfl
theorem CvtPair.code_lt (t : CvtPair) : t.code < 16 := by cases t <;> decide
theorem CvtPair.ofCode_code (t : CvtPair) : CvtPair.ofCode t.code = some t := by cases t <;> rfl
theorem MmaPair.code_lt (t : MmaPair) : t.code < 16 := by cases t <;> decide
theorem MmaPair.ofCode_code (t : MmaPair) : MmaPair.ofCode t.code = some t := by cases t <;> rfl
theorem SpPair.code_lt (t : SpPair) : t.code < 8 := by cases t <;> decide
theorem SpPair.ofCode_code (t : SpPair) : SpPair.ofCode t.code = some t := by cases t <;> rfl
theorem DrainFmt.code_lt (t : DrainFmt) : t.code < 8 := by cases t <;> decide
theorem DrainFmt.ofCode_code (t : DrainFmt) : DrainFmt.ofCode t.code = some t := by cases t <;> rfl
theorem Eng.code_lt (t : Eng) : t.code < 8 := by cases t <;> decide
theorem Eng.ofCode_code (t : Eng) : Eng.ofCode t.code = some t := by cases t <;> rfl
theorem toNat_lt2 (b : Bool) : b.toNat < 2 := by cases b <;> decide
theorem ux_lt12 (i : Int) : ux 12 i < 4096 := by unfold ux; omega
theorem ux_lt16 (i : Int) : ux 16 i < 65536 := by unfold ux; omega
theorem ux_lt21 (i : Int) : ux 21 i < 2097152 := by unfold ux; omega
theorem ux_lt26 (i : Int) : ux 26 i < 67108864 := by unfold ux; omega
theorem sx_ux12 (i : Int) (h : -2048 ≤ i) (h2 : i < 2048) : sx 12 (ux 12 i) = i := by unfold sx ux; split <;> omega
theorem sx_ux16 (i : Int) (h : -32768 ≤ i) (h2 : i < 32768) : sx 16 (ux 16 i) = i := by unfold sx ux; split <;> omega
theorem sx_ux21 (i : Int) (h : -1048576 ≤ i) (h2 : i < 1048576) : sx 21 (ux 21 i) = i := by unfold sx ux; split <;> omega
theorem sx_ux26 (i : Int) (h : -33554432 ≤ i) (h2 : i < 33554432) : sx 26 (ux 26 i) = i := by unfold sx ux; split <;> omega
theorem bool_beq_one (b : Bool) : (b.toNat == 1) = b := by cases b <;> rfl

/-! ## Fields read out of a word -/

theorem only_eq {c : Bool} {i j : Instr} : only c i = some j ↔ c = true ∧ i = j := by cases c <;> simp [only]
theorem fld_toNat (w lo : Nat) : (fld w lo 1 == 1).toNat = fld w lo 1 := by
  have : fld w lo 1 < 2 := by unfold fld; omega
  rcases (by omega : fld w lo 1 = 0 ∨ fld w lo 1 = 1) with h | h <;> rw [h] <;> rfl
theorem ux_sx12 (w : Nat) : ux 12 (sx 12 (fld w 0 12)) = fld w 0 12 := by
  have : fld w 0 12 < 4096 := by unfold fld; omega
  unfold sx ux; split <;> omega
theorem ux_sx16 (w : Nat) : ux 16 (sx 16 (fld w 0 16)) = fld w 0 16 := by
  have : fld w 0 16 < 65536 := by unfold fld; omega
  unfold sx ux; split <;> omega
theorem ux_sx21 (w : Nat) : ux 21 (sx 21 (fld w 0 21)) = fld w 0 21 := by
  have : fld w 0 21 < 2097152 := by unfold fld; omega
  unfold sx ux; split <;> omega
theorem ux_sx26 (w : Nat) : ux 26 (sx 26 (fld w 0 26)) = fld w 0 26 := by
  have : fld w 0 26 < 67108864 := by unfold fld; omega
  unfold sx ux; split <;> omega
theorem rImm_sx12 (w : Nat) : rImm 12 (sx 12 (fld w 0 12)) = true := by
  have : fld w 0 12 < 4096 := by unfold fld; omega
  simp [rImm]; unfold sx; split <;> omega
theorem rImm_sx16 (w : Nat) : rImm 16 (sx 16 (fld w 0 16)) = true := by
  have : fld w 0 16 < 65536 := by unfold fld; omega
  simp [rImm]; unfold sx; split <;> omega
theorem rImm_sx21 (w : Nat) : rImm 21 (sx 21 (fld w 0 21)) = true := by
  have : fld w 0 21 < 2097152 := by unfold fld; omega
  simp [rImm]; unfold sx; split <;> omega
theorem rImm_sx26 (w : Nat) : rImm 26 (sx 26 (fld w 0 26)) = true := by
  have : fld w 0 26 < 67108864 := by unfold fld; omega
  simp [rImm]; unfold sx; split <;> omega
theorem T8.code_of_ofCode {n : Nat} {t : T8} (h : T8.ofCode n = some t) : t.code = n := by
  unfold T8.ofCode at h; split at h <;> cases h <;> rfl
theorem FTy.code_of_ofCode {n : Nat} {t : FTy} (h : FTy.ofCode n = some t) : t.code = n := by
  unfold FTy.ofCode at h; split at h <;> cases h <;> rfl
theorem SFmt.code_of_ofCode {n : Nat} {t : SFmt} (h : SFmt.ofCode n = some t) : t.code = n := by
  unfold SFmt.ofCode at h; split at h <;> cases h <;> rfl
theorem CvtInt.code_of_ofCode {n : Nat} {t : CvtInt} (h : CvtInt.ofCode n = some t) : t.code = n := by
  unfold CvtInt.ofCode at h; split at h <;> cases h <;> rfl
theorem LdTy.code_of_ofCode {n : Nat} {t : LdTy} (h : LdTy.ofCode n = some t) : t.code = n := by
  unfold LdTy.ofCode at h; split at h <;> cases h <;> rfl
theorem StTy.code_of_ofCode {n : Nat} {t : StTy} (h : StTy.ofCode n = some t) : t.code = n := by
  unfold StTy.ofCode at h; split at h <;> cases h <;> rfl
theorem FpW.code_of_ofCode {n : Nat} {t : FpW} (h : FpW.ofCode n = some t) : t.code = n := by
  unfold FpW.ofCode at h; split at h <;> cases h <;> rfl
theorem XTy.code_of_ofCode {n : Nat} {t : XTy} (h : XTy.ofCode n = some t) : t.code = n := by
  unfold XTy.ofCode at h; split at h <;> cases h <;> rfl
theorem CvtPair.code_of_ofCode {n : Nat} {t : CvtPair} (h : CvtPair.ofCode n = some t) : t.code = n := by
  unfold CvtPair.ofCode at h; split at h <;> cases h <;> rfl
theorem MmaPair.code_of_ofCode {n : Nat} {t : MmaPair} (h : MmaPair.ofCode n = some t) : t.code = n := by
  unfold MmaPair.ofCode at h; split at h <;> cases h <;> rfl
theorem SpPair.code_of_ofCode {n : Nat} {t : SpPair} (h : SpPair.ofCode n = some t) : t.code = n := by
  unfold SpPair.ofCode at h; split at h <;> cases h <;> rfl
theorem DrainFmt.code_of_ofCode {n : Nat} {t : DrainFmt} (h : DrainFmt.ofCode n = some t) : t.code = n := by
  unfold DrainFmt.ofCode at h; split at h <;> cases h <;> rfl
theorem Eng.code_of_ofCode {n : Nat} {t : Eng} (h : Eng.ofCode n = some t) : t.code = n := by
  unfold Eng.ofCode at h; split at h <;> cases h <;> rfl

theorem fld_lt (w lo n : Nat) : fld w lo n < 2 ^ n := Nat.mod_lt _ (Nat.pos_of_ne_zero (by simp))
theorem r5_fld (w lo : Nat) : r5 (fld w lo 5) = true := decide_eq_true (fld_lt w lo 5)
theorem r3_fld (w lo : Nat) : r3 (fld w lo 3) = true := decide_eq_true (fld_lt w lo 3)
theorem fld6 (w lo : Nat) : decide (fld w lo 6 < 2 ^ 6) = true := decide_eq_true (fld_lt w lo 6)
theorem fld12 (w lo : Nat) : decide (fld w lo 12 < 2 ^ 12) = true := decide_eq_true (fld_lt w lo 12)

end Sys2Proof
end

