-- ==== Sys2Proof/Laws/Partitions.lean ====
section
/-! SUPPORT. Operations over whole partitions, queues, host queue pairs, paired slices and migrations. -/

namespace Sys2Proof.Machine

open Sys2Proof

theorem foldl_modCore_rest (f : Nat → Core → Core) (l : List Nat) : ∀ s : State, ∃ c, l.foldl (fun s n => s.modCore n (f n)) s = { s with cores := c } := by
  induction l with
  | nil => intro s; exact ⟨s.cores, rfl⟩
  | cons a r ih => intro s; obtain ⟨c, h⟩ := ih (s.modCore a (f a)); exact ⟨c, h⟩

theorem foldl_modCore_core (f : Nat → Core → Core) (hf : ∀ n c, f n (f n c) = f n c) (l : List Nat) (m : Nat) : ∀ s : State,
    (l.foldl (fun s n => s.modCore n (f n)) s).core m = if m ∈ l then f m (s.core m) else s.core m := by
  induction l with
  | nil => intro s; simp
  | cons a r ih =>
    intro s
    rw [List.foldl_cons, ih, State.core_modCore]
    by_cases h : m = a
    · subst h; simp [hf]
    · simp [h]

theorem mapCores_rest (s : State) (p : Nat) (f : Nat → Core → Core) : ∃ c, s.mapCores p f = { s with cores := c } := foldl_modCore_rest f _ s

theorem mapCores_core (s : State) (p : Nat) (f : Nat → Core → Core) (hf : ∀ n c, f n (f n c) = f n c) (m : Nat) :
    (s.mapCores p f).core m = if m ∈ (s.part p).cores then f m (s.core m) else s.core m := foldl_modCore_core f hf _ m s

theorem mapCores_parts (s : State) (p : Nat) (f : Nat → Core → Core) : (s.mapCores p f).parts = s.parts := by
  obtain ⟨c, h⟩ := mapCores_rest s p f; rw [h]

theorem mapCores_mem (s : State) (p : Nat) (f : Nat → Core → Core) : (s.mapCores p f).mem = s.mem := by
  obtain ⟨c, h⟩ := mapCores_rest s p f; rw [h]

theorem foldl_modCluster_rest (f : Cluster → Cluster) (l : List Nat) : ∀ s : State, ∃ c, l.foldl (fun s n => s.modCluster n f) s = { s with clusters := c } := by
  induction l with
  | nil => intro s; exact ⟨s.clusters, rfl⟩
  | cons a r ih => intro s; obtain ⟨c, h⟩ := ih (s.modCluster a f); exact ⟨c, h⟩

theorem mapClusters_rest (s : State) (p : Nat) (f : Cluster → Cluster) : ∃ c, s.mapClusters p f = { s with clusters := c } := foldl_modCluster_rest f _ s

theorem resume_idem (c : Ctx) : c.resume.resume = c.resume := by
  unfold Ctx.resume; split <;> simp_all

theorem stop_idem (c : Ctx) : c.stop.stop = c.stop := by
  unfold Ctx.stop; split <;> simp_all

theorem mapCtxs_idem (f : Ctx → Ctx) (hf : ∀ c, f (f c) = f c) (c : Core) : (c.mapCtxs f).mapCtxs f = c.mapCtxs f := by
  simp only [Core.mapCtxs, List.map_map]
  congr 2
  funext e; simp [Function.comp, hf]

theorem ring_clear (s : State) (p c : Nat) (h : (s.part p).stopped = none ∧ (s.part p).ringing = none) : (s.ring p c).part p = { s.part p with ringing := some c } := by
  unfold State.ring; rw [State.part_modPart_same]; simp [h]

theorem smGet_erase_other {α : Type} (m : SMap α) (k n : Nat) (d : α) (h : n ≠ k) : smGet (smErase m k) n d = smGet m n d := by
  induction m with
  | nil => rfl
  | cons e r ih =>
    obtain ⟨j, v⟩ := e
    unfold smErase at ih ⊢
    by_cases hj : j = k
    · subst hj; simpa [smGet, Ne.symm h] using ih
    · simp [hj, smGet, ih]

structure Quiet (s t : State) : Prop where
  events : t.events = s.events
  parts : ∀ p, (t.part p).besidesAccess = (s.part p).besidesAccess
  life : ∀ i, (t.ctx i).life = (s.ctx i).life

theorem Quiet.refl (s : State) : Quiet s s := ⟨rfl, fun _ => rfl, fun _ => rfl⟩

theorem Quiet.trans {s t u : State} (h : Quiet s t) (k : Quiet t u) : Quiet s u :=
  ⟨k.events.trans h.events, fun p => (k.parts p).trans (h.parts p), fun i => (k.life i).trans (h.life i)⟩

theorem quiet_foldl {α : Type} (f : State → α → State) (hf : ∀ s a, Quiet s (f s a)) (l : List α) : ∀ s, Quiet s (l.foldl f s) := by
  induction l with
  | nil => intro s; exact Quiet.refl s
  | cons a r ih => intro s; exact (hf s a).trans (ih _)

theorem quiet_access {s t : State} (h : Access s t) : Quiet s t :=
  ⟨(by show t.besidesAccess.events = s.besidesAccess.events; rw [h.frame.device]), h.frame.parts, fun i => by rw [h.frame.ctx]⟩

theorem quiet_modCluster (s : State) (n : Nat) (f : Cluster → Cluster) : Quiet s (s.modCluster n f) := ⟨rfl, fun _ => rfl, fun _ => rfl⟩

theorem quiet_modSlot (s : State) (c n : Nat) (f : Slot → Slot) : Quiet s (s.modSlot c n f) := by
  unfold State.modSlot; dsimp only
  exact Quiet.trans (quiet_access (access_logUndo s c _)) (quiet_modCluster _ (clusterOf c) (fun c => { c with slots := smSet c.slots n _ }))

theorem quiet_modCtx (s : State) (i : CtxId) (f : Ctx → Ctx) (h : ∀ c, (f c).life = c.life) : Quiet s (s.modCtx i f) :=
  ⟨rfl, fun _ => rfl, fun j => by rw [State.ctx_modCtx]; split
                                  · rename_i e; rw [e, h]
                                  · rfl⟩

theorem quiet_finish (s : State) (cl : Nat) : Quiet s (s.finishBound cl) := by
  unfold State.finishBound
  dsimp only
  refine Quiet.trans (quiet_foldl _ ?_ _ s) (quiet_foldl _ ?_ _ _)
  · intro s k
    show Quiet s (afterEvent s (execVectorCompletion cl k s))
    unfold execVectorCompletion
    split
    · exact Quiet.refl s
    · rename_i w _
      exact Quiet.trans (quiet_modCluster s cl (fun c => { c with lanes := smErase c.lanes k }))
        (quiet_modCtx _ ⟨w.core, w.ctx⟩ (fun c => { c with vstat := orFlags c.vstat w.work.flags }) (fun _ => rfl))
  · intro s _
    show Quiet s (afterEvent s (execMatrixCompletion cl 0 s))
    unfold execMatrixCompletion
    dsimp only
    split
    · exact Quiet.refl s
    · split
      · exact Quiet.refl s
      · rename_i w _ _
        exact Quiet.trans (quiet_modSlot s w.core w.slot (fun t => t.complete w.op (w.core % 4, w.ctx))) (quiet_modCluster _ cl (fun c => { c with mat := c.mat.eraseIdx 0 }))

theorem quiet_record (s : State) (p : Nat) : Quiet s (s.recordCounts p) := by
  unfold State.recordCounts
  dsimp only
  have h0 : ∀ l b, Quiet s (s.freeCounts l b).2 := fun _ _ => ⟨rfl, fun _ => rfl, fun _ => rfl⟩
  refine (h0 _ _).trans (quiet_foldl _ ?_ _ _)
  intro s e
  refine ⟨rfl, fun _ => rfl, fun i => ?_⟩
  unfold State.ctx; rw [State.core_modCore]; split
  · rename_i h; rw [h]; rfl
  · rfl

theorem quiet_bells (s : State) (p : Nat) : Quiet s (s.writeBellRecords p) := by
  unfold State.writeBellRecords
  dsimp only
  split
  · exact Quiet.refl s
  · have h : ∀ (s : State) l, Quiet s (s.nocacheWrite l) := fun s l =>
      (quiet_access (access_writeCells _ s)).trans ⟨rfl, fun _ => rfl, fun _ => rfl⟩
    exact quiet_foldl _ (fun s e => h s _) _ _

theorem cores_of {a b : Machine.Partition} (h : a.besidesAccess = b.besidesAccess) : a.cores = b.cores := by
  have : a.besidesAccess.cores = b.besidesAccess.cores := by rw [h]
  exact this

theorem bits_bellAfter (b : Word) (c : Nat) : bits (bellAfter b c) 8 4 = c % 16 ∧ bits (bellAfter b c) 16 32 = (bits b 16 32 + 1) % 2 ^ 32 := by
  unfold bellAfter
  constructor
  · rw [bits_putBits_other _ _ _ _ _ _ (by omega) (by omega), bits_putBits_same _ _ _ _ (by omega)]; rfl
  · rw [bits_putBits_same _ _ _ _ (by omega)]

theorem stop_spec (s : State) (p c : Nat) (h2 : c ≠ 2) (h3 : c ≠ 3) :
    let t := s.stopFor p c
    (∃ u : State, Quiet s u ∧ ∃ w : State, Quiet (u.mapCores p fun _ c => c.mapCtxs Ctx.stop) w ∧ ∃ cl, t = ((({ (w.modPart p fun q => { q with bell := bellAfter q.bell c, stopped := some c, ringing := none, stopTime := w.time }) with clusters := cl } : State)).report ⟨5, some p, c, none⟩)) := by
  intro t
  refine ⟨(s.part p).clusters.foldl (fun s c => s.finishBound c) s, quiet_foldl _ (fun s c => quiet_finish s c) _ s, ?_⟩
  refine ⟨_, (quiet_record _ p).trans (quiet_bells _ p), ?_⟩
  have e : t = s.stopFor p c := rfl
  unfold State.stopFor at e
  dsimp only at e
  rw [if_neg (by simp [h2, h3] : ¬ (c = 2 || c = 3) = true)] at e
  split at e
  · obtain ⟨cl, hcl⟩ := mapClusters_rest ((State.writeBellRecords _ p).modPart p _) p Cluster.parkAll
    refine ⟨cl, ?_⟩
    rw [e, ← hcl]
  · exact ⟨_, e⟩

theorem finish_next (s : State) (r : Except Stop State) : ∃ t, finish s r = .next t := by
  unfold finish; split
  · exact ⟨_, rfl⟩
  · exact ⟨_, rfl⟩
  · exact ⟨_, rfl⟩

theorem heatCopy_spec (s : State) (a b : Nat) : ∃ h, s.heatCopy a b = { s with heatDue := h } := by
  unfold State.heatCopy
  generalize List.range 512 = l
  induction l generalizing s with
  | nil => exact ⟨s.heatDue, rfl⟩
  | cons x r ih =>
    obtain ⟨h1, e1⟩ := s.heat_spec (a * 65536)
    obtain ⟨h2, e2⟩ := (s.heat (a * 65536)).heat_spec (b * 65536)
    obtain ⟨h3, e3⟩ := ih ((s.heat (a * 65536)).heat (b * 65536))
    exact ⟨h3, by rw [List.foldl_cons, e3, e2, e1]⟩

theorem answerAll_comms (s : State) (sel : Nat → Wait → Option (Ctx → Ctx)) : (s.answerAll sel).comms = s.comms := by
  unfold State.answerAll
  dsimp only
  have : ∀ (l : List Nat) (t : State), (l.foldl (fun s c => s.progress c) t).comms = t.comms := by
    intro l
    induction l with
    | nil => intro t; rfl
    | cons a r ih => intro t; rw [List.foldl_cons, ih]; obtain ⟨p, e⟩ := t.progress_spec a; rw [e]
  rw [this]

/-- Lines, accumulators and write sets moved to a page's new homes leave every context and every migration. -/
theorem moveHomes_rest (v : State) (p a b : Nat) : (v.moveHomes p a b).migrations = v.migrations ∧ ∀ i, (v.moveHomes p a b).ctx i = v.ctx i := by
  refine ⟨rfl, fun i => ?_⟩
  unfold State.moveHomes
  dsimp only
  show (smGet (v.cores.map fun c : Nat × Core => (c.1, ({ c.2 with writeSet := c.2.writeSet.map _ } : Core))) i.core {}).ctx i.ctx = _
  generalize (fun d : Deferred => if d.pa / 65536 = a then
      ({ d with pa := movePage a b 65536 d.pa, place := v.homeAfter p d.place (movePage a b 65536 d.pa) } : Deferred) else d) = f
  rw [smGet_map v.cores (fun c : Core => { c with writeSet := c.writeSet.map f }) i.core {} rfl]
  rfl

/-- A migration's copies leave every context and every migration. -/
theorem mig_rest (s : State) (l1 l2 : List Host.Cell) (p a b : Nat) :
    ((((s.writeCells l1).moveHomes p a b).heatCopy a b).writeCells l2).migrations = s.migrations ∧
    ∀ i, ((((s.writeCells l1).moveHomes p a b).heatCopy a b).writeCells l2).ctx i = s.ctx i := by
  have hw : ∀ (v : State) l, (v.writeCells l).migrations = v.migrations ∧ ∀ i, (v.writeCells l).ctx i = v.ctx i := by
    intro v l; obtain ⟨p, c, x, e⟩ := v.writeCells_spec l; rw [e]; exact ⟨rfl, fun _ => rfl⟩
  have hh : ∀ (v : State), (v.heatCopy a b).migrations = v.migrations ∧ ∀ i, (v.heatCopy a b).ctx i = v.ctx i := by
    intro v; obtain ⟨p, e⟩ := heatCopy_spec v a b; rw [e]; exact ⟨rfl, fun _ => rfl⟩
  refine ⟨?_, fun i => ?_⟩
  · rw [(hw _ _).1, (hh _).1, (moveHomes_rest _ _ _ _).1, (hw _ _).1]
  · rw [(hw _ _).2, (hh _).2, (moveHomes_rest _ _ _ _).2, (hw _ _).2]

/-- The lines of a migration's pages written back leave every context and every migration. -/
theorem dropPages_rest (l : List Nat) (s : State) : (l.foldl State.dropL2 s).migrations = s.migrations ∧
    (l.foldl State.dropL2 s).mem = s.mem ∧ ∀ i, (l.foldl State.dropL2 s).ctx i = s.ctx i := by
  induction l generalizing s with
  | nil => exact ⟨rfl, rfl, fun _ => rfl⟩
  | cons n rest ih =>
    obtain ⟨m, h, e⟩ := s.dropL2_spec n
    obtain ⟨h1, h2, h3⟩ := ih (s.dropL2 n)
    rw [List.foldl_cons]
    exact ⟨by rw [h1, e], by rw [h2, e], fun i => by rw [h3, e]; rfl⟩

theorem pair_modPair (s : State) (p q : Nat) (f : HostPair → HostPair) (h : (s.part p).live = true) :
    s.modPair p q f = s.modPart p (fun x => { x with pairs := smSet x.pairs q (f (smGet x.pairs q {})) }) := by
  unfold State.modPair State.modFunction; rw [if_pos h]

theorem pair_of (s : State) (p q : Nat) (f : HostPair → HostPair) (h : (s.part p).live = true) : (s.modPair p q f).pair p q = f (s.pair p q) := by
  rw [pair_modPair s p q f h]
  unfold State.pair
  rw [State.part_modPart_same]; simp

theorem consume_parts (s : State) (p : SMap Machine.Partition) (n : Nat) : ∀ h, ({ s with parts := p } : State).consume h n = s.consume h n := by
  induction n with
  | zero => intro h; rfl
  | succ n ih =>
    intro h
    unfold State.consume
    have : ({ s with parts := p } : State).nextSub h = s.nextSub h := rfl
    rw [this]; dsimp only
    split
    · rfl
    · split
      · exact ih _
      · rfl

theorem live_modPair (s : State) (p q : Nat) (f : HostPair → HostPair) (h : (s.part p).live = true) : ((s.modPair p q f).part p).live = true := by
  rw [pair_modPair s p q f h, State.part_modPart_same]; exact h

theorem progress_part (v : State) (n p : Nat) : ((v.progress n).part p).pairs = (v.part p).pairs ∧ ((v.progress n).part p).msix = (v.part p).msix ∧
    (∀ i, (v.progress n).ctx i = v.ctx i) ∧ (v.progress n).hostMem = v.hostMem := by
  have h := (access_progress v n).frame
  refine ⟨?_, ?_, h.ctx, ?_⟩
  · exact show (Machine.Partition.besidesAccess _).pairs = (Machine.Partition.besidesAccess _).pairs by rw [h.parts p]
  · exact show (Machine.Partition.besidesAccess _).msix = (Machine.Partition.besidesAccess _).msix by rw [h.parts p]
  · obtain ⟨p, e⟩ := v.progress_spec n; rw [e]

structure Keeps (s t : State) : Prop where
  cores : ∀ n, (t.core n).slices = (s.core n).slices
  parts : ∀ n, (t.part n).queues = (s.part n).queues

theorem Keeps.refl (s : State) : Keeps s s := ⟨fun _ => rfl, fun _ => rfl⟩

theorem Keeps.trans {s t u : State} (a : Keeps s t) (b : Keeps t u) : Keeps s u :=
  ⟨fun n => (b.cores n).trans (a.cores n), fun n => (b.parts n).trans (a.parts n)⟩

theorem keeps_modPart (s : State) (n : Nat) (f : Machine.Partition → Machine.Partition) (h : (f (s.part n)).queues = (s.part n).queues) : Keeps s (s.modPart n f) := by
  refine ⟨fun _ => rfl, fun m => ?_⟩
  rw [State.part_modPart]; split
  · rename_i e; rw [h, e]
  · rfl

theorem keeps_modCluster (s : State) (n : Nat) (f : Cluster → Cluster) : Keeps s (s.modCluster n f) := ⟨fun _ => rfl, fun _ => rfl⟩

theorem keeps_modCore (s : State) (m : Nat) (f : Core → Core) (hf : (f (s.core m)).slices = (s.core m).slices) : Keeps s (s.modCore m f) := by
  refine ⟨fun n => ?_, fun _ => rfl⟩
  rw [State.core_modCore]; split
  · rename_i h; rw [h, hf]
  · rfl

theorem keeps_modCtx (s : State) (i : CtxId) (f : Ctx → Ctx) : Keeps s (s.modCtx i f) := keeps_modCore s i.core _ rfl

theorem keeps_foldl {α : Type} (f : State → α → State) (h : ∀ s a, Keeps s (f s a)) (l : List α) : ∀ s, Keeps s (l.foldl f s) := by
  induction l with
  | nil => exact Keeps.refl
  | cons a l ih => intro s; exact (h s a).trans (ih _)

theorem keeps_close (s : State) (p g b : Nat) : Keeps s (s.closeEpisode p g b) := by
  unfold State.closeEpisode; dsimp only; split
  · exact Keeps.refl _
  · split
    · exact (keeps_modPart _ _ _ rfl).trans (keeps_foldl _ (fun s a => keeps_modCtx _ _ _) _ _)
    · exact Keeps.refl _

theorem keeps_depart (s : State) (p : Nat) (i : CtxId) (g : Nat) : Keeps s (s.depart p i g) := by
  unfold State.depart; exact (keeps_modPart _ _ _ rfl).trans (keeps_foldl _ (fun s a => keeps_close _ _ _ _) _ _)

theorem keeps_free (s : State) (i : CtxId) : Keeps s (s.freeCtx i) := by
  unfold State.freeCtx State.departAll State.dropInstances
  exact ((keeps_foldl _ (fun s a => keeps_depart _ _ _ _) _ _).trans (keeps_modCluster _ _ _)).trans (keeps_modCtx _ _ _)

theorem keeps_makeFree (s : State) (i : CtxId) : Keeps s (s.makeFree i) := by
  unfold State.makeFree
  exact ((keeps_modCore _ _ _ rfl).trans (keeps_modCluster _ _ _)).trans (keeps_free _ _)

theorem readWords_ctx (s u : State) (rq : Req) (a n : Nat) (w : List Nat) (h : s.readWords rq a n = .ok (w, u)) : AccessFrame s u := by
  unfold State.readWords at h
  cases hl : s.loadBytes rq (vaRange a (8 * n)) with
  | error e => rw [hl] at h; cases h
  | ok r =>
    rw [hl] at h
    obtain ⟨l, v⟩ := r
    cases h
    exact (access_loadBytes s u rq _ l hl).frame

theorem readHead_ctx (s : State) (p q : Nat) (i : CtxId) (hi : i.ctx ≠ 0) : (s.readHead p q).ctx i = s.ctx i := by
  unfold State.readHead
  split
  · rfl
  · rename_i x hx
    split
    · rfl
    · split
      · rename_i r hr
        unfold State.stopQueue State.queueFault State.raiseSup State.raise
        rw [State.ctx_modCtx, if_neg]
        · rfl
        · intro e; split at e <;> (rw [e] at hi; exact hi rfl)
      · rename_i l t u hr
        show u.ctx i = _
        unfold State.readLaunch at hr
        split at hr
        · cases hr
        · rename_i w v hw
          have f1 := readWords_ctx _ _ _ _ _ _ hw
          split at hr
          · cases hr
          · split at hr
            · cases hr
            · split at hr
              · cases hr
              · rename_i w2 v2 hw2
                have f2 := readWords_ctx _ _ _ _ _ _ hw2
                split at hr
                · cases hr
                · split at hr
                  · cases hr
                  · cases hr
                    rw [f2.ctx, f1.ctx]

theorem newHead_ctx (s : State) (p q : Nat) (i : CtxId) (hi : i.ctx ≠ 0) : (s.newHead p q).ctx i = s.ctx i := by
  unfold State.newHead
  split
  · rfl
  · dsimp only
    split
    · rfl
    · rw [readHead_ctx _ _ _ _ hi]; rfl

theorem ctx_push (s : State) (m : Move) (i : CtxId) : (s.pushMove m).ctx i = s.ctx i := rfl

theorem modGroup_rest (s : State) (i : CtxId) (f : SliceGroup → SliceGroup) : ∃ c, s.modGroup i f = { s with cores := c } := by
  unfold State.modGroup; split
  · exact ⟨s.cores, rfl⟩
  · exact ⟨_, rfl⟩

theorem holdGroup_rest (s : State) (i : CtxId) : ∃ c p, s.holdGroup i = { s with cores := c, parts := p } := by
  unfold State.holdGroup; split
  · exact ⟨s.cores, s.parts, rfl⟩
  · rename_i g hg
    dsimp only
    have : ∀ (l : List Nat) (t : State), ∃ c, l.foldl (fun s h => (s.squash ⟨i.core, h⟩).modCtx ⟨i.core, h⟩ fun c => { c with life := .held, wait := .none }) t = { t with cores := c } := by
      intro l; induction l with
      | nil => intro t; exact ⟨t.cores, rfl⟩
      | cons a r ih => intro t; obtain ⟨c, e⟩ := ih ((t.squash ⟨i.core, a⟩).modCtx ⟨i.core, a⟩ fun c => { c with life := .held, wait := .none }); exact ⟨c, by rw [List.foldl_cons, e]; rfl⟩
    obtain ⟨c1, e1⟩ := this g.members s
    rw [e1]
    obtain ⟨c2, e2⟩ := modGroup_rest ({ s with cores := c1 } : State) i (fun g => { g with mismatch := true })
    exact ⟨c2, _, by rw [e2]; rfl⟩

theorem core_modQueue (s : State) (p q n : Nat) (f : Queue → Queue) : (s.modQueue p q f).core n = s.core n := rfl

theorem ctx_modQueue (s : State) (p q : Nat) (i : CtxId) (f : Queue → Queue) : (s.modQueue p q f).ctx i = s.ctx i := rfl

theorem addSkips_rest (s : State) (p q : Nat) (c : List (Nat × Queue × LaunchProg)) : ∃ ps, s.addSkips p q c = { s with parts := ps } := by
  unfold State.addSkips
  dsimp only
  have : ∀ (l : List (Nat × Queue × LaunchProg)) (f : (Nat × Queue × LaunchProg) → Queue → Queue) (t : State), ∃ ps, l.foldl (fun s c => s.modQueue p c.1 (f c)) t = { t with parts := ps } := by
    intro l f; induction l with
    | nil => intro t; exact ⟨t.parts, rfl⟩
    | cons a r ih => intro t; obtain ⟨c, e⟩ := ih (t.modQueue p a.1 (f a)); exact ⟨c, by rw [List.foldl_cons, e]; rfl⟩
  obtain ⟨ps, e⟩ := this (c.filter fun c => c.1 != q) (fun c x => { x with skip := min 64 (x.skip + 1), urgent := if min 64 (x.skip + 1) = 64 && x.urgent.isNone then some (s.part p).urgentNext else x.urgent }) (s.modPart p fun pt => { pt with urgentNext := (s.part p).urgentNext + 1 })
  exact ⟨ps, e⟩

theorem fits_parts (s : State) (ps : SMap Machine.Partition) (core : Nat) (t : TaskType) : ({ s with parts := ps } : State).fits core t = s.fits core t := rfl

theorem afterPlacement_ctx (s : State) (p q : Nat) (i : CtxId) (hi : i.ctx ≠ 0) : (s.afterPlacement p q).ctx i = s.ctx i := by
  unfold State.afterPlacement
  split
  · rfl
  · split
    · split
      · rw [newHead_ctx _ _ _ _ hi]; rfl
      · rfl
    · rfl

end Sys2Proof.Machine
end

