-- ==== Sys2Proof/Laws/Pool.lean ====
section
/-! SUPPORT. The vector register pool: what bringing registers in and spilling others leaves. -/

namespace Sys2Proof.Machine

open Sys2Proof

theorem PoolFrame.refl (s : State) : PoolFrame s s := ⟨fun _ => rfl, fun _ => rfl, fun _ => rfl, fun _ => rfl, rfl⟩

theorem PoolFrame.trans {s t u : State} (h : PoolFrame s t) (k : PoolFrame t u) : PoolFrame s u :=
  ⟨fun i => (k.contexts i).trans (h.contexts i), fun n => (k.cores n).trans (h.cores n), fun n => (k.clusters n).trans (h.clusters n),
    fun n => (k.parts n).trans (h.parts n), k.device.trans h.device⟩

theorem PoolFrame.cur {s u : State} (h : PoolFrame s u) : u.cur = s.cur :=
  show u.besidesAccess.cur = s.besidesAccess.cur by rw [h.device]

/-- A change of where one context's registers stand. -/
theorem poolFrame_modCtx (s : State) (i : CtxId) (f : Ctx → Ctx)
    (h : ({ f (s.ctx i) with v := [], vregFault := none } : Ctx) = { s.ctx i with v := [], vregFault := none }) :
    PoolFrame s (s.modCtx i f) := by
  refine ⟨fun j => ?_, fun n => ?_, fun _ => rfl, fun _ => rfl, rfl⟩
  · rw [State.ctx_modCtx]; split
    · rename_i e; rw [e, h]
    · rfl
  · rw [State.modCtx, State.core_modCore]; split
    · rename_i e; rw [e]; rfl
    · rfl

/-- An access leaves every context. -/
theorem PoolFrame.ofAccess {s u : State} (h : AccessFrame s u) : PoolFrame s u :=
  ⟨fun i => by rw [h.ctx], fun n => by rw [h.cores], h.clusters, h.parts, h.device⟩

theorem poolFrame_drawn (s : State) : PoolFrame s s.drawn := .ofAccess (access_drawn s).frame

/-- A spill either is abandoned and leaves its owner a VREG_FAULT, or stores the register (R89). -/
theorem spillOne_cases (s : State) (i : CtxId) (n : Nat) :
    (∃ v : Ctx → Word × Option Word, s.spillOne i n = s.modCtx i fun c => { c with vregFault := some (v c) }) ∨
    (∃ t, AccessFrame s t ∧ s.spillOne i n = t.modCtx i fun c => { c with v := smSet c.v n .spilled }) := by
  unfold State.spillOne
  dsimp only
  split
  · rename_i e _
    exact .inl ⟨fun c => (word (c.backing n), e.spillStat), rfl⟩
  · rename_i t ht
    exact .inr ⟨t, (access_storeBytes _ _ _ _ _ ht).frame, rfl⟩

theorem poolFrame_spillOne (s : State) (i : CtxId) (n : Nat) : PoolFrame s (s.spillOne i n) := by
  obtain ⟨v, e⟩ | ⟨t, h, e⟩ := spillOne_cases s i n
  · rw [e]; exact poolFrame_modCtx _ _ _ rfl
  · rw [e]; exact (PoolFrame.ofAccess h).trans (poolFrame_modCtx _ _ _ rfl)

/-- The registers of a list that are resident keep their contents. -/
def KeepsResident (keep : List (CtxId × Nat)) (s u : State) : Prop :=
  ∀ e ∈ keep, ∀ d sd, (s.ctx e.1).vstate e.2 = .resident d sd → (u.ctx e.1).vstate e.2 = .resident d sd

theorem KeepsResident.refl (keep : List (CtxId × Nat)) (s : State) : KeepsResident keep s s := fun _ _ _ _ h => h

theorem KeepsResident.trans {keep : List (CtxId × Nat)} {s t u : State} (h : KeepsResident keep s t) (k : KeepsResident keep t u) :
    KeepsResident keep s u := fun e he d sd hd => k e he d sd (h e he d sd hd)

theorem keepsResident_spillOne (s : State) (i : CtxId) (n : Nat) (keep : List (CtxId × Nat)) (h : (i, n) ∉ keep) :
    KeepsResident keep s (s.spillOne i n) := by
  intro e he d sd hd
  have hne : e ≠ (i, n) := fun hh => h (hh ▸ he)
  obtain ⟨v, q⟩ | ⟨t, ht, q⟩ := spillOne_cases s i n
  · rw [q, State.ctx_modCtx]; split
    · rename_i hh; rw [← hh]; exact hd
    · exact hd
  · rw [q, State.ctx_modCtx]
    split
    · rename_i hh
      have hn : e.2 ≠ n := fun h2 => hne (Prod.ext hh h2)
      rw [← hh, ht.ctx]
      simp only [Ctx.vstate, smGet_smSet_other _ hn]; exact hd
    · rw [ht.ctx]; exact hd

theorem victims_not_kept (s : State) (cl : Nat) (keep : List (CtxId × Nat)) (e : CtxId × Nat) (h : e ∈ s.victims cl keep) : e ∉ keep := by
  unfold State.victims at h
  obtain ⟨i, -, hi⟩ := List.mem_flatMap.1 h
  dsimp only at hi
  split at hi
  · cases hi
  · have := (List.mem_filter.1 hi).2
    simpa using this

/-- Making room. -/
theorem makeRoom_spec (fuel : Nat) (s u : State) (cl : Nat) (keep : List (CtxId × Nat)) (h : s.makeRoom cl keep fuel = .ok u) :
    PoolFrame s u ∧ KeepsResident keep s u := by
  induction fuel generalizing s keep with
  | zero => cases h
  | succ n ih =>
    unfold State.makeRoom at h
    split at h
    · cases h
      exact ⟨.refl _, .refl _ _⟩
    · dsimp only at h
      split at h
      · cases h
      · rename_i i m hg
        have hk := victims_not_kept s cl keep (i, m) (List.mem_of_getElem? hg)
        have f1 : PoolFrame s (s.drawn.spillOne i m) := (poolFrame_drawn s).trans (poolFrame_spillOne _ _ _)
        have k1 : KeepsResident keep s (s.drawn.spillOne i m) := keepsResident_spillOne s.drawn i m keep hk
        split at h
        · obtain rfl := Except.ok.inj h
          exact ⟨f1, k1⟩
        · obtain ⟨f2, k2⟩ := ih _ _ h
          exact ⟨f1.trans f2, k1.trans fun e he => k2 e (List.mem_cons_of_mem _ he)⟩

/-- A register of the executing context that was not resident put into the pool. -/
theorem poolFrame_place (keep : List (CtxId × Nat)) (s t : State) (n : Nat) (v : VState) (hf : PoolFrame s t) (hk : KeepsResident keep s t)
    (hr : (s.me.vstate n).isResident = false) :
    PoolFrame s (t.modMe fun c => { c with v := smSet c.v n v }) ∧
    KeepsResident keep s (t.modMe fun c => { c with v := smSet c.v n v }) := by
  refine ⟨hf.trans (poolFrame_modCtx _ _ _ rfl), fun e he d sd hd => ?_⟩
  have h1 := hk e he d sd hd
  rw [State.modMe, State.ctx_modCtx]
  split
  · rename_i hh
    by_cases hn : e.2 = n
    · rw [hh, hf.cur, hn] at hd
      rw [State.me, hd] at hr; cases hr
    · simp only [Ctx.vstate, smGet_smSet_other _ hn]
      rw [← hh]; exact h1
  · exact h1

/-- One register brought in. -/
theorem bringIn_spec (s u : State) (keep : List (CtxId × Nat)) (n : Nat) (wr : Bool) (h : s.bringIn keep n wr = .ok u) :
    PoolFrame s u ∧ KeepsResident keep s u := by
  unfold State.bringIn at h
  split at h
  · cases h; exact ⟨.refl _, .refl _ _⟩
  · rename_i hu
    split at h
    · cases h; exact ⟨.refl _, .refl _ _⟩
    · split at h
      · cases h
      · rename_i t ht
        obtain ⟨f, k⟩ := makeRoom_spec _ _ _ _ _ ht
        obtain rfl := Except.ok.inj h
        exact poolFrame_place keep s t n _ f k (by rw [hu]; rfl)
  · rename_i hu
    split at h
    · cases h
    · rename_i t ht
      obtain ⟨f, k⟩ := makeRoom_spec _ _ _ _ _ ht
      unfold State.fillOne at h
      split at h
      · cases h
      · cases h
      · rename_i l w hl
        have ha := (access_loadBytes _ _ _ _ _ hl).frame
        obtain rfl := Except.ok.inj h
        exact poolFrame_place keep s w n _ (f.trans (.ofAccess ha)) (fun e he d sd hd => by rw [ha.ctx]; exact k e he d sd hd)
          (by rw [hu]; rfl)

theorem bringAll_spec (keep : List (CtxId × Nat)) (wr : Bool) (l : List Nat) (s u : State) (h : s.bringAll keep wr l = .ok u) :
    PoolFrame s u ∧ KeepsResident keep s u := by
  induction l generalizing s with
  | nil => cases h; exact ⟨.refl _, .refl _ _⟩
  | cons n rest ih =>
    unfold State.bringAll at h
    split at h
    · rename_i t ht
      obtain ⟨f1, k1⟩ := bringIn_spec _ _ _ _ _ ht
      obtain ⟨f2, k2⟩ := ih _ h
      exact ⟨f1.trans f2, k1.trans k2⟩
    · cases h

/-- Registers that are resident already are left as they are. -/
theorem bringAll_resident (keep : List (CtxId × Nat)) (wr : Bool) (l : List Nat) (s : State)
    (h : ∀ n ∈ l, (s.me.vstate n).isResident = true) : s.bringAll keep wr l = .ok s := by
  induction l with
  | nil => rfl
  | cons n rest ih =>
    have e : s.bringIn keep n wr = .ok s := by
      have := h n (by simp)
      unfold State.bringIn
      split
      · rfl
      · rename_i hu; rw [hu] at this; cases this
      · rename_i hu; rw [hu] at this; cases this
    unfold State.bringAll
    rw [e]
    exact ih fun m hm => h m (by simp [hm])

/-- Every register of an instruction accessed: the frame, and what resident ones keep. -/
theorem vAccess_spec (s u : State) (reads writes : List Nat) (h : s.vAccess reads writes = .ok u) :
    PoolFrame s u ∧ ∀ n ∈ reads ++ writes, ∀ d sd, s.me.vstate n = .resident d sd → u.me.vstate n = .resident d sd := by
  unfold State.vAccess at h
  split at h
  · cases h; exact ⟨.refl _, fun _ _ _ _ h => h⟩
  · split at h
    · cases h
    · dsimp only at h
      split at h
      · cases h
      · rename_i t ht
        obtain ⟨f1, k1⟩ := bringAll_spec _ _ _ _ _ ht
        obtain ⟨f2, k2⟩ := bringAll_spec _ _ _ _ _ h
        refine ⟨f1.trans f2, fun n hn d sd hd => ?_⟩
        have := (k1.trans k2) (s.cur, n) (List.mem_map.2 ⟨n, hn, rfl⟩) d sd hd
        rw [State.me, (f1.trans f2).cur]; exact this

end Sys2Proof.Machine
end

