-- ==== Sys2Proof/Laws/Vectors.lean ====
section
/-! SUPPORT. Vector instructions: their bodies, lanes, selections, groups, and loads and stores of registers. -/

namespace Sys2Proof.Machine

open Sys2Proof

theorem vecBody_ok (s u : State) (reads writes preds dest : List Nat) (f : State → State × BitVec 5) (hb : s.bodyFits = .ok ())
    (hq : s.queueRoom = true) (hv : s.vAccess reads writes = .ok u) :
    s.vecBody reads writes preds dest f = .ok (((f u).1.enqueue (.vector
      ⟨(f u).2, true, reads ++ preds.map (32 + ·), writes ++ dest.map (32 + ·)⟩)).bodyAdvance) := by
  simp only [State.vecBody, State.vecWork, bind, Except.bind, hb, State.needRoom, hq, if_true, hv]

theorem elementwise_ok (s u : State) (d a : Nat) (b : Option Nat) (p : Nat) (c : Bool) (w n : Nat) (src : State → List Nat)
    (op : Nat → Nat → Nat → Nat × BitVec 5) (B : Nat → Nat) (hn : 2048 / (8 * w) = n) (hw : 8 * w * n = 2048)
    (hb : s.bodyFits = .ok ())
    (hq : s.queueRoom = true) (hv : s.vAccess (s.stag 1 a :: s.stag 0 d :: b.toList) [s.stag 0 d] = .ok u)
    (hsrc : src u = (List.range n).map B) :
    ∃ t data, finish s (s.elementwise d a b p c w src op) = .next t ∧ 
      VecResult u t (s.stag 0 d) data (u.vside (s.stag 0 d))
       ⟨flagsOf n fun i => if u.active p c (w * i) then (op (vElem (8*w) (u.vdata (s.stag 1 a)) i) (B i) (vElem (8*w) (u.vdata (s.stag 0 d)) i)).2 else 0, true, 
         s.stag 1 a :: s.stag 0 d :: b.toList ++ [32 + p], [s.stag 0 d]⟩ ∧
      ∀ i, i < n → vElem (8*w) data i = if u.active p c (w * i) then (op (vElem (8*w) (u.vdata (s.stag 1 a)) i) (B i) (vElem (8*w) (u.vdata (s.stag 0 d)) i)).1 % 2 ^ (8 * w) else vElem (8*w) (u.vdata (s.stag 0 d)) i := by
  unfold State.elementwise
  dsimp only
  rw [vecBody_ok s u _ _ _ _ _ hb hq hv]
  simp only [vElems_eq, hn, hsrc, mapLanes_vectors]
  refine ⟨_, _, rfl, vecResult_setV u _ _ none _, ?_⟩
  intro i hi
  have hlen : ∀ f : Nat → Nat, ((List.range n).map f).length = n := by intro f; simp
  rw [vElem_vJoin _ _ _ (by simpa using hi) (by simp [hw])]
  simp only [List.getElem_map, List.getElem_range]
  split
  · rfl
  · exact Nat.mod_eq_of_lt (vElem_lt _ _ _)

theorem wrap_lt (w : Nat) (i : Int) : wrapInt w i % 2 ^ w = wrapInt w i := by
  apply Nat.mod_eq_of_lt
  unfold wrapInt
  have h : (0:Int) < 2 ^ w := by positivity
  have h1 := Int.emod_nonneg i (ne_of_gt h)
  have h2 := Int.emod_lt_of_pos i h
  zify; rw [Int.toNat_of_nonneg h1]; exact h2

theorem fin_lt (sg : Bool) (w : Nat) (q : Prefix) (i : Int) : finishInt sg w q i % 2 ^ w = finishInt sg w q i := by
  unfold finishInt; split; exact wrap_lt _ _

theorem flagsOf_zero (n : Nat) (f : Nat → Flags) (h : ∀ i, f i = 0) : flagsOf n f = 0 := by
  unfold flagsOf
  have : ((List.range n).map f) = (List.range n).map fun _ => 0 := List.map_congr_left (fun i _ => h i)
  rw [this]
  generalize List.range n = l
  induction l with
  | nil => rfl
  | cons a l ih => simpa using ih

theorem readInt_mod (sg : Bool) (w v : Nat) : readInt sg w (v % 2 ^ w) = readInt sg w v := by unfold readInt; simp

theorem srcBytes_eq (m : Bool) (b vb : Nat) (u : State) : State.srcBytes m b vb u = (List.range 256).map fun i => if m then (u.x b).toNat / 2 ^ (8 * (i % 8)) % 256 else vElem 8 (u.vdata vb) i := by
  unfold State.srcBytes
  cases m
  · simp only [Bool.false_eq_true, if_false, vElems_eq]
  · simp only [if_true, elemsOf_eq]
    generalize (u.x b).toNat = v
    have : ∀ n k : Nat, (List.replicate n ((List.range 8).map fun i => v / 2 ^ (8 * i) % 2 ^ 8)).flatten = (List.range (8 * n)).map fun i => v / 2 ^ (8 * (i % 8)) % 256 := by
      intro n _
      induction n with
      | zero => rfl
      | succ n ih =>
        rw [List.replicate_succ, List.flatten_cons, ih, show 8 * (n + 1) = 8 + 8 * n by ring, List.range_add, List.map_append, List.map_map]
        congr 1
        · apply List.map_congr_left
          intro i _
          simp only [Function.comp, Nat.add_mod_left]
    exact this 32 0

theorem selectBytes_eq (act : Nat → Bool) (A B : Nat → Nat) (n k : Nat) : selectBytes act k ((List.range n).map fun i => A (k + i)) ((List.range n).map fun i => B (k + i))
   = (List.range n).map fun i => if act (k + i) then A (k + i) else B (k + i) := by
  induction n generalizing k with
  | zero => rfl
  | succ n ih =>
    have e : ∀ {β : Type} (f : Nat → β), ((List.range (n + 1)).map fun i => f (k + i)) = f k :: (List.range n).map fun i => f (k + 1 + i) := by
      intro β f
      rw [List.range_succ_eq_map, List.map_cons, List.map_map]
      congr 1
      apply List.map_congr_left; intro i _; simp only [Function.comp]; congr 1; omega
    rw [e A, e B, e (fun j => if act j then A j else B j), selectBytes, ih (k + 1)]

theorem getLsbD_putLanes (v : BitVec 256) (w i l : Nat) (h : w * i + w ≤ 256) (b : Bool) : (putBits v (w * i) w (if b then 2 ^ w - 1 else 0)).getLsbD l
   = if w * i ≤ l ∧ l < w * i + w then b else v.getLsbD l := by
  rw [getLsbD_putBits _ _ _ _ _ h]
  split
  · rename_i hl
    cases b
    · simp
    · simp; omega
  · rfl

theorem compareLanes_spec (act : Nat → Bool) (w : Nat) (hw : 0 < w) (op : Nat → Nat → Bool × BitVec 5) (A B : Nat → Nat) (n k : Nat) (old : BitVec 256) (hn : w * (k + n) ≤ 256) :
    (∀ l, (compareLanes act w op k ((List.range n).map fun i => A (k + i)) ((List.range n).map fun i => B (k + i)) old).1.getLsbD l =
      if k ≤ l / w ∧ l / w < k + n ∧ act (w * (l / w)) then (op (A (l / w)) (B (l / w))).1 else old.getLsbD l) ∧
    (compareLanes act w op k ((List.range n).map fun i => A (k + i)) ((List.range n).map fun i => B (k + i)) old).2
      = flagsOf n fun i => if act (w * (k + i)) then (op (A (k + i)) (B (k + i))).2 else 0 := by
  induction n generalizing k with
  | zero =>
    refine ⟨fun l => ?_, rfl⟩
    rw [if_neg (by omega)]; rfl
  | succ n ih =>
    have e : ∀ {β : Type} (f : Nat → β), ((List.range (n + 1)).map fun i => f (k + i)) = f k :: (List.range n).map fun i => f (k + 1 + i) := by
      intro β f
      rw [List.range_succ_eq_map, List.map_cons, List.map_map]
      congr 1
      apply List.map_congr_left; intro i _; simp only [Function.comp]; congr 1; omega
    obtain ⟨ih1, ih2⟩ := ih (k + 1) (by rw [show k + 1 + n = k + (n + 1) by omega]; exact hn)
    have ef : (flagsOf (n + 1) fun i => if act (w * (k + i)) then (op (A (k + i)) (B (k + i))).2 else 0)
        = (if act (w * k) then (op (A k) (B k)).2 else 0)
          ||| flagsOf n fun i => if act (w * (k + 1 + i)) then (op (A (k + 1 + i)) (B (k + 1 + i))).2 else 0 := by
      unfold flagsOf
      rw [e (fun j => if act (w * j) then (op (A j) (B j)).2 else 0)]; rfl
    have hk : w * k + w ≤ 256 := by
      calc w * k + w = w * (k + 1) := by ring
        _ ≤ w * (k + (n + 1)) := Nat.mul_le_mul_left _ (by omega)
        _ ≤ 256 := hn
    have lk : ∀ l, (w * k ≤ l ∧ l < w * k + w) ↔ l / w = k := by
      intro l
      constructor
      · rintro ⟨h1, h2⟩
        exact Nat.div_eq_of_lt_le (by rw [Nat.mul_comm]; exact h1) (by rw [Nat.mul_comm, Nat.mul_succ]; exact h2)
      · rintro rfl
        exact ⟨Nat.mul_div_le l w, by rw [← Nat.mul_succ]; exact Nat.lt_mul_div_succ l hw⟩
    rw [e A, e B, ef, compareLanes]
    by_cases ha : act (w * k)
    · simp only [ha, if_true]
      refine ⟨fun l => ?_, by rw [ih2]⟩
      rw [getLsbD_putLanes _ _ _ _ hk, ih1 l]
      by_cases hl : l / w = k
      · rw [if_pos ((lk l).2 hl), if_pos (by rw [hl]; exact ⟨le_rfl, by omega, ha⟩), hl]
      · rw [if_neg (fun h => hl ((lk l).1 h))]
        by_cases h2 : k + 1 ≤ l / w ∧ l / w < k + 1 + n ∧ act (w * (l / w))
        · rw [if_pos h2, if_pos ⟨by omega, by omega, h2.2.2⟩]
        · rw [if_neg h2, if_neg (by intro h; exact h2 ⟨by omega, by omega, h.2.2⟩)]
    · simp only [ha]
      refine ⟨fun l => ?_, ?_⟩
      · show (compareLanes act w op (k + 1) _ _ old).1.getLsbD l = _
        rw [ih1 l]
        by_cases hl : l / w = k
        · rw [if_neg (by omega), if_neg (by rw [hl]; simp [ha])]
        · by_cases h2 : k + 1 ≤ l / w ∧ l / w < k + 1 + n ∧ act (w * (l / w))
          · rw [if_pos h2, if_pos ⟨by omega, by omega, h2.2.2⟩]
          · rw [if_neg h2, if_neg (by intro h; exact h2 ⟨by omega, by omega, h.2.2⟩)]
      · show (compareLanes act w op (k + 1) _ _ old).2 = _
        rw [ih2]; simp

theorem compare_ok (s u : State) (d a b p : Nat) (c : Bool) (w n : Nat) (hw0 : 0 < w) (hn : 2048 / (8 * w) = n) (hw : w * n = 256) (op : Nat → Nat → Bool × BitVec 5)
    (hb : s.bodyFits = .ok ()) (hq : s.queueRoom = true) (hv : s.vAccess [s.stag 1 a, s.stag 2 b] [] = .ok u) :
    ∃ t new, finish s (s.compare d a b p c w op) = .next t ∧ PredResult u t d new ⟨flagsOf n fun i => if u.active p c (w * i) then (op (vElem (8*w) (u.vdata (s.stag 1 a)) i) (vElem (8*w) (u.vdata (s.stag 2 b)) i)).2 else 0, true, [s.stag 1 a, s.stag 2 b, 32 + p, 32 + d], (predDest d).map (32 + ·)⟩ ∧
        ∀ l, l < 256 → new.getLsbD l =
          if u.active p c (l / w * w) then (op (vElem (8*w) (u.vdata (s.stag 1 a)) (l / w)) (vElem (8*w) (u.vdata (s.stag 2 b)) (l / w))).1
          else (u.me.pred d).getLsbD l := by
  unfold State.compare
  dsimp only
  rw [vecBody_ok s u _ _ _ _ _ hb hq hv]
  obtain ⟨h1, h2⟩ := compareLanes_spec (u.active p c) w hw0 op (vElem (8*w) (u.vdata (s.stag 1 a))) (vElem (8*w) (u.vdata (s.stag 2 b))) n 0 (u.me.pred d) (by simp [hw])
  simp only [Nat.zero_add] at h1 h2
  simp only [vElems_eq, hn]
  refine ⟨_, (compareLanes (u.active p c) w op 0 (List.map (vElem (8 * w) (u.vdata (s.stag 1 a))) (List.range n)) (List.map (vElem (8 * w) (u.vdata (s.stag 2 b))) (List.range n)) (u.me.pred d)).1, rfl, ?_, ?_⟩
  · rw [← h2]; exact predResult_setP u d _ _
  · intro l hl
    rw [h1 l]
    have : l / w < n := by rw [Nat.div_lt_iff_lt_mul hw0, Nat.mul_comm, hw]; exact hl
    simp [this, Nat.mul_comm]

theorem laneMask_bit (s : State) (p : Nat) (c : Bool) (l : Nat) (hl : l < 256) : (s.laneMask p c).getLsbD l = s.active p c l := by
  unfold State.laneMask State.active lanePred
  cases c
  · simp
  · simp [hl]

theorem merge_bit (old new mask : BitVec 256) (l : Nat) (hl : l < 256) : (mergePred old new mask).getLsbD l = if mask.getLsbD l then new.getLsbD l else old.getLsbD l := by
  unfold mergePred
  simp [hl]
  cases mask[l] <;> simp

theorem rangeShift {β : Type} (f : Nat → β) (n k : Nat) : ((List.range (n + 1)).map fun i => f (k + i)) = f k :: (List.range n).map fun i => f (k + 1 + i) := by
  rw [List.range_succ_eq_map, List.map_cons, List.map_map]
  congr 1
  apply List.map_congr_left; intro i _; simp only [Function.comp]; congr 1; omega

theorem activeElems_spec (act : Nat → Bool) (w : Nat) (A : Nat → Nat) (n k : Nat) :
    activeElems act w k ((List.range n).map fun i => A (k + i)) =
      (((List.range n).map fun i => k + i).filter fun i => act (w * i)).map fun i => (i, A i) := by
  induction n generalizing k with
  | zero => rfl
  | succ n ih =>
    rw [rangeShift A, rangeShift (fun i => i), activeElems, List.filter_cons, ih (k + 1)]
    split <;> rfl

theorem activeElems_eq (act : Nat → Bool) (w : Nat) (A : Nat → Nat) (n : Nat) :
    activeElems act w 0 ((List.range n).map A) = ((List.range n).filter fun i => act (w * i)).map fun i => (i, A i) := by
  have := activeElems_spec act w A n 0
  simpa using this

theorem joinElems_getD (w : Nat) (l : List Nat) (i : Nat) (hl : ∀ x ∈ l, x < 2 ^ w) : joinElems w l / 2 ^ (w * i) % 2 ^ w = l.getD i 0 := by
  by_cases h : i < l.length
  · rw [joinElems_elem _ _ _ h, List.getD_eq_getElem _ _ h, Nat.mod_eq_of_lt (hl _ (List.getElem_mem h))]
  · have h1 := joinElems_lt w l
    have : joinElems w l < 2 ^ (w * i) := lt_of_lt_of_le h1 (Nat.pow_le_pow_right Nat.two_pos (Nat.mul_le_mul_left _ (by omega)))
    rw [Nat.div_eq_of_lt this, List.getD_eq_default _ _ (by omega)]; simp

theorem vElem_join (w : Nat) (l : List Nat) (i : Nat) (hl : ∀ x ∈ l, x < 2 ^ w) (h : w * l.length ≤ 2048) :
    vElem w (BitVec.ofNat 2048 (joinElems w l)) i = l.getD i 0 := by
  have hlt := lt_of_lt_of_le (joinElems_lt w l) (Nat.pow_le_pow_right Nat.two_pos h)
  rw [← joinElems_getD w l i hl, vElem, bits, BitVec.toNat_ofNat, Nat.mod_eq_of_lt hlt]

theorem expand_spec (act : Nat → Bool) (w : Nat) (n : Nat) : ∀ (k : Nat) (src : List Nat), 
    (expandElems act w k n src) = (List.range n).map fun i => if act (w * (k + i)) then src.getD ((List.range i).filter fun j => act (w * (k + j))).length 0 else 0 := by
  induction n with
  | zero => intros; rfl
  | succ n ih =>
    intro k src
    rw [List.range_succ_eq_map, List.map_cons, List.map_map]
    have cnt : ∀ i, ((List.range (i + 1)).filter fun j => act (w * (k + j))).length = (if act (w * k) then 1 else 0) + ((List.range i).filter fun j => act (w * (k + 1 + j))).length := by
      intro i
      rw [List.range_succ_eq_map, List.filter_cons, List.filter_map, Nat.add_zero]
      have : ((fun j => act (w * (k + j))) ∘ Nat.succ) = fun j => act (w * (k + 1 + j)) := by
        funext j; simp only [Function.comp]; congr 2; omega
      rw [this]
      split <;> simp [Nat.add_comm]
    unfold expandElems
    by_cases ha : act (w * k)
    · simp only [ha, if_true]
      cases src with
      | nil =>
        dsimp only
        rw [ih (k + 1)]
        congr 1
        · simp [ha]
        · apply List.map_congr_left
          intro i _
          simp only [Function.comp]
          rw [show k + (Nat.succ i) = k + 1 + i by omega]
          simp
      | cons x rest =>
        dsimp only
        rw [ih (k + 1)]
        congr 1
        · simp [ha]
        · apply List.map_congr_left
          intro i _
          simp only [Function.comp]
          rw [show k + (Nat.succ i) = k + 1 + i by omega, show Nat.succ i = i + 1 from rfl, cnt, ha]
          simp only [if_true]
          rw [Nat.add_comm 1, List.getD_cons_succ]
    · simp only [ha]
      rw [if_neg (by simp)]
      rw [ih (k + 1)]
      congr 1
      · simp [ha]
      · apply List.map_congr_left
        intro i _
        simp only [Function.comp]
        rw [show k + (Nat.succ i) = k + 1 + i by omega, show Nat.succ i = i + 1 from rfl, cnt]
        simp [ha]

theorem whole_ok (s u : State) (d a p w : Nat) (f : State → List Nat → Nat × BitVec 5) (hb : s.bodyFits = .ok ()) (hq : s.queueRoom = true)
    (hv : s.vAccess [s.stag 1 a] [s.stag 0 d] = .ok u) :
    let r := f u ((List.range (2048 / (8 * w))).map (vElem (8 * w) (u.vdata (s.stag 1 a))))
    ∃ t, finish s (s.wholeVector d a p w f) = .next t ∧
      VecResult u t (s.stag 0 d) (BitVec.ofNat 2048 r.1) (u.vside (s.stag 0 d)) ⟨r.2, true, [s.stag 1 a, 32 + p], [s.stag 0 d]⟩ := by
  unfold State.wholeVector
  dsimp only
  rw [vecBody_ok s u _ _ _ _ _ hb hq hv]
  simp only [vElems_eq]
  exact ⟨_, rfl, vecResult_setV u _ _ none _⟩

theorem best_spec (better : Int → Int → Bool) (le : Int → Int → Prop) (hb : ∀ x y, better x y = true ↔ ¬ le y x) (htot : ∀ x y, le x y ∨ le y x) (htr : ∀ x y z, le x y → le y z → le x z)
    (A : Nat → Int) (l : List Nat) (hs : l.Pairwise (· < ·)) (hne : l ≠ []) :
    ∃ k ∈ l, best better (l.map fun i => (i, A i)) = some (k, A k) ∧ ∀ j ∈ l, le (A k) (A j) ∧ (j < k → ¬ le (A j) (A k)) := by
  have href : ∀ x, le x x := fun x => (htot x x).elim id id
  induction l with
  | nil => exact absurd rfl hne
  | cons e rest ih =>
    rw [List.pairwise_cons] at hs
    by_cases hr : rest = []
    · subst hr
      refine ⟨e, by simp, rfl, ?_⟩
      intro j hj; simp at hj; subst hj; exact ⟨href _, fun h => absurd h (lt_irrefl _)⟩
    · obtain ⟨k, hk, h1, h2⟩ := ih hs.2 hr
      have hlt := hs.1 k hk
      rw [List.map_cons, best, h1]
      dsimp only
      split
      · rename_i hbt
        have hbt := (hb _ _).1 hbt
        refine ⟨k, by simp [hk], rfl, ?_⟩
        intro j hj
        rcases List.mem_cons.1 hj with rfl | hj
        · exact ⟨(htot _ _).resolve_right hbt, fun _ => hbt⟩
        · exact h2 j hj
      · rename_i hbt
        have hbt : le (A e) (A k) := by by_contra hcon; exact hbt ((hb _ _).2 hcon)
        refine ⟨e, by simp, rfl, ?_⟩
        intro j hj
        rcases List.mem_cons.1 hj with rfl | hj
        · exact ⟨href _, fun h => absurd h (lt_irrefl _)⟩
        · exact ⟨htr _ _ _ hbt (h2 j hj).1, fun h => absurd (hs.1 j hj) (by omega)⟩

theorem range_filter_sorted (n : Nat) (q : Nat → Bool) : ((List.range n).filter q).Pairwise (· < ·) := List.Pairwise.filter _ List.pairwise_lt_range

theorem setV_frame (u : State) (d : Nat) (data : BitVec 2048) (side : Option (BitVec 1280)) :
    (u.setV d data side).me = { u.me with v := smSet u.me.v d (.resident data (side.getD (u.vside d))) } ∧
    (u.setV d data side).cur = u.cur ∧ (u.setV d data side).mods = u.mods ∧ (∀ i, i ≠ u.cur → (u.setV d data side).ctx i = u.ctx i) ∧
    (u.setV d data side).myCore.queue = u.myCore.queue ∧ ∀ pa, (u.setV d data side).homeByte pa = u.homeByte pa := by
  obtain ⟨s, hs, hc, hmo, hx, hq, hm⟩ : ∃ s : State, u.setV d data side
      = s.modMe (fun c => { c with v := smSet c.v d (.resident data (side.getD (c.vpair d).2)) }) ∧ s.cur = u.cur ∧ s.mods = u.mods ∧
      (∀ i, s.ctx i = u.ctx i) ∧ s.myCore.queue = u.myCore.queue ∧ ∀ pa, s.homeByte pa = u.homeByte pa := by
    refine ⟨if u.cur.ctx = 0 then u.logUndo u.cur.core (.vreg d (u.me.vstate d)) else u, rfl, ?_⟩
    split
    · obtain ⟨h1, h2, h3, h4⟩ := u.logUndo_rest u.cur.core (.vreg d (u.me.vstate d))
      exact ⟨h1, h2, u.me_logUndo _ _, by rw [State.myCore, h1]; exact h4 _, h3⟩
    · exact ⟨rfl, rfl, fun _ => rfl, rfl, fun _ => rfl⟩
  have hme : s.me = u.me := by rw [State.me, State.me, hc, hx]
  rw [hs]
  refine ⟨?_, hc, hmo, fun i hi => ?_, ?_, hm⟩
  · rw [State.me_modMe, hme]; rfl
  · rw [State.ctx_modMe_other _ _ (by rw [hc]; exact hi), hx]
  · rw [← hq]; simp only [State.myCore, State.modMe_cur, State.core_modMe, if_true]

theorem setGroup_spec (s : State) (w : Nat) (k : Nat) : ∀ (first : Nat) (l : List Nat), k ≤ 32 →
    let t := s.setGroup w first k l
    (∀ j, j < k → (t.me.vpair ((first + j) % 32)).1 = vJoin w ((l.drop (j * (2048 / w))).take (2048 / w))) ∧
    (∀ n, (t.me.vpair n).2 = (s.me.vpair n).2) ∧ (∀ n, n ∉ groupRegs first k → t.me.vpair n = s.me.vpair n) ∧
    t.me = { s.me with v := t.me.v } ∧ t.cur = s.cur ∧ t.mods = s.mods ∧ (∀ i, i ≠ s.cur → t.ctx i = s.ctx i) ∧
    t.myCore.queue = s.myCore.queue ∧ ∀ pa, t.homeByte pa = s.homeByte pa := by
  induction k with
  | zero => intro first l _; exact ⟨fun j h => absurd h (by omega), fun _ => rfl, fun _ _ => rfl, rfl, rfl, rfl, fun _ _ => rfl, rfl, fun _ => rfl⟩
  | succ k ih =>
    intro first l hk t
    obtain ⟨h1, h2, h3, h4, h5, h6, h7, h8, h9⟩ := ih (first + 1) (l.drop (2048 / w)) (by omega)
    have ht : t = (State.setGroup s w (first + 1) k (l.drop (2048 / w))).setV (first % 32) (vJoin w (l.take (2048 / w))) none := rfl
    generalize State.setGroup s w (first + 1) k (l.drop (2048 / w)) = g at *
    obtain ⟨g1, g2, g3, g4, g5, g6⟩ := setV_frame g (first % 32) (vJoin w (l.take (2048 / w))) none
    rw [← ht] at g1 g2 g3 g4 g5 g6
    have vp : ∀ n, t.me.vpair n = if n = first % 32 then (vJoin w (l.take (2048 / w)), (s.me.vpair n).2) else g.me.vpair n := by
      intro n
      rw [g1]
      split
      · rename_i h; subst h; simp [Ctx.vpair, Ctx.vstate, State.vside]; exact h2 _
      · rename_i h; simp only [Ctx.vpair, Ctx.vstate, smGet_smSet_other _ h]
    refine ⟨?_, ?_, ?_, ?_, g2.trans h5, g3.trans h6, fun i hi => (g4 i (by rw [h5]; exact hi)).trans (h7 i hi), g5.trans h8, fun pa => (g6 pa).trans (h9 pa)⟩
    · intro j hj
      rw [vp]
      cases j with
      | zero => rw [if_pos (by rfl)]; simp
      | succ j =>
        rw [if_neg (by omega)]
        have := h1 j (by omega)
        rw [show first + (j + 1) = first + 1 + j by omega, this, List.drop_drop]
        congr 3; ring
    · intro n; rw [vp]; split
      · rfl
      · exact h2 n
    · intro n hn
      have : groupRegs first (k + 1) = first % 32 :: groupRegs (first + 1) k := by
        unfold groupRegs
        rw [List.range_succ_eq_map, List.map_cons, List.map_map]
        congr 1
        apply List.map_congr_left; intro i _; simp only [Function.comp]; congr 1; omega
      rw [this] at hn
      simp only [List.mem_cons, not_or] at hn
      rw [vp, if_neg hn.1]; exact h3 n hn.2
    · rw [g1, h4]

theorem convert_spec (act : Nat → Bool) (w : Nat) (op : Nat → Nat × BitVec 5) (A D : Nat → Nat) (n k : Nat) :
    convertLanes act w op k ((List.range n).map fun i => A (k + i)) ((List.range n).map fun i => D (k + i))
    = ((List.range n).map fun i => if act ((k + i) * w / 8) then (op (A (k + i))).1 else D (k + i),
       flagsOf n fun i => if act ((k + i) * w / 8) then (op (A (k + i))).2 else 0) := by
  induction n generalizing k with
  | zero => rfl
  | succ n ih =>
    rw [rangeShift A, rangeShift D, rangeShift (fun j => if act (j * w / 8) then (op (A j)).1 else D j)]
    have ef : (flagsOf (n + 1) fun i => if act ((k + i) * w / 8) then (op (A (k + i))).2 else 0)
        = (if act (k * w / 8) then (op (A k)).2 else 0)
          ||| flagsOf n fun i => if act ((k + 1 + i) * w / 8) then (op (A (k + 1 + i))).2 else 0 := by
      unfold flagsOf
      rw [rangeShift (fun j => if act (j * w / 8) then (op (A j)).2 else 0)]; rfl
    rw [ef, convertLanes, ih (k + 1)]
    split
    · rfl
    · simp

theorem convert_eq (act : Nat → Bool) (w : Nat) (op : Nat → Nat × BitVec 5) (A D : Nat → Nat) (n : Nat) :
    convertLanes act w op 0 ((List.range n).map A) ((List.range n).map D)
    = ((List.range n).map fun i => if act (i * w / 8) then (op (A i)).1 else D i,
       flagsOf n fun i => if act (i * w / 8) then (op (A i)).2 else 0) := by
  have := convert_spec act w op A D n 0
  simpa using this

theorem groupElems_eq (s : State) (w first k : Nat) : s.groupElems w first k = (List.range (k * (2048 / w))).map fun i => vElem w (s.vdata ((first + i / (2048 / w)) % 32)) (i % (2048 / w)) := by
  unfold State.groupElems groupRegs
  generalize hm : 2048 / w = m
  rw [List.flatMap_map]
  by_cases h0 : m = 0
  · subst h0; simp [vElems_eq, hm]
  induction k with
  | zero => simp
  | succ k ih =>
    rw [List.range_succ, List.flatMap_append, ih, Nat.succ_mul, List.range_add, List.map_append]
    congr 1
    simp only [List.flatMap_cons, List.flatMap_nil, List.append_nil, vElems_eq, hm, List.map_map]
    apply List.map_congr_left
    intro i hi
    have := List.mem_range.1 hi
    simp only [Function.comp]
    rw [Nat.mul_comm k m, Nat.mul_add_div (by omega), Nat.div_eq_of_lt this, Nat.mul_add_mod, Nat.mod_eq_of_lt this, Nat.add_zero]

theorem group_ok (u : State) (w first k : Nat) (l : List Nat) (f : Nat → Nat) (wk : VecWork) (hw : w * (2048 / w) = 2048) (hk : k ≤ 32)
    (hl : l.length = k * (2048 / w)) (hf : ∀ i, i < k * (2048 / w) → l.getD i 0 % 2 ^ w = f i) :
    GroupResult u (((u.setGroup w first k l).enqueue (.vector wk)).bodyAdvance) w first k f wk := by
  obtain ⟨h1, h2, h3, h4, h5, h6, h7, h8, h9⟩ := setGroup_spec u w k first l hk
  generalize u.setGroup w first k l = g at *
  have hm2 := me_vecQueued g wk
  have hlen : g.len = u.len := by rw [State.len, State.len, h6]
  rw [h4, hlen, Ctx.bodyNext_setV] at hm2
  have vp : ∀ n, (((g.enqueue (.vector wk)).bodyAdvance).me.vpair n) = g.me.vpair n := by
    intro n; rw [hm2]; simp only [Ctx.vpair, Ctx.vstate]
  have hm0 : 0 < 2048 / w := by rcases Nat.eq_zero_or_pos (2048 / w) with h | h; rw [h] at hw; omega; exact h
  refine ⟨fun i hi => ?_, fun n => by rw [vp]; exact h2 n, fun n hn => by rw [vp]; exact h3 n hn, ?_, vecQueued_of u g wk h5 h7 h8 h9⟩
  · have hj : i / (2048 / w) < k := by rw [Nat.div_lt_iff_lt_mul hm0]; exact hi
    have hr : i % (2048 / w) < 2048 / w := Nat.mod_lt _ hm0
    have hd := Nat.div_add_mod i (2048 / w)
    rw [vp, h1 _ hj]
    have hlen2 : ((l.drop (i / (2048 / w) * (2048 / w))).take (2048 / w)).length = 2048 / w := by
      rw [List.length_take, List.length_drop, hl, ← Nat.sub_mul]
      apply Nat.min_eq_left
      exact Nat.le_mul_of_pos_left _ (by omega)
    rw [vElem_vJoin _ _ _ (by rw [hlen2]; exact hr) (by rw [hlen2, hw])]
    rw [List.getElem_take, List.getElem_drop, ← hf i hi, List.getD_eq_getElem _ _ (by rw [hl]; exact hi)]
    congr 2
    rw [Nat.mul_comm]; exact hd
  · rw [hm2]

theorem fb_ok (s u : State) (reads preds : List Nat) (vd : Nat) (f : State → BitVec 2048 × BitVec 1280 × Flags) (hb : s.bodyFits = .ok ()) (hq : s.queueRoom = true) (hv : s.vAccess reads [vd] = .ok u) :
    ∃ t, finish s (s.vecBody reads [vd] preds [] fun s => ((s.setV vd (f s).1 (some (f s).2.1)), (f s).2.2)) = .next t ∧
      VecResult u t vd (f u).1 (f u).2.1 ⟨(f u).2.2, true, reads ++ preds.map (32 + ·), [vd]⟩ := by
  rw [vecBody_ok s u _ _ _ _ _ hb hq hv]
  exact ⟨_, rfl, vecResult_setV u _ _ (some _) _⟩

theorem pool_x (s u : State) (h : PoolFrame s u) (n : Nat) : u.x n = s.x n := by
  have := h.contexts s.cur
  have hc := h.cur
  simp only [State.x, State.me, hc]
  have e : ∀ c : Ctx, c.xreg n = ({ c with v := [], vregFault := none } : Ctx).xreg n := fun c => rfl
  rw [e, this, ← e]

theorem head_rest (s h : State) (hh : AtHead s h) : h.me = s.me ∧ h.cur = s.cur := by
  rcases hh with ⟨_, rfl⟩ | ⟨e, rest, _, _, rfl⟩
  · exact ⟨rfl, rfl⟩
  · refine ⟨?_, rfl⟩
    simp only [State.popHead, State.me, State.ctx, State.modCore_cur, State.core_modCore_same]; rfl

theorem fromHead_ok (s h : State) (op : QMem) (body : State → Body) (hh : AtHead s h) : s.fromHead op body = body h := by
  unfold State.fromHead
  rcases hh with ⟨hq, rfl⟩ | ⟨e, rest, hq, he, rfl⟩
  · rw [hq]
  · rw [hq]; simp only [he, if_true]

theorem vecLoaded_setV (u : State) (d : Nat) (data : BitVec 2048) (side : Option (BitVec 1280)) :
    VecLoaded u ((u.setV d data side).bodyAdvance) d data (side.getD (u.vside d)) := by
  obtain ⟨g1, g2, g3, g4, g5, g6⟩ := setV_frame u d data side
  generalize u.setV d data side = g at *
  have hlen : g.len = u.len := by rw [State.len, State.len, g3]
  have hm : (g.bodyAdvance).me = { u.me.bodyNext (u.len.toNat / 4) with v := smSet u.me.v d (.resident data (side.getD (u.vside d))) } := by
    rw [State.bodyAdvance, State.me_modMe, g1, hlen, Ctx.bodyNext_setV]
  refine ⟨?_, ?_, ?_, ?_, ?_⟩
  · rw [hm]; simp [Ctx.vpair, Ctx.vstate]
  · intro n hn; rw [hm]; simp only [Ctx.vpair, Ctx.vstate, smGet_smSet_other _ hn]
  · rw [hm]
  · intro i hi; rw [State.bodyAdvance, State.ctx_modMe_other _ _ (by rw [g2]; exact hi), g4 i hi]
  · intro pa; rw [State.bodyAdvance, State.homeByte_modMe, g6]

theorem stored_done (v : State) : OnlyContext v v.bodyAdvance ∧ v.bodyAdvance.me = v.me.bodyNext (v.len.toNat / 4) := by
  have : v.bodyAdvance.me = v.me.bodyNext (v.len.toNat / 4) := by rw [State.bodyAdvance, State.me_modMe]
  refine ⟨⟨?_, fun pa => State.homeByte_modMe _ _ _⟩, this⟩
  rw [this, State.bodyAdvance]; apply State.modMe_congr; rfl

theorem pool_me (s u : State) (h : PoolFrame s u) : ({ u.me with v := [], vregFault := none } : Ctx) = { s.me with v := [], vregFault := none } := by
  rw [State.me, State.me, h.cur]; exact h.contexts s.cur

theorem pool_t (s u : State) (h : PoolFrame s u) (n : Nat) : u.me.tile n = s.me.tile n := by
  have e : ∀ c : Ctx, c.tile n = ({ c with v := [], vregFault := none } : Ctx).tile n := fun c => rfl
  rw [e, pool_me s u h, ← e]

theorem flagsOf_foldl (n : Nat) (f : Nat → Flags) : ((List.range n).map f).foldl (fun a e => a ||| e) 0 = flagsOf n f := by
  unfold flagsOf
  have : ∀ (l : List Flags) (a : Flags), l.foldl (fun a e => a ||| e) a = a ||| l.foldr (fun x y => x ||| y) 0 := by
    intro l; induction l with
    | nil => intro a; simp
    | cons b l ih => intro a; rw [List.foldl_cons, ih, List.foldr_cons, BitVec.or_assoc]
  rw [this]; simp

theorem elem32_eq (v : BitVec 2048) : elem32 v = fun i => f32 (vElem 32 v i) := by
  funext i
  apply BitVec.eq_of_toNat_eq
  simp [elem32, f32, vElem, bits, BitVec.extractLsb'_toNat, Nat.shiftRight_eq_div_pow]

end Sys2Proof.Machine
end

