-- ==== Sys2Proof/Laws/Tiles.lean ====
section
/-! SUPPORT. Tiles, the matrix engine, accumulator slots and drains. -/

namespace Sys2Proof.Machine

open Sys2Proof

theorem AccessFrame.modMe_const {u g : State} (h : AccessFrame u g) (x : Ctx) : AccessFrame (u.modMe fun _ => x) (g.modMe fun _ => x) := by
  refine ⟨h.device, fun m => ?_, h.clusters, h.parts⟩
  rw [State.core_modMe, State.core_modMe, h.cur]
  split
  · rename_i e
    have hb := h.cores m
    have hc := h.ctxs m
    rw [e] at hb hc ⊢
    simp only [Core.besidesAccess] at hb ⊢
    rw [Core.mk.injEq] at hb ⊢
    simp_all
  · exact h.cores m

theorem inContext_log (u g : State) (f : Ctx → Ctx) (hg : AccessFrame u g) (hm : ∀ pa, g.homeByte pa = u.homeByte pa) : InContext u (g.modMe f) ∧ (g.modMe f).me = f u.me := by
  have hme : (g.modMe f).me = f u.me := by rw [State.me_modMe, hg.me]
  refine ⟨⟨?_, fun pa => by rw [State.homeByte_modMe, hm]⟩, hme⟩
  rw [hme]
  have : g.modMe f = g.modMe fun _ => f u.me := State.modMe_congr _ _ _ (by rw [hg.me])
  rw [this]
  exact hg.modMe_const _

theorem tileResult_setTile (u : State) (n : Nat) (v : Tile) : TileResult u ((u.setTile n v).advance) n v := by
  obtain ⟨g, hg, hf, hm⟩ : ∃ g : State, u.setTile n v = g.modMe (fun c => { c with t := smSet c.t n v }) ∧ AccessFrame u g ∧ ∀ pa, g.homeByte pa = u.homeByte pa := by
    refine ⟨if u.cur.ctx = 0 then u.logUndo u.cur.core (.tile n (u.me.tile n)) else u, rfl, ?_, ?_⟩
    · split
      · exact (access_logUndo _ _ _).frame
      · exact .refl _
    · split
      · exact (u.logUndo_rest _ _).2.2.1
      · exact fun _ => rfl
  have e : (u.setTile n v).advance = g.modMe (fun c => { c with t := smSet c.t n v, pc := c.pc + u.len }) := by
    rw [hg, State.advance, State.modMe_modMe]
    apply State.modMe_congr
    simp only [Function.comp, State.len, State.modMe_mods, hf.mods]
  obtain ⟨h1, h2⟩ := inContext_log u g (fun c => { c with t := smSet c.t n v, pc := c.pc + u.len }) hf hm
  rw [e]
  refine ⟨?_, ?_, ?_, h1⟩
  · rw [h2]; simp [Ctx.tile]
  · intro m hm; rw [h2]; simp only [Ctx.tile, smGet_smSet_other _ hm]
  · rw [h2]; rfl

theorem vecMoved_setV (u : State) (d : Nat) (data : BitVec 2048) (side : Option (BitVec 1280)) : VecMoved u ((u.setV d data side).advance) d data (side.getD (u.vside d)) := by
  obtain ⟨g, hg, hf, hm⟩ : ∃ g : State, u.setV d data side = g.modMe (fun c => { c with v := smSet c.v d (.resident data (side.getD (c.vpair d).2)) }) ∧ AccessFrame u g ∧ ∀ pa, g.homeByte pa = u.homeByte pa := by
    refine ⟨if u.cur.ctx = 0 then u.logUndo u.cur.core (.vreg d (u.me.vstate d)) else u, rfl, ?_, ?_⟩
    · split
      · exact (access_logUndo _ _ _).frame
      · exact .refl _
    · split
      · exact (u.logUndo_rest _ _).2.2.1
      · exact fun _ => rfl
  have e : (u.setV d data side).advance = g.modMe (fun c => { c with v := smSet c.v d (.resident data (side.getD (c.vpair d).2)), pc := c.pc + u.len }) := by
    rw [hg, State.advance, State.modMe_modMe]
    apply State.modMe_congr
    simp only [Function.comp, State.len, State.modMe_mods, hf.mods]
  obtain ⟨h1, h2⟩ := inContext_log u g (fun c => { c with v := smSet c.v d (.resident data (side.getD (c.vpair d).2)), pc := c.pc + u.len }) hf hm
  rw [e]
  refine ⟨?_, ?_, ?_, h1⟩
  · rw [h2]; simp [Ctx.vpair, Ctx.vstate, State.vside]
  · intro m hm; rw [h2]; simp only [Ctx.vpair, Ctx.vstate, smGet_smSet_other _ hm]
  · rw [h2]; rfl

theorem fmt_key (f c : Nat) (h1 : 1 ≤ f) (h2 : f ≤ 13) (h3 : c ≤ fmtCols f) : c * fmtBits f ≤ 1024 ∧ 0 < fmtBits f ∧ 1024 % fmtBits f = 0 := by
  interval_cases f <;> norm_num [fmtCols, fmtBits] at h3 ⊢ <;> omega

theorem legal_facts (tl : Tile) (h : legalShape tl.tsh = true) : tl.fmt ≠ 0 ∧ tl.rows ≤ 16 ∧ tl.cols * fmtBits tl.fmt ≤ 1024 ∧ 0 < fmtBits tl.fmt ∧ 1024 % fmtBits tl.fmt = 0 ∧ 8 * tl.rowBytes ≤ 1024 := by
  unfold legalShape at h
  simp only [Bool.and_eq_true, decide_eq_true_eq] at h
  have e : ({ tsh := tl.tsh } : Tile).fmt = tl.fmt ∧ ({ tsh := tl.tsh } : Tile).rows = tl.rows ∧ ({ tsh := tl.tsh } : Tile).cols = tl.cols := ⟨rfl, rfl, rfl⟩
  rw [e.1, e.2.1, e.2.2] at h
  obtain ⟨⟨⟨⟨⟨⟨⟨⟨⟨⟨⟨h1, h2⟩, -⟩, -⟩, -⟩, -⟩, h3⟩, h4⟩, h5⟩, h6⟩, -⟩, -⟩ := h
  obtain ⟨k1, k2, k3⟩ := fmt_key _ _ h1 h2 h6
  refine ⟨by omega, h4, k1, k2, k3, ?_⟩
  unfold Tile.rowBytes; omega

theorem bits_putBits (n : Nat) (v : BitVec n) (i w x j w' : Nat) (h : i + w ≤ n) : 
    ((j + w' ≤ i ∨ i + w ≤ j) → bits (putBits v i w x) j w' = bits v j w') ∧ (x < 2 ^ w → bits (putBits v i w x) i w = x) := by
  have tb : ∀ v : BitVec n, ∀ j w l, (bits v j w).testBit l = (decide (l < w) && v.getLsbD (j + l)) := by
    intro v j w l
    unfold bits
    rw [Nat.testBit_mod_two_pow, Nat.testBit_div_two_pow, BitVec.getLsbD, Nat.add_comm]
  constructor
  · intro hd
    apply Nat.eq_of_testBit_eq
    intro l
    rw [tb, tb]
    by_cases hl : l < w'
    · rw [getLsbD_putBits _ _ _ _ _ h, if_neg (by omega)]
    · simp [hl]
  · intro hx
    apply Nat.eq_of_testBit_eq
    intro l
    rw [tb]
    by_cases hl : l < w
    · rw [getLsbD_putBits _ _ _ _ _ h, if_pos (by omega)]; simp [hl]
    · simp only [hl, decide_false, Bool.false_and]
      apply Eq.symm; apply Nat.testBit_eq_false_of_lt
      exact lt_of_lt_of_le hx (Nat.pow_le_pow_right Nat.two_pos (by omega))

theorem row_bits (v : BitVec 16384) (r j w : Nat) (h : j + w ≤ 1024) : bits v (1024 * r) 1024 / 2 ^ j % 2 ^ w = bits v (1024 * r + j) w := by
  unfold bits
  have e : v.toNat / 2 ^ (1024 * r) % 2 ^ 1024 / 2 ^ j % 2 ^ w = v.toNat / 2 ^ (1024 * r) / 2 ^ j % 2 ^ w := by
    apply Nat.eq_of_testBit_eq
    intro l
    simp only [Nat.testBit_mod_two_pow, Nat.testBit_div_two_pow]
    by_cases hl : l < w
    · have : l + j < 1024 := by omega
      simp [hl, this]
    · simp [hl]
  rw [e, Nat.div_div_eq_div_mul, ← Nat.pow_add]

theorem column_fold (w j : Nat) (f : Nat → Nat) (hw : w * j + w ≤ 1024) (hf : ∀ i, f i < 2 ^ w) (n : Nat) (hn : n ≤ 16) (v : BitVec 16384) :
    ∀ r j', r < 16 → (w * j' + w ≤ w * j ∨ w * j + w ≤ w * j' ∨ j' = j) → w * j' + w ≤ 1024 →
      bits ((List.range n).foldl (fun dd i => putBits dd (1024 * i + w * j) w (f i)) v) (1024 * r + w * j') w =
        if j' = j ∧ r < n then f r else bits v (1024 * r + w * j') w := by
  induction n with
  | zero => intro r j' _ _ _; rw [if_neg (by omega)]; rfl
  | succ n ih =>
    intro r j' hr hj hj'
    rw [List.range_succ, List.foldl_append, List.foldl_cons, List.foldl_nil]
    generalize hg : (List.range n).foldl (fun dd i => putBits dd (1024 * i + w * j) w (f i)) v = g
    have ih' := ih (by omega) r j' hr hj hj'
    rw [hg] at ih'
    have hfit : 1024 * n + w * j + w ≤ 16384 := by omega
    by_cases hrn : r = n ∧ j' = j
    · obtain ⟨rfl, rfl⟩ := hrn
      rw [(bits_putBits _ g _ w (f r) (1024 * r + w * j') w hfit).2 (hf r), if_pos ⟨rfl, by omega⟩]
    · have hd : 1024 * r + w * j' + w ≤ 1024 * n + w * j ∨ 1024 * n + w * j + w ≤ 1024 * r + w * j' := by
        rcases Nat.lt_trichotomy r n with h | h | h
        · omega
        · subst h
          rcases hj with h | h | h
          · omega
          · omega
          · exact absurd ⟨rfl, h⟩ hrn
        · omega
      rw [(bits_putBits _ g _ w (f n) _ w hfit).1 hd, ih']
      by_cases hc : j' = j ∧ r < n
      · rw [if_pos hc, if_pos ⟨hc.1, by omega⟩]
      · rw [if_neg hc, if_neg (by
          rintro ⟨h1, h2⟩
          have : r = n := by omega
          exact hrn ⟨this, h1⟩)]

theorem queued_enqueue (u : State) (op : QOp) : Queued u ((u.enqueue op).advance) op := by
  have hc : (u.enqueue op).cur = u.cur := rfl
  refine ⟨?_, ?_, ?_, ?_⟩
  · simp only [State.myCore, State.advance, State.modMe_cur, State.core_modMe, hc, if_true]
    simp only [State.enqueue, State.core_modCore_same]
  · rw [State.advance, State.me_modMe, State.me_enqueue]; rfl
  · intro i hi
    rw [State.advance, State.ctx_modMe_other _ _ (by rw [hc]; exact hi)]
    simp only [State.enqueue, State.ctx, State.core_modCore]; split
    · rename_i h; rw [h]; rfl
    · rfl
  · intro pa; simp only [State.advance, State.homeByte_modMe, State.enqueue, State.homeByte_modCore]

theorem modSlot_frame (s : State) (core n : Nat) (f : Slot → Slot) :
    (s.modSlot core n f).cur = s.cur ∧ (s.modSlot core n f).mods = s.mods ∧ (∀ i, (s.modSlot core n f).ctx i = s.ctx i) ∧
    (∀ m, ((s.modSlot core n f).core m).queue = (s.core m).queue) ∧ (∀ pa, (s.modSlot core n f).homeByte pa = s.homeByte pa) ∧
    (∀ cl, (s.modSlot core n f).cluster cl = if cl = clusterOf core then { s.cluster cl with slots := smSet (s.cluster cl).slots n (f ((s.cluster cl).slot n)) } else s.cluster cl) := by
  unfold State.modSlot
  dsimp only
  generalize (Undo.slot n _ _ _ _ _ : Undo) = u
  obtain ⟨h1, h2, h3, h4⟩ := s.logUndo_rest core u
  have hcl : ∀ cl, (s.logUndo core u).cluster cl = s.cluster cl := by
    intro cl
    unfold State.logUndo
    split
    · rfl
    · split <;> rfl
  refine ⟨h1, h2, s.me_logUndo _ _, h4, h3, fun cl => ?_⟩
  rw [State.cluster_modCluster]
  split
  · rename_i h; subst h; simp only [hcl]
  · exact hcl cl

theorem takeSlot_spec (s : State) (n : Nat) : (s.takeSlot n).cur = s.cur ∧ (s.takeSlot n).mods = s.mods ∧ (∀ i, (s.takeSlot n).ctx i = s.ctx i) ∧
    (∀ m, ((s.takeSlot n).core m).queue = (s.core m).queue) ∧ (∀ pa, (s.takeSlot n).homeByte pa = s.homeByte pa) ∧
    (s.takeSlot n).slot n = (if (s.slot n).owner = none then { s.slot n with owner := some s.tag } else s.slot n) ∧ ∀ m, m ≠ n → (s.takeSlot n).slot m = s.slot m := by
  unfold State.takeSlot
  split
  · obtain ⟨h1, h2, h3, h4, h5, h6⟩ := modSlot_frame s s.cur.core n (fun t => { t with owner := some s.tag })
    refine ⟨h1, h2, h3, h4, h5, ?_, fun m hm => ?_⟩
    · rw [State.slot, h1, h6, if_pos rfl]; simp [Cluster.slot, State.slot]
    · rw [State.slot, h1, h6, if_pos rfl]; simp only [Cluster.slot, smGet_smSet_other _ hm, State.slot]
  · exact ⟨rfl, rfl, fun _ => rfl, fun _ => rfl, fun _ => rfl, rfl, fun _ _ => rfl⟩

theorem matrixCommitted (s : State) (n : Nat) (v : BitVec 16) (op : MatOp) : MatrixCommitted s (((s.takeSlot n).enqueue (.matrix n (some v) op)).advance) n v op := by
  obtain ⟨h1, h2, h3, h4, h5, h6, h7⟩ := takeSlot_spec s n
  have q := queued_enqueue (s.takeSlot n) (.matrix n (some v) op)
  have hme : (s.takeSlot n).me = s.me := by rw [State.me, State.me, h1, h3]
  have hlen : (s.takeSlot n).len = s.len := by rw [State.len, State.len, h2]
  have hq : (s.takeSlot n).myCore.queue = s.myCore.queue := by rw [State.myCore, State.myCore, h1]; exact h4 _
  have hpc : (s.takeSlot n).pc = s.pc := by rw [State.pc, State.pc, hme]
  have hs : ∀ m, (((s.takeSlot n).enqueue (.matrix n (some v) op)).advance).slot m = (s.takeSlot n).slot m := fun m => rfl
  refine ⟨⟨?_, ?_, ?_, ?_⟩, ?_, ?_⟩
  · rw [q.queued, hq, h1]
  · rw [q.context, hme, hpc, hlen]
  · intro i hi; rw [q.contexts i (by rw [h1]; exact hi), h3]
  · intro pa; rw [q.memory, h5]
  · rw [hs, h6]
  · intro m hm; rw [hs, h7 m hm]

theorem name_ok (s : State) (c n : Nat) (h : bits s.myCore.aslotmap (5 * c) 5 = 16 + n) : s.slotName c = .ok n ∧ n < 16 := by
  have := bits_lt s.myCore.aslotmap (5 * c) 5
  have hn : n < 16 := by norm_num at this; omega
  refine ⟨?_, hn⟩
  unfold State.slotName; dsimp only
  rw [if_pos (by omega), h]; congr 1; omega

theorem mma_fold (t : Slot) (r : Nat × Nat → F32 × Flags) (L : List (Nat × Nat)) (hL : ∀ p ∈ L, p.1 < 16 ∧ p.2 < 16) (u : Slot) (i j : Nat) (hi : i < 16) (hj : j < 16) :
    (L.foldl (fun u p => { u with data := putBits u.data (32 * (16 * p.1 + p.2)) 32 (r p).1.toNat }.orFlags (r p).2) u).elem i j =
      if (i, j) ∈ L then (r (i, j)).1 else u.elem i j := by
  induction L using List.reverseRecOn with
  | nil => simp
  | append_singleton L p ih =>
    rw [List.foldl_append, List.foldl_cons, List.foldl_nil]
    have ih' := ih (fun q hq => hL q (by simp [hq]))
    generalize L.foldl _ u = g at *
    obtain ⟨p1, p2⟩ := hL p (by simp)
    have hfit : 32 * (16 * p.1 + p.2) + 32 ≤ 8192 := by omega
    by_cases h : (i, j) = p
    · subst h
      rw [if_pos (by simp)]
      show f32 (bits (putBits g.data (32 * (16 * i + j)) 32 (r (i, j)).1.toNat) (32 * (16 * i + j)) 32) = _
      rw [(bits_putBits _ _ _ _ _ 0 0 hfit).2 (r (i, j)).1.isLt]
      simp [f32]
    · have hd : 16 * i + j ≠ 16 * p.1 + p.2 := by
        intro hh; apply h; apply Prod.ext
        · show i = p.1; omega
        · show j = p.2; omega
      show f32 (bits (putBits g.data (32 * (16 * p.1 + p.2)) 32 (r p).1.toNat) (32 * (16 * i + j)) 32) = _
      rw [(bits_putBits _ _ _ _ _ (32 * (16 * i + j)) 32 hfit).1 (by omega)]
      show g.elem i j = _
      rw [ih']
      have e : ((i, j) ∈ L ++ [p]) ↔ (i, j) ∈ L := by simp [h]
      simp only [e]

theorem mem_positions (a b i j : Nat) : (i, j) ∈ positions a b ↔ i < a ∧ j < b := by
  unfold positions; simp [List.mem_flatMap]

theorem arb_single (weight : Nat → Nat) (k : Nat) (credit : SMap Int) (loss : SMap Nat) : ∃ cr ls, arbitrate weight [k] credit loss = some (k, cr, ls) := by
  unfold arbitrate
  by_cases h : 45 ≤ smGet loss k 0
  · simp [h]
  · simp [h]

theorem single_heads {α : Type} (f : Nat → Option α) (k : Nat) (hk : k < 4) (w : α) (h1 : f k = some w) (h2 : ∀ j, j < 4 → j ≠ k → f j = none) :
    [0, 1, 2, 3].filterMap f = [w] := by
  interval_cases k
  all_goals
    simp only [List.filterMap_cons, List.filterMap_nil]
    try rw [h1]
    try rw [h2 0 (by norm_num) (by norm_num)]
    try rw [h2 1 (by norm_num) (by norm_num)]
    try rw [h2 2 (by norm_num) (by norm_num)]
    try rw [h2 3 (by norm_num) (by norm_num)]

theorem modSlot_slot (s : State) (n : Nat) (f : Slot → Slot) : (s.modSlot s.cur.core n f).slot n = f (s.slot n) ∧ ∀ m, m ≠ n → (s.modSlot s.cur.core n f).slot m = s.slot m := by
  obtain ⟨h1, h2, h3, h4, h5, h6⟩ := modSlot_frame s s.cur.core n f
  constructor
  · rw [State.slot, h1, h6, if_pos rfl]; simp [Cluster.slot, State.slot]
  · intro m hm; rw [State.slot, h1, h6, if_pos rfl]; simp only [Cluster.slot, smGet_smSet_other _ hm, State.slot]

theorem setTile_frame (u : State) (n : Nat) (v : Tile) :
    (u.setTile n v).me = { u.me with t := smSet u.me.t n v } ∧ (u.setTile n v).cur = u.cur ∧ (u.setTile n v).mods = u.mods ∧
    (∀ i, i ≠ u.cur → (u.setTile n v).ctx i = u.ctx i) ∧ (∀ cl, (u.setTile n v).cluster cl = u.cluster cl) ∧ ∀ pa, (u.setTile n v).homeByte pa = u.homeByte pa := by
  obtain ⟨s, hs, hc, hmo, hx, hq, hm⟩ : ∃ s : State, u.setTile n v
      = s.modMe (fun c => { c with t := smSet c.t n v }) ∧ s.cur = u.cur ∧ s.mods = u.mods ∧
      (∀ i, s.ctx i = u.ctx i) ∧ (∀ cl, s.cluster cl = u.cluster cl) ∧ ∀ pa, s.homeByte pa = u.homeByte pa := by
    refine ⟨if u.cur.ctx = 0 then u.logUndo u.cur.core (.tile n (u.me.tile n)) else u, rfl, ?_⟩
    split
    · obtain ⟨h1, h2, h3, h4⟩ := u.logUndo_rest u.cur.core (.tile n (u.me.tile n))
      refine ⟨h1, h2, u.me_logUndo _ _, fun cl => ?_, h3⟩
      unfold State.logUndo; split
      · rfl
      · split <;> rfl
    · exact ⟨rfl, rfl, fun _ => rfl, fun _ => rfl, fun _ => rfl⟩
  have hme : s.me = u.me := by rw [State.me, State.me, hc, hx]
  rw [hs]
  refine ⟨?_, hc, hmo, fun i hi => ?_, fun cl => hq cl, hm⟩
  · rw [State.me_modMe, hme]
  · rw [State.ctx_modMe_other _ _ (by rw [hc]; exact hi), hx]

theorem rnsDone_spec (h : State) (n : Nat) (l : List (Nat × Int × RnsStatus)) :
    (h.rnsDone n l).cur = h.cur ∧ (h.rnsDone n l).mods = h.mods ∧ (∀ i, (h.rnsDone n l).ctx i = h.ctx i) ∧
    (∀ pa, (h.rnsDone n l).homeByte pa = h.homeByte pa) ∧
    (h.rnsDone n l).slot n = (if (h.slot n).owner = none then { h.slot n with owner := some h.tag } else h.slot n).bump ∧
    (∀ m, m ≠ n → (h.rnsDone n l).slot m = h.slot m) ∧
    ((h.rnsDone n l).cluster (clusterOf h.cur.core)).rnsstat = rnsStatWord (h.cluster (clusterOf h.cur.core)).rnsstat l ∧ True := by
  obtain ⟨t1, t2, t3, t4, t5, t6, t7⟩ := takeSlot_spec h n
  have tst : ((h.takeSlot n).cluster (clusterOf h.cur.core)).rnsstat = (h.cluster (clusterOf h.cur.core)).rnsstat := by
    unfold State.takeSlot; split
    · rw [(modSlot_frame h h.cur.core n _).2.2.2.2.2, if_pos rfl]
    · rfl
  unfold State.rnsDone
  generalize he : (h.takeSlot n).modCluster (clusterOf h.cur.core) (fun c => { c with rnsstat := rnsStatWord c.rnsstat l }) = e
  have e1 : e.cur = h.cur := by rw [← he]; exact t1
  have e2 : e.mods = h.mods := by rw [← he]; exact t2
  have e3 : ∀ i, e.ctx i = h.ctx i := fun i => by rw [← he]; exact t3 i
  have e5 : ∀ pa, e.homeByte pa = h.homeByte pa := fun pa => by rw [← he]; exact t5 pa
  have ec : ∀ cl, (e.cluster cl).slots = ((h.takeSlot n).cluster cl).slots := fun cl => by
    rw [← he, State.cluster_modCluster]; split
    · rename_i h'; rw [h']
    · rfl
  have es : ∀ m, e.slot m = (h.takeSlot n).slot m := fun m => by
    unfold State.slot Cluster.slot; rw [ec, e1, t1]
  have er : (e.cluster (clusterOf h.cur.core)).rnsstat = rnsStatWord (h.cluster (clusterOf h.cur.core)).rnsstat l := by
    rw [← he, State.cluster_modCluster, if_pos rfl]; dsimp only; rw [tst]
  obtain ⟨m1, m2, m3, m4, m5, m6⟩ := modSlot_frame e e.cur.core n Slot.bump
  obtain ⟨s1, s2⟩ := modSlot_slot e n Slot.bump
  rw [e1] at m1 m2 m3 m4 m5 m6 s1 s2
  refine ⟨m1, m2.trans e2, fun i => (m3 i).trans (e3 i), fun pa => (m5 pa).trans (e5 pa), ?_, ?_, ?_, trivial⟩
  · rw [s1, es, t6]
  · intro m hm; rw [s2 m hm, es, t7 m hm]
  · rw [m6, if_pos rfl]; exact er

theorem headQ (s h : State) (hh : AtHead s h) : h.mods = s.mods ∧ (∀ m, h.slot m = s.slot m) ∧ (∀ cl, h.cluster cl = s.cluster cl) := by
  rcases hh with ⟨_, rfl⟩ | ⟨e, rest, _, _, rfl⟩
  · exact ⟨rfl, fun _ => rfl, fun _ => rfl⟩
  · exact ⟨rfl, fun _ => rfl, fun _ => rfl⟩

theorem vecWritten_setV (u : State) (d : Nat) (data : BitVec 2048) (side : Option (BitVec 1280)) (w : VecWork) :
    VecWritten u (((u.setV d data side).enqueue (.vector w)).advance) d data (side.getD (u.vside d)) w := by
  obtain ⟨g1, g2, g3, g4, g5, g6⟩ := setV_frame u d data side
  generalize hg : u.setV d data side = g at *
  have q := queued_enqueue g (.vector w)
  have hlen : g.len = u.len := by rw [State.len, State.len, g3]
  have hpc : g.pc = u.pc := by rw [State.pc, State.pc, g1]
  refine ⟨?_, ?_, ?_, ⟨?_, ?_, ?_⟩⟩
  · rw [q.context, g1]; simp [Ctx.vpair, Ctx.vstate]
  · intro n hn; rw [q.context, g1]; simp only [Ctx.vpair, Ctx.vstate, smGet_smSet_other _ hn]
  · rw [q.context, g1, hpc, hlen]
  · rw [q.queued, g5, g2]
  · intro i hi; rw [q.contexts i (by rw [g2]; exact hi), g4 i hi]
  · intro pa; rw [q.memory, g6]

theorem list_getElem_map_positions {α : Type} (F : Nat × Nat → α) (i j : Nat) (hi : i < 16) (hj : j < 16) (h : 16 * i + j < ((positions 16 16).map F).length) : ((positions 16 16).map F)[16 * i + j] = F (i, j) := by
  rw [List.getElem_map]
  congr 1
  have key : ∀ i, i < 16 → ∀ j, j < 16 → (positions 16 16)[16 * i + j]? = some (i, j) := by
    have : ((List.range 16).all fun i => (List.range 16).all fun j => (positions 16 16)[16 * i + j]? == some (i, j)) = true := by rfl
    intro i hi j hj
    rw [List.all_eq_true] at this
    have := this i (List.mem_range.2 hi)
    rw [List.all_eq_true] at this
    exact eq_of_beq (this j (List.mem_range.2 hj))
  have := key i hi j hj
  rw [List.getElem?_eq_getElem (by simpa using h)] at this
  exact Option.some.inj this

end Sys2Proof.Machine
end

