-- ==== Sys2Proof/Tests/Slice0.lean ====
section
/-! SUPPORT. Tests: words of every instruction decode, ill-formed instructions are refused, small runs of one instruction with results from
the spec or from hand calculation, and, for each statement, states and operands that meet its hypotheses. Where a hypothesis says that a
function answers some result, its witness says isOk. -/

-- The theorems are elaborated one after another: each has its own thread otherwise.
set_option Elab.async false

namespace Sys2Proof.Tests

open Sys2Proof Sys2Proof.Machine

/-! ## States of the tests -/

/-- A device with partition 0 on cluster 0: the control context of core 0 executes at S, and virtual addresses below 0x10000 are an HBM
page with every permission. -/
def booted : State := State.reset.withFetchWord 32 0

/-- `booted` with the executing context changed. -/
def withMe (f : Ctx → Ctx) : State := booted.modMe f

/-- `booted` with an address in x1 and a value in x2. -/
def withX (a b : Word) : State := withMe fun c => { c with x := [(1, a), (2, b)] }

/-- `booted` in a user completion handler at U. -/
def inHandler : State := withMe fun c => { c with status := 0x40 }

/-- `booted` at U. -/
def atUser : State := withMe fun c => { c with status := 0 }

/-- `booted` in step mode. -/
def inSteps : State := booted.modPart 0 fun p => { p with mode := true }

/-- `booted` with a second page, at virtual address 0x10000, whose table entry is `e`. -/
def withPage (e : Nat) (a b : Word) : State :=
  { withX a b with mem := (withX a b).mem.setBytes 0x30008 (natToBytes 8 e) }

/-- An outcome that is a next state with a property. -/
def nextIs (o : Host.Outcome State Fault Refusal) (p : State → Bool) : Bool :=
  match o with
  | .next t => p t
  | _ => false

theorem next_of {o : Host.Outcome State Fault Refusal} {p : State → Bool} (h : nextIs o p = true) : ∃ t, o = .next t := by
  cases o with
  | next t => exact ⟨t, rfl⟩
  | fault r => cases h
  | refused r => cases h

/-! ## Words decode to what they stand for -/

/- Each word is put together from the encoding of its row in the opcode table, its operand fields at values that differ from each other. -/

/-- Integer register forms (major 0x01). -/
theorem test_decode_integer : ∀ e ∈ ([
    (0x07ABB000, .add 29 11 22), (0x07ABB001, .sub 29 11 22), (0x07ABB002, .and 29 11 22), (0x07ABB003, .or 29 11 22), (0x07ABB004, .xor 29 11 22),
    (0x07ABB005, .andn 29 11 22), (0x07ABB008, .sll 29 11 22), (0x07ABB009, .srl 29 11 22), (0x07ABB00A, .sra 29 11 22), (0x07ABB00B, .rol 29 11 22),
    (0x07ABB010, .slt 29 11 22), (0x07ABB011, .sltn 29 11 22), (0x07ABB012, .seq 29 11 22), (0x07ABB013, .sne 29 11 22), (0x07ABB014, .min 29 11 22),
    (0x07ABB015, .max 29 11 22), (0x07ABB016, .minn 29 11 22), (0x07ABB017, .maxn 29 11 22), (0x07ABB020, .mul 29 11 22),
    (0x07ABB021, .mulh 29 11 22), (0x07ABB022, .mulhn 29 11 22), (0x07ABB024, .div 29 11 22), (0x07ABB025, .divn 29 11 22),
    (0x07ABB026, .rem 29 11 22), (0x07ABB027, .remn 29 11 22), (0x07AB0030, .clz 29 11), (0x07AB0031, .ctz 29 11), (0x07AB0032, .popc 29 11),
    (0x07AB0033, .bswap 29 11), (0x07AB0034, .sextI8 29 11), (0x07AB0035, .sextI16 29 11), (0x07AB0036, .sextI32 29 11), (0x07AB0037, .zextN8 29 11),
    (0x07AB0038, .zextN16 29 11), (0x07AB0039, .zextN32 29 11)] : List (Nat × Instr)),
    decodeTableWord 32 e.1 = some e.2 := by decide +kernel

/-- Forms with an immediate (majors 0x02 to 0x04). -/
theorem test_decode_immediate : ∀ e ∈ ([
    (0x0BAB0B2E, .addi 29 11 (-1234)), (0x0BAB1B2E, .andi 29 11 (-1234)), (0x0BAB2B2E, .ori 29 11 (-1234)), (0x0BAB3B2E, .xori 29 11 (-1234)),
    (0x0BAB4B2E, .slti 29 11 (-1234)), (0x0BAB5B2E, .sltni 29 11 (-1234)), (0x0BAB6B2E, .seqi 29 11 (-1234)), (0x0BAB702D, .slli 29 11 45),
    (0x0BAB802D, .srli 29 11 45), (0x0BAB902D, .srai 29 11 45), (0x0FBEDCB1, .lih 29 (-74575)), (0x13BEDCB1, .adrp 29 (-74575))] : List (Nat × Instr)),
    decodeTableWord 32 e.1 = some e.2 := by decide +kernel

/-- Branches and jumps (majors 0x10 to 0x18). -/
theorem test_decode_branches : ∀ e ∈ ([
    (0x4176FFF9, .beq 11 22 (-7)), (0x4576FFF9, .bne 11 22 (-7)), (0x4976FFF9, .blt 11 22 (-7)), (0x4D76FFF9, .bge 11 22 (-7)),
    (0x5176FFF9, .bltn 11 22 (-7)), (0x5576FFF9, .bgen 11 22 (-7)), (0x5BFFFFF0, .j (-16)), (0x5FFFFFF0, .jl (-16)), (0x63AB0B2E, .jlr 29 11 (-1234))] : List (Nat × Instr)),
    decodeTableWord 32 e.1 = some e.2 := by decide +kernel

/-- Control registers, contexts and the system, fences and cache maintenance (majors 0x0C, 0x19, 0x1A). -/
theorem test_decode_control : ∀ e ∈ ([
    (0x6BABB000, .hstart 29 11 22), (0x6BABB001, .hstartN 29 11 22), (0x68000002, .hexit), (0x6A500008, .gjoin 37), (0x6A500009, .gleave 37),
    (0x6A56A80A, .gbar 37 3 21), (0x68000010, .sstep), (0x6BAB0011, .svote 29 11), (0x680B0012, .sexit 11), (0x67A00115, .sysrd 29 277),
    (0x67AB1115, .syswr 29 11 277), (0x67AB2115, .sysset 29 11 277), (0x67AB3115, .sysclr 29 11 277), (0x64004000, .tret), (0x64005000, .uret),
    (0x64006001, .svc 1), (0x64007001, .brk 1), (0x64008000, .yield), (0x30000002, .fence 2), (0x3000000A, .fenceRel 2), (0x30000012, .fenceAcq 2),
    (0x300BB020, .lcClean 11 22), (0x300BB021, .lcInv 11 22), (0x300BB022, .lcFlush 11 22), (0x33ABB024, .l2Evict 29 11 22)] : List (Nat × Instr)),
    decodeTableWord 32 e.1 = some e.2 := by decide +kernel

/-- Scalar floating point (majors 0x0D, 0x1B). -/
theorem test_decode_scalar_fp : ∀ e ∈ ([
    (0x6FABB003, .fadd 29 11 22 .bf16), (0x6FABB004, .fsub 29 11 22 .f64), (0x6FABB008, .fmul 29 11 22 .f64), (0x6FABB00D, .fdiv 29 11 22 .f32),
    (0x6FAB0010, .fsqrt 29 11 .f64), (0x6FABB016, .fmin 29 11 22 .f16), (0x6FABB018, .fmax 29 11 22 .f64), (0x6FABB01F, .fmac 29 11 22 .bf16),
    (0x6FABB021, .fnmac 29 11 22 .f32), (0x6FAB0024, .fneg 29 11 .f64), (0x6FAB0028, .fabs 29 11 .f64), (0x6FABB040, .feq 29 11 22 .f64),
    (0x6FABB046, .flt 29 11 22 .f16), (0x6FABB04B, .fle 29 11 22 .bf16), (0x6FAB0060, .fcvtFpToInt 29 11 .i64 .f64),
    (0x6FAB0064, .fcvtIntToFp 29 11 .i64 .f64), (0x6FAB086B, .fcvtFpToFp 29 11 .f32 .bf16), (0x6FAB0070, .fmvx 29 11), (0x6FAB0074, .fmvf 29 11),
    (0x37AB1B2E, .fld 29 11 .w4 (-1234)), (0x36CB8B2E, .fst 22 11 .w2 (-1234))] : List (Nat × Instr)),
    decodeTableWord 32 e.1 = some e.2 := by decide +kernel

/-- Scalar memory instructions and atomics (majors 0x08 to 0x0B). -/
theorem test_decode_memory : ∀ e ∈ ([
    (0x23AB4B2E, .ld 29 11 .n8 (-1234)), (0x26CB3B2E, .st 22 11 .b8 (-1234)), (0x2BABB007, .amoSwap 29 11 22 .n64),
    (0x2BABB00D, .amoAdd 29 11 22 .n16), (0x2BABB017, .amoAnd 29 11 22 .n64), (0x2BABB01D, .amoOr 29 11 22 .n16), (0x2BABB025, .amoXor 29 11 22 .n16),
    (0x2BABB028, .amoMin 29 11 22 .i8), (0x2BABB032, .amoMax 29 11 22 .i32), (0x2BABB03B, .amoCas 29 11 22 .i64), (0x2BABB044, .amoNib 29 11 22),
    (0x2BABB04B, .amoSadd0 29 11 22 true), (0x2BABB053, .amoSadd1 29 11 22 true), (0x2BABB05B, .amoSadd2 29 11 22 true),
    (0x2BABB063, .amoSadd3 29 11 22 true), (0x280BB069, .faddX 11 22 .bf16), (0x2BAB0071, .xaccRd 29 11 .bf16),
    (0x2FAB0B2E, .ldTake 29 11 .i8 (-1234)), (0x2E0B8005, .stFill 16 11 5), (0x2ECB9000, .rcClose 22 11)] : List (Nat × Instr)),
    decodeTableWord 32 e.1 = some e.2 := by decide +kernel

/-- Vector arithmetic and special functions (majors 0x20 to 0x22). -/
theorem test_decode_vector_arith : ∀ e ∈ ([
    (0x83AB06EC, .vabs 29 11 6 true .f16), (0x83AB06F1, .vneg 29 11 6 true .bf16), (0x87ABB681, .vaddInt true 29 11 22 6 true .i16),
    (0x87ABB68A, .vsubInt true 29 11 22 6 true .i32), (0x87ABB696, .vmulInt true 29 11 22 6 true .n32), (0x87ABB69C, .vmulh true 29 11 22 6 true .n8),
    (0x87ABB6A4, .vminInt true 29 11 22 6 true .n8), (0x87ABB6AE, .vmaxInt true 29 11 22 6 true .n32), (0x87ABB6B5, .vshl true 29 11 22 6 true .n16),
    (0x87ABB6BB, .vshr true 29 11 22 6 true .i64), (0x87ABB6C0, .vand true 29 11 22 6 true), (0x87ABB6C1, .vor true 29 11 22 6 true),
    (0x87ABB6C2, .vxor true 29 11 22 6 true), (0x87ABB6C3, .vandn true 29 11 22 6 true), (0x87ABB6C4, .vsel true 29 11 22 6 true),
    (0x87ABB6D1, .vaddFp true 29 11 22 6 true .bf16), (0x87ABB6D5, .vsubFp true 29 11 22 6 true .bf16),
    (0x87ABB6DA, .vmulFp true 29 11 22 6 true .f32), (0x87ABB6DD, .vfma true 29 11 22 6 true .bf16), (0x87ABB6E1, .vfnma true 29 11 22 6 true .bf16),
    (0x87ABB6E5, .vminFp true 29 11 22 6 true .bf16), (0x87ABB6E8, .vmaxFp true 29 11 22 6 true .f16), (0x8BAB0680, .vld 29 11 6 true),
    (0x8BAB0681, .vst 29 11 6 true), (0x8BB3B689, .vgather 29 19 22 6 true true), (0x8BB3B68B, .vscatter 29 19 22 6 true true),
    (0x8BAB0010, .vtake 29 11), (0x8BABB011, .vfill 29 11 22), (0x8BAB0018, .vlds 29 11), (0x8BAB0019, .vsts 29 11)] : List (Nat × Instr)),
    decodeTableWord 32 e.1 = some e.2 := by decide +kernel

/-- Vector conversions, permutes, compares, predicates and control (majors 0x23 to 0x27). -/
theorem test_decode_vector_other : ∀ e ∈ ([
    (0x8FAB0685, .vcvt 29 11 6 true .e4m3F32 true), (0x8FAB001F, .vcvtFb 29 11 true true), (0x8FAB0021, .vmxcvt 29 11 true),
    (0x8FABB02C, .vaddFb 29 11 22 true), (0x8FABB02D, .vsubFb 29 11 22 true), (0x8FABB02E, .vmulFb 29 11 22 true),
    (0x8FABB6B0, .vmulLg6 29 11 22 6 true), (0x93AB0680, .vrcp 29 11 6 true), (0x93AB0681, .vrsq 29 11 6 true), (0x93ABB682, .vrcps 29 11 22 6 true),
    (0x93ABB683, .vrsqs 29 11 22 6 true), (0x93AB0684, .vexp2 29 11 6 true), (0x93AB0685, .vlog2 29 11 6 true),
    (0x94ABB681, .vceqInt 5 11 22 6 true .i16), (0x94ABB68E, .vcneInt 5 11 22 6 true .n32), (0x94ABB693, .vcltInt 5 11 22 6 true .i64),
    (0x94ABB69C, .vcleInt 5 11 22 6 true .n8), (0x94ABB6A2, .vceqFp 5 11 22 6 true .f32), (0x94ABB6A6, .vcneFp 5 11 22 6 true .f32),
    (0x94ABB6A8, .vcltFp 5 11 22 6 true .f16), (0x94ABB6AC, .vcleFp 5 11 22 6 true .f16), (0x94ABB6B1, .vcun 5 11 22 6 true .bf16),
    (0x94A336C0, .pand 5 3 6 6 true), (0x94A336C1, .por 5 3 6 6 true), (0x94A336C2, .pxor 5 3 6 6 true), (0x94A336C3, .pandn 5 3 6 6 true),
    (0x94A306C4, .pnot 5 3 6 true), (0x97A306C8, .pcnt 29 3 6 true), (0x97A306C9, .pffs 29 3 6 true), (0x94AB06CA, .pmask 5 11 6 true),
    (0x9BABB682, .vperm 29 11 22 6 true .i32), (0x9BAB068A, .vcompress 29 11 6 true .i32), (0x9BAB0696, .vexpand 29 11 6 true .n32),
    (0x9BAB0698, .vredsumInt 29 11 6 true .i8), (0x9BAB06A7, .vredminInt 29 11 6 true .n64), (0x9BAB06A9, .vredmaxInt 29 11 6 true .i16),
    (0x9BAB06B0, .vargmaxInt 29 11 6 true .i8), (0x9BAB06BE, .vargminInt 29 11 6 true .n32), (0x9BAB06C0, .vredsumFp 29 11 6 true .f16),
    (0x9BAB06C5, .vredminFp 29 11 6 true .bf16), (0x9BAB06C8, .vredmaxFp 29 11 6 true .f16), (0x9BAB06CE, .vargmaxFp 29 11 6 true .f32),
    (0x9BAB06D0, .vargminFp 29 11 6 true .f16), (0x9FA0B681, .vdupInt 29 22 6 true .i16), (0x9FA0B688, .vdupFp 29 22 6 true .f16),
    (0x9C00B010, .vrep 22), (0x9FA00011, .vbusy 29), (0x9C000012, .vfence)] : List (Nat × Instr)),
    decodeTableWord 32 e.1 = some e.2 := by decide +kernel

/-- Tiles, products, drains and slots (majors 0x28 to 0x2C). -/
theorem test_decode_matrix : ∀ e ∈ ([
    (0xA08B0000, .tcfg 4 11), (0xA0800001, .tzero 4), (0xA08BB008, .tld 4 11 22), (0xA08BB009, .tst 4 11 22), (0xA08B000A, .ttake 4 11),
    (0xA08BB00B, .tfill 4 11 22), (0xA08B000C, .tlds 4 11), (0xA08B000D, .tsts 4 11), (0xA093B010, .tmvr 4 19 22), (0xA093B011, .tmvc 4 19 22),
    (0xA3A4B012, .tgetr 29 4 22), (0xA3A4B013, .tgetc 29 4 22), (0xA4AB9C4A, .tmma 2 5 3 19 17 .fb4Fb8), (0xA8AB9C45, .tmmaSp 2 5 3 19 17 .e4m3E5m2),
    (0xACA0980C, .adrain 2 4 19 true .e5m2), (0xAC809810, .aclear 2 19), (0xAC809811, .aclearRns 2 19), (0xAC800012, .aclaim 2),
    (0xAC800013, .afree 2), (0xAC809814, .astat 2 19), (0xB0AB9800, .tmmaI8I8 2 5 3 19), (0xB0AB9801, .tmmaRnsRns 2 5 3 19),
    (0xB0A09809, .adrainRns 2 4 19 true), (0xB0A3980B, .adrainRnsW 2 4 3 19 true), (0xB3AB06A0, .rnsfwd 29 11 6 true),
    (0xB3AB06A1, .rnsrev 29 11 6 true), (0xB3AB06A2, .rnsrevSt 29 11 6 true), (0xB3A20024, .rnsstat 29 2)] : List (Nat × Instr)),
    decodeTableWord 32 e.1 = some e.2 := by decide +kernel

/-- Engine commands and the apprentice (majors 0x30 to 0x35). -/
theorem test_decode_engines : ∀ e ∈ ([
    (0xC00502C0, .esetCopy 5 11), (0xC010EAED, .ecopy 29 11 22 true), (0xC011EAED, .egather 29 11 22 true), (0xC012EAED, .escatter 29 11 22 true),
    (0xC013EAED, .ecopy2d 29 11 22 true), (0xC014EAED, .ecfill 29 11 22 true), (0xC018EAED, .emigrate 29 11 22 true), (0xC48502C0, .esetColl 5 11),
    (0xC490EAED, .callred 29 11 22 true), (0xC491EAED, .callgat 29 11 22 true), (0xC492EAED, .credsc 29 11 22 true),
    (0xC493EAED, .cbcast 29 11 22 true), (0xC498EAC1, .cabort 29 11 true), (0xC910EAED, .qpub 29 11 22 true), (0xC911EAED, .qclaim 29 11 22 true),
    (0xC912EAED, .qlaunch 29 11 22 true), (0xC913EAC1, .qsignal 29 11 true), (0xCD8502C0, .esetText 5 11), (0xCD90EAED, .xbind 29 11 22 true),
    (0xCD91EAED, .xfollow 29 11 22 true), (0xCD92EAED, .xtok 29 11 22 true), (0xCD93EAED, .xdetok 29 11 22 true), (0xCD94EAED, .xmask 29 11 22 true),
    (0xD200EAEC, .apxBegin 29 11 22), (0xD201EAC0, .apxEnd 29 11), (0xD202EAEC, .apxCfg 29 11 22), (0xD203EAC0, .apxInv 29 11),
    (0xD204EAC0, .apxStat 29 11), (0xD208EAED, .apxLoad 29 11 22 true), (0xD209EAED, .apxSave 29 11 22 true), (0xD58002C0, .twait .text 11),
    (0xD501E800, .tget .queue 29), (0xD602E800, .tgetE .apx 29), (0xD403E800, .tgetA .copy 29), (0xD60402C0, .tnote .apx 11)] : List (Nat × Instr)),
    decodeTableWord 32 e.1 = some e.2 := by decide +kernel

/-- The committee and combining (majors 0x38, 0x39). -/
theorem test_decode_committee : ∀ e ∈ ([
    (0xE280EAED, .ccfg 29 11 22 true), (0xE281EAC1, .crejoin 29 11 true), (0xE288EAC0, .cmrd 29 11), (0xE289EAEC, .cmwr 29 11 22),
    (0xE28AE800, .cstat 29), (0xE290EAEC, .catch 29 11 22), (0xE291EAEC, .catchNv 29 11 22), (0xE2C0EAEC, .cwait 29 11 22),
    (0xE2C1EAEC, .nmax 29 11 22), (0xE2C2EAEC, .nsum 29 11 22), (0xE2C3EAEC, .nsumMax 29 11 22), (0xE2C4EAEC, .catchK 29 11 22),
    (0xE7ABB680, .ccomb 29 11 22 6 true), (0xE7ABB688, .gnoise 29 11 22 6 true), (0xE7A0B689, .gnoiseU 29 22 6 true)] : List (Nat × Instr)),
    decodeTableWord 32 e.1 = some e.2 := by decide +kernel

/-- A pair of a prefix and a word, and words that are nothing: a nonzero reserved field, a reserved function, major and type, `!p0`, and a prefix
before a word that takes none (R47, R50, R53). -/
theorem test_decode_pairs_and_refusals :
    decodeTableWord 64 (0x8022185E * 2 ^ 32 + 0xF92F8000) = some (.prefixed ⟨true, .none, true, false, -2⟩ (.vfma false 1 2 3 0 false .f32)) ∧
    decodeTableWord 64 (0x04A53000 * 2 ^ 32 + 0xF92F8000) = none ∧
    ∀ w ∈ [0x00000000, 0x04A53040, 0x04A5303F, 0x14000000, 0xFFFFFFFF, 0x802218DE], decodeTableWord 32 w = none := by decide +kernel

/-! ## Ill-formed instructions are refused -/

/-- Register numbers beyond 31 (R44): one for each place of each shape. -/
theorem test_wf_registers : ∀ i ∈ ([
    .add 32 1 1, .add 1 32 1, .add 1 1 32, .clz 32 1, .clz 1 32, .addi 32 1 0, .addi 1 32 0, .slli 32 1 0, .slli 1 32 0, .lih 32 0, .beq 32 1 0,
    .beq 1 32 0, .st 32 1 .b1 0, .st 1 32 .b1 0, .faddX 32 1 .f32, .faddX 1 32 .f32, .rcClose 32 1, .rcClose 1 32, .stFill 0 32 1, .sexit 32,
    .gbar 1 1 32, .vrep 32, .sysrd 32 0, .syswr 32 1 0, .syswr 1 32 0, .fcvtFpToFp 32 1 .f16 .f32, .fcvtFpToFp 1 32 .f16 .f32, .rnsstat 32 0,
    .vbusy 32, .axctlWrite .wr 0 32 1, .axctlWrite .wr 0 1 32, .tshWrite .wr 0 32 1, .tshWrite .wr 0 1 32, .esetCopy 0 32, .tcfg 0 32, .tld 0 32 1,
    .tld 0 1 32, .tmvr 0 32 1, .tmvr 0 1 32, .tgetr 32 0 1, .tgetr 1 0 32, .tmma 0 0 0 32 0 .f32F32, .tmma 0 0 0 0 32 .f32F32,
    .tmmaI8I8 0 0 0 32, .adrain 0 0 32 false .f32, .adrainRnsW 0 0 0 32 false, .aclear 0 32, .astat 0 32, .vceqInt 0 32 1 0 false .i8,
    .vceqInt 0 1 32 0 false .i8, .pmask 0 32 0 false, .pcnt 32 0 0 false, .vaddInt false 32 1 1 0 false .i8, .vaddInt false 1 32 1 0 false .i8,
    .vaddInt true 1 1 32 0 false .i8, .vld 32 1 0 false, .vld 1 32 0 false, .vdupInt 32 1 0 false .i8, .vdupInt 1 32 0 false .i8,
    .vgather 32 1 1 0 false false, .vgather 1 32 1 0 false false, .vgather 1 1 32 0 false false] : List Instr), i.wf = false := by decide

/-- Predicates, tiles, slot names and the other small numbers beyond their range, and the complement of p0 (R45, R47). -/
theorem test_wf_small_numbers : ∀ i ∈ ([
    .vaddInt false 1 1 1 8 false .i8, .vaddInt false 1 1 1 0 true .i8, .vld 1 1 8 false, .vld 1 1 0 true, .vdupInt 1 1 0 true .i8,
    .vceqInt 8 1 1 0 false .i8, .vceqInt 1 1 1 0 true .i8, .pand 8 1 1 0 false, .pand 1 8 1 0 false, .pand 1 1 8 0 false, .pand 1 1 1 0 true,
    .pnot 8 1 0 false, .pnot 1 8 0 false, .pnot 1 1 0 true, .pmask 8 1 0 false, .pmask 1 1 0 true, .pcnt 1 8 0 false, .pcnt 1 1 0 true,
    .vgather 1 1 1 0 true false, .tcfg 8 1, .tld 8 1 1, .tmvr 8 1 1, .tgetr 1 8 1, .tzero 8, .tmma 4 0 0 0 0 .f32F32, .tmma 0 8 0 0 0 .f32F32,
    .tmma 0 0 8 0 0 .f32F32, .tmmaI8I8 4 0 0 0, .tmmaI8I8 0 8 0 0, .tmmaI8I8 0 0 8 0, .adrain 4 0 0 false .f32, .adrain 0 8 0 false .f32,
    .adrainRnsW 4 0 0 0 false, .adrainRnsW 0 8 0 0 false, .adrainRnsW 0 0 8 0 false, .aclear 4 0, .aclaim 4, .astat 4 1, .rnsstat 0 4,
    .esetCopy 8 0, .tshWrite .wr 8 0 0, .axctlWrite .wr 4 0 0, .gbar 1 8 1] : List Instr), i.wf = false := by decide

/-- Immediates, counts and codes beyond their range, and the operand values that no encoding has (R43 to R48, R110, R118, R157, R198, R203). -/
theorem test_wf_immediates : ∀ i ∈ ([
    .addi 1 1 2048, .addi 1 1 (-2049), .st 1 1 .b1 2048, .st 1 1 .b1 (-2049), .beq 1 1 32768, .beq 1 1 (-32769), .lih 1 1048576,
    .lih 1 (-1048577), .j 33554432, .j (-33554433), .slli 1 1 64, .sysrd 1 4096, .syswr 1 1 4096, .svc 4096, .gjoin 64, .gbar 64 1 1,
    .gbar 1 0 1, .stFill 1 1 1, .stFill 0 1 64, .fence 7, .fenceRel 7, .fenceAcq 7, .astat 0 0, .fcvtFpToFp 1 1 .f32 .f32,
    .prefixed ⟨true, .none, true, false, 32⟩ (.vfma false 1 2 3 0 false .f32), .prefixed ⟨true, .none, true, false, -33⟩ (.vfma false 1 2 3 0 false .f32),
    .prefixed ⟨true, .none, true, false, 0⟩ (.add 1 1 1), .prefixed ⟨true, .none, true, false, 0⟩ (.vfma false 32 2 3 0 false .f32)] : List Instr),
    i.wf = false := by decide

/-- Events of units that no BY-2800 has (R10, R18, R30, R163). -/
theorem test_wf_events : ∀ i ∈ ([
    .laneGroupBinding 256, .vectorCompletion 256 0, .vectorCompletion 0 4, .engineCommandBegin 1024 0 1, .engineCommandBegin 0 6 1,
    .collectiveAbort 1024 1, .asyncTrapEntry 1024 0, .asyncTrapEntry 0 11, .helperCauseTaken 1024 1, .helperCauseTaken 0 0, .helperCauseTaken 0 11,
    .uncorrectableCoreError 1024 0, .uncorrectableCoreError 0 13, .bellStop 64, .create ⟨64, 0, 0, 1, 1, 0, 1, 1, 0, 0, []⟩, .linkTimeout 64 0,
    .linkTimeout 0 16, .linkRetrain 16, .peerTimeout 64 0, .peerTimeout 0 64, .resume 0 16 0, .resume 0 0 16, .qcfgWrite 64 0 0 0,
    .qcfgWrite 0 8 0 0, .qcfgWrite 0 0 3 0, .qcfgWrite 0 0 0 (2 ^ 64), .sqdbWrite 64 0 0, .sqdbWrite 0 8 0, .sqdbWrite 0 0 (2 ^ 32), .nop 64 0,
    .nop 0 8, .cmemFault 8 0, .cmemFault 0 8, .catchCommit 8, .textFollow 32, .hbmCorrectedError (2 ^ 23) 0, .hbmCorrectedError 0 65536,
    .hbmPageRetirement (2 ^ 36) true, .thermalTrip 4, .expanderLinkDown 4, .remoteAccess 64 ⟨0, 1, false, [], none⟩,
    .remoteAccess 0 ⟨2 ^ 52, 1, false, [], none⟩, .hostAccess ⟨2 ^ 52, 1, false, [], none⟩, .illegalInstruction (2 ^ 32)] : List Instr),
    i.wf = false := by decide

/-- Terms at the ends of the ranges are well formed. -/
theorem test_wf_ends : ∀ i ∈ ([
    .add 31 0 31, .addi 0 31 (-2048), .addi 0 31 2047, .beq 31 31 (-32768), .lih 31 1048575, .j (-33554432), .slli 31 31 63, .syswr 31 31 4095,
    .gbar 63 7 31, .gbar 0 0 0, .stFill 16 31 63, .fence 6, .astat 3 31, .vaddInt true 31 31 31 7 true .n64, .vaddInt false 0 0 0 0 false .i8,
    .tmma 3 7 7 31 31 .bf16Fb4, .prefixed ⟨true, .pos, true, true, -32⟩ (.vfma false 31 31 31 7 true .f32), .vectorCompletion 255 3,
    .helperCauseTaken 1023 10, .qcfgWrite 63 7 2 (2 ^ 64 - 1)] : List Instr), i.wf = true := by decide

/-! ## Witnesses of the statements' hypotheses -/

/-- IntegerResults: writable destinations, x0 and x31 among them, and shift amounts at both ends. -/
theorem test_hyp_IntegerResults :
    booted.me.canWrite 0 = true ∧ booted.me.canWrite 31 = true ∧ inHandler.me.canWrite 8 = true ∧ 0 < 64 ∧ 63 < 64 := by decide +kernel

/-- DivisionNeverTraps: a writable destination with each kind of divisor. -/
theorem test_hyp_DivisionNeverTraps :
    (withX 7 0).me.canWrite 3 = true ∧ (withX 7 0).x 2 = 0 ∧
    (withX 0x8000000000000000 (-1)).me.canWrite 3 = true ∧ (withX 0x8000000000000000 (-1)).x 2 = -1 := by decide +kernel

/-- ControlTransfers: no prefix in force; a jump's target that is aligned and one that is not. -/
theorem test_hyp_ControlTransfers :
    booted.mods = none ∧ booted.me.canWrite 31 = true ∧ booted.me.canWrite 0 = true ∧
    ((withX 0x1000 0).x 1 + BitVec.ofInt 64 (-4)).toNat % 4 = 0 ∧ ((withX 0x1000 0).x 1 + BitVec.ofInt 64 2).toNat % 4 ≠ 0 ∧ (withX 0x1000 0).me.canWrite 1 = true := by decide +kernel

/-- ScalarFloatingPoint: a writable destination. -/
theorem test_hyp_ScalarFloatingPoint : booted.me.canWrite 0 = true ∧ booted.me.canWrite 31 = true := by decide +kernel

/-- HandlerReturns: `tret` at S with the own EPC and with a helper's, at U, and with a misaligned target; `uret` inside and outside a
handler, with an aligned and a misaligned UEPC. -/
theorem test_hyp_HandlerReturns :
    (booted.me.hctx = 0 ∧ booted.me.priv ≠ 0 ∧ booted.me.epc.toNat % 4 = 0) ∧
    ((withMe fun c => { c with status := 0x301 }).me.hctx = 3 ∧ (withMe fun c => { c with status := 0x301 }).me.priv ≠ 0 ∧
      ((withMe fun c => { c with status := 0x301 }).ctx ⟨0, 3⟩).epc.toNat % 4 = 0) ∧
    atUser.me.priv = 0 ∧
    ((withMe fun c => { c with epc := 2 }).me.priv ≠ 0 ∧ (withMe fun c => { c with epc := 2 }).returnTarget.toNat % 4 ≠ 0) ∧
    booted.me.ui = false ∧
    ((withMe fun c => { c with status := 0x40, uepc := 2 }).me.ui = true ∧
      (withMe fun c => { c with status := 0x40, uepc := 2 }).me.uepc.toNat % 4 ≠ 0) ∧
    inHandler.me.ui = true ∧ inHandler.me.uepc.toNat % 4 = 0 := by decide +kernel

/-- HandlerRegistersProtected. -/
theorem test_hyp_HandlerRegistersProtected : inHandler.me.ui = true ∧ inHandler.me.priv = 0 ∧ 9 ≤ 9 ∧ 9 ≤ 31 := by decide +kernel

/-- `booted` with a page of device `d` at virtual address 0x10000. -/
def remotePage (d : Nat) : State := withPage (remoteBase + d * 0x100000000000 + 0xCE) 0x10000 9

/-- The device range of another device. -/
theorem remote_region (d : Nat) (hd : d < 64) (h : d ≠ Config.deviceNumber % 64) : regionOf (remoteBase + d * 0x100000000000) = .remote d := by
  unfold regionOf
  rw [if_neg (by unfold remoteBase; omega), if_neg (by unfold remoteBase cxlBase; omega), if_neg (by unfold remoteBase sramBase; omega),
    if_neg (by unfold remoteBase sramBase; omega), if_neg (by omega), if_pos (by unfold remoteBase; omega)]
  dsimp only
  rw [Nat.add_sub_cancel_left, Nat.mul_mod_left, Nat.mul_div_cancel _ (by omega)]
  simp [h]

/-- What R164 to R166 ask of a page of another device. -/
theorem forbidden_remote (s : State) (p : Machine.Partition) (lvl e d : Nat) (h : regionOf (e / 65536 % 2 ^ 36 * 65536) = .remote d) :
    s.pageForbidden p lvl e = (e / 64 % 4 != 3 || e / 256 % 2 == 1) := by
  unfold State.pageForbidden
  simp only [h]

/-- The translation of that page's first byte, where `d` is not this device. -/
theorem remote_translate (d : Nat) (hd : d = 3 ∨ d = 4) (h : d ≠ Config.deviceNumber % 64) :
    (remotePage d).translate (remotePage d).req .load 0x10000 = .ok ⟨0x10000, remoteBase + d * 0x100000000000, 3, false, 0⟩ := by
  have hr := remote_region d (by omega) h
  have hf : (remotePage d).pageForbidden ((remotePage d).reqPart (remotePage d).req) 3 (remoteBase + d * 0x100000000000 + 0xCE) = false := by
    rcases hd with rfl | rfl
    · rw [forbidden_remote _ _ _ _ 3 ((congrArg regionOf (by decide +kernel)).trans hr)]; decide +kernel
    · rw [forbidden_remote _ _ _ _ 4 ((congrArg regionOf (by decide +kernel)).trans hr)]; decide +kernel
  have h1 : (remotePage d).walkEntry (0x10000 + 8 * vaIndex 0x10000 1) = 0x20001 := by rcases hd with rfl | rfl <;> decide +kernel
  have h2 : (remotePage d).walkEntry (0x20000 + 8 * vaIndex 0x10000 2) = 0x30001 := by rcases hd with rfl | rfl <;> decide +kernel
  have h3 : (remotePage d).walkEntry (0x30000 + 8 * vaIndex 0x10000 3) = remoteBase + d * 0x100000000000 + 0xCE := by rcases hd with rfl | rfl <;> decide +kernel
  have u : ∀ l, (remotePage d).unreadable l = false := by
    intro l
    unfold State.unreadable
    rw [show (remotePage d).poison = [] from rfl, show (remotePage d).dead = [] from rfl]
    rfl
  have e1 : (remotePage d).expanderDown (0x10000 + 8 * vaIndex 0x10000 1) = false := by rcases hd with rfl | rfl <;> decide +kernel
  have e2 : (remotePage d).expanderDown (0x20000 + 8 * vaIndex 0x10000 2) = false := by rcases hd with rfl | rfl <;> decide +kernel
  have e3 : (remotePage d).expanderDown (0x30000 + 8 * vaIndex 0x10000 3) = false := by rcases hd with rfl | rfl <;> decide +kernel
  have hr0 : (remotePage d).req.root = 0x10000 := by rcases hd with rfl | rfl <;> decide +kernel
  have hw : (remotePage d).walk ((remotePage d).reqPart (remotePage d).req) 0x10000 3 (remotePage d).req.root 1
      = .ok (remoteBase + d * 0x100000000000 + 0xCE, 3) := by
    rw [hr0]
    simp only [State.walk, u, e1, h1, Bool.or_self, Bool.false_eq_true, if_false]
    rw [if_neg (by decide), if_neg (by decide), if_neg (by decide), show 131073 / 65536 % 2 ^ 36 * 65536 = 0x20000 from rfl]
    simp only [e2, h2, Bool.or_self, Bool.false_eq_true, if_false]
    rw [if_neg (by decide), if_neg (by decide), if_neg (by decide), show 196609 / 65536 % 2 ^ 36 * 65536 = 0x30000 from rfl]
    simp only [e3, h3, Bool.or_self, Bool.false_eq_true, if_false]
    rw [if_neg (by unfold remoteBase; omega), if_neg (by rcases hd with rfl | rfl <;> decide), if_pos (by unfold remoteBase; omega), hf]
    rfl
  unfold State.translate
  rw [hw]
  rcases hd with rfl | rfl <;> decide +kernel

/-- LoadsAndStoresComplete: a location of this device, and one of another; whether that device has answered is a free value, so that the access
completes or waits. -/
theorem test_hyp_LoadsAndStoresComplete_answers :
    (∃ x, booted.translate booted.req .load 0x1000 = .ok x ∧ isRemote x.pa = false) ∧
    ∃ d x, (remotePage d).translate (remotePage d).req .load 0x10000 = .ok x ∧ regionOf x.pa = .remote d ∧
      (remotePage d).me.pairGo = false ∧ (remotePage d).req.pure = none ∧
      ((remotePage d).reqPart (remotePage d).req).peerDown.contains d = false := by
  refine ⟨⟨⟨0x1000, 0x41000, 0, false, 0⟩, by decide +kernel⟩, ?_⟩
  by_cases h : Config.deviceNumber % 64 = 3
  · exact ⟨4, _, remote_translate 4 (.inr rfl) (by omega), remote_region 4 (by omega) (by omega), rfl, rfl, rfl⟩
  · exact ⟨3, _, remote_translate 3 (.inl rfl) (by omega), remote_region 3 (by omega) (by omega), rfl, rfl, rfl⟩

/-- An access to this device is answered at once. -/
theorem answers {s : State} {rq : Req} {k : Acc} {e : Word}
    (h : (match s.translate rq k e.toNat with | .error _ => true | .ok x => !isRemote x.pa) = true) : s.awaitAnswer rq k e = .ok s := by
  unfold State.awaitAnswer
  split
  · rfl
  · rename_i x hx
    rw [hx] at h
    unfold isRemote at h
    cases hr : regionOf x.pa <;> simp_all

/-- LoadsAndStoresComplete: loads and stores that meet no error, of one byte at the end of a page and of eight. -/
theorem test_hyp_LoadsAndStoresComplete :
    (let s := withX 0xFFFF 0
     s.me.canWrite 3 = true ∧ (s.ea 1 0).toNat % LdTy.bytes .n8 = 0 ∧ s.awaitAnswer s.req .load (s.ea 1 0) = .ok s ∧
      (s.loadBytes s.req (vaRange (s.ea 1 0).toNat (LdTy.bytes .n8))).isOk = true) ∧
    (let s := withX 0x1000 5
     (s.ea 1 8).toNat % FpW.bytes .w8 = 0 ∧ s.awaitAnswer s.req .load (s.ea 1 8) = .ok s ∧
      (s.loadBytes s.req (vaRange (s.ea 1 8).toNat (FpW.bytes .w8))).isOk = true) ∧
    let s := withX 0x1000 5
    s.awaitAnswer (s.reqW (s.ea 1 8).toNat) .store (s.ea 1 8) = .ok s ∧ (s.ea 1 8).toNat % StTy.bytes .b8 = 0 ∧
      (s.storeBytes (s.reqW (s.ea 1 8).toNat) (vaRange (s.ea 1 8).toNat (StTy.bytes .b8)) (natToBytes (StTy.bytes .b8) (s.x 2).toNat)).isOk = true ∧
      (s.ea 1 8).toNat % FpW.bytes .w4 = 0 ∧
      (s.storeBytes (s.reqW (s.ea 1 8).toNat) (vaRange (s.ea 1 8).toNat (FpW.bytes .w4)) (natToBytes (FpW.bytes .w4) (s.f 2).toNat)).isOk = true :=
  ⟨⟨by decide +kernel, by decide +kernel, answers (by decide +kernel), by decide +kernel⟩,
    ⟨by decide +kernel, answers (by decide +kernel), by decide +kernel⟩, answers (by decide +kernel), by decide +kernel⟩

/-- The translation of an HBM address below 0x10000 in `booted`. -/
def hbm (va : Nat) : Xlat := ⟨va, 0x40000 + va, 0, false, 0⟩

/-- `Reaches` where its conditions can be computed. -/
theorem reaches {s : State} {rq : Req} {x : Xlat}
    (h : s.scratchBad rq x = false ∧ s.unreachable rq x.pa = false ∧ isRemote x.pa = false ∧
      (x.home = 2 → s.pinCount (s.placeOf rq x).slice < 4096) ∧ s.stray rq x = false ∧ x.lc = false) : Reaches s rq x :=
  ⟨h.1, h.2.1, h.2.2.1, fun e _ _ => h.2.2.2.1 e, h.2.2.2.2.1, h.2.2.2.2.2⟩

/-- LoadsReadAndStoresWriteHome: an aligned load and an aligned store that nothing hinders, at the end of a page. -/
theorem test_hyp_LoadsReadAndStoresWriteHome :
    ((withX 0xFFF8 9).me.canWrite 3 = true ∧ ((withX 0xFFF8 9).ea 1 0).toNat % LdTy.bytes .i64 = 0 ∧
      ((withX 0xFFF8 9).ea 1 0).toNat % FpW.bytes .w8 = 0 ∧
      (withX 0xFFF8 9).translate (withX 0xFFF8 9).req .load ((withX 0xFFF8 9).ea 1 0).toNat = .ok (hbm 0xFFF8) ∧
      (withX 0xFFF8 9).unreadable ((hbm 0xFFF8).pa / 128) = false ∧
      (∀ k, k < 8 → (withX 0xFFF8 9).ownBacking (withX 0xFFF8 9).req (((withX 0xFFF8 9).ea 1 0).toNat + k) = false)) ∧
    Reaches (withX 0xFFF8 9) (withX 0xFFF8 9).req (hbm 0xFFF8) ∧
    MemoryCanonical (withX 0xFFF8 9) ∧
    (withX 0xFFF8 9).stepMode (withX 0xFFF8 9).cur.core = false ∧ (withX 0xFFF8 9).me.pureMarked = false ∧
    (withX 0xFFF8 9).translate ((withX 0xFFF8 9).reqW 0xFFF8) .store 0xFFF8 = .ok (hbm 0xFFF8) ∧
    smHas (withX 0xFFF8 9).lines ((hbm 0xFFF8).pa / 128) = false :=
  ⟨by decide +kernel, reaches (by decide +kernel), (by decide +kernel : (withX 0xFFF8 9).mem.wf = true), by decide +kernel⟩

/-- `inSteps` with an address in x1 and a value in x2. -/
def stepsX (a b : Word) : State := inSteps.modMe fun c => { c with x := [(1, a), (2, b)] }

/-- StepModeStoresWait: a store in step mode to an HBM page. -/
theorem test_hyp_StepModeStoresWait :
    ((stepsX 0x1000 9).stepMode (stepsX 0x1000 9).cur.core = true ∧ (stepsX 0x1000 9).me.pureMarked = false ∧
      (stepsX 0x1000 9).translate ((stepsX 0x1000 9).reqW 0x1000) .store 0x1000 = .ok (hbm 0x1000) ∧ isL2 (hbm 0x1000).pa = true ∧
      smHas (stepsX 0x1000 9).lines ((hbm 0x1000).pa / 128) = false ∧
      (stepsX 0x1000 9).myCore.filledBy (stepsX 0x1000 9).myCore.taskId ((hbm 0x1000).pa / 128) = false ∧
      (stepsX 0x1000 9).myCore.setLines.length < 4096 ∧
      (stepsX 0x1000 9).shadowCount ((stepsX 0x1000 9).placeOf (stepsX 0x1000 9).req (hbm 0x1000)).slice < 1024 ∧
      ((stepsX 0x1000 9).ea 1 0).toNat = 0x1000 ∧ 0x1000 % StTy.bytes .b8 = 0) ∧
    Reaches (stepsX 0x1000 9) (stepsX 0x1000 9).req (hbm 0x1000) :=
  ⟨by decide +kernel, reaches (by decide +kernel)⟩

/-- Atomics: an integer atomic, the nibble form and a converting form that meet no error, and one at a location that nothing hinders. -/
theorem test_hyp_Atomics :
    ((withX 0x1000 9).me.canWrite 3 = true ∧ ((withX 0x1000 9).x 1).toNat % T8.bytes .n64 = 0 ∧ ((withX 0x1000 9).x 1).toNat % 8 = 0 ∧
      ((withX 0x1000 9).atomicBytes ((withX 0x1000 9).reqW 0x1000) 0x1000 (T8.bytes .n64) fun o => wrapInt 64 (o + 9)).isOk = true ∧
      ((withX 0x1000 9).atomicBytes ((withX 0x1000 9).reqW 0x1000) 0x1000 1 fun o => o).isOk = true ∧
      ((withX 0x1000 9).atomicBytes ((withX 0x1000 9).reqW 0x1000) 0x1000 4 fun o => o + 1).isOk = true) ∧
    (withX 0x1000 9).awaitAnswer ((withX 0x1000 9).reqW 0x1000) .atomic 0x1000 = .ok (withX 0x1000 9) ∧
    MemoryCanonical (withX 0x1000 9) ∧ Reaches (withX 0x1000 9) (withX 0x1000 9).req (hbm 0x1000) ∧
    (withX 0x1000 9).stepMode (withX 0x1000 9).cur.core = false ∧ (withX 0x1000 9).me.pureMarked = false ∧ 3 ≠ 0 ∧
    (withX 0x1000 9).translate ((withX 0x1000 9).reqW 0x1000) .atomic 0x1000 = .ok (hbm 0x1000) ∧ isL2 (hbm 0x1000).pa = true ∧
    smHas (withX 0x1000 9).lines ((hbm 0x1000).pa / 128) = false ∧
    (withX 0x1000 9).unreadable ((hbm 0x1000).pa / 128) = false :=
  ⟨by decide +kernel, answers (by decide +kernel), (by decide +kernel : (withX 0x1000 9).mem.wf = true), reaches (by decide +kernel),
    by decide +kernel⟩

/-- ExactAccumulators: a word with no accumulator yet where its slice has room, and one that has one. -/
theorem test_hyp_ExactAccumulators :
    (let s := withX 0x1000 9
     (s.stepMode s.cur.core = false ∧ s.me.pureMarked = false ∧ (s.x 1).toNat % 4 = 0 ∧
      s.translate s.req .atomic (s.x 1).toNat = .ok (hbm 0x1000) ∧ (hbm 0x1000).held = true ∧ smHas s.lines ((hbm 0x1000).pa / 128) = false ∧
      s.accCount (s.placeOf s.req (hbm 0x1000)).slice < 64) ∧ Reaches s s.req (hbm 0x1000)) ∧
    let s := { withX 0x1000 9 with accs := [(0x41000, noAcc)] }
    (smHas s.accs (hbm 0x1000).pa = true ∧ s.translate s.req .atomic (s.x 1).toNat = .ok (hbm 0x1000) ∧ s.mem.wf = true ∧
      s.accs.all (fun e => !e.2.reserved) = true) ∧ Reaches s s.req (hbm 0x1000) :=
  ⟨⟨by decide +kernel, reaches (by decide +kernel)⟩, by decide +kernel, reaches (by decide +kernel)⟩

/-- `booted` with a counted line at 0x1000, with a count of `n`, and x1 and x2. -/
def counted (n : Nat) (b : Word) : State :=
  { withX 0x1000 b with lines := [(0x820, ⟨n, none, false, 0, ⟨0, false, false⟩, 0⟩)] }

/-- CountedLines: a take of a counted line, a fill, a close; and for each clause of a line's life a line in its state. -/
theorem test_hyp_CountedLines :
    (let s := counted 2 0x80
     s.me.canWrite 3 = true ∧ (s.ea 1 0).toNat % LdTy.bytes .i64 = 0 ∧
      (match s.reach (s.reqW 0x1000) .take (s.uncountable (s.reqW 0x1000)) (vaRange (s.ea 1 0).toNat (LdTy.bytes .i64)) with
        | .ok xs => (s.takeX (s.reqW 0x1000) xs).isOk | .error _ => false) = true ∧
      s.countOf ((hbm 0x1000).pa / 128) = 1 + 1 ∧ s.unreadable ((hbm 0x1000).pa / 128) = false ∧
      smHas s.lines ((hbm 0x1000).pa / 128) = true) ∧
    (let s := withX 0x1000 0x80
     (s.x 1).toNat % 128 = 0 ∧ (s.fillBytes (s.reqW 0x1000) 0x1000 1 ((List.range 16).flatMap fun k => natToBytes 8 (s.x (16 + k)).toNat) 63).isOk = true ∧
      (s.x 2).toNat % 128 = 0 ∧ (s.x 2).toNat ≤ 0x100000 ∧
      (match s.reach s.req .take (s.uncountable s.req) ((List.range ((s.x 2).toNat / 128)).map fun k => ((s.x 1).toNat + 128 * k) % 2 ^ 64) with
        | .ok xs => xs == [hbm 0x1000] | .error _ => false) = true ∧
      (∀ x ∈ [hbm 0x1000], s.countOf (x.pa / 128) = 0) ∧ s.stepMode s.cur.core = false ∧ s.unreachable s.req (hbm 0x1000).pa = false ∧
      smHas s.lines ((hbm 0x1000).pa / 128) = false ∧ s.pinCount (s.placeOf s.req (hbm 0x1000)).slice < 4096 ∧
      ({ s with l2 := [(0x820, ⟨⟨0, true, false⟩, none⟩)] } : State).l2.any (fun l => l.1 == (hbm 0x1000).pa / 128 && l.2.place.pin) = true) ∧
    (counted 1 0).countOf ((hbm 0x1000).pa / 128) = 0 + 1 := by decide +kernel

/-- CacheMaintenance: a region of one line; `l2.evict` at S. -/
theorem test_hyp_CacheMaintenance :
    (withX 0x1000 0x80).stepMode (withX 0x1000 0x80).cur.core = false ∧ ((withX 0x1000 0x80).regionXlat 1 2).isOk = true ∧
    (withX 0x1000 0x80).me.canWrite 3 = true ∧ (withX 0x1000 0x80).me.priv ≠ 0 := by decide +kernel

/-- MemoryTraps: misaligned addresses, and aligned ones on no page. -/
theorem test_hyp_MemoryTraps :
    (let s := withX 0x1001 9
     s.me.canWrite 3 = true ∧ (s.ea 1 0).toNat % LdTy.bytes .i64 ≠ 0 ∧ (s.x 1).toNat % 4 ≠ 0 ∧ (s.x 1).toNat % 128 ≠ 0) ∧
    (let s := withX 0x20000 9
     let f : XFault := ⟨0x20000, 2, 3⟩
     (s.ea 1 0).toNat % LdTy.bytes .i64 = 0 ∧ (s.ea 1 0).toNat % StTy.bytes .b8 = 0 ∧ (s.ea 1 0).toNat % FpW.bytes .w8 = 0 ∧
      s.translate s.req .load (s.ea 1 0).toNat = .error f ∧ s.translate (s.reqW (s.ea 1 0).toNat) .store (s.ea 1 0).toNat = .error f ∧
      s.translate (s.reqW (s.ea 1 0).toNat) .take (s.ea 1 0).toNat = .error f ∧
      (s.x 1).toNat % T8.bytes .n64 = 0 ∧ s.translate (s.reqW (s.x 1).toNat) .atomic (s.x 1).toNat = .error f) := by decide +kernel

/-- `booted` with v0 to v31 resident, x1 and x2. -/
def withV (a b : Word) : State :=
  (withX a b).modMe fun c => { c with v := (List.range 32).map fun n => (n, .resident 0x0102030405060708 1) }

/-- VectorRegisterAccess: a register that is brought in, resident ones, unwritten ones, and a pending VREG_FAULT. -/
theorem test_hyp_VectorRegisterAccess :
    ((withX 0 0).vAccess [0] [31]).isOk = true ∧
    ((withV 0 0).me.vregFault = none ∧ ∀ n ∈ [0, 5] ++ [31], ((withV 0 0).me.vstate n).isResident = true) ∧
    ((withX 0 0).me.vregFault = none ∧ ∀ n ∈ [0, 31], (withX 0 0).me.vstate n = .unwritten) ∧
    (withMe fun c => { c with vregFault := some (0x40, none) }).me.vregFault = some (0x40, none) ∧ [5] ++ ([] : List Nat) ≠ [] := by decide +kernel

/-- VectorIntegerElements, VectorFpElements, VectorSpecialFunctions, VectorCompares, VectorPermutes, VectorReductions: a state with room in the
queue and outside a body, in which every list of registers that these name can be brought in. -/
theorem test_hyp_VectorElements :
    (withV 0 0).bodyFits = .ok () ∧ (withV 0 0).queueRoom = true ∧
    ((withV 0 0).vAccess ((withV 0 0).stag 1 2 :: (withV 0 0).stag 0 31 :: ((withV 0 0).vbOf false 3).toList) [(withV 0 0).stag 0 31]).isOk = true ∧
    ((withV 0 0).vAccess ((withV 0 0).stag 1 2 :: (withV 0 0).stag 0 31 :: ((withV 0 0).vbOf true 3).toList) [(withV 0 0).stag 0 31]).isOk = true ∧
    ((withV 0 0).vAccess ((withV 0 0).stag 1 2 :: ((withV 0 0).vbOf false 3).toList) [(withV 0 0).stag 0 31]).isOk = true ∧
    ((withV 0 0).vAccess [(withV 0 0).stag 1 2, (withV 0 0).stag 0 31] [(withV 0 0).stag 0 31]).isOk = true ∧
    ((withV 0 0).vAccess [(withV 0 0).stag 1 2, (withV 0 0).stag 0 31, (withV 0 0).stag 2 3] [(withV 0 0).stag 0 31]).isOk = true ∧
    ((withV 0 0).vAccess [(withV 0 0).stag 1 2, (withV 0 0).stag 2 3] []).isOk = true ∧
    ((withV 0 0).vAccess [(withV 0 0).stag 1 2, (withV 0 0).stag 2 3, (withV 0 0).stag 0 31] [(withV 0 0).stag 0 31]).isOk = true ∧
    ((withV 0 0).vAccess [(withV 0 0).stag 1 2] [(withV 0 0).stag 0 31]).isOk = true := by decide +kernel

/-- PredicateInstructions. -/
theorem test_hyp_PredicateInstructions :
    booted.bodyFits = .ok () ∧ booted.queueRoom = true ∧ booted.me.vregFault = none ∧ booted.me.canWrite 31 = true := by decide +kernel

/-- VectorConversions: an aligned group as destination and as source, and misaligned ones. -/
theorem test_hyp_VectorConversions :
    (withV 0 0).bodyFits = .ok () ∧ (withV 0 0).queueRoom = true ∧
    (let r := (CvtPair.big .e4m3F32).width / (CvtPair.small .e4m3F32).width
     r = 4 ∧ (withV 0 0).stag 0 28 % r = 0 ∧ (withV 0 0).stag 1 8 % r = 0 ∧ (withV 0 0).stag 0 29 % r ≠ 0 ∧ (withV 0 0).stag 1 6 % r ≠ 0 ∧
      ((withV 0 0).vAccess ((withV 0 0).stag 1 2 :: groupRegs ((withV 0 0).stag 0 28) r) (groupRegs ((withV 0 0).stag 0 28) r)).isOk = true ∧
      ((withV 0 0).vAccess ((withV 0 0).stag 0 2 :: groupRegs ((withV 0 0).stag 1 8) r) [(withV 0 0).stag 0 2]).isOk = true) := by
  decide +kernel

/-- VectorBlockFormats: both widths of FB, MX, and block arithmetic. -/
theorem test_hyp_VectorBlockFormats :
    (withV 0 0).bodyFits = .ok () ∧ (withV 0 0).queueRoom = true ∧ 32 / fbWidth true = 8 ∧ 32 / fbWidth false = 4 ∧
    (withV 0 0).stag 1 8 % 8 = 0 ∧ (withV 0 0).stag 0 24 % 8 = 0 ∧
    (∀ r ∈ [4, 8], ((withV 0 0).vAccess (groupRegs ((withV 0 0).stag 1 8) r) [(withV 0 0).stag 0 24]).isOk = true ∧
      ((withV 0 0).vAccess [(withV 0 0).stag 1 8] (groupRegs ((withV 0 0).stag 0 24) r)).isOk = true) ∧
    ((withV 0 0).vAccess [(withV 0 0).stag 1 8, (withV 0 0).stag 2 9] [(withV 0 0).stag 0 24]).isOk = true := by decide +kernel

/-- VectorControl: `vrep` with a count of 0 and of 63; no vector instruction pending, and one. -/
theorem test_hyp_VectorControl :
    ((withV 0 0).queueRoom = true ∧ ((withV 0 0).vAccess [31] [31]).isOk = true ∧ (withV 0 0).me.canWrite 31 = true) ∧
    bits ((withX 0 0).x 1) 0 6 = 0 ∧ bits ((withX 0x1F0F3F 0).x 1) 0 6 ≠ 0 ∧ (withX 0x1F0F3F 0).queueRoom = true ∧
    booted.pendingVector booted.cur.core booted.cur.ctx = 0 ∧
    (let s := booted.modCluster 0 fun c => { c with lanes := [(3, ⟨0, 0, ⟨0, true, [], [3]⟩⟩)] }
     s.myCore.queue = [] ∧ s.pendingVector s.cur.core s.cur.ctx ≠ 0) ∧
    (let s := booted.modCore 0 fun c => { c with queue := [⟨0, .vector ⟨0, true, [], []⟩⟩] }
     s.queueRoom = true ∧ s.myCore.queue ≠ [] ∧ ∀ e ∈ s.myCore.queue, e.isMemoryOf s.cur.ctx = false) := by decide +kernel

/-- VectorMemory: an empty queue, and each access without an error. -/
theorem test_hyp_VectorMemory :
    AtHead (withV 0x1000 0x1000) (withV 0x1000 0x1000) ∧
    (let s := withV 0x1000 0x1000
     s.bodyFits = .ok () ∧ (s.x 1).toNat % 4 = 0 ∧
      (match s.vAccess [s.stag 0 3] [s.stag 0 3] with
        | .ok u => (u.loadBytes u.req (((List.range 256).filter (u.active 0 false)).map fun i => ((s.x 1).toNat + i) % 2 ^ 64)).isOk
        | .error _ => false) = true ∧
      (match s.vAccess [s.stag 0 3] [] with
        | .ok u => (u.storeBytes (u.reqW 0x1000) (((List.range 256).filter (u.active 0 false)).map fun i => ((s.x 1).toNat + i) % 2 ^ 64)
            (((List.range 256).filter (u.active 0 false)).map fun i => (u.vdata (s.stag 0 3)).extractLsb' (8 * i) 8)).isOk
        | .error _ => false) = true) := ⟨.inl (by decide +kernel), by decide +kernel⟩

/-- VectorMemory: a gather and a scatter of the elements under p1, whose addresses are aligned. -/
theorem test_hyp_VectorMemory_indexed :
    let s := (withX 0x1000 0x1000).modMe fun c => { c with p := [(1, 1)] }
    (s.vAccess [s.stag 1 1, s.stag 0 3] [s.stag 0 3]).isOk = true ∧ (s.vAccess [s.stag 1 1, s.stag 0 3] []).isOk = true ∧
    s.indexed (s.stag 1 1) 2 1 false false = [(0, 0x1000)] ∧ (∀ e ∈ [(0, 0x1000)], e.2 % 4 = 0) ∧
    (s.loadBytes s.req (vaRange 0x1000 4)).isOk = true ∧ (s.storeBytes (s.reqW 0x1000) (vaRange 0x1000 4) [1, 2, 3, 4]).isOk = true := by
  decide +kernel

/-- VectorMemory: a take of two counted lines, a fill, and the sidecar's load and store. -/
theorem test_hyp_VectorMemory_lines :
    let s := withV 0x1000 3
    let c : State := { s with lines := [(0x820, ⟨1, none, false, 0, ⟨0, false, false⟩, 0⟩), (0x821, ⟨1, none, false, 0, ⟨0, false, false⟩, 0⟩)] }
    (s.x 1).toNat % 128 = 0 ∧ (s.x 1).toNat % 32 = 0 ∧ (c.vAccess [] [c.stag 0 3]).isOk = true ∧
    (c.takeScalar (vaRange 0x1000 256)).isOk = true ∧ (s.vAccess [s.stag 0 3] []).isOk = true ∧
    (s.fillBytes (s.reqW 0x1000) 0x1000 2 (natToBytes 256 (s.vdata 3).toNat) (bits (s.x 2) 0 6)).isOk = true ∧
    (s.vAccess [3] [3]).isOk = true ∧ (s.loadBytes s.req (vaRange 0x1000 160)).isOk = true ∧
    (s.storeBytes (s.reqW 0x1000) (vaRange 0x1000 160) (natToBytes 160 (s.vside 3).toNat)).isOk = true := by decide +kernel

/-- The other case of being at the head: the context's own memory entry leaves the queue. -/
theorem test_hyp_AtHead :
    let s := booted.modCore 0 fun c => { c with queue := [⟨0, .memory (.vld 1 2 0 false) false⟩] }
    AtHead s s.popHead :=
  .inr ⟨⟨0, .memory (.vld 1 2 0 false) false⟩, [], by decide +kernel, by decide +kernel, rfl⟩

/-- `booted` with tile 1 configured with the shape `t1`, tile 2 with `t2` and tile 3 with `t3`, and x1 and x2. -/
def withT (t1 t2 t3 a b : Word) : State :=
  (withV a b).modMe fun c => { c with t := [(1, { tsh := t1 }), (2, { tsh := t2 }), (3, { tsh := t3 })] }

/-- TileRegisters: a shape of zero, legal and illegal ones, a configured and an unconfigured tile, and moves of plain and sided tiles. -/
theorem test_hyp_TileRegisters :
    bits ((withT 0 0 0 0 0).x 1) 0 5 = 0 ∧ (withT 0 0 0 0 0).queueRoom = true ∧
    (let s := withT 0x201001 0 0 0x201001 0
     s.queueRoom = true ∧ legalShape (s.x 1) = true ∧ (s.me.tile 4).fmt = 0 ∧ s.tileRoom = true ∧ (s.me.tile 1).fmt ≠ 0) ∧
    (let s := withT 0x201001 0 0 0x211001 0
     bits (s.x 1) 0 5 ≠ 0 ∧ legalShape (s.x 1) = false ∧ (s.me.tile 1).fmt ≠ 0) ∧
    (let s := withT 0x201001 0x19641006 0 0 15
     s.queueRoom = true ∧ legalShape (s.me.tile 1).tsh = true ∧ legalShape (s.me.tile 2).tsh = true ∧
      s.vAccess [5] [] = .ok s ∧ s.vAccess [] [5] = .ok s ∧ (s.x 2).toNat < (s.me.tile 1).rows ∧ (s.x 2).toNat < (s.me.tile 1).cols ∧
      (s.me.tile 1).sided = false ∧ (s.x 2).toNat < (s.me.tile 2).rows ∧ (s.me.tile 2).sided = true) := by decide +kernel

/-- TileMemory: an empty queue, and each access of a 2 by 4 tile without an error. -/
theorem test_hyp_TileMemory :
    AtHead (withT 0x040201 0 0 0x1000 0x80) (withT 0x040201 0 0 0x1000 0x80) ∧
    (let s := withT 0x040201 0 0 0x1000 0x80
     let u := s.me.tile 1
     let cells := (List.range u.rows).flatMap fun k => vaRange ((0x1000 + k * 0x80) % 2 ^ 64) u.rowBytes
     u.fmt ≠ 0 ∧ (s.x 1).toNat = 0x1000 ∧ (s.x 2).toNat = 0x80 ∧ 0x1000 % 4 = 0 ∧ 0x80 % 4 = 0 ∧ 0x1000 % 64 = 0 ∧
      (s.loadBytes s.req cells).isOk = true ∧
      (s.storeBytes (s.reqW 0x1000) cells ((List.range u.rows).flatMap fun k => natToBytes u.rowBytes (u.row k))).isOk = true ∧
      (s.loadBytes s.req (vaRange 0x1000 512)).isOk = true ∧
      (s.storeBytes (s.reqW 0x1000) (vaRange 0x1000 512) (natToBytes 512 u.side.toNat)).isOk = true) :=
  ⟨.inl (by decide +kernel), by decide +kernel⟩

/-- TileMemory: a take and a fill of sixteen lines. -/
theorem test_hyp_TileMemory_lines :
    let s := withT 0x040201 0 0 0x1000 3
    let c : State := { s with lines := (List.range 16).map fun k => (0x820 + k, ⟨1, none, false, 0, ⟨0, false, false⟩, 0⟩) }
    0x1000 % 128 = 0 ∧ (c.takeScalar (vaRange 0x1000 2048)).isOk = true ∧
    (s.fillBytes (s.reqW 0x1000) 0x1000 16 (natToBytes 2048 (s.me.tile 1).data.toNat) (bits (s.x 2) 0 6)).isOk = true := by decide +kernel

/-- `withT` with slot names 0, 1 and 2 of core 0 mapped to slots 0, 1 and 2, of which slot 1 holds residues and slot 2 belongs to the executing
context. -/
def withSlots (t1 t2 t3 : Word) : State :=
  ((withT t1 t2 t3 3 7).modCore 0 fun c => { c with aslotmap := 16 + 17 * 2 ^ 5 + 18 * 2 ^ 10 }).modCluster 0 fun c =>
    { c with slots := [(1, { status := 0x800 }), (2, { owner := some (0, 0) })] }

/-- A state whose executing context's drain or `astat` is bound to the matrix engine at the head of the queue. -/
def bound (s : State) (op : QMem) : State := s.modCore 0 fun c => { c with queue := [⟨0, .memory op true⟩] }

/-- MatrixCommits: slots that may be used, free and owned, of both kinds; and the tiles of dense, block, residue and sparse products. -/
theorem test_hyp_MatrixCommits :
    MayCommit (withSlots 0x200402 0x200402 0) 0 0 false ∧ MayCommit (withSlots 0x200402 0x200402 0) 2 2 false ∧
    MayCommit (withSlots 0x200409 0x200409 0) 1 1 true ∧
    (let s := withSlots 0x200402 0x200402 0
     (s.me.tile 1).spn = 0 ∧ (s.me.tile 2).spn = 0 ∧ (s.me.tile 1).cols = (s.me.tile 2).cols ∧
      ((s.me.tile 1).fmt, (s.me.tile 2).fmt) = MmaPair.fmts .bf16Bf16) ∧
    (let s := withSlots 0x08200406 0x08200406 0
     ((s.me.tile 1).fmt, (s.me.tile 2).fmt) = MmaPair.fmts .fb8Fb8 ∧ ((s.me.tile 1).cols + 3) / 4 ≤ (s.me.tile 1).scnt) ∧
    (let s := withSlots 0x200409 0x200409 0
     (s.me.tile 1).fmt = 9 ∧ (s.me.tile 2).fmt = 9) ∧
    (let s := withSlots 0x10040D 0x10040D 0
     (s.me.tile 1).fmt = 13 ∧ (s.me.tile 2).fmt = 13 ∧ (s.me.tile 1).spn = 0) ∧
    (let s := (withSlots 0 0x080402 0x080402).modMe fun c => { c with t := smSet c.t 1 { tsh := 0x100080102, side := 0x00FF } }
     (s.me.tile 1).spn = 1 ∧ (s.me.tile 1).masksOk = true ∧ ((s.me.tile 1).fmt, (s.me.tile 2).fmt) = SpPair.fmts .bf16Bf16 ∧
      2 % 2 = 0 ∧ 2 < 8 ∧ (s.me.tile 3).fmt = (s.me.tile 2).fmt ∧ (s.me.tile 2).spn = 0 ∧ (s.me.tile 3).spn = 0 ∧
      (s.me.tile 2).cols = (s.me.tile 1).cols ∧ (s.me.tile 3).cols = (s.me.tile 1).cols ∧ (s.me.tile 3).rows = (s.me.tile 2).rows) ∧
    (let s := withSlots 0 0 0
     s.queueRoom = true ∧ bits s.myCore.aslotmap (5 * 2) 5 = 16 + 2 ∧ s.afterRetag 2 = .ok () ∧ s.mayUse 2 = true ∧
      (s.slot 2).parked = false ∧ (s.slot 2).owner = some s.tag ∧ s.me.priv ≠ 0) ∧
    (let s := bound (withSlots 0 0 0) (.astat 2 3)
     AtEngine s s.popHead ∧ s.popHead.slotBusy s.cur 2 = false ∧ s.me.canWrite 3 = true) :=
  ⟨⟨by decide +kernel, by decide +kernel, by decide +kernel, by decide +kernel, by decide +kernel, by decide +kernel⟩,
    ⟨by decide +kernel, by decide +kernel, by decide +kernel, by decide +kernel, by decide +kernel, by decide +kernel⟩,
    ⟨by decide +kernel, by decide +kernel, by decide +kernel, by decide +kernel, by decide +kernel, by decide +kernel⟩, by decide +kernel,
    by decide +kernel, by decide +kernel, by decide +kernel, by decide +kernel, by decide +kernel, ⟨by decide +kernel, rfl⟩, by decide +kernel⟩

/-- EnginesAtWork: ready matrix work, or a drain, at the head of core 1's queue alone, matrix work under way, vector work at a head and in a lane group. -/
theorem test_hyp_EnginesAtWork :
    let w : MatWork := ⟨1, 0, 0, .clear false⟩
    let s := booted.modCore 1 fun c => { c with queue := [⟨0, .matrix 0 (some 0) (.clear false)⟩] }
    let m := booted.modCluster 0 fun c => { c with mat := [w] }
    let v := booted.modCore 1 fun c => { c with queue := [⟨0, .vector ⟨1, true, [], [3]⟩⟩] }
    let l := booted.modCluster 0 fun c => { c with lanes := [(3, ⟨1, 0, ⟨1, true, [], [3]⟩⟩)] }
    let d := (bound booted (.astat 2 3)).modCore 1 fun c => { c with aslotmap := 18 * 2 ^ 10, queue := [⟨0, .memory (.astat 2 3) false⟩] }
    (1 < 4 ∧ s.running (4 * 0) = true ∧ s.matContends (4 * 0 + 1) = true ∧ (∀ j ∈ [0, 2, 3], s.matContends (4 * 0 + j) = false) ∧
      (s.core (4 * 0 + 1)).queue = ⟨0, .matrix w.slot (some 0) w.op⟩ :: []) ∧
    (d.running (4 * 0) = true ∧ d.matContends (4 * 0 + 1) = true ∧ ∀ j ∈ [0, 2, 3], d.matContends (4 * 0 + j) = false) ∧
    ((m.cluster 0).mat[0]? = some w ∧ clusterOf w.core = 0 ∧ ∀ u ∈ (m.cluster 0).mat.take 0, u.slot ≠ w.slot) ∧
    (v.running (4 * 0) = true ∧ (v.core (4 * 0 + 1)).queue = ⟨0, .vector ⟨1, true, [], [3]⟩⟩ :: [] ∧ (v.cluster 0).lanes = [] ∧
      ∀ j ∈ [0, 2, 3], (v.core (4 * 0 + j)).queue = []) ∧
    (l.cluster 0).lanes.find? (fun e => e.1 == 3) = some (3, ⟨1, 0, ⟨1, true, [], [3]⟩⟩) ∧
    ({ tsh := 0x201001 } : Tile).rows ≤ 16 ∧ ([({ tsh := 0x201001 } : Tile)].headD {}).rows ≤ 16 := by decide +kernel

/-- Drains: a plain drain in FP32 and in FB8, with and without a prefix, and both drains of residues, each with its version met. -/
theorem test_hyp_Drains :
    AtEngine (bound (withSlots 0x041001 0 0) (.adrain 2 1 0 false .f32 none)) (bound (withSlots 0x041001 0 0) (.adrain 2 1 0 false .f32 none)).popHead ∧
    (∀ f ∈ [((0x041001 : Word), DrainFmt.f32), (0x01041006, .fb8)],
      let s := bound (withSlots f.1 0 0) (.adrain 2 1 0 false f.2 none)
      s.atEngine = true ∧
      bits s.myCore.aslotmap (5 * 2) 5 = 16 + 2 ∧ s.afterRetag 2 = .ok () ∧ s.mayUse 2 = true ∧ (s.slot 2).parked = false ∧
      (s.slot 2).version = BitVec.ofNat 16 (s.x 0).toNat ∧ (s.slot 2).err = false ∧ (s.me.tile 1).cols ≤ 16 ∧ s.rnsSeen 2 = false ∧
      s.mods.isSome = false ∧ ({ s with mods := some ⟨true, .none, true, false, -2⟩ } : State).bodyFits = .ok () ∧
      (s.me.tile 1).fmt = Machine.DrainFmt.code f.2 ∧ ((s.me.tile 1).fmt = 6 → ((s.me.tile 1).cols + 3) / 4 ≤ (s.me.tile 1).scnt)) ∧
    (let s := bound (withSlots 0x04100C 0x04100C 0) (.adrainRns 1 1 0 false)
     s.atEngine = true ∧
     bits s.myCore.aslotmap (5 * 1) 5 = 16 + 1 ∧ s.afterRetag 1 = .ok () ∧ s.mayUse 1 = true ∧ (s.slot 1).parked = false ∧
      (s.slot 1).version = BitVec.ofNat 16 (s.x 0).toNat ∧ (s.slot 1).err = false ∧ s.rnsSeen 1 = true ∧ (s.me.tile 1).fmt = 12 ∧
      rnsTraps (rnsElements (s.cluster 0).rnscfg (s.slot 1) 16 4) = .ok () ∧
      (s.me.tile 2).fmt = 12 ∧ (s.me.tile 2).cols = (s.me.tile 1).cols ∧ (s.me.tile 2).rows = (s.me.tile 1).rows) :=
  ⟨⟨by decide +kernel, rfl⟩, by decide +kernel⟩

/-- ResidueVectors: the registers brought in, and a slot of residues that may be used. -/
theorem test_hyp_ResidueVectors :
    let s := withSlots 0 0 0
    s.queueRoom = true ∧ s.vAccess [2, 3] [3] = .ok s ∧ s.vAccess [] [3] = .ok s ∧ bits s.myCore.aslotmap (5 * 1) 5 = 16 + 1 ∧
    (s.slot 1).rns = true ∧ s.mayUse 1 = true ∧ s.slotBusy s.cur 1 = false := by decide +kernel

/-- A command of an engine context. -/
def cmdOf (o : EngOp) (phase : CmdPhase) (fail : Option Failure) : EngCmd :=
  { op := o, a := 0x1000, b := 0, g := [], ticket := 1, o := false, ctx := 0, priv := 1, ptroot := 0x10000, task := 0, phase := phase, fail := fail,
    key := [5] }

/-- `booted` with commands outstanding on engine `e`, with x1 and x2. -/
def withCmds (e : Nat) (l : List EngCmd) (a b : Word) : State :=
  (withX a b).modCore 0 fun c => { c with engs := [(e, { issue := 1, out := l })] }

/-- EngineCommandsIssue: an engine context with room, a full one, and a privileged command at U. -/
theorem test_hyp_EngineCommandsIssue :
    (withX 9 9).me.canWrite 3 = true ∧ (withX 9 9).me.pureMarked = false ∧ (withX 9 9).me.priv ≠ 0 ∧
    ((withX 9 9).eng 0 (EngOp.engine .ecopy)).out.length < 32 ∧
    32 ≤ ((withCmds 0 (List.replicate 32 (cmdOf .ecopy .issued none)) 9 9).eng 0 (EngOp.engine .ecopy)).out.length ∧
    atUser.me.priv = 0 ∧ atUser.me.canWrite 3 = true ∧ atUser.me.pureMarked = false := by decide +kernel

/-- EngineTimelines: a timeline that has and one that has not reached xa, a command that is done with and without a failure, one whose turn it is
and one whose turn it is not, and a due note. -/
theorem test_hyp_EngineTimelines :
    ((withX 0 0).x 1).toNat ≤ ((withX 0 0).eng 0 0).counter.toNat ∧ ((withX 0 0).eng 0 0).counter.toNat < ((withX 1 0).x 1).toNat ∧
    (withX 0 0).me.canWrite 3 = true ∧
    (let s := withCmds 0 [cmdOf .ecopy .done none] 0 0
     s.cmd 0 0 1 = some (cmdOf .ecopy .done none) ∧ (cmdOf .ecopy .done none).dataFailed = false) ∧
    (let s := withCmds 0 [cmdOf .ecopy .done (some ⟨1, 8⟩)] 0 0
     s.cmd 0 0 1 = some (cmdOf .ecopy .done (some ⟨1, 8⟩)) ∧ (cmdOf .ecopy .done (some ⟨1, 8⟩)).dataFailed = false) ∧
    (let s := withCmds 0 [cmdOf .ecopy .issued none] 0 0
     s.cmd 0 0 1 = some (cmdOf .ecopy .issued none) ∧ (s.core 0).inPart = true ∧ (s.eng 0 0).turnOf 0 (cmdOf .ecopy .issued none) = true) ∧
    (let s := withCmds 0 [cmdOf .ecopy .done none] 0 0
     (s.eng 0 0).turnOf 0 (cmdOf .ecopy .done none) = false) ∧
    (let s := withMe fun c => { c with status := 0, tnote := 2 ^ 56 }
     s.running 0 = true ∧ s.noteDue ⟨0, 0⟩ = true ∧ s.causeDue ⟨0, 0⟩ = false) := by decide +kernel

/-- `booted` with apprentice slot 0 in the state `st` with one input in v1 and one output in v2. -/
def withApx (st : ApxState) (pure : Bool) : State :=
  (withV 0 0x200).modCluster 0 fun c => { c with apx :=
    [(0, { ctl := BitVec.ofNat 64 (1 + 2 ^ 8 + 2 ^ 16 + 2 * 2 ^ 21 + pure.toNat * 2 ^ 27), state := st, weights := some [0, 0],
           lo := [0xFF800000], hi := [0x7F800000] })] }

/-- ApprenticeInstructions: a run that is not served, marked PURE and not; the answer of a served one. -/
theorem test_hyp_ApprenticeInstructions :
    (∀ q ∈ [true, false],
      let s := withApx .observe q
      let sl := s.apxSlot (bits (s.x 1) 0 2)
      s.me.canWrite 3 = true ∧ s.vAccess [axVin sl.ctl] [axVout sl.ctl] = .ok s ∧ bits (s.x 2) 0 2 = 0 ∧
      s.codeAddress (s.x 2).toNat = .ok 0x40200 ∧ s.codeAddress s.pc.toNat = .ok 0x40000 ∧ axPure sl.ctl = q ∧
      (sl.arrive 0x40000 0x40200 (s.lanes32 (axVin sl.ctl) (axNin sl.ctl)) (s.stepMode s.cur.core)).1.served = false) ∧
    (let s := withApx .serve false
     let sl := s.apxSlot (bits (s.x 1) 0 2)
     (sl.arrive 0x40000 0x40200 (s.lanes32 (axVin sl.ctl) (axNin sl.ctl)) (s.stepMode s.cur.core)).1.served = true) ∧
    (let s := withApx .observe false
     s.vAccess [axVout (s.apxSlot (bits (s.x 1) 0 2)).ctl] [] = .ok s) := by decide +kernel

/-- `booted` with helpers of core 0 in a state, x1 and x2. -/
def withHelpers (l : Life) (a b : Word) : State :=
  helperNumbers.foldl (fun s h => s.modCtx ⟨0, h⟩ fun c => { c with life := l }) (withX a b)

/-- `booted` executing helper 1 of core 0. -/
def asHelper : State := { ((withHelpers .live 3 0).modPart 0 fun p => p.setGroup 5 ⟨[⟨0, 1⟩], []⟩) with cur := ⟨0, 1⟩ }

/-- ContextsAndGroups: no helper free, the first one free, a held and a free named one, a number above 10, helpers that may end, and members of
a group and other contexts. -/
theorem test_hyp_ContextsAndGroups :
    ((withX 0x200 4).me.canWrite 3 = true ∧ bits ((withX 0x200 4).x 1) 0 2 = 0) ∧
    (∀ h ∈ helperNumbers, (withHelpers .live 0x200 4).available h = false) ∧
    (helperNumbers.find? (withX 0x200 4).available = some 1 ∧ 1 ≠ (withX 0x200 4).cur.ctx) ∧
    (let s := withHelpers .held 0x200 4
     (s.x 2).toNat = 4 ∧ 1 ≤ 4 ∧ 4 ≤ 10 ∧ 4 ≠ s.cur.ctx ∧ (s.myCore.ctx 4).life = .held ∧ s.me.priv ≠ 0) ∧
    (let s := withX 0x200 10
     (s.x 2).toNat = 10 ∧ 10 ≠ s.cur.ctx ∧ (s.myCore.ctx 10).life ≠ .held ∧ s.available 10 = true) ∧
    10 < ((withX 0x200 11).x 2).toNat ∧
    (asHelper.cur.ctx ≠ 0 ∧ asHelper.queueDone = true ∧ asHelper.me.group = none) ∧ booted.cur.ctx = 0 ∧
    (booted.inGroup 0 = false ∧ booted.inGroup 63 = false) ∧
    (asHelper.inGroup 5 = true ∧ ((asHelper.part asHelper.myPart).group 5).bars = []) ∧ asHelper.countFits 5 1 65535 = true ∧
    asHelper.countFits 5 1 1 = true := by decide +kernel

/-- SuperstepInstructions: the control context in step mode at rest, alone and among others that have not arrived; flow mode; a helper. -/
theorem test_hyp_SuperstepInstructions :
    (inSteps.stepMode inSteps.cur.core = true ∧ inSteps.cur.ctx = 0 ∧ inSteps.helpersRest inSteps.cur.core = true ∧
      inSteps.me.canWrite 3 = true ∧ inSteps.enginesRest inSteps.cur.core = true ∧
      ((inSteps.modMe fun c => { c with wait := .boundary 0 false 0 }).controlWaits inSteps.myPart).all Wait.arrived = false) ∧
    booted.stepMode booted.cur.core = false ∧ asHelper.cur.ctx ≠ 0 ∧ asHelper.me.canWrite 3 = true := by decide +kernel

/-- ControlRegisters: numbers at the ends of the machine range, an unassigned one, read-only ones, those of S and of U, at both levels. -/
theorem test_hyp_ControlRegisters :
    (0x800 ≤ 0x800 ∧ 0x8FF ≤ 0x8FF) ∧ (0x7FF < 0x800 ∧ crKnown 0x7FF = false) ∧ (0x8FF < 0x900 ∧ crKnown 0x900 = false) ∧
    (crKnown 0x003 = true ∧ crReadOnly 0x003 = false) ∧ (crKnown 0x400 = true ∧ crReadOnly 0x400 = false) ∧
    (∃ n ∈ List.range 0x400, crKnown n = true ∧ crReadOnly n = true) ∧ (∃ n ∈ List.range 0x400, crKnown n = true ∧ crUser n = true) ∧
    (atUser.me.priv = 0 ∧ atUser.me.canWrite 3 = true ∧ crUser 0x003 = false) ∧ (booted.me.priv ≠ 0 ∧ booted.me.canWrite 3 = true) := by
  decide +kernel

/-- ControlRegisters: registers of every kind that may be read and written at S. -/
theorem test_hyp_ControlRegisters_writes :
    ∀ m ∈ [0x280, 0x00C, 0x104, 0x440, 0x100, 0x180, 0x187, 0x189, 0x2C0, 0x2C3, 0x204, 0x20B, 0x400, 0x402, 0x406, 0x407, 0x409, 0x40B, 0x385,
        0x380, 0x383, 0x1C0, 0x003],
      booted.crCheck m false = .ok () ∧ booted.crWait m = .ok () ∧ booted.crCheck m true = .ok () ∧ (booted.writeCR m 0).isOk = true := by decide +kernel

/-- A committee record: two shards, umpire partition 0, 256 ids. -/
def comRecord : CRecord := ⟨0x1000, 0x2000, 1, 0, 4, 2, 0, 0, 0x3000, 256, 0x4000, 1024, 0x5000⟩

/-- `booted` with committee 0 in the state `st`, its member 0, partition 0, in the state `ms`, and x1 and x2. -/
def withComm (st : CState) (ms : MState) (arr : Bool) (a b : Word) : State :=
  { withX a b with comms := [(0, { state := st, owner := some 0, record := some comRecord, ccatch := 4, cpos := 7, kspec := 1
                                   members := [(0, { state := ms, part := 0, arr := arr })] })] }

/-- CommitteeArrivals: the registers; no crew; and an arrival of each kind, by the committee's and the member's states and the catch number. -/
theorem test_hyp_CommitteeArrivals :
    (let s := withComm .opened .voting false 0x02 0
     s.me.canWrite 3 = true ∧ commReg (bits (s.x 1) 0 6) = true ∧ commReadOnly (bits (s.x 1) 0 6) = false ∧ s.me.priv ≠ 0 ∧
      (s.comm 0).owner = some s.myPart ∧ s.stepMode s.cur.core = false ∧ s.me.pureMarked = false) ∧
    booted.crewOf booted.myPart = none ∧
    (∀ x ∈ [(CState.halted, MState.voting), (.opened, .spent), (.opened, .faulted), (.opened, .voting), (.decided, .lagging)],
      (withComm x.1 x.2 false 7 6).crewOf (withComm x.1 x.2 false 7 6).myPart = some (0, 0) ∧
      ((withComm x.1 x.2 false 7 6).comm 0).ccatch.toNat + 1 < ((withComm x.1 x.2 false 7 6).x 2).toNat) ∧
    (let s := withComm .opened .voting false 7 4
     (s.x 2).toNat ≠ 0 ∧ (s.x 2).toNat ≤ (s.comm 0).ccatch.toNat) ∧
    (let s := withComm .opened .voting false 7 5
     (s.x 2).toNat = (s.comm 0).ccatch.toNat + 1 ∧ ((s.comm 0).member 0).arr = false ∧ bits (s.x 1) 0 63 ≤ (s.comm 0).cpos.toNat) ∧
    ((withComm .opened .voting true 7 5).comm 0).member 0 = { state := .voting, part := 0, arr := true } ∧
    ((withComm .opened .voting false 7 4).comm 0).midCommit = false ∧
    ({ (withComm .decided .voting false 7 4).comm 0 with decision := { catchN := 4 } } : Committee).midCommit = true := by decide +kernel

/-- CommitteeInstructions: HALTED, and NOTUMP in a partition that is not the umpire. -/
theorem test_hyp_CommitteeInstructions :
    ((withComm .halted .voting false 0 0).comm 0).state = .halted ∧ (withComm .halted .voting false 0 0).me.canWrite 3 = true ∧
    (let s := { withComm .opened .voting false 0 0 with cur := ⟨4, 0⟩ }.modCore 4 fun c => { c with partid := 1, inPart := true }
     s.myPart = 1 ∧ (s.comm 0).state ≠ .off ∧ (s.comm 0).state ≠ .halted ∧ (s.comm 0).umpire ≠ some s.myPart) := by decide +kernel

/-- CommitteeInstructions: `cwait` of catch 0, of one too far ahead, of a committed one, and of both expected ones. -/
theorem test_hyp_CommitteeInstructions_cwait :
    ∀ k ∈ [0, 7, 4, 5, 6],
      let s := withComm .opened .voting false 0 (BitVec.ofNat 64 k)
      (s.comm (bits (s.x 2) 40 3)).umpireStatus s.myPart = 0 ∧ (s.comm 0).state ≠ .decided ∧ bits (s.x 2) 0 40 = k ∧
      (s.comm 0).ccatch.toNat = 4 := by decide +kernel

/-- CommitteeInstructions: `cwait` of a decided catch, which waits alone, without a record, with a misaligned one, one on no page, and one. -/
theorem test_hyp_CommitteeInstructions_decided :
    ∀ r ∈ [0, 0x1001, 0x20000, 0x1000],
      let s0 := withComm .decided .voting false (BitVec.ofNat 64 r) 5
      let s := s0.modComm 0 fun x => { x with decision := { catchN := 5 } }
      let v := s.commanded.modMe fun y => { y with wait := .cwait 0 5 (s.x 1) s.myCore.ptroot 3 }
      let rq : Req := { core := s.cur.core, ctx := s.cur.ctx, priv := s.me.priv, ptroot := s.myCore.ptroot, eng := some 5, direct := true }
      (s.comm (bits (s.x 2) 40 3)).umpireStatus s.myPart = 0 ∧ (s.comm 0).state = .decided ∧ (s.comm 0).ccatch.toNat < bits (s.x 2) 0 40 ∧
      bits (s.x 2) 0 40 ≤ (s.comm 0).ccatch.toNat + 2 ∧ v.cwaiters 0 = [(s.cur, s.x 1, s.myCore.ptroot, 3)] ∧
      ((v.storeBytes rq (vaRange (s.x 1).toNat 64) (s.comm 0).decisionRecord).isOk = true ↔ r ≠ 0x20000) := by decide +kernel

/-- CommitteeInstructions: a contribution that is due, of an id in range and one out of range, of a shard in range and one out of range, and one
that is not due. -/
theorem test_hyp_CommitteeInstructions_votes :
    (∀ b ∈ [0, 255, 256, 0x01000000, 0x02000000],
      let s := withComm .decided .voting false 0x53F800000 (BitVec.ofNat 64 b)
      (s.comm (bits (s.x 2) 32 3)).umpireStatus s.myPart = 0 ∧ bits (s.x 1) 32 32 = ((s.comm 0).ccatch.toNat + 1) % 2 ^ 32 ∧
      (s.comm 0).state ≠ .opened ∧ countedValue (f32 (bits (s.x 1) 0 32)) ≠ 0xFF800000 ∧ (s.comm 0).nshard = 2 ∧ (s.comm 0).npiece = 256 ∧
      (bits (s.x 2) 24 8 < 2 ↔ b ≠ 0x02000000) ∧ (bits (s.x 2) 0 18 < 256 ↔ b ≠ 256)) ∧
    bits ((withComm .decided .voting false 0x63F800000 0).x 1) 32 32 ≠ 5 := by decide +kernel

/-- CommitteeInstructions: a round of the other kind, one that a shard has sent to, and one that a second shard completes or not. -/
theorem test_hyp_CommitteeInstructions_rounds :
    let r : Round := ⟨true, [(0, 0)]⟩
    r.isMax ≠ false ∧ smHas r.values 0 = true ∧ smHas r.values 1 = false ∧ (smSet r.values 1 (0 : F32)).length = comRecord.nshard ∧
    (smSet ([] : SMap F32) 1 0).length ≠ comRecord.nshard := by decide +kernel

/-- CommitteeInstructions: `catch.k` with a run in range, one longer than KSPEC at a misaligned address, without KSPEC, and not due. -/
theorem test_hyp_CommitteeInstructions_runs :
    (let s := withComm .decided .voting false 0x1000 0x500000001
     bits (s.x 2) 32 32 = ((s.comm 0).ccatch.toNat + 1) % 2 ^ 32 ∧ (s.comm 0).kspec ≠ 0 ∧ (s.comm 0).state ≠ .opened ∧
      (s.comm (bits (s.x 2) 8 3)).umpireStatus s.myPart = 0 ∧ (s.runIds (s.comm 0) (s.x 1) (bits (s.x 2) 0 4)).isSome = true) ∧
    (let s := withComm .decided .voting false 0x1001 0x500000002
     (s.comm 0).kspec < bits (s.x 2) 0 4 ∧ (s.x 1).toNat % 4 ≠ 0 ∧ (s.comm 0).kspec ≠ 0) ∧
    ({ state := .decided, record := some comRecord } : Committee).kspec = 0 ∧
    bits ((withComm .decided .voting false 0 0x400000001).x 2) 32 32 ≠ (4 + 1) % 2 ^ 32 := by decide +kernel

/-- CombiningVectors: a context with a decision to combine, and the registers brought in. -/
theorem test_hyp_CombiningVectors :
    let s := (withV 0 0).modMe fun c => { c with combine := { valid := true, mask := 1, weights := [(0, 0x3F800000)] } }
    s.bodyFits = .ok () ∧ s.queueRoom = true ∧ s.me.combine.valid = true ∧ s.stag 1 8 % 8 = 0 ∧ s.stag 2 2 % 2 = 0 ∧ s.stag 1 9 % 8 ≠ 0 ∧
    s.stag 2 3 % 2 ≠ 0 ∧
    (s.vAccess (s.me.combine.read.map (fun m => (s.stag 1 8 + m) % 32) ++ [s.stag 2 2, (s.stag 2 2 + 1) % 32]) [s.stag 0 20]).isOk = true ∧
    (s.vAccess [s.stag 1 8, s.stag 2 2, s.stag 0 20] [s.stag 0 20]).isOk = true ∧ (s.vAccess [s.stag 2 2] [s.stag 0 20]).isOk = true := by
  decide +kernel

/-- CausesTaken: a pending cause of a control context with AE set, alone and after a helper's trap; a helper's own; and no cause due. -/
theorem test_hyp_CausesTaken :
    (let s := withMe fun c => { c with status := 0x11, pending := [⟨.hang, 5, none⟩, ⟨.budget, 6, none⟩] }
     s.running 0 = true ∧ s.causeDue ⟨0, 0⟩ = true ∧ s.heldPending 0 = none ∧ leastCause (s.pendingOf ⟨0, 0⟩) = some ⟨.budget, 6, none⟩) ∧
    (let s := (withMe fun c => { c with status := 0x11 }).modCtx ⟨0, 10⟩ fun c => { c with life := .held, trapPending := true }
     s.running 0 = true ∧ s.causeDue ⟨0, 0⟩ = true ∧ s.heldPending 0 = some 10) ∧
    (let s := booted.modCtx ⟨0, 3⟩ fun c => { c with life := .live, pending := [⟨.budget, 6, none⟩] }
     3 ≠ 0 ∧ s.running 0 = true ∧ s.causeDue ⟨0, 3⟩ = true ∧ leastCause (s.ctx ⟨0, 3⟩).pending = some ⟨.budget, 6, none⟩) ∧
    booted.causeDue ⟨0, 0⟩ = false := by decide +kernel

/-- A launch of 2 by 1 by 1 slices of task type 0, with an accumulator slot and a helper each. -/
def launchOf (n : Nat) : Launch := ⟨0, true, false, n, 1, 1, 100, 0, 0, 0, 0, 0⟩

/-- A task type with one helper. -/
def taskOf : TaskType := ⟨0x200, 1, 0, 0, 0, 0⟩

/-- A slice group of queue 1 on helper 1, with a budget. -/
def sliceOf (budget : Word) (on restartable : Bool) : SliceGroup :=
  ⟨0, 1, 0, 0, launchOf 2, taskOf, [1], [1], [], budget, on, 9, false, restartable, 0, none, false⟩

/-- `booted` with that group on core 0 and its helper LIVE. -/
def withSlice (g : SliceGroup) : State :=
  (booted.modCore 0 fun c => { c with slices := [(1, g)] }).modCtx ⟨0, 1⟩ fun c => { c with life := .live, group := some 1 }

/-- `booted` at a late time, with a request of its context to device `d` over link 0 that has been outstanding since the start. -/
def withRequest (d : Nat) : State := { withMe fun c => { c with remote := some ⟨d, 0, 0, 0, false⟩ } with cycles := 2 ^ 40 }

/-- Counts of what was heard do not move a time where nothing was heard. -/
theorem heard_none (l : List Nat) (t : Nat) : (l.foldl (fun t d => max t (smGet ([] : SMap Nat) d 0)) t) = t := by
  induction l with
  | nil => rfl
  | cons a l ih => rw [List.foldl_cons, show max t (smGet ([] : SMap Nat) a 0) = t from Nat.max_zero t]; exact ih

/-- A switch group from which no answer has come: every device of reset's table is in group 0. -/
theorem request_groupDue (d : Nat) (hd : d = 3 ∨ d = 4) (h : d ≠ Config.deviceNumber % 64) : (withRequest d).groupDue 0 0 = true := by
  have ho : ((withRequest d).outstanding 0) = [(⟨0, 0⟩, ⟨d, 0, 0, 0, false⟩)] := by rcases hd with rfl | rfl <;> decide +kernel
  have hm : ((withRequest d).groupDevices 0).contains d = true := by
    rw [List.contains_iff_mem]
    refine List.mem_filter.mpr ⟨List.mem_range.mpr (by omega), ?_⟩
    rcases hd with rfl | rfl <;> simp [h] <;> decide +kernel
  unfold State.groupDue
  simp only [ho, List.filterMap_cons, List.filterMap_nil, hm, if_true, leastOf]
  rw [show ((withRequest d).part 0).heard = [] by rcases hd with rfl | rfl <;> rfl, heard_none]
  rcases hd with rfl | rfl <;> decide +kernel

/-- ExpiriesRaiseCauses: a spent budget, a watchdog at 0, no collective outstanding, a request that has gone unanswered over its link, to its
group and to its device, which is not down yet; one that has not; and the ends of the links. -/
theorem test_hyp_ExpiriesRaiseCauses :
    (let s := withSlice (sliceOf 0 true false)
     (s.core 0).slices.find? (fun e => e.1 == 1) = some (1, sliceOf 0 true false) ∧ (sliceOf 0 true false).budgetOn = true ∧
      (sliceOf 0 true false).budget = 0 ∧ (sliceOf 0 true false).expired = false ∧ s.lowestLive 0 (sliceOf 0 true false) = some 1) ∧
    (let q := (booted.modPart 0 fun p => { p with wdogInterval := 5, wdogArmed := true }).part 0
     q.live = true ∧ q.wdogArmed = true ∧ q.wdogInterval ≠ 0 ∧ q.wdogRemain = 0) ∧
    (let s := withRequest 3
     (s.part 0).live = true ∧ (∀ n ∈ (s.part 0).cores, (s.eng n 1).out = []) ∧ s.linkDue 0 0 0 = true ∧ s.peerDue 0 3 0 = true ∧
      (s.part 0).peerDown.contains 3 = false) ∧
    (booted.linkDue 0 0 0 = false ∧ booted.groupDue 0 0 = false ∧ booted.peerDue 0 3 0 = false) ∧ 0 < 16 ∧ 15 < 16 := by decide +kernel

/-- ExpiriesRaiseCauses: the group. -/
theorem test_hyp_ExpiriesRaiseCauses_group :
    ∃ d, ((withRequest d).part 0).live = true ∧ (∀ n ∈ ((withRequest d).part 0).cores, ((withRequest d).eng n 1).out = []) ∧
      (withRequest d).groupDue 0 0 = true := by
  by_cases h : Config.deviceNumber % 64 = 3
  · exact ⟨4, by decide +kernel, by decide +kernel, request_groupDue 4 (.inr rfl) (by omega)⟩
  · exact ⟨3, by decide +kernel, by decide +kernel, request_groupDue 3 (.inl rfl) (by omega)⟩

/-- WearAndErrors: a counter that is due, a page that is and one that is not retired, a row before and at its third error, an error of a core of
a partition in each range of k, and a restartable slice. -/
theorem test_hyp_WearAndErrors :
    (let s := { booted with heatDue := [7] }
     s.mem.wf = true ∧ s.heatDue.contains 7 = true ∧ s.heatDue.contains 8 = false ∧
      s.lines.find? (fun c => c.1 == heatAddr (7 * 65536) / 128) = none) ∧
    (booted.isRetired 9 = false ∧ (booted.mem.set (retiredByte 9) 0xFF).wf = true ∧
      ({ booted with mem := booted.mem.set (retiredByte 9) 0xFF } : State).isRetired 9 = true) ∧
    smGet booted.corrected (9 * 65536 + 3) 0 + 1 < 3 ∧
    3 ≤ smGet ({ booted with corrected := [(9 * 65536 + 3, 2)] } : State).corrected (9 * 65536 + 3) 0 + 1 ∧
    (booted.core 0).inPart = true ∧ (booted.part (booted.core 0).partid).stopped = none ∧ (booted.part (booted.core 0).partid).ringing = none ∧
    (1 ≤ 1 ∧ 10 ≤ 10 ∧ booted.groupOf ⟨0, 10⟩ = none ∧ booted.stepMode 0 = false) ∧
    (withSlice (sliceOf 5 true true)).restartables 0 ≠ [] ∧ 15 < 16 ∧
    smHas ({ booted with l2 := [(9, ⟨⟨0, false, false⟩, none⟩)] } : State).l2 9 = true := by decide +kernel

/-- PowerAndFreeze. -/
theorem test_hyp_PowerAndFreeze :
    ({ booted with frozen := true } : State).frozen = true ∧ booted.frozen = false ∧ booted.powered = true ∧ 3 < 4 ∧
    (∀ l ∈ ({ booted with l2 := [(9, ⟨⟨0, false, false⟩, none⟩)] } : State).l2, l.2.back = none) ∧
    (booted.part 0).live = true ∧ smHas booted.parts 0 = true ∧ (booted.part 0).stopped = none ∧ (booted.part 0).ringing = none := by
  decide +kernel

/-- `booted` with partition 0 switched out to area 2. -/
def switchedOut : State :=
  { State.reset with images := [(2, ((booted.modPart 0 fun p => { p with stopped := some 6 }).image 0))] }

/-- ManagementCommands: each command where it is carried out. -/
theorem test_hyp_ManagementCommands :
    State.reset.mayCreate ⟨63, 15, 15, 1, 1, 1023, 1, 15, 0, 0, []⟩ = true ∧
    ((booted.part 0).live = true ∧ (booted.part 0).switchTo = none ∧ smHas booted.images 2 = false ∧ (booted.part 0).stopped = none ∧
      (booted.part 0).ringing = none) ∧
    ((switchedOut.part 0).live = false ∧ switchedOut.areaOf 0 = some 2 ∧ (switchedOut.images.find? fun i => i.1 == 2).isSome = true ∧
      ∀ e ∈ switchedOut.images, switchedOut.mayResume e.2 15 15 = true) ∧
    (let q := (booted.modPart 0 fun p => { p with stopped := some 4 }).part 0
     q.live = true ∧ q.stopped = some 4 ∧ 1 ≤ 4 ∧ 4 ≤ 4) ∧
    ((List.replicate 64 63).length = 64 ∧ ∀ g ∈ List.replicate 64 63, g < 64) := by decide +kernel

/-- ManagementCommands: each command where it is refused. -/
theorem test_hyp_ManagementCommands_refused :
    booted.mayCreate ⟨0, 0, 0, 1, 1, 0, 1, 1, 0, 0, []⟩ = false ∧ ((booted.part 5).live = false ∧ booted.areaOf 5 = none) ∧
    smHas switchedOut.images 2 = true ∧ booted.images.find? (fun i => i.1 == 2) = none ∧ (booted.part 0).stopped = none ∧
    ((booted.modPart 0 fun p => { p with stopped := some 5 }).part 0).stopped = some 5 ∧ (List.replicate 63 0).length ≠ 64 := by decide +kernel

/-- PartitionEvents: a partition that lives and one that does not, a bell that rings, step mode with both values of RETRY, a switch that is due
and one that is not, and a stopped partition that switches. -/
theorem test_hyp_PartitionEvents :
    (booted.part 0).live = true ∧ (booted.part 5).live = false ∧ (booted.part 0).ringing = none ∧
    (let q := (booted.modPart 0 fun p => { p with ringing := some 4 }).part 0
     q.ringing = some 4 ∧ q.live = true ∧ 4 ≠ 2 ∧ 4 ≠ 3) ∧
    ((inSteps.part 0).live = true ∧ (inSteps.part 0).mode = true ∧ (inSteps.part 0).stopped = none ∧ (inSteps.part 0).ringing = none ∧
      bits (inSteps.part 0).stepctl 8 2 < 2) ∧
    2 ≤ bits ((inSteps.modPart 0 fun p => { p with stepctl := 0x200 }).part 0).stepctl 8 2 ∧ (booted.part 0).mode = false ∧
    (let q := (booted.modPart 0 fun p => { p with preempt := 0x8000000000000000 }).part 0
     q.switchTo = none ∧ q.preempt.getLsbD 63 = true ∧ bits q.preempt 0 62 ≤ booted.time) ∧
    (booted.part 0).preempt.getLsbD 63 = false ∧ booted.time < bits (0x8000000000000005 : Word) 0 62 ∧
    (let q := (booted.modPart 0 fun p => { p with switchTo := some 2, stopped := some 6 }).part 0
     q.switchTo = some 2 ∧ q.live = true ∧ q.stopped ≠ none) := by decide +kernel

/-- A task queue whose ring is at virtual address 0x1000, with the launch `l` of `n` placed slices at its head. -/
def queueWith (l : Launch) (n : Nat) : Queue := ⟨0x1000, 4, true, 6, 1, 0, 0, 0, false, false, 0, none, true, [⟨0, 0, l, taskOf, n, 0, true, false⟩], []⟩

/-- `booted` with queue 1. -/
def withQueue (x : Queue) : State := booted.modPart 0 fun p => { p with qtab := 1, queues := [(1, x)] }

/-- SlicesAndPairs: a selection that finds a head that fits, one without a candidate, one that does not select, a launch without slices, and a
slice that may and one that may not be executed again. -/
theorem test_hyp_SlicesAndPairs :
    (let s := withQueue (queueWith (launchOf 2) 1)
     let r := s.candidates 0 (smKeys (s.part 0).queues)
     s.partOf 0 = some 0 ∧ s.selects 0 = true ∧ (s.reexecFor 0 0).isNone = true ∧ (r.1.chooseHead 0 0 r.2).isSome = true ∧
      r.1.fits 0 taskOf = some ([1], []) ∧ 1 ≠ 0 ∧ (launchOf 2).pair = false) ∧
    (let s := withQueue (queueWith (launchOf 2) 2)
     let r := s.candidates 0 (smKeys (s.part 0).queues)
     s.selects 0 = true ∧ (r.1.chooseHead 0 0 r.2).isNone = true) ∧
    booted.selects 0 = false ∧
    (let s := withQueue (queueWith (launchOf 0) 0)
     s.queueOf 0 1 = some (queueWith (launchOf 0) 0) ∧ (queueWith (launchOf 0) 0).headProg = some ⟨0, 0, launchOf 0, taskOf, 0, 0, true, false⟩ ∧ (queueWith (launchOf 0) 0).stop = false ∧
      (launchOf 0).total = 0 ∧ (s.part 0).mode = false ∧ (s.part 0).stopped = none ∧
      ((s.readGate 0 (queueWith (launchOf 0) 0)).map (·.1)).toOption = some 0 ∧
      ((({ s with mem := s.mem.set 0x41000 1 } : State).readGate 0 (queueWith (launchOf 0) 0)).map (·.1)).toOption.isSome = true ∧
      ((s.modQueue 0 1 fun x => { x with dirty := false }).storeBytes (s.ctlReq 0) (vaRange ((s.part 0).descriptor 1 + 8) 40)
        ([(queueWith (launchOf 0) 0).word1, 0, 0, 0, 0].flatMap (natToBytes 8))).isOk = true) ∧
    (∀ b ∈ [true, false], ((withSlice (sliceOf 5 true b)).core 0).slices.find? (fun e => e.1 == 1) = some (1, sliceOf 5 true b)) ∧
    ((withSlice (sliceOf 5 true true)).part 0).reexecFull 1 = false ∧ (booted.queueOf 0 1).isNone = true ∧
    ((withQueue { queueWith (launchOf 2) 1 with reexec := List.replicate 64 ⟨0, 0, 0, 1⟩ }).part 0).reexecFull 1 = true := by decide +kernel

/-- A request that the first copy of a paired slice has made, with what the second answers. -/
def pairedOf (second : Option CtxId) (hash2 : BitVec 32) (age : Nat) : PairedReq := ⟨0, ⟨0, 1⟩, second, 0, 7, hash2, 0x1000, age⟩

/-- SlicesAndPairs: requests alone, matched, mismatched, and too old. -/
theorem test_hyp_SlicesAndPairs_requests :
    (∀ r ∈ [pairedOf none 0 0, pairedOf (some ⟨1, 1⟩) 7 0, pairedOf (some ⟨1, 1⟩) 8 0, pairedOf none 0 (2 ^ 20)],
      ({ booted with paired := [(3, r)] } : State).paired.find? (fun e => e.1 == 3) = some (3, r) ∧ (booted.part r.part).live = true) ∧
    (withSlice (sliceOf 5 true true)).groupOf (pairedOf none 0 0).first = some (sliceOf 5 true true) ∧ (booted.part 5).live = false ∧
    (pairedOf (some ⟨1, 1⟩) 7 0).hash = (pairedOf (some ⟨1, 1⟩) 7 0).hash2 ∧ (⟨1, 1⟩ : CtxId) ≠ (pairedOf (some ⟨1, 1⟩) 7 0).first ∧
    (pairedOf (some ⟨1, 1⟩) 8 0).hash ≠ (pairedOf (some ⟨1, 1⟩) 8 0).hash2 ∧ 2 ^ 20 ≤ (pairedOf none 0 (2 ^ 20)).age ∧
    (pairedOf none 0 0).age < 2 ^ 20 := by decide +kernel

/-- `booted` with host queue pair 1. -/
def withPair (h : HostPair) : State := booted.modPart 0 fun p => { p with pairs := [(1, h)] }

/-- HostAndRemote: accesses inside and outside the range, of lines at home; a pair with an open submission of each OPC, and an answered one. -/
theorem test_hyp_HostAndRemote :
    (booted.mem.wf = true ∧ 0x40000 + 8 ≤ 0x7FF8000000 ∧ 1 ≤ 8 ∧
      (∀ i, i < 8 → booted.strayLine ((0x40000 + i) / 128) = false ∧ booted.unreadable ((0x40000 + i) / 128) = false)) ∧
    (8 = ExtAtomic.bytes ⟨.add, .n64, 5, 0⟩ ∧ 0x40000 % ExtAtomic.bytes ⟨.add, .n64, 5, 0⟩ = 0 ∧ 0x40001 % ExtAtomic.bytes ⟨.add, .n64, 5, 0⟩ ≠ 0) ∧
    0x7FF8000000 < 0x7FF8000000 + 1 ∧ 0x8000000000 < 0x8000000000 + 1 ∧ (booted.part 0).live = true ∧
    (∀ o ∈ [0, 1, 2, 3], ((withPair { subs := [⟨1, o, 0, 0, none⟩] }).pair 0 1).current = some ⟨1, o, 0, 0, none⟩) ∧
    (let h := (withPair { qcfg := 0x040401, subs := [⟨1, 0, 0, 0, some (0, 0)⟩] }).pair 0 1
     h.subs = ⟨1, 0, 0, 0, some (0, 0)⟩ :: [] ∧ h.en = true ∧ h.full = false ∧ h.qcfg.getLsbD 2 = false) := by decide +kernel

/-- EngineEvents: a waiting and a finished collective; a migration before and after its switch, of a page that can be read and of one that
cannot, whose entry is at home, and which has its command; and a text context that does not follow. -/
theorem test_hyp_EngineEvents :
    (withCmds 1 [cmdOf .callred .waiting none] 0 0).cmd 0 1 1 = some (cmdOf .callred .waiting none) ∧
    (withCmds 1 [cmdOf .callred .done none] 0 0).cmd 0 1 1 = some (cmdOf .callred .done none) ∧
    (∀ b ∈ [true, false], let m : Migration := ⟨0, 0, 1, 4, 9, 0x30008, b⟩
      ({ booted with migrations := [(2, m)] } : State).migrations.find? (fun e => e.1 == 2) = some (2, m) ∧
      (booted.unreadableIn m.src).isNone = true ∧ booted.mem.wf = true ∧
      (∀ i, i < 8 → booted.strayLine ((m.entry + i) / 128) = false ∧ isRemote (m.entry + i) = false) ∧
      ({ booted with poison := [4 * 512 + 7] } : State).unreadableIn m.src = some (4 * 512 + 7)) ∧
    (withCmds 0 [cmdOf .emigrate .waiting none] 0 0).cmd 0 0 1 = some (cmdOf .emigrate .waiting none) ∧
    (booted.textCtx 0).follow = none := by decide +kernel

/-- EngineEvents: a text context that follows and has a new token and none, and a load at the head of a core's queue. -/
theorem test_hyp_EngineEvents_text :
    let f : Follow := ⟨0, 0, 7, 0, 1, 0x10000, 1, 0, 0, []⟩
    let cfg : TextCfg := ⟨0, 1, 1, false, 0, 0, 1, 0, 0, 0, 0, 0⟩
    let s := { withComm .opened .voting false 0 0 with texts := [(3, { follow := some f, cfg := some cfg }), (4, { follow := some { f with pos := 6 } })] }
    (s.textCtx 3).follow = some f ∧ (s.textCtx 3).cfg = some cfg ∧ (smGet s.comms f.comm {}).cpos.toNat ≤ f.pos ∧ f.pend = [] ∧
    (s.textCtx 4).follow = some { f with pos := 6 } ∧ 6 < (smGet s.comms f.comm {}).cpos.toNat ∧
    (booted.queuedHead 0).isNone = true ∧
    (let q := ((withV 0x1000 0).modCore 0 fun c => { c with queue := [⟨0, .memory (.vlds 3 1) false⟩] }).modMe fun c => { c with wait := .retry }
     q.queuedHead 0 = some (0, .vlds 3 1) ∧
      (match ({ q.modCtx ⟨0, 0⟩ (fun c => { c with wait := .none }) with cur := ⟨0, 0⟩ } : State).runQueued (.vlds 3 1) with
        | .next _ => true | _ => false) = true) := by
  decide +kernel

/-- A committee at its timer's end, with CQUO `q`, and member 0's vote. -/
def expiring (q : Word) (vote : Bool) : Committee :=
  { state := .opened, timer := some 0, openCquo := 5 * 2 ^ 16 + q, record := some comRecord, members := [(0, { state := .voting, vote := vote, expected := true })] }

/-- CommitteeEvents: a member that is out and one that is in, before and after the decision; an expired timer with a quorum, without one for
each ACT, and none. -/
theorem test_hyp_CommitteeEvents :
    ((booted.comm 0).configured = false ∧ ((withComm .decided .spent false 0 0).comm 0).member 0 = { state := .spent } ∧
      (∀ st ∈ [CState.decided, .opened], ((withComm st .voting false 0 0).comm 0).state = st ∧
        ((withComm st .voting false 0 0).comm 0).configured = true ∧ (((withComm st .voting false 0 0).comm 0).member 0).state = .voting)) ∧
    (let x := expiring 1 true
     x.state = .opened ∧ x.timer = some 0 ∧ x.expired = false ∧ quoPat x.openCquo ≠ 0xFFFFFFFF ∧ x.quorum = true) ∧
    (∀ a ∈ [0, 1, 2], quoAct (expiring (BitVec.ofNat 64 (2 + a * 2 ^ 48)) true).openCquo = a ∧
      (expiring (BitVec.ofNat 64 (2 + a * 2 ^ 48)) true).quorum = false) ∧
    (expiring 2 true).allArrived = false ∧ (expiring (2 + 2 ^ 48) true).voters.contains comRecord.stroke = true ∧
    (expiring (2 + 2 ^ 48) false).voters.contains comRecord.stroke = false ∧
    (∀ r ∈ [0, 1], (let x := expiring (BitVec.ofNat 64 (2 + 3 * 2 ^ 48 + r * 2 ^ 52)) true
      quoAct x.openCquo = 3 ∧ x.quorum = false ∧ (x.nretry < quoRmax x.openCquo ↔ r = 1))) ∧
    (booted.comm 0).timer ≠ some 0 ∧ (booted.comm 0).ready = false := by decide +kernel

/-- `booted` with a decided committee whose pairs are complete, with its pieces' table and its history where these say; piece 7 has one
byte. -/
def committing (pstr hist : Word) (a : F32) : State :=
  { booted with
    mem := booted.mem.setBytes 0x43038 (natToBytes 8 0x100004000)
    comms := [(0, { state := .decided, owner := some 0, ptroot := 0x10000, cpos := 0x20000, pairs := [(0, (a, 7)), (1, (0xFF800000, 0))]
                    members := [(0, { state := .voting, expected := true })]
                    record := some { comRecord with stream := 0, hist := hist, pstr := pstr } })] }

/-- CommitteeEvents: a commit without a token, one whose piece cannot be read, one that a following text holds, one whose rings cannot be
written, and one that goes through. -/
theorem test_hyp_CommitteeEvents_commit :
    (let x := (committing 0x3000 0x8000 0xFF800000).comm 0
     x.ready = true ∧ num32 x.winner.1 = .inf true) ∧
    (let s := committing 0x20000 0x8000 0x3F800000
     (s.comm 0).ready = true ∧ num32 (s.comm 0).winner.1 ≠ .inf true ∧ (s.readPiece (s.comm 0).req 0x20000 7).isOk = false) ∧
    (∀ h ∈ [0x8000, 0x20000],
      let s := committing 0x3000 (BitVec.ofNat 64 h) 0x3F800000
      let f : Follow := ⟨0, 0, 0, 0, 1, 0x10000, 1, 0, 0, []⟩
      let t : State := { s with texts := [(3, { follow := some f })] }
      (s.comm 0).winner.2 = 7 ∧ ((s.comm 0).run.getD []).headD (s.comm 0).winner.2 = 7 ∧
      (match s.readPiece (s.comm 0).req 0x3000 7, (s.comm 0).record with
        | .ok (l, u), some r => l.length == 1 && !u.streamHeld 0 1 && ((u.writeRings (s.comm 0).req r 0x20000 l).1 == (h == 0x8000))
        | _, _ => false) = true ∧
      (match t.readPiece (t.comm 0).req 0x3000 7 with | .ok (_, u) => u.streamHeld 0 1 | .error _ => false) = true) := by decide +kernel

/-- PrefixesAndIllegalWords: a pair that is one, and three that are not. -/
theorem test_hyp_PrefixesAndIllegalWords :
    takesPrefix ⟨true, .none, true, false, -2⟩ (.vfma false 1 2 3 0 false .f32) = true ∧
    takesPrefix ⟨true, .none, true, false, -2⟩ (.add 5 5 6) = false ∧
    takesPrefix ⟨true, .none, false, false, 0⟩ (.vaddFb 1 2 3 false) = false ∧
    takesPrefix ⟨false, .none, false, false, 1⟩ (.vmulLg6 1 2 3 0 false) = false := by decide +kernel

/-! ## The step, the encoding and the invariant: witnesses -/

/-- StepRunsTheDecodedInstruction: a turn that fetches `add` and one that fetches an illegal word, as `State.reset` runs a placed word; a context
that may not run, one with a cause due, one with a note due, one whose budget is spent; and a page without a translation. -/
theorem test_hyp_StepRunsTheDecodedInstruction :
    (∀ w ∈ [0x04A53000, 0x00000000],
      let s := State.reset.withFetchWord 32 w
      s.agenda = .ctx ⟨0, 0⟩ :: [] ∧ CtxId.exists ⟨0, 0⟩ = true ∧ s.clocked = true ∧
      (let q := { s with agenda := [] }
       let b := q.turnOf ⟨0, 0⟩
       q.mayRun ⟨0, 0⟩ = true ∧ q.causeDue ⟨0, 0⟩ = false ∧ q.noteDue ⟨0, 0⟩ = false ∧ q.itsTurn ⟨0, 0⟩ = true ∧ b.me.badEntry = false ∧
        (b.fetchBytes.map fun r => wordAt r.1).toOption = some w ∧ b.me.pairGo = false ∧ b.me.pairReply = false)) ∧
    booted.mayRun ⟨0, 1⟩ = false ∧
    (withMe fun c => { c with status := 0x11, pending := [⟨.hang, 5, none⟩] }).mayRun ⟨0, 0⟩ = true ∧
    (withMe fun c => { c with status := 0x11, pending := [⟨.hang, 5, none⟩] }).causeDue ⟨0, 0⟩ = true ∧
    (let s := withMe fun c => { c with status := 0, tnote := 2 ^ 56 }
     s.mayRun ⟨0, 0⟩ = true ∧ s.causeDue ⟨0, 0⟩ = false ∧ s.noteDue ⟨0, 0⟩ = true) ∧
    (let s := withSlice { sliceOf 0 true false with expired := true }
     s.mayRun ⟨0, 1⟩ = true ∧ s.causeDue ⟨0, 1⟩ = false ∧ s.noteDue ⟨0, 1⟩ = false ∧ s.itsTurn ⟨0, 1⟩ = false) ∧
    ((withMe fun c => { c with pc := 0x20000 }).turnOf ⟨0, 0⟩).fetchBytes.isOk = false := by decide +kernel

/-- StepRunsTheDecodedInstruction: those words' decodings, and no paired copy to wait for. -/
theorem test_hyp_StepRunsTheDecodedInstruction_words :
    decode (lowBytes 8 0x04A53000) = some (.add 5 5 6, lowBytes 4 0) ∧ decode (lowBytes 8 0) = none ∧
    booted.holdPaired (.add 5 5 6) = none ∧ booted.holdPaired (.illegalInstruction 0) = none ∧
    (booted.modMe fun c => { c with entering := none }).me.pairGo = false := by
  decide +kernel

/-- DecodeOfEncode and EncodeOfDecode: a one-word instruction and a pair. -/
theorem test_hyp_DecodeOfEncode :
    (Instr.add 5 5 6).wf = true ∧ encode (.add 5 5 6) = [0x04A53000] ∧ decodeOne 0x04A53000 = some (.add 5 5 6) ∧
    (Instr.prefixed ⟨true, .none, true, false, -2⟩ (.vfma false 1 2 3 0 false .f32)).wf = true ∧
    encode (.prefixed ⟨true, .none, true, false, -2⟩ (.vfma false 1 2 3 0 false .f32)) = [0xF92F8000, 0x8022185E] :=
  by decide +kernel

/-- StepsKeepMemoryCanonical: a canonical memory, and a step that answers a next state. -/
theorem test_hyp_StepsKeepMemoryCanonical :
    MemoryCanonical (State.reset.withFetchWord 32 0x04A53000) ∧ ∃ t, step (State.reset.withFetchWord 32 0x04A53000) = .next t :=
  ⟨(by decide +kernel : (State.reset.withFetchWord 32 0x04A53000).mem.wf = true), next_of (p := fun _ => true) (by decide +kernel)⟩

/-! ## Small tests: one instruction each -/

/-- The spec's example of R101: −7 divided by 2. -/
theorem test_div_rounds_to_zero :
    nextIs (exec (.div 3 1 2) (withX (-7) 2)) (fun t => t.x 3 == -3) = true ∧
    nextIs (exec (.rem 3 1 2) (withX (-7) 2)) (fun t => t.x 3 == -1) = true := by decide +kernel

/-- The spec's example of R101: 7 divided by 0. -/
theorem test_divn_by_zero :
    nextIs (exec (.divn 3 1 2) (withX 7 0)) (fun t => t.x 3 == 0xFFFFFFFFFFFFFFFF) = true ∧
    nextIs (exec (.remn 3 1 2) (withX 7 0)) (fun t => t.x 3 == 7) = true := by decide +kernel

/-- The spec's example under R103: `lih` with 0x13 and `addi` with −1 give 0x12FFF. -/
theorem test_lih_addi :
    nextIs (exec (.lih 5 0x13) booted) (fun t => t.x 5 == 0x13000) = true ∧
    nextIs (exec (.addi 3 1 (-1)) (withX 0x13000 0)) (fun t => t.x 3 == 0x12FFF && t.pc == 4) = true := by decide +kernel

/-- The destination may be a source (R100): the sum wraps. -/
theorem test_add_wraps_in_place :
    nextIs (exec (.add 1 1 2) (withX 0xFFFFFFFFFFFFFFFF 2)) (fun t => t.x 1 == 1) = true ∧
    nextIs (exec (.add 0 1 2) (withX 5 2)) (fun t => t.x 0 == 0) = true := by decide +kernel

/-- Shift amounts are modulo 64, and an arithmetic shift keeps the sign (R100). -/
theorem test_sra_amount :
    nextIs (exec (.sra 3 1 2) (withX 0x8000000000000000 65)) (fun t => t.x 3 == 0xC000000000000000) = true ∧
    nextIs (exec (.sra 3 1 2) (withX (-5) 64)) (fun t => t.x 3 == -5) = true := by decide +kernel

/-- Unsigned and signed high products of −1 and 2 (R100). -/
theorem test_mulh_signs :
    nextIs (exec (.mulh 3 1 2) (withX (-1) 2)) (fun t => t.x 3 == -1) = true ∧
    nextIs (exec (.mulhn 3 1 2) (withX (-1) 2)) (fun t => t.x 3 == 1) = true := by decide +kernel

/-- Leading zeros of 0 and byte reversal (R100). -/
theorem test_clz_bswap :
    nextIs (exec (.clz 3 1) (withX 0 0)) (fun t => t.x 3 == 64) = true ∧
    nextIs (exec (.bswap 3 1) (withX 0x0102030405060708 0)) (fun t => t.x 3 == 0x0807060504030201) = true := by decide +kernel

/-- Signed and unsigned comparison in branches (R104): −1 and 1. -/
theorem test_blt_signs :
    nextIs (exec (.blt 1 2 (-2)) (withX (-1) 1)) (fun t => t.pc == 0xFFFFFFFFFFFFFFF8) = true ∧
    nextIs (exec (.bltn 1 2 (-2)) (withX (-1) 1)) (fun t => t.pc == 4) = true := by decide +kernel

/-- `jlr` reads its target before it writes the link, also into the same register (R105). -/
theorem test_jlr_same_register :
    nextIs (exec (.jlr 1 1 8) (withX 0x100 0)) (fun t => t.pc == 0x108 && t.x 1 == 4) = true := by decide +kernel

/-- 1.0 + 2.0 in FP64, and 1.0 divided by 0, which raises DZ (R62, R120). -/
theorem test_fadd_fdiv :
    nextIs (exec (.fadd 3 1 2 .f64) (withMe fun c => { c with f := [(1, 0x3FF0000000000000), (2, 0x4000000000000000)] }))
      (fun t => t.f 3 == 0x4008000000000000 && t.me.fpctl == 0) = true ∧
    nextIs (exec (.fdiv 3 1 2 .f32) (withMe fun c => { c with f := [(1, 0x3F800000), (2, 0)] })) (fun t => t.f 3 == 0x7F800000) = true := by
  decide +kernel

/-- A byte of 0x80 loads as −128 and as 128 (R189). -/
theorem test_ld_signs :
    nextIs (exec (.ld 3 1 .i8 0) { withX 0x1000 0 with mem := booted.mem.set 0x41000 0x80 }) (fun t => t.x 3 == -128) = true ∧
    nextIs (exec (.ld 3 1 .n8 0) { withX 0x1000 0 with mem := booted.mem.set 0x41000 0x80 }) (fun t => t.x 3 == 128) = true := by decide +kernel

/-- A store of two bytes, least significant first (R189, R190). -/
theorem test_st_two_bytes :
    nextIs (exec (.st 2 1 .b2 2) (withX 0x1000 0xAABBCCDD))
      (fun t => t.homeByte 0x41002 == 0xDD && t.homeByte 0x41003 == 0xCC && t.homeByte 0x41004 == 0) = true := by decide +kernel

/-- A misaligned load traps with its address in TVAL; its code is 3 (R186, R381). -/
theorem test_ld_misaligned :
    nextIs (exec (.ld 3 1 .i32 0) (withX 0x1002 0)) (fun t => t.me.cause == 3 && t.me.tval == 0x1002 && t.x 3 == 0) = true := by decide +kernel

/-- `amo.add` of a 32-bit word returns the old value, sign-extended, and leaves the wrapped sum (R191). -/
theorem test_amo_add :
    nextIs (exec (.amoAdd 3 1 2 .i32) { withX 0x1000 1 with mem := booted.mem.setBytes 0x41000 [0xFF, 0xFF, 0xFF, 0xFF] })
      (fun t => t.x 3 == -1 && t.homeByte 0x41000 == 0 && t.homeByte 0x41003 == 0) = true := by decide +kernel

/-- The old value that does not match leaves memory as it is (R192). -/
theorem test_amo_cas_fails :
    nextIs (exec (.amoCas 3 1 2 .n64) (withX 0x1000 7)) (fun t => t.x 3 == 0 && t.homeByte 0x41000 == 7) = true ∧
    nextIs (exec (.amoCas 1 1 2 .n64) (withX 0x1000 7)) (fun t => t.x 1 == 0 && t.homeByte 0x41000 == 0) = true := by decide +kernel

/-- Two adds of 1.0 into a fresh accumulator read 2.0 (R78, R195, R196). -/
theorem test_exact_accumulator :
    (let s := { withX 0x1000 0 with accs := [(0x41000, noAcc.add (decodeFp fp32 0x3F800000))] }.modMe fun c => { c with f := [(2, 0x3F800000)] }
     nextIs (exec (.faddX 1 2 .f32) s) fun t => nextIs (exec (.xaccRd 3 1 .f32) t) fun u =>
       u.f 3 == 0x40000000 && u.homeByte 0x41003 == 0x40 && u.accs.isEmpty) = true := by decide +kernel

/-- A line filled for two readers is COUNTED with 2, and a take leaves 1 (R174, R197, R198). -/
theorem test_counted_line :
    nextIs (exec (.stFill 16 1 2) (withX 0x1000 0)) (fun t => t.countOf 0x820 == 2) = true ∧
    nextIs (exec (.ldTake 3 1 .i64 0) (counted 2 0)) (fun t => t.countOf 0x820 == 1) = true := by decide +kernel

/-- `svc` enters the handler at S with its own address in EPC (R118, R380). -/
theorem test_svc :
    nextIs (exec (.svc 0xFFF) ((withMe fun c => { c with status := 0x10, tvec := 0x803, pc := 0x44 })))
      (fun t => t.pc == 0x800 && t.me.epc == 0x44 && t.me.cause == 0x18 && t.me.tval == 0xFFF && t.me.status == 0x21) = true := by decide +kernel

/-- `tret` returns to U with AE set (R116). -/
theorem test_tret :
    nextIs (exec .tret (withMe fun c => { c with status := 0x21, epc := 0x48 })) (fun t => t.pc == 0x48 && t.me.status == 0x30) = true := by
  decide +kernel

/-- A privileged register read at U traps PRIVILEGE (R93, R114). -/
theorem test_sysrd_privilege :
    nextIs (exec (.sysrd 3 0x400) atUser) (fun t => t.me.cause == 2 && t.x 3 == 0) = true ∧
    nextIs (exec (.sysrd 3 0x400) booted) (fun t => t.x 3 == 0x10000) = true := by decide +kernel

/-- The spec's example under R95: a core of cluster (5, 2) in a rectangle at (4, 2). -/
theorem test_relocation :
    (let s := { (State.reset.createPartition ⟨0, 4, 2, 2, 1, 0, 1, 1, 0, 0x10000, []⟩) with cur := ⟨148, 0⟩ }
     nextIs (exec (.sysrd 3 0x008) s) fun t => bits (t.x 3) 6 8 == 37 && bits (t.x 3) 16 4 == 1 && bits (t.x 3) 20 4 == 0) = true := by decide +kernel

/-- The spec's example of R126: 100 + 100 saturates to 127, and 200 + 100 wraps to 44 in N8. -/
theorem test_vadd_saturates :
    (let s := (withMe fun c => { c with v := [(1, .resident 100 0), (2, .resident 200 0), (3, .unwritten)] })
     nextIs (exec (.prefixed ⟨true, .none, false, false, 0⟩ (.vaddInt false 3 1 1 0 false .i8)) s) (fun t => (t.me.vpair 3).1 == 127) &&
     nextIs (exec (.vaddInt false 3 2 1 0 false .n8) s) fun t => (t.me.vpair 3).1 == 44) = true := by decide +kernel

/-- The spec's example of R130: `vargmax.f32` over 2.0, NaN, 5.0 and 5.0. -/
theorem test_vargmax :
    (let s := (withMe fun c => { c with v := [(1, .resident 0x40A0000040A000007FC0000040000000 0)], p := [(1, 0x1111)] })
     nextIs (exec (.vargmaxFp 3 1 1 false .f32) s) fun t => (t.me.vpair 3).1 == 0x20000000040A00000) = true := by decide +kernel

/-- The spec's example of R135: 2 times 4 in LG6. -/
theorem test_vmul_lg6 :
    (let s := (withMe fun c => { c with v := [(1, .resident 0x14 0), (2, .resident 0x18 0)], p := [(1, 1)] })
     nextIs (exec (.vmulLg6 3 1 2 1 false) s) fun t => (t.me.vpair 3).1 == 0x1C) = true := by decide +kernel

/-- The spec's example of R134: a block with 7.0 and 2.5. -/
theorem test_mx_block :
    (mxBlock [decodeFp fp32 0x40E00000, decodeFp fp32 0x40200000]) = ([7, 4], 0x7F, fOF ||| fNX) := by
  decide +kernel

/-- The spec's examples of R81, R91 and R156: the residues of −5, the shape of an FB8 tile, and a drain toward zero. -/
theorem test_spec_values :
    channels.map (residueOf (packResidues (-5))) = [6, 8, 12, 14, 18, 22, 24, 26, 32, 36] ∧ legalShape 0x10401006 = true ∧
    (narrowRow .bf16 ⟨false, .none, false, false, 0⟩ [decodeFp fp32 0x3F80FFFF]).1 = [0x3F80] := by decide +kernel

/-- The spec's example under R140: `vrep` with 0x03010004 loads COUNT 4, LEN 0, STRIDE 1 and MASK 3. -/
theorem test_vrep :
    nextIs (exec (.vrep 1) (withX 0x03010004 0))
      (fun t => bits t.me.vrep 0 6 == 4 && bits t.me.vrep 8 4 == 0 && bits t.me.vrep 16 5 == 1 && bits t.me.vrep 24 3 == 3) = true := by
  decide +kernel

/-- A product of 1 by 1 in FP32: 2.0 times 3.0 onto a cleared slot (R76, R154). -/
theorem test_product :
    ((({} : Slot).complete (.mma { tsh := 0x10101, data := 0x40000000 } [{ tsh := 0x10101, data := 0x40400000 }] 0x3F800000 0x3F800000) (0, 0)).elem 0 0)
      = 0x40C00000 := by decide +kernel

/-- `hstart` starts helper 1 at the address in xa with xb in its x1 (R107). -/
theorem test_hstart :
    nextIs (exec (.hstart 3 1 2) (withX 0x200 9))
      (fun t => t.x 3 == 1 && (t.ctx ⟨0, 1⟩).pc == 0x200 && (t.ctx ⟨0, 1⟩).xreg 1 == 9 && (t.ctx ⟨0, 1⟩).life == .live) = true := by decide +kernel

/-- A command gets ticket 1 and does nothing yet (R218). -/
theorem test_ecopy_issue :
    nextIs (exec (.ecopy 3 1 2 false) (withX 0x1000 0x2000)) (fun t => t.x 3 == 1 && (t.eng 0 0).out.length == 1 && (t.eng 0 0).counter == 0) = true := by
  decide +kernel

/-- An atomic's target on no page: STORE_FAULT (R276). -/
theorem test_amo_fault :
    nextIs (exec (.amoSwap 3 1 2 .n64) (withX 0x20000 7)) (fun t => t.me.cause == 6 && t.me.tval == 0x20000) = true := by decide +kernel

/-- The first step after a word is placed runs it (R43, R50): `addi x5, x0, -1`. -/
theorem test_step_addi :
    nextIs (step (State.reset.withFetchWord 32 0x08A00FFF)) (fun t => t.x 5 == -1 && t.pc == 4) = true ∧
    nextIs (step (State.reset.withFetchWord 32 0)) (fun t => t.me.cause == 1 && t.me.tval == 0) = true := by decide +kernel

/-- CREATE answers RESULT 0 and its cores' control contexts are LIVE at RVEC (R285). -/
theorem test_create :
    nextIs (exec (.create ⟨3, 0, 0, 1, 1, 0, 1, 1, 0x1004, 0, []⟩) State.reset)
      (fun t => t.mbResult == 0 && (t.ctx ⟨2, 0⟩).pc == 0x1004 && (t.ctx ⟨2, 0⟩).life == .live && (t.ctx ⟨4, 0⟩).life == .free) = true := by decide +kernel

end Sys2Proof.Tests
end

section
/-! Reading the state after an instruction has advanced, `yield` and the fences. -/

namespace Sys2Proof.Machine

open Sys2Proof

/-! ## `yield` and the fences -/

@[simp] theorem State.me_advance (s : State) : s.advance.me = { s.me with pc := s.pc + s.len } := by
  rw [State.advance, State.me_modMe]; rfl

@[simp] theorem State.ctx_advance_other (s : State) {i : CtxId} (h : i ≠ s.cur) : s.advance.ctx i = s.ctx i :=
  State.ctx_modMe_other _ _ h

@[simp] theorem State.homeByte_advance (s : State) (pa : Nat) : s.advance.homeByte pa = s.homeByte pa := rfl

theorem State.groupOf_advance (s : State) : s.advance.groupOf s.cur = s.groupOf s.cur := s.groupOf_modMe _ rfl

/-- The other contexts that a `yield` lets go first: the ready ones (R22, R119). -/
theorem yield_others (s : State) :
    (ctxNumbers.filter fun k => k != s.cur.ctx && (s.myCore.ctx k).ready)
      = ctxNumbers.filter fun k => k != s.cur.ctx && (s.myCore.ctx k).life == .live && (s.myCore.ctx k).wait == .none := by
  simp only [Ctx.ready, Bool.and_assoc]

/-- What stands after the executing context yields to the contexts of a list (R119). -/
theorem yielded_spec (s : State) (l : List Nat) :
    let t := ((s.modMe fun c => { c with yielded := l }).modGroup s.cur SliceGroup.refresh).advance
    t.me = { s.me with yielded := l, pc := s.pc + s.len } ∧ (∀ i, i ≠ s.cur → t.ctx i = s.ctx i) ∧
      (∀ pa, t.homeByte pa = s.homeByte pa) ∧ t.groupOf s.cur = (s.groupOf s.cur).map SliceGroup.refresh := by
  intro t
  have hcur : ((s.modMe fun c => { c with yielded := l }).modGroup s.cur SliceGroup.refresh).cur = s.cur := by simp
  refine ⟨?_, fun i hi => ?_, fun pa => by simp [t], ?_⟩
  · simp [t, State.pc, State.len]
  · rw [State.ctx_advance_other _ (by rwa [hcur]), State.ctx_modGroup, State.ctx_modMe_other _ _ hi]
  · have h := State.groupOf_advance ((s.modMe fun c => { c with yielded := l }).modGroup s.cur SliceGroup.refresh)
    rw [hcur] at h
    rw [h, State.groupOf_modGroup, State.groupOf_modMe _ _ rfl]

/-- Settles O7: what `yield` leaves is `yielded_spec`, and a fence only advances. -/
theorem fencesAndYield : Obligations.FencesAndYield := by
  refine ⟨fun s => ⟨_, rfl, ?_⟩, fun s n e he => ⟨s.advance, ?_, goesTo_advance s⟩⟩
  · rw [← yield_others]
    exact yielded_spec s _
  · simp only [List.mem_cons, List.not_mem_nil, or_false] at he
    rcases he with rfl | rfl | rfl <;> rfl

end Sys2Proof.Machine
end

section
/-! Stores in step mode: bytes of one line enter the write set as one run. -/

namespace Sys2Proof.Machine

open Sys2Proof

/-! ## Stores in step mode -/

/-- Bytes that lie side by side in one line are one run (R37). -/
theorem runs_line (data : List Byte) (x : Xlat) (hd : data ≠ []) (h : ∀ i, i < data.length → (x.pa + i) / 128 = x.pa / 128) :
    runs (((List.range data.length).map fun i => ({ x with va := x.va + i, pa := x.pa + i } : Xlat)).zip data) = [(x, data)] := by
  induction data generalizing x with
  | nil => exact absurd rfl hd
  | cons b rest ih =>
    have hs : ((List.range (b :: rest).length).map fun i => ({ x with va := x.va + i, pa := x.pa + i } : Xlat)).zip (b :: rest)
        = (x, b) :: ((List.range rest.length).map fun i =>
            ({ x with va := x.va + 1 + i, pa := x.pa + 1 + i } : Xlat)).zip rest := by
      simp only [List.length_cons, List.range_succ_eq_map, List.map_cons, List.map_map, List.zip_cons_cons, Nat.add_zero]
      congr 2
      apply List.map_congr_left
      intro i _
      simp only [Function.comp, Nat.succ_eq_add_one, Nat.add_assoc, Nat.add_comm 1]
    rw [hs, runs]
    by_cases hr : rest = []
    · subst hr; rfl
    · have h1 := h 1 (by have := List.length_pos_iff.2 hr; simp only [List.length_cons]; omega)
      rw [ih { x with va := x.va + 1, pa := x.pa + 1 } hr (fun i hi => by
        have := h (i + 1) (by simp only [List.length_cons]; omega)
        simp only [h1, ← this]; congr 1; omega)]
      simp [h1]

theorem State.core_heatAccess (s : State) (rq : Req) (l : List Xlat) (n : Nat) : (s.heatAccess rq l).core n = s.core n := by
  obtain ⟨h, e⟩ := s.heatAccess_spec rq l
  rw [e]; rfl

theorem State.core_progress (s : State) (m n : Nat) : (s.progress m).core n = s.core n := by
  obtain ⟨p, e⟩ := s.progress_spec m
  rw [e]; rfl

theorem State.writeSet_watchAs (s : State) (rq : Req) (w : Watched) (l : List Nat) (n : Nat) :
    ((s.watchAs rq w l).core n).writeSet = (s.core n).writeSet := by
  unfold State.watchAs
  split
  · rfl
  · rw [State.core_watch]
    obtain ⟨h, e, hw⟩ := (s.core n).watch_spec rq.agent w l
    rw [hw]

theorem State.homeByte_heatAccess (s : State) (rq : Req) (l : List Xlat) (pa : Nat) : (s.heatAccess rq l).homeByte pa = s.homeByte pa := by
  obtain ⟨h, e⟩ := s.heatAccess_spec rq l
  rw [e]; rfl

theorem State.homeByte_progress (s : State) (m pa : Nat) : (s.progress m).homeByte pa = s.homeByte pa := by
  obtain ⟨p, e⟩ := s.progress_spec m
  rw [e]; rfl

theorem State.homeByte_watchAs (s : State) (rq : Req) (w : Watched) (l : List Nat) (pa : Nat) :
    (s.watchAs rq w l).homeByte pa = s.homeByte pa := by
  obtain ⟨c, e⟩ := s.watchAs_spec rq w l
  rw [e]; rfl

/-- A deferred write that finds room in its core's write set and at its slice enters the set (R37, R178). -/
theorem State.defer_enters (s : State) (rq : Req) (x : Xlat) (op : DefOp) (hl : (s.core rq.core).setLines.length < 4096)
    (hs : s.shadowCount (s.placeOf rq x).slice < 1024) :
    s.defer rq x op = .ok ((s.modCore rq.core fun c =>
      { c with writeSet := c.writeSet ++ [⟨rq.task, rq.eng, x.pa, s.placeOf rq x, x.held, op⟩] }).progress rq.core) := by
  unfold State.defer
  dsimp only
  rw [if_neg]
  simp only [Bool.and_eq_true, Bool.or_eq_true, decide_eq_true_eq]
  omega

/-- A visit that nothing hinders changes what the slices hold, and neither cores nor homes. -/
theorem State.visit_reaches_same (s : State) (c : Cause) (x : Xlat) (h : Reaches s s.req x) :
    ∃ t, s.visit s.req c [x] = .ok t ∧ t.cur = s.cur ∧ (∀ n, t.core n = s.core n) ∧ t.placeOf s.req x = s.placeOf s.req x ∧
      (∀ n, t.shadowCount n = s.shadowCount n) ∧ ∀ pa, t.homeByte pa = s.homeByte pa := by
  obtain ⟨l, d, i, hv⟩ := s.visit_reaches s.req c x h
  exact ⟨_, hv, rfl, fun _ => rfl, rfl, fun _ => rfl, fun _ => rfl⟩

/-- A step-mode write of bytes of one line that is homed at L2, where nothing hinders it: it waits in the write set, and no home changes
(R37, R178). -/
theorem writeX_waits (s : State) (x : Xlat) (rest : List Xlat) (data : List Byte) (hd : data ≠ [])
    (hm : s.stepMode s.cur.core = true) (h : Reaches s s.req x) (hx : isL2 x.pa = true) (hc : smHas s.lines (x.pa / 128) = false)
    (hf : s.myCore.filledBy s.myCore.taskId (x.pa / 128) = false) (hl : s.myCore.setLines.length < 4096)
    (hs : s.shadowCount (s.placeOf s.req x).slice < 1024) (hr : ∀ y ∈ rest, y.pa / 128 = x.pa / 128)
    (he : x :: rest = (List.range data.length).map fun i => ({ x with va := x.va + i, pa := x.pa + i } : Xlat)) :
    ∃ u, s.writeX s.req (x :: rest) data = .ok u ∧ (∀ pa, u.homeByte pa = s.homeByte pa) ∧
      (u.core s.cur.core).writeSet = s.myCore.writeSet ++ [⟨s.myCore.taskId, none, x.pa, s.placeOf s.req x, x.held, .bytes data⟩] := by
  obtain ⟨t, hvis, hcur, hcore, hplace, hshadow, hhome⟩ := s.visit_reaches_same .storeFault x h
  have hdef : s.req.defers = true := (defers_req s).trans hm
  have hrefuse : s.refusesStore s.req x = false := by
    have : (s.core s.req.core).filledBy s.req.task (x.pa / 128) = false := hf
    simp [State.refusesStore, hc, this]
  have hlines : ∀ y ∈ x :: rest, y.pa / 128 = x.pa / 128 := by
    intro y hy
    rcases List.mem_cons.1 hy with rfl | hy
    · rfl
    · exact hr y hy
  have hall : ∀ q ∈ (x :: rest).zip data, isL2 q.1.pa = true := fun q hq =>
    (isL2_line _ _ (hlines q.1 (List.of_mem_zip hq).1)).trans hx
  have hl2 : ((x :: rest).zip data).filter (fun q => isL2 q.1.pa) = (x :: rest).zip data := List.filter_eq_self.2 hall
  have hnone : ((x :: rest).zip data).filter (fun q => !isL2 q.1.pa) = [] :=
    List.filter_eq_nil_iff.2 fun q hq => by simp [hall q hq]
  have hrun : runs ((x :: rest).zip data) = [(x, data)] := by
    rw [he]
    refine runs_line data x hd fun i hi => ?_
    have hi : ({ x with va := x.va + i, pa := x.pa + i } : Xlat) ∈ x :: rest := by
      rw [he]; exact List.mem_map.2 ⟨i, List.mem_range.2 hi, rfl⟩
    exact hlines _ hi
  unfold State.writeX
  simp only [lineHeads_one x rest hr, List.isEmpty_cons, Bool.false_eq_true, if_false, show s.req.pure = none from rfl]
  rw [lowestWhere_one _ x h.up]
  dsimp only
  rw [lowestWhere_one _ x hrefuse]
  dsimp only
  rw [s.missing_one s.req x h.direct, hvis]
  simp only [hdef, h.place, List.any_cons, List.any_nil, Bool.or_false, Bool.false_eq_true, if_false, if_true, hl2, hnone, hrun,
    State.deferRuns]
  rw [t.defer_enters s.req x (.bytes data) (by rw [hcore]; exact hl) (by rw [hplace, hshadow]; exact hs), hplace]
  simp only [List.filter_nil, List.map_nil, List.foldl_nil, List.isEmpty_nil, if_true, lineHeads, State.dirtyLines]
  refine ⟨_, rfl, fun pa => ?_, ?_⟩
  · exact (((State.homeByte_watchAs _ _ _ _ _).trans (State.homeByte_heatAccess _ _ _ _)).trans (State.homeByte_progress _ _ _)).trans
      (hhome pa)
  · rw [State.writeSet_watchAs, State.core_heatAccess, State.core_progress]
    refine (congrArg Core.writeSet (State.core_modCore_same t s.cur.core _)).trans ?_
    rw [hcore]; rfl

theorem StTy.bytes_pos (y : StTy) : 0 < StTy.bytes y := by cases y <;> decide
theorem StTy.bytes_dvd (y : StTy) : StTy.bytes y ∣ 128 := by cases y <;> decide

/-- A scalar store in step mode to a page homed at L2, which nothing hinders, waits in the write set. -/
theorem storeScalar_waits (s : State) (y : StTy) (ea : Word) (v : Nat) (x : Xlat) (hm : s.stepMode s.cur.core = true)
    (hp : s.me.pureMarked = false) (ht : s.translate (s.reqW ea.toNat) .store ea.toNat = .ok x) (h : Reaches s s.req x)
    (hx : isL2 x.pa = true) (hc : smHas s.lines (x.pa / 128) = false)
    (hf : s.myCore.filledBy s.myCore.taskId (x.pa / 128) = false) (hl : s.myCore.setLines.length < 4096)
    (hs : s.shadowCount (s.placeOf s.req x).slice < 1024) (ha : ea.toNat % StTy.bytes y = 0) :
    ∃ u, s.storeScalar ea (StTy.bytes y) v = .ok u ∧ AccessFrame s u ∧ (∀ pa, u.homeByte pa = s.homeByte pa) ∧
      u.myCore.writeSet = s.myCore.writeSet ++
        [⟨s.myCore.taskId, none, x.pa, s.placeOf s.req x, x.held, .bytes (natToBytes (StTy.bytes y) v)⟩] := by
  rw [reqW_eq s _ hp] at ht
  obtain ⟨rest, hreach, -, hline, -, he⟩ := word_xlat s s.req .store (s.scratchBad s.req) ea.toNat (StTy.bytes y) x ht
    (StTy.bytes_dvd y) (StTy.bytes_pos y) ha ea.isLt (fun z hz _ => (scratchBad_line s s.req x z hz).trans h.scratch)
  have hlen : (natToBytes (StTy.bytes y) v).length = StTy.bytes y := natToBytes_length _ _
  have hne : natToBytes (StTy.bytes y) v ≠ [] := List.ne_nil_of_length_pos (by rw [hlen]; exact StTy.bytes_pos y)
  rw [← hlen, ← (s.translate_offset _ _ _ x ht).2] at he
  obtain ⟨u, hu, hb, hw⟩ := writeX_waits s x rest (natToBytes (StTy.bytes y) v) hne hm h hx hc hf hl hs hline he
  have hfr := (access_writeX _ _ _ _ _ hu).frame
  refine ⟨u, ?_, hfr, hb, by rw [State.myCore, hfr.cur]; exact hw⟩
  simp only [State.storeScalar, aligned_ok _ _ ha, reqW_eq s _ hp, awaitAnswer_here s _ _ _ x ht h.here, State.storeBytes, hreach, hu,
    orTrap, bind, Except.bind]

/-- Settles O11: the store waits as `storeScalar_waits` says, and the instruction advances. -/
theorem stepModeStoresWait : Obligations.StepModeStoresWait := by
  intro s b a y i x hm hp ht h hx hc hf hl hs ha
  obtain ⟨u, hu, hfr, hb, hw⟩ := storeScalar_waits s y (s.ea a i) (s.x b).toNat x hm hp ht h hx hc hf hl hs ha
  refine ⟨u.advance, ?_, ?_, ?_, fun pa => (u.homeByte_advance pa).trans (hb pa)⟩
  · show finish s (s.storeScalar _ _ _ >>= _) = _
    rw [hu]; rfl
  · rw [State.me_advance, hfr.me, frame_pc hfr]
  · rw [← hw, State.myCore, State.advance, State.modMe_cur, State.core_modMe, if_pos rfl]; rfl

end Sys2Proof.Machine
end

section
/-! Vector memory instructions at the head of the engine queue: what each body does with an access that meets no error. -/

namespace Sys2Proof.Machine

open Sys2Proof

/-! ## From the head of the queue -/

theorem AtHead.x {s h : State} (hh : AtHead s h) (n : Nat) : h.x n = s.x n := by rw [State.x, State.x, (head_rest s h hh).1]

theorem AtHead.stag {s h : State} (hh : AtHead s h) (f n : Nat) : h.stag f n = s.stag f n := by
  rw [State.stag, State.stag, (head_rest s h hh).1]

/-- A vector memory instruction within its body, at the head of the queue: its body runs in the state without its entry. -/
theorem vectorMemory_atHead {s h t : State} (hb : s.bodyFits = .ok ()) (hh : AtHead s h) (op : QMem) (body : State → Body)
    (e : body h = .ok t) : s.vectorMemory op body = .next t := by
  unfold State.vectorMemory
  rw [hb]
  show finish s (s.fromHead op body) = _
  rw [fromHead_ok s h op body hh, e]; rfl

@[simp] theorem keepFaults_ok {α : Type} (s : State) (a : α) : s.keepFaults (.ok a) = .ok a := rfl

@[simp] theorem orTrap_ok {α : Type} (a : α) : orTrap (.ok a : Except MemErr α) = .ok a := rfl

/-! ## The bodies of the vector forms (R201) -/

section
variable {h u v : State} {d a b p : Nat} {c w : Bool} {l : List Byte}

theorem vldBody_ok (ha : (h.x a).toNat % 4 = 0) (hv : h.vAccess [h.stag 0 d] [h.stag 0 d] = .ok u)
    (hl : u.loadBytes u.req ((u.lanes p c).map fun i => ((h.x a).toNat + i) % 2 ^ 64) = .ok (l, v)) :
    vldBody d a p c h
      = .ok (v.setV (h.stag 0 d) (placeBytes (u.vdata (h.stag 0 d)) (u.lanes p c) l) none).bodyAdvance := by
  simp only [vldBody, bind, Except.bind, hv, aligned_ok _ _ ha, hl, orTrap_ok, keepFaults_ok, bodyDone]

theorem vstBody_ok (ha : (h.x a).toNat % 4 = 0) (hv : h.vAccess [h.stag 0 d] [] = .ok u)
    (hl : u.storeBytes (u.reqW (h.x a).toNat) ((u.lanes p c).map fun i => ((h.x a).toNat + i) % 2 ^ 64)
      ((u.lanes p c).map fun i => (u.vdata (h.stag 0 d)).extractLsb' (8 * i) 8) = .ok v) :
    vstBody d a p c h = .ok v.bodyAdvance := by
  simp only [vstBody, bind, Except.bind, hv, aligned_ok _ _ ha, hl, orTrap_ok, keepFaults_ok, bodyDone]

theorem indexedAligned_ok (k : Nat) (l : List (Nat × Nat)) (h : ∀ e ∈ l, e.2 % k = 0) : indexedAligned k l = .ok () := by
  unfold indexedAligned
  rw [List.find?_eq_none.2 fun e he => by simp [h e he]]

theorem vgatherBody_ok (hv : h.vAccess [h.stag 1 a, h.stag 0 d] [h.stag 0 d] = .ok u)
    (ha : ∀ e ∈ u.indexed (h.stag 1 a) b p c w, e.2 % (if w then 8 else 4) = 0)
    (hl : u.loadBytes u.req ((u.indexed (h.stag 1 a) b p c w).flatMap fun e => vaRange e.2 (if w then 8 else 4)) = .ok (l, v)) :
    vgatherBody d a b p c w h = .ok (v.setV (h.stag 0 d) (placeBytes (u.vdata (h.stag 0 d)) ((u.indexed (h.stag 1 a) b p c w).flatMap
      fun e => (List.range (if w then 8 else 4)).map ((if w then 8 else 4) * e.1 + ·)) l) none).bodyAdvance := by
  simp only [vgatherBody, bind, Except.bind, hv, indexedAligned_ok _ _ ha, hl, orTrap_ok, keepFaults_ok, bodyDone]

theorem vscatterBody_ok (hv : h.vAccess [h.stag 1 a, h.stag 0 d] [] = .ok u)
    (ha : ∀ e ∈ u.indexed (h.stag 1 a) b p c w, e.2 % (if w then 8 else 4) = 0)
    (hl : u.storeBytes (u.reqW (((u.indexed (h.stag 1 a) b p c w).map (·.2)).headD (u.x b).toNat))
      ((u.indexed (h.stag 1 a) b p c w).flatMap fun e => vaRange e.2 (if w then 8 else 4))
      ((u.indexed (h.stag 1 a) b p c w).flatMap fun e => (List.range (if w then 8 else 4)).map fun j =>
        (u.vdata (h.stag 0 d)).extractLsb' (8 * ((if w then 8 else 4) * e.1 + j)) 8) = .ok v) :
    vscatterBody d a b p c w h = .ok v.bodyAdvance := by
  simp only [vscatterBody, bind, Except.bind, hv, indexedAligned_ok _ _ ha, hl, orTrap_ok, keepFaults_ok, bodyDone]

theorem vtakeBody_ok (ha : (h.x a).toNat % 128 = 0) (hv : h.vAccess [] [h.stag 0 d] = .ok u)
    (hl : u.takeScalar (vaRange (h.x a).toNat 256) = .ok (l, v)) :
    vtakeBody d a h = .ok (v.setV (h.stag 0 d) (BitVec.ofNat 2048 (bytesToNat l)) none).bodyAdvance := by
  simp only [vtakeBody, bind, Except.bind, hv, aligned_ok _ _ ha, hl, keepFaults_ok, bodyDone]

theorem vfillBody_ok (ha : (h.x a).toNat % 128 = 0) (hv : h.vAccess [h.stag 0 d] [] = .ok u)
    (hl : u.fillBytes (u.reqW (h.x a).toNat) (h.x a).toNat 2 (natToBytes 256 (u.vdata (h.stag 0 d)).toNat) (bits (u.x b) 0 6) = .ok v) :
    vfillBody d a b h = .ok v.bodyAdvance := by
  simp only [vfillBody, bind, Except.bind, hv, aligned_ok _ _ ha, hl, orTrap_ok, keepFaults_ok, bodyDone]

theorem vldsBody_ok (ha : (h.x a).toNat % 32 = 0) (hv : h.vAccess [d] [d] = .ok u)
    (hl : u.loadBytes u.req (vaRange (h.x a).toNat 160) = .ok (l, v)) :
    vldsBody d a h = .ok (v.setV d (u.vdata d) (some (BitVec.ofNat 1280 (bytesToNat l)))).bodyAdvance := by
  simp only [vldsBody, bind, Except.bind, hv, aligned_ok _ _ ha, hl, orTrap_ok, keepFaults_ok, bodyDone]

theorem vstsBody_ok (ha : (h.x a).toNat % 32 = 0) (hv : h.vAccess [d] [] = .ok u)
    (hl : u.storeBytes (u.reqW (h.x a).toNat) (vaRange (h.x a).toNat 160) (natToBytes 160 (u.vside d).toNat) = .ok v) :
    vstsBody d a h = .ok v.bodyAdvance := by
  simp only [vstsBody, bind, Except.bind, hv, aligned_ok _ _ ha, hl, orTrap_ok, keepFaults_ok, bodyDone]

end

/-- A register's data written after an access: its sidecar is as before the access. -/
theorem vecLoaded_access {u v : State} (hf : AccessFrame u v) (d : Nat) (data : BitVec 2048) :
    VecLoaded v (v.setV d data none).bodyAdvance d data (u.vside d) := by
  have e : u.vside d = v.vside d := by rw [State.vside, State.vside, hf.me]
  rw [e]; exact vecLoaded_setV v d data none

/-- Settles O28: each form's body, from the head of the queue; an access keeps every register, and a load then writes one. -/
theorem vectorMemory : Obligations.VectorMemory := by
  intro s h u v d a b p c w l hb hh
  simp only [← hh.x, ← hh.stag]
  refine ⟨fun ha hv hl => ?_, fun ha hv hl => ?_, fun hv ha hl => ?_, fun hv ha hl => ?_, fun ha hv hl => ?_, fun ha hv hl => ?_,
    fun ha hv hl => ?_, fun ha hv hl => ?_⟩
  · have hf := (access_loadBytes _ _ _ _ _ hl).frame
    exact ⟨_, vectorMemory_atHead hb hh (.vld d a p c) _ (vldBody_ok ha hv hl), hf, vecLoaded_access hf _ _⟩
  · exact ⟨_, vectorMemory_atHead hb hh (.vst d a p c) _ (vstBody_ok ha hv hl), (access_storeBytes _ _ _ _ _ hl).frame, stored_done v⟩
  · have hf := (access_loadBytes _ _ _ _ _ hl).frame
    exact ⟨_, vectorMemory_atHead hb hh (.vgather d a b p c w) _ (vgatherBody_ok hv ha hl), hf, vecLoaded_access hf _ _⟩
  · exact ⟨_, vectorMemory_atHead hb hh (.vscatter d a b p c w) _ (vscatterBody_ok hv ha hl), (access_storeBytes _ _ _ _ _ hl).frame,
      stored_done v⟩
  · exact ⟨_, vectorMemory_atHead hb hh (.vtake d a) _ (vtakeBody_ok ha hv hl), vecLoaded_setV v _ _ none⟩
  · exact ⟨_, vectorMemory_atHead hb hh (.vfill d a b) _ (vfillBody_ok ha hv hl), (access_fillBytes _ _ _ _ _ _ _ hl).frame, stored_done v⟩
  · exact ⟨_, vectorMemory_atHead hb hh (.vlds d a) _ (vldsBody_ok ha hv hl), (access_loadBytes _ _ _ _ _ hl).frame,
      vecLoaded_setV v _ _ (some _)⟩
  · exact ⟨_, vectorMemory_atHead hb hh (.vsts d a) _ (vstsBody_ok ha hv hl), (access_storeBytes _ _ _ _ _ hl).frame, stored_done v⟩

end Sys2Proof.Machine
end

section
/-! Tile memory instructions at the head of the engine queue: what each body does with an access that meets no error. -/

namespace Sys2Proof.Machine

open Sys2Proof

/-! ## The bodies of the tile forms (R147) -/

theorem AtHead.tile {s h : State} (hh : AtHead s h) (n : Nat) : h.me.tile n = s.me.tile n := by rw [(head_rest s h hh).1]

theorem tileOf_configured {h : State} {n : Nat} (hn : (h.me.tile n).fmt ≠ 0) : h.tileOf n = .ok (h.me.tile n) := by
  simp only [State.tileOf, hn, if_false]

theorem finish_atHead {s h t : State} (hh : AtHead s h) (op : QMem) (body : State → Body) (e : body h = .ok t) :
    finish s (s.fromHead op body) = .next t := by
  rw [fromHead_ok s h op body hh, e]; rfl

theorem finishTileLoad_atHead {s h t : State} (hh : AtHead s h) (n : Nat) (op : QMem) (body : State → Body) (e : body h = .ok t) :
    s.finishTileLoad n (s.fromHead op body) = .next t := by
  rw [fromHead_ok s h op body hh, e]; rfl

/-- The bytes in memory of a tile's rows: `stride` apart from `base` on (R147). -/
def Tile.cells (u : Tile) (base stride : Nat) : List Nat :=
  (List.range u.rows).flatMap fun k => vaRange ((base + k * stride) % 2 ^ 64) u.rowBytes

section
variable {h v : State} {n a b : Nat} {l : List Byte} (hn : (h.me.tile n).fmt ≠ 0)
include hn

theorem tldBody_ok (ha : (h.x a).toNat % 4 = 0) (hb : (h.x b).toNat % 4 = 0)
    (hl : h.loadBytes h.req ((h.me.tile n).cells (h.x a).toNat (h.x b).toNat) = .ok (l, v)) :
    tldBody n a b h = .ok (v.setTile n { h.me.tile n with
      data := (h.me.tile n).placed (elemsOf (8 * (h.me.tile n).rowBytes) (h.me.tile n).rows (bytesToNat l)), dirty := true }).advance := by
  simp only [Tile.cells] at hl
  simp only [tldBody, bind, Except.bind, tileOf_configured hn, aligned_ok _ _ ha, aligned_ok _ _ hb, hl, orTrap_ok]

theorem tstBody_ok (ha : (h.x a).toNat % 4 = 0) (hb : (h.x b).toNat % 4 = 0)
    (hl : h.storeBytes (h.reqW (h.x a).toNat) ((h.me.tile n).cells (h.x a).toNat (h.x b).toNat)
      ((List.range (h.me.tile n).rows).flatMap fun k => natToBytes (h.me.tile n).rowBytes ((h.me.tile n).row k)) = .ok v) :
    tstBody n a b h = .ok v.advance := by
  simp only [Tile.cells] at hl
  simp only [tstBody, bind, Except.bind, tileOf_configured hn, aligned_ok _ _ ha, aligned_ok _ _ hb, hl, orTrap_ok]

theorem ttakeBody_ok (ha : (h.x a).toNat % 128 = 0) (hl : h.takeScalar (vaRange (h.x a).toNat 2048) = .ok (l, v)) :
    ttakeBody n a h = .ok (v.setTile n { h.me.tile n with
      data := (h.me.tile n).placed (elemsOf 1024 16 (bytesToNat l)), dirty := true }).advance := by
  simp only [ttakeBody, bind, Except.bind, tileOf_configured hn, aligned_ok _ _ ha, hl]

theorem tfillBody_ok (ha : (h.x a).toNat % 128 = 0)
    (hl : h.fillBytes (h.reqW (h.x a).toNat) (h.x a).toNat 16 (natToBytes 2048 (h.me.tile n).data.toNat) (bits (h.x b) 0 6) = .ok v) :
    tfillBody n a b h = .ok v.advance := by
  simp only [tfillBody, bind, Except.bind, tileOf_configured hn, aligned_ok _ _ ha, hl, orTrap_ok]

theorem tldsBody_ok (ha : (h.x a).toNat % 64 = 0) (hl : h.loadBytes h.req (vaRange (h.x a).toNat 512) = .ok (l, v)) :
    tldsBody n a h
      = .ok (v.setTile n { h.me.tile n with side := BitVec.ofNat 4096 (bytesToNat l), dirty := true }).advance := by
  simp only [tldsBody, bind, Except.bind, tileOf_configured hn, aligned_ok _ _ ha, hl, orTrap_ok]

theorem tstsBody_ok (ha : (h.x a).toNat % 64 = 0)
    (hl : h.storeBytes (h.reqW (h.x a).toNat) (vaRange (h.x a).toNat 512) (natToBytes 512 (h.me.tile n).side.toNat) = .ok v) :
    tstsBody n a h = .ok v.advance := by
  simp only [tstsBody, bind, Except.bind, tileOf_configured hn, aligned_ok _ _ ha, hl, orTrap_ok]

end

/-- Settles O30: each form's body, from the head of the queue; the loads and the take then write the one tile. -/
theorem tileMemory : Obligations.TileMemory := by
  intro s h v n a b l hh hn
  simp only [← hh.x, ← hh.tile] at hn ⊢
  refine ⟨fun ha hb hl => ?_, fun ha hb hl => ?_, fun ha hl => ?_, fun ha hl => ?_, fun ha hl => ?_, fun ha hl => ?_⟩
  · exact ⟨_, finishTileLoad_atHead hh n (.tld n a b) _ (tldBody_ok hn ha hb hl), (access_loadBytes _ _ _ _ _ hl).frame,
      tileResult_setTile v n _⟩
  · exact ⟨_, finish_atHead hh (.tst n a b) _ (tstBody_ok hn ha hb hl), (access_storeBytes _ _ _ _ _ hl).frame, goesTo_advance v⟩
  · exact ⟨_, finish_atHead hh (.ttake n a) _ (ttakeBody_ok hn ha hl), tileResult_setTile v n _⟩
  · exact ⟨_, finish_atHead hh (.tfill n a b) _ (tfillBody_ok hn ha hl), (access_fillBytes _ _ _ _ _ _ _ hl).frame, goesTo_advance v⟩
  · exact ⟨_, finishTileLoad_atHead hh n (.tlds n a) _ (tldsBody_ok hn ha hl), (access_loadBytes _ _ _ _ _ hl).frame,
      tileResult_setTile v n _⟩
  · exact ⟨_, finish_atHead hh (.tsts n a) _ (tstsBody_ok hn ha hl), (access_storeBytes _ _ _ _ _ hl).frame, goesTo_advance v⟩

end Sys2Proof.Machine
end

section
/-! Causes taken at a boundary, and a context's turn. -/

namespace Sys2Proof.Machine

open Sys2Proof

/-! ## A cause or a helper's trap taken -/

theorem asyncTrapEntry_due (s : State) (core ctx : Nat) (hr : s.running core = true) (hd : s.causeDue ⟨core, ctx⟩ = true) :
    exec (.asyncTrapEntry core ctx) s = .next (s.takeAsync ⟨core, ctx⟩) := by
  show Host.Outcome.next (if _ then _ else _) = _
  rw [hr, hd]; rfl

theorem helperCauseTaken_due (s : State) (core ctx : Nat) (hr : s.running core = true) (hn : ctx ≠ 0)
    (hd : s.causeDue ⟨core, ctx⟩ = true) : exec (.helperCauseTaken core ctx) s = .next (s.takeAsync ⟨core, ctx⟩) := by
  show Host.Outcome.next (if _ then _ else _) = _
  rw [hr, hd, bne_iff_ne.2 hn]; rfl

theorem asyncTrapEntry_idle (s : State) (core ctx : Nat) (hd : s.causeDue ⟨core, ctx⟩ = false) :
    exec (.asyncTrapEntry core ctx) s = .next s := by
  show Host.Outcome.next (if _ then _ else _) = _
  rw [hd, Bool.and_false]; rfl

theorem helperCauseTaken_idle (s : State) (core ctx : Nat) (hd : s.causeDue ⟨core, ctx⟩ = false) :
    exec (.helperCauseTaken core ctx) s = .next s := by
  show Host.Outcome.next (if _ then _ else _) = _
  rw [hd, Bool.and_false]; rfl

/-- Where no helper's trap comes first, the cause of least code leaves the pending ones and is taken (R384). -/
theorem takeAsync_cause (s : State) (i : CtxId) (p : Pending) (hh : i.ctx = 0 → s.heldPending i.core = none)
    (hp : leastCause (s.pendingOf i) = some p) :
    s.takeAsync i =
      (let s1 := s.modCtx i fun c => { c with pending := c.pending.filter fun q => q.cause != p.cause }
       let s2 := if p.cause = .watchpoint then s1.modCore i.core fun c => { c with wpHit := [], wpEng := [] } else s1
       s2.takeCause i { cause := p.cause, tval := p.tval } true p.eng) := by
  have h : (if i.ctx = 0 then s.heldPending i.core else none) = none := by
    split
    · exact hh ‹_›
    · rfl
  unfold State.takeAsync
  rw [h, hp]

/-- A helper's pending trap is taken before every cause (R20, R384). -/
theorem takeAsync_helper (s : State) (core h : Nat) (hh : s.heldPending core = some h) :
    s.takeAsync ⟨core, 0⟩ = s.takeHelperTrap core h := by
  unfold State.takeAsync
  rw [if_pos rfl, hh]

theorem heldPending_helper {s : State} {core h : Nat} (hh : s.heldPending core = some h) : h ≠ 0 ∧ h < 16 := by
  have hm : h ∈ helperNumbers := List.mem_of_find?_eq_some hh
  have : ∀ k ∈ helperNumbers, k ≠ 0 ∧ k < 16 := by decide
  exact this h hm

/-- The control context enters its handler with the helper's registers, and the helper keeps the interrupted pc (R20). -/
theorem takeHelperTrap_spec (s : State) (core h : Nat) (hh : h ≠ 0) :
    let hc := s.ctx ⟨core, h⟩
    let t := s.takeHelperTrap core h
    t.ctx ⟨core, 0⟩ = (s.ctx ⟨core, 0⟩).enter hc.epc hc.cause hc.tval h ∧
      t.ctx ⟨core, h⟩ = { hc with epc := (s.ctx ⟨core, 0⟩).pc, trapPending := false } ∧
      OnlyCtxs s t [⟨core, 0⟩, ⟨core, h⟩] := by
  have hne : (⟨core, h⟩ : CtxId) ≠ ⟨core, 0⟩ := fun e => hh (congrArg CtxId.ctx e)
  unfold State.takeHelperTrap
  refine ⟨?_, ?_, ⟨fun i hi => ?_, fun pa => rfl⟩⟩
  · rw [State.ctx_modCtx, if_neg hne.symm, State.ctx_modCtx_same, ctx_squash]
  · rw [State.ctx_modCtx_same, State.ctx_modCtx, if_neg hne, ctx_squash]
  · simp only [List.mem_cons, List.not_mem_nil, or_false, not_or] at hi
    rw [State.ctx_modCtx, if_neg hi.2, State.ctx_modCtx, if_neg hi.1, ctx_squash]

theorem pendingOf_helper (s : State) (core ctx : Nat) (h : ctx ≠ 0) : s.pendingOf ⟨core, ctx⟩ = (s.ctx ⟨core, ctx⟩).pending := by
  simp only [State.pendingOf, h, if_false, List.append_nil]

/-- Settles O44: the two ways in which `takeAsync` goes, and what each leaves. -/
theorem causesTaken : Obligations.CausesTaken := by
  intro s core ctx h p hr
  refine ⟨fun hd hn hp => ?_, fun hd hh => ?_, fun hn hd hp => ?_, fun hd e he => ?_⟩
  · obtain ⟨others, mem, me, hit⟩ := async_ctx s ⟨core, 0⟩ p
    have e := takeAsync_cause s ⟨core, 0⟩ p (fun _ => hn) hp
    rw [← e] at others mem me hit
    refine ⟨_, asyncTrapEntry_due s core 0 hr hd, ⟨fun j hj => others j (by simpa using hj), mem⟩, ?_, ?_, hit⟩
    · rw [me]; exact enteredStatus_trapStatus _ _ (by omega)
    · rw [me]; rfl
  · obtain ⟨h0, h16⟩ := heldPending_helper hh
    obtain ⟨control, helper, rest⟩ := takeHelperTrap_spec s core h h0
    rw [← takeAsync_helper s core h hh] at control helper rest
    refine ⟨_, asyncTrapEntry_due s core 0 hr hd, rest, ?_, ?_, helper⟩
    · rw [control]; exact enteredStatus_trapStatus _ _ h16
    · rw [control]; rfl
  · obtain ⟨others, mem, me, -⟩ := async_ctx s ⟨core, ctx⟩ p
    have e := takeAsync_cause s ⟨core, ctx⟩ p (fun h => absurd h hn) (by rw [pendingOf_helper s core ctx hn]; exact hp)
    rw [← e] at others mem me
    refine ⟨_, helperCauseTaken_due s core ctx hr hn hd, ⟨fun j hj => others j (by simpa using hj), mem⟩, ?_⟩
    rw [me]; simp only [hn, if_false]; rfl
  · simp only [List.mem_cons, List.not_mem_nil, or_false] at he
    rcases he with rfl | rfl
    · exact asyncTrapEntry_idle s core ctx hd
    · exact helperCauseTaken_idle s core ctx hd

/-! ## A context's turn (R22, R384) -/

/-- A step whose move is a context's turn. -/
theorem step_turn (s : State) (c : CtxId) (rest : List Move) (ha : s.agenda = .ctx c :: rest) (he : c.exists = true)
    (hc : s.clocked = true) : step s = State.turn { s with agenda := rest } c := by
  unfold step State.advanceDevice
  rw [ha]
  show (if c.exists then (if s.clocked then _ else _) else _) = _
  rw [he, hc]; rfl

/-- A turn that nothing comes before fetches (R384). -/
theorem turn_fetches (s : State) (c : CtxId) (h1 : s.mayRun c = true) (h2 : s.causeDue c = false) (h3 : s.noteDue c = false)
    (h4 : s.itsTurn c = true) : s.turn c = (s.turnOf c).fetchRun := by
  simp [State.turn, h1, h2, h3, h4]

theorem fetchRun_failed (b : State) (e : FetchErr) (hb : b.me.badEntry = false) (hf : b.fetchBytes = .error e) :
    b.fetchRun = .next (b.fetchFailed e) := by
  simp only [State.fetchRun, hb, hf, Bool.false_eq_true, if_false]

theorem fetchRun_performs (b v : State) (l : List Byte) (hb : b.me.badEntry = false) (hf : b.fetchBytes = .ok (l, v)) :
    b.fetchRun = (v.fetched l).perform (instrOf l) := by
  simp only [State.fetchRun, hb, hf, Bool.false_eq_true, if_false]

theorem instrOf_some (l r : List Byte) (i : Instr) (h : decode l = some (i, r)) : instrOf l = i := by rw [instrOf, h]

theorem instrOf_none (l : List Byte) (h : decode l = none) : instrOf l = .illegalInstruction (wordAt l) := by rw [instrOf, h]

/-- A context whose request waits for no copy performs its instruction. -/
theorem perform_runs (u : State) (i : Instr) (hh : u.holdPaired i = none) (hg : u.me.pairGo = false) (hr : u.me.pairReply = false) :
    u.perform i = exec i u := by
  have hp : u.replyPending = false := by simp [State.replyPending, hg]
  unfold State.perform
  rw [hh, hp, hg, hr]
  cases exec i u <;> rfl

theorem perform_holds (u t : State) (i : Instr) (hh : u.holdPaired i = some t) : u.perform i = .next t := by
  unfold State.perform
  rw [hh]

/-- Settles O55: the turn's order, then the fetch and the decoded instruction. -/
theorem stepRunsTheDecodedInstruction : Obligations.StepRunsTheDecodedInstruction := by
  intro s c rest ha he hc
  dsimp only
  rw [step_turn s c rest ha he hc]
  generalize ({ s with agenda := rest } : State) = q
  refine ⟨fun h1 => ?_, fun h1 h2 => ?_, fun h1 h2 h3 => ?_, fun h1 h2 h3 h4 => ?_, fun h1 h2 h3 h4 hb => ?_⟩
  · simp [State.turn, h1]
  · simp [State.turn, h1, h2]
  · simp [State.turn, h1, h2, h3]
  · simp [State.turn, h1, h2, h3, h4]
  · rw [turn_fetches q c h1 h2 h3 h4]
    refine ⟨fun e hf => fetchRun_failed _ e hb hf, fun l v hf => ?_⟩
    rw [fetchRun_performs _ v l hb hf]
    refine ⟨fun i r hd hh hg hr => ?_, fun i r t hd hh => ?_, fun hd hh hg hr => ?_⟩
    · rw [instrOf_some l r i hd]; exact perform_runs _ _ hh hg hr
    · rw [instrOf_some l r i hd]; exact perform_holds _ _ _ hh
    · rw [instrOf_none l hd]; exact perform_runs _ _ hh hg hr

end Sys2Proof.Machine
end

section
/-! Supersteps: arrivals at the boundary, tasks, and ILLEGAL outside step mode. -/

namespace Sys2Proof.Machine

open Sys2Proof

/-! ## Supersteps (R112) -/

theorem destX_ok {s : State} {d : Nat} (h : s.me.canWrite d = true) : s.destX d = .ok () := by simp [State.destX, need, h]

theorem needStep_ok {s : State} (hm : s.stepMode s.cur.core = true) (hc : s.cur.ctx = 0) : s.needStep = .ok () := by
  simp [State.needStep, need, hm, hc]

/-- Outside step mode, and in a helper, what needs step mode traps before anything else (R112). -/
theorem needStep_traps {s : State} (h : s.stepMode s.cur.core = false ∨ s.cur.ctx ≠ 0) (k : Unit → Body) :
    finish s (s.needStep >>= k) = finish s (trapIllegal s) := by
  have e : s.needStep = trapIllegal s := by
    rcases h with h | h
    · simp [State.needStep, need, h]
    · simp [State.needStep, need, h]
  rw [e]; rfl

/-- An arrival that waits for no helper and no command (R35, R113). -/
theorem arriveBoundary_ok {s : State} (hh : s.helpersRest s.cur.core = true) (he : s.enginesRest s.cur.core = true) (w : Wait) :
    s.arriveBoundary w = .ok ((s.modMe fun c => { c with wait := w }).completeBoundary s.myPart) := by
  simp [State.arriveBoundary, hh, he]

/-- `sexit` gives the core its new task id and advances. -/
theorem sexit_starts (s : State) (a : Nat) (hm : s.stepMode s.cur.core = true) (hc : s.cur.ctx = 0)
    (hh : s.helpersRest s.cur.core = true) :
    exec (.sexit a) s = .next (s.modCore s.cur.core fun c => { c with taskId := (s.x a).setWidth 32 }).advance := by
  show finish s (s.needStep >>= _) = _
  rw [needStep_ok hm hc]
  simp only [bind, Except.bind, hh, if_true]; rfl

theorem sstep_arrives (s : State) (hm : s.stepMode s.cur.core = true) (hc : s.cur.ctx = 0) (hh : s.helpersRest s.cur.core = true)
    (he : s.enginesRest s.cur.core = true) :
    exec .sstep s = .next ((s.modMe fun c => { c with wait := .boundary 0 false 0 }).completeBoundary s.myPart) := by
  show finish s (s.needStep >>= fun _ => s.arriveBoundary _) = _
  rw [needStep_ok hm hc, arriveBoundary_ok hh he]; rfl

theorem svote_arrives (s : State) (d a : Nat) (hm : s.stepMode s.cur.core = true) (hc : s.cur.ctx = 0)
    (hh : s.helpersRest s.cur.core = true) (he : s.enginesRest s.cur.core = true) (hd : s.me.canWrite d = true) :
    exec (.svote d a) s = .next ((s.modMe fun c =>
      { c with wait := .boundary (word (bits (s.x a) 0 32)) true d }).completeBoundary s.myPart) := by
  show finish s (s.needStep >>= fun _ => s.destX d >>= fun _ => s.arriveBoundary _) = _
  rw [needStep_ok hm hc, destX_ok hd, arriveBoundary_ok hh he]; rfl

/-- Settles O39: each instruction's arrival in step mode, and `needStep` anywhere else. -/
theorem superstepInstructions : Obligations.SuperstepInstructions := by
  intro s d a
  refine ⟨fun hm hc hh => ⟨⟨_, sexit_starts s a hm hc hh, ?_, ?_, fun i hi => ?_, fun pa => rfl⟩, fun hd he e hl => ?_⟩,
    fun hs hd i hi => trap_ex s _ _ i (by decide) (by decide) ?_⟩
  · have hctx := ctx_modCore_same s s.cur.core (fun c => { c with taskId := (s.x a).setWidth 32 }) (fun _ => rfl) s.cur
    rw [State.me_advance, State.pc, show State.me _ = s.me from hctx]; rfl
  · rw [State.myCore, State.advance, State.modMe_cur, State.core_modMe, if_pos rfl]
    exact congrArg Core.taskId (State.core_modCore_same s s.cur.core _)
  · refine (State.ctx_advance_other _ (by exact hi)).trans ?_
    exact ctx_modCore_same s s.cur.core (fun c => { c with taskId := (s.x a).setWidth 32 }) (fun _ => rfl) i
  · have arrives : exec e.1 s = .next ((s.modMe fun c => { c with wait := e.2 }).completeBoundary s.myPart) := by
      simp only [List.mem_cons, List.not_mem_nil, or_false] at hl
      rcases hl with rfl | rfl
      · exact sstep_arrives s hm hc hh he
      · exact svote_arrives s d a hm hc hh he hd
    exact ⟨arrives, fun hw => ⟨_, by rw [arrives, boundary_wait _ _ hw], State.me_modMe _ _, onlyContext_modMe _ _⟩⟩
  · simp only [List.mem_cons, List.not_mem_nil, or_false] at hi
    rcases hi with rfl | rfl | rfl
    · exact needStep_traps hs _
    · exact needStep_traps hs _
    · exact needStep_traps hs _

end Sys2Proof.Machine
end

section
/-! Helpers, groups and barriers: how a helper starts, resumes and ends, and how a context joins, leaves and arrives. -/

namespace Sys2Proof.Machine

open Sys2Proof

/-! ## Starting helpers (R106, R107) -/

theorem startAligned_ok {s : State} {a : Nat} (h : bits (s.x a) 0 2 = 0) : s.startAligned a = .ok () := by
  simp [State.startAligned, need, h]

/-- The checks with which a start begins, passed (R107). -/
theorem startChecks_ok {s : State} {d a : Nat} (hd : s.me.canWrite d = true) (ha : bits (s.x a) 0 2 = 0) (k : Unit → Body) :
    (s.destX d >>= fun _ => s.startAligned a >>= k) = k () := by
  rw [destX_ok hd, startAligned_ok ha]; rfl

theorem hstart_none (s : State) (d a b : Nat) (hd : s.me.canWrite d = true) (ha : bits (s.x a) 0 2 = 0)
    (hf : helperNumbers.find? s.available = none) : exec (.hstart d a b) s = .next (s.setX d 0).advance := by
  refine (congrArg (finish s) (startChecks_ok hd ha _)).trans ?_
  simp only [hf]; rfl

theorem hstart_some (s : State) (d a b h : Nat) (hd : s.me.canWrite d = true) (ha : bits (s.x a) 0 2 = 0)
    (hf : helperNumbers.find? s.available = some h) :
    exec (.hstart d a b) s = .next ((s.startHelper h (s.x a) (s.x b)).setX d (word h)).advance := by
  refine (congrArg (finish s) (startChecks_ok hd ha _)).trans ?_
  simp only [hf]; rfl

/-- `hstart.n` of a helper that is HELD resumes it (R20, R107). -/
theorem hstartN_resumes (s : State) (d a b h : Nat) (hd : s.me.canWrite d = true) (ha : bits (s.x a) 0 2 = 0)
    (hb : (s.x b).toNat = h) (h1 : 1 ≤ h) (h2 : h ≤ 10) (hl : (s.myCore.ctx h).life = .held) (hp : s.me.priv ≠ 0) :
    exec (.hstartN d a b) s = .next ((s.resumeHelper h (s.x a)).setX d (word h)).advance := by
  refine (congrArg (finish s) (startChecks_ok hd ha _)).trans ?_
  simp [hb, h1, h2, hl, hp, need, finish, bind, Except.bind]

/-- `hstart.n` of a helper that is available starts it with 0 in its x1 (R107). -/
theorem hstartN_starts (s : State) (d a b h : Nat) (hd : s.me.canWrite d = true) (ha : bits (s.x a) 0 2 = 0)
    (hb : (s.x b).toNat = h) (h1 : 1 ≤ h) (h2 : h ≤ 10) (hl : (s.myCore.ctx h).life ≠ .held) (hv : s.available h = true) :
    exec (.hstartN d a b) s = .next ((s.startHelper h (s.x a) 0).setX d (word h)).advance := by
  refine (congrArg (finish s) (startChecks_ok hd ha _)).trans ?_
  simp [hb, h1, h2, hl, hv, finish]

/-- `hstart.n` of a number that no helper has answers 0 (R107). -/
theorem hstartN_noHelper (s : State) (d a b : Nat) (hd : s.me.canWrite d = true) (ha : bits (s.x a) 0 2 = 0)
    (hb : 10 < (s.x b).toNat) : exec (.hstartN d a b) s = .next (s.setX d 0).advance := by
  refine (congrArg (finish s) (startChecks_ok hd ha _)).trans ?_
  simp [Nat.not_le.2 hb, finish]

/-- A helper that starts, as the starter leaves it behind (R107). -/
theorem ctx_started (s : State) (d h : Nat) (pc val v : Word) (hne : h ≠ s.cur.ctx) :
    ((s.startHelper h pc val).setX d v).advance.ctx ⟨s.cur.core, h⟩ = { freshCtx h with
      life := .live, pc := pc, x := smSet (freshCtx h).x 1 val, slice := s.me.slice, deadline := s.me.deadline
      budget := s.me.budget, group := s.me.group } := by
  have hi : (⟨s.cur.core, h⟩ : CtxId) ≠ s.cur := fun e => hne (congrArg CtxId.ctx e)
  have hcur := start_cur s h pc val
  rw [State.ctx_advance_other _ (by rw [State.setX, State.modMe_cur, hcur]; exact hi), State.setX,
    State.ctx_modMe_other _ _ (by rw [hcur]; exact hi), start_ctx]
  rfl

theorem xWritten_started (s : State) (d h : Nat) (pc val v : Word) (hne : h ≠ s.cur.ctx) :
    XWritten (s.startHelper h pc val) ((s.startHelper h pc val).setX d v).advance d v (s.pc + s.len) :=
  xW_of s _ d v (start_me s h pc val hne) (start_len s h pc val)

theorem xWritten_resumed (s : State) (d h : Nat) (pc v : Word) (hne : h ≠ s.cur.ctx) :
    XWritten (s.resumeHelper h pc) ((s.resumeHelper h pc).setX d v).advance d v (s.pc + s.len) := by
  have hi : s.cur ≠ ⟨s.cur.core, h⟩ := fun e => hne (congrArg CtxId.ctx e).symm
  exact xW_of s _ d v ((State.ctx_modCtx _ _ _ _).trans (if_neg hi)) rfl

/-! ## Ending (R108) -/

/-- A context of no slice whose queue is done frees itself. -/
theorem hexit_frees (s : State) (hc : s.cur.ctx ≠ 0) (hq : s.queueDone = true) (hg : s.me.group = none) :
    exec .hexit s = .next ((s.parkOwned s.cur).freeCtx s.cur) := by
  show finish s (need _ _ >>= fun _ => _) = _
  rw [bne_iff_ne.2 hc]
  simp only [need, if_true, bind, Except.bind, hq, hg]; rfl

theorem ctx_freeCtx_same (s : State) (i : CtxId) : (s.freeCtx i).ctx i = freshCtx i.ctx := State.ctx_modCtx_same _ _ _

theorem hexit_control (s : State) (hc : s.cur.ctx = 0) : exec .hexit s = finish s (trapIllegal s) := by
  show finish s (need _ _ >>= fun _ => _) = _
  rw [hc]; rfl

/-! ## Groups and barriers (R110) -/

theorem needGroup_ok {c : Bool} (h : c = true) : needGroup c = .ok () := by subst h; rfl

theorem needGroup_traps {s : State} {c : Bool} (h : c = false) (k : Unit → Body) :
    finish s (needGroup c >>= k) = finish s (trapWith .groupFault 0) := by
  subst h; rfl

theorem gjoin_joins (s : State) (g : Nat) (h : s.inGroup g = false) :
    exec (.gjoin g) s = .next (s.modPart s.myPart fun p =>
      p.setGroup g { p.group g with members := (p.group g).members ++ [s.cur] }).advance := by
  show finish s (needGroup _ >>= fun _ => _) = _
  rw [h]; rfl

theorem gleave_departs (s : State) (g : Nat) (h : s.inGroup g = true) :
    exec (.gleave g) s = .next (s.depart s.myPart s.cur g).advance := by
  show finish s (needGroup _ >>= fun _ => _) = _
  rw [h]; rfl

theorem gbar_arrives (s : State) (g n a : Nat) (h : s.inGroup g = true) (hn : n = 0 ∨ s.countFits g n (s.x a).toNat = true) :
    exec (.gbar g n a) s = .next (s.arriveAt s.cur g n (s.x a).toNat) := by
  show finish s (needGroup _ >>= fun _ => needGroup _ >>= fun _ => _) = _
  rw [needGroup_ok h, needGroup_ok (show (n == 0 || s.countFits g n (s.x a).toNat) = true by simpa using hn)]; rfl

/-- A departure from a group without an open episode only takes the context out of the members (R28). -/
theorem depart_idle (s : State) (p : Nat) (i : CtxId) (g : Nat) (h : ((s.part p).group g).bars = []) :
    s.depart p i g = s.modPart p fun q => q.setGroup g ⟨((s.part p).group g).members.filter (· != i), []⟩ := by
  simp only [State.depart, h, List.map_nil, List.filter_nil, smKeys, List.foldl_nil]

/-- Settles O38, instruction by instruction. -/
theorem contextsAndGroups : Obligations.ContextsAndGroups := by
  intro s d a b g n
  refine ⟨fun hd ha => ⟨fun hn => ?_, fun h hf hne => ?_, fun h hb h1 h2 hne hl hp => ?_, fun h hb h1 h2 hne hl hv => ?_, fun hb => ?_⟩,
    fun hc hq hg => ?_, fun hc => ?_, fun h => ?_, fun h hb => ?_, gbar_arrives s g n a, fun e he hf => ?_⟩
  · refine ⟨_, hstart_none s d a b hd ha (List.find?_eq_none.2 fun h hm => ?_), xWritten_advance s d 0⟩
    rw [hn h hm]; exact Bool.false_ne_true
  · exact ⟨_, hstart_some s d a b h hd ha hf, xWritten_started s d h _ _ _ hne, ctx_started s d h _ _ _ hne⟩
  · exact ⟨_, hstartN_resumes s d a b h hd ha hb h1 h2 hl hp, xWritten_resumed s d h _ _ hne⟩
  · exact ⟨_, hstartN_starts s d a b h hd ha hb h1 h2 hl hv, xWritten_started s d h _ _ _ hne⟩
  · exact ⟨_, hstartN_noHelper s d a b hd ha hb, xWritten_advance s d 0⟩
  · exact ⟨_, hexit_frees s hc hq hg, ctx_freeCtx_same _ _, ((homes_park s s.cur).trans (homes_free _ s.cur)).home⟩
  · exact ⟨_, hexit_control s hc, (takeTrap_spec s .illegal _ none (by decide) (by decide)).1 hc⟩
  · refine ⟨_, gjoin_joins s g h, State.me_advance _, ?_, fun j hj => ?_, fun i hi => State.ctx_advance_other _ (by exact hi), fun pa => rfl⟩
    · rw [State.advance, State.part_modMe, State.part_modPart_same, group_setGroup _ _ _ _ (by simp), if_pos rfl]
    · rw [State.advance, State.part_modMe, State.part_modPart_same, group_setGroup _ _ _ _ (by simp), if_neg hj]
  · refine ⟨_, gleave_departs s g h, ?_⟩
    rw [depart_idle s _ _ g hb]
    exact ⟨State.me_advance _, by rw [State.advance, State.part_modMe, State.part_modPart_same],
      fun i hi => State.ctx_advance_other _ (by exact hi), fun pa => rfl⟩
  · refine trap_ex s .groupFault 0 e.1 (by decide) (by decide) ?_
    simp only [List.mem_cons, List.not_mem_nil, or_false] at he
    rcases he with rfl | rfl | rfl
    · exact needGroup_traps (by simpa using hf) _
    · exact needGroup_traps (by simpa using hf) _
    · exact needGroup_traps (by simpa using hf) _

end Sys2Proof.Machine
end

section
/-! The matrix engine and the lane groups at work: bindings, completions, and what a product adds. -/

namespace Sys2Proof.Machine

open Sys2Proof

/-! ## Bindings (R25, R26) -/

theorem clusterOf_core {cl k : Nat} (hk : k < 4) : clusterOf (4 * cl + k) = cl := by unfold clusterOf; omega

theorem single_contender (p : Nat → Bool) (k : Nat) (hk : k < 4) (h1 : p k = true) (h2 : ∀ j, j < 4 → j ≠ k → p j = false) :
    [0, 1, 2, 3].filter p = [k] := by
  rw [← List.filterMap_eq_filter]
  exact single_heads (Option.guard p) k hk k (by simp [Option.guard, h1]) fun j hj hne => by simp [Option.guard, h2 j hj hne]

/-- The only contender of a cluster is bound (R25, R26). -/
theorem matrixEngineBinding_binds (s : State) (cl k : Nat) (hk : k < 4) (hr : s.running (4 * cl) = true)
    (h1 : s.matContends (4 * cl + k) = true) (h2 : ∀ j, j < 4 → j ≠ k → s.matContends (4 * cl + j) = false) :
    ∃ cr ls, exec (.matrixEngineBinding cl) s
      = .next ((s.bindHead (4 * cl + k)).modCluster cl fun c => { c with mcredit := cr, mloss := ls }) := by
  obtain ⟨cr, ls, ha⟩ := arb_single (fun k => (s.core (4 * cl + k)).vweight) k (s.cluster cl).mcredit (s.cluster cl).mloss
  refine ⟨cr, ls, ?_⟩
  show execMatrixEngineBinding cl s = _
  simp only [execMatrixEngineBinding, hr, if_true, single_contender (fun j => s.matContends (4 * cl + j)) k hk h1 h2, ha]

theorem bindHead_matrix (s : State) (core ctx n : Nat) (v : Option (BitVec 16)) (op : MatOp) (rest : List QEntry)
    (hq : (s.core core).queue = ⟨ctx, .matrix n v op⟩ :: rest) :
    s.bindHead core = (s.modCore core fun c => { c with queue := popQueue c.queue }).modCluster (clusterOf core) fun c =>
      { c with mat := c.mat ++ [⟨core, ctx, n, op⟩] } := by
  unfold State.bindHead
  rw [hq]

theorem bindHead_memory (s : State) (core ctx : Nat) (op : QMem) (b : Bool) (rest : List QEntry)
    (hq : (s.core core).queue = ⟨ctx, .memory op b⟩ :: rest) :
    s.bindHead core = s.modCore core fun c => { c with queue := ⟨ctx, .memory op true⟩ :: rest } := by
  unfold State.bindHead
  rw [hq]

theorem ctx_setQueue (s : State) (n : Nat) (f : Core → List QEntry) (i : CtxId) :
    (s.modCore n fun c => { c with queue := f c }).ctx i = s.ctx i :=
  ctx_modCore_same s n (fun c => { c with queue := f c }) (fun _ => rfl) i

/-- The lane group 0 of an idle cluster takes the only vector head (R25). -/
theorem laneGroupBinding_binds (s : State) (cl k ctx : Nat) (lw : VecWork) (rest : List QEntry) (hk : k < 4)
    (hr : s.running (4 * cl) = true) (hq : (s.core (4 * cl + k)).queue = ⟨ctx, .vector lw⟩ :: rest) (hl : (s.cluster cl).lanes = [])
    (h2 : ∀ j, j < 4 → j ≠ k → (s.core (4 * cl + j)).queue = []) :
    ∃ cr ls, exec (.laneGroupBinding cl) s
      = .next ((s.modCore (4 * cl + k) fun c => { c with queue := popQueue c.queue }).modCluster cl fun c =>
          { c with lanes := smSet c.lanes 0 ⟨4 * cl + k, ctx, lw⟩, vcredit := cr, vloss := ls }) := by
  obtain ⟨cr, ls, ha⟩ := arb_single (fun k => (s.core (4 * cl + k)).vweight) k (s.cluster cl).vcredit (s.cluster cl).vloss
  refine ⟨cr, ls, ?_⟩
  show execLaneGroupBinding cl s = _
  unfold execLaneGroupBinding
  dsimp only
  rw [hr, hl, single_heads _ k hk (k, ⟨4 * cl + k, ctx, lw⟩) (by rw [hq]; rfl) (fun j hj hne => by rw [h2 j hj hne])]
  simp [smHas, ha]

/-! ## Completions (R25, R26, R68) -/

/-- The first work on its slot completes (R26, R151). -/
theorem matrixCompletion_completes (s : State) (cl n : Nat) (w : MatWork) (hw : (s.cluster cl).mat[n]? = some w)
    (hf : ∀ u ∈ (s.cluster cl).mat.take n, u.slot ≠ w.slot) :
    exec (.matrixCompletion cl n) s = .next ((s.modSlot w.core w.slot fun t => t.complete w.op (w.core % 4, w.ctx)).modCluster cl
      fun c => { c with mat := c.mat.eraseIdx n }) := by
  have hfirst : ((s.cluster cl).mat.take n).any (fun u => u.slot == w.slot) = false :=
    List.any_eq_false.2 fun u hu => by simpa using hf u hu
  show execMatrixCompletion cl n s = _
  simp only [execMatrixCompletion, hw, hfirst, Bool.false_eq_true, if_false]

theorem vectorCompletion_completes (s : State) (cl lane : Nat) (w : LaneWork)
    (hw : (s.cluster cl).lanes.find? (fun l => l.1 == lane) = some (lane, w)) :
    exec (.vectorCompletion cl lane) s = .next ((s.modCluster cl fun c => { c with lanes := smErase c.lanes lane }).modCtx
      ⟨w.core, w.ctx⟩ fun c => { c with vstat := orFlags c.vstat w.work.flags }) := by
  show execVectorCompletion cl lane s = _
  simp only [execVectorCompletion, hw]

/-- A product adds its groups into the elements of the slot that its rows reach (R76, R154). -/
theorem elem_complete_mma (old : Slot) (a : Tile) (b : List Tile) (fa fb : F32) (tag : Nat × Nat) (i j : Nat)
    (ha : a.rows ≤ 16) (hb : (b.headD {}).rows ≤ 16) (hi : i < 16) (hj : j < 16) :
    (old.complete (.mma a b fa fb) tag).elem i j = if i < a.rows ∧ j < (b.headD {}).rows
      then (accumulateAll ((decodeFp fp32 fa.toNat).mul (decodeFp fp32 fb.toNat)).1 (old.elem i j)
        ((List.range (groupCount a)).map (groupProducts a b i j))).1
      else old.elem i j := by
  have hpos : ∀ p ∈ positions a.rows (b.headD {}).rows, p.1 < 16 ∧ p.2 < 16 := fun p hp => by
    have := (mem_positions _ _ p.1 p.2).1 hp
    omega
  have h := mma_fold old (fun p => accumulateAll ((decodeFp fp32 fa.toNat).mul (decodeFp fp32 fb.toNat)).1 (old.elem p.1 p.2)
    ((List.range (groupCount a)).map (groupProducts a b p.1 p.2))) _ hpos old i j hi hj
  simp only [mem_positions] at h
  exact h

/-- Settles O32: the two bindings, the two completions, and the product's elements. -/
theorem enginesAtWork : Obligations.EnginesAtWork := by
  intro s cl k n w lw hk
  have hcl := clusterOf_core (cl := cl) hk
  refine ⟨fun ctx rest hr h1 h2 => ?_, fun hw hc hf => ?_, fun old a b fa fb i j ha hb hi hj => ?_, fun ctx rest hr hq hl h2 => ?_,
    fun lane core' ctx hw => ?_⟩
  · obtain ⟨cr, ls, e⟩ := matrixEngineBinding_binds s cl k hk hr h1 h2
    refine ⟨fun v hq => ?_, fun op hq => ?_⟩
    · rw [bindHead_matrix s _ _ _ _ _ _ hq, hcl] at e
      refine ⟨_, e, ?_, ?_, ?_, fun i => ctx_setQueue s _ (fun c => popQueue c.queue) i, fun pa => rfl⟩
      · simp
      · simp
      · simp
    · rw [bindHead_memory s _ _ _ _ _ hq] at e
      refine ⟨_, e, ?_, ?_, ?_, fun i => ctx_setQueue s _ (fun _ => ⟨ctx, .memory op true⟩ :: rest) i, fun pa => rfl⟩
      · simp
      · simp
      · simp
  · obtain ⟨-, -, hctx, -, hmem, hclu⟩ := modSlot_frame s w.core w.slot fun t => t.complete w.op (w.core % 4, w.ctx)
    have h := hclu cl
    rw [if_pos hc.symm] at h
    refine ⟨_, matrixCompletion_completes s cl n w hw hf, ?_, ?_, fun m hm => ?_, fun i => hctx i, fun pa => hmem pa⟩
    · rw [State.cluster_modCluster_same, h]
    · rw [State.cluster_modCluster_same, h]; exact smGet_smSet_same _ _ _ _
    · rw [State.cluster_modCluster_same, h]; exact smGet_smSet_other _ hm _ _
  · exact elem_complete_mma old a b fa fb (0, 0) i j ha hb hi hj
  · obtain ⟨cr, ls, e⟩ := laneGroupBinding_binds s cl k ctx lw rest hk hr hq hl h2
    refine ⟨_, e, ?_, ?_, fun i => ctx_setQueue s _ (fun c => popQueue c.queue) i, fun pa => rfl⟩
    · simp
    · simp [hl, smSet]
  · refine ⟨_, vectorCompletion_completes s cl lane _ hw, ?_, State.ctx_modCtx_same _ _ _, fun i hi => ?_, fun pa => rfl⟩
    · simp
    · exact (State.ctx_modCtx _ _ _ _).trans (if_neg hi)

end Sys2Proof.Machine
end

section
/-! Scalar floating point: each instruction ends in a shared ending, whose result is known. -/

namespace Sys2Proof.Machine

open Sys2Proof

/-! ## Scalar floating point (R120 to R122) -/

/-- `fmvf` moves all 64 bits and raises nothing (R121). -/
theorem fResult_fmvf (s : State) (d a : Nat) : ∃ t, exec (.fmvf d a) s = .next t ∧ FResult s t d (s.x a) 0 := by
  have e : (s.setF d (s.x a)).advance = s.modMe fun c => { c with f := smSet c.f d (s.x a), pc := c.pc + s.len } := by
    simp only [State.setF, State.advance, State.modMe_modMe]; rfl
  refine ⟨_, rfl, ?_⟩
  rw [e]
  refine ⟨?_, fun n h => ?_, ?_, onlyContext_modMe _ _⟩
  · simp [State.f]
  · simp [State.f, smGet_smSet_other _ h]
  · simp [State.pc, orFlags_zero]

/-- Settles O4: an arithmetic form is one rounding into its f register, a compare or a conversion to integers one value and its flags. -/
theorem scalarFloatingPoint : Obligations.ScalarFloatingPoint := by
  refine ⟨fun s d a b f y k => ⟨fun e he => ?_, fResult_fmvf s d a⟩, fun s d a b f k hd => ⟨fun e he => ?_, xResult_writeTo s d _ hd⟩⟩
  · have arm : exec e.1 s = s.roundTo d f e.2 := by
      simp only [List.mem_cons, List.not_mem_nil, or_false] at he
      rcases he with rfl | rfl | rfl | rfl | rfl | rfl | rfl | rfl | rfl | rfl | rfl | rfl | rfl <;> rfl
    rw [arm]
    exact fResult_writeFp s d _
  · have arm : exec e.1 s = s.writeXFp d e.2.1 e.2.2 := by
      simp only [List.mem_cons, List.not_mem_nil, or_false] at he
      rcases he with rfl | rfl | rfl | rfl <;> rfl
    rw [arm]
    exact xFlagged_writeXFp s d _ _ hd

end Sys2Proof.Machine
end

section
/-! Element-wise floating point: the pattern's elements, and the instructions that it covers. -/

namespace Sys2Proof.Machine

open Sys2Proof

/-! ## Floating-point elements -/

theorem FTy.bits_bytes (y : FTy) : 8 * (FTy.bits y / 8) = FTy.bits y := by cases y <;> rfl

theorem FTy.bits_fill (y : FTy) : FTy.bits y * (2048 / FTy.bits y) = 2048 := by cases y <;> rfl

theorem FTy.count_bytes (y : FTy) : 256 / (FTy.bits y / 8) = 2048 / FTy.bits y := by cases y <;> rfl

theorem srcFp_eq (m : Bool) (b vb : Nat) (y : FTy) (u : State) :
    State.srcFp m b vb (FTy.bits y / 8) u = (List.range (2048 / FTy.bits y)).map fun i =>
      if m then (u.f b).toNat % 2 ^ FTy.bits y else vElem (FTy.bits y) (u.vdata vb) i := by
  unfold State.srcFp
  cases m
  · simp only [Bool.false_eq_true, if_false, vElems_eq, FTy.bits_bytes]
  · simp only [if_true, FTy.bits_bytes, FTy.count_bytes, List.map_const', List.length_range]

/-- The element-wise pattern on FP elements (R123, R126): `src` gives the second source's codes. -/
theorem fpElementwise_ok (s u : State) (d a : Nat) (b : Option Nat) (p : Nat) (c : Bool) (y : FTy) (src : State → List Nat)
    (op : Nat → Nat → Nat → Nat × Flags) (B : Nat → Nat) (hb : s.bodyFits = .ok ()) (hq : s.queueRoom = true)
    (hv : s.vAccess (s.stag 1 a :: s.stag 0 d :: b.toList) [s.stag 0 d] = .ok u)
    (hsrc : src u = (List.range (2048 / FTy.bits y)).map B) :
    let w := FTy.bits y
    let r := fun i => op (vElem w (u.vdata (s.stag 1 a)) i) (B i) (vElem w (u.vdata (s.stag 0 d)) i)
    ∃ t data, finish s (s.elementwise d a b p c (w / 8) src op) = .next t ∧
      VecResult u t (s.stag 0 d) data (u.vside (s.stag 0 d))
        ⟨flagsOf (2048 / w) fun i => if u.active p c (w / 8 * i) then (r i).2 else 0, true,
          s.stag 1 a :: s.stag 0 d :: b.toList ++ [32 + p], [s.stag 0 d]⟩ ∧
      ∀ i, i < 2048 / w → vElem w data i
        = if u.active p c (w / 8 * i) then (r i).1 % 2 ^ w else vElem w (u.vdata (s.stag 0 d)) i := by
  have h := elementwise_ok s u d a b p c (FTy.bits y / 8) (2048 / FTy.bits y) src op B (by rw [FTy.bits_bytes])
    (by rw [FTy.bits_bytes, FTy.bits_fill]) hb hq hv hsrc
  simp only [FTy.bits_bytes] at h
  exact h

/-- Settles O19: every instruction is one of two patterns, whose elements `fpElementwise_ok` gives. -/
theorem vectorFpElements : Obligations.VectorFpElements := by
  intro s u m d a b p c y w vd hb hq A B D
  refine ⟨fun hv e he => ?_, fun hv e he => ?_⟩
  · have arm : exec e.1 s = finish s (s.elementwise d a (s.vbOf m b) p c (w / 8) (State.srcFp m b (s.stag 2 b) (w / 8)) fun x z v =>
        e.2 (decodeFp (FTy.fmt y) x) (decodeFp (FTy.fmt y) z) (decodeFp (FTy.fmt y) v)) := by
      simp only [List.mem_cons, List.not_mem_nil, or_false] at he
      rcases he with rfl | rfl | rfl | rfl | rfl | rfl | rfl <;> rfl
    rw [arm]
    exact fpElementwise_ok s u d a (s.vbOf m b) p c y _ _ _ hb hq hv (srcFp_eq m b _ y u)
  · have arm : exec e.1 s = s.fpUnary d a p c y e.2 := by
      simp only [List.mem_cons, List.not_mem_nil, or_false] at he
      rcases he with rfl | rfl <;> rfl
    rw [arm]
    exact fpElementwise_ok s u d a none p c y _ _ _ hb hq hv (by rw [FTy.bits_bytes, vElems_eq])

/-! ## Special functions -/

/-- Settles O20: the patterns on FP32 elements, and the bytes of `vmul.lg6`. -/
theorem vectorSpecialFunctions : Obligations.VectorSpecialFunctions := by
  intro s u d a b p c vd hb hq A B
  refine ⟨fun hv e he => ?_, fun hv => ⟨fun e he => ?_, ?_⟩⟩
  · have arm : exec e.1 s = s.special d a p c e.2 := by
      simp only [List.mem_cons, List.not_mem_nil, or_false] at he
      rcases he with rfl | rfl | rfl | rfl <;> rfl
    rw [arm]
    exact fpElementwise_ok s u d a none p c .f32 _ _ _ hb hq hv (vElems_eq 32 _)
  · have arm : exec e.1 s = s.refine d a b p c e.2 := by
      simp only [List.mem_cons, List.not_mem_nil, or_false] at he
      rcases he with rfl | rfl <;> rfl
    rw [arm]
    exact fpElementwise_ok s u d a (some (s.stag 2 b)) p c .f32 _ _ _ hb hq hv (vElems_eq 32 _)
  · have h := elementwise_ok s u d a (some (s.stag 2 b)) p c 1 256 (fun t => vElems 8 (t.vdata (s.stag 2 b)))
      (fun x z _ => (lg6Finish s.prefixOf (lg6Mul x z).1, (lg6Mul x z).2)) _ rfl rfl hb hq hv (vElems_eq 8 _)
    simp only [Nat.one_mul] at h
    exact h

end Sys2Proof.Machine
end

section
/-! Block formats: a conversion down writes a register and its scales, one up a group of FP32 registers. -/

namespace Sys2Proof.Machine

open Sys2Proof

/-! ## The shared shapes (R131) -/

theorem finish_aligned (s : State) (n k : Nat) (body : Body) (h : n % k = 0) :
    finish s (do s.groupAligned n k; body) = finish s body := by
  simp [State.groupAligned, need, h, bind, Except.bind]

/-- A body instruction that writes a register with its scales and reads no predicate. -/
theorem scaledRegister_ok (s u : State) (reads : List Nat) (vd : Nat) (f : State → BitVec 2048 × BitVec 1280 × Flags)
    (hb : s.bodyFits = .ok ()) (hq : s.queueRoom = true) (hv : s.vAccess reads [vd] = .ok u) :
    ∃ t, finish s (s.vecBody reads [vd] [] [] fun s => (s.setV vd (f s).1 (some (f s).2.1), (f s).2.2)) = .next t ∧
      VecResult u t vd (f u).1 (f u).2.1 ⟨(f u).2.2, true, reads, [vd]⟩ := by
  have h := fb_ok s u reads [] vd f hb hq hv
  simpa using h

/-- A body instruction that writes a group of FP32 registers from one register. -/
theorem fp32Group_ok (s u : State) (va vd k : Nat) (out : State → List (Nat × Flags)) (hb : s.bodyFits = .ok ())
    (hq : s.queueRoom = true) (hv : s.vAccess [va] (groupRegs vd k) = .ok u) (hk : k ≤ 32) (hl : (out u).length = k * 64) :
    ∃ t, finish s (s.vecBody [va] (groupRegs vd k) [] [] fun s =>
        (s.setGroup 32 vd k ((out s).map (·.1)), (out s).foldl (fun f x => f ||| x.2) 0)) = .next t ∧
      GroupResult u t 32 vd k (fun i => ((out u).getD i (0, 0)).1 % 2 ^ 32)
        ⟨(out u).foldl (fun f x => f ||| x.2) 0, true, [va], groupRegs vd k⟩ := by
  rw [vecBody_ok s u _ _ _ _ _ hb hq hv]
  have hw : (groupRegs vd k ++ List.map (32 + ·) []) = groupRegs vd k := List.append_nil _
  rw [hw]
  refine ⟨_, rfl, group_ok u 32 vd k _ _ _ rfl hk (by simpa using hl) fun i _ => ?_⟩
  rw [← List.getD_map (f := Prod.fst)]

theorem zipIdx_map_range {α β : Type} (f : Nat → α) (g : α × Nat → β) (n : Nat) :
    (((List.range n).map f).zipIdx).map g = (List.range n).map fun i => g (f i, i) := by
  apply List.ext_getElem
  · simp
  · intro i _ _; simp

/-! ## The lists that the instructions compute -/

/-- The FP32 codes and flags of an FB register, modified and rounded (R133). -/
def fbDecoded (fb4 : Bool) (q : Prefix) (va : Nat) (s : State) : List (Nat × Flags) :=
  (fbValues fb4 (s.vdata va) (s.vside va)).map (finishFp fp32 .ne q)

/-- The FP32 codes and flags of an MX register, modified and rounded (R134). -/
def mxDecoded (q : Prefix) (va : Nat) (s : State) : List (Nat × Flags) :=
  ((vElems 4 (s.vdata va)).zipIdx).map fun e => finishFp fp32 .ne q
    (scaledValue (decodeFp Sys2Proof.Machine.e2m1 e.1) (e8m0Value ((s.vside va).toNat / 2 ^ (8 * (e.2 / 32)) % 256)))

/-- The FB register of a group of FP32 registers (R133). -/
def fbEncoded (fb4 : Bool) (q : Prefix) (va r : Nat) (s : State) : BitVec 2048 × BitVec 1280 × Flags :=
  fbRegister fb4 ((s.groupElems 32 va r).map fun x => (modify q (decodeFp fp32 x), sigFlags [decodeFp fp32 x]))

/-- The MX blocks of eight FP32 registers (R134). -/
def mxBlocks (q : Prefix) (va : Nat) (s : State) : List (List Nat × Nat × Flags) :=
  (blocksOf 32 16 ((s.groupElems 32 va 8).map fun x => modify q (decodeFp fp32 x))).map mxBlock

/-- The MX register of eight FP32 registers (R134). -/
def mxEncoded (q : Prefix) (va : Nat) (s : State) : BitVec 2048 × BitVec 1280 × Flags :=
  (vJoin 4 ((mxBlocks q va s).flatMap (·.1)), BitVec.ofNat 1280 (joinElems 8 ((mxBlocks q va s).map (·.2.1))),
    (mxBlocks q va s).foldl (fun f b => f ||| b.2.2) 0)

/-- The FB register of an operation on two (R135). -/
def fbCombined (fb4 : Bool) (q : Prefix) (va vb : Nat) (f : Num → Num → Num × Flags) (s : State) :
    BitVec 2048 × BitVec 1280 × Flags :=
  fbRegister fb4 (((fbValues fb4 (s.vdata va) (s.vside va)).zip (fbValues fb4 (s.vdata vb) (s.vside vb))).map fun x =>
    (modify q (f x.1 x.2).1, (f x.1 x.2).2))

theorem fbDecoded_length (fb4 : Bool) (q : Prefix) (va : Nat) (s : State) :
    (fbDecoded fb4 q va s).length = 32 / fbWidth fb4 * 64 := by
  cases fb4 <;> simp [fbDecoded, fbValues, vElems_eq, fbWidth]

theorem mxDecoded_eq (q : Prefix) (va : Nat) (s : State) :
    mxDecoded q va s = (List.range 512).map fun i => finishFp fp32 .ne q (scaledValue
      (decodeFp Sys2Proof.Machine.e2m1 (vElem 4 (s.vdata va) i)) (e8m0Value ((s.vside va).toNat / 2 ^ (8 * (i / 32)) % 256))) := by
  rw [mxDecoded, vElems_eq, zipIdx_map_range]

/-- Settles O26: each form is one of the shared shapes with the list or the register that it computes. -/
theorem vectorBlockFormats : Obligations.VectorBlockFormats := by
  intro s u d a b fb4 r vd va vb group values hb hq
  have hgroup : ∀ k, u.groupElems 32 va k = group k := fun k => groupElems_eq u 32 va k
  refine ⟨fun ha hv => ?_, fun hd hv => ?_, fun ha hv => ?_, fun hd hv => ?_, fun hv e he => ?_⟩
  · have arm : exec (.vcvtFb d a fb4 false) s = finish s (do
        s.groupAligned va r
        s.vecBody (groupRegs va r) [vd] [] [] fun s' => (s'.setV vd (fbEncoded fb4 s.prefixOf va r s').1
          (some (fbEncoded fb4 s.prefixOf va r s').2.1), (fbEncoded fb4 s.prefixOf va r s').2.2)) := rfl
    rw [arm, finish_aligned s va r _ ha, ← hgroup r]
    exact scaledRegister_ok s u (groupRegs va r) vd (fbEncoded fb4 s.prefixOf va r) hb hq hv
  · have arm : exec (.vcvtFb d a fb4 true) s = finish s (do
        s.groupAligned vd r
        s.vecBody [va] (groupRegs vd r) [] [] fun s' => (s'.setGroup 32 vd r ((fbDecoded fb4 s.prefixOf va s').map (·.1)),
          (fbDecoded fb4 s.prefixOf va s').foldl (fun f x => f ||| x.2) 0)) := rfl
    rw [arm, finish_aligned s vd r _ hd]
    exact fp32Group_ok s u va vd r (fbDecoded fb4 s.prefixOf va) hb hq hv (Nat.div_le_self _ _) (fbDecoded_length fb4 _ va u)
  · have arm : exec (.vmxcvt d a false) s = finish s (do
        s.groupAligned va 8
        s.vecBody (groupRegs va 8) [vd] [] [] fun s' => (s'.setV vd (mxEncoded s.prefixOf va s').1
          (some (mxEncoded s.prefixOf va s').2.1), (mxEncoded s.prefixOf va s').2.2)) := by
      simp only [mxEncoded, mxBlocks]
      rfl
    rw [arm, finish_aligned s va 8 _ ha, ← hgroup 8]
    exact scaledRegister_ok s u (groupRegs va 8) vd (mxEncoded s.prefixOf va) hb hq hv
  · have arm : exec (.vmxcvt d a true) s = finish s (do
        s.groupAligned vd 8
        s.vecBody [va] (groupRegs vd 8) [] [] fun s' => (s'.setGroup 32 vd 8 ((mxDecoded s.prefixOf va s').map (·.1)),
          (mxDecoded s.prefixOf va s').foldl (fun f x => f ||| x.2) 0)) := rfl
    rw [arm, finish_aligned s vd 8 _ hd, ← mxDecoded_eq]
    exact fp32Group_ok s u va vd 8 (mxDecoded s.prefixOf va) hb hq hv (by decide) (by simp [mxDecoded_eq])
  · have arm : exec e.1 s = s.fbArith d a b fb4 e.2 := by
      simp only [List.mem_cons, List.not_mem_nil, or_false] at he
      rcases he with rfl | rfl | rfl <;> rfl
    rw [arm]
    exact scaledRegister_ok s u [va, vb] vd (fbCombined fb4 s.prefixOf va vb e.2) hb hq hv

end Sys2Proof.Machine
end

section
/-! Accumulator slots: the checks that a name passes, and the RNS vector forms. -/

namespace Sys2Proof.Machine

open Sys2Proof

/-! ## The checks of a slot's name (R92, R150) -/

theorem slotKind_ok {s : State} {a n : Nat} {rns : Bool} (hm : bits s.myCore.aslotmap (5 * a) 5 = 16 + n)
    (hk : s.rnsSeen n = rns) : s.slotKind a rns = .ok () := by
  have hn : (16 + n) % 16 = n := by have := (name_ok s a n hm).2; omega
  simp [State.slotKind, hm, hn, hk, need]

theorem slotUse_ok {s : State} {n : Nat} (hu : s.mayUse n = true) (hp : (s.slot n).parked = false) : s.slotUse n = .ok () := by
  simp [State.slotUse, need, hu, hp]

/-- A context without work on a slot is to give it no kind (R21). -/
theorem kindsDue_of_not_busy {s : State} {n : Nat} (h : s.slotBusy s.cur n = false) : s.kindsDue n = [] := by
  obtain ⟨hq, hm⟩ := Bool.or_eq_false_iff.1 h
  rw [List.any_eq_false] at hq hm
  refine List.append_eq_nil_iff.2 ⟨List.filterMap_eq_nil_iff.2 fun w hw => if_neg (hm w hw), List.filterMap_eq_nil_iff.2 fun e he => ?_⟩
  have := hq e he
  rcases e with ⟨k, op⟩
  cases op with
  | matrix j v op => exact if_neg this
  | _ => rfl

theorem rnsSeen_of_not_busy {s : State} {n : Nat} (h : s.slotBusy s.cur n = false) : s.rnsSeen n = (s.slot n).rns := by
  rw [State.rnsSeen, kindsDue_of_not_busy h]; rfl

/-! ## Vector forms (R162) -/

/-- The pattern of the vector RNS forms: each active element takes its function's word. -/
theorem rnsVector_ok (s u : State) (d a p : Nat) (c : Bool) (f : BitVec 10 → Nat → Nat) (hq : s.queueRoom = true)
    (hv : s.vAccess [a, d] [d] = .ok u) :
    ∃ t data, s.rnsVector d a p c f = .next t ∧ VecWritten u t d data (u.vside d) ⟨0, false, [a, d, 32 + p], [d]⟩ ∧
      ∀ i, i < 32 → vElem 64 data i = if u.active p c (8 * i)
        then f (u.cluster (clusterOf u.cur.core)).rnscfg (vElem 64 (u.vdata a) i) % 2 ^ 64 else vElem 64 (u.vdata d) i := by
  simp only [State.rnsVector, State.vecWork, State.needRoom, hq, hv, bind, Except.bind, if_true, vElems_eq, mapLanes_vectors]
  refine ⟨_, _, rfl, vecWritten_setV u d _ none _, fun i hi => ?_⟩
  rw [vElem_vJoin _ _ _ (by simpa using hi) (by simp)]
  simp only [List.getElem_map, List.getElem_range]
  split
  · rfl
  · exact Nat.mod_eq_of_lt (vElem_lt _ _ _)

/-- The status bytes of a slot's elements, in the order of their positions (R162). -/
def rnsBytes (cfg : BitVec 10) (sl : Slot) : List Nat := (rnsElements cfg sl 16 16).map fun e => e.2.2.byte

theorem vElem_rnsBytes (cfg : BitVec 10) (sl : Slot) (i j : Nat) (hi : i < 16) (hj : j < 16) :
    vElem 8 (vJoin 8 (rnsBytes cfg sl)) (16 * i + j) = (rnsReverse cfg (sl.packed i j)).2.byte % 256 := by
  have e : rnsBytes cfg sl = (positions 16 16).map fun p => (rnsReverse cfg (sl.packed p.1 p.2)).2.byte := by
    rw [rnsBytes, rnsElements, List.map_map]; rfl
  have hl : (rnsBytes cfg sl).length = 256 := by simp [e, positions, List.length_flatMap]
  rw [vElem_vJoin _ _ _ (by omega) (by omega)]
  simp only [e, list_getElem_map_positions _ i j hi hj, Nat.reducePow]

theorem rnsstat_ok (s u : State) (d a n : Nat) (hq : s.queueRoom = true) (hv : s.vAccess [] [d] = .ok u)
    (hm : bits u.myCore.aslotmap (5 * a) 5 = 16 + n) (hk : (u.slot n).rns = true) (hu : u.mayUse n = true)
    (hb : u.slotBusy u.cur n = false) :
    exec (.rnsstat d a) s = .next ((u.setV d (vJoin 8 (rnsBytes (u.cluster (clusterOf u.cur.core)).rnscfg (u.slot n))) none).enqueue
      (.vector ⟨0, false, [], [d]⟩)).advance := by
  obtain ⟨hname, hn⟩ := name_ok u a n hm
  have hmod : (16 + n) % 16 = n := by omega
  have hkind : u.slotKind a true = .ok () := slotKind_ok hm (by rw [rnsSeen_of_not_busy hb, hk])
  show execRnsstat d a s = _
  simp only [execRnsstat, State.needRoom, hq, hv, bind, Except.bind, if_true, hm, hmod, hb, hkind, hname, need, hu, Bool.and_false,
    Bool.false_eq_true, if_false, keepFaults_ok]
  rfl

/-- Settles O34: the pattern of the vector forms with each form's function, and the status bytes by position. -/
theorem residueVectors : Obligations.ResidueVectors := by
  intro s u d a p n c hq cfg A
  refine ⟨fun hv e he => ?_, fun hv hm hk hu hb => ?_⟩
  · simp only [List.mem_cons, List.not_mem_nil, or_false] at he
    rcases he with rfl | rfl | rfl
    · exact rnsVector_ok s u d a p c (fun _ x => packResidues (readInt true 64 x)) hq hv
    · exact rnsVector_ok s u d a p c (fun cfg x => wrapInt 64 (rnsReverse cfg x).1) hq hv
    · exact rnsVector_ok s u d a p c (fun cfg x => (rnsReverse cfg x).2.byte) hq hv
  · exact ⟨_, _, rnsstat_ok s u d a n hq hv hm hk hu hb, vecWritten_setV u d _ none _, fun i hi j hj => vElem_rnsBytes _ _ i j hi hj⟩

end Sys2Proof.Machine
end

section
/-! Drains: what the parts of one leave, composed, and the drains that the engine has bound. -/

namespace Sys2Proof.Machine

open Sys2Proof

/-! ## The parts of a drain -/

/-- A state on the way of a drain of slot `n` that began in `h` (R156, R160): the slot and the executing context as they stand, and
everything else as it was. -/
structure Draining (h g : State) (n : Nat) (sl : Slot) (c : Ctx) : Prop where
  cur : g.cur = h.cur
  mods : g.mods = h.mods
  me : g.me = c
  slot : g.slot n = sl
  slots : ∀ m, m ≠ n → g.slot m = h.slot m
  contexts : ∀ i, i ≠ h.cur → g.ctx i = h.ctx i
  memory : ∀ pa, g.homeByte pa = h.homeByte pa

/-- A slot as a commit that finds it free takes it (R150). -/
def Slot.heldBy (sl : Slot) (tag : Nat × Nat) : Slot := if sl.owner = none then { sl with owner := some tag } else sl

theorem me_of_ctx {g h : State} (hc : g.cur = h.cur) (hx : ∀ i, g.ctx i = h.ctx i) : g.me = h.me := by
  rw [State.me, State.me, hc, hx]

theorem draining_takeSlot (h : State) (n : Nat) : Draining h (h.takeSlot n) n ((h.slot n).heldBy h.tag) h.me := by
  obtain ⟨hcur, hmods, hctx, -, hmem, hslot, hslots⟩ := takeSlot_spec h n
  exact ⟨hcur, hmods, me_of_ctx hcur hctx, hslot, hslots, fun i _ => hctx i, hmem⟩

theorem draining_rnsDone (h : State) (n : Nat) (l : List (Nat × Int × RnsStatus)) :
    Draining h (h.rnsDone n l) n ((h.slot n).heldBy h.tag).bump h.me := by
  obtain ⟨hcur, hmods, hctx, hmem, hslot, hslots, -, -⟩ := rnsDone_spec h n l
  exact ⟨hcur, hmods, me_of_ctx hcur hctx, hslot, hslots, fun i _ => hctx i, hmem⟩

@[simp] theorem State.cluster_setTile (g : State) (a : Nat) (v : Tile) (cl : Nat) : (g.setTile a v).cluster cl = g.cluster cl := by
  obtain ⟨-, -, -, -, hcl, -⟩ := setTile_frame g a v
  exact hcl cl

@[simp] theorem State.cluster_advance (g : State) (cl : Nat) : g.advance.cluster cl = g.cluster cl := rfl

theorem slot_congr {g h : State} (hc : g.cur = h.cur) (hcl : ∀ cl, g.cluster cl = h.cluster cl) (n : Nat) : g.slot n = h.slot n := by
  rw [State.slot, State.slot, hc, hcl]

section
variable {h g : State} {n : Nat} {sl : Slot} {c : Ctx} (w : Draining h g n sl c)
include w

theorem Draining.modMe (f : Ctx → Ctx) : Draining h (g.modMe f) n sl (f c) :=
  ⟨w.cur, w.mods, by rw [State.me_modMe, w.me], w.slot, w.slots,
    fun i hi => by rw [State.ctx_modMe_other _ _ (by rw [w.cur]; exact hi), w.contexts i hi], w.memory⟩

theorem Draining.setTile (a : Nat) (v : Tile) : Draining h (g.setTile a v) n sl { c with t := smSet c.t a v } := by
  obtain ⟨hme, hcur, hmods, hctx, hcl, hmem⟩ := setTile_frame g a v
  refine ⟨hcur.trans w.cur, hmods.trans w.mods, by rw [hme, w.me], (slot_congr hcur hcl n).trans w.slot,
    fun m hm => (slot_congr hcur hcl m).trans (w.slots m hm), fun i hi => ?_, fun pa => (hmem pa).trans (w.memory pa)⟩
  exact (hctx i (by rw [w.cur]; exact hi)).trans (w.contexts i hi)

theorem Draining.modSlot (f : Slot → Slot) : Draining h (g.modSlot g.cur.core n f) n (f sl) c := by
  obtain ⟨hcur, hmods, hctx, -, hmem, -⟩ := modSlot_frame g g.cur.core n f
  obtain ⟨hslot, hslots⟩ := modSlot_slot g n f
  exact ⟨hcur.trans w.cur, hmods.trans w.mods, (me_of_ctx hcur hctx).trans w.me, by rw [hslot, w.slot],
    fun m hm => (hslots m hm).trans (w.slots m hm), fun i hi => (hctx i).trans (w.contexts i hi), fun pa => (hmem pa).trans (w.memory pa)⟩

theorem Draining.len : g.len = h.len := by rw [State.len, State.len, w.mods]

theorem Draining.advance : Draining h g.advance n sl { c with pc := c.pc + h.len } := by
  rw [← w.len]
  exact w.modMe _

theorem Draining.bodyAdvance : Draining h g.bodyAdvance n sl (c.bodyNext (h.len.toNat / 4)) := by
  rw [← w.len]
  exact w.modMe _

end

theorem Draining.drained {h g : State} {n : Nat} {sl : Slot} {c : Ctx} (w : Draining h g n sl.bump c) : Drained h g n sl :=
  ⟨w.slot, w.slots, w.contexts, w.memory⟩

theorem Ctx.bodyNext_drained (c : Ctx) (k : Nat) (t : SMap Tile) (v : Word) :
    ({ c with t := t, vstat := v } : Ctx).bodyNext k = { c.bodyNext k with t := t, vstat := v } := by
  unfold Ctx.bodyNext Ctx.repActive
  rcases c.vrep.getLsbD 32 with _ | _ <;> by_cases h2 : bits c.vrep 48 4 + k = bits c.vrep 8 4 + 1 <;>
    by_cases h3 : bits c.vrep 40 6 + 1 < bits c.vrep 0 6 <;>
    simp only [h2, h3, Bool.not_true, Bool.not_false, Bool.false_eq_true, if_true, if_false]

theorem Draining.drainAdvance {h g : State} {n : Nat} {sl : Slot} {t : SMap Tile} {v : Word}
    (w : Draining h g n sl { h.me with t := t, vstat := v }) :
    Draining h g.drainAdvance n sl { h.drainAdvance.me with t := t, vstat := v } := by
  unfold State.drainAdvance
  rw [w.mods]
  split
  · rw [(stored_done h).2, ← Ctx.bodyNext_drained]
    exact w.bodyAdvance
  · rw [State.me_advance]
    exact w.advance

/-- What a drain writes to its slot (R156). -/
def Slot.drained (z : Bool) (sl : Slot) : Slot := if z then { sl with data := 0, status := putBits sl.status 4 5 0 } else sl

theorem draining_drain (h : State) (n a : Nat) (u : Tile) (z : Bool) (f : DrainFmt) (q : Prefix) :
    let rows := (List.range u.rows).map fun i => narrowRow f q ((h.slot n).rowValues i u.cols)
    Draining h (h.drain n a u z f q).drainAdvance n (((h.slot n).heldBy h.tag).drained z).bump { h.drainAdvance.me with
      t := smSet h.me.t a (u.written (rows.map (·.1)) (rows.map (·.2.1)))
      vstat := orFlags h.me.vstat (rows.foldl (fun e r => e ||| r.2.2) (h.slot n).flags) } :=
  ((((draining_takeSlot h n).setTile a _).modMe _).modSlot fun sl => (sl.drained z).bump).drainAdvance

/-! ## The checks of a drain (R91, R150, R156, R160) -/

theorem AtEngine.atHead {s h : State} (hh : AtEngine s h) : AtHead s h := by
  obtain ⟨ha, rfl⟩ := hh
  unfold State.atEngine at ha
  split at ha
  · rename_i k op rest hq
    exact .inr ⟨_, rest, hq, by simpa [QEntry.isMemoryOf] using ha, rfl⟩
  · cases ha

theorem fromEngine_ok {s h : State} (hh : AtEngine s h) (op : QMem) (body : State → Body) : s.fromEngine op body = body h := by
  rw [State.fromEngine, if_pos hh.1, hh.2]

theorem atVersion_ok {s h : State} {n v : Nat} (hh : AtHead s h) (hv : (s.slot n).version = BitVec.ofNat 16 (s.x v).toNat) (op : QMem)
    (body : State → Body) : h.atVersion op n v body = body h := by
  obtain ⟨-, hslot, -⟩ := headQ s h hh
  rw [State.atVersion, if_pos (by rw [hslot, hh.x, hv])]

theorem DrainFmt.code_ne_zero (f : DrainFmt) : DrainFmt.code f ≠ 0 := by cases f <;> decide

theorem scalesFor_ok {a : Nat} {u : Tile} (h : u.fmt = 6 ∨ u.fmt = 7 → (u.cols + 3) / 4 ≤ u.scnt) : scalesFor a u = .ok () := by
  unfold scalesFor need
  rw [if_pos]
  by_cases hf : u.fmt = 6 ∨ u.fmt = 7
  · simp [Nat.not_lt.2 (h hf)]
  · simp [not_or.1 hf]

theorem drainTile_ok {a : Nat} {u : Tile} (hf : u.fmt = 12) (hc : u.cols ≤ 16) : drainTile a u = .ok () := by
  simp [drainTile, need, hf, hc]

theorem quietTraps_ok {q : Bool} {l : List (Nat × Int × RnsStatus)} (h : q = true ∨ rnsTraps l = .ok ()) :
    (if q then .ok () else rnsTraps l) = .ok () := by
  rcases h with rfl | h
  · rfl
  · rw [h, ite_self]

/-- The elements that an RNS drain of slot `n` into tile `a` reconstructs (R160). -/
def State.drainElements (s : State) (n a : Nat) : List (Nat × Int × RnsStatus) :=
  rnsElements (s.cluster (clusterOf s.cur.core)).rnscfg (s.slot n) (s.me.tile a).rows (s.me.tile a).cols

/-- Tile `b` after it takes those elements, each mapped by `f` (R160). -/
def State.rnsTile (s : State) (n a b : Nat) (f : Int → Nat) : Tile :=
  (s.me.tile b).written (rnsRows (s.drainElements n a) (s.me.tile a).rows (s.me.tile a).cols f) []

section
variable {s h : State} {c n a b v : Nat} (hh : AtEngine s h) (hm : bits s.myCore.aslotmap (5 * c) 5 = 16 + n)
  (hr : s.afterRetag n = .ok ()) (hu : s.mayUse n = true) (hp : (s.slot n).parked = false)
  (hv : (s.slot n).version = BitVec.ofNat 16 (s.x v).toNat) (he : (s.slot n).err = false)
include hm hr hu hp

theorem drainChecks_ok {f : DrainFmt} (hk : s.rnsSeen n = false) (hf : (s.me.tile a).fmt = DrainFmt.code f)
    (hc : (s.me.tile a).cols ≤ 16)
    (hs : (s.me.tile a).fmt = 6 ∨ (s.me.tile a).fmt = 7 → ((s.me.tile a).cols + 3) / 4 ≤ (s.me.tile a).scnt) :
    s.drainChecks c a f = .ok (n, s.me.tile a) := by
  simp only [State.drainChecks, bind, Except.bind, tileOf_configured (hf ▸ DrainFmt.code_ne_zero f), need, hf, hc, beq_self_eq_true,
    decide_true, Bool.and_self, if_true, slotKind_ok hm hk, scalesFor_ok hs, (name_ok s c n hm).1, hr, slotUse_ok hu hp]

theorem rnsSlot_ok (hk : s.rnsSeen n = true) : s.rnsSlot c = .ok n := by
  simp only [State.rnsSlot, bind, Except.bind, slotKind_ok hm hk, (name_ok s c n hm).1, hr, slotUse_ok hu hp]

include hh hv he

theorem adrain_bound {z : Bool} {f : DrainFmt} (hb : s.mods.isSome = true → s.bodyFits = .ok ()) (hk : s.rnsSeen n = false)
    (hf : (s.me.tile a).fmt = DrainFmt.code f) (hc : (s.me.tile a).cols ≤ 16)
    (hs : (s.me.tile a).fmt = 6 ∨ (s.me.tile a).fmt = 7 → ((s.me.tile a).cols + 3) / 4 ≤ (s.me.tile a).scnt) :
    exec (.adrain c a v z f) s = .next (h.drain n a (s.me.tile a) z f s.prefixOf).drainAdvance := by
  obtain ⟨hmods, hslot, -⟩ := headQ s h hh.atHead
  have hfits : (if s.mods.isSome then s.bodyFits else .ok ()) = .ok () := by
    split
    · exact hb ‹_›
    · rfl
  have hq : h.prefixOf = s.prefixOf := by rw [State.prefixOf, State.prefixOf, hmods]
  show execAdrain c a v z f s = _
  simp only [execAdrain, bind, Except.bind, hfits, drainChecks_ok hm hr hu hp hk hf hc hs, fromEngine_ok hh, atVersion_ok hh.atHead hv,
    hslot, he, Bool.false_eq_true, if_false, hq, finish]

section
variable {q : Bool} (hk : s.rnsSeen n = true) (hf : (s.me.tile a).fmt = 12) (hc : (s.me.tile a).cols ≤ 16)
  (hq : q = true ∨ rnsTraps (s.drainElements n a) = .ok ())
include hk hf hc hq

theorem adrainRns_bound :
    exec (.adrainRns c a v q) s = .next ((h.rnsDone n (s.drainElements n a)).setTile a
      (s.rnsTile n a a fun y => wrapInt 32 (clampInt true 32 y))).advance := by
  obtain ⟨-, hslot, hcl⟩ := headQ s h hh.atHead
  have htraps := quietTraps_ok hq
  rw [State.drainElements] at htraps
  show execAdrainRns c a v q s = _
  simp only [execAdrainRns, bind, Except.bind, tileOf_configured (hf ▸ (by decide : 12 ≠ 0)), drainTile_ok hf hc,
    rnsSlot_ok hm hr hu hp hk, fromEngine_ok hh, atVersion_ok hh.atHead hv, hslot, he, Bool.false_eq_true, if_false, hcl,
    (head_rest s h hh.atHead).2, htraps, finish]
  rfl

theorem adrainRnsW_bound (hf' : (s.me.tile b).fmt = 12) (hcols : (s.me.tile b).cols = (s.me.tile a).cols)
    (hrows : (s.me.tile b).rows = (s.me.tile a).rows) :
    exec (.adrainRnsW c a b v q) s = .next (((h.rnsDone n (s.drainElements n a)).setTile a
      (s.rnsTile n a a fun y => wrapInt 64 y % 2 ^ 32)).setTile b (s.rnsTile n a b fun y => wrapInt 64 y / 2 ^ 32)).advance := by
  obtain ⟨-, hslot, hcl⟩ := headQ s h hh.atHead
  have htraps := quietTraps_ok hq
  rw [State.drainElements] at htraps
  show execAdrainRnsW c a b v q s = _
  simp only [execAdrainRnsW, bind, Except.bind, tileOf_configured (hf ▸ (by decide : 12 ≠ 0)),
    tileOf_configured (hf' ▸ (by decide : 12 ≠ 0)), drainTile_ok hf hc, drainTile_ok hf' (hcols ▸ hc), need, hcols, hrows,
    beq_self_eq_true, Bool.and_self, if_true, rnsSlot_ok hm hr hu hp hk, fromEngine_ok hh, atVersion_ok hh.atHead hv, hslot, he,
    Bool.false_eq_true, if_false, hcl, (head_rest s h hh.atHead).2, htraps, finish]
  rfl

end

end

theorem rnsstat_rnsDone (h : State) (n : Nat) (l : List (Nat × Int × RnsStatus)) :
    ((h.rnsDone n l).cluster (clusterOf h.cur.core)).rnsstat = rnsStatWord (h.cluster (clusterOf h.cur.core)).rnsstat l := by
  obtain ⟨-, -, -, -, -, -, hstat, -⟩ := rnsDone_spec h n l
  exact hstat

/-- Settles O33: the checks pass, and the bound drain's state is the one composed of its parts. -/
theorem drains : Obligations.Drains := by
  intro s h c n a b v z q f hh ta tb sl held l hm hr hu hp hv he hc
  obtain ⟨-, hslot, hcl⟩ := headQ s h hh.atHead
  obtain ⟨-, hcur⟩ := head_rest s h hh.atHead
  have hheld : (h.slot n).heldBy h.tag = held := by rw [hslot, State.tag, hcur]; rfl
  refine ⟨fun hk hb hf hs => ?_, fun hk hf hq => ⟨?_, fun hf' hcols hrows => ?_⟩⟩
  · have w := draining_drain h n a ta z f s.prefixOf
    rw [hheld] at w
    simp only [hslot] at w
    exact ⟨_, adrain_bound hh hm hr hu hp hv he hb hk hf hc hs, w.drained, w.me⟩
  · have w := ((draining_rnsDone h n l).setTile a (s.rnsTile n a a fun y => wrapInt 32 (clampInt true 32 y))).advance
    rw [hheld] at w
    refine ⟨_, adrainRns_bound hh hm hr hu hp hv he hk hf hc hq, w.drained, ?_, w.me⟩
    rw [State.cluster_advance, State.cluster_setTile, ← hcur, rnsstat_rnsDone, hcl]
    rfl
  · have w := (((draining_rnsDone h n l).setTile a (s.rnsTile n a a fun y => wrapInt 64 y % 2 ^ 32)).setTile b
      (s.rnsTile n a b fun y => wrapInt 64 y / 2 ^ 32)).advance
    rw [hheld] at w
    refine ⟨_, adrainRnsW_bound hh hm hr hu hp hv he hk hf hc hq hf' hcols hrows, w.drained, ?_, w.me⟩
    rw [State.cluster_advance, State.cluster_setTile, State.cluster_setTile, ← hcur, rnsstat_rnsDone, hcl]
    rfl

end Sys2Proof.Machine
end

section
/-! Wide exact accumulators in flow mode: an addend and a read at the home of a word. -/

namespace Sys2Proof.Machine

open Sys2Proof

/-! ## The word and its home (R176, R195, R196) -/

theorem reqW_unmarked {s : State} (h : s.me.pureMarked = false) (va : Nat) : s.reqW va = s.req := by
  simp only [State.reqW, h, Bool.false_eq_true, if_false, State.req]

theorem req_flow {s : State} (h : s.stepMode s.cur.core = false) : s.req.defers = false := by simp [Req.defers, State.req, h]

theorem accWord_ok {s : State} {ea : Word} {x : Xlat} (ha : ea.toNat % 4 = 0) (hx : s.translate s.req .atomic ea.toNat = .ok x)
    (hr : Reaches s s.req x) (hh : x.held = true) : s.accWord ea = .ok x := by
  have hb : s.uncountable s.req x = false := by simp [State.uncountable, hh, hr.scratch]
  have hreach : s.reach s.req .atomic (s.uncountable s.req) [ea.toNat] = .ok [x] :=
    s.reach_page s.req .atomic _ ea.toNat [] x hx (by simp) (by simpa using hb)
  simp only [State.accWord, bind, Except.bind, aligned_ok 4 ea ha, hreach, orTrap, List.headD_cons]

theorem exactRefused_none {s : State} {rq : Req} {x : Xlat} (hp : rq.pure = none) (hr : Reaches s rq x)
    (hl : smHas s.lines (x.pa / 128) = false) : s.exactRefused rq x = none := by
  simp [State.exactRefused, hp, hr.up, hl]

/-! ## Memory, counted lines and accumulators -/

/-- What the homes of memory hold: bytes, counted lines and accumulators. -/
def State.homes (s : State) : Memory × SMap CLine × SMap WideAcc := (s.mem, s.lines, s.accs)

theorem homes_eq_iff {t : State} {m : Memory} {l : SMap CLine} {a : SMap WideAcc} :
    t.homes = (m, l, a) ↔ t.mem = m ∧ t.lines = l ∧ t.accs = a := by simp [State.homes]

theorem homes_withAccs (s : State) (l : SMap WideAcc) : ({ s with accs := l } : State).homes = (s.homes.1, s.homes.2.1, l) := rfl

theorem homes_keepAcc (s : State) (a : Nat) : (s.keepAcc a).homes = s.homes := by
  obtain ⟨parts, e⟩ := s.keepAcc_spec a
  rw [e]; rfl

theorem homes_dirtyLine (s : State) (n : Nat) : (s.dirtyLine n).homes = s.homes := by
  obtain ⟨l2, e⟩ := s.dirtyLine_spec n
  rw [e]; rfl

theorem homes_heatAccess (s : State) (rq : Req) (l : List Xlat) : (s.heatAccess rq l).homes = s.homes := by
  obtain ⟨due, e⟩ := s.heatAccess_spec rq l
  rw [e]; rfl

theorem homes_watchAs (s : State) (rq : Req) (w : Watched) (l : List Nat) : (s.watchAs rq w l).homes = s.homes := by
  obtain ⟨cores, e⟩ := s.watchAs_spec rq w l
  rw [e]; rfl

theorem homes_progressAs (s : State) (rq : Req) : (s.progressAs rq).homes = s.homes := by
  obtain ⟨parts, e⟩ := s.progressAs_spec rq
  rw [e]; rfl

theorem homes_writeCells (s : State) (l : List Host.Cell) :
    (s.writeCells l).homes = (l.foldl (fun m e => Memory.set m e.1 e.2) s.homes.1, s.homes.2.1, s.homes.2.2) := by
  obtain ⟨parts, clusters, texts, e⟩ := State.writeCells_spec l s
  rw [e]; rfl

/-- A word visited at its home, when nothing stands in the way: what the homes hold stays, and where they are. -/
theorem visitWord_reaches {s : State} {rq : Req} {x : Xlat} (hr : Reaches s rq x) :
    ∃ t, s.visitWord rq x = .ok t ∧ t.homes = s.homes ∧ t.placeOf rq x = s.placeOf rq x ∧ t.reqPartid rq = s.reqPartid rq := by
  obtain ⟨l2, due, idx, hvisit⟩ := s.visit_reaches rq .storeFault x hr
  obtain ⟨cores, hcom⟩ := committed_spec { s with l2 := l2, heatDue := due, freeIdx := idx } rq
  have ht : s.visitWord rq x = .ok { s with l2 := l2, heatDue := due, freeIdx := idx, cores := cores } := by
    simp only [State.visitWord, s.cached_direct rq x hr.direct, Bool.false_eq_true, if_false, hvisit, Except.map, hcom]
  have hid := fr_partid (access_visitWord s _ rq x ht).frame rq.core
  refine ⟨_, ht, rfl, ?_, ?_⟩
  · unfold State.placeOf State.reqPart
    rw [hid]; rfl
  · rw [State.reqPartid, hid]; rfl

/-! ## `fadd.x` (R78, R176) -/

/-- The accumulator of a word as an addend at its home finds it: bound, or taken by the requester's partition (R176). -/
def State.accBound (s : State) (rq : Req) (x : Xlat) : WideAcc := smGet s.accs x.pa (freshAcc (s.placeOf rq x) (s.reqPartid rq))

theorem exactAdd_flow {s : State} {rq : Req} {x : Xlat} (code : F32) (hf : rq.defers = false) (hp : rq.pure = none)
    (hr : Reaches s rq x) (hl : smHas s.lines (x.pa / 128) = false)
    (hroom : smHas s.accs x.pa = true ∨ s.accCount (s.placeOf rq x).slice < 64) :
    ∃ u, s.exactAdd rq x code = .ok u ∧
      u.homes = (s.mem, s.lines, smSet s.accs x.pa ((s.accBound rq x).add (decodeFp fp32 code.toNat))) := by
  obtain ⟨t, ht, hhomes, hplace, hpartid⟩ := visitWord_reaches hr
  obtain ⟨-, -, haccs⟩ := homes_eq_iff.1 hhomes
  have hfull : (!smHas t.accs x.pa && decide (64 ≤ t.accCount (t.placeOf rq x).slice)) = false := by
    rw [show t.accCount = s.accCount by unfold State.accCount; rw [haccs], haccs, hplace]
    rcases hroom with h | h
    · simp [h]
    · simp [Nat.not_le.2 h]
  have hkept : ((t.keepAcc x.pa).heatAccess rq [x]).homes = s.homes := by rw [homes_heatAccess, homes_keepAcc, hhomes]
  obtain ⟨-, -, hkeptAccs⟩ := homes_eq_iff.1 hkept
  simp only [State.exactAdd, exactRefused_none hp hr hl, ht, hfull, hf, Bool.false_eq_true, if_false]
  refine ⟨_, rfl, ?_⟩
  rw [homes_progressAs, homes_watchAs, homes_withAccs, hkept, hkeptAccs, haccs, hplace, hpartid]
  rfl

/-! ## `xacc.rd` (R79, R196) -/

theorem smGet_eq_find {α : Type} (m : SMap α) (k : Nat) (d : α) : smGet m k d = ((m.find? fun e => e.1 == k).map (·.2)).getD d := by
  induction m with
  | nil => rfl
  | cons e rest ih =>
    obtain ⟨j, v⟩ := e
    by_cases h : j = k <;> simp [smGet, h, ih]

theorem accFor_flow {s : State} {rq : Req} (hf : rq.defers = false) (hn : s.accs.all (fun e => !e.2.reserved) = true) (pa : Nat) :
    s.accFor rq pa = smGet s.accs pa noAcc := by
  have hres : (smGet s.accs pa noAcc).reserved = false := by
    rw [smGet_eq_find]
    cases h : s.accs.find? fun e => e.1 == pa with
    | none => rfl
    | some e => simpa using List.all_eq_true.1 hn e (List.mem_of_find?_eq_some h)
  have hat : (s.accAt pa).getD noAcc = smGet s.accs pa noAcc := (smGet_eq_find _ _ _).symm
  simp only [State.accFor, hf, Bool.false_eq_true, if_false, hat, hres]

/-- A byte read after bytes are written one after another. -/
theorem Memory.get_foldl_set (l : List Host.Cell) {m : Memory} (w : m.wf = true) (c : Nat) :
    (l.foldl (fun m e => Memory.set m e.1 e.2) m).get c = (lastWrite l c).getD (m.get c) := by
  induction l generalizing m with
  | nil => rfl
  | cons e rest ih =>
    rw [List.foldl_cons, ih (Memory.wf_set w _ _), lastWrite, Memory.get_set w]
    cases lastWrite rest c with
    | some v => rfl
    | none =>
      rcases eq_or_ne e.1 c with h | h
      · simp [h]
      · simp [h, h.symm]

/-- The four bytes of an aligned word of an uncounted line, written in memory. -/
theorem homeByte_word {s u : State} {a v : Nat} (hw : MemoryCanonical s) (ha : a % 4 = 0) (hl : smHas s.lines (a / 128) = false)
    (hlines : u.lines = s.lines)
    (hmem : u.mem = (((List.range 4).map (a + ·)).zip (natToBytes 4 v)).foldl (fun m e => Memory.set m e.1 e.2) s.mem) (pa : Nat) :
    u.homeByte pa = if a ≤ pa ∧ pa < a + 4 then BitVec.ofNat 8 (v / 256 ^ (pa - a)) else s.homeByte pa := by
  simp only [State.homeByte, hlines, hmem, Memory.get_foldl_set _ hw, lastWrite_word]
  by_cases h : a ≤ pa ∧ pa < a + 4
  · have hline : pa / 128 = a / 128 := by omega
    have hnone : s.lines.find? (fun l => l.1 == a / 128) = none := by
      rw [List.find?_eq_none]
      exact List.any_eq_false.1 hl
    simp only [hline, hnone, if_pos h, Option.getD_some]
  · simp only [if_neg h, Option.getD_none]

theorem exactRead_flow {s : State} {rq : Req} {x : Xlat} {fmt : Fmt} {r : Nat × Flags} (hf : rq.defers = false) (hp : rq.pure = none)
    (hr : Reaches s rq x) (hl : smHas s.lines (x.pa / 128) = false) (hn : s.accs.all (fun e => !e.2.reserved) = true)
    (hres : (let acc := smGet s.accs x.pa noAcc; accRead fmt acc.acc.toInt acc.pinf acc.ninf acc.nan) = r) :
    ∃ u, s.exactRead rq x fmt = .ok (r.1, r.2, u) ∧ u.homes =
      ((((List.range 4).map (x.pa + ·)).zip (natToBytes 4 r.1)).foldl (fun m e => Memory.set m e.1 e.2) s.mem, s.lines,
        smErase s.accs x.pa) := by
  obtain ⟨t, ht, hhomes, -, -⟩ := visitWord_reaches hr
  obtain ⟨-, -, haccs⟩ := homes_eq_iff.1 hhomes
  have hacc : t.accFor rq x.pa = smGet s.accs x.pa noAcc := by rw [accFor_flow hf (by rw [haccs]; exact hn), haccs]
  simp only [State.exactRead, exactRefused_none hp hr hl, ht, hacc, hres, hf, Bool.false_eq_true, if_false]
  generalize ((List.range 4).map (x.pa + ·)).zip (natToBytes 4 r.1) = cells
  have hwritten : ((((t.keepAcc x.pa).dirtyLine (x.pa / 128)).writeCells cells).heatAccess rq [x]).homes
      = (cells.foldl (fun m e => Memory.set m e.1 e.2) s.mem, s.lines, s.accs) := by
    rw [homes_heatAccess, homes_writeCells, homes_dirtyLine, homes_keepAcc, hhomes]
    rfl
  obtain ⟨-, -, hwrittenAccs⟩ := homes_eq_iff.1 hwritten
  refine ⟨_, rfl, ?_⟩
  rw [homes_progressAs, homes_watchAs, homes_withAccs, hwritten, hwrittenAccs]

/-! ## The instructions -/

/-- The FP32 code of an addend of a format (R195). -/
def addendCode (y : XTy) (v : Word) : F32 := f32 (match y with | .f32 => v.toNat | .bf16 => v.toNat % 65536 * 65536)

/-- The format of a read (R196). -/
def readFmt : XTy → Fmt
  | .f32 => fp32 | .bf16 => Sys2Proof.Machine.bf16

section
variable {s : State} {a : Nat} {y : XTy} {x : Xlat} (hstep : s.stepMode s.cur.core = false) (hpure : s.me.pureMarked = false)
  (ha : (s.x a).toNat % 4 = 0) (hx : s.translate s.req .atomic (s.x a).toNat = .ok x) (hr : Reaches s s.req x) (hh : x.held = true)
  (hl : smHas s.lines (x.pa / 128) = false)
include hstep hpure ha hx hr hh hl

/-- `fadd.x` in flow mode: the addend joins the accumulator of its word (R78, R176). -/
theorem faddX_flow (b : Nat) (hroom : smHas s.accs x.pa = true ∨ s.accCount (s.placeOf s.req x).slice < 64) :
    ∃ t, exec (.faddX a b y) s = .next t ∧ t.me = { s.me with pc := s.pc + s.len } ∧ (∀ pa, t.homeByte pa = s.homeByte pa) ∧
      t.accs = smSet s.accs x.pa ((s.accBound s.req x).add (decodeFp fp32 (addendCode y (s.f b)).toNat)) := by
  obtain ⟨u, hu, hhomes⟩ := exactAdd_flow (addendCode y (s.f b)) (req_flow hstep) rfl hr hl hroom
  obtain ⟨hmem, hlines, haccs⟩ := homes_eq_iff.1 hhomes
  have hfr := (access_exactAdd _ _ _ _ _ hu).frame
  have e : exec (.faddX a b y) s = finish s (do
      let x ← s.accWord (s.x a)
      let u ← orTrap (s.exactAdd (s.reqW (s.x a).toNat) x (addendCode y (s.f b)))
      .ok u.advance) := by cases y <;> rfl
  rw [e, accWord_ok ha hx hr hh, reqW_unmarked hpure]
  simp only [bind, Except.bind, hu, orTrap_ok]
  refine ⟨_, rfl, ?_, fun pa => homeByte_of_eq hmem hlines pa, haccs⟩
  rw [State.me_advance, hfr.me, frame_pc hfr]

/-- `xacc.rd` in flow mode: the accumulator's code reaches fd and the word, and the accumulator is released (R79, R196). -/
theorem xaccRd_flow (d : Nat) {r : Nat × Flags} (hw : MemoryCanonical s) (hn : s.accs.all (fun e => !e.2.reserved) = true)
    (hres : (let acc := smGet s.accs x.pa noAcc; accRead (readFmt y) acc.acc.toInt acc.pinf acc.ninf acc.nan) = r) :
    ∃ t, exec (.xaccRd d a y) s = .next t ∧ t.f d = word r.1 ∧ t.me.fpctl = orFlags s.me.fpctl r.2 ∧ t.accs = smErase s.accs x.pa ∧
      ∀ pa, t.homeByte pa = if x.pa ≤ pa ∧ pa < x.pa + 4 then BitVec.ofNat 8 (r.1 / 256 ^ (pa - x.pa)) else s.homeByte pa := by
  obtain ⟨u, hu, hhomes⟩ := exactRead_flow (req_flow hstep) rfl hr hl hn hres
  obtain ⟨hmem, hlines, haccs⟩ := homes_eq_iff.1 hhomes
  have hfr := (access_exactRead _ _ _ _ _ _ _ hu).frame
  have hword : x.pa % 4 = 0 := by
    have := (s.translate_offset _ _ _ _ hx).1
    omega
  have e : exec (.xaccRd d a y) s = finish s (do
      let x ← s.accWord (s.x a)
      let r ← orTrap (s.exactRead (s.reqW (s.x a).toNat) x (readFmt y))
      .ok ((r.2.2.raiseFp r.2.1).setF d (word r.1)).advance) := by cases y <;> rfl
  rw [e, accWord_ok ha hx hr hh, reqW_unmarked hpure]
  simp only [bind, Except.bind, hu, orTrap_ok]
  refine ⟨_, rfl, ?_, ?_, haccs, fun pa => homeByte_word hw hword hl hlines hmem pa⟩
  · simp [State.f, State.setF, State.raiseFp]
  · simp [State.setF, State.raiseFp, hfr.me]

end

theorem addendCode_toNat (y : XTy) (v : Word) :
    (addendCode y v).toNat = match y with | .f32 => v.toNat % 2 ^ 32 | .bf16 => v.toNat % 2 ^ 16 * 2 ^ 16 := by
  cases y with
  | f32 => exact BitVec.toNat_ofNat _ _
  | bf16 => exact (BitVec.toNat_ofNat _ _).trans (Nat.mod_eq_of_lt (by omega : v.toNat % 65536 * 65536 < 2 ^ 32))

/-- Settles O13: the two instructions in flow mode, for each format. -/
theorem exactAccumulators : Obligations.ExactAccumulators := by
  intro s d a b y x hstep hpure ha hx hr hh hl
  refine ⟨fun hroom => ?_, fun hw hn => ?_⟩
  · have h := faddX_flow (y := y) hstep hpure ha hx hr hh hl b hroom
    rw [addendCode_toNat] at h
    cases y with
    | f32 => exact h
    | bf16 => exact h
  · have h := xaccRd_flow (y := y) hstep hpure ha hx hr hh hl d hw hn rfl
    cases y with
    | f32 => exact h
    | bf16 => exact h

end Sys2Proof.Machine
end

section
/-! Vector registers brought into the pool: accesses that bring nothing in, and the pending VREG_FAULT. -/

namespace Sys2Proof.Machine

open Sys2Proof

/-! ## Accesses of vector registers (R88, R89) -/

/-- A register that was never written is read without a place in the pool (R88). -/
theorem bringAll_unwritten (keep : List (CtxId × Nat)) (l : List Nat) (s : State) (h : ∀ n ∈ l, s.me.vstate n = .unwritten) :
    s.bringAll keep false l = .ok s := by
  induction l with
  | nil => rfl
  | cons n rest ih =>
    obtain ⟨hn, hrest⟩ := List.forall_mem_cons.1 h
    have e : s.bringIn keep n false = .ok s := by simp [State.bringIn, hn]
    rw [State.bringAll, e]
    exact ih hrest

theorem Ctx.vpair_resident {c : Ctx} {n : Nat} {d : BitVec 2048} {sd : BitVec 1280} (h : c.vstate n = .resident d sd) :
    c.vpair n = (d, sd) := by rw [Ctx.vpair, h]

theorem Ctx.vpair_unwritten {c : Ctx} {n : Nat} (h : c.vstate n = .unwritten) : c.vpair n = (0, 0) := by rw [Ctx.vpair, h]

theorem vAccess_nil (s : State) : s.vAccess [] [] = .ok s := rfl

/-- An access whose registers are all brought in without a change changes nothing. -/
theorem vAccess_unchanged {s : State} {reads writes : List Nat} (hf : s.me.vregFault = none)
    (hr : ∀ keep, s.bringAll keep false reads = .ok s) (hw : ∀ keep, s.bringAll keep true writes = .ok s) :
    s.vAccess reads writes = .ok s := by
  unfold State.vAccess
  split
  · rfl
  · simp only [hf, hr, hw]

theorem vAccess_pendingFault {s : State} {reads writes : List Nat} {a : Word × Option Word} (hf : s.me.vregFault = some a)
    (hne : reads ++ writes ≠ []) :
    s.vAccess reads writes = .error (.trap { cause := .vregFault, tval := a.1, tf := a.2 }) := by
  unfold State.vAccess
  split
  · rename_i he
    simp only [Bool.and_eq_true, List.isEmpty_iff] at he
    exact absurd (List.append_eq_nil_iff.2 he) hne
  · simp only [hf]

/-- Settles O17: `vAccess_spec` for what an access brings in, and the accesses that bring nothing in. -/
theorem vectorRegisterAccess : Obligations.VectorRegisterAccess := by
  intro s reads writes
  refine ⟨fun u hu => ?_, fun hf hres => ?_, fun hf hun hw => ?_, fun a hf hne => vAccess_pendingFault hf hne, vAccess_nil s⟩
  · obtain ⟨hframe, hkeeps⟩ := vAccess_spec s u reads writes hu
    exact ⟨hframe, fun n hn d sd hd => Ctx.vpair_resident (hkeeps n hn d sd hd)⟩
  · obtain ⟨hreads, hwrites⟩ := List.forall_mem_append.1 hres
    exact vAccess_unchanged hf (fun keep => bringAll_resident keep _ _ s hreads) fun keep => bringAll_resident keep _ _ s hwrites
  · subst hw
    exact ⟨vAccess_unchanged hf (fun keep => bringAll_unwritten keep _ s hun) fun _ => rfl, fun n hn => Ctx.vpair_unwritten (hun n hn)⟩

end Sys2Proof.Machine
end

section
/-! Tiles: configuration and clearing, and the moves between a tile and a vector register. -/

namespace Sys2Proof.Machine

open Sys2Proof

/-! ## The entry in the queue (R26) -/

theorem needRoom_ok {s : State} (h : s.queueRoom = true) : s.needRoom = .ok () := by rw [State.needRoom, if_pos h]

theorem State.core_queue_modMe (s : State) (f : Ctx → Ctx) (n : Nat) : ((s.modMe f).core n).queue = (s.core n).queue := by
  rw [State.core_modMe]
  split <;> rfl

/-- An entry that needs no unit is put in before or after the advance. -/
theorem enqueueUnit_advance (s : State) (counts : Bool) : (s.enqueueUnit counts).advance = s.advance.enqueueUnit counts := by
  have hq : s.advance.myCore.queue = s.myCore.queue := State.core_queue_modMe s _ _
  unfold State.enqueueUnit
  rw [hq]
  split
  · rfl
  · simp only [State.advance, State.enqueue, State.modMe, State.modCtx, State.modCore_cur, State.modCore_modCore]
    rfl

/-! ## `tcfg` and `tzero` (R146) -/

theorem legalShape_fmt {v : Word} (h : legalShape v = true) : bits v 0 5 ≠ 0 := by
  obtain ⟨hf, -⟩ := legal_facts { tsh := v } h
  exact hf

theorem configure_none {s : State} {n : Nat} {v : Word} (h : bits v 0 5 = 0) : s.configure n v = .ok (s.setTile n {}) := by
  rw [State.configure, if_pos h]

theorem configure_legal {s : State} {n : Nat} {v : Word} (h : legalShape v = true)
    (hr : (s.me.tile n).fmt ≠ 0 ∨ s.tileRoom = true) : s.configure n v = .ok (s.setTile n { tsh := v }) := by
  have hroom : ((s.me.tile n).fmt = 0 && !s.tileRoom) = false := by
    rcases hr with hr | hr <;> simp [hr]
  rw [State.configure, if_neg (legalShape_fmt h), if_neg (by simp [h])]
  simp [hroom]

theorem configure_illegal {s : State} {n : Nat} {v : Word} (h0 : bits v 0 5 ≠ 0) (h : legalShape v = false) :
    s.configure n v = trapWith .tileShape v := by
  rw [State.configure, if_neg h0, if_pos (by simp [h])]

section
variable {s : State} {n a : Nat} (hq : s.queueRoom = true)
include hq

theorem tcfg_configures {t : State} (h : s.configure n (s.x a) = .ok t) :
    exec (.tcfg n a) s = .next (t.advance.enqueueUnit false) := by
  rw [← enqueueUnit_advance]
  show execTcfg n a s = _
  simp only [execTcfg, bind, Except.bind, needRoom_ok hq, h, finish]

theorem tcfg_traps {c : Cause} {v : Word} (h : s.configure n (s.x a) = trapWith c v) :
    exec (.tcfg n a) s = finish s (trapWith c v) := by
  show execTcfg n a s = _
  simp only [execTcfg, bind, Except.bind, needRoom_ok hq, h, trapWith]

theorem tzero_clears (h : (s.me.tile n).fmt ≠ 0) :
    exec (.tzero n) s = .next ((s.setTile n { tsh := (s.me.tile n).tsh }).advance.enqueueUnit false) := by
  rw [← enqueueUnit_advance]
  show execTzero n s = _
  simp only [execTzero, bind, Except.bind, needRoom_ok hq, tileOf_configured h, finish]

theorem tzero_traps (h : (s.me.tile n).fmt = 0) : exec (.tzero n) s = finish s (trapWith .tileUnconfig (BitVec.ofNat 64 n)) := by
  have hu : s.tileOf n = trapWith .tileUnconfig (word n) := by simp only [State.tileOf, h, if_true]
  show execTzero n s = _
  simp only [execTzero, bind, Except.bind, needRoom_ok hq, hu, trapWith]
  rfl

end

/-! ## Row and column moves (R149) -/

/-- A move whose registers are in the pool does its effect on the tile, and puts in its entry. -/
theorem tileMove_ok {s u g : State} {reads writes : List Nat} {n : Nat} {f : State → Tile → Body} (hq : s.queueRoom = true)
    (hv : s.vAccess reads writes = .ok u) (hn : (u.me.tile n).fmt ≠ 0) (hf : f u (u.me.tile n) = .ok g) :
    s.tileMove reads writes n f = .next (g.advance.enqueueUnit false) := by
  rw [← enqueueUnit_advance]
  simp only [State.tileMove, bind, Except.bind, needRoom_ok hq, hv, tileOf_configured hn, hf, keepFaults_ok, finish]

theorem moveIndex_ok {v : Word} {limit : Nat} (h : v.toNat < limit) : moveIndex v limit = .ok v.toNat := if_pos h

theorem columnTile_ok {n : Nat} {t : Tile} (h : t.sided = false) : columnTile n t = .ok () := by simp [columnTile, need, h]

/-- A tile with a row of its data and, where its sidecar holds scales or masks, of its sidecar replaced (R149). -/
def Tile.withRow (t : Tile) (r : Nat) (data : BitVec 2048) (side : BitVec 1280) : Tile :=
  { t with
    data := putBits t.data (1024 * r) 1024 (data.toNat % 2 ^ (8 * t.rowBytes))
    side := if t.sided then putBits t.side (256 * r) 256 (side.toNat % 2 ^ 256) else t.side
    dirty := true }

/-- A tile with a column of its data replaced by the first elements of a vector (R149). -/
def Tile.withColumn (t : Tile) (j : Nat) (data : BitVec 2048) : Tile :=
  { t with
    data := (List.range t.rows).foldl
      (fun dd i => putBits dd (1024 * i + fmtBits t.fmt * j) (fmtBits t.fmt) (vElem (fmtBits t.fmt) data i)) t.data
    dirty := true }

section
variable {s u : State} {n v d b : Nat} (hq : s.queueRoom = true)
include hq

theorem tmvr_moves (hv : s.vAccess [v] [] = .ok u) (hn : (u.me.tile n).fmt ≠ 0) (hk : (u.x b).toNat < (u.me.tile n).rows) :
    exec (.tmvr n v b) s
      = .next ((u.setTile n ((u.me.tile n).withRow (u.x b).toNat (u.vdata v) (u.vside v))).advance.enqueueUnit false) := by
  refine tileMove_ok (n := n) hq hv hn ?_
  simp only [bind, Except.bind, moveIndex_ok hk]
  rfl

theorem tmvc_moves (hv : s.vAccess [v] [] = .ok u) (hn : (u.me.tile n).fmt ≠ 0) (hk : (u.x b).toNat < (u.me.tile n).cols)
    (hs : (u.me.tile n).sided = false) :
    exec (.tmvc n v b) s = .next ((u.setTile n ((u.me.tile n).withColumn (u.x b).toNat (u.vdata v))).advance.enqueueUnit false) := by
  refine tileMove_ok (n := n) hq hv hn ?_
  simp only [bind, Except.bind, moveIndex_ok hk, columnTile_ok hs]
  rfl

theorem tgetr_moves (hv : s.vAccess [] [d] = .ok u) (hn : (u.me.tile n).fmt ≠ 0) (hk : (u.x b).toNat < (u.me.tile n).rows) :
    exec (.tgetr d n b) s = .next ((u.setV d
      (BitVec.ofNat 2048 ((u.me.tile n).row (u.x b).toNat % 2 ^ (8 * (u.me.tile n).rowBytes)))
      (if (u.me.tile n).sided then some (BitVec.ofNat 1280 ((u.me.tile n).area (u.x b).toNat)) else none)).advance.enqueueUnit false) := by
  refine tileMove_ok (n := n) hq hv hn ?_
  simp only [bind, Except.bind, moveIndex_ok hk]

theorem tgetc_moves (hv : s.vAccess [] [d] = .ok u) (hn : (u.me.tile n).fmt ≠ 0) (hk : (u.x b).toNat < (u.me.tile n).cols)
    (hs : (u.me.tile n).sided = false) :
    exec (.tgetc d n b) s = .next ((u.setV d (vJoin (fmtBits (u.me.tile n).fmt)
      ((List.range (u.me.tile n).rows).map fun i => (u.me.tile n).elem i (u.x b).toNat)) none).advance.enqueueUnit false) := by
  refine tileMove_ok (n := n) hq hv hn ?_
  simp only [bind, Except.bind, moveIndex_ok hk, columnTile_ok hs]

end

/-! ## The tile that a move leaves -/

theorem mod_two_pow_lt (x : Nat) {k w : Nat} (h : k ≤ w) : x % 2 ^ k < 2 ^ w :=
  lt_of_lt_of_le (Nat.mod_lt x (Nat.two_pow_pos k)) (Nat.pow_le_pow_right Nat.two_pos h)

/-- Different fields of one width do not overlap. -/
theorem fields_apart (w : Nat) {r k : Nat} (h : r ≠ k) : w * r + w ≤ w * k ∨ w * k + w ≤ w * r := by
  rw [← Nat.mul_succ, ← Nat.mul_succ]
  rcases Nat.lt_or_gt_of_ne h with h | h
  · exact .inl (Nat.mul_le_mul_left w h)
  · exact .inr (Nat.mul_le_mul_left w h)

/-- One of equal fields of a value replaced. -/
theorem bits_putBits_field {m : Nat} (v : BitVec m) (w r k x : Nat) (hx : x < 2 ^ w) (hk : w * k + w ≤ m) :
    bits (putBits v (w * k) w x) (w * r) w = if r = k then x else bits v (w * r) w := by
  split
  · rename_i h
    rw [h, bits_putBits_same _ _ _ _ hk, Nat.mod_eq_of_lt hx]
  · rename_i h
    exact bits_putBits_other _ _ _ _ _ _ hk (fields_apart w h)

theorem row_withRow (t : Tile) (r k : Nat) (data : BitVec 2048) (side : BitVec 1280) (hl : 8 * t.rowBytes ≤ 1024) (hk : k < 16) :
    (t.withRow k data side).row r = if r = k then data.toNat % 2 ^ (8 * t.rowBytes) else t.row r :=
  bits_putBits_field t.data 1024 r k _ (mod_two_pow_lt _ hl) (by omega)

theorem area_withRow (t : Tile) (r k : Nat) (data : BitVec 2048) (side : BitVec 1280) (hk : k < 16) :
    (t.withRow k data side).area r = if r = k ∧ t.sided = true then side.toNat % 2 ^ 256 else t.area r := by
  unfold Tile.area Tile.withRow
  dsimp only
  cases hs : t.sided
  · simp
  · simp only [and_true, if_true]
    exact bits_putBits_field t.side 256 r k _ (Nat.mod_lt _ (Nat.two_pow_pos _)) (by omega)

theorem elem_withColumn (t : Tile) (r j k : Nat) (data : BitVec 2048) (hl : legalShape t.tsh = true) (hk : k < t.cols) (hr : r < 16)
    (hj : j < 1024 / fmtBits t.fmt) :
    (t.withColumn k data).elem r j = if j = k ∧ r < t.rows then vElem (fmtBits t.fmt) data r else t.elem r j := by
  obtain ⟨-, hrows, hcols, hw, hdvd, -⟩ := legal_facts t hl
  have hjw : fmtBits t.fmt * j + fmtBits t.fmt ≤ 1024 := by
    rw [← Nat.mul_succ]
    exact (Nat.mul_le_mul_left _ hj).trans (Nat.mul_div_le _ _)
  have hkw : fmtBits t.fmt * k + fmtBits t.fmt ≤ 1024 := by
    rw [← Nat.mul_succ, Nat.mul_comm]
    exact (Nat.mul_le_mul_right _ hk).trans hcols
  have hd : fmtBits t.fmt * j + fmtBits t.fmt ≤ fmtBits t.fmt * k ∨ fmtBits t.fmt * k + fmtBits t.fmt ≤ fmtBits t.fmt * j ∨ j = k := by
    by_cases h : j = k
    · exact .inr (.inr h)
    · exact (fields_apart _ h).imp_right .inl
  have key := column_fold (fmtBits t.fmt) k (fun i => vElem (fmtBits t.fmt) data i) hkw (fun i => vElem_lt _ _ i) t.rows hrows t.data
    r j hr hd hjw
  rw [← row_bits _ _ _ _ hjw, ← row_bits _ _ _ _ hjw] at key
  exact key

theorem fmtBits_le (f : Nat) : fmtBits f ≤ 64 := by
  unfold fmtBits
  split <;> omega

/-- The elements of a column as a vector, zero beyond the tile's rows. -/
theorem vElem_column (t : Tile) (k i : Nat) (hl : legalShape t.tsh = true) :
    vElem (fmtBits t.fmt) (vJoin (fmtBits t.fmt) ((List.range t.rows).map fun i => t.elem i k)) i
      = if i < t.rows then t.elem i k else 0 := by
  obtain ⟨-, hrows, -, -, -, -⟩ := legal_facts t hl
  have hlen : fmtBits t.fmt * ((List.range t.rows).map fun i => t.elem i k).length ≤ 2048 := by
    rw [List.length_map, List.length_range]
    exact (Nat.mul_le_mul (fmtBits_le _) hrows).trans (by norm_num)
  have hlt : ∀ x ∈ (List.range t.rows).map (fun i => t.elem i k), x < 2 ^ fmtBits t.fmt := fun x hx => by
    obtain ⟨i, -, rfl⟩ := List.mem_map.1 hx
    exact Nat.mod_lt _ (Nat.two_pow_pos _)
  rw [vJoin, vElem_join _ _ _ hlt hlen, List.getD_eq_getElem?_getD, List.getElem?_map]
  split
  · rename_i h
    rw [List.getElem?_range h]
    rfl
  · rename_i h
    rw [List.getElem?_eq_none (by simpa using h)]
    rfl

/-- Settles O29: each instruction's checks, and the tile or register that it leaves before its entry is put in. -/
theorem tileRegisters : Obligations.TileRegisters := by
  intro s u n v d a b hq tile w k
  refine ⟨fun h => ?_, fun h hr => ?_, fun h0 h => ?_, fun h => ?_, fun h => ?_, fun hl hv => ⟨fun hk => ?_, fun hk hs => ?_⟩,
    fun hl hv => ⟨fun hk => ?_, fun hk hs => ?_⟩⟩
  · exact ⟨_, tcfg_configures hq (configure_none h), tileResult_setTile s n _⟩
  · exact ⟨_, tcfg_configures hq (configure_legal h hr), tileResult_setTile s n _⟩
  · exact trap_ex s _ _ _ (by decide) (by decide) (tcfg_traps hq (configure_illegal h0 h))
  · exact ⟨_, tzero_clears hq h, tileResult_setTile s n _⟩
  · exact trap_ex s _ _ _ (by decide) (by decide) (tzero_traps hq h)
  · obtain ⟨hf, hrows, -, -, -, hbytes⟩ := legal_facts tile hl
    have hk16 : k < 16 := lt_of_lt_of_le hk hrows
    exact ⟨_, _, tmvr_moves hq hv hf hk, tileResult_setTile u n _, rfl, rfl, fun r _ => row_withRow tile r k _ _ hbytes hk16,
      fun r _ => area_withRow tile r k _ _ hk16⟩
  · obtain ⟨hf, -⟩ := legal_facts tile hl
    exact ⟨_, _, tmvc_moves hq hv hf hk hs, tileResult_setTile u n _, rfl, rfl, rfl,
      fun r j hr hj => elem_withColumn tile r j k _ hl hk hr hj⟩
  · obtain ⟨hf, -⟩ := legal_facts tile hl
    refine ⟨_, tgetr_moves hq hv hf hk, ?_⟩
    have h := vecMoved_setV u d (BitVec.ofNat 2048 (tile.row k % 2 ^ (8 * tile.rowBytes)))
      (if tile.sided then some (BitVec.ofNat 1280 (tile.area k)) else none)
    rwa [apply_ite (Option.getD · (u.vside d))] at h
  · obtain ⟨hf, -⟩ := legal_facts tile hl
    exact ⟨_, _, tgetc_moves hq hv hf hk hs, vecMoved_setV u d _ none, fun i _ => vElem_column tile k i hl⟩

end Sys2Proof.Machine
end

section
/-! Matrix instructions: the checks of their operands, their commits, and `astat`. -/

namespace Sys2Proof.Machine

open Sys2Proof

/-! ## Commits (R150, R151) -/

theorem commitMatrix_ok {s : State} {c n : Nat} (hm : bits s.myCore.aslotmap (5 * c) 5 = 16 + n) (hr : s.afterRetag n = .ok ())
    (hu : s.mayUse n = true) (hp : (s.slot n).parked = false) (v : Nat) (op : MatOp) :
    s.commitMatrix c v op = .ok ((s.takeSlot n).enqueue (.matrix n (some (BitVec.ofNat 16 (s.x v).toNat)) op)).advance := by
  obtain ⟨hname, -⟩ := name_ok s c n hm
  simp only [State.commitMatrix, bind, Except.bind, hname, hr, slotUse_ok hu hp]

theorem commitMatrix_commits {s : State} {c n : Nat} (hm : bits s.myCore.aslotmap (5 * c) 5 = 16 + n) (hr : s.afterRetag n = .ok ())
    (hu : s.mayUse n = true) (hp : (s.slot n).parked = false) (v : Nat) (op : MatOp) :
    ∃ t, finish s (s.commitMatrix c v op) = .next t ∧ MatrixCommitted s t n (BitVec.ofNat 16 (s.x v).toNat) op :=
  ⟨_, by rw [commitMatrix_ok hm hr hu hp]; rfl, matrixCommitted s n _ op⟩

theorem MayCommit.commits {s : State} {c n : Nat} {rns : Bool} (h : MayCommit s c n rns) (v : Nat) (op : MatOp) :
    ∃ t, finish s (s.commitMatrix c v op) = .next t ∧ MatrixCommitted s t n (BitVec.ofNat 16 (s.x v).toNat) op :=
  commitMatrix_commits h.name h.settled h.use h.unparked v op

/-! ## Tile operands (R154, R155, R158) -/

theorem MmaPair.fmts_ne_zero (p : MmaPair) : (MmaPair.fmts p).1 ≠ 0 ∧ (MmaPair.fmts p).2 ≠ 0 := by cases p <;> decide

theorem SpPair.fmts_ne_zero (p : SpPair) : (SpPair.fmts p).1 ≠ 0 ∧ (SpPair.fmts p).2 ≠ 0 := by cases p <;> decide

theorem productTiles_ok {s : State} {a b fa fb : Nat} (ha : (s.me.tile a).fmt = fa) (hb : (s.me.tile b).fmt = fb) (ha0 : fa ≠ 0)
    (hb0 : fb ≠ 0) (hsa : (s.me.tile a).spn = 0) (hsb : (s.me.tile b).spn = 0) (hc : (s.me.tile a).cols = (s.me.tile b).cols) :
    s.productTiles a b fa fb = .ok (s.me.tile a, s.me.tile b) := by
  simp [State.productTiles, bind, Except.bind, tileOf_configured (ha ▸ ha0), tileOf_configured (hb ▸ hb0), productTile, need, ha, hb,
    hsa, hsb, hc]

/-- The two B tiles of a product whose A tile holds 8 elements for 16 positions (R155). -/
theorem tilesFrom_two {s : State} {b : Nat} (hb : b < 7) (h1 : (s.me.tile b).fmt ≠ 0) (h2 : (s.me.tile (b + 1)).fmt ≠ 0) :
    s.tilesFrom b 2 = .ok [s.me.tile b, s.me.tile (b + 1)] := by
  have hb1 : ¬ 7 < b + 1 := by omega
  have hb0 : ¬ 7 < b := by omega
  simp only [State.tilesFrom, if_neg hb0, if_neg hb1, tileOf_configured h1, tileOf_configured h2]

theorem sparseB_iff {a first t : Tile} {fb : Nat} :
    sparseB a first t fb = true ↔ t.fmt = fb ∧ t.spn = 0 ∧ t.cols = a.cols ∧ t.rows = first.rows := by
  simp only [sparseB, Bool.and_eq_true, beq_iff_eq, and_assoc]

/-! ## The products -/

theorem tmma_commits {s : State} {c n a b : Nat} (h : MayCommit s c n false) (v fs : Nat) {pair : MmaPair}
    (ht : s.productTiles a b (MmaPair.fmts pair).1 (MmaPair.fmts pair).2 = .ok (s.me.tile a, s.me.tile b))
    (hsa : scalesFor a (s.me.tile a) = .ok ()) (hsb : scalesFor b (s.me.tile b) = .ok ()) :
    exec (.tmma c a b v fs pair) s
      = finish s (s.commitMatrix c v (.mma (s.me.tile a) [s.me.tile b] (s.factors fs).1 (s.factors fs).2)) := by
  show execTmma c a b v fs pair s = _
  simp only [execTmma, bind, Except.bind, needRoom_ok h.room, ht, slotKind_ok h.name h.kind, hsa, hsb]

theorem tmmaSp_commits {s : State} {c n a b : Nat} (h : MayCommit s c n false) (v fs : Nat) {sp : SpPair}
    (hspn : (s.me.tile a).spn = 1) (hmasks : (s.me.tile a).masksOk = true)
    (hfa : (s.me.tile a).fmt = (SpPair.fmts sp).1) (hev : b % 2 = 0) (hb : b < 8)
    (hall : ∀ t ∈ [s.me.tile b, s.me.tile (b + 1)], sparseB (s.me.tile a) (s.me.tile b) t (SpPair.fmts sp).2 = true) :
    exec (.tmmaSp c a b v fs sp) s = finish s (s.commitMatrix c v
      (.mma (s.me.tile a) [s.me.tile b, s.me.tile (b + 1)] (s.factors fs).1 (s.factors fs).2)) := by
  obtain ⟨hf1, hf2⟩ := SpPair.fmts_ne_zero sp
  have hfmt : ∀ t ∈ [s.me.tile b, s.me.tile (b + 1)], t.fmt ≠ 0 := fun t ht => (sparseB_iff.1 (hall t ht)).1 ▸ hf2
  have hg : (if (s.me.tile a).spn = 0 then 1 else 16 / (s.me.tile a).perGroup) = 2 := by simp [hspn, Tile.perGroup]
  have hl := tilesFrom_two (s := s) (b := b) (by omega) (hfmt _ (by simp)) (hfmt _ (by simp))
  have hchk : ([s.me.tile b, s.me.tile (b + 1)].all fun t => sparseB (s.me.tile a) (s.me.tile b) t (SpPair.fmts sp).2) = true :=
    List.all_eq_true.2 hall
  have hA : ((s.me.tile a).fmt == (SpPair.fmts sp).1 && (s.me.tile a).spn != 0 && (s.me.tile a).masksOk) = true := by
    simp [hfa, hspn, hmasks]
  have hB : (b % 2 == 0 && decide (b + 2 ≤ 8)) = true := by
    simp only [hev, beq_self_eq_true, Bool.true_and, decide_eq_true_eq]
    omega
  show execTmmaSp c a b v fs sp s = _
  simp only [execTmmaSp, bind, Except.bind, needRoom_ok h.room, tileOf_configured (hfa ▸ hf1), hg, hl, need, hA, hB, List.headD_cons,
    hchk, if_true, slotKind_ok h.name h.kind]

theorem tmmaI8I8_commits {s : State} {c n a b : Nat} (h : MayCommit s c n true) (v : Nat)
    (ht : s.productTiles a b 9 9 = .ok (s.me.tile a, s.me.tile b)) :
    exec (.tmmaI8I8 c a b v) s = finish s (s.commitMatrix c v (.rnsI8 (s.me.tile a) (s.me.tile b))) := by
  show execTmmaI8I8 c a b v s = _
  simp only [execTmmaI8I8, bind, Except.bind, needRoom_ok h.room, ht, slotKind_ok h.name h.kind]

theorem tmmaRnsRns_commits {s : State} {c n a b : Nat} (h : MayCommit s c n true) (v : Nat)
    (ht : s.productTiles a b 13 13 = .ok (s.me.tile a, s.me.tile b)) :
    exec (.tmmaRnsRns c a b v) s = finish s (s.commitMatrix c v (.rnsRes (s.me.tile a) (s.me.tile b))) := by
  show execTmmaRnsRns c a b v s = _
  simp only [execTmmaRnsRns, bind, Except.bind, needRoom_ok h.room, ht, slotKind_ok h.name h.kind]

/-! ## Slot management (R157) -/

theorem exec_aclear {s : State} (hq : s.queueRoom = true) (c v : Nat) :
    exec (.aclear c v) s = finish s (s.commitMatrix c v (.clear false)) := by
  show execAclear c v s = _
  simp only [execAclear, bind, Except.bind, needRoom_ok hq]

theorem exec_aclearRns {s : State} (hq : s.queueRoom = true) (c v : Nat) :
    exec (.aclearRns c v) s = finish s (s.commitMatrix c v (.clear true)) := by
  show execAclearRns c v s = _
  simp only [execAclearRns, bind, Except.bind, needRoom_ok hq]

theorem ownsAtU_ok {s : State} {n : Nat} (h : s.me.priv ≠ 0 ∨ (s.slot n).owner = some s.tag) : s.ownsAtU n = .ok () := by
  rw [State.ownsAtU, need, if_pos]
  rcases h with h | h <;> simp [h]

section
variable {s : State} {c n : Nat} (hq : s.queueRoom = true) (hm : bits s.myCore.aslotmap (5 * c) 5 = 16 + n)
  (hr : s.afterRetag n = .ok ()) (ho : s.me.priv ≠ 0 ∨ (s.slot n).owner = some s.tag)
include hq hm hr ho

theorem aclaim_queues : exec (.aclaim c) s = .next (s.enqueue (.matrix n none (.claim (s.me.priv != 0)))).advance := by
  show execAclaim c s = _
  simp only [execAclaim, bind, Except.bind, needRoom_ok hq, (name_ok s c n hm).1, hr, ownsAtU_ok ho, finish]

theorem afree_queues : exec (.afree c) s = .next (s.enqueue (.matrix n none .free)).advance := by
  show execAfree c s = _
  simp only [execAfree, bind, Except.bind, needRoom_ok hq, (name_ok s c n hm).1, hr, ownsAtU_ok ho, finish]

end

theorem astat_bound {s h : State} {c n v : Nat} (hh : AtEngine s h) (hd : s.me.canWrite v = true)
    (hm : bits s.myCore.aslotmap (5 * c) 5 = 16 + n) (hb : h.slotBusy s.cur n = false) :
    exec (.astat c v) s = .next (h.setX v (s.slot n).statWord).advance := by
  obtain ⟨-, hslot, -⟩ := headQ s h hh.atHead
  obtain ⟨-, hcur⟩ := head_rest s h hh.atHead
  show execAstat c v s = _
  simp only [execAstat, bind, Except.bind, destX_ok hd, (name_ok s c n hm).1, fromEngine_ok hh, hcur, hb, hslot, Bool.false_eq_true,
    if_false, finish]

/-- Settles O31: each instruction's checks pass, and what its commit leaves is `MatrixCommitted` or `Queued`. -/
theorem matrixCommits : Obligations.MatrixCommits := by
  intro s c n a b v fs pair sp ta tb tc version scaled
  refine ⟨fun h => ⟨?_, fun ha hb hc hf hsa hsb => ?_, fun ha hmask hf hev hlt hfc hb hc hcb hcc hrow => ?_⟩,
    fun hq hm hr hu hp => ?_, fun h ha hb hc => ⟨fun h9 h9' => ?_, fun h13 h13' => ?_⟩,
    fun hq hm hr ho => ⟨?_, ?_⟩, fun h hh hd hm hb => ?_⟩
  · rw [exec_aclear h.room]
    exact h.commits v _
  · obtain ⟨hfa, hfb⟩ := Prod.mk.inj hf
    obtain ⟨hn1, hn2⟩ := MmaPair.fmts_ne_zero pair
    rw [tmma_commits h v fs (productTiles_ok hfa hfb hn1 hn2 ha hb hc) (scalesFor_ok hsa) (scalesFor_ok hsb)]
    exact h.commits v _
  · obtain ⟨hfa, hfb⟩ := Prod.mk.inj hf
    rw [tmmaSp_commits h v fs ha hmask hfa hev hlt]
    · exact h.commits v _
    · exact List.forall_mem_cons.2 ⟨sparseB_iff.2 ⟨hfb, hb, hcb, rfl⟩,
        List.forall_mem_singleton.2 (sparseB_iff.2 ⟨hfc.trans hfb, hc, hcc, hrow⟩)⟩
  · rw [exec_aclearRns hq]
    exact commitMatrix_commits hm hr hu hp v _
  · rw [tmmaI8I8_commits h v (productTiles_ok h9 h9' (by decide) (by decide) ha hb hc)]
    exact h.commits v _
  · rw [tmmaRnsRns_commits h v (productTiles_ok h13 h13' (by decide) (by decide) ha hb hc)]
    exact h.commits v _
  · exact ⟨_, aclaim_queues hq hm hr ho, queued_enqueue s _, fun _ => rfl⟩
  · exact ⟨_, afree_queues hq hm hr ho, queued_enqueue s _, fun _ => rfl⟩
  · exact ⟨_, astat_bound hh hd hm hb, xWritten_advance h v _⟩

end Sys2Proof.Machine
end

section
/-! Control registers: the access rules, and what a read and a write leave. -/

namespace Sys2Proof.Machine

open Sys2Proof

/-! ## The access rules (R93) -/

/-- The assigned numbers lie below the machine range (R93, R94). -/
theorem crMachine_of_known {n : Nat} (h : crKnown n = true) : crMachine n = false := by
  simp only [crKnown, Bool.or_eq_true, Bool.and_eq_true, decide_eq_true_eq, beq_iff_eq] at h
  simp only [crMachine, Bool.and_eq_false_iff, decide_eq_false_iff_not]
  omega

theorem crCheck_machine {s : State} {n : Nat} {write : Bool} (h : crMachine n = true) : s.crCheck n write = trapPrivilege s := by
  simp [State.crCheck, need, h, bind, Except.bind]

theorem crCheck_illegal {s : State} {n : Nat} {write : Bool} (hm : crMachine n = false)
    (h : crKnown n = false ∨ (write = true ∧ crReadOnly n = true)) : s.crCheck n write = trapIllegal s := by
  have hno : (crKnown n && !(write && crReadOnly n)) = false := by
    rcases h with h | ⟨rfl, h⟩ <;> simp [h]
  simp only [State.crCheck, need, hm, hno, Bool.or_self, Bool.false_eq_true, if_false, bind, Except.bind, trapIllegal, trapWith]

section
variable {s : State} {n : Nat} {write : Bool} (hk : crKnown n = true) (hw : write = true → crReadOnly n = false)
include hk hw

/-- An access that is not ILLEGAL is decided by the level (R93). -/
theorem crCheck_known : s.crCheck n write = need (s.me.priv != 0 || (n < 0x400 && (!write || crUser n))) (trapPrivilege s) := by
  have hro : (write && crReadOnly n) = false := by
    cases write with
    | false => rfl
    | true => exact hw rfl
  simp [State.crCheck, need, hk, hro, crMachine_of_known hk, bind, Except.bind]

theorem crCheck_privilege (hp : s.me.priv = 0) (h : 0x400 ≤ n ∨ (write = true ∧ crUser n = false)) :
    s.crCheck n write = trapPrivilege s := by
  rw [crCheck_known hk hw, need, if_neg]
  rcases h with h | ⟨rfl, h⟩
  · simp [hp, h]
  · simp [hp, h]

theorem crCheck_ok (h : s.me.priv ≠ 0 ∨ (n < 0x400 ∧ (write = true → crUser n = true))) : s.crCheck n write = .ok () := by
  rw [crCheck_known hk hw, need, if_pos]
  rcases h with h | ⟨hn, hu⟩
  · simp [h]
  · cases write with
    | false => simp [hn]
    | true => simp [hn, hu rfl]

end

/-! ## The instructions (R114) -/

theorem sysrd_eq {s : State} {d n : Nat} (hd : s.me.canWrite d = true) :
    exec (.sysrd d n) s = finish s (do
      s.crCheck n false
      s.crWait n
      .ok (s.setX d (s.readCR n)).advance) := by
  show execSysrd d n s = _
  simp only [execSysrd, bind, Except.bind, destX_ok hd]

/-- The instructions of R114 on register `n`, with whether each writes it. -/
def crAccesses (d a n : Nat) : List (Instr × Bool) :=
  [(.sysrd d n, false), (.syswr d a n, true), (.sysset d a n, true), (.sysclr d a n, true)]

/-- A trap of the access rules is the instruction's: nothing was read or written before (R93). -/
theorem crCheck_traps {s : State} {d a n : Nat} (hd : s.me.canWrite d = true) {e : Instr × Bool} (he : e ∈ crAccesses d a n)
    {c : Cause} {v : Word} (h : s.crCheck n e.2 = trapWith c v) : exec e.1 s = finish s (trapWith c v) := by
  have hwr : ∀ w, s.crCheck n true = trapWith c v → s.sysWrite w d a n = finish s (trapWith c v) := by
    intro w h
    rw [sysWrite_eq s w d a n hd, h]
    rfl
  simp only [crAccesses, List.mem_cons, List.not_mem_nil, or_false] at he
  rcases he with rfl | rfl | rfl | rfl
  · rw [sysrd_eq hd, h]
    rfl
  · exact hwr .wr h
  · exact hwr .set h
  · exact hwr .clr h

/-! ## STATUS and the plain registers under a write (R95, R114) -/

/-- A write by `syswr` at S of a register that may be written, waits for nothing and starts nothing. -/
theorem syswr_plain {s u : State} {d a n : Nat} (hd : s.me.canWrite d = true) (hp : s.me.priv ≠ 0) (hk : crKnown n = true)
    (hro : crReadOnly n = false) (hwait : s.crWait n = .ok ()) (hu : s.writeCR n (s.x a) = .ok u)
    (hafter : ∀ t : State, t.afterWrite n (s.x a) = t) :
    exec (.syswr d a n) s = .next (u.setX d (s.readCR n)).advance := by
  show s.sysWrite .wr d a n = _
  rw [sysWrite_ok s u .wr d a n hd (crCheck_ok hk (fun _ => hro) (.inl hp)) hwait hu]
  exact congrArg _ (hafter _)

/-- The context after an instruction has written an x register and advanced. -/
theorem me_setX_advance (u : State) (d : Nat) (v : Word) :
    ∃ x sh pc, (u.setX d v).advance.me = { u.me with x := x, shadow := sh, pc := pc } :=
  ⟨_, _, _, (xWritten_advance u d v).context⟩

theorem statusWritten_bit (old v : Word) (i : Nat) : (statusWritten old v).getLsbD i =
    if i = 5 then v.getLsbD 5 else if i = 4 then v.getLsbD 4 else if 2 ≤ i ∧ i < 4 then (min 1 (bits v 2 2)).testBit (i - 2)
    else old.getLsbD i := by
  unfold statusWritten
  rw [getLsbD_putBits _ _ _ _ _ (by omega), getLsbD_putBits _ _ _ _ _ (by omega), getLsbD_putBits _ _ _ _ _ (by omega)]
  by_cases h5 : i = 5
  · subst h5
    exact testBit_bits v 5 1 0
  · by_cases h4 : i = 4
    · subst h4
      exact testBit_bits v 4 1 0
    · rw [if_neg (by omega), if_neg (by omega), if_neg h5, if_neg h4]

/-- What a write of STATUS leaves: PPRIV as stored, AE and PAE, and every other bit as it was (R114). -/
theorem statusWritten_spec (old v : Word) :
    bits (statusWritten old v) 2 2 = min 1 (bits v 2 2) ∧ bits (statusWritten old v) 4 2 = bits v 4 2 ∧
      ∀ i, (i < 2 ∨ 6 ≤ i) → (statusWritten old v).getLsbD i = old.getLsbD i := by
  refine ⟨?_, ?_, fun i hi => ?_⟩
  · have h : min 1 (bits v 2 2) < 2 ^ 2 := by omega
    rw [statusWritten, bits_putBits_other _ _ _ _ _ _ (by omega) (by omega), bits_putBits_other _ _ _ _ _ _ (by omega) (by omega),
      bits_putBits_same _ _ _ _ (by omega), Nat.mod_eq_of_lt h]
  · refine Nat.eq_of_testBit_eq fun i => ?_
    rw [testBit_bits, testBit_bits, statusWritten_bit]
    by_cases hi : i < 2
    · interval_cases i <;> simp
    · simp [hi]
  · rw [statusWritten_bit, if_neg (by omega), if_neg (by omega), if_neg (by omega)]

/-- The context registers that keep a written value whole (R95). -/
def plainRegs : List Nat := [0x002, 0x003, 0x004, 0x005, 0x006, 0x007, 0x00D, 0x00E]

theorem plainRegs_access (s : State) (v : Word) : ∀ r ∈ plainRegs, crKnown r = true ∧ crReadOnly r = false ∧ s.crWait r = .ok () ∧
    s.writeCR r v = .ok (s.writeCtxReg r v) ∧ ∀ t : State, t.afterWrite r v = t := by
  simp only [plainRegs, List.forall_mem_cons]
  refine ⟨?_, ?_, ?_, ?_, ?_, ?_, ?_, ?_, List.forall_mem_nil _⟩
  all_goals exact ⟨rfl, rfl, rfl, rfl, fun _ => rfl⟩

/-- Their values do not depend on what an x register's write and an advance change. -/
theorem plainRegs_congr {t u : State} {x sh : SMap Word} {pc : Word} (h : t.me = { u.me with x := x, shadow := sh, pc := pc }) :
    ∀ r ∈ plainRegs, t.readCR r = u.readCR r := by
  simp only [plainRegs, List.forall_mem_cons]
  refine ⟨?_, ?_, ?_, ?_, ?_, ?_, ?_, ?_, List.forall_mem_nil _⟩
  all_goals simp [State.readCR, State.readCtxReg, h]

theorem plainRegs_readBack (s : State) (v : Word) : ∀ r ∈ plainRegs, (s.writeCtxReg r v).readCR r = v := by
  simp only [plainRegs, List.forall_mem_cons]
  refine ⟨?_, ?_, ?_, ?_, ?_, ?_, ?_, ?_, List.forall_mem_nil _⟩
  all_goals simp [State.readCR, State.readCtxReg, State.writeCtxReg]

section
variable {s : State} {d a : Nat} (hd : s.me.canWrite d = true) (hp : s.me.priv ≠ 0)
include hd hp

theorem syswr_status : ∃ t, exec (.syswr d a 0) s = .next t ∧ t.me.status = statusWritten s.me.status (s.x a) := by
  refine ⟨_, syswr_plain hd hp rfl rfl rfl rfl fun _ => rfl, ?_⟩
  obtain ⟨x, sh, pc, hme⟩ := me_setX_advance (s.writeCtxReg 0 (s.x a)) d (s.readCR 0)
  rw [hme]
  simp [State.writeCtxReg]

theorem syswr_plainRegs : ∀ r ∈ plainRegs, ∃ t, exec (.syswr d a r) s = .next t ∧ t.readCR r = s.x a := by
  intro r hr
  obtain ⟨hk, hro, hwait, hwrite, hafter⟩ := plainRegs_access s (s.x a) r hr
  refine ⟨_, syswr_plain hd hp hk hro hwait hwrite hafter, ?_⟩
  obtain ⟨x, sh, pc, hme⟩ := me_setX_advance (s.writeCtxReg r (s.x a)) d (s.readCR r)
  rw [plainRegs_congr hme r hr, plainRegs_readBack s _ r hr]

/-- A weight of 0 is stored as 1 (R25). -/
theorem syswr_vweight : ∃ t, exec (.syswr d a 0x102) s = .next t ∧ t.readCR 0x102 = BitVec.ofNat 64 (max 1 (bits (s.x a) 0 4)) := by
  refine ⟨_, syswr_plain hd hp rfl rfl rfl rfl fun _ => rfl, ?_⟩
  generalize s.readCR 0x102 = w
  show word (State.myCore _).vweight = _
  rw [State.setX, State.advance, State.modMe_modMe, State.myCore, State.core_modMe]
  simp [word]

end

/-- Settles O40: the access rules, the shared read and write (what a write starts comes after it, log entry 70), and the registers' own
rules. -/
theorem controlRegisters : Obligations.ControlRegisters := by
  refine ⟨fun s d a n hd e he => ⟨fun h1 h2 => ?_, fun hn hbad => ?_, fun hp hk hw h => ?_, fun hk hw h => crCheck_ok hk hw h⟩,
    fun s u d a n k w hd => ⟨fun hc hwait => ?_, fun e he => ?_, fun hp => ⟨?_, syswr_plainRegs hd hp, syswr_vweight hd hp⟩⟩⟩
  · have hm : crMachine n = true := by simp [crMachine, h1, h2]
    exact trap_ex s _ _ _ (by decide) (by decide) (crCheck_traps hd he (crCheck_machine hm))
  · have hm : crMachine n = false := by
      simp only [crMachine, Bool.and_eq_false_iff, decide_eq_false_iff_not]
      omega
    exact trap_ex s _ _ _ (by decide) (by decide) (crCheck_traps hd he (crCheck_illegal hm hbad))
  · exact trap_ex s _ _ _ (by decide) (by decide) (crCheck_traps hd he (crCheck_privilege hk hw hp h))
  · refine ⟨_, ?_, xWritten_advance s d _⟩
    simp only [sysrd_eq hd, bind, Except.bind, hc, hwait, finish]
  · have hwrite : exec e.1 s = s.sysWrite e.2.1 d a e.2.2 := by fin_cases he <;> rfl
    intro m old v hc hwait hu
    exact ⟨_, xWritten_advance u d old, hwrite.trans (sysWrite_ok s u e.2.1 d a m hd hc hwait hu)⟩
  · obtain ⟨t, ht, hst⟩ := syswr_status (a := a) hd hp
    exact ⟨t, ht, hst ▸ statusWritten_spec s.me.status (s.x a)⟩

end Sys2Proof.Machine
end

section
/-! Division, branches and jumps, the calls of a handler, and the returns from one. -/

namespace Sys2Proof.Machine

open Sys2Proof

/-! ## Division (R101) -/

/-- The wrap of 2^63 and the remainder 0 give R101's case −2^63 by −1, which the model's division does not set apart. -/
theorem divSigned_overflow : divSigned 0x8000000000000000 (-1) = 0x8000000000000000 := by decide

theorem remSigned_overflow : remSigned 0x8000000000000000 (-1) = 0 := by decide

theorem divSigned_cases (a b : Word) : divSigned a b =
    if b = 0 then -1 else if a = 0x8000000000000000 ∧ b = -1 then 0x8000000000000000
    else BitVec.ofInt 64 (a.toInt.tdiv b.toInt) := by
  by_cases h : a = 0x8000000000000000 ∧ b = -1
  · obtain ⟨rfl, rfl⟩ := h
    exact divSigned_overflow
  · rw [if_neg h]
    rfl

theorem remSigned_cases (a b : Word) : remSigned a b =
    if b = 0 then a else if a = 0x8000000000000000 ∧ b = -1 then 0
    else BitVec.ofInt 64 (a.toInt.tmod b.toInt) := by
  by_cases h : a = 0x8000000000000000 ∧ b = -1
  · obtain ⟨rfl, rfl⟩ := h
    exact remSigned_overflow
  · rw [if_neg h]
    rfl

/-- Settles O2: each form writes the value of its function, and `divSigned_cases` and `remSigned_cases` give the signed ones. -/
theorem divisionNeverTraps : Obligations.DivisionNeverTraps := by
  intro s d a b hd
  simp only [← divSigned_cases, ← remSigned_cases, List.forall_mem_cons]
  exact ⟨xResult_writeTo s d _ hd, xResult_writeTo s d _ hd, xResult_writeTo s d _ hd, xResult_writeTo s d _ hd, List.forall_mem_nil _⟩

/-! ## Conditions that must hold -/

theorem need_bind_ok {α : Type} {c : Bool} {e : Except Stop Unit} (h : c = true) (k : Unit → Except Stop α) : (need c e >>= k) = k () := by
  subst h
  rfl

theorem need_bind_trap {α : Type} {c : Bool} (h : c = false) (x : Cause) (v : Word) (k : Unit → Except Stop α) :
    (need c (trapWith x v) >>= k) = trapWith x v := by
  subst h
  rfl

theorem pcAligned_eq_true {v : Word} : pcAligned v = true ↔ v.toNat % 4 = 0 := beq_iff_eq

theorem pcAligned_eq_false {v : Word} : pcAligned v = false ↔ v.toNat % 4 ≠ 0 := beq_eq_false_iff_ne

/-! ## Branches and jumps (R46, R104, R105) -/

/-- Without modifiers in force an instruction is one word long (R43, R49). -/
theorem State.len_noModifiers {s : State} (h : s.mods = none) : s.len = 4 := by rw [State.len, h]; rfl

theorem branch_taken (s : State) (o : Int) : s.branch true o = .next (s.setPc (s.pc + wordI (o * 4))) := rfl

theorem branch_notTaken (s : State) (o : Int) : s.branch false o = .next s.advance := rfl

theorem branch_goes {s : State} (hm : s.mods = none) {c : Bool} {p : Prop} (h : c = true ↔ p) (o : Int) :
    ∃ t, s.branch c o = .next t ∧ (p → GoesTo s t (s.pc + BitVec.ofInt 64 (o * 4))) ∧ (¬p → GoesTo s t (s.pc + 4)) := by
  cases c with
  | true => exact ⟨_, branch_taken s o, fun _ => goesTo_setPc s _, fun hn => absurd (h.1 rfl) hn⟩
  | false => exact ⟨_, branch_notTaken s o, fun hp => absurd (h.2 hp) (by decide), fun _ => State.len_noModifiers hm ▸ goesTo_advance s⟩

theorem jl_links {s : State} (hd : s.me.canWrite 31 = true) (o : Int) :
    exec (.jl o) s = .next ((s.setX 31 (s.pc + 4)).setPc (s.pc + BitVec.ofInt 64 (o * 4))) := by
  show finish s (s.destX 31 >>= _) = _
  rw [destX_ok hd]
  rfl

section
variable {s : State} {d a : Nat} {i : Int} (hd : s.me.canWrite d = true)
include hd

theorem jlr_links (h : (s.x a + BitVec.ofInt 64 i).toNat % 4 = 0) :
    exec (.jlr d a i) s = .next ((s.setX d (s.pc + 4)).setPc (s.x a + BitVec.ofInt 64 i)) := by
  show finish s (s.destX d >>= fun _ => need _ _ >>= _) = _
  rw [destX_ok hd]
  exact congrArg (finish s) (need_bind_ok (pcAligned_eq_true.2 h) _)

theorem jlr_misaligned (h : (s.x a + BitVec.ofInt 64 i).toNat % 4 ≠ 0) :
    exec (.jlr d a i) s = finish s (trapWith .misaligned (s.x a + BitVec.ofInt 64 i)) := by
  show finish s (s.destX d >>= fun _ => need _ _ >>= _) = _
  rw [destX_ok hd]
  exact congrArg (finish s) (need_bind_trap (pcAligned_eq_false.2 h) _ _ _)

end

/-- Settles O3: each branch's condition is the statement's, `j` is a branch that is always taken, and the links are written by
`jl_links` and `jlr_links`. -/
theorem controlTransfers : Obligations.ControlTransfers := by
  refine ⟨fun s a b o hm => ?_, fun s d a o i => ⟨fun hd => ?_, fun hd h => ?_, fun hd h => ?_⟩⟩
  · have hlt : (s.x a).slt (s.x b) = true ↔ (s.x a).toInt < (s.x b).toInt := BitVec.slt_iff_toInt_lt
    have hltn : (s.x a).ult (s.x b) = true ↔ (s.x a).toNat < (s.x b).toNat := BitVec.ult_iff_toNat_lt
    simp only [List.forall_mem_cons]
    refine ⟨branch_goes hm beq_iff_eq o, branch_goes hm bne_iff_ne o, branch_goes hm hlt o, branch_goes hm ?_ o,
      branch_goes hm hltn o, branch_goes hm ?_ o, branch_goes hm (iff_of_true rfl trivial) o, List.forall_mem_nil _⟩
    · rw [Bool.not_eq_true', ← Bool.not_eq_true, hlt, not_lt]
    · rw [Bool.not_eq_true', ← Bool.not_eq_true, hltn, not_lt]
  · exact ⟨_, jl_links hd o, xWritten_setX s 31 _ _⟩
  · exact ⟨_, jlr_links hd h, xWritten_setX s d _ _⟩
  · exact trap_ex s _ _ _ (by decide) (by decide) (jlr_misaligned hd h)

/-! ## Calls (R118) -/

/-- Settles O5: both instructions are their trap, and `takeTrap_spec` says what it leaves. -/
theorem systemCallsTrap : Obligations.SystemCallsTrap := fun s i =>
  ⟨trap_ex s .syscall (word i) (.svc i) (by decide) (by decide) rfl, trap_ex s .breakpoint (word i) (.brk i) (by decide) (by decide) rfl⟩

/-! ## The returns' STATUS (R116, R117) -/

/-- What `returnStatus` leaves in each bit: PPRIV in PRIV, PAE in AE, 0 in HCTX. -/
theorem returnStatus_spec (st : Word) :
    bits (returnStatus st) 0 2 = bits st 2 2 ∧ bits (returnStatus st) 4 1 = bits st 5 1 ∧ bits (returnStatus st) 8 4 = 0 ∧
      ∀ k, (k = 2 ∨ k = 3 ∨ k = 5 ∨ k = 6 ∨ k = 7 ∨ 12 ≤ k) → (returnStatus st).getLsbD k = st.getLsbD k := by
  unfold returnStatus
  refine ⟨?_, ?_, ?_, fun k hk => ?_⟩
  · rw [bits_putBits_other _ _ _ _ _ _ (by omega) (by omega), bits_putBits_other _ _ _ _ _ _ (by omega) (by omega),
      bits_putBits_same _ _ _ _ (by omega), Nat.mod_eq_of_lt (bits_lt st 2 2)]
  · rw [bits_putBits_other _ _ _ _ _ _ (by omega) (by omega), bits_putBits_same _ _ _ _ (by omega), Nat.mod_eq_of_lt (bits_lt st 5 1)]
  · exact bits_putBits_same _ _ _ _ (by omega)
  · rw [getLsbD_putBits _ _ _ _ _ (by omega), getLsbD_putBits _ _ _ _ _ (by omega), getLsbD_putBits _ _ _ _ _ (by omega),
      if_neg (by omega), if_neg (by omega), if_neg (by omega)]

/-- UI is STATUS bit 6 (R95): clearing it leaves every other bit. -/
theorem getLsbD_clearUi (st : Word) (k : Nat) : (putBits st 6 1 0).getLsbD k = if k = 6 then false else st.getLsbD k := by
  rw [getLsbD_putBits _ _ _ _ _ (by omega), Nat.zero_testBit]
  exact if_congr (by omega) rfl rfl

/-- Outside a user completion handler register fields name the context's own bank (R269). -/
theorem Ctx.xreg_ownBank {c : Ctx} (h : c.ui = false) (n : Nat) : c.xreg n = if n = 0 then 0 else smGet c.x n 0 := by
  simp [Ctx.xreg, Ctx.shadows, h]

/-! ## `tret` (R116) -/

section
variable {s : State}

theorem tret_returns (hp : s.me.priv ≠ 0) (h : s.returnTarget.toNat % 4 = 0) : exec .tret s = .next s.returnFromTrap := by
  show finish s (need _ _ >>= fun _ => need _ _ >>= _) = _
  rw [need_bind_ok (bne_iff_ne.2 hp), need_bind_ok (pcAligned_eq_true.2 h)]
  rfl

theorem tret_privilege (hp : s.me.priv = 0) : exec .tret s = finish s (trapWith .privilege (s.insn.setWidth 64)) :=
  congrArg (finish s) (need_bind_trap (by simp [hp]) _ _ _)

theorem tret_misaligned (hp : s.me.priv ≠ 0) (h : s.returnTarget.toNat % 4 ≠ 0) :
    exec .tret s = finish s (trapWith .misaligned s.returnTarget) := by
  show finish s (need _ _ >>= fun _ => need _ _ >>= _) = _
  rw [need_bind_ok (bne_iff_ne.2 hp), need_bind_trap (pcAligned_eq_false.2 h)]

/-! ## `uret` (R117) -/

theorem uret_returns (hu : s.me.ui = true) (h : s.me.uepc.toNat % 4 = 0) :
    exec .uret s = .next (s.modMe fun c => { c with status := putBits c.status 6 1 0, pc := c.uepc }) := by
  show finish s (need _ _ >>= fun _ => need _ _ >>= _) = _
  rw [need_bind_ok hu, need_bind_ok (pcAligned_eq_true.2 h)]
  rfl

theorem uret_illegal (hu : s.me.ui = false) : exec .uret s = finish s (trapWith .illegal (s.insn.setWidth 64)) :=
  congrArg (finish s) (need_bind_trap hu _ _ _)

theorem uret_misaligned (hu : s.me.ui = true) (h : s.me.uepc.toNat % 4 ≠ 0) :
    exec .uret s = finish s (trapWith .misaligned s.me.uepc) := by
  show finish s (need _ _ >>= fun _ => need _ _ >>= _) = _
  rw [need_bind_ok hu, need_bind_trap (pcAligned_eq_false.2 h)]

end

/-- Settles O6: the target of the first clause is `State.returnTarget`, and each instruction's checks decide what it does. -/
theorem handlerReturns : Obligations.HandlerReturns := by
  refine ⟨fun s => ?_, fun s => ⟨fun hp => ?_, fun hp h => ?_, fun hu => ?_, fun hu h => ?_⟩, fun s hu h => ?_⟩
  · intro target hp h
    have hme : s.returnFromTrap.me = { s.me with status := returnStatus s.me.status, pc := s.returnTarget } := State.me_modMe s _
    refine ⟨_, tret_returns hp h, by rw [State.pc, hme]; rfl, onlyContext_modMe s _, by rw [hme]; rfl, ?_⟩
    rw [hme]
    exact returnStatus_spec s.me.status
  · exact trap_ex s _ _ _ (by decide) (by decide) (tret_privilege hp)
  · exact trap_ex s _ _ _ (by decide) (by decide) (tret_misaligned hp h)
  · exact trap_ex s _ _ _ (by decide) (by decide) (uret_illegal hu)
  · exact trap_ex s _ _ _ (by decide) (by decide) (uret_misaligned hu h)
  · have hui : (putBits s.me.status 6 1 0).getLsbD 6 = false := getLsbD_clearUi s.me.status 6
    refine ⟨_, uret_returns hu h, ?_, onlyContext_modMe s _, ?_⟩
    · rw [State.pc, State.me_modMe]
    · simp only [State.x, State.me_modMe]
      exact ⟨trivial, hui, fun k hk => (getLsbD_clearUi s.me.status k).trans (if_neg hk), Ctx.xreg_ownBank hui⟩

end Sys2Proof.Machine
end

section
/-! Vector compares and predicate instructions: the lanes that each writes, and the counts that go to an x register. -/

namespace Sys2Proof.Machine

open Sys2Proof

/-! ## Elements of a type in a register (R123, R124) -/

theorem T8.bytes_pos (y : T8) : 0 < T8.bytes y := by cases y <;> decide

theorem T8.bytes_fill (y : T8) : T8.bytes y * (256 / T8.bytes y) = 256 := by cases y <;> rfl

theorem T8.count_bits (y : T8) : 2048 / (8 * T8.bytes y) = 256 / T8.bytes y := by cases y <;> rfl

theorem FTy.bytes_pos (y : FTy) : 0 < FTy.bits y / 8 := by cases y <;> decide

theorem FTy.bytes_fill (y : FTy) : FTy.bits y / 8 * (256 / (FTy.bits y / 8)) = 256 := by cases y <;> rfl

/-! ## Compares (R127) -/

/-- An integer compare raises no flag. -/
theorem compareInt_ok (s u : State) (d a b p : Nat) (c : Bool) (y : T8) (f : Int → Int → Bool) (hb : s.bodyFits = .ok ())
    (hq : s.queueRoom = true) (hv : s.vAccess [s.stag 1 a, s.stag 2 b] [] = .ok u) :
    let w := T8.bytes y
    let I := fun n i => readInt (T8.isSigned y) (8 * w) (vElem (8 * w) (u.vdata n) i)
    ∃ t new, s.compareInt d a b p c y f = .next t ∧
      PredResult u t d new ⟨0, true, [s.stag 1 a, s.stag 2 b, 32 + p, 32 + d], (predDest d).map (32 + ·)⟩ ∧
      ∀ l, l < 256 → new.getLsbD l =
        if u.active p c (l / w * w) then f (I (s.stag 1 a) (l / w)) (I (s.stag 2 b) (l / w)) else (u.me.pred d).getLsbD l := by
  obtain ⟨t, new, ht, hr, hl⟩ := compare_ok s u d a b p c (T8.bytes y) _ (T8.bytes_pos y) (T8.count_bits y) (T8.bytes_fill y)
    (fun v w => (f (readInt (T8.isSigned y) (8 * T8.bytes y) v) (readInt (T8.isSigned y) (8 * T8.bytes y) w), 0)) hb hq hv
  rw [flagsOf_zero _ _ fun i => ite_self _] at hr
  exact ⟨t, new, ht, hr, hl⟩

theorem compareFp_ok (s u : State) (d a b p : Nat) (c : Bool) (z : FTy) (f : Num → Num → Bool × Flags) (hb : s.bodyFits = .ok ())
    (hq : s.queueRoom = true) (hv : s.vAccess [s.stag 1 a, s.stag 2 b] [] = .ok u) :
    let k := FTy.bits z / 8
    let F := fun n i => decodeFp (FTy.fmt z) (vElem (FTy.bits z) (u.vdata n) i)
    ∃ t new, s.compareFp d a b p c z f = .next t ∧
      PredResult u t d new ⟨flagsOf (256 / k) fun i => if u.active p c (k * i) then (f (F (s.stag 1 a) i) (F (s.stag 2 b) i)).2 else 0,
        true, [s.stag 1 a, s.stag 2 b, 32 + p, 32 + d], (predDest d).map (32 + ·)⟩ ∧
      ∀ l, l < 256 → new.getLsbD l =
        if u.active p c (l / k * k) then (f (F (s.stag 1 a) (l / k)) (F (s.stag 2 b) (l / k))).1 else (u.me.pred d).getLsbD l := by
  have h := compare_ok s u d a b p c (FTy.bits z / 8) (256 / (FTy.bits z / 8)) (FTy.bytes_pos z)
    (by rw [FTy.bits_bytes, FTy.count_bytes]) (FTy.bytes_fill z)
    (fun v w => f (decodeFp (FTy.fmt z) v) (decodeFp (FTy.fmt z) w)) hb hq hv
  simp only [FTy.bits_bytes] at h
  exact h

theorem vcneFp_compares (s : State) (d a b p : Nat) (c : Bool) (z : FTy) :
    exec (.vcneFp d a b p c z) s = s.compareFp d a b p c z fun v w => (!(eqFlags v w).1, (eqFlags v w).2) := by
  show s.compareFp d a b p c z (fun v w => ((eqFlags v w).1 == false, (eqFlags v w).2)) = _
  simp only [beq_false]

/-- Settles O21: every instruction is one of the two compares, of integers or of FP elements, with its relation. -/
theorem vectorCompares : Obligations.VectorCompares := by
  intro s u d a b p c y z hb hq hv I F
  refine ⟨fun e he => ?_, fun e he => ?_⟩
  · have arm : exec e.1 s = s.compareInt d a b p c y e.2 := by
      simp only [List.mem_cons, List.not_mem_nil, or_false] at he
      rcases he with rfl | rfl | rfl | rfl <;> rfl
    rw [arm]
    exact compareInt_ok s u d a b p c y e.2 hb hq hv
  · have arm : exec e.1 s = s.compareFp d a b p c z e.2 := by
      simp only [List.mem_cons, List.not_mem_nil, or_false] at he
      rcases he with rfl | rfl | rfl | rfl | rfl
      case inr.inl => exact vcneFp_compares s d a b p c z
      all_goals rfl
    rw [arm]
    exact compareFp_ok s u d a b p c z e.2 hb hq hv

/-! ## Predicate instructions (R128) -/

/-- A predicate instruction whose new bits are `g` on every lane. -/
theorem predOp_ok (s : State) (d p : Nat) (c : Bool) (src : List Nat) (f : BitVec 256) (g : Nat → Bool) (hb : s.bodyFits = .ok ())
    (hq : s.queueRoom = true) (hg : ∀ l, l < 256 → f.getLsbD l = g l) :
    ∃ t new, s.predOp d p c src f = .next t ∧
      PredResult s t d new ⟨0, true, (p :: d :: src).map (32 + ·), (predDest d).map (32 + ·)⟩ ∧
      ∀ l, l < 256 → new.getLsbD l = if s.active p c l then g l else (s.me.pred d).getLsbD l := by
  rw [State.predOp, vecBody_ok s s _ _ _ _ _ hb hq (vAccess_nil s)]
  exact ⟨_, _, rfl, predResult_setP s d _ _, fun l hl => by rw [merge_bit _ _ _ l hl, laneMask_bit s p c l hl, hg l hl]⟩

theorem getLsbD_lowLanes (n l : Nat) (hl : l < 256) : (BitVec.ofNat 256 (2 ^ min n 256 - 1)).getLsbD l = decide (l < n) := by
  rw [BitVec.getLsbD_ofNat, Nat.testBit_two_pow_sub_one]
  simp [hl]

/-- The set lanes of a predicate that a governing one activates. -/
theorem setLanes_governed (s : State) (v : BitVec 256) (p : Nat) (c : Bool) :
    setLanes (v &&& s.laneMask p c) = (List.range 256).filter fun l => v.getLsbD l && s.active p c l :=
  List.filter_congr fun l hl => by rw [BitVec.getLsbD_and, laneMask_bit s p c l (List.mem_range.1 hl)]

theorem Ctx.xreg_bodyNext (c : Ctx) (k n : Nat) : (c.bodyNext k).xreg n = c.xreg n := by
  unfold Ctx.bodyNext
  split
  · rfl
  · dsimp only
    split
    · split <;> rfl
    · rfl

/-- A count over predicates goes to an x register, and its work joins the queue. -/
theorem predToX_ok (s : State) (d : Nat) (src : List Nat) (v : Nat) (hb : s.bodyFits = .ok ()) (hq : s.queueRoom = true)
    (hd : s.me.canWrite d = true) :
    ∃ t, s.predToX d src v = .next t ∧ (d ≠ 0 → t.x d = BitVec.ofNat 64 v) ∧ (∀ n, n ≠ d → t.x n = s.x n) ∧
      VecQueued s t ⟨0, true, src.map (32 + ·), []⟩ := by
  have hbody := vecBody_ok s s [] [] src [] (fun s => (s.setX d (word v), 0)) hb hq (vAccess_nil s)
  have harm : s.predToX d src v = .next (((s.setX d (word v)).enqueue (.vector ⟨0, true, src.map (32 + ·), []⟩)).bodyAdvance) := by
    rw [State.predToX, State.destX, need_bind_ok hd, hbody]
    rfl
  have hx : ∀ n, (((s.setX d (word v)).enqueue (.vector ⟨0, true, src.map (32 + ·), []⟩)).bodyAdvance).x n
      = (s.me.setX d (word v)).xreg n := fun n => by
    rw [State.x, me_vecQueued, Ctx.xreg_bodyNext, State.setX, State.me_modMe]
  refine ⟨_, harm, fun h0 => ?_, fun n hn => ?_, ?_⟩
  · rw [hx, Ctx.xreg_setX, if_pos ⟨h0, rfl⟩]; rfl
  · rw [hx, Ctx.xreg_setX, if_neg fun h => hn h.2]; rfl
  · exact vecQueued_of s _ _ rfl (fun i hi => State.ctx_modMe_other _ _ hi) (State.core_queue_modMe s _ _) fun _ => rfl

/-- Settles O22: each instruction's bits by lane, and the counts over the governed set lanes. -/
theorem predicateInstructions : Obligations.PredicateInstructions := by
  intro s d a b p c hb hq
  refine ⟨fun e he => ?_, fun hd => ?_⟩
  · obtain ⟨f, arm, hf⟩ : ∃ f, exec e.1 s = s.predOp d p c e.2.1 f ∧ ∀ l, l < 256 → f.getLsbD l = e.2.2 l := by
      simp only [List.mem_cons, List.not_mem_nil, or_false] at he
      rcases he with rfl | rfl | rfl | rfl | rfl | rfl
      · exact ⟨_, rfl, fun l _ => BitVec.getLsbD_and⟩
      · exact ⟨_, rfl, fun l _ => BitVec.getLsbD_or⟩
      · exact ⟨_, rfl, fun l _ => BitVec.getLsbD_xor⟩
      · exact ⟨_, rfl, fun l hl => by simp [hl]⟩
      · exact ⟨_, rfl, fun l hl => by simp [hl]⟩
      · exact ⟨_, rfl, getLsbD_lowLanes _⟩
    rw [arm]
    exact predOp_ok s d p c e.2.1 f e.2.2 hb hq hf
  · intro set e he
    have arm : exec e.1 s = s.predToX d [a, p] e.2 := by
      have hset : setLanes (s.me.pred a &&& s.laneMask p c) = set := setLanes_governed s _ p c
      simp only [List.mem_cons, List.not_mem_nil, or_false] at he
      rcases he with rfl | rfl <;> rw [← hset] <;> rfl
    rw [arm]
    exact predToX_ok s d [a, p] e.2 hb hq hd

end Sys2Proof.Machine
end

section
/-! Vector permutes and reductions: where each element comes from, and the value and index that a reduction gives. -/

namespace Sys2Proof.Machine

open Sys2Proof

/-! ## Elements of a result -/

/-- Element `i` of a vector computed element by element. -/
theorem vElem_vJoin_range (w n : Nat) (f : Nat → Nat) (i : Nat) (hi : i < n) (hw : w * n ≤ 2048) :
    vElem w (vJoin w ((List.range n).map f)) i = f i % 2 ^ w := by
  rw [vElem_vJoin _ _ _ (by simpa using hi) (by simpa using hw)]
  simp

theorem T8.count_pos (y : T8) : 0 < 256 / T8.bytes y := by cases y <;> decide

theorem T8.fill_le {y : T8} {n : Nat} (h : n ≤ 256 / T8.bytes y) : 8 * T8.bytes y * n ≤ 2048 :=
  calc 8 * T8.bytes y * n ≤ 8 * T8.bytes y * (256 / T8.bytes y) := Nat.mul_le_mul_left _ h
    _ = 8 * 256 := by rw [Nat.mul_assoc, T8.bytes_fill]

/-! ## Permutes (R129) -/

theorem permuteLanes_eq (act : Nat → Bool) (w : Nat) {n : Nat} (hn : 0 < n) (A B D : Nat → Nat) :
    mapLanes act w (fun x _ _ => (((List.range n).map A).getD (x % n) 0, 0)) 0 ((List.range n).map B) ((List.range n).map A)
        ((List.range n).map D)
      = ((List.range n).map fun i => if act (w * i) then A (B i % n) else D i, 0) := by
  have hpick : ∀ x, ((List.range n).map A).getD (x % n) 0 = A (x % n) := fun x => by
    rw [List.getD_eq_getElem _ _ (by simpa using Nat.mod_lt x hn)]
    simp
  rw [mapLanes_vectors, flagsOf_zero _ _ fun i => ite_self _]
  simp only [hpick]

/-- Element `i` of `vexpand` (R129): an active one takes the source's element by its rank among the active ones. -/
def expandedElem (act : Nat → Bool) (w : Nat) (A : Nat → Nat) (i : Nat) : Nat :=
  if act (w * i) then A ((List.range i).filter fun j => act (w * j)).length else 0

/-- The rank of an element is below its index, so the source never runs out. -/
theorem expandElems_eq (act : Nat → Bool) (w n : Nat) (A : Nat → Nat) :
    expandElems act w 0 n ((List.range n).map A) = (List.range n).map (expandedElem act w A) := by
  rw [expand_spec]
  refine List.map_congr_left fun i hi => ?_
  have hrank : ((List.range i).filter fun j => act (w * j)).length < n :=
    ((List.length_filter_le _ _).trans_eq List.length_range).trans_lt (List.mem_range.1 hi)
  simp only [Nat.zero_add, expandedElem, List.getD_eq_getElem?_getD, List.getElem?_map, List.getElem?_range hrank, Option.map_some,
    Option.getD_some]

theorem expandedElem_lt {act : Nat → Bool} {w m : Nat} {A : Nat → Nat} (hA : ∀ i, A i < 2 ^ m) (i : Nat) :
    expandedElem act w A i < 2 ^ m := by
  unfold expandedElem
  split
  · exact hA _
  · exact Nat.two_pow_pos _

section
variable {s u : State} {d a b p : Nat} {c : Bool} {y : T8} (hb : s.bodyFits = .ok ()) (hq : s.queueRoom = true)
include hb hq

theorem vperm_ok (hv : s.vAccess [s.stag 1 a, s.stag 2 b, s.stag 0 d] [s.stag 0 d] = .ok u) :
    let w := T8.bytes y
    let vd := s.stag 0 d
    ∃ t data, exec (.vperm d a b p c y) s = .next t ∧
      VecResult u t vd data (u.vside vd) ⟨0, true, [s.stag 1 a, s.stag 2 b, vd, 32 + p], [vd]⟩ ∧
      ∀ i, i < 256 / w → vElem (8 * w) data i =
        if u.active p c (w * i) then vElem (8 * w) (u.vdata (s.stag 1 a)) (vElem (8 * w) (u.vdata (s.stag 2 b)) i % (256 / w))
        else vElem (8 * w) (u.vdata vd) i := by
  intro w vd
  have arm : exec (.vperm d a b p c y) s = finish s (s.vecBody [s.stag 1 a, s.stag 2 b, vd] [vd] [p] [] fun s' =>
      let src := vElems (8 * w) (s'.vdata (s.stag 1 a))
      let r := mapLanes (s'.active p c) w (fun x _ _ => (src.getD (x % (256 / w)) 0, 0)) 0 (vElems (8 * w) (s'.vdata (s.stag 2 b)))
        src (vElems (8 * w) (s'.vdata vd))
      (s'.setV vd (vJoin (8 * w) r.1) none, 0)) := rfl
  rw [arm, vecBody_ok s u _ _ _ _ _ hb hq hv]
  simp only [vElems_eq, w, T8.count_bits, permuteLanes_eq _ _ (T8.count_pos y)]
  refine ⟨_, _, rfl, vecResult_setV u vd _ none _, fun i hi => ?_⟩
  rw [vElem_vJoin_range _ _ _ i hi (T8.fill_le le_rfl)]
  split <;> exact Nat.mod_eq_of_lt (vElem_lt _ _ _)

/-- The whole-register pattern on a type's elements (R129, R130): `f` computes the register from the elements' codes. -/
theorem wholeT8_ok (f : State → List Nat → Nat × BitVec 5) (hv : s.vAccess [s.stag 1 a] [s.stag 0 d] = .ok u) :
    let w := T8.bytes y
    let r := f u ((List.range (256 / w)).map (vElem (8 * w) (u.vdata (s.stag 1 a))))
    ∃ t, finish s (s.wholeVector d a p w f) = .next t ∧
      VecResult u t (s.stag 0 d) (BitVec.ofNat 2048 r.1) (u.vside (s.stag 0 d)) ⟨r.2, true, [s.stag 1 a, 32 + p], [s.stag 0 d]⟩ := by
  have h := whole_ok s u d a p (T8.bytes y) f hb hq hv
  rw [T8.count_bits] at h
  exact h

/-- A permute that joins a list of elements, at most as many as the register holds: those beyond the list are zero. -/
theorem wholeJoin_ok (f : State → List Nat → List Nat) {l : List Nat} (hv : s.vAccess [s.stag 1 a] [s.stag 0 d] = .ok u)
    (hf : f u ((List.range (256 / T8.bytes y)).map (vElem (8 * T8.bytes y) (u.vdata (s.stag 1 a)))) = l)
    (hl : ∀ x ∈ l, x < 2 ^ (8 * T8.bytes y)) (hlen : l.length ≤ 256 / T8.bytes y) :
    ∃ t data, finish s (s.wholeVector d a p (T8.bytes y) fun s' l => (joinElems (8 * T8.bytes y) (f s' l), 0)) = .next t ∧
      VecResult u t (s.stag 0 d) data (u.vside (s.stag 0 d)) ⟨0, true, [s.stag 1 a, 32 + p], [s.stag 0 d]⟩ ∧
      ∀ i, vElem (8 * T8.bytes y) data i = l.getD i 0 := by
  subst hf
  obtain ⟨t, ht, hr⟩ := wholeT8_ok (y := y) hb hq (fun s' l => (joinElems (8 * T8.bytes y) (f s' l), 0)) hv
  exact ⟨t, _, ht, hr, fun i => vElem_join _ _ i hl (T8.fill_le hlen)⟩

theorem vcompress_ok (hv : s.vAccess [s.stag 1 a] [s.stag 0 d] = .ok u) :
    let w := T8.bytes y
    let A := fun i => vElem (8 * w) (u.vdata (s.stag 1 a)) i
    ∃ t data, exec (.vcompress d a p c y) s = .next t ∧
      VecResult u t (s.stag 0 d) data (u.vside (s.stag 0 d)) ⟨0, true, [s.stag 1 a, 32 + p], [s.stag 0 d]⟩ ∧
      ∀ i, i < 256 / w → vElem (8 * w) data i = (((List.range (256 / w)).filter fun j => u.active p c (w * j)).map A).getD i 0 := by
  intro w A
  have hl : (activeElems (u.active p c) w 0 ((List.range (256 / w)).map A)).map (·.2)
      = ((List.range (256 / w)).filter fun j => u.active p c (w * j)).map A := by
    rw [activeElems_eq, List.map_map]
    rfl
  have hlen : (((List.range (256 / w)).filter fun j => u.active p c (w * j)).map A).length ≤ 256 / w := by
    rw [List.length_map]
    exact (List.length_filter_le _ _).trans_eq List.length_range
  obtain ⟨t, data, ht, hr, he⟩ := wholeJoin_ok (y := y) (p := p) hb hq
    (fun s' l => (activeElems (s'.active p c) w 0 l).map (·.2)) hv hl (List.forall_mem_map.2 fun i _ => vElem_lt _ _ i) hlen
  exact ⟨t, data, ht, hr, fun i _ => he i⟩

theorem vexpand_ok (hv : s.vAccess [s.stag 1 a] [s.stag 0 d] = .ok u) :
    let w := T8.bytes y
    let A := fun i => vElem (8 * w) (u.vdata (s.stag 1 a)) i
    ∃ t data, exec (.vexpand d a p c y) s = .next t ∧
      VecResult u t (s.stag 0 d) data (u.vside (s.stag 0 d)) ⟨0, true, [s.stag 1 a, 32 + p], [s.stag 0 d]⟩ ∧
      ∀ i, i < 256 / w → vElem (8 * w) data i =
        if u.active p c (w * i) then A ((List.range i).filter fun j => u.active p c (w * j)).length else 0 := by
  intro w A
  have hl := expandElems_eq (u.active p c) w (256 / w) A
  obtain ⟨t, data, ht, hr, he⟩ := wholeJoin_ok (y := y) (p := p) hb hq (fun s' l => expandElems (s'.active p c) w 0 (256 / w) l) hv hl
    (List.forall_mem_map.2 fun i _ => expandedElem_lt (fun _ => vElem_lt _ _ _) i) (by simp [w])
  refine ⟨t, data, ht, hr, fun i hi => ?_⟩
  rw [he i, List.getD_eq_getElem _ _ (by simpa using hi), List.getElem_map, List.getElem_range]
  rfl

end

/-- Settles O23: the three permutes, each by its elements. -/
theorem vectorPermutes : Obligations.VectorPermutes := by
  intro s u d a b p c y w n vd hb hq A
  exact ⟨fun hv => vperm_ok hb hq hv, fun hv => ⟨vcompress_ok hb hq hv, vexpand_ok hb hq hv⟩⟩

/-! ## Extremes and sums (R130) -/

/-- The best element of a list with its index, or the value and the index of an empty one. -/
theorem extremeInt_spec {better : Int → Int → Bool} {le : Int → Int → Prop} (hb : ∀ x y, better x y = true ↔ ¬ le y x)
    (htot : ∀ x y, le x y ∨ le y x) (htr : ∀ x y z, le x y → le y z → le x z) (A : Nat → Int) (idle : Int) {l : List Nat}
    (hs : l.Pairwise (· < ·)) :
    let r := extremeInt better idle (l.map fun i => (i, A i))
    (l = [] ∧ r.1 = idle ∧ r.2 = 0xFFFFFFFF) ∨
      (r.2 ∈ l ∧ r.1 = A r.2 ∧ ∀ j ∈ l, le (A r.2) (A j) ∧ (j < r.2 → ¬ le (A j) (A r.2))) := by
  intro r
  by_cases hl : l = []
  · subst hl
    exact .inl ⟨rfl, rfl, rfl⟩
  · obtain ⟨k, hk, hbest, hleast⟩ := best_spec better le hb htot htr A l hs hl
    have hr : r = (A k, k) := by
      show extremeInt _ _ _ = _
      rw [extremeInt, hbest]
    rw [hr]
    exact .inr ⟨hk, rfl, hleast⟩

theorem leastInt_spec (A : Nat → Int) (idle : Int) {l : List Nat} (hs : l.Pairwise (· < ·)) :
    let r := extremeInt (fun x y => x < y) idle (l.map fun i => (i, A i))
    (l = [] ∧ r.1 = idle ∧ r.2 = 0xFFFFFFFF) ∨ (r.2 ∈ l ∧ r.1 = A r.2 ∧ ∀ j ∈ l, A r.2 ≤ A j ∧ (j < r.2 → A r.2 < A j)) := by
  simpa only [Int.not_le] using extremeInt_spec (better := fun x y => x < y) (le := (· ≤ ·)) (by simp) Int.le_total
    (fun _ _ _ => Int.le_trans) A idle hs

theorem greatestInt_spec (A : Nat → Int) (idle : Int) {l : List Nat} (hs : l.Pairwise (· < ·)) :
    let r := extremeInt (fun x y => y < x) idle (l.map fun i => (i, A i))
    (l = [] ∧ r.1 = idle ∧ r.2 = 0xFFFFFFFF) ∨ (r.2 ∈ l ∧ r.1 = A r.2 ∧ ∀ j ∈ l, A j ≤ A r.2 ∧ (j < r.2 → A j < A r.2)) := by
  simpa only [Int.not_le] using extremeInt_spec (better := fun x y => y < x) (le := fun x y => y ≤ x) (by simp)
    (fun x y => Int.le_total y x) (fun _ _ _ h h' => Int.le_trans h' h) A idle hs

/-- What `vredsum` folds over the active elements. -/
def sumInt (l : List (Nat × Int)) : Int × Nat := (l.foldl (fun n e => n + e.2) 0, 0)

theorem sumInt_spec (A : Nat → Int) (l : List Nat) :
    let r := sumInt (l.map fun i => (i, A i))
    r.1 = (l.map A).sum ∧ r.2 = 0 := by
  refine ⟨?_, rfl⟩
  simp only [sumInt, List.foldl_map, List.sum_eq_foldl]

/-- What `vredsum` computes from the active FP elements: one rounding of their exact sum. -/
def sumFp (f : Fmt) (rm : RM) (l : List (Nat × Nat)) : Nat × Flags :=
  roundWith f rm (sumNums (rm = .down) (l.map fun e => decodeFp f e.2))

/-- What a reduction to an extreme writes, with `arg` the index word too. -/
def extremeWord (f : Fmt) (arg : Bool) (better : Num → Num → Bool) (l : List (Nat × Nat)) : Nat × Flags :=
  ((extremeFp f better l).1 + (if arg then (extremeFp f better l).2.1 * 2 ^ 64 else 0), (extremeFp f better l).2.2)

/-! ## Reductions (R130) -/

section
variable {s u : State} {d a p : Nat} {c : Bool} (hb : s.bodyFits = .ok ()) (hq : s.queueRoom = true)
  (hv : s.vAccess [s.stag 1 a] [s.stag 0 d] = .ok u)
include hb hq hv

/-- An integer reduction applies its function to the active elements, read by the type, with their indices. -/
theorem reduceInt_ok (y : T8) (arg : Bool) (f : List (Nat × Int) → Int × Nat) :
    let w := T8.bytes y
    let A := fun i => readInt (T8.isSigned y) (8 * w) (vElem (8 * w) (u.vdata (s.stag 1 a)) i)
    let r := f (((List.range (256 / w)).filter fun i => u.active p c (w * i)).map fun i => (i, A i))
    ∃ t, s.reduceInt d a p c y arg f = .next t ∧
      VecResult u t (s.stag 0 d) (BitVec.ofNat 2048 (wrapInt 64 r.1 + arg.toNat * r.2 * 2 ^ 64)) (u.vside (s.stag 0 d))
        ⟨0, true, [s.stag 1 a, 32 + p], [s.stag 0 d]⟩ := by
  intro w A r
  obtain ⟨t, ht, hr⟩ := wholeT8_ok (y := y) (p := p) hb hq (fun s l =>
    let r := f ((activeElems (s.active p c) w 0 l).map fun e => (e.1, readInt (T8.isSigned y) (8 * w) e.2))
    (wrapInt 64 r.1 + (if arg then r.2 * 2 ^ 64 else 0), 0)) hv
  have hword : (if arg then r.2 * 2 ^ 64 else 0) = arg.toNat * r.2 * 2 ^ 64 := by cases arg <;> simp
  rw [activeElems_eq, List.map_map] at hr
  rw [← hword]
  exact ⟨t, ht, hr⟩

/-- A floating-point reduction computes its element from the active elements' codes with their indices. -/
theorem wholeFp_ok (y : FTy) (f : List (Nat × Nat) → Nat × Flags) :
    let w := FTy.bits y
    let acts := ((List.range (2048 / w)).filter fun i => u.active p c (w / 8 * i)).map fun i => (i, vElem w (u.vdata (s.stag 1 a)) i)
    ∃ t, finish s (s.wholeVector d a p (w / 8) fun s l => f (activeElems (s.active p c) (w / 8) 0 l)) = .next t ∧
      VecResult u t (s.stag 0 d) (BitVec.ofNat 2048 (f acts).1) (u.vside (s.stag 0 d))
        ⟨(f acts).2, true, [s.stag 1 a, 32 + p], [s.stag 0 d]⟩ := by
  have h := whole_ok s u d a p (FTy.bits y / 8) (fun s l => f (activeElems (s.active p c) (FTy.bits y / 8) 0 l)) hb hq hv
  simp only [activeElems_eq, FTy.bits_bytes] at h
  exact h

end

/-- Settles O24: a reduction's function on the active elements, and what the extremes are. -/
theorem vectorReductions : Obligations.VectorReductions := by
  refine ⟨fun s u d a p c y => ?_, fun s u d a p c y => ?_⟩
  · intro w vd hb hq hv A acts least greatest e he
    have hs : acts.Pairwise (· < ·) := range_filter_sorted _ _
    obtain ⟨f, arg, arm, harg, hspec⟩ : ∃ f arg, exec e.1 s = s.reduceInt d a p c y arg f ∧ arg.toNat = e.2.2 ∧
        e.2.1 (f (acts.map fun i => (i, A i))).1 (f (acts.map fun i => (i, A i))).2 := by
      simp only [List.mem_cons, List.not_mem_nil, or_false] at he
      rcases he with rfl | rfl | rfl | rfl | rfl
      · exact ⟨sumInt, false, rfl, rfl, sumInt_spec A acts⟩
      · exact ⟨extremeInt (fun x z => x < z) (maxInt (T8.isSigned y) (8 * w)), false, rfl, rfl, leastInt_spec A _ hs⟩
      · exact ⟨extremeInt (fun x z => z < x) (minInt (T8.isSigned y) (8 * w)), false, rfl, rfl, greatestInt_spec A _ hs⟩
      · exact ⟨extremeInt (fun x z => z < x) (minInt (T8.isSigned y) (8 * w)), true, rfl, rfl, greatestInt_spec A _ hs⟩
      · exact ⟨extremeInt (fun x z => x < z) (maxInt (T8.isSigned y) (8 * w)), true, rfl, rfl, leastInt_spec A _ hs⟩
    obtain ⟨t, ht, hr⟩ := reduceInt_ok (p := p) (c := c) hb hq hv y arg f
    rw [harg] at hr
    exact ⟨t, _, _, arm.trans ht, hspec, hr⟩
  · intro w vd hb hq hv acts sum low high e he
    obtain ⟨f, arm, hf⟩ : ∃ f : List (Nat × Nat) → Nat × Flags, exec e.1 s
        = finish s (s.wholeVector d a p (w / 8) fun s l => f (activeElems (s.active p c) (w / 8) 0 l)) ∧ f acts = e.2 := by
      simp only [List.mem_cons, List.not_mem_nil, or_false] at he
      rcases he with rfl | rfl | rfl | rfl | rfl
      · exact ⟨sumFp (FTy.fmt y) s.rm, rfl, rfl⟩
      · exact ⟨extremeWord (FTy.fmt y) false Num.ltz, rfl, rfl⟩
      · exact ⟨extremeWord (FTy.fmt y) false fun v z => z.ltz v, rfl, rfl⟩
      · exact ⟨extremeWord (FTy.fmt y) true fun v z => z.ltz v, rfl, rfl⟩
      · exact ⟨extremeWord (FTy.fmt y) true Num.ltz, rfl, rfl⟩
    rw [arm, ← hf]
    exact wholeFp_ok hb hq hv y f

end Sys2Proof.Machine
end

section
/-! Conversions between element formats: the converted elements of a register, and of a group of registers. -/

namespace Sys2Proof.Machine

open Sys2Proof

/-! ## Widths of a conversion's two sides (R131, R132) -/

theorem CvtPair.small_fill (k : CvtPair) : (CvtPair.small k).width * (2048 / (CvtPair.small k).width) = 2048 := by
  cases k <;> decide

theorem CvtPair.big_fill (k : CvtPair) : (CvtPair.big k).width * (2048 / (CvtPair.big k).width) = 2048 := by cases k <;> decide

/-- A group of the wider format holds as many elements as one register of the narrower. -/
theorem CvtPair.group_count (k : CvtPair) :
    (CvtPair.big k).width / (CvtPair.small k).width * (2048 / (CvtPair.big k).width) = 2048 / (CvtPair.small k).width := by
  cases k <;> decide

theorem CvtPair.group_le (k : CvtPair) : (CvtPair.big k).width / (CvtPair.small k).width ≤ 32 := by cases k <;> decide

/-! ## The conversions -/

/-- The body of a conversion from the narrower format, with a group of `r` registers (R131, R132). -/
def widenBody (s : State) (vd va p : Nat) (c : Bool) (lo : Kind) (hi : Fmt) (r : Nat) : Body :=
  s.vecBody (va :: groupRegs vd r) (groupRegs vd r) [p] [] fun s' =>
    let out := convertLanes (s'.active p c) lo.width (fun x => (Kind.fp hi).convert s.prefixOf (lo.value x)) 0
      (vElems lo.width (s'.vdata va)) (s'.groupElems hi.width vd r)
    (s'.setGroup hi.width vd r out.1, out.2)

/-- The body of a conversion to the narrower format, from a group of `r` registers (R131, R132). -/
def narrowBody (s : State) (vd va p : Nat) (c : Bool) (lo : Kind) (hi : Fmt) (r : Nat) : Body :=
  s.vecBody (vd :: groupRegs va r) [vd] [p] [] fun s' =>
    let out := convertLanes (s'.active p c) lo.width (fun x => lo.convert s.prefixOf (decodeFp hi x)) 0
      (s'.groupElems hi.width va r) (vElems lo.width (s'.vdata vd))
    (s'.setV vd (vJoin lo.width out.1) none, out.2)

theorem vcvt_widens (s : State) (d a p : Nat) (c : Bool) (k : CvtPair) :
    let r := (CvtPair.big k).width / (CvtPair.small k).width
    exec (.vcvt d a p c k true) s = finish s (do
      s.groupAligned (s.stag 0 d) r
      widenBody s (s.stag 0 d) (s.stag 1 a) p c (CvtPair.small k) (CvtPair.big k) r) := rfl

theorem vcvt_narrows (s : State) (d a p : Nat) (c : Bool) (k : CvtPair) :
    let r := (CvtPair.big k).width / (CvtPair.small k).width
    exec (.vcvt d a p c k false) s = finish s (do
      s.groupAligned (s.stag 1 a) r
      narrowBody s (s.stag 0 d) (s.stag 1 a) p c (CvtPair.small k) (CvtPair.big k) r) := rfl

theorem finish_misaligned (s : State) {n k : Nat} (h : n % k ≠ 0) (body : Body) :
    finish s (do s.groupAligned n k; body) = finish s (trapWith .illegal (s.insn.setWidth 64)) :=
  congrArg (finish s) (need_bind_trap (beq_eq_false_iff_ne.2 h) .illegal _ _)

section
variable {s u : State} {vd va p : Nat} {c : Bool} {lo : Kind} {hi : Fmt} {r : Nat} (hb : s.bodyFits = .ok ())
  (hq : s.queueRoom = true) (hcount : r * (2048 / hi.width) = 2048 / lo.width)
include hb hq hcount

theorem widenBody_ok (hv : s.vAccess (va :: groupRegs vd r) (groupRegs vd r) = .ok u) (hhi : hi.width * (2048 / hi.width) = 2048)
    (hr : r ≤ 32) :
    let n := 2048 / lo.width
    let act := fun i => u.active p c (i * lo.width / 8)
    let wide := fun i => vElem hi.width (u.vdata ((vd + i / (2048 / hi.width)) % 32)) (i % (2048 / hi.width))
    let new := fun i => (Kind.fp hi).convert s.prefixOf (lo.value (vElem lo.width (u.vdata va) i))
    ∃ t, finish s (widenBody s vd va p c lo hi r) = .next t ∧
      GroupResult u t hi.width vd r (fun i => if act i then (new i).1 % 2 ^ hi.width else wide i)
        ⟨flagsOf n fun i => if act i then (new i).2 else 0, true, va :: groupRegs vd r ++ [32 + p], groupRegs vd r⟩ := by
  intro n act wide new
  have hregs : groupRegs vd r ++ ([] : List Nat).map (32 + ·) = groupRegs vd r := List.append_nil _
  rw [widenBody, vecBody_ok s u _ _ _ _ _ hb hq hv, hregs]
  simp only [vElems_eq, groupElems_eq, hcount, convert_eq]
  refine ⟨_, rfl, group_ok u hi.width vd r _ _ _ hhi hr (by simp [hcount]) fun i hi => ?_⟩
  rw [hcount] at hi
  rw [List.getD_eq_getElem _ _ (by simpa using hi), List.getElem_map, List.getElem_range]
  split
  · rfl
  · exact Nat.mod_eq_of_lt (vElem_lt _ _ _)

theorem narrowBody_ok (hv : s.vAccess (vd :: groupRegs va r) [vd] = .ok u) (hlo : lo.width * (2048 / lo.width) = 2048) :
    let n := 2048 / lo.width
    let act := fun i => u.active p c (i * lo.width / 8)
    let wide := fun i => vElem hi.width (u.vdata ((va + i / (2048 / hi.width)) % 32)) (i % (2048 / hi.width))
    let new := fun i => lo.convert s.prefixOf (decodeFp hi (wide i))
    ∃ t data, finish s (narrowBody s vd va p c lo hi r) = .next t ∧
      VecResult u t vd data (u.vside vd)
        ⟨flagsOf n fun i => if act i then (new i).2 else 0, true, vd :: groupRegs va r ++ [32 + p], [vd]⟩ ∧
      ∀ i, i < n → vElem lo.width data i = if act i then (new i).1 % 2 ^ lo.width else vElem lo.width (u.vdata vd) i := by
  intro n act wide new
  rw [narrowBody, vecBody_ok s u _ _ _ _ _ hb hq hv]
  simp only [vElems_eq, groupElems_eq, hcount, convert_eq]
  refine ⟨_, _, rfl, vecResult_setV u vd _ none _, fun i hi => ?_⟩
  rw [vElem_vJoin_range _ _ _ i hi hlo.le]
  split
  · rfl
  · exact Nat.mod_eq_of_lt (vElem_lt _ _ _)

end

/-- Settles O25: the alignment of the group, and the elements that each body writes. -/
theorem vectorConversions : Obligations.VectorConversions := by
  intro s u d a p c k lo hi n r vd va act wide
  refine ⟨fun hr hb hq hv => ?_, fun hr hb hq hv => ?_, fun hr => ?_, fun hr => ?_⟩
  · rw [vcvt_widens, finish_aligned s vd r _ hr]
    exact widenBody_ok hb hq (CvtPair.group_count k) hv (CvtPair.big_fill k) (CvtPair.group_le k)
  · rw [vcvt_narrows, finish_aligned s va r _ hr]
    exact narrowBody_ok hb hq (CvtPair.group_count k) hv (CvtPair.small_fill k)
  · exact trap_ex s _ _ _ (by decide) (by decide) ((vcvt_widens s d a p c k).trans (finish_misaligned s hr _))
  · exact trap_ex s _ _ _ (by decide) (by decide) ((vcvt_narrows s d a p c k).trans (finish_misaligned s hr _))

end Sys2Proof.Machine
end

section
/-! Vector control: the broadcast, the repetition buffer, the count of pending vector work, and the wait for it. -/

namespace Sys2Proof.Machine

open Sys2Proof

/-! ## Vector work outside a body -/

/-- What joins the queue does not depend on what the executing context becomes. -/
theorem VecQueued.modMe {u s : State} {w : VecWork} (h : VecQueued u s w) (hc : s.cur = u.cur) (f : Ctx → Ctx) :
    VecQueued u (s.modMe f) w where
  queued := (State.core_queue_modMe s f s.cur.core).trans h.queued
  contexts i hi := (State.ctx_modMe_other s f (by rw [hc]; exact hi)).trans (h.contexts i hi)
  memory pa := h.memory pa

/-- Putting vector work into the queue, in a state that has changed only the executing context. -/
theorem vecQueued_enqueue {u s : State} (w : VecWork) (hc : s.cur = u.cur) (hx : ∀ i, i ≠ u.cur → s.ctx i = u.ctx i)
    (hq : s.myCore.queue = u.myCore.queue) (hm : ∀ pa, s.homeByte pa = u.homeByte pa) : VecQueued u (s.enqueue (.vector w)) w where
  queued := by
    rw [← hq, ← hc]
    simp only [State.enqueue, State.myCore, State.modCore_cur, State.core_modCore_same]
  contexts i hi := by
    rw [← hx i hi]
    simp only [State.enqueue, State.ctx, State.core_modCore]
    split
    · rename_i h; rw [h]; rfl
    · rfl
  memory := hm

/-- A vector register written by a committed vector instruction that is in no body. -/
theorem setV_enqueued (u : State) (d : Nat) (data : BitVec 2048) (w : VecWork) :
    let t := ((u.setV d data none).enqueue (.vector w)).advance
    t.me.vpair d = (data, u.vside d) ∧ (∀ n, n ≠ d → t.me.vpair n = u.me.vpair n) ∧
      t.me = { u.me with v := t.me.v, pc := u.pc + u.len } ∧ VecQueued u t w := by
  intro t
  obtain ⟨hme, hcur, hmods, hctx, hqueue, hmem⟩ := setV_frame u d data none
  have hlen : (u.setV d data none).len = u.len := by rw [State.len, State.len, hmods]
  have ht : t.me = { u.me with v := smSet u.me.v d (.resident data (u.vside d)), pc := u.pc + u.len } := by
    rw [← hlen]
    show ((State.enqueue _ _).modMe _).me = _
    rw [State.me_modMe, State.me_enqueue, hme]
    rfl
  refine ⟨?_, fun n hn => ?_, ?_, (vecQueued_enqueue w hcur hctx hqueue hmem).modMe hcur _⟩
  · rw [ht, Ctx.vpair, Ctx.vstate, smGet_smSet_same]
  · rw [ht]
    simp only [Ctx.vpair, Ctx.vstate, smGet_smSet_other _ hn]
  · rw [ht]

section
variable {s u : State} {d p : Nat} {c : Bool} (hq : s.queueRoom = true)
include hq

/-! ## `vdup` (R138) -/

theorem broadcast_ok (w v : Nat) (hv : s.vAccess [d] [d] = .ok u) :
    ∃ t data, s.broadcast d p c w v = .next t ∧ t.me.vpair d = (data, u.vside d) ∧
      (∀ n, n ≠ d → t.me.vpair n = u.me.vpair n) ∧ t.me = { u.me with v := t.me.v, pc := u.pc + u.len } ∧
      VecQueued u t ⟨0, true, [d, 32 + p], [d]⟩ ∧
      ∀ i, i < 256 / w → vElem (8 * w) data i
        = if u.active p c (w * i) then v % 2 ^ (8 * w) else vElem (8 * w) (u.vdata d) i := by
  have hn : 2048 / (8 * w) = 256 / w := Nat.mul_div_mul_left 256 w (Nat.zero_lt_succ 7)
  have hcopies : List.replicate (256 / w) (v % 2 ^ (8 * w)) = (List.range (256 / w)).map fun _ => v % 2 ^ (8 * w) := by
    rw [List.map_const', List.length_range]
  have hfill : 8 * w * (256 / w) ≤ 2048 := by
    have := Nat.mul_div_le 256 w
    rw [Nat.mul_assoc]
    omega
  simp only [State.broadcast, State.vecWork, bind, Except.bind, needRoom_ok hq, hv, vElems_eq, hn, hcopies, mapLanes_vectors]
  obtain ⟨hd, hothers, hctx, hqueue⟩ := setV_enqueued u d _ ⟨0, true, [d, 32 + p], [d]⟩
  refine ⟨_, _, rfl, hd, hothers, hctx, hqueue, fun i hi => ?_⟩
  rw [vElem_vJoin_range _ _ _ i hi hfill]
  split
  · exact Nat.mod_mod _ _
  · exact Nat.mod_eq_of_lt (vElem_lt _ _ _)

/-! ## `vrep` (R139) -/

/-- A COUNT of 0 skips the body (R139). -/
theorem vrep_skips {b : Nat} (h : bits (s.x b) 0 6 = 0) : exec (.vrep b) s = .next ((s.enqueue (.vector ⟨0, true, [], []⟩)).modMe
    fun x => { x with pc := s.pc + BitVec.ofNat 64 (8 + 4 * bits (s.x b) 8 4) }) := by
  have hpc : (s.enqueue (.vector ⟨0, true, [], []⟩)).pc = s.pc := congrArg Ctx.pc (State.me_enqueue s _)
  have hlen : 4 + 4 * (bits (s.x b) 8 4 + 1) = 8 + 4 * bits (s.x b) 8 4 := by omega
  show execVrep b s = _
  simp only [execVrep, needRoom_ok hq, bind, Except.bind, if_pos h, finish, hlen, hpc]
  rfl

theorem vrep_loads {b : Nat} (h : bits (s.x b) 0 6 ≠ 0) : exec (.vrep b) s = .next ((s.enqueue (.vector ⟨0, true, [], []⟩)).modMe
    fun x => { x with vrep := vrepLoad (s.x b), pc := x.pc + s.len }) := by
  show execVrep b s = _
  simp only [execVrep, needRoom_ok hq, bind, Except.bind, if_neg h, finish, State.advance, State.modMe_modMe]
  rfl

end

theorem vrepLoad_toNat (v : Word) :
    (vrepLoad v).toNat = bits v 0 6 + bits v 8 4 * 2 ^ 8 + bits v 16 5 * 2 ^ 16 + bits v 24 3 * 2 ^ 24 + 2 ^ 32 := by
  have h0 := bits_lt v 0 6
  have h8 := bits_lt v 8 4
  have h16 := bits_lt v 16 5
  have h24 := bits_lt v 24 3
  rw [vrepLoad, word, BitVec.toNat_ofNat]
  exact Nat.mod_eq_of_lt (by omega)

/-- The fields of VREP as `vrep` loads it (R139). -/
theorem vrepLoad_fields (v : Word) :
    (vrepLoad v).getLsbD 32 = true ∧ bits (vrepLoad v) 0 6 = bits v 0 6 ∧ bits (vrepLoad v) 8 4 = bits v 8 4 ∧
      bits (vrepLoad v) 16 5 = bits v 16 5 ∧ bits (vrepLoad v) 24 3 = bits v 24 3 ∧ bits (vrepLoad v) 40 6 = 0 ∧
      bits (vrepLoad v) 48 4 = 0 := by
  have h0 := bits_lt v 0 6
  have h8 := bits_lt v 8 4
  have h16 := bits_lt v 16 5
  have h24 := bits_lt v 24 3
  have e := vrepLoad_toNat v
  have hfield : ∀ lo n, bits (vrepLoad v) lo n = (vrepLoad v).toNat / 2 ^ lo % 2 ^ n := fun _ _ => rfl
  rw [BitVec.getLsbD, Nat.testBit_eq_decide_div_mod_eq, decide_eq_true_iff]
  simp only [hfield, e]
  generalize bits v 0 6 = count at *
  generalize bits v 8 4 = len at *
  generalize bits v 16 5 = stride at *
  generalize bits v 24 3 = mask at *
  refine ⟨?_, ?_, ?_, ?_, ?_, ?_, ?_⟩ <;> omega

/-- What `vrep` leaves, by its operand's COUNT (R139). -/
theorem vrep_ok {s : State} (hq : s.queueRoom = true) (b : Nat) : ∃ t, exec (.vrep b) s = .next t ∧ VecQueued s t ⟨0, true, [], []⟩ ∧
    (bits (s.x b) 0 6 = 0 → t.me = { s.me with pc := s.pc + BitVec.ofNat 64 (8 + 4 * bits (s.x b) 8 4) }) ∧
    (bits (s.x b) 0 6 ≠ 0 → t.me = { s.me with pc := s.pc + s.len, vrep := t.me.vrep } ∧ t.me.repActive = true ∧
      bits t.me.vrep 0 6 = bits (s.x b) 0 6 ∧ bits t.me.vrep 8 4 = bits (s.x b) 8 4 ∧ bits t.me.vrep 16 5 = bits (s.x b) 16 5 ∧
      bits t.me.vrep 24 3 = bits (s.x b) 24 3 ∧ bits t.me.vrep 40 6 = 0 ∧ bits t.me.vrep 48 4 = 0) := by
  have hwork : VecQueued s (s.enqueue (.vector ⟨0, true, [], []⟩)) ⟨0, true, [], []⟩ :=
    vecQueued_enqueue _ rfl (fun _ _ => rfl) rfl fun _ => rfl
  by_cases h : bits (s.x b) 0 6 = 0
  · refine ⟨_, vrep_skips hq h, hwork.modMe rfl _, fun _ => ?_, fun h' => absurd h h'⟩
    rw [State.me_modMe, State.me_enqueue]
  · refine ⟨_, vrep_loads hq h, hwork.modMe rfl _, fun h' => absurd h' h, fun _ => ?_⟩
    rw [State.me_modMe, State.me_enqueue]
    exact ⟨rfl, vrepLoad_fields _⟩

/-! ## `vbusy` and `vfence` (R141) -/

theorem vbusy_counts {s : State} {d : Nat} (hd : s.me.canWrite d = true) (hq : s.queueRoom = true) :
    exec (.vbusy d) s
      = .next ((s.setX d (BitVec.ofNat 64 (s.pendingVector s.cur.core s.cur.ctx))).advance.enqueueUnit true) := by
  rw [← enqueueUnit_advance]
  show finish s (s.destX d >>= fun _ => s.needRoom >>= _) = _
  rw [State.destX, need_bind_ok hd, needRoom_ok hq]
  rfl

/-- A context that waits to run its instruction again (R22): nothing else changes. -/
theorem waitRetry_spec (s g : State) (hg : g.me = s.me) {i : Instr} (h : exec i s = finish s (waitRetry g)) :
    ∃ t, exec i s = .next t ∧ t.me = { s.me with wait := .retry } ∧ OnlyContext g t :=
  ⟨_, h, (State.me_modMe g _).trans (by rw [hg]), onlyContext_modMe g _⟩

theorem State.me_holdHead (s : State) (op : QMem) : (s.holdHead op).me = s.me := by
  simp only [State.holdHead, State.me, State.ctx, State.modCore_cur, State.core_modCore_same]
  rfl

theorem AtHead.next_pc {s h : State} (hh : AtHead s h) : h.pc + h.len = s.pc + s.len := by
  have hlen : h.len = s.len := by
    rcases hh with ⟨-, rfl⟩ | ⟨e, rest, -, -, rfl⟩ <;> rfl
  rw [State.pc, (head_rest s h hh).1, hlen]
  rfl

section
variable {s h : State} (hh : AtHead s h)
include hh

theorem vfence_atHead : exec .vfence s
    = finish s (if h.pendingVector s.cur.core s.cur.ctx = 0 then .ok h.advance else waitRetry (h.holdHead .vfence)) := by
  rw [← (head_rest s h hh).2]
  exact congrArg (finish s) (fromHead_ok s h .vfence vfenceBody hh)

theorem vfence_goesOn (h0 : h.pendingVector s.cur.core s.cur.ctx = 0) :
    ∃ t, exec .vfence s = .next t ∧ GoesTo h t (s.pc + s.len) := by
  rw [vfence_atHead hh, if_pos h0]
  refine ⟨_, rfl, ?_⟩
  rw [State.advance_eq_setPc, hh.next_pc]
  exact goesTo_setPc h _

theorem vfence_waits (h0 : h.pendingVector s.cur.core s.cur.ctx ≠ 0) :
    ∃ t, exec .vfence s = .next t ∧ t.me = { s.me with wait := .retry } ∧ OnlyContext (h.holdHead .vfence) t :=
  waitRetry_spec s _ ((State.me_holdHead h .vfence).trans (head_rest s h hh).1) (by rw [vfence_atHead hh, if_neg h0])

end

/-- A `vfence` that is not at the head of the queue puts its entry in once (R23). -/
theorem vfence_dispatched {s : State} (hq : s.queueRoom = true) (hne : s.myCore.queue ≠ [])
    (hmem : ∀ e ∈ s.myCore.queue, e.isMemoryOf s.cur.ctx = false) :
    exec .vfence s = finish s (waitRetry (s.enqueue (.memory .vfence false))) := by
  obtain ⟨e, rest, he⟩ := List.exists_cons_of_ne_nil hne
  have hhead : e.isMemoryOf s.cur.ctx = false := hmem e (by simp [he])
  have hnone : s.myCore.queue.any (QEntry.isMemoryOf s.cur.ctx) = false := List.any_eq_false.2 fun e he => by simp [hmem e he]
  have hfrom : s.fromHead .vfence vfenceBody = s.dispatchHead .vfence := by simp only [State.fromHead, he, hhead, Bool.false_eq_true, if_false]
  have hdispatch : s.dispatchHead .vfence = waitRetry (s.enqueue (.memory .vfence false)) := by
    simp only [State.dispatchHead, hq, hnone, Bool.not_false, Bool.and_self, if_true]
  show finish s (s.fromHead .vfence vfenceBody) = _
  rw [hfrom, hdispatch]

/-- Settles O27: each instruction by its rule; `vfence` works from the head of the queue, or waits there. -/
theorem vectorControl : Obligations.VectorControl := by
  intro s u d b p c y z
  refine ⟨fun hq hv e he => ?_, fun hq => ?_, fun hd hq => ?_, fun h hh => ⟨fun h0 => ?_, fun h0 => ?_⟩, fun hq hne hmem => ?_⟩
  · have arm : exec e.1 s = s.broadcast d p c e.2.1 e.2.2 := by
      simp only [List.mem_cons, List.not_mem_nil, or_false] at he
      rcases he with rfl | rfl <;> rfl
    rw [arm]
    exact broadcast_ok hq e.2.1 e.2.2 hv
  · exact vrep_ok hq b
  · refine ⟨_, vbusy_counts hd hq, ?_⟩
    rw [State.setX_advance]
    exact xWritten_setX s d _ _
  · exact vfence_goesOn hh h0
  · exact vfence_waits hh h0
  · exact waitRetry_spec s _ (State.me_enqueue s _) (vfence_dispatched hq hne hmem)

end Sys2Proof.Machine
end

section
/-! Combining and drawing: the 64 elements that the instructions of major 0x39 compute. -/

namespace Sys2Proof.Machine

open Sys2Proof

/-! ## The 64 elements -/

theorem elements64_eq (s : State) (p : Nat) (c : Bool) (idle : Nat) (f : Nat → Nat × Flags) :
    s.elements64 p c idle f = ((List.range 64).map fun j => if s.active p c (4 * j) then (f j).1 else idle,
      flagsOf 64 fun j => if s.active p c (4 * j) then (f j).2 else 0) := by
  simp only [State.elements64, ← flagsOf_foldl, List.map_map, List.foldl_map, Function.comp_def, apply_ite Prod.fst, apply_ite Prod.snd]

/-- A body that writes 64 FP32 elements: the active ones computed, the others a constant. -/
def elementsBody (s : State) (regs : List Nat) (vd p : Nat) (c : Bool) (idle : Nat) (f : State → Nat → Nat × Flags) : Body :=
  s.vecBody regs [vd] [p] [] fun s' =>
    let r := s'.elements64 p c idle (f s')
    (s'.setV vd (vJoin 32 r.1) none, r.2)

theorem elementsBody_ok {s u : State} {regs : List Nat} {vd p : Nat} {c : Bool} {idle : Nat} (f : State → Nat → Nat × Flags)
    (hidle : idle < 2 ^ 32) (hb : s.bodyFits = .ok ()) (hq : s.queueRoom = true) (hv : s.vAccess regs [vd] = .ok u) :
    ∃ t data, finish s (elementsBody s regs vd p c idle f) = .next t ∧
      VecResult u t vd data (u.vside vd)
        ⟨flagsOf 64 fun j => if u.active p c (4 * j) then (f u j).2 else 0, true, regs ++ [32 + p], [vd]⟩ ∧
      ∀ j, j < 64 → vElem 32 data j = if u.active p c (4 * j) then (f u j).1 % 2 ^ 32 else idle := by
  rw [elementsBody, vecBody_ok s u _ _ _ _ _ hb hq hv]
  simp only [elements64_eq]
  refine ⟨_, _, rfl, vecResult_setV u vd _ none _, fun j hj => ?_⟩
  rw [vElem_vJoin_range _ _ _ j hj (by decide)]
  split
  · rfl
  · exact Nat.mod_eq_of_lt hidle

/-! ## The instructions (R341, R342) -/

/-- Element `i` of `ccomb` (R341). -/
def combinedElement (x : Combine) (va vb : Nat) (s : State) (i : Nat) : Nat × Flags :=
  let aux := s.vdata ((vb + 1) % 32)
  x.element ⟨auxBase aux + i, x.read.map fun m => (m, elem32 (s.vdata ((va + m) % 32)) i), aux.getLsbD i, elem32 (s.vdata vb) i, x.filterAt aux⟩

/-- The draw of an element from the aux register (R342). -/
def drawnHash (x : Combine) (vb : Nat) (s : State) (i : Nat) : Nat :=
  drawHash x.cseed (x.catchN + auxPos (s.vdata vb)) (auxBase (s.vdata vb) + i)

/-- Element `i` of `gnoise` (R342). -/
def perturbedElement (x : Combine) (va vb vd : Nat) (s : State) (i : Nat) : Nat × Flags :=
  x.noisy (drawnHash x vb s i) (elem32 (s.vdata va) i) (elem32 (s.vdata vd) i)

/-- Element `i` of `gnoise.u` (R342). -/
def drawnElement (x : Combine) (vb : Nat) (s : State) (i : Nat) : Nat × Flags := (uniform (drawnHash x vb s i), 0)

section
variable {s : State} {d a b p : Nat} {c : Bool} (hx : s.me.combine.valid = true)
include hx

theorem ccomb_combines (ha : s.stag 1 a % 8 = 0) (hb : s.stag 2 b % 2 = 0) :
    exec (.ccomb d a b p c) s = finish s (elementsBody s (s.me.combine.read.map (fun m => (s.stag 1 a + m) % 32) ++
      [s.stag 2 b, (s.stag 2 b + 1) % 32]) (s.stag 0 d) p c 0xFF800000 (combinedElement s.me.combine (s.stag 1 a) (s.stag 2 b))) := by
  show finish s (need _ _ >>= fun _ => _) = _
  rw [need_bind_ok (by simp [ha, hb, hx])]
  rfl

theorem gnoise_perturbs : exec (.gnoise d a b p c) s = finish s (elementsBody s [s.stag 1 a, s.stag 2 b, s.stag 0 d] (s.stag 0 d) p c
    0xFF800000 (perturbedElement s.me.combine (s.stag 1 a) (s.stag 2 b) (s.stag 0 d))) := by
  show finish s (need _ _ >>= fun _ => _) = _
  rw [need_bind_ok hx]
  rfl

theorem gnoiseU_draws : exec (.gnoiseU d b p c) s = finish s (elementsBody s [s.stag 2 b] (s.stag 0 d) p c 0
    (drawnElement s.me.combine (s.stag 2 b))) := by
  show finish s (need _ _ >>= fun _ => _) = _
  rw [need_bind_ok hx]
  rfl

end

theorem ccomb_misaligned (s : State) (d a b p : Nat) (c : Bool) (h : s.stag 1 a % 8 ≠ 0 ∨ s.stag 2 b % 2 ≠ 0) :
    exec (.ccomb d a b p c) s = finish s (trapWith .illegal (s.insn.setWidth 64)) := by
  refine congrArg (finish s) (need_bind_trap ?_ .illegal _ _)
  rcases h with h | h <;> simp [h]

/-- Settles O43: each instruction's body computes its 64 elements, and `ccomb` checks its groups before it. -/
theorem combiningVectors : Obligations.CombiningVectors := by
  intro s u d a b p c hb hq hx x vd va vb lane draws out
  refine ⟨fun ha2 hb2 hv => ?_, fun h => ?_, fun hv => ?_, fun hv => ?_⟩
  · rw [ccomb_combines hx ha2 hb2]
    have h := elementsBody_ok (p := p) (c := c) (combinedElement x va vb) (show 0xFF800000 < 2 ^ 32 by decide) hb hq hv
    simp only [combinedElement, elem32_eq] at h
    exact h
  · exact trap_ex s _ _ _ (by decide) (by decide) (ccomb_misaligned s d a b p c h)
  · rw [gnoise_perturbs hx]
    have h := elementsBody_ok (p := p) (c := c) (perturbedElement x va vb vd) (show 0xFF800000 < 2 ^ 32 by decide) hb hq hv
    simp only [perturbedElement, elem32_eq] at h
    exact h
  · rw [gnoiseU_draws hx]
    exact elementsBody_ok (drawnElement x vb) (by decide) hb hq hv

end Sys2Proof.Machine
end

section
/-! Memory wear and errors: the heat counters, the retirement of pages, and the errors of cores, slots, lines and expanders. -/

namespace Sys2Proof.Machine

open Sys2Proof

/-- Contexts and memory read as before where cores, memory and counted lines stand. -/
theorem onlyCtxs_of_eq {s t : State} (hc : t.cores = s.cores) (hm : t.mem = s.mem) (hl : t.lines = s.lines) : OnlyCtxs s t [] :=
  ⟨fun i _ => by simp only [State.ctx, State.core, hc], homeByte_of_eq hm hl⟩

/-! ## Heat counters (R182) -/

theorem heatCounterIncrement_idle {s : State} {page : Nat} (h : s.heatDue.contains page = false) :
    exec (.heatCounterIncrement page) s = .next s := by
  show Host.Outcome.next (if s.heatDue.contains page then _ else _) = _
  rw [h]; rfl

theorem saturated_succ (v : Byte) :
    BitVec.ofNat 8 (if v.toNat = 255 then 255 else v.toNat + 1) = BitVec.ofNat 8 (min 255 (v.toNat + 1)) := by
  have := v.isLt
  congr 1
  split <;> omega

theorem heatCounterIncrement_due {s : State} {page : Nat} (h : s.heatDue.contains page = true) :
    exec (.heatCounterIncrement page) s = .next { s.writeRaw (heatAddr (page * 65536))
      (BitVec.ofNat 8 (min 255 ((s.homeByte (heatAddr (page * 65536))).toNat + 1))) with heatDue := s.heatDue.erase page } := by
  show Host.Outcome.next (if s.heatDue.contains page then _ else _) = _
  rw [h, ← saturated_succ]; rfl

/-! ## Retirement of pages (R184) -/

/-- What the retirement of a page leaves: its entry in the record, its bit in the map, and everything else as it was. -/
structure Retires (s t : State) (page : Nat) (corrected : Bool) : Prop where
  record : t.retired = if s.retired.length < 65536 then s.retired ++ [⟨page, corrected, s.powerCycle⟩] else s.retired
  marked : t.isRetired page = true
  others : ∀ pg, pg ≠ page → t.isRetired pg = s.isRetired pg
  corrected : t.corrected = s.corrected
  dead : ∀ pg, pg ≠ page → (pg ∈ t.dead ↔ pg ∈ s.dead)
  contexts : ∀ i, t.ctx i = s.ctx i
  memory : ∀ pa, pa ≠ retiredByte page → t.homeByte pa = s.homeByte pa

/-- A page is retired once (log entry 83). -/
theorem retire_retired {s : State} {page : Nat} (b : Bool) (h : s.isRetired page = true) : s.retire page b = s := by
  rw [State.retire, if_pos h]

theorem retire_spec (s : State) (page : Nat) (b : Bool) (h : s.isRetired page = false) :
    ∃ p c x w e, s.retire page b = { s with
      retired := if s.retired.length < 65536 then s.retired ++ [⟨page, b, s.powerCycle⟩] else s.retired
      mem := s.mem.set (retiredByte page) (s.mem.get (retiredByte page) ||| BitVec.ofNat 8 (2 ^ (page % 8)))
      parts := p, clusters := c, texts := x, health := w, events := e } := by
  have hr : ∀ r, ∃ p c x w e, (({ s with retired := r } : State).markRetired page).updateHealth = { s with
      retired := r
      mem := s.mem.set (retiredByte page) (s.mem.get (retiredByte page) ||| BitVec.ofNat 8 (2 ^ (page % 8)))
      parts := p, clusters := c, texts := x, health := w, events := e } := fun r => by
    obtain ⟨w, e, hh⟩ := health_frame (({ s with retired := r } : State).markRetired page)
    obtain ⟨p, c, x, hw⟩ := ({ s with retired := r } : State).writeRaw_spec (retiredByte page)
      (s.mem.get (retiredByte page) ||| BitVec.ofNat 8 (2 ^ (page % 8)))
    exact ⟨p, c, x, w, e, by rw [hh, State.markRetired, hw]⟩
  rw [State.retire, if_neg (by simp [h])]
  split <;> exact hr _

theorem retires_retire {s : State} {page : Nat} (b : Bool) (hw : MemoryCanonical s) (h : s.isRetired page = false) :
    Retires s (s.retire page b) page b := by
  obtain ⟨p, c, x, w, e, ht⟩ := retire_spec s page b h
  obtain ⟨marked, others⟩ := retired_bits s (s.retire page b) page (by rw [ht]) hw
  refine ⟨by rw [ht], marked, others, by rw [ht], fun pg _ => by rw [ht], fun i => by rw [ht]; rfl, fun pa hp => ?_⟩
  rw [ht]
  unfold State.homeByte
  dsimp only
  rw [Memory.get_set hw, if_neg hp]

/-- What is found of the retired page's own rows changes nothing else (R184). -/
theorem Retires.withDead {s t : State} {page : Nat} {b : Bool} (h : Retires s t page b) {d : List Nat} (k : Nat)
    (hd : ∀ pg, pg ≠ page → (pg ∈ d ↔ pg ∈ s.dead)) : Retires s { t with dead := d, freeIdx := k } page b :=
  ⟨h.record, h.marked, h.others, h.corrected, hd, h.contexts, h.memory⟩

theorem retire_dead (s : State) (page : Nat) (b : Bool) : (s.retire page b).dead = s.dead := by
  cases h : s.isRetired page with
  | true => rw [retire_retired b h]
  | false => obtain ⟨_, _, _, _, _, ht⟩ := retire_spec s page b h; rw [ht]

/-- The event retires its page; of the pages whose rows fail only its own may change. -/
theorem hbmPageRetirement_retires (s : State) (page : Nat) (b : Bool) :
    ∃ d k, exec (.hbmPageRetirement page b) s = .next { s.retire page b with dead := d, freeIdx := k } ∧
      ∀ pg, pg ≠ page → (pg ∈ d ↔ pg ∈ s.dead) := by
  cases hf : !b && Config.freeBool s.freeIdx with
  | true =>
    refine ⟨page :: (s.retire page b).dead.erase page, (s.retire page b).freeIdx + 1, ?_, fun pg hp => ?_⟩
    · show Host.Outcome.next (if !b && Config.freeBool s.freeIdx then _ else _) = _
      rw [hf]; rfl
    · rw [retire_dead, List.mem_cons, List.mem_erase_of_ne hp, or_iff_right hp]
  | false =>
    refine ⟨(s.retire page b).dead, (s.retire page b).freeIdx + 1, ?_, fun pg _ => by rw [retire_dead]⟩
    show Host.Outcome.next (if !b && Config.freeBool s.freeIdx then _ else _) = _
    rw [hf]; rfl

/-- One more corrected error counted for a row of a page. -/
def State.errorCounted (s : State) (page row : Nat) : State :=
  { s with corrected := smSet s.corrected (page * 65536 + row) (smGet s.corrected (page * 65536 + row) 0 + 1) }

section
variable {s : State} {page row : Nat}

theorem hbmCorrectedError_counts (h : smGet s.corrected (page * 65536 + row) 0 + 1 < 3) :
    exec (.hbmCorrectedError page row) s = .next (s.errorCounted page row) :=
  congrArg Host.Outcome.next (if_neg (Nat.not_le.2 h))

theorem hbmCorrectedError_third (h : 3 ≤ smGet s.corrected (page * 65536 + row) 0 + 1) :
    exec (.hbmCorrectedError page row) s = .next ((s.errorCounted page row).retire page true) :=
  congrArg Host.Outcome.next (if_pos h)

end

/-! ## Errors of a core of a partition (R387, R397), by the numbers of log entry 114 -/

section
variable {s : State} {core : Nat} (hp : (s.core core).inPart = true)
include hp

theorem partOf_inPart : s.partOf core = some (s.core core).partid := by rw [State.partOf, if_pos hp]

theorem uncorrectable_control : exec (.uncorrectableCoreError core 0) s = .next (s.ring (s.core core).partid 3) := by
  show Host.Outcome.next (match s.partOf core with | none => _ | some p => _) = _
  rw [partOf_inPart hp]; rfl

theorem uncorrectable_helper {k : Nat} (h1 : 1 ≤ k) (h10 : k ≤ 10) (hg : s.groupOf ⟨core, k⟩ = none) (hm : s.stepMode core = false) :
    exec (.uncorrectableCoreError core k) s = .next (s.coreError core) := by
  have ho : s.errorOverride ⟨core, k⟩ = (s, false) := by
    simp only [State.errorOverride, hg, hm, Bool.false_eq_true, if_false]
  show Host.Outcome.next (if k = 12 then _ else _) = _
  rw [if_neg (by omega), if_neg (by omega), if_neg (by omega), partOf_inPart hp]
  simp only [show k ≠ 0 by omega, show ¬10 < k by omega, h10, ho, decide_false, Bool.false_and, Bool.false_eq_true, if_true, if_false]

/-- An error that belongs to no context concerns every restartable slice of the core (log entry 72). -/
theorem uncorrectable_elsewhere (hr : s.restartables core ≠ []) :
    exec (.uncorrectableCoreError core 11) s
      = .next ((s.restartables core).foldl (fun s g => s.pushMove (.event (.sliceReexecution core g))) s) := by
  show Host.Outcome.next (match s.partOf core with | none => _ | some p => _) = _
  rw [partOf_inPart hp]
  simp [hr]

end

/-- Moves put before the others, one after another. -/
theorem pushMoves_eq (m : Nat → Move) (l : List Nat) (s : State) :
    l.foldl (fun s g => s.pushMove (m g)) s = { s with agenda := (l.map m).reverse ++ s.agenda } := by
  induction l generalizing s with
  | nil => rfl
  | cons g l ih => rw [List.foldl_cons, ih]; simp [State.pushMove]

/-! ## Errors of slots and lines (R152, R387) -/

theorem uncorrectable_slot (s : State) (core : Nat) {k : Nat} (h : k < 16) :
    exec (.uncorrectableCoreError core (16 + k)) s = .next (s.failSlot (clusterOf core) k) := by
  show Host.Outcome.next (if 16 + k = 12 then _ else _) = _
  rw [if_neg (by omega), if_neg (by omega), if_pos (by omega), Nat.add_sub_cancel_left]

theorem uncorrectable_line (s : State) (core line : Nat) :
    exec (.uncorrectableCoreError core (32 + line)) s = .next (s.failLine line) := by
  show Host.Outcome.next (if 32 + line = 12 then _ else _) = _
  rw [if_neg (by omega), if_pos (by omega), Nat.add_sub_cancel_left]

theorem slot_failSlot (s : State) (cl k j : Nat) : ((s.failSlot cl k).cluster cl).slot j =
    if j = k then ((s.cluster cl).slot k).failed s.freeIdx else (s.cluster cl).slot j := by
  rw [State.failSlot, State.cluster_modCluster_same]
  exact smGet_smSet _ _ _ _ _

theorem err_failed (x : Slot) (k : Nat) : (x.failed k).err = true := getLsbD_putBits x.status 10 1 1 10 (by decide)

theorem smHas_smErase_same {α : Type} (m : SMap α) (k : Nat) : smHas (smErase m k) k = false := by
  simp [smHas, smErase]

theorem dropL2_drops (s : State) (line : Nat) : smHas (s.dropL2 line).l2 line = false := by
  unfold State.dropL2
  split
  · rename_i h
    simpa only [smHas, List.any_eq_false] using List.find?_eq_none.1 h
  · exact smHas_smErase_same _ _

/-- A line that a slice holds is dropped and its data become unreadable. -/
theorem failLine_spec {s : State} {line : Nat} (h : smHas s.l2 line = true) :
    OnlyCtxs s (s.failLine line) [] ∧ smHas (s.failLine line).l2 line = false ∧ (s.failLine line).poison.contains line = true ∧
      ∀ l, l ≠ line → (l ∈ (s.failLine line).poison ↔ l ∈ s.poison) := by
  obtain ⟨m, d, hd⟩ := s.dropL2_spec line
  rw [State.failLine, if_pos h]
  refine ⟨onlyCtxs_of_eq ?_ ?_ ?_, dropL2_drops s line, by simp, fun l hl => ?_⟩
  · rw [hd]
  · rw [hd]
  · rw [hd]
  · rw [List.mem_cons, List.mem_erase_of_ne hl, or_iff_right hl]

/-! ## Links to expanders (R412) -/

/-- The entries of a table after a change of those at one key. -/
theorem mem_map_entry {α : Type} (m : SMap α) (k : Nat) (f : α → α) (d : Nat) (x : α) :
    (d, x) ∈ m.map (fun e => if e.1 = k then (e.1, f e.2) else e) ↔ ∃ y, (d, y) ∈ m ∧ x = if d = k then f y else y := by
  have he : ∀ e : Nat × α, (if e.1 = k then (e.1, f e.2) else e) = (e.1, if e.1 = k then f e.2 else e.2) := fun e => by
    split <;> rfl
  simp only [he, List.mem_map, Prod.exists, Prod.mk.injEq]
  constructor
  · rintro ⟨d', y, hy, rfl, rfl⟩
    exact ⟨y, hy, rfl⟩
  · rintro ⟨y, hy, rfl⟩
    exact ⟨d, y, hy, rfl, rfl⟩

/-- Settles O46: the outcome of each event (log entries 72, 83 and 114), and what it leaves unchanged. -/
theorem wearAndErrors : Obligations.WearAndErrors := by
  intro s page row core k e line b hw a n put
  refine ⟨heatCounterIncrement_idle, fun hd hl => ?heat, fun hr => ?retire, fun hr => ?retired, hbmCorrectedError_counts,
    fun hn hr => ?third, fun hp => ⟨?control, fun h1 h10 hg hm => ?helper, fun hr => ?elsewhere⟩, ?management,
    fun hk => ?slot, fun hl => ⟨_, uncorrectable_line s core line, failLine_spec hl⟩, ?expander⟩
  case heat =>
    refine ⟨_, heatCounterIncrement_due hd, rfl, fun i => ?_, fun pa => ?_⟩
    · obtain ⟨p, c, x, h⟩ := s.writeRaw_spec a (BitVec.ofNat 8 (min 255 ((s.homeByte a).toNat + 1)))
      rw [h]; rfl
    · exact (homeByte_set s a _ hw pa).trans (by simp only [a, hl, and_true])
  case retire =>
    obtain ⟨d, i, he, hd⟩ := hbmPageRetirement_retires s page b
    have h := (retires_retire b hw hr).withDead i hd
    exact ⟨_, he, h.record, h.marked, h.others, h.corrected, h.dead, h.contexts, h.memory⟩
  case retired =>
    obtain ⟨d, i, he, hd⟩ := hbmPageRetirement_retires s page b
    rw [retire_retired b hr] at he
    exact ⟨_, he, rfl, rfl, hd, fun _ => rfl⟩
  case third =>
    have h := retires_retire (s := s.errorCounted page row) true hw hr
    exact ⟨_, hbmCorrectedError_third hn, h.record, h.marked, h.others, h.corrected, h.dead, h.contexts, h.memory⟩
  case control => exact ⟨_, uncorrectable_control hp, onlyCtxs_of_eq rfl rfl rfl, fun hs hb => ring_clear _ _ _ ⟨hs, hb⟩⟩
  case helper => exact ⟨_, uncorrectable_helper hp h1 h10 hg hm, raise_control _ _ _ _ _⟩
  case elsewhere =>
    refine ⟨_, uncorrectable_elsewhere hp hr, ?_, fun g hg => ?_⟩ <;> rw [pushMoves_eq fun g => .event (.sliceReexecution core g)]
    · exact onlyCtxs_of_eq rfl rfl rfl
    · exact List.mem_append_left _ (List.mem_reverse.2 (List.mem_map_of_mem hg))
  case management => exact ⟨s.report ⟨3, none, 0, none⟩, rfl, onlyCtxs_of_eq rfl rfl rfl, rfl⟩
  case slot =>
    refine ⟨_, uncorrectable_slot s core hk, onlyCtxs_of_eq rfl rfl rfl, ?_⟩
    simp only [slot_failSlot, if_true]
    exact ⟨err_failed _ _, rfl, rfl, fun j hj => by rw [if_neg hj]⟩
  case expander => exact ⟨_, rfl, onlyCtxs_of_eq rfl rfl rfl, mem_map_entry s.expanders e fun y => { y with up := false }⟩

end Sys2Proof.Machine
end

section
/-! Scalar loads and stores: what another device's answer leaves, and each instruction as its access and what follows it. -/

namespace Sys2Proof.Machine

open Sys2Proof

/-! ## Another device's answer (R351, R358, log entry 113) -/

/-- A request to a device that nothing answers beforehand is answered when the device answers, which is a free value. -/
theorem awaitAnswer_remote {s : State} {rq : Req} {k : Acc} {ea : Word} {x : Xlat} {dev : Nat} (hx : s.translate rq k ea.toNat = .ok x)
    (hr : regionOf x.pa = .remote dev) (hg : s.me.pairGo = false) (hp : rq.pure = none)
    (hd : (s.reqPart rq).peerDown.contains dev = false) :
    s.awaitAnswer rq k ea = if Config.freeBool s.freeIdx then .ok (s.heardFrom dev) else .error (.wait (s.sendTo dev)) := by
  simp only [State.awaitAnswer, hx, hr, hg, hp, hd, Option.isSome_none, Bool.or_self, Bool.false_eq_true, if_false]

/-- An access goes on where it stands, or in the state that another device's answer leaves. -/
theorem awaitAnswer_ok {s v : State} {rq : Req} {k : Acc} {ea : Word} (h : s.awaitAnswer rq k ea = .ok v) :
    v = s ∨ ∃ dev, v = s.heardFrom dev := by
  unfold State.awaitAnswer at h
  split at h
  · exact .inl (Except.ok.inj h).symm
  · split at h
    · split at h
      · exact .inl (Except.ok.inj h).symm
      · split at h
        · exact .inr ⟨_, (Except.ok.inj h).symm⟩
        · cases h
    · exact .inl (Except.ok.inj h).symm

/-- An access that waits has its request to another device outstanding. -/
theorem awaitAnswer_wait {s v : State} {rq : Req} {k : Acc} {ea : Word} (h : s.awaitAnswer rq k ea = .error (.wait v)) :
    ∃ dev, v = s.sendTo dev := by
  unfold State.awaitAnswer at h
  split at h
  · cases h
  · split at h
    · split at h
      · cases h
      · split at h
        · cases h
        · exact ⟨_, (Stop.wait.inj (Except.error.inj h)).symm⟩
    · cases h

theorem State.me_heardFrom (s : State) (dev : Nat) : (s.heardFrom dev).me = { s.me with remote := none } := State.me_modMe _ _

/-- The instruction that an answer lets go on is the one that waited for it. -/
theorem awaitAnswer_nextPc {s v : State} {rq : Req} {k : Acc} {ea : Word} (h : s.awaitAnswer rq k ea = .ok v) :
    v.pc + v.len = s.pc + s.len := by
  rcases awaitAnswer_ok h with rfl | ⟨dev, rfl⟩
  · rfl
  · rw [State.pc, s.me_heardFrom]; rfl

/-- A request that goes out, or is on its way, leaves the context at its instruction with its registers. -/
theorem State.me_sendTo (s : State) (dev : Nat) : ∃ r, (s.sendTo dev).me = { s.me with remote := some r, wait := .retry } :=
  ⟨_, State.me_modMe _ _⟩

/-- A waiting access: pc, registers and memory stand. -/
theorem awaitAnswer_wait_spec {s v : State} {rq : Req} {k : Acc} {ea : Word} (h : s.awaitAnswer rq k ea = .error (.wait v)) :
    v.pc = s.pc ∧ (∀ n, v.x n = s.x n) ∧ (∀ n, v.f n = s.f n) ∧ v.mem = s.mem := by
  obtain ⟨dev, rfl⟩ := awaitAnswer_wait h
  obtain ⟨r, hme⟩ := s.me_sendTo dev
  refine ⟨?_, fun n => ?_, fun n => ?_, rfl⟩
  · rw [State.pc, hme]; rfl
  · rw [State.x, hme]; rfl
  · rw [State.f, hme]; rfl

/-! ## Aligned scalar accesses (R186, R189, R191) -/

section
variable {s v : State} {ea : Word} {w : Nat} (ha : ea.toNat % w = 0)
include ha

theorem loadScalar_ok {u : State} {l : List Byte} (hv : s.awaitAnswer s.req .load ea = .ok v)
    (hl : v.loadBytes v.req (vaRange ea.toNat w) = .ok (l, u)) : s.loadScalar ea w = .ok (l, u) := by
  simp only [State.loadScalar, bind, Except.bind, aligned_ok _ _ ha, hv, hl, orTrap_ok]

theorem loadScalar_waits (hv : s.awaitAnswer s.req .load ea = .error (.wait v)) : s.loadScalar ea w = .error (.wait v) := by
  simp only [State.loadScalar, bind, Except.bind, aligned_ok _ _ ha, hv]

theorem storeScalar_ok {u : State} {n : Nat} (hv : s.awaitAnswer (s.reqW ea.toNat) .store ea = .ok v)
    (hl : v.storeBytes (v.reqW ea.toNat) (vaRange ea.toNat w) (natToBytes w n) = .ok u) : s.storeScalar ea w n = .ok u := by
  simp only [State.storeScalar, bind, Except.bind, aligned_ok _ _ ha, hv, hl, orTrap_ok]

theorem storeScalar_unanswered (n : Nat) (hv : s.awaitAnswer (s.reqW ea.toNat) .store ea = .error (.wait v)) :
    s.storeScalar ea w n = .error (.wait v) := by
  simp only [State.storeScalar, bind, Except.bind, aligned_ok _ _ ha, hv]

theorem atomicScalar_ok {u : State} {f : Nat → Nat} {old : Nat} (hv : s.awaitAnswer (s.reqW ea.toNat) .atomic ea = .ok v)
    (hl : v.atomicBytes (v.reqW ea.toNat) ea.toNat w f = .ok (old, u)) : s.atomicScalar ea w f = .ok (old, u) := by
  simp only [State.atomicScalar, bind, Except.bind, aligned_ok _ _ ha, hv, hl, orTrap_ok]

end

/-! ## The instructions (R189, R190) -/

/-- An instruction that may write its destination is its access and what it makes of the outcome (R269). -/
theorem destX_bind_map {α : Type} {s : State} {d : Nat} (hd : s.me.canWrite d = true) (e : Except Stop α) (f : α → State) :
    (s.destX d >>= fun _ => e >>= fun r => .ok (f r)) = e.map f := by
  rw [destX_ok hd]
  exact bind_pure_comp f e

section
variable (s : State)

theorem exec_ld {d : Nat} (hd : s.me.canWrite d = true) (a : Nat) (y : LdTy) (i : Int) :
    exec (.ld d a y i) s = finish s ((s.loadScalar (s.ea a i) (LdTy.bytes y)).map fun r =>
      (r.2.setX d (loadValue (LdTy.signs y) (LdTy.bytes y) r.1)).advance) :=
  congrArg (finish s) (destX_bind_map hd _ _)

theorem exec_fld (d a : Nat) (y : FpW) (i : Int) :
    exec (.fld d a y i) s = finish s ((s.loadScalar (s.ea a i) (FpW.bytes y)).map fun r =>
      (r.2.setF d (word (bytesToNat r.1))).advance) :=
  congrArg (finish s) (bind_pure_comp _ _)

theorem exec_st (b a : Nat) (y : StTy) (i : Int) :
    exec (.st b a y i) s = finish s ((s.storeScalar (s.ea a i) (StTy.bytes y) (s.x b).toNat).map State.advance) :=
  congrArg (finish s) (bind_pure_comp _ _)

theorem exec_fst (b a : Nat) (y : FpW) (i : Int) :
    exec (.fst b a y i) s = finish s ((s.storeScalar (s.ea a i) (FpW.bytes y) (s.f b).toNat).map State.advance) :=
  congrArg (finish s) (bind_pure_comp _ _)

end

/-- An access that completes ends its instruction with what follows the access. -/
theorem finish_map_ok {α : Type} (s : State) {e : Except Stop α} {r : α} (h : e = .ok r) (f : α → State) :
    finish s (e.map f) = .next (f r) := by rw [h]; rfl

/-- An access that waits leaves its instruction with the request outstanding. -/
theorem finish_map_wait {α : Type} (s : State) {e : Except Stop α} {v : State} (h : e = .error (.wait v)) (f : α → State) :
    finish s (e.map f) = .next v := by rw [h]; rfl

/-- Settles O9: an answered access completes, and its instruction then writes its register or only advances; an access that is
not answered leaves what `awaitAnswer_wait_spec` says. -/
theorem loadsAndStoresComplete : Obligations.LoadsAndStoresComplete := by
  refine ⟨fun s v u d a y w i l hv => ⟨fun hd ha hl => ?_, fun ha hl => ?_⟩,
    fun s v u b a y w i hv => ⟨fun ha hl => ?_, fun ha hl => ?_⟩,
    fun s rq k e x hx => ⟨awaitAnswer_here s rq k e x hx, fun dev hr hg hp hd => awaitAnswer_remote hx hr hg hp hd⟩,
    fun s v d b a y z w i => ⟨fun hd ha hv => ?_, fun ha hv => ?_, fun ha hv => ?_, fun ha hv => ?_⟩⟩
  · have hf := (access_loadBytes _ _ _ _ _ hl).frame
    refine ⟨_, (exec_ld s hd a y i).trans (finish_map_ok s (loadScalar_ok ha hv hl) _), hf, ?_⟩
    rw [← awaitAnswer_nextPc hv]
    exact xW_advance hf d _
  · have hf := (access_loadBytes _ _ _ _ _ hl).frame
    exact ⟨_, (exec_fld s d a w i).trans (finish_map_ok s (loadScalar_ok ha hv hl) _), hf, fR_advance hf d _⟩
  · have hf := (access_storeBytes _ _ _ _ _ hl).frame
    refine ⟨_, (exec_st s b a y i).trans (finish_map_ok s (storeScalar_ok ha hv hl) _), hf, ?_⟩
    rw [← awaitAnswer_nextPc hv]
    exact goes_advance hf
  · have hf := (access_storeBytes _ _ _ _ _ hl).frame
    refine ⟨_, (exec_fst s b a w i).trans (finish_map_ok s (storeScalar_ok ha hv hl) _), hf, ?_⟩
    rw [← awaitAnswer_nextPc hv]
    exact goes_advance hf
  · obtain ⟨hpc, hx, -, -⟩ := awaitAnswer_wait_spec hv
    exact ⟨(exec_ld s hd a y i).trans (finish_map_wait s (loadScalar_waits ha hv) _), hpc, hx⟩
  · obtain ⟨hpc, -, hf, -⟩ := awaitAnswer_wait_spec hv
    exact ⟨(exec_fld s d a w i).trans (finish_map_wait s (loadScalar_waits ha hv) _), hpc, hf⟩
  · obtain ⟨hpc, -, -, hmem⟩ := awaitAnswer_wait_spec hv
    exact ⟨(exec_st s b a z i).trans (finish_map_wait s (storeScalar_unanswered ha _ hv) _), hpc, hmem⟩
  · obtain ⟨hpc, -, -, hmem⟩ := awaitAnswer_wait_spec hv
    exact ⟨(exec_fst s b a w i).trans (finish_map_wait s (storeScalar_unanswered ha _ hv) _), hpc, hmem⟩

end Sys2Proof.Machine
end

section
/-! Atomics: each instruction as its access and what follows it, and a read and a write at one home in flow mode. -/

namespace Sys2Proof.Machine

open Sys2Proof

/-! ## The instructions (R191 to R194) -/

/-- What an integer atomic writes: its function of the old value and of the operand, both read by the type (R191). -/
def amoNew (y : T8) (f : Int → Int → Int) (b old : Nat) : Nat :=
  wrapInt (8 * T8.bytes y) (f (readInt (T8.isSigned y) (8 * T8.bytes y) old) (readInt (T8.isSigned y) (8 * T8.bytes y) b))

/-- The old value of an integer atomic as a register value (R191). -/
def amoOld (y : T8) (old : Nat) : Word := wordI (readInt (T8.isSigned y) (8 * T8.bytes y) old)

/-- The addend of `amo.sadd` and the flags of its conversion (R194). -/
def State.saddAddend (s : State) (b k : Nat) (wide : Bool) : Int × Flags :=
  saddConvert (decodeFp fp32 (s.f b).toNat) (decodeFp fp32 (smGet s.me.qscale k 0).toNat) (8 * if wide then 8 else 4)

section
variable {s v u : State} {d a old : Nat} (hd : s.me.canWrite d = true)
  (hv : s.awaitAnswer (s.reqW (s.x a).toNat) .atomic (s.x a) = .ok v)
include hd hv

theorem amo_ok {b : Nat} {y : T8} {f : Int → Int → Int} (ha : (s.x a).toNat % T8.bytes y = 0)
    (hl : v.atomicBytes (v.reqW (s.x a).toNat) (s.x a).toNat (T8.bytes y) (amoNew y f b) = .ok (old, u)) :
    s.amo d a b y f = .ok (u.setX d (amoOld y old)).advance :=
  (destX_bind_map hd _ _).trans (congrArg (Except.map _) (atomicScalar_ok ha hv hl))

theorem amoNib_ok {b : Nat} (hl : v.atomicBytes (v.reqW (s.x a).toNat) (s.x a).toNat 1
      (fun o => nibble o (bits (s.x b) 4 1 * 4) (bits (s.x b) 0 4)) = .ok (old, u)) :
    exec (.amoNib d a b) s = .next (u.setX d (word (old / 2 ^ (bits (s.x b) 4 1 * 4) % 16))).advance :=
  (congrArg (finish s) (destX_bind_map hd _ _)).trans (finish_map_ok s (atomicScalar_ok (Nat.mod_one _) hv hl) _)

theorem sadd_ok {b k : Nat} {wide : Bool} {y : T8} (hy : y = if wide then .i64 else .i32) (ha : (s.x a).toNat % T8.bytes y = 0)
    (hl : v.atomicBytes (v.reqW (s.x a).toNat) (s.x a).toNat (T8.bytes y)
      (amoNew y (· + ·) (wrapInt 64 (s.saddAddend b k wide).1)) = .ok (old, u)) :
    s.sadd d a b k wide = .ok ((u.setX d (amoOld y old)).advance.raiseFp (s.saddAddend b k wide).2) := by
  subst hy
  exact congrArg (Except.map _) (amo_ok hd hv ha hl)

end

/-- Flags raised after a write of an x register (R68). -/
theorem XWritten.raiseFp {s t : State} {d : Nat} {v : Word} (h : XWritten s t d v (s.pc + s.len)) (fl : Flags) :
    XFlagged s (t.raiseFp fl) d v fl := by
  have hx : ∀ n, (t.raiseFp fl).x n = t.x n := fun n => by rw [State.raiseFp, State.x, State.me_modMe]; rfl
  refine ⟨fun h0 => (hx d).trans (h.written h0), (hx 0).trans h.zero, fun n hn => (hx n).trans (h.others n hn), ?_, ?_⟩
  · rw [State.raiseFp, State.me_modMe]
    conv_lhs => rw [h.context]
  · refine OnlyContext.of_eq ((fun c => { c with fpctl := orFlags c.fpctl fl }) ∘ fun _ => t.me) ?_
    rw [← State.modMe_modMe, ← h.outside.outside]; rfl

/-! ## Homes by lines (R166, R167) -/

theorem hashPa_line {a b : Nat} (h : a / 128 = b / 128) : hashPa a = hashPa b := by
  have key : ∀ k, a / 2 ^ (7 + k) = b / 2 ^ (7 + k) := fun k => by
    rw [pow_add, ← Nat.div_div_eq_div_mul, ← Nat.div_div_eq_div_mul]; exact congrArg (· / 2 ^ k) h
  simp only [hashPa, key 0, key 10, key 20, key 30, key 40]

/-- The bytes of a line that one page maps have one home. -/
theorem placeOf_line (s : State) (rq : Req) {x y : Xlat} (hl : y.pa / 128 = x.pa / 128) (hh : y.home = x.home)
    (ht : y.target = x.target) : s.placeOf rq y = s.placeOf rq x := by
  simp only [State.placeOf, Partition.placeOf, hashPa_line hl, hh, ht]

theorem stray_line (s : State) (rq : Req) {x y : Xlat} (hl : y.pa / 128 = x.pa / 128) (hh : y.home = x.home)
    (ht : y.target = x.target) : s.stray rq y = s.stray rq x := by
  simp only [State.stray, Xlat.held, placeOf_line s rq hl hh ht, hl, hh]

/-- In flow mode a requester finds the byte at its home (R210). -/
theorem byteFor_home {s : State} {rq : Req} {pa : Nat} (hf : rq.defers = false) (h2 : isL2 pa = true) :
    s.byteFor rq pa = s.homeByte pa := by
  unfold isL2 at h2
  unfold State.byteFor
  split <;> simp_all

/-! ## One read and one write at a home in flow mode (R191, R192) -/

/-- The bytes at the homes of consecutive addresses as a number, lowest address least significant. -/
def State.homeWord (s : State) (pa w : Nat) : Nat := bytesToNat ((List.range w).map fun k => s.homeByte (pa + k))

theorem homeByte_committed (s : State) (rq : Req) (pa : Nat) : (s.committed rq).homeByte pa = s.homeByte pa := by
  obtain ⟨cores, e⟩ := committed_spec s rq
  rw [e]; rfl

/-- An atomic at a location that nothing hinders: it finds the bytes at their homes, leaves the new value's there, and every other byte
of memory reads as before. -/
theorem atomicBytes_flow {s : State} {rq : Req} {x : Xlat} {va w : Nat} (f : Nat → Nat) (hw : MemoryCanonical s)
    (hf : rq.defers = false) (hp : rq.pure = none) (hx : s.translate rq .atomic va = .ok x) (hr : Reaches s rq x)
    (h2 : isL2 x.pa = true) (hl : smHas s.lines (x.pa / 128) = false) (hu : s.unreadable (x.pa / 128) = false)
    (hdvd : w ∣ 128) (hpos : 0 < w) (ha : va % w = 0) (h64 : va < 2 ^ 64) :
    ∃ u, s.atomicBytes rq va w f = .ok (s.homeWord x.pa w, u) ∧ ∀ pa, u.homeByte pa =
      if x.pa ≤ pa ∧ pa < x.pa + w then BitVec.ofNat 8 (f (s.homeWord x.pa w) / 256 ^ (pa - x.pa)) else s.homeByte pa := by
  obtain ⟨rest, hreach, hpas, hline, hsame, -⟩ := word_xlat s rq .atomic (s.scratchBad rq) va w x hx hdvd hpos ha h64
    (fun z hz _ => (scratchBad_line s rq x z hz).trans hr.scratch)
  have hall : ∀ z ∈ x :: rest, z.pa / 128 = x.pa / 128 := List.forall_mem_cons.2 ⟨rfl, hline⟩
  have hdirect : ∀ z ∈ x :: rest, z.lc = false := fun z hz => (hsame z hz).1.trans hr.direct
  have hflat : (x :: rest).map (fun z => { z with lc := false }) = x :: rest :=
    (List.map_congr_left fun z hz => by rw [← hdirect z hz]; rfl).trans (List.map_id _)
  have hold : bytesToNat ((x :: rest).map fun z => s.byteFor rq z.pa) = s.homeWord x.pa w := by
    have hbytes := congrArg (List.map s.homeByte) hpas
    rw [List.map_map, List.map_map] at hbytes
    rw [List.map_congr_left fun z hz => byteFor_home hf ((isL2_line _ _ (hall z hz)).trans h2)]
    exact congrArg bytesToNat hbytes
  have hup := lowestWhere_one (fun z => s.unreachable rq z.pa) x hr.up
  have hreads := lowestWhere_one (fun z => s.unreadable (z.pa / 128)) x hu
  obtain ⟨u, hwrite⟩ := writeX_completes s rq x rest (natToBytes w (f (s.homeWord x.pa w))) hline hf hr hp fun _ => hl
  obtain ⟨-, -, hhome⟩ := writeX_home s u rq (x :: rest) _ hw hf hdirect
    (fun z hz => (isRemote_line _ _ (hall z hz)).trans hr.here) (fun z hz => by rw [hall z hz]; exact hl)
    (fun z hz => (stray_line s rq (hall z hz) (hsame z hz).2.1 (hsame z hz).2.2).trans hr.place) hwrite
  refine ⟨u.committed rq, ?_, fun pa => ?_⟩
  · simp only [State.atomicBytes, hreach, hp, lineHeads_one x rest hline, hup, hreads,
      List.foldl_cons, List.foldl_nil, s.cached_direct rq x hr.direct, List.any_cons, List.any_nil, hr.place, hr.here, Bool.or_false,
      Bool.false_eq_true, if_false, hflat, hold, hwrite, Except.map]
  · rw [homeByte_committed, hhome pa, hpas, lastWrite_word]
    split <;> rfl

/-! ## Integers modulo a power of two (R77, R191) -/

theorem readInt_emod (sg : Bool) (w v : Nat) : readInt sg w v % 2 ^ w = (v : Int) % 2 ^ w := by
  unfold readInt
  dsimp only
  split <;> simp

theorem wrapInt_cast (w : Nat) (i : Int) : (wrapInt w i : Int) = i % 2 ^ w :=
  Int.toNat_of_nonneg (Int.emod_nonneg _ (by positivity))

theorem amoNew_add (y : T8) (b old : Nat) : amoNew y (· + ·) b old = (old + b) % 2 ^ (8 * T8.bytes y) := by
  zify
  rw [amoNew, wrapInt_cast, Int.add_emod, readInt_emod, readInt_emod, ← Int.add_emod]

theorem amoNew_swap (y : T8) (b old : Nat) : amoNew y (fun _ n => n) b old = b % 2 ^ (8 * T8.bytes y) := by
  zify
  rw [amoNew, wrapInt_cast, readInt_emod]

/-- The low bytes of a number are those of its residue. -/
theorem byte_mod {k w : Nat} (h : k < w) (n : Nat) :
    BitVec.ofNat 8 (n % 2 ^ (8 * w) / 256 ^ k) = BitVec.ofNat 8 (n / 256 ^ k) := by
  apply BitVec.eq_of_toNat_eq
  have hdvd : 256 ^ k * 256 ∣ 2 ^ (8 * w) := by
    rw [← pow_succ, pow_mul]
    exact pow_dvd_pow _ h
  simp only [BitVec.toNat_ofNat]
  show _ / _ % 256 = _ / _ % 256
  rw [← Nat.mod_mul_right_div_self, Nat.mod_mod_of_dvd _ hdvd, Nat.mod_mul_right_div_self]

theorem T8.bytes_dvd (y : T8) : T8.bytes y ∣ 128 := by cases y <;> decide

/-- An integer atomic in flow mode at a location that nothing hinders, whose function leaves a number's residue (R191, R210). -/
theorem amo_flow {s : State} {d a b n : Nat} {y : T8} {f : Int → Int → Int} {x : Xlat} (hd : s.me.canWrite d = true) (h0 : d ≠ 0)
    (hw : MemoryCanonical s) (hm : s.stepMode s.cur.core = false) (hp : s.me.pureMarked = false)
    (ha : (s.x a).toNat % T8.bytes y = 0) (hx : s.translate (s.reqW (s.x a).toNat) .atomic (s.x a).toNat = .ok x)
    (hr : Reaches s s.req x) (h2 : isL2 x.pa = true) (hl : smHas s.lines (x.pa / 128) = false)
    (hu : s.unreadable (x.pa / 128) = false) (hn : amoNew y f b (s.homeWord x.pa (T8.bytes y)) = n % 2 ^ (8 * T8.bytes y)) :
    ∃ t, finish s (s.amo d a b y f) = .next t ∧ t.x d = amoOld y (s.homeWord x.pa (T8.bytes y)) ∧
      ∀ pa, t.homeByte pa = if x.pa ≤ pa ∧ pa < x.pa + T8.bytes y then BitVec.ofNat 8 (n / 256 ^ (pa - x.pa)) else s.homeByte pa := by
  have hans := awaitAnswer_here s _ .atomic (s.x a) x hx hr.here
  have hreq := reqW_unmarked hp (s.x a).toNat
  obtain ⟨u, hatomic, hhome⟩ := atomicBytes_flow (amoNew y f b) hw (req_flow hm) rfl (hreq ▸ hx) hr h2 hl hu (T8.bytes_dvd y)
    (T8.bytes_pos y) ha (s.x a).isLt
  have hwritten := xW_advance (access_atomicBytes _ _ _ _ _ _ _ hatomic).frame d (amoOld y (s.homeWord x.pa (T8.bytes y)))
  refine ⟨_, congrArg (finish s) (amo_ok hd hans ha (hreq.symm ▸ hatomic)), hwritten.written h0, fun pa => ?_⟩
  rw [hwritten.outside.memory, hhome, hn]
  split
  · exact byte_mod (by omega) n
  · rfl

/-- Settles O12: an answered access completes as `amo_ok` and its kin say; in flow mode `amo_flow` gives the bytes. -/
theorem atomics : Obligations.Atomics := by
  refine ⟨fun s v u d a b old y wide hd hv => ⟨fun e he ha hl => ?_, fun hl => ?_, fun e he ha hl => ?_⟩,
    fun s d a b y x hd h0 hw hm hp ha hx hr h2 hl hu e he => ?_⟩
  · have arm : exec e.1 s = finish s (s.amo d a (s.x b).toNat y e.2) := by
      simp only [List.mem_cons, List.not_mem_nil, or_false] at he
      rcases he with rfl | rfl | rfl | rfl | rfl | rfl | rfl | rfl <;> rfl
    have hf := (access_atomicBytes _ _ _ _ _ _ _ hl).frame
    refine ⟨_, arm.trans (congrArg (finish s) (amo_ok hd hv ha hl)), hf, ?_⟩
    rw [← awaitAnswer_nextPc hv]
    exact xW_advance hf d _
  · have hf := (access_atomicBytes _ _ _ _ _ _ _ hl).frame
    refine ⟨_, amoNib_ok hd hv hl, hf, ?_⟩
    rw [← awaitAnswer_nextPc hv]
    exact xW_advance hf d _
  · have arm : exec e.1 s = finish s (s.sadd d a b e.2 wide) := by
      simp only [List.mem_cons, List.not_mem_nil, or_false] at he
      rcases he with rfl | rfl | rfl | rfl <;> rfl
    have hf := (access_atomicBytes _ _ _ _ _ _ _ hl).frame
    have hxw := fun w => (xW_advance (AccessFrame.refl u) d w).raiseFp (s.saddAddend b e.2 wide).2
    cases wide with
    | false => exact ⟨_, arm.trans (congrArg (finish s) (sadd_ok (y := .i32) hd hv rfl ha hl)), hf, hxw _⟩
    | true => exact ⟨_, arm.trans (congrArg (finish s) (sadd_ok (y := .i64) hd hv rfl ha hl)), hf, hxw _⟩
  · simp only [List.mem_cons, List.not_mem_nil, or_false] at he
    rcases he with rfl | rfl
    · exact amo_flow hd h0 hw hm hp ha hx hr h2 hl hu (amoNew_add y _ _)
    · exact amo_flow hd h0 hw hm hp ha hx hr h2 hl hu (amoNew_swap y _ _)

end Sys2Proof.Machine
end

section
/-! Engine commands: what the commit of a command leaves, its issue, its completion, and the timelines. -/

namespace Sys2Proof.Machine

open Sys2Proof

/-! ## A slice restartable no more (R239) -/

theorem accessFrame_commanded (s : State) : AccessFrame s s.commanded := (access_committed s s.req).frame

theorem len_commanded (s : State) : s.commanded.len = s.len := by rw [State.len, State.len, (accessFrame_commanded s).mods]

theorem homeByte_commanded (s : State) (pa : Nat) : s.commanded.homeByte pa = s.homeByte pa := by
  obtain ⟨cores, e⟩ := committed_spec s s.req
  rw [State.commanded, e]; rfl

/-! ## Engine contexts (R249) -/

/-- The engine contexts of a core are no part of what an access may change. -/
theorem AccessFrame.eng {s t : State} (h : AccessFrame s t) (n e : Nat) : t.eng n e = s.eng n e := by
  have hc : (t.core n).engs = (s.core n).engs := show (t.core n).besidesAccess.engs = (s.core n).besidesAccess.engs by rw [h.cores n]
  rw [State.eng, State.eng, hc]

theorem State.eng_modCtx (s : State) (i : CtxId) (f : Ctx → Ctx) (n e : Nat) : (s.modCtx i f).eng n e = s.eng n e := by
  unfold State.eng State.modCtx
  rw [State.core_modCore]
  split
  · rename_i h; rw [h]
  · rfl

theorem OnlyContext.eng {s t : State} (h : OnlyContext s t) (n e : Nat) : t.eng n e = s.eng n e := by
  rw [h.outside]; exact s.eng_modCtx _ _ n e

theorem OnlyContext.ctx {s t : State} (h : OnlyContext s t) {i : CtxId} (hi : i ≠ s.cur) : t.ctx i = s.ctx i := by
  rw [h.outside]; exact s.ctx_modMe_other _ hi

theorem modEng_same (s : State) (n e : Nat) (f : EngCtx → EngCtx) : (s.modEng n e f).eng n e = f (s.eng n e) := by
  rw [(modEng_frame s n e f).2, if_pos ⟨rfl, rfl⟩]

theorem modEng_other (s : State) {n e k j : Nat} (f : EngCtx → EngCtx) (h : ¬(k = n ∧ j = e)) : (s.modEng n e f).eng k j = s.eng k j := by
  rw [(modEng_frame s n e f).2, if_neg h]

/-! ## Issue (R250) -/

/-- The state in which the executing context's next command has joined its engine context. -/
def State.joined (s : State) (op : EngOp) (a b : Word) (o : Bool) : State :=
  s.modEng s.cur.core op.engine fun c => { c with issue := c.issue + 1, out := c.out ++ [s.newCmd op a b o] }

/-- A command's ticket follows the last one issued, whether the command is to be performed or fails at once (R250, R252). -/
theorem newCmd_ticket (s : State) (op : EngOp) (a b : Word) (o : Bool) :
    (s.newCmd op a b o).ticket = (s.eng s.cur.core op.engine).issue.toNat + 1 := by
  unfold State.newCmd
  dsimp only
  split <;> rfl

section
variable {s : State} {d : Nat} (hd : s.me.canWrite d = true) (op : EngOp) (a b : Nat) (o : Bool)
include hd

theorem issue_privilege (hp : s.me.priv = 0) : s.issue op d a b o true = finish s (trapWith .privilege (s.insn.setWidth 64)) := by
  have hn : (!true || s.me.priv != 0) = false := by rw [hp]; rfl
  simp only [State.issue, destX_ok hd, hn]
  rfl

variable {needS : Bool} (hp : needS = true → s.me.priv ≠ 0) (hm : s.me.pureMarked = false)
include hp hm

/-- What the issue of a permitted command outside a pure region comes to: it waits for room, or it joins. -/
theorem issue_permitted : s.issue op d a b o needS = finish s (if 32 ≤ (s.eng s.cur.core op.engine).out.length then waitRetry s
    else .ok ((s.joined op (s.x a) (s.x b) o).commanded.setX d (word (s.newCmd op (s.x a) (s.x b) o).ticket)).advance) := by
  have hn : (!needS || s.me.priv != 0) = true := by
    cases needS with
    | false => rfl
    | true => simpa using hp rfl
  simp only [State.issue, destX_ok hd, hn, hm]
  rfl

theorem issue_joins (hr : (s.eng s.cur.core op.engine).out.length < 32) : s.issue op d a b o needS
    = .next ((s.joined op (s.x a) (s.x b) o).commanded.setX d (word (s.newCmd op (s.x a) (s.x b) o).ticket)).advance := by
  rw [issue_permitted hd op a b o hp hm, if_neg (Nat.not_le.2 hr)]; rfl

theorem issue_waits (hr : 32 ≤ (s.eng s.cur.core op.engine).out.length) : s.issue op d a b o needS = finish s (waitRetry s) := by
  rw [issue_permitted hd op a b o hp hm, if_pos hr]

end

/-- What the issue of a command leaves: its ticket in xd, the command in its engine context, and what stays. -/
theorem joined_spec (s : State) (op : EngOp) (a b : Word) (o : Bool) (d : Nat) :
    let k := s.newCmd op a b o
    let eng := s.eng s.cur.core op.engine
    let t := ((s.joined op a b o).commanded.setX d (word k.ticket)).advance
    (d ≠ 0 → t.x d = word k.ticket) ∧ (∀ n, n ≠ d → t.x n = s.x n) ∧
      t.me = { s.me with x := t.me.x, shadow := t.me.shadow, pc := s.pc + s.len } ∧
      t.eng s.cur.core op.engine = { eng with issue := eng.issue + 1, out := eng.out ++ [k] } ∧
      (∀ j, j ≠ op.engine → t.eng s.cur.core j = s.eng s.cur.core j) ∧ (∀ i, i ≠ s.cur → t.ctx i = s.ctx i) ∧
      ∀ pa, t.homeByte pa = s.homeByte pa := by
  intro k eng t
  have hf := accessFrame_commanded (s.joined op a b o)
  have hj : ∀ i, (s.joined op a b o).ctx i = s.ctx i := (modEng_frame s _ _ _).1
  have hme : (s.joined op a b o).commanded.me = s.me := hf.me.trans (hj s.cur)
  have hcur : (s.joined op a b o).commanded.cur = s.cur := hf.cur
  have hw : XWritten (s.joined op a b o).commanded t d (word k.ticket) (s.pc + s.len) := xW_of s _ d _ hme (len_commanded _)
  have heng : ∀ j, t.eng s.cur.core j = (s.joined op a b o).eng s.cur.core j := fun j => (hw.outside.eng _ _).trans (hf.eng _ _)
  refine ⟨hw.written, fun n hn => (hw.others n hn).trans ?_, hw.context.trans ?_, (heng _).trans (modEng_same s _ _ _),
    fun j hne => (heng j).trans (modEng_other s _ fun h => hne h.2), fun i hi => ?_, fun pa => ?_⟩
  · rw [State.x, hme]; rfl
  · rw [hme]
  · exact (hw.outside.ctx (hcur ▸ hi)).trans ((hf.ctx i).trans (hj i))
  · exact (hw.outside.memory pa).trans (homeByte_commanded _ pa)

/-- The register of a command's second operand: x0 for the commands that have one operand. -/
def EngOp.second (op : EngOp) (b : Nat) : Nat :=
  match op with
  | .cabort | .qsignal | .crejoin => 0
  | _ => b

/-- Settles O35: every command is the shared `issue`, which traps, waits for room, or joins as `joined_spec` says. -/
theorem engineCommandsIssue : Obligations.EngineCommandsIssue := by
  intro s d a b o hd hm e he op eng k
  have ⟨hr, harm⟩ : s.x (op.second b) = e.2.2.1 ∧ exec e.1 s = s.issue op d a (op.second b) o e.2.2.2 := by
    simp only [List.mem_cons, List.not_mem_nil, or_false] at he
    rcases he with rfl | rfl | rfl | rfl | rfl | rfl | rfl | rfl | rfl | rfl | rfl | rfl | rfl | rfl | rfl | rfl | rfl | rfl | rfl |
      rfl | rfl | rfl | rfl | rfl <;> exact ⟨rfl, rfl⟩
  refine ⟨fun hp hl => ?joins, fun hp hl => ?waits, fun hs hp => ?traps⟩
  case joins =>
    refine ⟨_, harm.trans (issue_joins hd op a _ o hp hm hl), newCmd_ticket s _ _ _ _, ?_⟩
    rw [hr]
    exact joined_spec s op (s.x a) e.2.2.1 o d
  case waits => exact waitRetry_spec s s rfl (harm.trans (issue_waits hd op a _ o hp hm hl))
  case traps =>
    rw [hs] at harm
    exact trap_ex s _ _ _ (by decide) (by decide) (harm.trans (issue_privilege hd op a _ o hp))

end Sys2Proof.Machine
end

section
/-! Geometry registers, timelines, the completion of engine commands, and the entry to a user completion handler. -/

namespace Sys2Proof.Machine

open Sys2Proof

/-! ## Geometry registers and timelines (R251, R253, R265 to R267) -/

theorem onlyContext_modMe_advance (s : State) (f : Ctx → Ctx) : OnlyContext s (s.modMe f).advance := by
  rw [State.advance, State.modMe_modMe]
  exact onlyContext_modMe s _

theorem me_modMe_advance (s : State) (f : Ctx → Ctx) : (s.modMe f).advance.me = { f s.me with pc := (f s.me).pc + s.len } := by
  rw [State.advance, State.me_modMe, State.me_modMe]; rfl

theorem eset_spec (s : State) (e k a : Nat) : ∃ t, s.eset e k a = .next t ∧ OnlyContext s t ∧
    t.me = { s.me with geom := smSet s.me.geom (8 * e + k) (s.x a), pc := s.pc + s.len } :=
  ⟨_, rfl, onlyContext_modMe_advance s _, me_modMe_advance s _⟩

section
variable {s : State} {e : Eng} {a : Nat}

theorem twait_goesOn (h : (s.x a).toNat ≤ (s.eng s.cur.core (engId e)).counter.toNat) :
    exec (.twait e a) s = .next s.advance.commanded := congrArg (finish s) (if_pos h)

theorem twait_waits (h : (s.eng s.cur.core (engId e)).counter.toNat < (s.x a).toNat) :
    exec (.twait e a) s = finish s (waitRetry s) := congrArg (finish s) (if_neg (Nat.not_le.2 h))

variable {d : Nat} (hd : s.me.canWrite d = true)
include hd

theorem tget_reads : exec (.tget e d) s = .next (s.setX d (s.eng s.cur.core (engId e)).counter).advance.commanded := by
  show finish s (s.destX d >>= fun _ => _) = _
  rw [destX_ok hd]; rfl

theorem tgetA_reads : exec (.tgetA e d) s = .next (s.setX d (s.eng s.cur.core (engId e)).addr).advance.commanded := by
  show finish s (s.destX d >>= fun _ => _) = _
  rw [destX_ok hd]; rfl

/-- The failure word is read, and zeroed (R266). -/
theorem tgetE_reads : exec (.tgetE e d) s = .next (((s.modEng s.cur.core (engId e) fun c =>
    { c with code := 0, more := false, ticket := 0, addr := 0 }).setX d (s.eng s.cur.core (engId e)).failWord).advance).commanded := by
  show finish s (s.destX d >>= fun _ => _) = _
  rw [destX_ok hd]; rfl

end

/-! ## Completion (R218, R242, R251) -/

/-- What the completion of command `c` does to another command: its copy by a paired slice's other core ends as it did (R242). -/
def EngCmd.told (c x : EngCmd) : EngCmd := if c.pair.any (fun id => x.replicaOf id) then x.ended c.fail else x

/-- The engine context after the completion of `c` has been told to what is outstanding there. -/
def EngCtx.told (c : EngCmd) (g : EngCtx) : EngCtx := { g with out := g.out.map c.told }

theorem EngCmd.told_unpaired {c : EngCmd} (h : c.pair = none) (x : EngCmd) : c.told x = x := by simp [EngCmd.told, h]

theorem EngCmd.told_paired {c : EngCmd} {id : Nat} (h : c.pair = some id) (x : EngCmd) :
    c.told x = if x.replicaOf id then x.ended c.fail else x := by simp [EngCmd.told, h]

theorem EngCmd.ticket_told (c x : EngCmd) : (c.told x).ticket = x.ticket := by
  unfold EngCmd.told
  split <;> rfl

/-- An entry of a table in which those at one key are changed. -/
theorem smGet_map_at {α : Type} (m : SMap α) (e k : Nat) (f : α → α) {d : α} (hd : f d = d) :
    smGet (m.map fun g => if g.1 = e then (e, f g.2) else g) k d = if k = e then f (smGet m k d) else smGet m k d := by
  induction m with
  | nil => simp [smGet, hd]
  | cons g rest ih =>
    obtain ⟨j, v⟩ := g
    by_cases hj : j = e <;> by_cases hk : j = k
    · subst hj; subst hk; simp [smGet]
    · subst hj; simpa [smGet, hk, Ne.symm hk] using ih
    · subst hk; simp [smGet, hj]
    · simpa [smGet, hj, hk] using ih

/-- The cores after the completion of a paired slice's command has been told. -/
theorem core_tellReplica {s : State} {e id : Nat} {c : EngCmd} (hp : c.pair = some id) (hc : c.phase ≠ .replica) (n : Nat) :
    (s.tellReplica e c).core n
      = { s.core n with engs := (s.core n).engs.map fun g => if g.1 = e then (e, EngCtx.told c g.2) else g } := by
  have ht : (fun x => if x.replicaOf id then x.ended c.fail else x) = c.told := funext fun x => (EngCmd.told_paired hp x).symm
  simp only [State.tellReplica, hp, hc, if_false, ht]
  exact smGet_map s.cores (fun y : Core => { y with engs := y.engs.map fun g => if g.1 = e then (e, EngCtx.told c g.2) else g }) n {} rfl

theorem eng_tellReplica (s : State) (e : Nat) {c : EngCmd} (hc : c.phase ≠ .replica) (n : Nat) :
    (s.tellReplica e c).eng n e = EngCtx.told c (s.eng n e) := by
  cases hp : c.pair with
  | none =>
    have ht : c.told = id := funext (EngCmd.told_unpaired hp)
    simp [State.tellReplica, hp, EngCtx.told, ht]
  | some id =>
    rw [State.eng, core_tellReplica hp hc]
    exact (smGet_map_at _ e e (EngCtx.told c) rfl).trans (if_pos rfl)

theorem tellReplica_rest (s : State) (e : Nat) (c : EngCmd) :
    (∀ i, (s.tellReplica e c).ctx i = s.ctx i) ∧ ∀ pa, (s.tellReplica e c).homeByte pa = s.homeByte pa := by
  unfold State.tellReplica
  split
  · exact ⟨fun _ => rfl, fun _ => rfl⟩
  · split
    · exact ⟨fun _ => rfl, fun _ => rfl⟩
    · refine ⟨fun i => ?_, fun _ => rfl⟩
      simp only [State.ctx, State.core]
      rw [smGet_map s.cores (fun y : Core => { y with engs := y.engs.map _ }) i.core {} rfl]
      rfl

/-- A command that has ended otherwise than with uncorrectable data is completed (R218, R387). -/
theorem engineCommandCompletion_finishes {s : State} {core j n : Nat} {c : EngCmd} (h : s.cmd core j n = some c)
    (hc : c.phase = .done) (hf : c.dataFailed = false) :
    exec (.engineCommandCompletion core j n) s = .next (s.finishCmd core j c) := by
  show Host.Outcome.next (match s.cmd core j n with | some k => _ | none => s) = _
  rw [h]
  simp [hc, hf]

/-- The first failure is recorded, and a later one only noted (R251). -/
theorem EngCtx.fail_spec (old : EngCtx) (n : Nat) (x : Failure) :
    let new := old.fail n x
    new.issue = old.issue ∧ new.out = old.out ∧ (new.code, new.more, new.ticket, new.addr) =
      if old.code = 0 then (BitVec.ofNat 8 x.code, old.more, BitVec.ofNat 64 n, x.addr) else (old.code, true, old.ticket, old.addr) := by
  unfold EngCtx.fail
  split <;> exact ⟨rfl, rfl, rfl⟩

/-- What a completion leaves of its engine context (R218, R251): the command is gone, the counter stands below the first one left, and the
first failure is recorded. -/
theorem EngCtx.finish_spec (old : EngCtx) (n : Nat) (f : Option Failure) :
    let new := old.finish n f
    new.issue = old.issue ∧ new.out = old.out.filter (fun x => x.ticket != n) ∧ new.counter = new.reached ∧
      (f = none → (new.code, new.more, new.ticket, new.addr) = (old.code, old.more, old.ticket, old.addr)) ∧
      ∀ x, f = some x → (new.code, new.more, new.ticket, new.addr) =
        if old.code = 0 then (BitVec.ofNat 8 x.code, old.more, BitVec.ofNat 64 n, x.addr) else (old.code, true, old.ticket, old.addr) := by
  cases f with
  | none => exact ⟨rfl, rfl, rfl, fun _ => rfl, fun _ h => nomatch h⟩
  | some x =>
    obtain ⟨hissue, hout, hfail⟩ := old.fail_spec n x
    refine ⟨hissue, congrArg (List.filter _) hout, rfl, fun h => ?_, fun y hy => ?_⟩
    · cases h
    · cases hy
      exact hfail

/-- The last ticket below which none is outstanding does not depend on how the commands stand. -/
theorem EngCtx.reached_told (c : EngCmd) (g : EngCtx) : (EngCtx.told c g).reached = g.reached := by
  obtain ⟨_, _, _, _, _, _, out⟩ := g
  cases out with
  | nil => rfl
  | cons x rest => exact congrArg (fun n => word (n - 1)) (c.ticket_told x)

/-- What a command's completion leaves of every core's context of its engine (R218, R242, R251). -/
theorem finishCmd_spec (s : State) (core j : Nat) {c : EngCmd} (hc : c.phase ≠ .replica) :
    (∀ i, (s.finishCmd core j c).ctx i = s.ctx i) ∧ (∀ pa, (s.finishCmd core j c).homeByte pa = s.homeByte pa) ∧
      (s.finishCmd core j c).eng core j = EngCtx.told c ((s.eng core j).finish c.ticket c.fail) ∧
      ∀ k, k ≠ core → (s.finishCmd core j c).eng k j = EngCtx.told c (s.eng k j) := by
  obtain ⟨hctx, hmem⟩ := tellReplica_rest (s.modEng core j fun g => g.finish c.ticket c.fail) j c
  refine ⟨fun i => (hctx i).trans ((modEng_frame s _ _ _).1 i), fun pa => hmem pa, ?_, fun k hk => ?_⟩
  · exact (eng_tellReplica _ j hc core).trans (congrArg (EngCtx.told c) (modEng_same s _ _ _))
  · exact (eng_tellReplica _ j hc k).trans (congrArg (EngCtx.told c) (modEng_other s _ fun h => hk h.1))

/-! ## Beginning (R218) -/

theorem engineCommandBegin_of {s : State} {core j n : Nat} {c : EngCmd} (h : s.cmd core j n = some c) :
    exec (.engineCommandBegin core j n) s
      = .next (if (s.core core).inPart && (s.eng core j).turnOf j c then s.runCmd core c else s) := by
  show Host.Outcome.next (match s.cmd core j n with | some k => _ | none => s) = _
  rw [h]

/-! ## Completion handlers (R268) -/

theorem completionHandlerEntry_enters {s : State} {core ctx : Nat} (hr : s.running core = true) (hn : s.noteDue ⟨core, ctx⟩ = true)
    (hc : s.causeDue ⟨core, ctx⟩ = false) : exec (.completionHandlerEntry core ctx) s = .next (s.enterNote ⟨core, ctx⟩) := by
  show Host.Outcome.next (if _ then _ else _) = _
  rw [hr, hn, hc]; rfl

theorem ctx_enterNote (s : State) (i j : CtxId) : (s.enterNote i).ctx j = if j = i then
    { s.ctx i with
      tnote := putBits (s.ctx i).tnote 56 1 0, uepc := (s.ctx i).pc, status := putBits (s.ctx i).status 6 1 1
      pc := alignPc (s.ctx i).uvec, entering := some true, wait := .none, remote := none
      shadow := smSet (smSet (smSet (s.ctx i).shadow 1 (s.eng i.core (bits (s.ctx i).tnote 48 3)).counter) 2
        (BitVec.ofNat 64 (bits (s.ctx i).tnote 48 3))) 3 (s.eng i.core (bits (s.ctx i).tnote 48 3)).failWord }
    else s.ctx j := by
  simp only [State.enterNote, State.ctx_modCtx, ctx_squash]
  rfl

/-- Settles O36: the instructions by their equations, a completion by `finishCmd_spec` and `EngCtx.finish_spec`, and a due note by
`ctx_enterNote`. Which words end a slice's restartability is log entry 107. -/
theorem engineTimelines : Obligations.EngineTimelines := by
  intro s d a k e eng
  refine ⟨fun x hx => ?eset, fun h => ⟨_, twait_goesOn h, goesTo_advance s⟩, fun h => waitRetry_spec s s rfl (twait_waits h),
    ⟨_, rfl, onlyContext_modMe_advance s _, me_modMe_advance s _⟩,
    fun hd => ⟨⟨_, tget_reads hd, xWritten_advance s _ _⟩, ⟨_, tgetA_reads hd, xWritten_advance s _ _⟩,
      ⟨_, tgetE_reads hd, ?failWord⟩⟩, fun core j n c hc hp hf => ?completion, fun core j n c hc => ?begin,
    fun core ctx hr hn hc => ?note⟩
  case eset =>
    simp only [List.mem_cons, List.not_mem_nil, or_false] at hx
    rcases hx with rfl | rfl | rfl <;> exact eset_spec s _ k a
  case failWord =>
    exact xW_of s _ d _ ((modEng_frame s _ _ _).1 s.cur) rfl
  case completion =>
    have hr : c.phase ≠ .replica := by rw [hp]; decide
    obtain ⟨hctx, hmem, hown, hothers⟩ := finishCmd_spec s core j hr
    obtain ⟨hissue, hout, hcounter, hnone, hsome⟩ := (s.eng core j).finish_spec c.ticket c.fail
    refine ⟨_, engineCommandCompletion_finishes hc hp hf, hctx, hmem, ?_⟩
    intro old new told
    have hnew : new = EngCtx.told c (old.finish c.ticket c.fail) := hown
    have hissue' : new.issue = old.issue := hnew ▸ hissue
    have hcounter' : new.counter = new.reached := by
      rw [hnew, EngCtx.reached_told]
      exact hcounter
    exact ⟨hissue', hnew ▸ congrArg (List.map c.told) hout, fun k hk => congrArg EngCtx.out (hothers k hk),
      hcounter'.trans (congrArg (fun i : Word => match new.out with | [] => i | x :: _ => BitVec.ofNat 64 (x.ticket - 1)) hissue'),
      hnew ▸ hnone, hnew ▸ hsome⟩
  case begin =>
    rw [engineCommandBegin_of hc]
    exact ⟨fun hi ht => by rw [hi, ht]; rfl, fun ht => by rw [ht, Bool.and_false]; rfl⟩
  case note =>
    exact ⟨_, completionHandlerEntry_enters hr hn hc, fun i hi => (ctx_enterNote s _ i).trans (if_neg hi), fun _ => rfl,
      (ctx_enterNote s _ _).trans (if_pos rfl)⟩

end Sys2Proof.Machine
end

section
/-! Accesses from outside: the bytes that the host and remote devices find at their homes, and what they write there. -/

namespace Sys2Proof.Machine

open Sys2Proof

/-! ## Bytes at NOCACHE homes (R168, R387, R437) -/

theorem line_of_not_stray {s : State} {line : Nat} (h : s.strayLine line = false) :
    smHas s.lines line = false ∧ smHas s.l2 line = false := by simpa [State.strayLine] using h

theorem find?_of_smHas {α : Type} {m : SMap α} {k : Nat} (h : smHas m k = false) : m.find? (fun e => e.1 == k) = none :=
  List.find?_eq_none.2 (by simpa [smHas] using h)

/-- A byte of a line that can be read and stands in no slice is found as its home has it. -/
theorem nocacheByte_home {s : State} {pa : Nat} (hs : s.strayLine (pa / 128) = false) (hu : s.unreadable (pa / 128) = false) (k : Nat) :
    s.nocacheByte pa k = s.homeByte pa := by
  simp only [State.nocacheByte, State.homeByte, hs, hu, find?_of_smHas (line_of_not_stray hs).1, Bool.or_self, Bool.false_eq_true,
    if_false]

/-- A write to lines that stand in no slice writes every byte. -/
theorem nocacheCells_home {s : State} {l : List Host.Cell} (h : ∀ e ∈ l, s.strayLine (e.1 / 128) = false) : s.nocacheCells l = l := by
  refine (List.filterMap_eq_map_iff_forall_eq_some.2 fun e he => ?_).trans (List.zipIdx_map_fst 0 l)
  obtain ⟨hl, h2⟩ := line_of_not_stray (h e.1 (List.fst_mem_of_mem_zipIdx he))
  simp only [hl, h2, Bool.false_eq_true, if_false]

theorem ctx_nocacheWrite (s : State) (l : List Host.Cell) (i : CtxId) : (s.nocacheWrite l).ctx i = s.ctx i :=
  (access_writeCells (s.nocacheCells l) s).frame.ctx i

/-- Consecutive bytes written to lines that stand in no slice. -/
theorem homeByte_nocacheWrite {s : State} (hw : MemoryCanonical s) (a : Nat) (l : List Byte)
    (h : ∀ i, i < l.length → s.strayLine ((a + i) / 128) = false) (pa : Nat) :
    (s.nocacheWrite (((List.range l.length).map (a + ·)).zip l)).homeByte pa
      = if a ≤ pa ∧ pa < a + l.length then l.getD (pa - a) 0 else s.homeByte pa := by
  have hcells : ∀ e ∈ ((List.range l.length).map (a + ·)).zip l, s.strayLine (e.1 / 128) = false := fun e he => by
    obtain ⟨i, hi, hie⟩ := List.mem_map.1 (List.of_mem_zip he).1
    rw [← hie]
    exact h i (List.mem_range.1 hi)
  show (s.writeCells (s.nocacheCells _)).homeByte pa = _
  rw [nocacheCells_home hcells]
  exact writeRange l s a hw (fun i hi => find?_of_smHas (line_of_not_stray (h i hi)).1) pa

/-! ## The access (R223, R405) -/

/-- What a write from outside leaves: every context, and memory but for the bytes written. -/
structure StoredOutside (s t : State) (a : Nat) (l : List Byte) : Prop where
  contexts : ∀ i, t.ctx i = s.ctx i
  memory : ∀ pa, t.homeByte pa = if a ≤ pa ∧ pa < a + l.length then l.getD (pa - a) 0 else s.homeByte pa

theorem homeByte_watch (s : State) (g : Agent) (w : Watched) (l : List Nat) (pa : Nat) : (s.watch g w l).homeByte pa = s.homeByte pa := by
  obtain ⟨c, e⟩ := s.watch_spec g w l
  rw [e]; rfl

theorem homeByte_heat (s : State) (a pa : Nat) : (s.heat a).homeByte pa = s.homeByte pa := by
  obtain ⟨h, e⟩ := s.heat_spec a
  rw [e]; rfl

theorem hostRead_heat (s : State) (a : Nat) : (s.heat a).hostRead = s.hostRead := by
  obtain ⟨h, e⟩ := s.heat_spec a
  rw [e]

theorem StoredOutside.heat {s t : State} {a : Nat} {l : List Byte} (h : StoredOutside s t a l) (b : Nat) :
    StoredOutside s (t.heat b) a l :=
  ⟨fun i => ((access_heat t b).frame.ctx i).trans (h.contexts i), fun pa => (homeByte_heat t b pa).trans (h.memory pa)⟩

section
variable {s : State} {x : ExtAccess}
  (home : ∀ i, i < x.width → s.strayLine ((x.pa + i) / 128) = false ∧ s.unreadable ((x.pa + i) / 128) = false)
include home

theorem outsideRead_home : s.outsideRead x = (List.range x.width).map fun i => s.homeByte (x.pa + i) :=
  List.map_congr_left fun i hi => nocacheByte_home (home i (List.mem_range.1 hi)).1 (home i (List.mem_range.1 hi)).2 i

theorem storedOutside_put (hw : MemoryCanonical s) (g : Agent) {l : List Byte} (hl : l.length = x.width) :
    StoredOutside s ((s.nocacheWrite (((List.range x.width).map (x.pa + ·)).zip l)).watch g .st ((List.range x.width).map (x.pa + ·)))
      x.pa l := by
  refine ⟨fun i => (State.ctx_watch _ _ _ _ i).trans (ctx_nocacheWrite s _ i), fun pa => (homeByte_watch _ _ _ _ pa).trans ?_⟩
  rw [← hl]
  exact homeByte_nocacheWrite hw x.pa l (fun i hi => (home i (hl ▸ hi)).1) pa

theorem outside_reads (g : Agent) (ha : x.atomic = none) (hr : x.write = false) :
    OnlyCtxs s (s.outside x g) [] ∧ (s.outside x g).hostRead = (List.range x.width).map fun i => s.homeByte (x.pa + i) := by
  simp only [State.outside, ha, hr, Bool.false_eq_true, if_false]
  exact ⟨⟨fun i _ => s.ctx_watch g .ld _ i, homeByte_watch s g .ld _⟩, outsideRead_home home⟩

theorem outside_writes (hw : MemoryCanonical s) (g : Agent) (ha : x.atomic = none) (hr : x.write = true) (hl : x.data.length = x.width) :
    StoredOutside s (s.outside x g) x.pa x.data := by
  simp only [State.outside, ha, hr, if_true]
  exact storedOutside_put home hw g hl

theorem outside_atomic (hw : MemoryCanonical s) (g : Agent) {y : ExtAtomic} (ha : x.atomic = some y) :
    (s.outside x g).hostRead = (List.range x.width).map (fun i => s.homeByte (x.pa + i)) ∧
      StoredOutside s (s.outside x g) x.pa
        (natToBytes x.width (ExtAtomic.apply y (bytesToNat ((List.range x.width).map fun i => s.homeByte (x.pa + i))))) := by
  obtain ⟨hctx, hmem⟩ := storedOutside_put home hw g
    (natToBytes_length x.width (ExtAtomic.apply y (bytesToNat (s.outsideRead x))))
  simp only [State.outside, ha]
  rw [← outsideRead_home home]
  exact ⟨rfl, hctx, hmem⟩

end

/-! ## Which accesses are performed (R191, R405) -/

section
variable (s : State) {x : ExtAccess}

theorem hostAccess_performs (ha : x.atomic = none) (ht : x.pa + x.width ≤ 0x7FF8000000) (h1 : 1 ≤ x.width) :
    exec (.hostAccess x) s = .next ((s.outside x .host).heat x.pa) :=
  congrArg Host.Outcome.next (if_pos (by simp [accessBelow, ExtAccess.plain, ha, ht, h1]))

theorem remoteAccess_performs (dev : Nat) (hp : ExtAccess.proper x = true) (ht : x.pa + x.width ≤ 0x8000000000) (h1 : 1 ≤ x.width) :
    exec (.remoteAccess dev x) s = .next ((s.outside x (.remote dev)).heat x.pa) :=
  congrArg Host.Outcome.next (if_pos (by simp [accessBelow, hp, ht, h1]))

theorem hostAccess_above (ht : 0x7FF8000000 < x.pa + x.width) : exec (.hostAccess x) s = .next s :=
  congrArg Host.Outcome.next (if_neg (by simp [accessBelow, Nat.not_le.2 ht]))

theorem hostAccess_atomic {y : ExtAtomic} (ha : x.atomic = some y) : exec (.hostAccess x) s = .next s :=
  congrArg Host.Outcome.next (if_neg (by simp [ExtAccess.plain, ha]))

theorem remoteAccess_above (dev : Nat) (ht : 0x8000000000 < x.pa + x.width) : exec (.remoteAccess dev x) s = .next s :=
  congrArg Host.Outcome.next (if_neg (by simp [accessBelow, Nat.not_le.2 ht]))

theorem remoteAccess_improper (dev : Nat) (hp : ExtAccess.proper x = false) : exec (.remoteAccess dev x) s = .next s :=
  congrArg Host.Outcome.next (if_neg (by simp [hp]))

end

theorem ExtAtomic.bytes_pos (y : ExtAtomic) : 1 ≤ ExtAtomic.bytes y := by
  unfold ExtAtomic.bytes
  split
  · exact Nat.le_refl 1
  · exact T8.bytes_pos y.ty

/-- Reads and writes of the host and of remote devices (R405): below the top of what each reaches, performed at the homes of their bytes. -/
theorem outsideAccesses (s : State) (x : ExtAccess) (dev : Nat) (hw : MemoryCanonical s) :
    ∀ e ∈ ([(.hostAccess x, 0x7FF8000000), (.remoteAccess dev x, 0x8000000000)] : List (Instr × Nat)),
      (x.atomic = none → x.pa + x.width ≤ e.2 → 1 ≤ x.width →
        (∀ i, i < x.width → s.strayLine ((x.pa + i) / 128) = false ∧ s.unreadable ((x.pa + i) / 128) = false) →
        (x.write = false → ∃ t, exec e.1 s = .next t ∧ OnlyCtxs s t [] ∧
          t.hostRead = (List.range x.width).map fun i => s.homeByte (x.pa + i)) ∧
        (x.write = true → x.data.length = x.width → ∃ t, exec e.1 s = .next t ∧ StoredOutside s t x.pa x.data)) ∧
      (e.2 < x.pa + x.width → exec e.1 s = .next s) := by
  intro e he
  obtain ⟨g, hperforms, habove⟩ : ∃ g : Agent,
      (x.atomic = none → x.pa + x.width ≤ e.2 → 1 ≤ x.width → exec e.1 s = .next ((s.outside x g).heat x.pa)) ∧
      (e.2 < x.pa + x.width → exec e.1 s = .next s) := by
    simp only [List.mem_cons, List.not_mem_nil, or_false] at he
    rcases he with rfl | rfl
    · exact ⟨.host, hostAccess_performs s, hostAccess_above s⟩
    · exact ⟨.remote dev, fun ha => remoteAccess_performs s dev (by simp [ExtAccess.proper, ha]), remoteAccess_above s dev⟩
  refine ⟨fun ha ht h1 home => ⟨fun hr => ⟨_, hperforms ha ht h1, ?_⟩, fun hr hl => ⟨_, hperforms ha ht h1, ?_⟩⟩, habove⟩
  · obtain ⟨⟨hctx, hmem⟩, hread⟩ := outside_reads home g ha hr
    exact ⟨⟨fun i hi => ((access_heat _ _).frame.ctx i).trans (hctx i hi), fun pa => (homeByte_heat _ _ pa).trans (hmem pa)⟩,
      (hostRead_heat _ _).trans hread⟩
  · exact (outside_writes home hw g ha hr hl).heat _

/-- An atomic of a remote device (R191, R223): performed at its home where it has its type's width and alignment, and ignored elsewhere. -/
theorem outsideAtomics (s : State) {x : ExtAccess} (dev : Nat) (hw : MemoryCanonical s) {y : ExtAtomic} (ha : x.atomic = some y) :
    (x.width = ExtAtomic.bytes y → x.pa % ExtAtomic.bytes y = 0 → x.pa + x.width ≤ 0x8000000000 →
      (∀ i, i < x.width → s.strayLine ((x.pa + i) / 128) = false ∧ s.unreadable ((x.pa + i) / 128) = false) →
      ∃ t, exec (.remoteAccess dev x) s = .next t ∧ t.hostRead = (List.range x.width).map (fun i => s.homeByte (x.pa + i)) ∧
        StoredOutside s t x.pa
          (natToBytes x.width (ExtAtomic.apply y (bytesToNat ((List.range x.width).map fun i => s.homeByte (x.pa + i)))))) ∧
    ((x.width ≠ ExtAtomic.bytes y ∨ x.pa % ExtAtomic.bytes y ≠ 0) → exec (.remoteAccess dev x) s = .next s) := by
  refine ⟨fun hb hm ht home => ?_, fun h => remoteAccess_improper s dev ?_⟩
  · obtain ⟨hread, hstored⟩ := outside_atomic home hw (.remote dev) ha
    exact ⟨_, remoteAccess_performs s dev (by simp [ExtAccess.proper, ha, hb, hm]) ht (hb ▸ ExtAtomic.bytes_pos y),
      (hostRead_heat _ _).trans hread, hstored.heat _⟩
  · simpa [ExtAccess.proper, ha, or_iff_not_imp_left] using h

end Sys2Proof.Machine
end

section
/-! Host queue pairs: what the queue controller's work keeps, the registers of a pair, its commands and its completions. -/

namespace Sys2Proof.Machine

open Sys2Proof

/-! ## What the controller's work keeps -/

/-- TAIL of the cached queue of a number, if there is one. -/
def State.tailOf (s : State) (p q : Nat) : Option Nat := ((s.part p).queues.find? fun e => e.1 == q).map fun e => e.2.tail

/-- Every partition's function with its queue pairs stays. -/
structure HubKept (s t : State) : Prop where
  pairs : ∀ p, (t.part p).pairs = (s.part p).pairs
  live : ∀ p, (t.part p).live = (s.part p).live
  msix : ∀ p, (t.part p).msix = (s.part p).msix

/-- Work of the queue controller that publishes nothing: the functions stay, and TAIL of every queue. -/
structure QueueWork (s t : State) : Prop where
  hub : HubKept s t
  tails : ∀ p q, t.tailOf p q = s.tailOf p q

theorem HubKept.refl (s : State) : HubKept s s := ⟨fun _ => rfl, fun _ => rfl, fun _ => rfl⟩

theorem HubKept.trans {s t u : State} (h : HubKept s t) (k : HubKept t u) : HubKept s u :=
  ⟨fun p => (k.pairs p).trans (h.pairs p), fun p => (k.live p).trans (h.live p), fun p => (k.msix p).trans (h.msix p)⟩

theorem QueueWork.refl (s : State) : QueueWork s s := ⟨.refl s, fun _ _ => rfl⟩

theorem QueueWork.trans {s t u : State} (h : QueueWork s t) (k : QueueWork t u) : QueueWork s u :=
  ⟨h.hub.trans k.hub, fun p q => (k.tails p q).trans (h.tails p q)⟩

theorem QueueWork.trans' {s t u : State} (k : QueueWork t u) (h : QueueWork s t) : QueueWork s u := h.trans k

theorem queueWork_access {s t : State} (h : ∀ p, (t.part p).besidesAccess = (s.part p).besidesAccess) : QueueWork s t := by
  refine ⟨⟨fun p => ?_, fun p => ?_, fun p => ?_⟩, fun p q => ?_⟩
  · exact show (t.part p).besidesAccess.pairs = (s.part p).besidesAccess.pairs by rw [h p]
  · exact show (t.part p).besidesAccess.live = (s.part p).besidesAccess.live by rw [h p]
  · exact show (t.part p).besidesAccess.msix = (s.part p).besidesAccess.msix by rw [h p]
  · have hq : (t.part p).queues = (s.part p).queues :=
      show (t.part p).besidesAccess.queues = (s.part p).besidesAccess.queues by rw [h p]
    rw [State.tailOf, State.tailOf, hq]

theorem hubKept_access {s t : State} (h : ∀ p, (t.part p).besidesAccess = (s.part p).besidesAccess) : HubKept s t := (queueWork_access h).hub

theorem hubKept_modPart (s : State) (p : Nat) (f : Machine.Partition → Machine.Partition) (hp : (f (s.part p)).pairs = (s.part p).pairs)
    (hl : (f (s.part p)).live = (s.part p).live) (hm : (f (s.part p)).msix = (s.part p).msix) : HubKept s (s.modPart p f) := by
  refine ⟨fun n => ?_, fun n => ?_, fun n => ?_⟩ <;>
  · rw [State.part_modPart]
    split
    · rename_i h
      subst h
      assumption
    · rfl

/-- The cached queue of a number after a change of it. -/
theorem find?_modQueue (s : State) (p q : Nat) (f : Queue → Queue) : ((s.modQueue p q f).part p).queues.find? (fun e => e.1 == q)
    = ((s.part p).queues.find? fun e => e.1 == q).map fun e => (e.1, f e.2) := by
  rw [State.modQueue, State.part_modPart_same]
  exact find?_map_entry _ _ _

theorem hubKept_modQueue (s : State) (p q : Nat) (f : Queue → Queue) : HubKept s (s.modQueue p q f) := hubKept_modPart s p _ rfl rfl rfl

theorem find?_map_entry_other {α : Type} (m : SMap α) (q k : Nat) (f : α → α) (hqk : k ≠ q) :
    (m.map fun e => if e.1 = q then (e.1, f e.2) else e).find? (fun e => e.1 == k) = m.find? (fun e => e.1 == k) := by
  induction m with
  | nil => rfl
  | cons e rest ih =>
    obtain ⟨j, v⟩ := e
    by_cases hj : j = q
    · subst hj; simpa [Ne.symm hqk] using ih
    · by_cases hk : j = k
      · subst hk; simp [hj]
      · simpa [hj, hk] using ih

theorem queueWork_modQueue (s : State) (p q : Nat) (f : Queue → Queue) (hf : ∀ x, (f x).tail = x.tail) : QueueWork s (s.modQueue p q f) := by
  refine ⟨hubKept_modQueue s p q f, fun n k => ?_⟩
  by_cases hn : n = p
  · subst hn
    by_cases hk : k = q
    · subst hk
      rw [State.tailOf, find?_modQueue, Option.map_map, State.tailOf]
      exact congrArg (fun g => Option.map g _) (funext fun e => hf e.2)
    · rw [State.tailOf, State.modQueue, State.part_modPart_same]
      exact congrArg (Option.map _) (find?_map_entry_other _ q k f hk)
  · rw [State.tailOf, State.modQueue, State.part_modPart, if_neg hn]; rfl

theorem queueWork_modPart (s : State) (p : Nat) (f : Machine.Partition → Machine.Partition) (hp : (f (s.part p)).pairs = (s.part p).pairs)
    (hl : (f (s.part p)).live = (s.part p).live) (hm : (f (s.part p)).msix = (s.part p).msix)
    (hq : (f (s.part p)).queues = (s.part p).queues) : QueueWork s (s.modPart p f) := by
  refine ⟨hubKept_modPart s p f hp hl hm, fun n k => ?_⟩
  rw [State.tailOf, State.part_modPart]
  split
  · rename_i h
    subst h
    rw [hq]; rfl
  · rfl

theorem queueWork_queueFault (s : State) (p q count reason : Nat) : QueueWork s (s.queueFault p q count reason) :=
  queueWork_access fun _ => rfl

theorem queueWork_stopQueue (s : State) (p q count reason : Nat) : QueueWork s (s.stopQueue p q count reason) :=
  (queueWork_queueFault _ p q count reason).trans' (queueWork_modQueue s p q _ fun _ => rfl)

theorem readLaunch_frame {s u : State} {p : Nat} {x : Queue} {l : Launch} {t : TaskType} (h : s.readLaunch p x = .ok (l, t, u)) :
    AccessFrame s u := by
  unfold State.readLaunch at h
  split at h
  · cases h
  · rename_i w v hw
    split at h
    · cases h
    · split at h
      · cases h
      · split at h
        · cases h
        · rename_i w2 v2 hw2
          split at h
          · cases h
          · split at h
            · cases h
            · cases h
              exact (readWords_ctx _ _ _ _ _ _ hw).trans (readWords_ctx _ _ _ _ _ _ hw2)

theorem queueWork_readHead (s : State) (p q : Nat) : QueueWork s (s.readHead p q) := by
  unfold State.readHead
  split
  · exact .refl s
  · split
    · exact .refl s
    · split
      · exact queueWork_stopQueue s p q _ _
      · rename_i l t u hr
        exact QueueWork.trans' (queueWork_modPart _ p _ rfl rfl rfl rfl)
          (QueueWork.trans' (queueWork_modQueue u p q _ fun _ => rfl) (queueWork_access (readLaunch_frame hr).parts))

theorem queueWork_newHead (s : State) (p q : Nat) : QueueWork s (s.newHead p q) := by
  unfold State.newHead
  split
  · exact .refl s
  · dsimp only
    split
    · exact queueWork_modQueue s p q _ fun _ => rfl
    · exact (queueWork_readHead _ p q).trans' (queueWork_modQueue s p q _ fun _ => rfl)

theorem Queue.tail_retireAll (n : Nat) (x : Queue) : (x.retireAll n).tail = x.tail := by
  induction n generalizing x with
  | zero => rfl
  | succ n ih =>
    unfold Queue.retireAll
    split
    · rfl
    · exact ih _

theorem Queue.tail_replaceFailed (x : Queue) : x.replaceFailed.tail = x.tail := by
  unfold Queue.replaceFailed
  split <;> rfl

theorem queueWork_afterPlacement (s : State) (p q : Nat) : QueueWork s (s.afterPlacement p q) := by
  unfold State.afterPlacement
  split
  · exact .refl s
  · split
    · split
      · exact (queueWork_newHead _ p q).trans' (queueWork_modQueue s p q _ fun x => Queue.tail_retireAll _ _)
      · exact .refl s
    · exact .refl s

/-- What follows a publish to a task queue (R232, R400) publishes nothing itself. -/
theorem queueWork_afterPublish (s : State) (p q : Nat) : QueueWork s (s.afterPublish p q) := by
  have hhead : ∀ t, QueueWork s t → QueueWork s (if ((t.queueOf p q).bind Queue.headProg).isNone then t.newHead p q else t) :=
    fun t ht => by
      split
      · exact ht.trans (queueWork_newHead t p q)
      · exact ht
  have hreplaced := queueWork_modQueue s p q _ Queue.tail_replaceFailed
  refine hhead _ ?_
  split
  · exact (queueWork_afterPlacement _ p q).trans' ((queueWork_modQueue _ p q _ fun x => Queue.tail_retireAll _ x).trans' hreplaced)
  · exact hreplaced

/-! ## Publishes and signals (R227, R234) -/

/-- The queue with one more entry. -/
def Queue.withEntry (x : Queue) : Queue := { x with tail := x.tail + 1, dirty := true }

/-- What a publish to queue `q` comes to: it fails and adds no entry, or its bytes reach the ring of a queue in service and TAIL goes on. -/
inductive PublishEnd (s : State) (p q : Nat) : CmdEnd → Prop
  | fails {t : State} {f : Failure} (work : QueueWork s t) : PublishEnd s p q (t, some f)
  | enters {x : Queue} {u t : State} (queue : s.queueOf p q = some x) (before : QueueWork s u)
      (after : QueueWork (u.modQueue p q Queue.withEntry) t) : PublishEnd s p q (t, none)

theorem publishEnd_ringFailed {s u : State} (h : QueueWork s u) (p q count : Nat) (e : MemErr) :
    PublishEnd s p q (u.ringFailed p q count e) := by
  unfold State.ringFailed
  split
  · exact .fails h
  · exact .fails (h.trans (queueWork_stopQueue u p q count 4))

theorem publish_end (s : State) (p : Nat) (rq : Req) (a q : Nat) (task : Bool) : PublishEnd s p q (s.publish p rq a q task) := by
  unfold State.publish
  split
  · split
    · exact .fails (.refl s)
    · rename_i x hx
      split
      · exact .fails (.refl s)
      · split
        · exact .fails (.refl s)
        · split
          · exact .fails (.refl s)
          · split
            · exact .fails (.refl s)
            · rename_i data u hl
              have hload := queueWork_access (access_loadBytes _ _ _ _ _ hl).frame.parts
              split
              · exact publishEnd_ringFailed hload p q _ _
              · rename_i v hv
                exact .enters hx (hload.trans (queueWork_access (access_storeBytes _ _ _ _ _ hv).frame.parts))
                  (queueWork_afterPublish _ p q)
  · exact .fails (.refl s)

theorem PublishEnd.hub {s : State} {p q : Nat} {r : CmdEnd} (h : PublishEnd s p q r) : HubKept s r.1 := by
  cases h with
  | fails work => exact work.hub
  | enters _ before after => exact (before.hub.trans (hubKept_modQueue _ p q _)).trans after.hub

/-- A publish that succeeds leaves its queue with TAIL one further. -/
theorem PublishEnd.tail {s : State} {p q : Nat} {r : CmdEnd} (h : PublishEnd s p q r) (hr : r.2 = none) :
    ∃ old new, s.queueOf p q = some old ∧ new.tail = old.tail + 1 ∧
      (r.1.part p).queues.find? (fun e => e.1 == q) = some (q, new) := by
  cases h with
  | fails => cases hr
  | @enters x u t queue before after =>
    have hold : s.tailOf p q = some x.tail := by
      unfold State.queueOf at queue
      split at queue
      · split at queue
        · rename_i y hy
          split at queue
          · cases queue
            rw [State.tailOf, hy]; rfl
          · cases queue
        · cases queue
      · cases queue
    have hnew : t.tailOf p q = some (x.tail + 1) := by
      have hu : u.tailOf p q = some x.tail := (before.tails p q).trans hold
      rw [after.tails, State.tailOf, find?_modQueue, Option.map_map]
      rw [State.tailOf] at hu
      obtain ⟨e, he, htail⟩ := Option.map_eq_some_iff.1 hu
      rw [he, ← htail]; rfl
    obtain ⟨e, he, htail⟩ := Option.map_eq_some_iff.1 hnew
    have hkey : e.1 = q := by simpa using List.find?_some he
    exact ⟨x, e.2, queue, htail, by rw [he, ← hkey]⟩

theorem hubKept_signal (s : State) (p a : Nat) : HubKept s (s.signal p a).1 := by
  have hgate : QueueWork s (s.decrementGate p a).2 := by
    unfold State.decrementGate
    split
    · exact .refl s
    · split
      · exact .refl s
      · rename_i h
        exact queueWork_access (access_atomicBytes _ _ _ _ _ _ _ h).frame.parts
  unfold State.signal
  split
  · exact .refl s
  · dsimp only
    split
    · exact hgate.hub
    · exact (hgate.trans (queueWork_queueFault _ p _ _ _)).hub

/-! ## Registers and doorbells (R407) -/

theorem HubKept.pair {s t : State} (h : HubKept s t) (p q : Nat) : t.pair p q = s.pair p q := by
  rw [State.pair, State.pair, h.pairs]

/-- A field of QCFG out of range leaves EN at 0. -/
theorem storedQcfg_disabled {v : Nat} (h : v / 2 ^ 8 % 16 < 4) : (storedQcfg v).getLsbD 0 = false := by
  have hoff : (decide (4 ≤ v / 2 ^ 8 % 16)) = false := decide_eq_false (Nat.not_le.2 h)
  simp only [storedQcfg, hoff, Bool.false_and, Bool.false_eq_true, if_false, BitVec.getLsbD_ofNat, Nat.testBit_zero]
  exact Bool.and_eq_false_iff.2 (.inr (decide_eq_false (by omega)))

section
variable {s : State} {part q : Nat} (hl : (s.part part).live = true)
include hl

theorem qcfgWrite_writes (reg v : Nat) :
    ∃ t, exec (.qcfgWrite part q reg v) s = .next t ∧ t.pair part q = (s.pair part q).write reg v :=
  ⟨_, rfl, pair_of s part q _ hl⟩

/-- A change of a pair's doorbells, and the consumption that follows it (R407, R409). -/
theorem pair_consumePair (f : HostPair → HostPair) :
    ((s.modPair part q f).consumePair part q).pair part q = s.consume (f (s.pair part q)) 4096 := by
  rw [State.consumePair, pair_of _ part q _ (live_modPair s part q f hl), pair_of s part q f hl, pair_modPair s part q f hl]
  exact consume_parts s _ 4096 _

/-! ## Commands (R408) -/

variable {sub : HostSub} (hc : (s.pair part q).current = some sub) {k : Nat} {f : HostSub → CmdEnd}
include hc

/-- The oldest submission without an answer, of the OPC carried out, is answered; nothing else of its pair changes. -/
theorem runSub_answers (ho : sub.opc = k) (hf : HubKept s (f sub).1) :
    ∃ t, s.runSub part q k f = .next t ∧
      t = ((f sub).1.modPair part q fun h => { h with subs := answerFirst (f sub).status h.subs }) ∧
      t.pair part q = { s.pair part q with subs := answerFirst (f sub).status (s.pair part q).subs } := by
  refine ⟨_, ?_, rfl, ?_⟩
  · simp only [State.runSub, hc, ho, hl, decide_true, Bool.and_self, if_true]
  · rw [pair_of _ part q _ ((hf.live part).trans hl), hf.pair]

omit hl in
theorem runSub_other (ho : sub.opc ≠ k) : s.runSub part q k f = .next s := by
  simp only [State.runSub, hc, ho, decide_false, Bool.false_and, Bool.false_eq_true, if_false]

end

theorem queues_modPair {s : State} {part q : Nat} (hl : (s.part part).live = true) (f : HostPair → HostPair) :
    ((s.modPair part q f).part part).queues = (s.part part).queues := by
  rw [pair_modPair s part q f hl, State.part_modPart_same]

theorem msix_modPair {s : State} {part q : Nat} (hl : (s.part part).live = true) (f : HostPair → HostPair) :
    ((s.modPair part q f).part part).msix = (s.part part).msix := by
  rw [pair_modPair s part q f hl, State.part_modPart_same]

/-! ## Completions (R406, R409) -/

/-- A completion written to its ring, in host memory or in HBM: the contexts and the functions stay. -/
theorem writeRing_rest (s : State) (hbm : Bool) (a : Nat) (l : List Byte) :
    (∀ i, (s.writeRing hbm a l).ctx i = s.ctx i) ∧ HubKept s (s.writeRing hbm a l) := by
  unfold State.writeRing
  split
  · exact ⟨ctx_nocacheWrite s _, hubKept_access (access_writeCells _ s).frame.parts⟩
  · exact ⟨fun _ => rfl, hubKept_access fun _ => rfl⟩

theorem hostMem_writeRing (s : State) (a : Nat) (l : List Byte) : (s.writeRing false a l).hostMem = s.hostMem.setBytes a l := rfl

theorem hostMem_modPair (s : State) (p q : Nat) (f : HostPair → HostPair) : (s.modPair p q f).hostMem = s.hostMem := by
  unfold State.modPair State.modFunction
  split <;> rfl

theorem ctx_modPair (s : State) (p q : Nat) (f : HostPair → HostPair) (i : CtxId) : (s.modPair p q f).ctx i = s.ctx i := by
  unfold State.modPair State.modFunction
  split <;> rfl

/-- The state in which the answer `a` of a pair's first submission has been written to its completion ring (R248, R409). -/
def State.completionWritten (s : State) (p q : Nat) (sub : HostSub) (rest : List HostSub) (a : Nat × Nat) : State :=
  let h := s.pair p q
  (s.writeRing (h.qcfg.getLsbD 2) (h.cqb.toNat + 16 * (h.prodIdx % 2 ^ h.cqlog)) (completionBytes (nextSeq h.lastprod) sub.seq a)).modPair
    p q fun y => { y with lastprod := nextSeq h.lastprod, prodIdx := y.prodIdx + 1, subs := rest }

/-- The interrupt vector of a queue pair raised, where its completions raise one (R406). -/
def State.vectorRaised (s : State) (p q : Nat) (ien : Bool) : State :=
  if ien then s.modPart p fun x => { x with msix := x.msix ++ [q] } else s

theorem vectorRaised_spec (s : State) (p q : Nat) (ien : Bool) :
    (∀ i, (s.vectorRaised p q ien).ctx i = s.ctx i) ∧ (s.vectorRaised p q ien).hostMem = s.hostMem ∧
      (s.vectorRaised p q ien).pair p q = s.pair p q ∧
      ((s.vectorRaised p q ien).part p).msix = if ien then (s.part p).msix ++ [q] else (s.part p).msix := by
  cases ien with
  | false => exact ⟨fun _ => rfl, rfl, rfl, rfl⟩
  | true =>
    refine ⟨fun _ => rfl, rfl, ?_, ?_⟩
    · simp only [State.vectorRaised, State.pair, State.part_modPart_same, if_true]
    · simp only [State.vectorRaised, State.part_modPart_same, if_true]

section
variable {s : State} {part q : Nat} {sub : HostSub} {rest : List HostSub} {a : Nat × Nat} (hl : (s.part part).live = true)
include hl

theorem hostCompletionWrite_writes (hs : (s.pair part q).subs = sub :: rest) (ha : sub.answer = some a)
    (he : (s.pair part q).en = true) (hf : (s.pair part q).full = false) :
    let t := (s.completionWritten part q sub rest a).vectorRaised part q (s.pair part q).ien
    exec (.hostCompletionWrite part q) s = .next (t.progress (t.part part).supervisor) := by
  show Host.Outcome.next (match (s.pair part q).subs with | [] => s | x :: rest => _) = _
  rw [hs]
  simp only [ha, hl, he, hf, Bool.not_true, Bool.or_self, Bool.false_eq_true, if_false]
  rfl

theorem completionWritten_spec :
    let h := s.pair part q
    let t := s.completionWritten part q sub rest a
    (∀ i, t.ctx i = s.ctx i) ∧
      t.pair part q = { h with lastprod := nextSeq h.lastprod, prodIdx := h.prodIdx + 1, subs := rest } ∧
      (h.qcfg.getLsbD 2 = false → t.hostMem = s.hostMem.setBytes (h.cqb.toNat + 16 * (h.prodIdx % 2 ^ h.cqlog))
        (completionBytes (nextSeq h.lastprod) sub.seq a)) ∧
      (t.part part).msix = (s.part part).msix := by
  intro h t
  obtain ⟨hctx, hhub⟩ := writeRing_rest s (h.qcfg.getLsbD 2) (h.cqb.toNat + 16 * (h.prodIdx % 2 ^ h.cqlog))
    (completionBytes (nextSeq h.lastprod) sub.seq a)
  have hlive := (hhub.live part).trans hl
  refine ⟨fun i => (ctx_modPair _ _ _ _ i).trans (hctx i), (pair_of _ part q _ hlive).trans (by rw [hhub.pair]),
    fun hbm => (hostMem_modPair _ _ _ _).trans (by rw [hbm, hostMem_writeRing]), ?_⟩
  rw [← hhub.msix part]
  exact msix_modPair hlive _

end

/-- Each host command is a submission's run of its OPC, which leaves the functions; those of OPC 1 and 2 end as a publish does. -/
theorem commands_run (s : State) (part q : Nat) (sub : HostSub) :
    ∀ e ∈ ([(.nop part q, 0, (s, none)), (.launch part q, 1, s.publish part (s.ctlReq part) sub.a.toNat (sub.b.toNat % 32) true),
        (.publish part q, 2, s.publish part (s.ctlReq part) sub.a.toNat (sub.b.toNat % 32) false),
        (.signal part q, 3, s.signal part sub.a.toNat)] : List (Instr × Nat × CmdEnd)),
      ∃ f, exec e.1 s = s.runSub part q e.2.1 f ∧ f sub = e.2.2 ∧ HubKept s e.2.2.1 ∧
        (1 ≤ e.2.1 → e.2.1 ≤ 2 → PublishEnd s part (sub.b.toNat % 32) e.2.2) := by
  have hpublish := publish_end s part (s.ctlReq part) sub.a.toNat (sub.b.toNat % 32)
  intro e he
  simp only [List.mem_cons, List.not_mem_nil, or_false] at he
  rcases he with rfl | rfl | rfl | rfl
  · exact ⟨fun _ => (s, none), rfl, rfl, .refl s, fun h => absurd h (show ¬1 ≤ 0 by decide)⟩
  · exact ⟨fun x => s.publish part (s.ctlReq part) x.a.toNat (x.b.toNat % 32) true, rfl, rfl, (hpublish true).hub,
      fun _ _ => hpublish true⟩
  · exact ⟨fun x => s.publish part (s.ctlReq part) x.a.toNat (x.b.toNat % 32) false, rfl, rfl, (hpublish false).hub,
      fun _ _ => hpublish false⟩
  · exact ⟨fun x => s.signal part x.a.toNat, rfl, rfl, hubKept_signal s part _, fun _ h => absurd h (show ¬3 ≤ 2 by decide)⟩

/-- Settles O51: accesses by `outsideAccesses` and `outsideAtomics`, registers and doorbells by what they leave of their pair, commands
by `runSub_answers`, completions by `completionWritten_spec`. -/
theorem hostAndRemote : Obligations.HostAndRemote := by
  intro s x dev part q v sub rest a hw h live home old stored
  refine ⟨fun e he => ?accesses, fun y hy => ?atomics, fun hl => ⟨qcfgWrite_writes hl 0 v, qcfgWrite_writes hl 1 v, ?qcfg,
    ⟨_, rfl, pair_consumePair hl _⟩, ⟨_, rfl, pair_consumePair hl _⟩, fun hc => ?commands, fun hs ha hen hf => ?completion⟩⟩
  case accesses =>
    obtain ⟨hp, habove⟩ := outsideAccesses s x dev hw e he
    refine ⟨fun ha ht h1 hh => ⟨(hp ha ht h1 hh).1, fun hr hl => ?_⟩, habove⟩
    obtain ⟨t, ht, hst⟩ := (hp ha ht h1 hh).2 hr hl
    exact ⟨t, ht, hst.contexts, hl ▸ hst.memory⟩
  case atomics =>
    obtain ⟨hp, himproper⟩ := outsideAtomics s dev hw hy
    refine ⟨hostAccess_atomic s hy, fun hb hm ht hh => ?_, himproper⟩
    obtain ⟨t, hx, hread, hst⟩ := hp hb hm ht hh
    have hmem := hst.memory
    rw [natToBytes_length] at hmem
    exact ⟨t, hx, hread, hst.contexts, hmem⟩
  case qcfg =>
    obtain ⟨t, ht, hq⟩ := qcfgWrite_writes (q := q) hl 2 v
    exact ⟨t, ht, hq, fun hv => (congrArg HostPair.en hq).trans (storedQcfg_disabled hv)⟩
  case commands =>
    intro rq e he
    obtain ⟨f, hexec, hf, hhub, hpublish⟩ := commands_run s part q sub e he
    rw [hexec]
    refine ⟨fun ho => ?_, runSub_other hc⟩
    obtain ⟨t, ht, heq, hpair⟩ := runSub_answers (f := f) hl hc ho (hf ▸ hhub)
    rw [hf] at heq hpair
    refine ⟨t, ht, heq, hpair, fun h1 h2 hok => ?_⟩
    rw [heq, queues_modPair ((hhub.live part).trans hl)]
    exact (hpublish h1 h2).tail hok
  case completion =>
    obtain ⟨wctx, wpair, wring, wmsix⟩ := completionWritten_spec (q := q) (sub := sub) (rest := rest) (a := a) hl
    obtain ⟨vctx, vmem, vpair, vmsix⟩ := vectorRaised_spec (s.completionWritten part q sub rest a) part q h.ien
    obtain ⟨ppairs, pmsix, pctx, pmem⟩ := progress_part ((s.completionWritten part q sub rest a).vectorRaised part q h.ien)
      (((s.completionWritten part q sub rest a).vectorRaised part q h.ien).part part).supervisor part
    refine ⟨_, hostCompletionWrite_writes hl hs ha hen hf, fun i => (pctx i).trans ((vctx i).trans (wctx i)), ?_,
      fun hb => pmem.trans (vmem.trans (wring hb)), pmsix.trans (vmsix.trans (by rw [wmsix]))⟩
    rw [State.pair, ppairs]
    exact vpair.trans wpair

end Sys2Proof.Machine
end

section
/-! Expiries: budgets and watchdogs that have run out, and the time-outs of links, switch groups and devices. -/

namespace Sys2Proof.Machine

open Sys2Proof

/-! ## Budgets and the watchdog (R238, R356) -/

theorem lowestLive_live {s : State} {core h : Nat} {x : SliceGroup} (hx : s.lowestLive core x = some h) :
    (s.ctx ⟨core, h⟩).life = .live := by
  have hp := List.find?_some hx
  rw [Bool.and_eq_true, beq_iff_eq] at hp
  exact hp.2

theorem keeps_raise (s : State) (i : CtxId) (c : Cause) (v : Word) (e : Option Nat) : Keeps s (s.raise i c v e) := by
  unfold State.raise
  exact keeps_modCtx s _ _

/-- The state in which a group's spent budget is marked as reported (R238). -/
def State.budgetMarked (s : State) (core g : Nat) (x : SliceGroup) : State :=
  s.modCore core fun c => { c with slices := smSet c.slices g { x with expired := true } }

theorem ctx_budgetMarked (s : State) (core g : Nat) (x : SliceGroup) (i : CtxId) : (s.budgetMarked core g x).ctx i = s.ctx i :=
  ctx_modCore_same s core (fun c => { c with slices := smSet c.slices g { x with expired := true } }) (fun _ => rfl) i

theorem budgetExpiry_spent {s : State} {core g h : Nat} {x : SliceGroup}
    (hg : (s.core core).slices.find? (fun e => e.1 == g) = some (g, x)) (hs : x.spent = true) (hh : s.lowestLive core x = some h) :
    exec (.budgetExpiry core g) s = .next ((s.budgetMarked core g x).raise ⟨core, h⟩ .budget (s.ctx ⟨core, h⟩).slice none) := by
  have hl : (s.budgetMarked core g x).lowestLive core x = some h := by
    simpa only [State.lowestLive, ctx_budgetMarked] using hh
  show Host.Outcome.next (match (s.core core).slices.find? (fun e => e.1 == g) with | none => s | some (_, x) => _) = _
  rw [hg]
  show Host.Outcome.next (if x.spent = true then
    match (s.budgetMarked core g x).lowestLive core x with | some h => _ | none => _ else s) = _
  rw [if_pos hs, hl, ← ctx_budgetMarked s core g x]; rfl

theorem watchdogExpiry_hangs {s : State} {part : Nat} (hl : (s.part part).live = true) (hh : (s.part part).hangs = true) :
    exec (.watchdogExpiry part) s
      = .next ((s.modPart part fun q => { q with wdogArmed := false }).raiseSup part .hang (s.part part).lastProgress none) := by
  show Host.Outcome.next (if _ then _ else _) = _
  rw [hl, hh]; rfl

/-! ## Outstanding requests (R351, R358, R360) -/

/-- A context without its outstanding request. -/
def Ctx.unasked (c : Ctx) : Ctx := { c with remote := none }

/-- A context without its pending causes. -/
def Ctx.unpended (c : Ctx) : Ctx := { c with pending := [] }

theorem Ctx.pending_of_unasked {c d : Ctx} (h : c.unasked = d.unasked) : c.pending = d.pending :=
  show c.unasked.pending = d.unasked.pending from congrArg Ctx.pending h

/-- Of the device only outstanding requests change, and free values are drawn. -/
structure RequestsOnly (s t : State) : Prop where
  device : ∃ n c, t = { s with freeIdx := n, cores := c }
  contexts : ∀ i, (t.ctx i).unasked = (s.ctx i).unasked
  engines : ∀ n, t.eng n 1 = s.eng n 1

theorem RequestsOnly.refl (s : State) : RequestsOnly s s := ⟨⟨_, _, rfl⟩, fun _ => rfl, fun _ => rfl⟩

theorem RequestsOnly.trans {s t u : State} (h : RequestsOnly s t) (k : RequestsOnly t u) : RequestsOnly s u := by
  obtain ⟨n, c, rfl⟩ := h.device
  obtain ⟨m, d, rfl⟩ := k.device
  exact ⟨⟨m, d, rfl⟩, fun i => (k.contexts i).trans (h.contexts i), fun n => (k.engines n).trans (h.engines n)⟩

theorem RequestsOnly.part {s t : State} (h : RequestsOnly s t) (p : Nat) : t.part p = s.part p := by
  obtain ⟨n, c, rfl⟩ := h.device; rfl

theorem RequestsOnly.time {s t : State} (h : RequestsOnly s t) : t.time = s.time := by
  obtain ⟨n, c, rfl⟩ := h.device; rfl

theorem RequestsOnly.health {s t : State} (h : RequestsOnly s t) : t.health = s.health := by
  obtain ⟨n, c, rfl⟩ := h.device; rfl

theorem RequestsOnly.homeByte {s t : State} (h : RequestsOnly s t) (pa : Nat) : t.homeByte pa = s.homeByte pa := by
  obtain ⟨n, c, rfl⟩ := h.device; rfl

theorem requestsOnly_drawn (s : State) : RequestsOnly s s.drawn := ⟨⟨_, _, rfl⟩, fun _ => rfl, fun _ => rfl⟩

theorem eng_modCtx (s : State) (i : CtxId) (f : Ctx → Ctx) (n e : Nat) : (s.modCtx i f).eng n e = s.eng n e := by
  rw [State.eng, State.eng, State.modCtx, State.core_modCore]
  split
  · rename_i h
    rw [h]
  · rfl

theorem requestsOnly_modCtx (s : State) (i : CtxId) (r : Option RemoteReq) :
    RequestsOnly s (s.modCtx i fun c => { c with remote := r }) := by
  refine ⟨⟨_, _, rfl⟩, fun j => ?_, fun n => eng_modCtx s i _ n 1⟩
  rw [State.ctx_modCtx]
  split
  · rename_i h
    rw [h]; rfl
  · rfl

theorem mem_outstanding {s : State} {p : Nat} {o : CtxId × RemoteReq} (h : o ∈ s.outstanding p) : (s.ctx o.1).remote = some o.2 := by
  simp only [State.outstanding, List.mem_flatMap, List.mem_filterMap, Option.map_eq_some_iff] at h
  obtain ⟨n, -, k, -, r, hr, rfl⟩ := h
  exact hr

/-- The context of the request `e` is given another request, or none, as `P` allows; every other context keeps its own. -/
structure Replaces (P : Option RemoteReq → Prop) (e : CtxId × RemoteReq) (u v : State) : Prop where
  only : RequestsOnly u v
  remote : ∃ r, P r ∧ ∀ i, (v.ctx i).remote = if i = e.1 then r else (u.ctx i).remote

theorem replaces_modCtx {P : Option RemoteReq → Prop} {r : Option RemoteReq} (hr : P r) (e : CtxId × RemoteReq) (u : State) :
    Replaces P e u (u.modCtx e.1 fun c => { c with remote := r }) := by
  refine ⟨requestsOnly_modCtx u e.1 r, r, hr, fun i => ?_⟩
  rw [State.ctx_modCtx]
  split <;> rfl

section
variable {s : State} {f : State → CtxId × RemoteReq → State} {hit : CtxId × RemoteReq → Bool}
  {P : RemoteReq → Option RemoteReq → Prop}
  (hhit : ∀ u e, RequestsOnly s u → hit e = true → Replaces (P e.2) e u (f u e))
  (hmiss : ∀ u e, RequestsOnly s u → hit e = false → f u e = u)
include hhit hmiss

/-- Requests dealt with one after another: a context keeps its own, or has what the last of its requests that was hit has left it. -/
theorem foldl_replaces (l : List (CtxId × RemoteReq)) (u : State) (hu : RequestsOnly s u) :
    RequestsOnly s (l.foldl f u) ∧ ∀ i,
      ((∀ e ∈ l, e.1 = i → hit e = false) ∧ ((l.foldl f u).ctx i).remote = (u.ctx i).remote) ∨
        ∃ e ∈ l, e.1 = i ∧ hit e = true ∧ P e.2 ((l.foldl f u).ctx i).remote := by
  induction l generalizing u with
  | nil => exact ⟨hu, fun i => .inl ⟨fun _ h => absurd h List.not_mem_nil, rfl⟩⟩
  | cons e rest ih =>
    rw [List.foldl_cons]
    have later : ∀ {v i}, (∃ e ∈ rest, e.1 = i ∧ hit e = true ∧ P e.2 ((rest.foldl f v).ctx i).remote) →
        ∃ x ∈ e :: rest, x.1 = i ∧ hit x = true ∧ P x.2 ((rest.foldl f v).ctx i).remote :=
      fun ⟨x, hx, h⟩ => ⟨x, List.mem_cons_of_mem _ hx, h⟩
    cases hh : hit e with
    | false =>
      rw [hmiss u e hu hh]
      obtain ⟨only, each⟩ := ih u hu
      refine ⟨only, fun i => (each i).imp (fun h => ⟨fun x hx he => ?_, h.2⟩) later⟩
      rcases List.mem_cons.1 hx with rfl | hx
      · exact hh
      · exact h.1 x hx he
    | true =>
      obtain ⟨step, r, hr, hremote⟩ := hhit u e hu hh
      obtain ⟨only, each⟩ := ih (f u e) (hu.trans step)
      refine ⟨only, fun i => (each i).elim (fun h => ?_) fun h => .inr (later h)⟩
      obtain ⟨hnone, hkept⟩ := h
      by_cases hi : e.1 = i
      · exact .inr ⟨e, List.mem_cons_self, hi, hh, by rw [hkept, hremote, if_pos hi.symm]; exact hr⟩
      · refine .inl ⟨fun x hx he => ?_, by rw [hkept, hremote, if_neg (Ne.symm hi)]⟩
        rcases List.mem_cons.1 hx with rfl | hx
        · exact absurd he hi
        · exact hnone x hx he

/-- Every outstanding request of a partition dealt with: the ones that are hit are replaced, the others stay. -/
theorem foldl_outstanding (p : Nat) :
    let t := (s.outstanding p).foldl f s
    RequestsOnly s t ∧ ∀ o ∈ s.outstanding p, if hit o = true then P o.2 (t.ctx o.1).remote else (t.ctx o.1).remote = some o.2 := by
  obtain ⟨only, each⟩ := foldl_replaces hhit hmiss (s.outstanding p) s (.refl s)
  refine ⟨only, fun o ho => ?_⟩
  have same : ∀ e ∈ s.outstanding p, e.1 = o.1 → e = o := fun e he h => by
    have hr := mem_outstanding he
    rw [h, mem_outstanding ho] at hr
    exact Prod.ext h (Option.some.inj hr).symm
  rcases each o.1 with ⟨hnone, hkept⟩ | ⟨e, he, heq, hh, hP⟩
  · rw [if_neg (by rw [hnone o ho rfl]; exact Bool.false_ne_true), hkept, mem_outstanding ho]
  · obtain rfl := same e he heq
    rwa [if_pos hh]

end

/-! ## Time-outs (R358, R360) -/

/-- A cause raised for the supervisor after outstanding requests have changed. -/
theorem raiseSup_timedOut {s u : State} {p : Nat} (hc : ∀ i, (u.ctx i).unasked = (s.ctx i).unasked)
    (hm : ∀ pa, u.homeByte pa = s.homeByte pa) (hs : (u.part p).supervisor = (s.part p).supervisor) (c : Cause) (v : Word) :
    TimedOut s (u.raiseSup p c v none) ⟨(s.part p).supervisor, 0⟩ c v ∧
      ∀ i, ((u.raiseSup p c v none).ctx i).remote = (u.ctx i).remote := by
  obtain ⟨⟨hpending, hrest⟩, -⟩ := sup_pends u u p c v none (fun _ => rfl) (fun _ => rfl) rfl
  rw [hs] at hpending hrest
  have hpend : ∀ i, (u.ctx i).pending = (s.ctx i).pending := fun i => Ctx.pending_of_unasked (hc i)
  have hother : ∀ i, i ≠ ⟨(s.part p).supervisor, 0⟩ → (u.raiseSup p c v none).ctx i = u.ctx i := fun i hi =>
    hrest.contexts i (by simpa using hi)
  refine ⟨⟨fun i => ?_, fun i => ?_, fun pa => (hrest.memory pa).trans (hm pa)⟩, fun i => ?_⟩ <;>
    by_cases hi : i = ⟨(s.part p).supervisor, 0⟩
  · rw [if_pos hi, hi, hpending, ← hpend]
  · rw [if_neg hi, hother i hi, hpend]
  · rw [hi, hpending]
    exact congrArg Ctx.unpended (hc _)
  · rw [hother i hi]
    exact congrArg Ctx.unpended (hc i)
  · rw [hi, hpending]
  · rw [hother i hi]

theorem outstanding_of_eq {s t : State} {p : Nat} (hc : ∀ i, t.ctx i = s.ctx i) (hp : (t.part p).cores = (s.part p).cores) :
    t.outstanding p = s.outstanding p := by
  simp only [State.outstanding, hc, hp]

/-- The state in which a link counts as down for a partition, before its requests are sent again (R358). -/
def State.linkLost (s : State) (part link : Nat) : State :=
  (s.linkBit link true).modPart part fun q => { q with linkDown := (q.linkDown ++ [link]).eraseDups }

/-- The state in which a link's requests have been sent again (R358). -/
def State.linkResent (s : State) (part link : Nat) : State :=
  ((s.linkLost part link).outstanding part).foldl (fun s e => s.resend part link e) (s.linkLost part link)

/-- The state in which the outstanding requests to devices that are down have ended (R360). -/
def State.requestsEnded (s : State) (p : Nat) (devs : List Nat) : State :=
  (s.outstanding p).foldl (fun s e => if devs.contains e.2.dev then s.modCtx e.1 fun c => { c with remote := none } else s) s

/-- The state in which devices are down for a partition whose requests to them have ended (R360). -/
def State.peersLost (s : State) (p : Nat) (devs : List Nat) : State :=
  (s.requestsEnded p devs).modPart p fun q => { q with peerDown := (q.peerDown ++ devs).eraseDups }

section
variable (s : State) (part link : Nat)

theorem part_linkLost : (s.linkLost part link).part part
    = { s.part part with linkDown := ((s.part part).linkDown ++ [link]).eraseDups } := State.part_modPart_same _ _ _

theorem outstanding_linkLost : (s.linkLost part link).outstanding part = s.outstanding part :=
  outstanding_of_eq (fun _ => rfl) (by rw [part_linkLost]; rfl)

theorem requests_linkResent : RequestsOnly (s.linkLost part link) (s.linkResent part link) ∧
    ∀ o ∈ s.outstanding part, if o.2.silent link (s.part part).effLink s.time = true
      then ∃ l, ((s.linkResent part link).ctx o.1).remote = some { o.2 with link := l, sent := s.time }
      else ((s.linkResent part link).ctx o.1).remote = some o.2 := by
  have hsilent : ∀ {u : State} (r : RemoteReq), RequestsOnly (s.linkLost part link) u →
      r.silent link (u.part part).effLink u.time = r.silent link (s.part part).effLink s.time := fun r hu => by
    rw [hu.part, hu.time, part_linkLost]; rfl
  rw [State.linkResent, ← outstanding_linkLost s part link]
  refine foldl_outstanding (P := fun x r => ∃ l, r = some { x with link := l, sent := s.time })
    (hit := fun e => e.2.silent link (s.part part).effLink s.time) (fun u e hu hh => ?_) (fun u e hu hh => ?_) part
  · have hnow : u.time = s.time := hu.time
    rw [State.resend, hsilent e.2 hu, if_pos hh]
    have hre := replaces_modCtx (P := fun r => ∃ l, r = some { e.2 with link := l, sent := s.time }) ⟨u.pickLink part, rfl⟩ e u.drawn
    rw [← hnow] at hre ⊢
    exact ⟨(requestsOnly_drawn u).trans hre.only, hre.remote⟩
  · rw [State.resend, hsilent e.2 hu, if_neg (by rw [hh]; exact Bool.false_ne_true)]

end

theorem requests_requestsEnded (s : State) (part : Nat) (devs : List Nat) : RequestsOnly s (s.requestsEnded part devs) ∧
    ∀ o ∈ s.outstanding part, ((s.requestsEnded part devs).ctx o.1).remote = if devs.contains o.2.dev then none else some o.2 := by
  obtain ⟨only, each⟩ := foldl_outstanding (s := s) (P := fun _ r => r = none) (hit := fun e => devs.contains e.2.dev)
    (f := fun s e => if devs.contains e.2.dev then s.modCtx e.1 fun c => { c with remote := none } else s)
    (fun u e _ hh => by rw [if_pos hh]; exact replaces_modCtx (P := (· = none)) rfl e u)
    (fun u e _ hh => if_neg (by rw [hh]; exact Bool.false_ne_true)) part
  refine ⟨only, fun o ho => ?_⟩
  have h := each o ho
  split
  · rename_i hh
    rwa [if_pos hh] at h
  · rename_i hh
    rwa [if_neg hh] at h

theorem part_peersLost (s : State) (part : Nat) (devs : List Nat) : (s.peersLost part devs).part part
    = { s.part part with peerDown := ((s.part part).peerDown ++ devs).eraseDups } := by
  rw [State.peersLost, State.part_modPart_same, (requests_requestsEnded s part devs).1.part]

section
variable {s : State} {part : Nat} (hl : (s.part part).live = true) (hidle : ∀ n ∈ (s.part part).cores, (s.eng n 1).out = [])
include hl hidle

theorem linkTimeout_due {link : Nat} (hd : s.linkDue part link 0 = true) :
    exec (.linkTimeout part link) s = .next ((s.linkResent part link).drawn.raiseSup part .linkDown (BitVec.ofNat 64 link) none) := by
  have hr := (requests_linkResent s part link).1.trans (requestsOnly_drawn _)
  have hnone := abort_idle (s.linkResent part link).drawn part
    (fun k => Config.freeBool (s.linkResent part link).freeIdx && k.parts.any fun e => e.1 != Config.deviceNumber % 64)
    fun n hn => by
      rw [hr.part, part_linkLost] at hn
      rw [hr.engines]
      exact hidle n hn
  have he : exec (.linkTimeout part link) s = .next (if ((s.part part).live && s.linkDue part link 0) = true then
    ((s.linkResent part link).drawn.abortWhere part fun k => Config.freeBool (s.linkResent part link).freeIdx &&
      k.parts.any fun e => e.1 != Config.deviceNumber % 64).raiseSup part .linkDown (word link) none else s) := rfl
  rw [he, hl, hd, hnone]; rfl

omit hl in
theorem peersDown_idle (devs : List Nat) : s.peersDown part devs = s.peersLost part devs := by
  have he : s.peersDown part devs = (s.peersLost part devs).abortWhere part fun k => k.parts.any fun e => devs.contains e.1 := rfl
  rw [he]
  refine abort_idle _ part _ fun n hn => ?_
  rw [part_peersLost] at hn
  exact (congrArg EngCtx.out ((requests_requestsEnded s part devs).1.engines n)).trans (hidle n hn)

omit hl in
/-- Devices down for a partition, and PEER_DOWN for its supervisor. -/
theorem peersDown_timedOut (devs : List Nat) (v : Word) :
    TimedOut s ((s.peersDown part devs).raiseSup part .peerDown v none) ⟨(s.part part).supervisor, 0⟩ .peerDown v ∧
      (∀ o ∈ s.outstanding part, (((s.peersDown part devs).raiseSup part .peerDown v none).ctx o.1).remote =
        if devs.contains o.2.dev then none else some o.2) ∧
      ((s.peersDown part devs).raiseSup part .peerDown v none).part part
        = { s.part part with peerDown := ((s.part part).peerDown ++ devs).eraseDups } := by
  obtain ⟨hr, each⟩ := requests_requestsEnded s part devs
  have hsup : ((s.peersLost part devs).part part).supervisor = (s.part part).supervisor := by rw [part_peersLost]; rfl
  obtain ⟨hto, hremote⟩ := raiseSup_timedOut (u := s.peersLost part devs) hr.contexts hr.homeByte hsup .peerDown v
  rw [peersDown_idle hidle]
  exact ⟨hto, fun o ho => (hremote o.1).trans (each o ho), part_peersLost s part devs⟩

omit hidle

theorem groupTimeout_due {g : Nat} (hd : s.groupDue part g = true) : exec (.groupTimeout part g) s
    = .next ((s.peersDown part (s.groupDevices g)).raiseSup part .peerDown (BitVec.ofNat 64 (2 ^ 63 + g % 64)) none) := by
  show Host.Outcome.next (if _ then _ else _) = _
  rw [hl, hd]; rfl

theorem peerTimeout_due {dev : Nat} (hd : s.peerDue part dev 0 = true) (hp : (s.part part).peerDown.contains dev = false) :
    exec (.peerTimeout part dev) s = .next ((s.peersDown part [dev]).raiseSup part .peerDown (BitVec.ofNat 64 dev) none) := by
  show Host.Outcome.next (if _ then _ else _) = _
  rw [hl, hd, hp]; rfl

end

/-- A time-out that is not due does nothing. -/
theorem timeouts_idle (s : State) (part link g dev : Nat) : ∀ e ∈ ([(.linkTimeout part link, s.linkDue part link 0),
    (.groupTimeout part g, s.groupDue part g), (.peerTimeout part dev, s.peerDue part dev 0)] : List (Instr × Bool)),
    e.2 = false → exec e.1 s = .next s := by
  intro e he hd
  simp only [List.mem_cons, List.not_mem_nil, or_false] at he
  rcases he with rfl | rfl | rfl
  · have hdue : ((s.part part).live && s.linkDue part link 0) = false := by rw [show s.linkDue part link 0 = false from hd, Bool.and_false]
    exact congrArg Host.Outcome.next (if_neg (Bool.eq_false_iff.1 hdue))
  · have hdue : ((s.part part).live && s.groupDue part g) = false := by rw [show s.groupDue part g = false from hd, Bool.and_false]
    exact congrArg Host.Outcome.next (if_neg (Bool.eq_false_iff.1 hdue))
  · have hdue : ((s.part part).live && s.peerDue part dev 0 && !(s.part part).peerDown.contains dev) = false := by
      rw [show s.peerDue part dev 0 = false from hd, Bool.and_false, Bool.false_and]
    exact congrArg Host.Outcome.next (if_neg (Bool.eq_false_iff.1 hdue))

/-! ## A link retrained (R361) -/

theorem bits_linkBit (s : State) {link : Nat} (h : link < 16) (down : Bool) :
    bits (s.linkBit link down).health (48 + link) 1 = down.toNat := by
  rw [State.linkBit, bits_putBits_same _ _ _ _ (by omega)]
  cases down <;> rfl

theorem linkDown_linkRetrain (s : State) (link n : Nat) :
    (smGet (s.parts.map fun q => (q.1, ({ q.2 with linkDown := q.2.linkDown.filter (· != link) } : Machine.Partition))) n {}).linkDown
      = (s.part n).linkDown.filter (· != link) := by
  rw [smGet_map s.parts (fun q : Machine.Partition => { q with linkDown := q.linkDown.filter (· != link) }) n {} rfl]; rfl

/-- Settles O45: budgets and watchdogs by the cause that they raise, time-outs by `foldl_outstanding`, which says what becomes of every
outstanding request. -/
theorem expiriesRaiseCauses : Obligations.ExpiriesRaiseCauses := by
  intro s core g part link dev h x hlink q sup idle
  refine ⟨fun hg hon hb he hh => ?budget, fun hl ha hi hr => ?watchdog,
    fun hl hidle => ⟨fun hd => ?link, fun hd => ?group, fun hd hp => ?peer⟩, timeouts_idle s part link g dev, ?retrain⟩
  case budget =>
    have hspent : x.spent = true := by simp only [SliceGroup.spent, hon, hb, he, beq_self_eq_true, Bool.not_false, Bool.and_self]
    have hlive : ((s.budgetMarked core g x).ctx ⟨core, h⟩).life ≠ .free := by
      rw [ctx_budgetMarked, lowestLive_live hh]; exact Life.noConfusion
    refine ⟨_, budgetExpiry_spent hg hspent hh, (raise_pends _ _ _ _ _ hlive).of (ctx_budgetMarked s core g x) fun _ => rfl, ?_⟩
    rw [(keeps_raise _ _ _ _ _).cores, State.budgetMarked, State.core_modCore_same]
  case watchdog =>
    have hhangs : (s.part part).hangs = true := by
      rw [Partition.hangs, ha, hr, bne_iff_ne.2 hi]; rfl
    obtain ⟨hpends, hparts⟩ := sup_pends s (s.modPart part fun q => { q with wdogArmed := false }) part .hang q.lastProgress none
      (fun _ => rfl) (fun _ => rfl) (by rw [State.part_modPart_same]; rfl)
    exact ⟨_, watchdogExpiry_hangs hl hhangs, hpends, by rw [hparts, State.part_modPart_same]⟩
  case link =>
    obtain ⟨hresent, each⟩ := requests_linkResent s part link
    have hr := hresent.trans (requestsOnly_drawn _)
    have hpart : (s.linkResent part link).drawn.part part = { q with linkDown := (q.linkDown ++ [link]).eraseDups } :=
      (hr.part part).trans (part_linkLost s part link)
    obtain ⟨hto, hremote⟩ := raiseSup_timedOut (s := s) (p := part) hr.contexts hr.homeByte (by rw [hpart]; rfl) .linkDown
      (BitVec.ofNat 64 link)
    refine ⟨_, linkTimeout_due hl hidle hd, hto, fun o ho => ?_, ?_, hpart⟩
    · rw [hremote]; exact each o ho
    · exact (congrArg (bits · (48 + link) 1) hr.health).trans (bits_linkBit s hlink true)
  case group => exact ⟨_, groupTimeout_due hl hd, peersDown_timedOut hidle _ _⟩
  case peer =>
    obtain ⟨hto, each, hpart⟩ := peersDown_timedOut hidle [dev] (BitVec.ofNat 64 dev)
    refine ⟨_, peerTimeout_due hl hd hp, hto, fun o ho => ?_, hpart⟩
    rw [each o ho]
    simp only [List.contains_cons, List.contains_nil, Bool.or_false, beq_iff_eq, eq_comm (a := dev)]
  case retrain => exact ⟨_, rfl, onlyCtxs_of_eq rfl rfl rfl, bits_linkBit s hlink false, linkDown_linkRetrain s link⟩

end Sys2Proof.Machine
end

section
/-! The queue controller's events: the HEAD of each queue through its work, selections, launches without slices, slices executed again,
and the write-back of descriptors. -/

namespace Sys2Proof.Machine

open Sys2Proof

/-! ## HEAD through the controller's work (R226, R232) -/

/-- HEAD of the cached queue of a number, if there is one. -/
def State.headOf (s : State) (p q : Nat) : Option Nat := ((s.part p).queues.find? fun e => e.1 == q).map fun e => e.2.head

/-- Every queue's HEAD stays. -/
structure HeadsKept (s t : State) : Prop where
  heads : ∀ p q, t.headOf p q = s.headOf p q

theorem HeadsKept.refl (s : State) : HeadsKept s s := ⟨fun _ _ => rfl⟩

theorem HeadsKept.trans {s t u : State} (h : HeadsKept s t) (k : HeadsKept t u) : HeadsKept s u :=
  ⟨fun p q => (k.heads p q).trans (h.heads p q)⟩

theorem HeadsKept.trans' {s t u : State} (k : HeadsKept t u) (h : HeadsKept s t) : HeadsKept s u := h.trans k

theorem headsKept_of_queues {s t : State} (h : ∀ p, (t.part p).queues = (s.part p).queues) : HeadsKept s t :=
  ⟨fun p q => by rw [State.headOf, State.headOf, h]⟩

theorem queues_access {s t : State} (h : AccessFrame s t) (p : Nat) : (t.part p).queues = (s.part p).queues :=
  show (t.part p).besidesAccess.queues = (s.part p).besidesAccess.queues by rw [h.parts p]

theorem headsKept_access {s t : State} (h : AccessFrame s t) : HeadsKept s t := headsKept_of_queues (queues_access h)

theorem headOf_modQueue_same (s : State) (p q : Nat) (f : Queue → Queue) :
    (s.modQueue p q f).headOf p q = ((s.part p).queues.find? fun e => e.1 == q).map fun e => (f e.2).head := by
  rw [State.headOf, find?_modQueue, Option.map_map]; rfl

theorem headsKept_modQueue (s : State) (p q : Nat) (f : Queue → Queue) (hf : ∀ x, (f x).head = x.head) :
    HeadsKept s (s.modQueue p q f) := by
  refine ⟨fun n k => ?_⟩
  by_cases hn : n = p
  · subst hn
    by_cases hk : k = q
    · subst hk
      rw [headOf_modQueue_same, State.headOf]
      simp only [hf]
    · rw [State.headOf, State.modQueue, State.part_modPart_same]
      exact congrArg (Option.map _) (find?_map_entry_other _ q k f hk)
  · rw [State.headOf, State.modQueue, State.part_modPart, if_neg hn]; rfl

theorem headsKept_modPart (s : State) (p : Nat) (f : Machine.Partition → Machine.Partition) (hf : ∀ x, (f x).queues = x.queues) :
    HeadsKept s (s.modPart p f) := headsKept_of_queues (keeps_modPart s p f (hf _)).parts

theorem headsKept_queueFault (s : State) (p q count reason : Nat) : HeadsKept s (s.queueFault p q count reason) :=
  headsKept_of_queues fun _ => rfl

theorem headsKept_stopQueue (s : State) (p q count reason : Nat) : HeadsKept s (s.stopQueue p q count reason) :=
  (headsKept_queueFault _ p q count reason).trans' (headsKept_modQueue s p q _ fun _ => rfl)

theorem headsKept_readHead (s : State) (p q : Nat) : HeadsKept s (s.readHead p q) := by
  unfold State.readHead
  split
  · exact .refl s
  · split
    · exact .refl s
    · split
      · exact headsKept_stopQueue s p q _ _
      · rename_i l t u hr
        refine ((headsKept_modPart _ p _ ?_).trans' (headsKept_modQueue u p q _ ?_)).trans' (headsKept_access (readLaunch_frame hr)) <;>
          exact fun _ => rfl

theorem headsKept_newHead (s : State) (p q : Nat) : HeadsKept s (s.newHead p q) := by
  unfold State.newHead
  split
  · exact .refl s
  · have hskip : HeadsKept s (s.modQueue p q fun x => { x with skip := 0, urgent := none }) := headsKept_modQueue s p q _ fun _ => rfl
    dsimp only
    split
    · exact hskip
    · exact hskip.trans (headsKept_readHead _ p q)

theorem Queue.head_retireAll (n : Nat) (x : Queue) : (x.retireAll n).head = x.head := by
  induction n generalizing x with
  | zero => rfl
  | succ n ih =>
    unfold Queue.retireAll
    split
    · rfl
    · exact ih _

theorem headsKept_decrementGate (s : State) (p va : Nat) : HeadsKept s (s.decrementGate p va).2 := by
  unfold State.decrementGate
  split
  · exact .refl s
  · split
    · exact .refl s
    · rename_i h
      exact headsKept_access (access_atomicBytes _ _ _ _ _ _ _ h).frame

theorem headsKept_publishEdge (s : State) (p q count edge : Nat) : HeadsKept s (s.publishEdge p q count edge) := by
  have hstop : ∀ r : Nat × State, HeadsKept s r.2 → HeadsKept s (if r.1 = 0 then r.2 else r.2.stopQueue p q count r.1) := by
    intro r hr
    split
    · exact hr
    · exact hr.trans (headsKept_stopQueue r.2 p q count r.1)
  unfold State.publishEdge
  refine hstop _ ?_
  split
  · exact .refl s
  · rename_i h
    exact (headsKept_access (readWords_ctx _ _ _ _ _ _ h)).trans (headsKept_decrementGate _ p _)

theorem headsKept_foldl {α : Type} {f : State → α → State} (hf : ∀ s a, HeadsKept s (f s a)) (l : List α) (s : State) :
    HeadsKept s (l.foldl f s) := by
  induction l generalizing s with
  | nil => exact .refl s
  | cons a rest ih => exact (hf s a).trans (ih _)

/-- A completion publish (R234) leaves HEAD: of its queue it advances RETIRE only. -/
theorem headsKept_publishLaunch (s : State) (p q : Nat) (l : LaunchProg) : HeadsKept s (s.publishLaunch p q l) := by
  unfold State.publishLaunch
  refine (headsKept_foldl (fun s i => headsKept_publishEdge s p q _ _) _ s).trans (headsKept_modQueue _ p q _ fun x => ?_)
  split
  · exact Queue.head_retireAll _ x
  · rfl

theorem queueOf_find {s : State} {p q : Nat} {x : Queue} (h : s.queueOf p q = some x) :
    (s.part p).queues.find? (fun e => e.1 == q) = some (q, x) := by
  unfold State.queueOf at h
  split at h
  · split at h
    · rename_i k y hy
      have hk : k = q := by simpa using List.find?_some hy
      split at h
      · rw [hy, hk, Option.some.inj h]
      · cases h
    · cases h
  · cases h

theorem headOf_find {s : State} {p q n : Nat} (h : s.headOf p q = some n) :
    ∃ z, (s.part p).queues.find? (fun e => e.1 == q) = some (q, z) ∧ z.head = n := by
  obtain ⟨⟨k, z⟩, hz, hn⟩ := Option.map_eq_some_iff.1 h
  have hk : k = q := by simpa using List.find?_some hz
  exact ⟨z, by rw [hz, hk], hn⟩

/-! ## Launches without slices (R233) -/

section
variable {s u : State} {part q k : Nat} {x : Queue} {l : LaunchProg} (hq : s.queueOf part q = some x) (hl : x.headProg = some l)
  (hstop : x.stop = false) (ht : l.launch.total = 0) (hm : (s.part part).mode = false) (hs : (s.part part).stopped = none)
  (hg : s.readGate part x = .ok (k, u))
include hq hl hstop ht hm hs hg

/-- The launch waits while its GATE is not 0, and is published once it is. -/
theorem zeroSliceLaunch_gated : exec (.zeroSliceLaunch part q) s = .next (if k != 0 then u
    else ((u.modQueue part q fun x => { x with head := x.head + 1, dirty := true }).publishLaunch part q l).newHead part q) := by
  have he : exec (.zeroSliceLaunch part q) s = execZeroSliceLaunch part q s := rfl
  rw [he, execZeroSliceLaunch, hq]
  simp only [hl, hstop, ht, hm, hs, hg, bne_self_eq_false, Option.isSome_none, Bool.or_self, Bool.false_eq_true, if_false]

omit hl hstop ht hm hs in
theorem headOf_published : (((u.modQueue part q fun x => { x with head := x.head + 1, dirty := true }).publishLaunch part q l).newHead
    part q).headOf part q = some (x.head + 1) := by
  have hu : (u.part part).queues = (s.part part).queues := by
    unfold State.readGate at hg
    split at hg
    · cases hg
    · rename_i h
      cases hg
      exact queues_access (readWords_ctx _ _ _ _ _ _ h) part
  rw [(headsKept_newHead _ part q).heads, (headsKept_publishLaunch _ part q l).heads, headOf_modQueue_same, hu, queueOf_find hq]; rfl

end

/-! ## Selections (R33, R231, R236) -/

theorem sliceSelection_selects {s : State} {core p : Nat} (hp : s.partOf core = some p) (hs : s.selects core = true) :
    exec (.sliceSelection core) s = .next (s.select p core) := by
  have he : exec (.sliceSelection core) s = execSliceSelection core s := rfl
  rw [he, execSliceSelection, hp]
  simp only [hs, if_true]

theorem sliceSelection_idle {s : State} {core : Nat} (hs : s.selects core = false) : exec (.sliceSelection core) s = .next s := by
  have he : exec (.sliceSelection core) s = execSliceSelection core s := rfl
  rw [he, execSliceSelection]
  split
  · simp only [hs, Bool.false_eq_true, if_false]
  · rfl

/-- The state in which the skips of a placement from queue `q` have been counted, which a head that is urgent does not cause (R237). -/
def State.skipsCounted (s : State) (p q : Nat) (x : Queue) (cands : List (Nat × Queue × LaunchProg)) : State :=
  if x.urgent.isSome then s else s.addSkips p q cands

theorem fits_skipsCounted (s : State) (p q core : Nat) (x : Queue) (cands : List (Nat × Queue × LaunchProg)) (t : TaskType) :
    (s.skipsCounted p q x cands).fits core t = s.fits core t := by
  unfold State.skipsCounted
  split
  · rfl
  · obtain ⟨ps, h⟩ := addSkips_rest s p q cands
    rw [h]
    exact fits_parts s ps core t

section
variable {s u : State} {core p : Nat} {cands : List (Nat × Queue × LaunchProg)} (hr : s.reexecFor p core = none)
  (hc : s.candidates p (smKeys (s.part p).queues) = (u, cands))
include hr hc

theorem select_none (hn : u.chooseHead p core cands = none) : s.select p core = u := by
  unfold State.select
  simp only [hr, hc, hn]

/-- A head chosen: its next slice is placed, and the queue takes note of it. -/
theorem select_some {q : Nat} {x : Queue} {l : LaunchProg} (hn : u.chooseHead p core cands = some (q, x, l)) :
    s.select p core = (((u.skipsCounted p q x cands).placeSlice p q core l l.placed 0).modQueue p q fun x => { x with
      skip := 0, urgent := none
      progs := x.progs.map fun m => if m.id = l.id then { m with placed := m.placed + 1 } else m }).afterPlacement p q := by
  unfold State.select
  simp only [hr, hc, hn]; rfl

end

theorem placeSlice_unpaired {s : State} {core : Nat} {l : LaunchProg} {r : List Nat × List Nat} (hf : s.fits core l.tt = some r)
    (hp : l.launch.pair = false) (p q k failures : Nat) :
    s.placeSlice p q core l k failures = (s.progress core).placeCopy p q core l k failures r none := by
  unfold State.placeSlice
  simp only [hf, hp, Bool.false_eq_true, if_false]

/-- The context on which slice `k` of a launch starts: its coordinates in x1 to x3 (R231), and its slice group. -/
def sliceStart (q h : Nat) (l : LaunchProg) (k : Nat) : Ctx :=
  { startedCtx h l.tt.pc [BitVec.ofNat 64 (k % l.launch.nx), BitVec.ofNat 64 (k / l.launch.nx % l.launch.ny),
      BitVec.ofNat 64 (k / (l.launch.nx * l.launch.ny))] with
    slice := BitVec.ofNat 64 (q % 32 * 2 ^ 32 + l.count % 2 ^ 32), deadline := l.launch.deadline
    budget := BitVec.ofNat 64 l.launch.budget, group := some h }

theorem ctx_placeCopy (s : State) (p q core : Nat) (l : LaunchProg) (k failures h : Nat) (hs slots : List Nat) (other : Option Nat) :
    (s.placeCopy p q core l k failures (h :: hs, slots) other).ctx ⟨core, h⟩ = sliceStart q h l k := State.ctx_modCtx_same _ _ _

/-! ## Slices executed again (R239, R240) -/

section
variable {s : State} {core g : Nat} {y : SliceGroup} (hg : (s.core core).slices.find? (fun e => e.1 == g) = some (g, y))
include hg

theorem sliceReexecution_eq : exec (.sliceReexecution core g) s = .next (if !y.restartable then s
    else if (s.part (s.core core).partid).reexecFull y.queue then (s.refuseReexec core g y).coreError core
    else s.reexecute (s.core core).partid core g y) := by
  have he : exec (.sliceReexecution core g) s = execSliceReexecution core g s := rfl
  rw [he, execSliceReexecution, hg]

end

theorem slices_refuseReexec (s : State) (core g : Nat) (y : SliceGroup) :
    ((s.refuseReexec core g y).core core).slices = smSet (s.core core).slices g { y with restartable := false } := by
  have hstop : ((s.stopQueue (s.core core).partid y.queue y.count 6).core core).slices = (s.core core).slices :=
    (keeps_raise _ _ _ _ _).cores core
  rw [State.refuseReexec, State.core_modCore_same, hstop]

theorem exists_addPending (l : List Pending) (p : Pending) : ∃ w ∈ addPending l p, w.cause = p.cause := by
  unfold addPending
  split
  · rename_i h
    obtain ⟨w, hw, hc⟩ := List.any_eq_true.1 h
    exact ⟨w, hw, beq_iff_eq.1 hc⟩
  · exact ⟨p, by simp, rfl⟩

theorem Pends.exists {s t : State} {i : CtxId} {c : Cause} {v : Word} {e : Option Nat} (h : Pends s t i c v e) :
    ∃ w ∈ (t.ctx i).pending, w.cause = c := by
  rw [h.pending]
  exact exists_addPending _ ⟨c, v, e⟩

/-- The state in which the contexts of a slice that is given up have become FREE and its slots are free (R239). -/
def State.sliceVacated (s : State) (core : Nat) (y : SliceGroup) : State :=
  y.members.foldl (fun s h => s.makeFree ⟨core, h⟩) { (s.freeSlotsOf core y.members) with freeIdx := s.freeIdx + 16 }

theorem keeps_sliceVacated (s : State) (core : Nat) (y : SliceGroup) : Keeps s (s.sliceVacated core y) := by
  have hslots : Keeps s { (s.freeSlotsOf core y.members) with freeIdx := s.freeIdx + 16 } := ⟨fun _ => rfl, fun _ => rfl⟩
  exact hslots.trans (keeps_foldl _ (fun s h => keeps_makeFree s ⟨core, h⟩) y.members _)

/-- A slice given up (R239): its reservations are released, and it enters its queue's re-execution list with one more failure. -/
theorem reexecute_spec (s : State) (p core g : Nat) (y : SliceGroup) :
    ((s.reexecute p core g y).core core).slices = smErase (s.core core).slices g ∧
      ((s.reexecute p core g y).part p).queues = (s.part p).queues.map fun e => if e.1 = y.queue then (e.1, { e.2 with
        restarts := e.2.restarts + 1, dirty := true, reexec := e.2.reexec ++ [⟨y.launchId, y.k, core, y.failures + 1⟩] }) else e := by
  have he : s.reexecute p core g y = ((s.sliceVacated core y).modCore core fun c => { c with slices := smErase c.slices g }).modQueue p
      y.queue fun x => { x with
        restarts := x.restarts + 1, dirty := true, reexec := x.reexec ++ [⟨y.launchId, y.k, core, y.failures + 1⟩] } := rfl
  obtain ⟨hslices, hqueues⟩ := keeps_sliceVacated s core y
  rw [he]
  constructor
  · rw [core_modQueue, State.core_modCore_same, hslices]
  · rw [State.modQueue, State.part_modPart_same, State.part_modCore, hqueues]

/-! ## Write-backs of descriptors (R226) -/

/-- The words of a queue that its descriptor takes. -/
def Queue.written (x : Queue) : List Byte := [x.word1, x.tail, x.head, x.retire, x.restarts % 2 ^ 32].flatMap (natToBytes 8)

/-- The state in which a queue's descriptor counts as written back. -/
def State.cleaned (s : State) (p q : Nat) : State := s.modQueue p q fun x => { x with dirty := false }

theorem ctlReq_cleaned (s : State) (p q : Nat) : (s.cleaned p q).ctlReq p = s.ctlReq p := by
  rw [State.ctlReq, State.cleaned, State.modQueue, State.part_modPart_same]; rfl

theorem descriptor_cleaned (s : State) (p q : Nat) : ((s.cleaned p q).part p).descriptor q = (s.part p).descriptor q := by
  rw [State.cleaned, State.modQueue, State.part_modPart_same]; rfl

theorem writeBack_none {s : State} {p q : Nat} (h : s.queueOf p q = none) : s.writeBack p q = s := by
  unfold State.writeBack
  rw [h]

section
variable {s : State} {p q : Nat} {x : Queue} (h : s.queueOf p q = some x)
include h

/-- A write-back is its store, or a fault of its queue where the store fails (R226, R243). -/
theorem writeBack_eq : s.writeBack p q =
    match (s.cleaned p q).storeBytes (s.ctlReq p) (vaRange ((s.part p).descriptor q + 8) 40) x.written with
    | .ok v => v
    | .error _ => ((s.cleaned p q).modQueue p q fun x => { x with stop := true }).queueFault p q 0 4 := by
  have he : s.writeBack p q = match s.queueOf p q with
    | none => s
    | some x =>
      match (s.cleaned p q).storeBytes ((s.cleaned p q).ctlReq p) (vaRange (((s.cleaned p q).part p).descriptor q + 8) 40) x.written with
      | .ok v => v
      | .error _ => ((s.cleaned p q).modQueue p q fun x => { x with stop := true }).queueFault p q 0 4 := rfl
  rw [he, h, ctlReq_cleaned, descriptor_cleaned]

theorem writeBack_ok {v : State}
    (hv : (s.cleaned p q).storeBytes (s.ctlReq p) (vaRange ((s.part p).descriptor q + 8) 40) x.written = .ok v) : s.writeBack p q = v := by
  rw [writeBack_eq h, hv]

theorem writeBack_failed {e : MemErr}
    (hv : (s.cleaned p q).storeBytes (s.ctlReq p) (vaRange ((s.part p).descriptor q + 8) 40) x.written = .error e) :
    s.writeBack p q = ((s.cleaned p q).modQueue p q fun x => { x with stop := true }).queueFault p q 0 4 := by
  rw [writeBack_eq h, hv]

end

/-- Every entry of a queue's number after a change of it. -/
theorem forall_modQueue {P : Queue → Prop} (s : State) (p q : Nat) {f : Queue → Queue}
    (hf : ∀ x, (q, x) ∈ (s.part p).queues → P (f x)) : ∀ e ∈ ((s.modQueue p q f).part p).queues, e.1 = q → P e.2 := by
  rintro ⟨k, z⟩ he rfl
  rw [State.modQueue, State.part_modPart_same] at he
  obtain ⟨x, hx, rfl⟩ := (mem_map_entry (s.part p).queues k f k z).1 he
  rw [if_pos rfl]
  exact hf x hx

/-- Whether or not its store succeeds, a write-back leaves its queue's descriptor up to date or given up. -/
theorem writeBack_clean {s : State} {p q : Nat} {x : Queue} (h : s.queueOf p q = some x) :
    ∀ e ∈ ((s.writeBack p q).part p).queues, e.1 = q → e.2.dirty = false := by
  have hclean : ∀ e ∈ ((s.cleaned p q).part p).queues, e.1 = q → e.2.dirty = false :=
    forall_modQueue (P := fun x => x.dirty = false) s p q fun _ _ => rfl
  cases hv : (s.cleaned p q).storeBytes (s.ctlReq p) (vaRange ((s.part p).descriptor q + 8) 40) x.written with
  | ok v =>
    rw [writeBack_ok h hv, queues_access (access_storeBytes _ _ _ _ _ hv).frame]
    exact hclean
  | error e =>
    rw [writeBack_failed h hv]
    exact forall_modQueue (P := fun x => x.dirty = false) (s.cleaned p q) p q
      (f := fun x => { x with stop := true }) fun x hx => hclean (q, x) hx rfl

end Sys2Proof.Machine
end

section
/-! Paired slices: requests that match and are performed once, and requests that differ or whose copy is late. -/

namespace Sys2Proof.Machine

open Sys2Proof

/-! ## Contexts HELD (R242, R400) -/

/-- The contexts `l` of a core HELD, without their uncommitted work. -/
def State.holdAll (s : State) (core : Nat) (l : List Nat) : State :=
  l.foldl (fun s h => (s.squash ⟨core, h⟩).modCtx ⟨core, h⟩ fun c => { c with life := .held, wait := .none }) s

theorem life_holdAll (core : Nat) (l : List Nat) (s : State) (j : CtxId) :
    ((s.holdAll core l).ctx j).life = if j.core = core ∧ j.ctx ∈ l then .held else (s.ctx j).life := by
  induction l generalizing s with
  | nil => simp [State.holdAll]
  | cons h rest ih =>
    have hstep : s.holdAll core (h :: rest)
        = ((s.squash ⟨core, h⟩).modCtx ⟨core, h⟩ fun c => { c with life := .held, wait := .none }).holdAll core rest := rfl
    rw [hstep, ih, State.ctx_modCtx, ctx_squash, ctx_squash]
    by_cases hj : j = ⟨core, h⟩
    · subst hj; simp
    · have hk : j.core = core → j.ctx ≠ h := fun hc hk => hj (by rw [← hc, ← hk])
      by_cases hc : j.core = core
      · simp [hj, hc, hk hc]
      · simp [hj, hc]

theorem ctx_holdGroup {s : State} {i : CtxId} {y : SliceGroup} (h : s.groupOf i = some y) (j : CtxId) :
    (s.holdGroup i).ctx j = (s.holdAll i.core y.members).ctx j := by
  unfold State.holdGroup
  rw [h]
  exact State.ctx_modGroup (s.holdAll i.core y.members) i j _

theorem holdGroup_holds {s : State} {i : CtxId} {y : SliceGroup} (h : s.groupOf i = some y) {n : Nat} (hn : n ∈ y.members) :
    ((s.holdGroup i).ctx ⟨i.core, n⟩).life = .held := by
  rw [ctx_holdGroup h, life_holdAll, if_pos ⟨rfl, hn⟩]

theorem holdGroup_keepsHeld {s : State} (i : CtxId) {j : CtxId} (h : (s.ctx j).life = .held) : ((s.holdGroup i).ctx j).life = .held := by
  cases hg : s.groupOf i with
  | none =>
    unfold State.holdGroup
    rw [hg]
    exact h
  | some y =>
    rw [ctx_holdGroup hg, life_holdAll]
    split
    · rfl
    · exact h

theorem paired_holdGroup (s : State) (i : CtxId) : (s.holdGroup i).paired = s.paired := by
  obtain ⟨c, p, h⟩ := holdGroup_rest s i
  rw [h]

theorem life_raise (s : State) (i j : CtxId) (c : Cause) (v : Word) (e : Option Nat) : ((s.raise i c v e).ctx j).life = (s.ctx j).life := by
  unfold State.raise
  refine (quiet_modCtx s _ _ ?_).life j
  exact fun _ => rfl

/-! ## Requests that differ, or of which one is late (R242) -/

/-- The state in which both copies' groups are HELD, the request's own first. -/
def State.copiesHeld (s : State) (i : CtxId) : State :=
  match s.twinOf i with
  | some j => (s.holdGroup i).holdGroup j
  | none => s.holdGroup i

theorem paired_copiesHeld (s : State) (i : CtxId) : (s.copiesHeld i).paired = s.paired := by
  unfold State.copiesHeld
  split <;> simp only [paired_holdGroup]

theorem copiesHeld_holds {s : State} {i : CtxId} {y : SliceGroup} (h : s.groupOf i = some y) {n : Nat} (hn : n ∈ y.members) :
    ((s.copiesHeld i).ctx ⟨i.core, n⟩).life = .held := by
  unfold State.copiesHeld
  split
  · exact holdGroup_keepsHeld _ (holdGroup_holds h hn)
  · exact holdGroup_holds h hn

/-- A request that neither copy performs leaves the table, holds the first copy's group, and is reported to the supervisor. -/
theorem pairMismatch_spec (s : State) (k : Nat) (r : PairedReq) (y : SliceGroup) :
    (s.pairMismatch k r).paired = smErase s.paired k ∧
      (s.groupOf r.first = some y → ∀ n ∈ y.members, ((s.pairMismatch k r).ctx ⟨r.first.core, n⟩).life = .held) ∧
      ∃ w ∈ ((s.pairMismatch k r).ctx ⟨((s.pairMismatch k r).part r.part).supervisor, 0⟩).pending, w.cause = .pairMismatch := by
  have he : s.pairMismatch k r
      = (({ s with paired := smErase s.paired k } : State).copiesHeld r.first).raiseSup r.part .pairMismatch r.addr none := by
    cases ht : ({ s with paired := smErase s.paired k } : State).twinOf r.first <;>
    simp only [State.pairMismatch, State.copiesHeld, ht]
  rw [he]
  refine ⟨paired_copiesHeld _ _, fun hg n hn => ?_, (raise_control _ _ _ _ _).exists⟩
  rw [State.raiseSup, life_raise]
  exact copiesHeld_holds (s := { s with paired := smErase s.paired k }) hg hn

/-! ## The events (R242) -/

/-- Both copies released: the first performs the request, the second takes its reply (log entry 71). -/
def State.pairReleased (s : State) (k : Nat) (i j : CtxId) : State :=
  (({ s.drawn with paired := smErase s.paired k } : State).modCtx i fun c => c.releasePair s.freeIdx false).modCtx j
    fun c => c.releasePair s.freeIdx true

section
variable {s : State} {k : Nat} {r : PairedReq} (hr : s.paired.find? (fun e => e.1 == k) = some (k, r))
include hr

theorem pairedRequestMatch_alone (h : r.second = none) : exec (.pairedRequestMatch k) s = .next s := by
  have he : exec (.pairedRequestMatch k) s = execPairedRequestMatch k s := rfl
  rw [he, execPairedRequestMatch, hr]
  simp only [h]

theorem pairTimeout_eq : exec (.pairTimeout k) s
    = .next (if (s.part r.part).live && r.second.isNone && pairWindow ≤ r.age then s.pairMismatch k r else s) := by
  have he : exec (.pairTimeout k) s = execPairTimeout k s := rfl
  rw [he, execPairTimeout, hr]

theorem pairTimeout_idle (h : (s.part r.part).live = false ∨ r.second ≠ none ∨ r.age < 2 ^ 20) :
    exec (.pairTimeout k) s = .next s := by
  have hnot : ((s.part r.part).live && r.second.isNone && decide (pairWindow ≤ r.age)) = false := by
    rcases h with h | h | h
    · rw [h]; rfl
    · rw [Option.isNone_eq_false_iff.2 (Option.isSome_iff_ne_none.2 h), Bool.and_false, Bool.false_and]
    · have hage : decide (pairWindow ≤ r.age) = false := decide_eq_false (Nat.not_le.2 h)
      rw [hage, Bool.and_false]
  rw [pairTimeout_eq hr, hnot]; rfl

variable (hl : (s.part r.part).live = true)
include hl

theorem pairedRequestMatch_differs {j : CtxId} (hj : r.second = some j) (hh : r.hash ≠ r.hash2) :
    exec (.pairedRequestMatch k) s = .next (s.pairMismatch k r) := by
  have he : exec (.pairedRequestMatch k) s = execPairedRequestMatch k s := rfl
  rw [he, execPairedRequestMatch, hr]
  simp only [hj, hl, bne_iff_ne.2 hh, Bool.not_true, Bool.false_eq_true, if_true, if_false]

theorem pairTimeout_late (h : r.second = none) (ha : 2 ^ 20 ≤ r.age) : exec (.pairTimeout k) s = .next (s.pairMismatch k r) := by
  have hage : decide (pairWindow ≤ r.age) = true := decide_eq_true ha
  rw [pairTimeout_eq hr, hl, h, hage]; rfl

theorem pairedRequestMatch_matches {j : CtxId} (hj : r.second = some j) (hh : r.hash = r.hash2) :
    exec (.pairedRequestMatch k) s = .next (((s.pairReleased k r.first j).pushMove (.ctx r.first)).pushMove (.ctx j)) := by
  have he : exec (.pairedRequestMatch k) s = execPairedRequestMatch k s := rfl
  rw [he, execPairedRequestMatch, hr]
  simp only [hj, hl, hh, bne_self_eq_false, Bool.not_true, Bool.false_eq_true, if_false]; rfl

end

/-- Two different contexts released change, and no others. -/
theorem ctx_pairReleased (s : State) (k : Nat) {i j : CtxId} (hne : j ≠ i) (n : CtxId) : (s.pairReleased k i j).ctx n
    = if n = j then (s.ctx j).releasePair s.freeIdx true else if n = i then (s.ctx i).releasePair s.freeIdx false else s.ctx n := by
  have hbase : ∀ m, ({ s.drawn with paired := smErase s.paired k } : State).ctx m = s.ctx m := fun _ => rfl
  rw [State.pairReleased, State.ctx_modCtx, State.ctx_modCtx, State.ctx_modCtx, if_neg hne, hbase, hbase, hbase]

/-- Settles O50: selections by `ctx_placeCopy`, launches without slices by `headOf_published`, slices executed again by `reexecute_spec`
and `slices_refuseReexec`, write-backs by `writeBack_clean`, and paired requests by `ctx_pairReleased` and `pairMismatch_spec`. Which copy
of a matched request is performed, and the order of the two on the agenda, are the model's (log entries 2 and 71). -/
theorem slicesAndPairs : Obligations.SlicesAndPairs := by
  intro s u core part p q g k h x y l cands hs slots r j
  refine ⟨fun hp hsel hre hc => ⟨fun hn => ?none, fun hn hf hh hpair => ?placed⟩, sliceSelection_idle,
    fun hq hl hstop ht hm hst hgate => ?zero, fun hg => ⟨fun hr => ?kept, fun hr hfull => ?refused, fun hr hroom => ?again⟩,
    fun hq => congrArg Host.Outcome.next (writeBack_none hq), fun hq => ⟨_, rfl, writeBack_clean hq, fun v => writeBack_ok hq⟩,
    fun hr hl => ⟨pairedRequestMatch_alone hr, fun hj hne hh => ?matched, fun e he hbad => ?differs⟩, pairTimeout_idle⟩
  case none => rw [sliceSelection_selects hp hsel, select_none hre hc hn]
  case placed =>
    refine ⟨_, sliceSelection_selects hp hsel, ?_⟩
    have hfit : (u.skipsCounted p q x cands).fits core l.tt = some (h :: hs, slots) := (fits_skipsCounted u p q core x cands l.tt).trans hf
    rw [select_some hre hc hn, afterPlacement_ctx _ p q ⟨core, h⟩ hh, ctx_modQueue, placeSlice_unpaired hfit hpair, ctx_placeCopy]; rfl
  case zero =>
    have he := zeroSliceLaunch_gated hq hl hstop ht hm hst hgate
    refine ⟨fun hk => by rw [he, if_pos (bne_iff_ne.2 hk)], fun hk => ⟨_, ?_, rfl, headOf_find (headOf_published hq hgate)⟩⟩
    rw [he, hk]; rfl
  case kept => rw [sliceReexecution_eq hg, hr]; rfl
  case refused =>
    refine ⟨(s.refuseReexec core g y).coreError core, ?_, ?_, (raise_control _ _ _ _ _).exists⟩
    · rw [sliceReexecution_eq hg, hr, hfull]; rfl
    · rw [State.coreError, (keeps_raise _ _ _ _ _).cores, slices_refuseReexec]
  case again =>
    refine ⟨s.reexecute (s.core core).partid core g y, ?_, reexecute_spec s _ core g y⟩
    rw [sliceReexecution_eq hg, hr, hroom]; rfl
  case matched =>
    have hctx := ctx_pairReleased s k hne
    refine ⟨_, pairedRequestMatch_matches hr hl hj hh, ⟨fun n hn => ?_, fun _ => rfl⟩, rfl, rfl, ?_, ?_⟩
    · simp only [List.mem_cons, List.not_mem_nil, or_false, not_or] at hn
      exact (hctx n).trans (by rw [if_neg hn.2, if_neg hn.1])
    · exact (hctx r.first).trans (by rw [if_neg (Ne.symm hne), if_pos rfl]; rfl)
    · exact (hctx j).trans (by rw [if_pos rfl]; rfl)
  case differs =>
    have hspec := pairMismatch_spec s k r y
    simp only [List.mem_cons, List.not_mem_nil, or_false] at he
    rcases he with rfl | rfl
    · exact ⟨_, pairedRequestMatch_differs hr hl hbad.1 hbad.2, hspec⟩
    · exact ⟨_, pairTimeout_late hr hl hbad.1 hbad.2, hspec⟩

end Sys2Proof.Machine
end

section
/-! The apprentice's instructions: what each leaves of its slot, and the ends of `apx.begin` and `apx.end`. -/

namespace Sys2Proof.Machine

open Sys2Proof

/-! ## `apx.cfg`, `apx.stat` and `apx.inv` (R376) -/

/-- A meaning goes on with the value of its first step. -/
theorem finish_bind_ok {α : Type} (s : State) {e : Except Stop α} {x : α} (h : e = .ok x) (k : α → Body) :
    finish s (e >>= k) = finish s (k x) := by rw [h]; rfl

theorem finish_ite_ok (s : State) (c : Bool) (t u : State) :
    finish s (if c then .ok t else .ok u) = .next (if c then t else u) := by cases c <;> rfl

theorem configure_refused (a : ApxSlot) (v : Word) : (a.configure v).1 = !axValid v := by
  unfold ApxSlot.configure
  cases hv : axValid v
  · rfl
  · by_cases hn : axNin v = 0 <;> simp [hn]

/-- A result in an x register of a context of which something besides its pc has changed. -/
theorem xWritten_advance_modMe (s : State) (f : Ctx → Ctx) (d : Nat) (v : Word) (hpc : (f s.me).pc = s.me.pc) :
    XWritten (s.modMe f) ((s.modMe f).setX d v).advance d v (s.pc + s.len) := by
  have h := xWritten_advance (s.modMe f) d v
  rw [State.pc, State.me_modMe, hpc] at h
  exact h

section
variable {s : State} {d : Nat} (hd : s.me.canWrite d = true) (a : Nat)
include hd

theorem apxCfg_configures (b : Nat) : exec (.apxCfg d a b) s = .next (((s.setApx (clusterOf s.cur.core) (bits (s.x a) 0 2)
    ((s.apxSlot (bits (s.x a) 0 2)).configure (s.x b)).2).setX d (if axValid (s.x b) then 0 else 1)).advance).commanded := by
  have hanswer : (if axValid (s.x b) then 0 else 1 : Word) = if ((s.apxSlot (bits (s.x a) 0 2)).configure (s.x b)).1 then 1 else 0 := by
    rw [configure_refused]; cases axValid (s.x b) <;> rfl
  rw [hanswer]
  exact finish_bind_ok s (destX_ok hd) _

theorem apxStat_reads : exec (.apxStat d a) s = .next (((s.setApx (clusterOf s.cur.core) (bits (s.x a) 0 2)
    (s.apxSlot (bits (s.x a) 0 2))).setX d (s.apxSlot (bits (s.x a) 0 2)).statWord).advance).commanded :=
  finish_bind_ok s (destX_ok hd) _

/-- The state in which the slots that a word names are invalidated for cause 2 (R372). -/
def State.apxInvalidated (s : State) (v : Word) : State :=
  (invNames v).foldl (fun t k => t.setApx (clusterOf s.cur.core) k ((t.apxSlot k).invalidate 2)) s

theorem apxInv_invalidates : exec (.apxInv d a) s = .next ((s.apxInvalidated (s.x a)).setX d 0).advance.commanded :=
  finish_bind_ok s (destX_ok hd) _

end

theorem invNames_nodup (v : Word) : (invNames v).Nodup := by
  unfold invNames
  split
  · decide
  · exact List.nodup_singleton _

/-- Invalidation changes the named slots of the executing cluster, and no context. -/
theorem apxInvalidated_spec (s : State) (v : Word) :
    let t := s.apxInvalidated v
    (∀ j, (t.cluster (clusterOf s.cur.core)).apxSlot j
      = if j ∈ invNames v then (s.apxSlot j).invalidate 2 else (s.cluster (clusterOf s.cur.core)).apxSlot j) ∧
    t.cur = s.cur ∧ (∀ i, t.ctx i = s.ctx i) ∧ ∀ pa, t.homeByte pa = s.homeByte pa := by
  obtain ⟨hslots, hcores, hcur, -, -, -, hmem⟩ := apx_fold 2 (invNames v) (invNames_nodup v) s
  exact ⟨hslots, hcur, fun i => by simp only [State.ctx, State.core]; rw [State.apxInvalidated, hcores], hmem⟩

/-- The clusters after a result has been written and a command counted. -/
theorem cluster_setX_commanded (s : State) (d : Nat) (v : Word) (n : Nat) : ((s.setX d v).advance.commanded).cluster n = s.cluster n := by
  obtain ⟨cores, e⟩ := committed_spec (s.setX d v).advance (s.setX d v).advance.req
  rw [State.commanded, e]; rfl

theorem x_commanded (s : State) (n : Nat) : s.commanded.x n = s.x n :=
  congrArg (Ctx.xreg · n) (accessFrame_commanded s).me

/-! ## `apx.begin` and `apx.end` (R375) -/

/-- The slot after the arrival of a run that is not served: the run that the context has open is the new one (R370). -/
def ApxSlot.opened (a : ApxSlot) (i : CtxId) (k : ApxKind) (x : List F32) : ApxSlot :=
  { a.close i with opens := (a.close i).opens ++ [⟨i.core, i.ctx, k, x⟩] }

section
variable {s u : State} {d : Nat} (hd : s.me.canWrite d = true) {a : Nat}
include hd

section
variable {b pe pb : Nat} (hu : s.vAccess [axVin (s.apxSlot (bits (s.x a) 0 2)).ctl] [axVout (s.apxSlot (bits (s.x a) 0 2)).ctl] = .ok u)
  (hb : bits (s.x b) 0 2 = 0) (he : u.codeAddress (s.x b).toNat = .ok pe) (hp : u.codeAddress u.pc.toNat = .ok pb)
include hu hb he hp

theorem apxBegin_arrives :
    let cl := clusterOf s.cur.core
    let k := bits (s.x a) 0 2
    let sl := u.apxSlot k
    let x := u.lanes32 (axVin sl.ctl) (axNin sl.ctl)
    let r := sl.arrive pb pe x (u.stepMode u.cur.core)
    let w := apxAnswer sl.state r.1.res (r.1.kind != .plain) r.1.served
    let t := u.setApx cl k (r.2.opened u.cur r.1.kind x)
    exec (.apxBegin d a b) s = .next (if r.1.served
      then ((((u.setApx cl k r.2).serveOutputs (axVout sl.ctl) (sl.surrogate x)).setX d w).setPc (s.x b + 4)).commanded
      else ((if axPure sl.ctl then t.modMe fun c => { c with pure := some k } else t).setX d w).advance.commanded) := by
  intro cl k sl x r w t
  have halign : u.keepFaults (need (bits (s.x b) 0 2 == 0) (trapWith .misaligned (s.x b))) = .ok () := by rw [hb]; rfl
  refine (finish_bind_ok s (destX_ok hd) _).trans ((finish_bind_ok s hu _).trans ((finish_bind_ok s halign _).trans
    ((finish_bind_ok s (show u.keepFaults _ = .ok pe by rw [he]; rfl) _).trans
      ((finish_bind_ok s (show u.keepFaults _ = .ok pb by rw [hp]; rfl) _).trans ?_))))
  exact finish_ite_ok s _ _ _

end

theorem apxEnd_finishes (hu : s.vAccess [axVout (s.apxSlot (bits (s.x a) 0 2)).ctl] [] = .ok u) :
    let k := bits (s.x a) 0 2
    let sl := u.apxSlot k
    let r := sl.finish u.cur (u.lanes32 (axVout sl.ctl) (axNout sl.ctl)) (u.stepMode u.cur.core)
    exec (.apxEnd d a) s = .next ((((u.setApx (clusterOf u.cur.core) k r.2).modMe fun c =>
      { c with pure := if c.pure = some k then none else c.pure }).setX d r.1).advance).commanded :=
  (finish_bind_ok s (destX_ok hd) _).trans (finish_bind_ok s hu _)

end

/-- Settles O37: `apx.cfg`, `apx.stat` and `apx.inv` by the slot that each leaves, and `apx.begin` and `apx.end` by `apxBegin_arrives` and
`apxEnd_finishes`. The SAMP bit of the answer word of `apx.end` is log entry 34's, and the end of a slice's restartability log entry
107's (R239). -/
theorem apprenticeInstructions : Obligations.ApprenticeInstructions := by
  intro s u d a b pe pb hd k cl ctl
  refine ⟨⟨_, apxCfg_configures hd a b, xWritten_advance _ d _⟩, ⟨_, apxStat_reads hd a, xWritten_advance _ d _⟩, ?inv,
    fun hu hb he hp => ?begin, fun hu => ?done⟩
  case inv =>
    obtain ⟨hslots, hcur, hctx, hmem⟩ := apxInvalidated_spec s (s.x a)
    have hme : (s.apxInvalidated (s.x a)).me = s.me := by rw [State.me, hcur, hctx]; rfl
    have hw := xWritten_advance (s.apxInvalidated (s.x a)) d 0
    refine ⟨_, apxInv_invalidates hd a, fun h0 => (x_commanded _ d).trans (hw.written h0), fun n hn => ?_, fun j => ?_, fun i hi => ?_,
      fun pa => ?_⟩
    · exact (x_commanded _ n).trans ((hw.others n hn).trans (congrArg (Ctx.xreg · n) hme))
    · rw [cluster_setX_commanded]; exact hslots j
    · rw [(accessFrame_commanded _).ctx, hw.outside.ctx (hcur ▸ hi), hctx]
    · rw [homeByte_commanded, hw.outside.memory, hmem]
  case begin =>
    intro sl x r w open'
    have harrives := apxBegin_arrives hd hu hb he hp
    have hopens : r.1.served = false → exec (.apxBegin d a b) s = .next
        ((if axPure sl.ctl then (u.setApx cl k open').modMe fun c => { c with pure := some k } else u.setApx cl k open').setX d w).advance.commanded :=
      fun hs => harrives.trans (congrArg Host.Outcome.next (if_neg (ne_true_of_eq_false hs)))
    refine ⟨fun hs => ⟨_, harrives.trans (congrArg Host.Outcome.next (if_pos hs)), xWritten_setX _ d w _⟩, fun hs hpure => ?_, fun hs hpure => ?_⟩
    · rw [hopens hs, hpure]
      exact ⟨_, rfl, xWritten_advance _ d w⟩
    · rw [hopens hs, hpure]
      exact ⟨_, rfl, xWritten_advance_modMe _ _ d w rfl⟩
  case done =>
    have hcur : u.cur = s.cur := (vAccess_spec s u _ _ hu).1.cur
    exact ⟨_, (apxEnd_finishes hd hu).trans (by rw [hcur]), xWritten_advance_modMe _ _ d _ rfl⟩

end Sys2Proof.Machine
end

section
/-! The umpire's answered instructions: answers given at once, pairs, rounds and runs counted, and a decided catch told to `cwait`. -/

namespace Sys2Proof.Machine

open Sys2Proof

/-! ## Answers and progress (R326, R355) -/

theorem progress_modMe (s : State) (f : Ctx → Ctx) (n : Nat) : (s.modMe f).progress n = (s.progress n).modMe f := by
  have hpart : ((s.modMe f).core n).inPart = (s.core n).inPart ∧ ((s.modMe f).core n).partid = (s.core n).partid := by
    rw [State.core_modMe]
    split
    · exact ⟨rfl, rfl⟩
    · exact ⟨rfl, rfl⟩
  unfold State.progress
  rw [hpart.1, hpart.2]
  split <;> rfl

/-- A progress event after a result leaves the result (R355). -/
theorem XWritten.progress {s t : State} {d : Nat} {v w : Word} (h : XWritten s t d v w) (n : Nat) :
    XWritten (s.progress n) (t.progress n) d v w := by
  have hx : ∀ (y : State) k, (y.progress n).x k = y.x k := fun y k => congrArg (Ctx.xreg · k) (prog_frame y n)
  refine ⟨fun h0 => (hx t d).trans (h.written h0), (hx t 0).trans h.zero, fun k hk => ?_, ?_, ?_, ⟨?_, fun pa => ?_⟩⟩
  · rw [hx, hx, h.others k hk]
  · rw [prog_frame, prog_frame]; exact h.bank
  · rw [prog_frame, prog_frame]; exact h.context
  · rw [prog_frame, ← progress_modMe, ← h.outside.outside]
  · rw [State.homeByte_progress, State.homeByte_progress, h.outside.memory]

theorem finish_reply {s b : State} (hm : b.me = s.me) (hc : b.cur = s.cur) (d : Nat) (v : Word) :
    ∃ t, finish s (.ok (b.reply d v)) = .next t ∧
      XWritten ((b.commanded.progress s.cur.core).modMe fun c => { c with wait := .none }) t d v (s.pc + 4) :=
  ⟨_, rfl, xW_reply b s d v hm hc⟩

/-! ## HALTED, NOTUMP and the bounds of a catch number (R339, R343) -/

namespace Committee

theorem umpireStatus_stopped {x : Committee} (h : x.state = .off ∨ x.state = .halted) (p : Nat) : x.umpireStatus p = 1 := by
  rcases h with h | h <;> simp [Committee.umpireStatus, h]

theorem umpireStatus_other {x : Committee} {p : Nat} (h0 : x.state ≠ .off) (h1 : x.state ≠ .halted) (hu : x.umpire ≠ some p) :
    x.umpireStatus p = 3 := by simp [Committee.umpireStatus, h0, h1, hu]

theorem cwaitStatus_stops {x : Committee} {p : Nat} (h : x.umpireStatus p ≠ 0) (n : Nat) : x.cwaitStatus p n = x.umpireStatus p := by
  simp [Committee.cwaitStatus, h]

theorem sendStatus_stops {x : Committee} {p : Nat} (h : x.umpireStatus p ≠ 0) (n : Nat) : x.sendStatus p n = x.umpireStatus p := by
  simp [Committee.sendStatus, h]

section
variable {x : Committee} {p : Nat} (hu : x.umpireStatus p = 0)
include hu

theorem cwaitStatus_wrong {n : Nat} (h : n = 0 ∨ x.ccatch.toNat + 2 < n) : x.cwaitStatus p n = 2 := by
  simp [Committee.cwaitStatus, hu, h]

theorem cwaitStatus_past {n : Nat} (h0 : n ≠ 0) (h : n ≤ x.ccatch.toNat) : x.cwaitStatus p n = 5 := by
  have h2 : ¬x.ccatch.toNat + 2 < n := by omega
  simp [Committee.cwaitStatus, hu, h0, h2, h]

theorem cwaitStatus_due {n : Nat} (h : x.ccatch.toNat < n) (h2 : n ≤ x.ccatch.toNat + 2) : x.cwaitStatus p n = 0 := by
  have h0 : n ≠ 0 := by omega
  simp [Committee.cwaitStatus, hu, h0, Nat.not_lt.2 h2, Nat.not_le.2 h]

theorem sendStatus_early {n : Nat} (h : ¬(n = (x.ccatch.toNat + 1) % 2 ^ 32 ∧ x.state ≠ .opened)) : x.sendStatus p n = 2 := by
  simpa [Committee.sendStatus, hu] using h

theorem sendStatus_due {n : Nat} (h : n = (x.ccatch.toNat + 1) % 2 ^ 32 ∧ x.state ≠ .opened) : x.sendStatus p n = 0 := by
  obtain ⟨rfl, ho⟩ := h
  simp [Committee.sendStatus, hu, ho]

end

/-! ## Pairs and rounds (R343, R345) -/

section
variable {x : Committee} {shard : Nat}

theorem contribute_outside {v : F32} {id : Nat} (h : x.nshard ≤ shard ∨ (v ≠ 0xFF800000 ∧ x.npiece ≤ id)) :
    x.contribute shard v id = (6, x) := by
  have hc : (x.nshard ≤ shard || (v != 0xFF800000 && x.npiece ≤ id)) = true := by simpa using h
  exact if_pos hc

theorem contribute_inside {v : F32} {id : Nat} (hs : shard < x.nshard) (h : v = 0xFF800000 ∨ id < x.npiece) : x.contribute shard v id
    = if smHas x.pairs shard then (4, x) else (0, { x with pairs := smSet x.pairs shard (v, id) }) := by
  have hc : ¬(x.nshard ≤ shard || (v != 0xFF800000 && x.npiece ≤ id)) = true := by
    simp only [Bool.or_eq_true, decide_eq_true_eq, Bool.and_eq_true, bne_iff_ne, not_or, Nat.not_le, not_and]
    exact ⟨hs, fun hv => h.resolve_left hv⟩
  exact if_neg hc

variable {round : Nat} {isMax : Bool} {v : F32}

theorem addRound_mixed (h : (smGet x.rounds round ⟨isMax, []⟩).isMax ≠ isMax) : x.addRound shard round isMax v = (6, x) := by
  simp [Committee.addRound, h]

variable (hs : shard < x.nshard)
include hs

theorem addRound_twice (h : (smGet x.rounds round ⟨isMax, []⟩).isMax = isMax)
    (hv : smHas (smGet x.rounds round ⟨isMax, []⟩).values shard = true) : x.addRound shard round isMax v = (4, x) := by
  simp [Committee.addRound, h, hv, Nat.not_le.2 hs]

theorem addRound_counts (h : (smGet x.rounds round ⟨isMax, []⟩).isMax = isMax)
    (hv : smHas (smGet x.rounds round ⟨isMax, []⟩).values shard = false) : x.addRound shard round isMax v
      = (0, { x with rounds := smSet x.rounds round { smGet x.rounds round ⟨isMax, []⟩ with
          values := smSet (smGet x.rounds round ⟨isMax, []⟩).values shard v } }) := by
  simp [Committee.addRound, h, hv, Nat.not_le.2 hs]

end

end Committee

/-! ## The instructions -/

theorem umpireChecks_ok {s : State} {d : Nat} (hd : s.me.canWrite d = true) (hm : s.stepMode s.cur.core = false)
    (hp : s.me.pureMarked = false) : s.umpireChecks d = .ok () := by
  simp [State.umpireChecks, destX_ok hd, hm, hp, need, bind, Except.bind]

section
variable {s : State} {d : Nat} (hd : s.me.canWrite d = true) (hm : s.stepMode s.cur.core = false) (hp : s.me.pureMarked = false)
  (a b : Nat)
include hd hm hp

theorem cwait_answers {st : Nat} (h0 : st ≠ 0) (h : (s.comm (bits (s.x b) 40 3)).cwaitStatus s.myPart (bits (s.x b) 0 40) = st) :
    exec (.cwait d a b) s = finish s (.ok (s.reply d (word (st * 2 ^ 16)))) := by
  subst h
  exact (finish_bind_ok s (umpireChecks_ok hd hm hp) _).trans (congrArg (finish s) (if_pos (bne_iff_ne.2 h0)))

theorem nmax_answers {st : Nat} (h0 : st ≠ 0) (h : (s.comm (bits (s.x b) 32 3)).sendStatus s.myPart (bits (s.x a) 32 32) = st) :
    exec (.nmax d a b) s = finish s (.ok (s.reply d (word st))) := by
  subst h
  exact (finish_bind_ok s (umpireChecks_ok hd hm hp) _).trans (congrArg (finish s) (if_pos (bne_iff_ne.2 h0)))

theorem sumRound_answers (isMax : Bool) {st : Nat} (h0 : st ≠ 0)
    (h : (s.comm (bits (s.x b) 32 3)).sendStatus s.myPart (bits (s.x a) 32 32) = st) :
    s.sumRound d a b isMax = finish s (.ok (s.reply d (word (st * 2 ^ 32)))) := by
  subst h
  exact (finish_bind_ok s (umpireChecks_ok hd hm hp) _).trans (congrArg (finish s) (if_pos (bne_iff_ne.2 h0)))

theorem catchK_answers {st : Nat} (h0 : st ≠ 0) (h : (s.comm (bits (s.x b) 8 3)).sendStatus s.myPart (bits (s.x b) 32 32) = st) :
    exec (.catchK d a b) s = finish s (.ok (s.reply d (word st))) := by
  subst h
  exact (finish_bind_ok s (umpireChecks_ok hd hm hp) _).trans (congrArg (finish s) (if_pos (bne_iff_ne.2 h0)))

/-- HALTED and NOTUMP answer each of the umpire's instructions, at the place of STATUS in its answer. -/
theorem umpire_refused :
    ∀ e ∈ ([(.cwait d a b, (bits (s.x b) 40 3, 2 ^ 16)), (.nmax d a b, (bits (s.x b) 32 3, 1)), (.nsum d a b, (bits (s.x b) 32 3, 2 ^ 32)),
      (.nsumMax d a b, (bits (s.x b) 32 3, 2 ^ 32)), (.catchK d a b, (bits (s.x b) 8 3, 1))] : List (Instr × (Nat × Nat))),
      ∀ st, st ≠ 0 → (s.comm e.2.1).umpireStatus s.myPart = st → exec e.1 s = finish s (.ok (s.reply d (word (st * e.2.2)))) := by
  intro e he st h0 hst
  simp only [List.mem_cons, List.not_mem_nil, or_false] at he
  have hcw := fun n => (Committee.cwaitStatus_stops (hst ▸ h0) n).trans hst
  have hse := fun n => (Committee.sendStatus_stops (hst ▸ h0) n).trans hst
  rcases he with rfl | rfl | rfl | rfl | rfl
  · exact cwait_answers hd hm hp a b h0 (hcw _)
  · exact (nmax_answers hd hm hp a b h0 (hse _)).trans (by rw [Nat.mul_one])
  · exact sumRound_answers hd hm hp a b false h0 (hse _)
  · exact sumRound_answers hd hm hp a b true h0 (hse _)
  · exact (catchK_answers hd hm hp a b h0 (hse _)).trans (by rw [Nat.mul_one])

theorem cwait_asks (h : (s.comm (bits (s.x b) 40 3)).cwaitStatus s.myPart (bits (s.x b) 0 40) = 0) :
    exec (.cwait d a b) s = .next ((s.commanded.modMe fun x => { x with
      wait := .cwait (bits (s.x b) 40 3) (bits (s.x b) 0 40) (s.x a) s.myCore.ptroot d }).answerCwaits (bits (s.x b) 40 3)) :=
  (finish_bind_ok s (umpireChecks_ok hd hm hp) _).trans (congrArg (finish s) (if_neg (by rw [h]; decide)))

theorem nmax_contributes (h : (s.comm (bits (s.x b) 32 3)).sendStatus s.myPart (bits (s.x a) 32 32) = 0) {r : Nat × Committee}
    (hr : (s.comm (bits (s.x b) 32 3)).contribute (bits (s.x b) 24 8) (countedValue (f32 (bits (s.x a) 0 32))) (bits (s.x b) 0 18) = r) :
    exec (.nmax d a b) s = finish s (.ok ((s.modComm (bits (s.x b) 32 3) fun _ => r.2).reply d (word r.1))) := by
  subst hr
  exact (finish_bind_ok s (umpireChecks_ok hd hm hp) _).trans (congrArg (finish s) (if_neg (by rw [h]; decide)))

section
variable (isMax : Bool) (h : (s.comm (bits (s.x b) 32 3)).sendStatus s.myPart (bits (s.x a) 32 32) = 0) {st : Nat} {y : Committee}
  (hr : (s.comm (bits (s.x b) 32 3)).addRound (bits (s.x b) 24 8) (bits (s.x b) 0 4) isMax (f32 (bits (s.x a) 0 32)) = (st, y))
include h hr

theorem sumRound_refuses (h0 : st ≠ 0) : s.sumRound d a b isMax = finish s (.ok (s.reply d (word (st * 2 ^ 32)))) := by
  have hst : ((s.comm (bits (s.x b) 32 3)).addRound (bits (s.x b) 24 8) (bits (s.x b) 0 4) isMax (f32 (bits (s.x a) 0 32))).1 = st := by rw [hr]
  rw [← hst] at h0 ⊢
  exact (finish_bind_ok s (umpireChecks_ok hd hm hp) _).trans (congrArg (finish s) ((if_neg (by rw [h]; decide)).trans
    (if_pos (bne_iff_ne.2 h0))))

/-- A contribution that is counted waits for its round; the last of a round's completes it (R345). -/
theorem sumRound_counts (h0 : st = 0) :
    let c := bits (s.x b) 32 3
    let n := bits (s.x a) 32 32
    let round := bits (s.x b) 0 4
    let q := smGet y.rounds round ⟨isMax, []⟩
    let u := (s.commanded.modComm c fun _ => y).modMe fun y => { y with wait := .nsum c n round d }
    s.sumRound d a b isMax = .next (if q.values.length = (s.comm c).nshard then u.answerAll (roundAnswer c n round q.result) else u) := by
  have hy : ((s.comm (bits (s.x b) 32 3)).addRound (bits (s.x b) 24 8) (bits (s.x b) 0 4) isMax (f32 (bits (s.x a) 0 32))).2 = y := by rw [hr]
  subst hy
  exact (finish_bind_ok s (umpireChecks_ok hd hm hp) _).trans (congrArg (finish s) ((if_neg (by rw [h]; decide)).trans
    (if_neg (by rw [hr, h0]; exact Bool.false_ne_true))))

end

section
variable (h : (s.comm (bits (s.x b) 8 3)).sendStatus s.myPart (bits (s.x b) 32 32) = 0)
include h

theorem catchK_undrafted (hk : (s.comm (bits (s.x b) 8 3)).kspec = 0) : exec (.catchK d a b) s = finish s (.ok (s.reply d 7)) :=
  (finish_bind_ok s (umpireChecks_ok hd hm hp) _).trans (congrArg (finish s) ((if_neg (by rw [h]; decide)).trans (if_pos hk)))

variable (hk : (s.comm (bits (s.x b) 8 3)).kspec ≠ 0)
include hk

theorem catchK_refuses (hr : s.runIds (s.comm (bits (s.x b) 8 3)) (s.x a) (bits (s.x b) 0 4) = none) :
    exec (.catchK d a b) s = finish s (.ok (s.reply d 6)) :=
  (finish_bind_ok s (umpireChecks_ok hd hm hp) _).trans (congrArg (finish s) ((if_neg (by rw [h]; decide)).trans
    ((if_neg hk).trans (by rw [hr]))))

theorem catchK_drafts {ids : List Nat} {u : State}
    (hr : s.runIds (s.comm (bits (s.x b) 8 3)) (s.x a) (bits (s.x b) 0 4) = some (ids, u)) :
    exec (.catchK d a b) s = finish s (if (s.comm (bits (s.x b) 8 3)).run.isSome then .ok (u.reply d 4)
      else .ok ((u.modComm (bits (s.x b) 8 3) fun x => { x with run := some ids }).reply d 0)) :=
  (finish_bind_ok s (umpireChecks_ok hd hm hp) _).trans (congrArg (finish s) ((if_neg (by rw [h]; decide)).trans
    ((if_neg hk).trans (by rw [hr]))))

end

end

theorem runIds_broken (s : State) {x : Committee} {a : Word} {j : Nat} (h : x.kspec < j ∨ (j ≠ 0 ∧ a.toNat % 4 ≠ 0)) :
    s.runIds x a j = none := by
  rcases h with h | ⟨h0, h⟩
  · exact if_pos h
  · have ha : (a.toNat % 4 != 0) = true := bne_iff_ne.2 h
    simp only [State.runIds, h0, ha, if_false, if_true, ite_self]

theorem runIds_frame {s u : State} {x : Committee} {a : Word} {j : Nat} {ids : List Nat} (h : s.runIds x a j = some (ids, u)) :
    AccessFrame s u := by
  unfold State.runIds at h
  dsimp only at h
  split at h
  · cases h
  · split at h
    · cases h; exact .refl s
    · split at h
      · cases h
      · split at h
        · cases h
        · rename_i hload
          split at h
          · cases h; exact (access_loadBytes _ _ _ _ _ hload).frame
          · cases h

/-! ## A decided catch (R339) -/

/-- A context that waits for a decided catch goes on with the answer `v`, the decision's combine block loaded. -/
def State.cwaitAnswered (s : State) (i : CtxId) (x : Committee) (d : Nat) (v : Word) : State :=
  (s.modCtx i fun y => ({ y with combine := x.decision } : Ctx).answered d v).progress i.core

theorem xWritten_cwaitAnswered (s : State) (x : Committee) (d : Nat) (v : Word) :
    XWritten ((s.modMe fun y => { y with wait := .none, combine := x.decision }).progress s.cur.core) (s.cwaitAnswered s.cur x d v) d v
      (s.pc + 4) := by
  have h := xW_answered (s.modMe fun y => { y with combine := x.decision }) d v
  rw [State.modMe_modMe, State.modMe_modMe, State.pc, State.me_modMe] at h
  exact h.progress s.cur.core

/-- STATUS 0 adds nothing to a CVOTE word. -/
theorem or_word_zero (v : Word) : v ||| word 0 = v := BitVec.or_zero

section
variable {s : State} {c : Nat} {i : CtxId} {rec pt : Word} {d : Nat}

theorem answerCwaits_undecided (h : (s.comm c).state ≠ .decided) : s.answerCwaits c = s := if_neg h

theorem answerCwaits_one (h : (s.comm c).state = .decided) (hw : s.cwaiters c = [(i, rec, pt, d)]) :
    s.answerCwaits c = s.answerCwait i c rec pt d := by
  rw [State.answerCwaits, if_pos h, hw, List.foldl_cons, List.foldl_nil]

theorem answerCwait_unrecorded (h0 : rec = 0) : s.answerCwait i c rec pt d = s.cwaitAnswered i (s.comm c) d (s.comm c).cvote := by
  simp only [State.answerCwait, if_pos h0, if_true, Nat.zero_mul, or_word_zero, State.cwaitAnswered]

theorem answerCwait_misaligned (h : rec.toNat % 64 ≠ 0) :
    s.answerCwait i c rec pt d = s.cwaitAnswered i (s.comm c) d ((s.comm c).cvote ||| word (6 * 65536)) := by
  have h0 : rec ≠ 0 := fun e => h (e ▸ by decide)
  simp only [State.answerCwait, if_neg h0, if_pos (bne_iff_ne.2 h)]; rfl

section
variable (h0 : rec ≠ 0) (ha : rec.toNat % 64 = 0)
include h0 ha

theorem answerCwait_refused {e : MemErr} (hw : s.storeBytes
      { core := i.core, ctx := i.ctx, priv := (s.ctx i).priv, ptroot := pt, eng := some 5, direct := true } (vaRange rec.toNat 64)
      (s.comm c).decisionRecord = .error e) :
    s.answerCwait i c rec pt d = s.cwaitAnswered i (s.comm c) d ((s.comm c).cvote ||| word (6 * 65536)) := by
  simp only [State.answerCwait, if_neg h0, ha, bne_self_eq_false, Bool.false_eq_true, if_false, hw]; rfl

theorem answerCwait_recorded {w : State} (hw : s.storeBytes
      { core := i.core, ctx := i.ctx, priv := (s.ctx i).priv, ptroot := pt, eng := some 5, direct := true } (vaRange rec.toNat 64)
      (s.comm c).decisionRecord = .ok w) :
    s.answerCwait i c rec pt d = w.cwaitAnswered i (s.comm c) d (s.comm c).cvote := by
  simp only [State.answerCwait, if_neg h0, ha, bne_self_eq_false, Bool.false_eq_true, if_false, hw, if_true, Nat.zero_mul, or_word_zero,
    State.cwaitAnswered]

end

end

/-- A waiting `cwait` in a state that has all of the executing context but its wait. -/
def State.cwaiting (s : State) (c k : Nat) (rec : Word) (d : Nat) : State :=
  s.commanded.modMe fun y => { y with wait := .cwait c k rec s.myCore.ptroot d }

theorem cur_commanded (s : State) : s.commanded.cur = s.cur := (accessFrame_commanded s).cur

theorem me_cwaiting (s : State) (c k : Nat) (rec : Word) (d : Nat) :
    (s.cwaiting c k rec d).me = { s.me with wait := .cwait c k rec s.myCore.ptroot d } := by
  rw [State.cwaiting, State.me_modMe, (accessFrame_commanded s).me]

theorem comm_commanded (s : State) (c : Nat) : s.commanded.comm c = s.comm c := by
  obtain ⟨cores, e⟩ := committed_spec s s.req
  rw [State.commanded, e]; rfl

theorem cwait_told (s w : State) (c k : Nat) (rec : Word) (d : Nat) (x : Committee) (v : Word)
    (hc : w.cur = s.cur) (hm : w.me = (s.cwaiting c k rec d).me) :
    XWritten ((w.modMe fun y => { y with wait := .none, combine := x.decision }).progress s.cur.core) (w.cwaitAnswered s.cur x d v) d v
      (s.pc + 4) := by
  have h := xWritten_cwaitAnswered w x d v
  rw [State.pc, hm, me_cwaiting, hc] at h
  exact h

/-- Settles O42: HALTED and NOTUMP by `umpire_refused`; `cwait` by its status and, of a decided catch, by `answerCwait`; pairs by
`contribute`, contributions to rounds by `addRound`, and runs by `runIds`. BADARG before DUP is log entry 56. -/
theorem committeeInstructions : Obligations.CommitteeInstructions := by
  intro s d a b hd hm hp done p go n shard
  have hreply : ∀ (i : Instr) (v : Word), exec i s = finish s (.ok (s.reply d v)) → ∃ t, exec i s = .next t ∧ XWritten (done s) t d v go :=
    fun i v h => h ▸ finish_reply rfl rfl d v
  refine ⟨fun e he => ⟨fun hx => ?_, fun h0 h1 hu => ?_⟩, fun hu => ?cwait, fun hu => ?sends, fun hu => ?drafts⟩
  · exact hreply _ _ (umpire_refused hd hm hp a b e he 1 (by decide) (Committee.umpireStatus_stopped hx p))
  · exact hreply _ _ (umpire_refused hd hm hp a b e he 3 (by decide) (Committee.umpireStatus_other h0 h1 hu))
  case cwait =>
    have hdue := fun h1 h2 => cwait_asks hd hm hp a b (Committee.cwaitStatus_due hu h1 h2)
    let c := bits (s.x b) 40 3
    let x := s.comm c
    let k := bits (s.x b) 0 40
    let v := s.cwaiting c k (s.x a) d
    refine ⟨fun hk => ?_, fun h0 hk => ?_, fun h1 h2 hst => ?asks, fun hst h1 h2 hone => ?told⟩
    · exact hreply _ _ (cwait_answers hd hm hp a b (by decide) (Committee.cwaitStatus_wrong hu hk))
    · exact hreply _ _ (cwait_answers hd hm hp a b (by decide) (Committee.cwaitStatus_past hu h0 hk))
    case asks =>
      have hundecided := answerCwaits_undecided (s := v) (c := c) ((comm_commanded s c).symm ▸ hst)
      exact ⟨_, (hdue h1 h2).trans (congrArg _ hundecided), onlyContext_modMe _ _, me_cwaiting s c k _ d⟩
    case told =>
      have hx : v.comm c = x := comm_commanded s c
      have hcur : v.cur = s.cur := cur_commanded s
      have hprio : (v.ctx s.cur).priv = s.me.priv := by
        rw [← hcur]; exact (congrArg Ctx.priv (me_cwaiting s c k (s.x a) d)).trans rfl
      have hasks : exec (.cwait d a b) s = .next (v.answerCwait s.cur c (s.x a) s.myCore.ptroot d) :=
        (hdue h1 h2).trans (congrArg _ (answerCwaits_one (hx ▸ hst) hone))
      refine ⟨fun h0 => ⟨_, hasks, ?_⟩, fun hal => ⟨_, hasks, ?_⟩, fun h0 hal => ⟨fun e he => ⟨_, hasks, ?_⟩, fun w hw => ⟨_, hasks, ?_⟩⟩⟩
      · rw [answerCwait_unrecorded h0, hx]; exact cwait_told s v c k (s.x a) d x _ hcur rfl
      · rw [answerCwait_misaligned hal, hx]; exact cwait_told s v c k (s.x a) d x _ hcur rfl
      · rw [answerCwait_refused h0 hal (e := e) (by rw [hprio, hx]; exact he), hx]; exact cwait_told s v c k (s.x a) d x _ hcur rfl
      · have hf := (access_storeBytes _ _ _ _ _ hw).frame
        rw [answerCwait_recorded h0 hal (w := w) (by rw [hprio, hx]; exact hw), hx]
        exact cwait_told s w c k (s.x a) d x _ (hf.cur.trans hcur) hf.me
  case sends =>
    have hsum : ∀ e ∈ ([(.nsum d a b, false), (.nsumMax d a b, true)] : List (Instr × Bool)), exec e.1 s = s.sumRound d a b e.2 := by
      simp only [List.mem_cons, List.not_mem_nil, or_false]
      rintro e (rfl | rfl) <;> rfl
    refine ⟨fun hdue => ⟨?_, fun i hi => ?_⟩, fun hdue hout => ?_, fun hdue hs hin => ?_, fun hdue hs e he => ?rounds⟩
    · exact hreply _ _ (nmax_answers hd hm hp a b (by decide) (Committee.sendStatus_early hu hdue))
    · have hi' : i = .nsum d a b ∨ i = .nsumMax d a b := by simpa using hi
      have hearly := fun isMax => sumRound_answers hd hm hp a b isMax (by decide) (Committee.sendStatus_early hu hdue)
      rcases hi' with rfl | rfl
      · exact hreply _ _ (hearly false)
      · exact hreply _ _ (hearly true)
    · rw [nmax_contributes hd hm hp a b (Committee.sendStatus_due hu hdue) (Committee.contribute_outside hout)]
      exact finish_reply rfl rfl d 6
    · rw [nmax_contributes hd hm hp a b (Committee.sendStatus_due hu hdue) (Committee.contribute_inside hs hin)]
      cases smHas (s.comm (bits (s.x b) 32 3)).pairs shard
      · exact finish_reply rfl rfl d 0
      · exact finish_reply rfl rfl d 4
    case rounds =>
      have hst := Committee.sendStatus_due hu hdue
      have hrefused : ∀ {r : Nat}, (s.comm (bits (s.x b) 32 3)).addRound shard (bits (s.x b) 0 4) e.2 (f32 (bits (s.x a) 0 32))
          = (r, s.comm (bits (s.x b) 32 3)) → r ≠ 0 → ∃ t, exec e.1 s = .next t ∧ XWritten (done s) t d (BitVec.ofNat 64 (r * 2 ^ 32)) go :=
        fun hr h0 => hreply _ _ ((hsum e he).trans (sumRound_refuses hd hm hp a b e.2 hst hr h0))
      refine ⟨fun hk => hrefused (Committee.addRound_mixed hk) (by decide), fun hk hv => hrefused (Committee.addRound_twice hs hk hv) (by decide),
        fun hk hv hl => ?_, fun hk hv hl => ?_⟩
      · rw [hsum e he, sumRound_counts hd hm hp a b e.2 hst (Committee.addRound_counts hs hk hv) rfl, smGet_smSet_same, if_neg hl]
        simp only [State.modComm, comm_commanded]; rfl
      · rw [hsum e he, sumRound_counts hd hm hp a b e.2 hst (Committee.addRound_counts hs hk hv) rfl, smGet_smSet_same, if_pos hl]
        simp only [State.modComm, comm_commanded]; rfl
  case drafts =>
    refine ⟨fun h => ?_, fun hn ho => ⟨fun hk => ?_, fun hk hj => ?_, fun ids v hk hr => ?_⟩⟩
    · refine hreply _ _ (catchK_answers hd hm hp a b (by decide) (Committee.sendStatus_early hu fun h' => ?_))
      exact h.elim (fun hn => hn h'.1) h'.2
    · exact hreply _ _ (catchK_undrafted hd hm hp a b (Committee.sendStatus_due hu ⟨hn, ho⟩) hk)
    · exact hreply _ _ (catchK_refuses hd hm hp a b (Committee.sendStatus_due hu ⟨hn, ho⟩) hk (runIds_broken s hj))
    · have hf := runIds_frame hr
      rw [catchK_drafts hd hm hp a b (Committee.sendStatus_due hu ⟨hn, ho⟩) hk hr]
      cases (s.comm (bits (s.x b) 8 3)).run.isSome
      · exact finish_reply (b := v.modComm (bits (s.x b) 8 3) fun x => { x with run := some ids }) hf.me hf.cur d 0
      · exact finish_reply hf.me hf.cur d 4

end Sys2Proof.Machine
end

section
/-! The registers of a committee, and the arrivals of `catch` and `catch.nv` in flow mode. -/

namespace Sys2Proof.Machine

open Sys2Proof

/-! ## `cmrd`, `cmwr` and `cstat` (R328, R329) -/

section
variable {s : State} {d : Nat} (hd : s.me.canWrite d = true)
include hd

theorem cmrd_reads {a : Nat} (hr : commReg (bits (s.x a) 0 6) = true) (hp : s.me.priv ≠ 0)
    (ho : (s.comm (bits (s.x a) 8 3)).owner = some s.myPart ∨ (s.comm (bits (s.x a) 8 3)).concerns s.myPart = true) :
    exec (.cmrd d a) s = .next (s.setX d ((s.comm (bits (s.x a) 8 3)).reg (bits (s.x a) 0 6))).advance.commanded := by
  have hmay : (s.me.priv != 0 && ((s.comm (bits (s.x a) 8 3)).owner == some s.myPart || (s.comm (bits (s.x a) 8 3)).concerns s.myPart)) = true := by
    simpa [hp] using ho
  exact (finish_bind_ok s (destX_ok hd) _).trans ((finish_bind_ok s (if_pos hr) _).trans (finish_bind_ok s (if_pos hmay) _))

theorem cmwr_writes {a b : Nat} (hr : commReg (bits (s.x a) 0 6) = true) (hw : commReadOnly (bits (s.x a) 0 6) = false) (hp : s.me.priv ≠ 0)
    (ho : (s.comm (bits (s.x a) 8 3)).configured = false ∨ (s.comm (bits (s.x a) 8 3)).owner = none ∨
      (s.comm (bits (s.x a) 8 3)).owner = some s.myPart) :
    exec (.cmwr d a b) s = .next ((s.setX d ((s.comm (bits (s.x a) 8 3)).reg (bits (s.x a) 0 6))).advance.writeCommReg (bits (s.x a) 8 3)
      (bits (s.x a) 0 6) (s.x b)).commanded := by
  have hreg : (commReg (bits (s.x a) 0 6) && !commReadOnly (bits (s.x a) 0 6)) = true := by rw [hr, hw]; rfl
  have hmay : (s.me.priv != 0 && (!(s.comm (bits (s.x a) 8 3)).configured || (s.comm (bits (s.x a) 8 3)).owner.isNone ||
      (s.comm (bits (s.x a) 8 3)).owner == some s.myPart)) = true := by
    simpa [hp, or_assoc] using ho
  exact (finish_bind_ok s (destX_ok hd) _).trans ((finish_bind_ok s (if_pos hreg) _).trans (finish_bind_ok s (if_pos hmay) _))

theorem cstat_reads (hm : s.me.pureMarked = false) : exec (.cstat d) s = .next (s.setX d (s.standing s.myPart)).advance.commanded :=
  (finish_bind_ok s (destX_ok hd) _).trans (finish_bind_ok s (if_pos (by rw [hm]; rfl)) _)

theorem catches_arrive (a b : Nat) (hs : s.stepMode s.cur.core = false) (hm : s.me.pureMarked = false) :
    ∀ e ∈ ([(.catch d a b, true), (.catchNv d a b, false)] : List (Instr × Bool)), exec e.1 s = .next (s.commanded.flowCatch d a b e.2) := by
  have hflow : ∀ vote, s.catchInstr d a b vote = .next (s.commanded.flowCatch d a b vote) := fun vote =>
    (finish_bind_ok s (destX_ok hd) _).trans ((finish_bind_ok s (if_pos (by rw [hm]; rfl)) _).trans
      (congrArg (finish s) (if_neg (ne_true_of_eq_false hs))))
  simp only [List.mem_cons, List.not_mem_nil, or_false]
  rintro e (rfl | rfl)
  · exact hflow true
  · exact hflow false

end

/-! ## Committees and members changed twice -/

theorem comm_modMe (s : State) (f : Ctx → Ctx) (c : Nat) : (s.modMe f).comm c = s.comm c := rfl

theorem modComm_modComm (s : State) (c : Nat) (f g : Committee → Committee) : (s.modComm c f).modComm c g = s.modComm c (g ∘ f) := by
  simp only [State.modComm, State.comm, smGet_smSet_same, smSet_smSet, Function.comp]

theorem modMember_modMember (x : Committee) (m : Nat) (f g : Member → Member) :
    (x.modMember m f).modMember m g = x.modMember m (g ∘ f) := by
  simp only [Committee.modMember, Committee.member, smGet_smSet_same, smSet_smSet, Function.comp]

/-! ## Arrivals in flow mode (R331) -/

/-- The state in which a member has declared its position (R310, log entry 108). -/
def State.positioned (s : State) (c m pos : Nat) : State :=
  s.modComm c fun x => x.modMember m fun z => { z with pos := BitVec.ofNat 32 pos }

/-- A member that arrives for the open catch: its vote is cast, and counts where its position is the committee's (R314). -/
def Member.arrived (z : Member) (vote last : Bool) (pos cpos : Nat) : Member :=
  { z with cast := z.cast || vote, arr := true, rdy := vote, last := last, pos := BitVec.ofNat 32 pos, vote := vote && pos == cpos }

theorem arrive_crewless {s : State} {p : Nat} (hc : s.crewOf p = none) (pos : Nat) (last : Bool) (n : Nat) (vote : Bool) :
    s.arrive p pos last n vote = (s, .error (catchWord 7 noId 0)) := by rw [State.arrive, hc]

section
variable {s : State} {p c m : Nat} {x : Committee} (hc : s.crewOf p = some (c, m)) (hx : s.comm c = x) (pos : Nat) (last : Bool) (n : Nat)
  (vote : Bool)
include hc hx

theorem arrive_halted (hh : x.state = .halted) :
    s.arrive p pos last n vote = (s.positioned c m pos, .error (catchWord 5 noId x.cpos.toNat)) := by
  subst hx
  simp only [State.arrive, hc, hh, if_true]; rfl

variable (hh : x.state ≠ .halted)
include hh

theorem arrive_spent (hy : (x.member m).state = .spent) :
    s.arrive p pos last n vote = (s.positioned c m pos, .error (catchWord 3 noId x.cpos.toNat)) := by
  subst hx
  simp only [State.arrive, hc, hh, hy, if_true, if_false]; rfl

theorem arrive_faulted (hy : (x.member m).state = .faulted) :
    s.arrive p pos last n vote = (s.positioned c m pos, .error (catchWord 4 noId x.cpos.toNat)) := by
  subst hx
  simp only [State.arrive, hc, hh, hy, if_true, if_false, reduceCtorEq]; rfl

variable (hs : (x.member m).state ≠ .spent) (hf : (x.member m).state ≠ .faulted)
include hs hf

theorem arrive_misnumbered {n : Nat} (hn : n = 0 ∨ x.ccatch.toNat + 1 < n) :
    s.arrive p pos last n vote = (s.positioned c m pos, .error (catchWord 6 noId x.cpos.toNat)) := by
  subst hx
  have hbad : (n = 0 || (s.comm c).ccatch.toNat + 1 < n) = true := by simpa using hn
  simp only [State.arrive, hc, hh, hs, hf, hbad, if_true, if_false]; rfl

section
variable {n : Nat} (h0 : n ≠ 0) (hn : n ≤ x.ccatch.toNat)
include h0 hn

theorem arrive_past (hm : x.midCommit = false) : s.arrive p pos last n false = (s.positioned c m pos,
    .error (match x.past n with | some h => catchWord 2 h.id h.cpos | none => catchWord 2 noId x.cpos.toNat)) := by
  subst hx
  have hgood : (n = 0 || (s.comm c).ccatch.toNat + 1 < n) = false := by simp; omega
  simp only [State.arrive, hc, hh, hs, hf, hgood, hn, hm, if_true, if_false, Bool.false_eq_true]; rfl

theorem arrive_midCommit (hm : x.midCommit = true) : s.arrive p pos last n false = (s.positioned c m pos, .ok 2) := by
  subst hx
  have hgood : (n = 0 || (s.comm c).ccatch.toNat + 1 < n) = false := by simp; omega
  simp only [State.arrive, hc, hh, hs, hf, hgood, hn, hm, if_true, if_false, Bool.false_eq_true]; rfl

end

variable (hn : n = x.ccatch.toNat + 1)
include hn

theorem arrive_again (ha : (x.member m).arr = true) : s.arrive p pos last n vote = (s.positioned c m pos, .ok 1) := by
  subst hx
  have hgood : (n = 0 || (s.comm c).ccatch.toNat + 1 < n) = false := by simp; omega
  have hlate : ¬n ≤ (s.comm c).ccatch.toNat := by omega
  simp only [State.arrive, hc, hh, hs, hf, hgood, hlate, ha, if_true, if_false, Bool.false_eq_true]; rfl

omit hh in
theorem arrive_counted (ho : x.state = .opened) (ha : (x.member m).arr = false) (hpos : pos ≤ x.cpos.toNat) :
    s.arrive p pos last n vote
      = (s.modComm c fun x => x.modMember m fun z => z.arrived vote last pos x.cpos.toNat, .ok 0) := by
  subst hx
  have hgood : (n = 0 || (s.comm c).ccatch.toNat + 1 < n) = false := by simp; omega
  have hlate : ¬n ≤ (s.comm c).ccatch.toNat := by omega
  simp only [State.arrive, hc, hs, hf, hgood, hlate, ha, ho, Nat.not_lt.2 hpos, if_false, Bool.false_eq_true, reduceCtorEq,
    modComm_modComm, Function.comp_def, modMember_modMember]; rfl

end

/-! ## `catch` and `catch.nv` in flow mode (R42, R330) -/

section
variable {s : State} {d a b : Nat} {vote : Bool} {t : State}

theorem flowCatch_answered {v : Word}
    (h : s.arrive s.myPart (bits (s.x a) 0 63) ((s.x a).getLsbD 63) (s.x b).toNat vote = (t, .error v)) :
    s.flowCatch d a b vote = (t.progress s.cur.core).modMe fun x => x.answered d v := by
  simp only [State.flowCatch, h]

theorem flowCatch_waits {c m late : Nat} (hc : s.crewOf s.myPart = some (c, m))
    (h : s.arrive s.myPart (bits (s.x a) 0 63) ((s.x a).getLsbD 63) (s.x b).toNat vote = (t, .ok late)) :
    s.flowCatch d a b vote = if late = 0
      then (t.modMe fun x => { x with wait := .catchAns c (s.x b).toNat d late }).evaluate c false
      else t.modMe fun x => { x with wait := .catchAns c (s.x b).toNat d late } := by
  simp only [State.flowCatch, h, hc]; rfl

end

theorem crewOf_commanded (s : State) (p : Nat) : s.commanded.crewOf p = s.crewOf p := by
  obtain ⟨cores, e⟩ := committed_spec s s.req
  rw [State.commanded, e]; rfl

theorem myPart_commanded (s : State) : s.commanded.myPart = s.myPart := by
  rw [State.myPart, State.myCore, fr_partid (accessFrame_commanded s), cur_commanded]; rfl

/-- What an arrival of the executing context's crew finds: the state with the command counted has its registers, crew and committees. -/
theorem catch_arrives {s : State} {d a b : Nat} {vote : Bool} {t : State} {v : Word}
    (h : s.commanded.arrive s.myPart (bits (s.x a) 0 63) ((s.x a).getLsbD 63) (s.x b).toNat vote = (t, .error v)) (ht : t.me = s.me) :
    XWritten ((t.progress s.cur.core).modMe fun c => { c with wait := .none }) (s.commanded.flowCatch d a b vote) d v (s.pc + 4) := by
  have hw := xW_answered (t.progress s.cur.core) d v
  rw [State.pc, prog_frame, ht] at hw
  rw [flowCatch_answered (t := t) (v := v) (by rw [myPart_commanded, x_commanded, x_commanded]; exact h), cur_commanded]
  exact hw

theorem catch_waits {s : State} {d a b : Nat} {vote : Bool} {t : State} {c m late : Nat} (hc : s.crewOf s.myPart = some (c, m))
    (h : s.commanded.arrive s.myPart (bits (s.x a) 0 63) ((s.x a).getLsbD 63) (s.x b).toNat vote = (t, .ok late)) :
    s.commanded.flowCatch d a b vote = if late = 0
      then (t.modMe fun x => { x with wait := .catchAns c (s.x b).toNat d late }).evaluate c false
      else t.modMe fun x => { x with wait := .catchAns c (s.x b).toNat d late } := by
  rw [flowCatch_waits (m := m) (late := late) (t := t) (by rw [myPart_commanded, crewOf_commanded]; exact hc)
    (by rw [myPart_commanded, x_commanded, x_commanded]; exact h), x_commanded]

theorem me_positioned_commanded (s : State) (c m pos : Nat) : (s.commanded.positioned c m pos).me = s.me := (accessFrame_commanded s).me

/-- Settles O41: `cmrd`, `cmwr` and `cstat` by the register each moves, and an arrival by the first case of `arrive` that matches it. A
position that is declared whatever the answer, and the wait for an unfinished commit's end, are log entry 108. -/
theorem committeeArrivals : Obligations.CommitteeArrivals := by
  intro s d a b hd k r done
  refine ⟨fun hr hp ho => ⟨_, cmrd_reads hd hr hp ho, xWritten_advance s d _⟩,
    fun hr hw hp ho => ⟨_, xWritten_advance s d _, cmwr_writes hd hr hw hp ho⟩,
    fun hm => ⟨_, cstat_reads hd hm, xWritten_advance s d _⟩, fun hs hm e he => ?arrivals⟩
  case arrivals =>
    rw [catches_arrive hd a b hs hm e he]
    refine ⟨fun hc => ⟨_, rfl, ?_⟩, fun c m hc => ?crew⟩
    · exact catch_arrives (arrive_crewless ((crewOf_commanded s _).trans hc) _ _ _ _) (accessFrame_commanded s).me
    case crew =>
      intro x y n pos at' open'
      have hc' : s.commanded.crewOf s.myPart = some (c, m) := (crewOf_commanded s _).trans hc
      have hx : s.commanded.comm c = x := comm_commanded s c
      have hme : at'.me = s.me := me_positioned_commanded s c m pos
      have hwaits : ∀ late, late ≠ 0 → s.commanded.arrive s.myPart pos ((s.x a).getLsbD 63) n e.2 = (at', .ok late) →
          (s.commanded.flowCatch d a b e.2).me = { s.me with wait := .catchAns c n d late } ∧ OnlyContext at' (s.commanded.flowCatch d a b e.2) := by
        intro late h0 harr
        rw [catch_waits hc harr, if_neg h0]
        exact ⟨by rw [State.me_modMe, hme], onlyContext_modMe _ _⟩
      refine ⟨fun st hst => ⟨_, rfl, ?refused⟩, fun hv hh hy hf h0 hn => ⟨fun hmid => ⟨_, rfl, ?past⟩, fun hmid => ⟨_, rfl, hwaits 2 (by decide) ?_⟩⟩,
        fun ho ha => ⟨_, rfl, hwaits 1 (by decide) ?_⟩, fun ho ha hpos => ?counted⟩
      case refused =>
        refine catch_arrives (t := at') ?_ hme
        rcases hst with ⟨hh, rfl⟩ | ⟨hh, ⟨hy, rfl⟩ | ⟨hy, rfl⟩ | ⟨hy, hf, hn, rfl⟩⟩
        · exact arrive_halted hc' hx pos _ n _ hh
        · exact arrive_spent hc' hx pos _ n _ hh hy
        · exact arrive_faulted hc' hx pos _ n _ hh hy
        · exact arrive_misnumbered hc' hx pos _ _ hh hy hf hn
      case past =>
        rw [hv]
        exact catch_arrives (t := at') (arrive_past hc' hx pos _ hh hy hf h0 hn hmid) hme
      · rw [hv]; exact arrive_midCommit hc' hx pos _ hh hy hf h0 hn hmid
      · obtain ⟨hst, hy, hf, hn⟩ := ho
        exact arrive_again hc' hx pos _ n _ (by rw [hst]; decide) hy hf hn ha
      case counted =>
        obtain ⟨hst, hy, hf, hn⟩ := ho
        have harr := arrive_counted hc' hx pos ((s.x a).getLsbD 63) n e.2 hy hf hn hst ha hpos
        refine ⟨_, congrArg _ (catch_waits hc harr), ?_, ?_, fun i hi => ?_, fun j hj => ?_, fun pa => ?_⟩
        · rw [comm_modMe, comm_modComm, if_pos rfl, hx]; rfl
        · exact (State.me_modMe _ _).trans (congrArg (fun y : Ctx => { y with wait := .catchAns c n d 0 }) (accessFrame_commanded s).me)
        · exact (State.ctx_modMe_other _ _ (cur_commanded s ▸ hi)).trans ((accessFrame_commanded s).ctx i)
        · rw [comm_modMe, comm_modComm, if_neg hj, comm_commanded]
        · exact homeByte_commanded s pa

end Sys2Proof.Machine
end

section
/-! The events of a committee: what member events and answers leave of it, its decision, its shortfall, its halt, and a commit. -/

namespace Sys2Proof.Machine

open Sys2Proof

/-! ## Members -/

theorem member_modMember (x : Committee) (m k : Nat) (f : Member → Member) :
    (x.modMember m f).member k = if k = m then f (x.member m) else x.member k := smGet_smSet _ _ _ _ _

/-- An entry of a table in which each is changed by a function of its key. -/
theorem smGet_mapKey {α : Type} (m : SMap α) (f : Nat → α → α) (k : Nat) {d : α} (hd : f k d = d) :
    smGet (m.map fun e => (e.1, f e.1 e.2)) k d = f k (smGet m k d) := by
  induction m with
  | nil => exact hd.symm
  | cons e rest ih =>
    obtain ⟨j, v⟩ := e
    by_cases hj : j = k
    · subst hj; simp [smGet]
    · simpa [smGet, hj] using ih

/-! ## What leaves a committee but for its members' events (R323) -/

/-- A committee without its members. -/
def Committee.besidesMembers (x : Committee) : Committee := { x with members := [] }

/-- A committee's state is the same but for CMEM.EVT of its members. -/
structure EventsOnly (c : Nat) (s t : State) : Prop where
  rest : (t.comm c).besidesMembers = (s.comm c).besidesMembers
  states : ∀ m, ((t.comm c).member m).state = ((s.comm c).member m).state
  votes : ∀ m, ((t.comm c).member m).vote = ((s.comm c).member m).vote

section
variable {c : Nat}

theorem EventsOnly.of_comms {s t : State} (h : t.comms = s.comms) : EventsOnly c s t := by
  have hc : t.comm c = s.comm c := by rw [State.comm, State.comm, h]
  exact ⟨by rw [hc], fun _ => by rw [hc], fun _ => by rw [hc]⟩

theorem EventsOnly.refl (s : State) : EventsOnly c s s := .of_comms rfl

theorem EventsOnly.trans {s t u : State} (h : EventsOnly c s t) (k : EventsOnly c t u) : EventsOnly c s u :=
  ⟨k.rest.trans h.rest, fun m => (k.states m).trans (h.states m), fun m => (k.votes m).trans (h.votes m)⟩

theorem EventsOnly.foldl {α : Type} {f : State → α → State} (hf : ∀ s a, EventsOnly c s (f s a)) (l : List α) (s : State) :
    EventsOnly c s (l.foldl f s) := by
  induction l generalizing s with
  | nil => exact .refl s
  | cons a rest ih => exact (hf s a).trans (ih (f s a))

theorem AccessFrame.comms {s t : State} (h : AccessFrame s t) : t.comms = s.comms :=
  (congrArg State.comms h.device :)

theorem comms_tellOwner (s : State) (c : Nat) (cause : Cause) (v : Nat) : (s.tellOwner c cause v).comms = s.comms := by
  unfold State.tellOwner
  split
  · unfold State.raisePart
    split <;> rfl
  · rfl

theorem eventsOnly_memberEvent (s : State) (m code : Nat) : EventsOnly c s (s.memberEvent c m code) := by
  have hmark : EventsOnly c s (s.modComm c fun x => x.modMember m fun y => { y with evt := code }) := by
    have hc := (comm_modComm s c c fun x => x.modMember m fun y => { y with evt := code }).trans (if_pos rfl)
    refine ⟨by rw [hc]; rfl, fun k => ?_, fun k => ?_⟩
    · rw [hc, member_modMember]; split <;> simp [*]
    · rw [hc, member_modMember]; split <;> simp [*]
  unfold State.memberEvent
  refine EventsOnly.trans ?_ (.of_comms (comms_tellOwner _ c _ _))
  cases eventOfMember code
  · exact .refl s
  · exact hmark

theorem eventsOnly_takeVotes (s : State) (m kspec : Nat) : EventsOnly c s (s.takeVotes c m kspec) := by
  unfold State.takeVotes
  split
  · exact .refl s
  · refine .foldl (fun s va => ?_) _ s
    split
    · rename_i htake; exact .of_comms (access_takeBytes _ _ _ _ _ htake).frame.comms
    · exact .refl s
    · exact eventsOnly_memberEvent s m 8

theorem EventsOnly.voteWord {s t : State} (h : EventsOnly c s t) (v : List Nat) (alone : Bool) :
    (t.comm c).voteWord v alone = (s.comm c).voteWord v alone :=
  (congrArg (Committee.voteWord · v alone) h.rest :)

end

/-! ## What keeps a catch: its counts, and the members that are out of it -/

/-- A member that has been faulted out of the open catch (R316). -/
def Member.isOut (y : Member) : Prop := y.state = .faulted ∧ y.vote = false

/-- The counts of a committee stay (R322). -/
structure CountsKept (c : Nat) (s t : State) : Prop where
  ccatch : (t.comm c).ccatch = (s.comm c).ccatch
  cpos : (t.comm c).cpos = (s.comm c).cpos

/-- The counts of a committee stay, and its faulted members stay faulted. -/
structure CatchKept (c : Nat) (s t : State) : Prop extends CountsKept c s t where
  out : ∀ m, ((s.comm c).member m).isOut → ((t.comm c).member m).isOut

section
variable {c : Nat}

theorem CountsKept.refl (s : State) : CountsKept c s s := ⟨rfl, rfl⟩

theorem CountsKept.trans {s t u : State} (h : CountsKept c s t) (k : CountsKept c t u) : CountsKept c s u :=
  ⟨k.ccatch.trans h.ccatch, k.cpos.trans h.cpos⟩

theorem CountsKept.foldl {α : Type} {f : State → α → State} (hf : ∀ s a, CountsKept c s (f s a)) (l : List α) (s : State) :
    CountsKept c s (l.foldl f s) := by
  induction l generalizing s with
  | nil => exact .refl s
  | cons a rest ih => exact (hf s a).trans (ih (f s a))

theorem CatchKept.refl (s : State) : CatchKept c s s := ⟨.refl s, fun _ => id⟩

theorem CatchKept.trans {s t u : State} (h : CatchKept c s t) (k : CatchKept c t u) : CatchKept c s u :=
  ⟨h.toCountsKept.trans k.toCountsKept, fun m hm => k.out m (h.out m hm)⟩

theorem EventsOnly.kept {s t : State} (h : EventsOnly c s t) : CatchKept c s t :=
  ⟨⟨(congrArg Committee.ccatch h.rest :), (congrArg Committee.cpos h.rest :)⟩,
    fun m hm => ⟨(h.states m).trans hm.1, (h.votes m).trans hm.2⟩⟩

theorem countsKept_modComm (s : State) {f : Committee → Committee} (hn : (f (s.comm c)).ccatch = (s.comm c).ccatch)
    (hp : (f (s.comm c)).cpos = (s.comm c).cpos) : CountsKept c s (s.modComm c f) := by
  have hc := (comm_modComm s c c f).trans (if_pos rfl)
  exact ⟨by rw [hc, hn], by rw [hc, hp]⟩

theorem catchKept_modComm (s : State) {f : Committee → Committee} (hn : (f (s.comm c)).ccatch = (s.comm c).ccatch)
    (hp : (f (s.comm c)).cpos = (s.comm c).cpos) (hf : ∀ m, ((s.comm c).member m).isOut → ((f (s.comm c)).member m).isOut) :
    CatchKept c s (s.modComm c f) :=
  ⟨countsKept_modComm s hn hp, fun m hm => by rw [comm_modComm, if_pos rfl]; exact hf m hm⟩

/-! ## A decision (R319, R339) -/

/-- What every step of a fold keeps, the fold keeps. -/
theorem foldl_keeps {α β : Type} (g : State → β) {f : State → α → State} (h : ∀ s a, g (f s a) = g s) (l : List α) (s : State) :
    g (l.foldl f s) = g s := by
  induction l generalizing s with
  | nil => rfl
  | cons a rest ih => exact (ih (f s a)).trans (h s a)

/-- The answer to a `cwait` leaves the committees and the images. -/
theorem tables_answerCwait (s : State) (i : CtxId) (c : Nat) (rec pt : Word) (d : Nat) :
    ((s.answerCwait i c rec pt d).comms, (s.answerCwait i c rec pt d).images) = (s.comms, s.images) := by
  have hframe : ∀ {t u : State}, AccessFrame t u → (u.comms, u.images) = (t.comms, t.images) :=
    fun h => (congrArg (fun z : State => (z.comms, z.images)) h.device :)
  have htold : ∀ (t : State) x v, ((t.cwaitAnswered i x d v).comms, (t.cwaitAnswered i x d v).images) = (t.comms, t.images) :=
    fun t x v => (hframe (access_progress _ i.core).frame :)
  by_cases h0 : rec = 0
  · rw [answerCwait_unrecorded h0, htold]
  · by_cases ha : rec.toNat % 64 = 0
    · cases hw : s.storeBytes { core := i.core, ctx := i.ctx, priv := (s.ctx i).priv, ptroot := pt, eng := some 5, direct := true }
          (vaRange rec.toNat 64) (s.comm c).decisionRecord with
      | error e => rw [answerCwait_refused h0 ha hw, htold]
      | ok w => rw [answerCwait_recorded h0 ha hw, htold, hframe (access_storeBytes _ _ _ _ _ hw).frame]
    · rw [answerCwait_misaligned ha, htold]

theorem tables_answerCwaits (s : State) (c : Nat) : ((s.answerCwaits c).comms, (s.answerCwaits c).images) = (s.comms, s.images) := by
  unfold State.answerCwaits
  split
  · exact foldl_keeps (fun t => (t.comms, t.images)) (fun t e => tables_answerCwait t e.1 c e.2.1 e.2.2.1 e.2.2.2) _ s
  · rfl

theorem comms_answerCwaits (s : State) (c : Nat) : (s.answerCwaits c).comms = s.comms := (congrArg Prod.fst (tables_answerCwaits s c) :)

/-- The committee whose voting set is decided: its timer has ended and its members stand as the decision leaves them (R316). -/
def Committee.membersDecided (x : Committee) (v : List Nat) : Committee :=
  { x.stopTimer with members := x.members.map fun e => (e.1, e.2.decided (v.contains e.1)) }

/-- The committee DECIDED (R315, R334). -/
def Committee.decideAs (x : Committee) (c : Nat) (v : List Nat) (alone : Bool) : Committee :=
  { x with state := .decided, cvote := x.voteWord v alone, decision := x.block c v alone, decidedPos := x.cpos }

/-- The rejoining members of a voting set (R316). -/
def Committee.rejoined (x : Committee) (v : List Nat) : List Nat :=
  (x.members.filter fun e => e.2.state == .rejoining && v.contains e.1).map (·.1)

/-- The members that have cast a vote and are not in the voting set (R314). -/
def Committee.outvoted (x : Committee) (v : List Nat) : List Nat := (x.members.filter fun e => e.2.cast && !v.contains e.1).map (·.1)

/-- A decision in three steps: the members', member events and takes of vote lines, and DECIDED. -/
theorem decideCatch_steps (s : State) (c : Nat) (v : List Nat) (alone : Bool) :
    ∃ u, EventsOnly c (s.modComm c (·.membersDecided v)) u ∧
      (s.decideCatch c v alone).comm c = (u.comm c).decideAs c v alone := by
  refine ⟨_, (EventsOnly.foldl (fun t m => eventsOnly_memberEvent t m 6) ((s.comm c).rejoined v) _).trans
    (EventsOnly.foldl (fun t m => eventsOnly_takeVotes t m (s.comm c).kspec) ((s.comm c).outvoted v) _), ?_⟩
  unfold State.decideCatch
  rw [State.comm, comms_answerCwaits]
  exact (comm_modComm _ c c _).trans (if_pos rfl)

theorem comm_modComm_same (s : State) (c : Nat) (f : Committee → Committee) : (s.modComm c f).comm c = f (s.comm c) :=
  (comm_modComm s c c f).trans (if_pos rfl)

theorem decideCatch_decides (s : State) (c : Nat) (v : List Nat) (alone : Bool) :
    ((s.decideCatch c v alone).comm c).state = .decided ∧ ((s.decideCatch c v alone).comm c).cvote = (s.comm c).voteWord v alone := by
  obtain ⟨u, hu, hc⟩ := decideCatch_steps s c v alone
  refine ⟨by rw [hc]; rfl, ?_⟩
  rw [hc]
  exact (hu.voteWord v alone).trans (by rw [comm_modComm_same]; rfl)

theorem member_membersDecided (x : Committee) {v : List Nat} {m : Nat} (hm : m ∉ v) :
    (x.membersDecided v).member m = (x.member m).decided false := by
  have hv : v.contains m = false := by simpa using hm
  exact (smGet_mapKey x.members (fun k y => y.decided (v.contains k)) m (by rw [hv]; rfl)).trans (by rw [hv]; rfl)

theorem catchKept_decideCatch (s : State) {v : List Nat} (hv : ∀ m ∈ v, ((s.comm c).member m).vote = true) (alone : Bool) :
    CatchKept c s (s.decideCatch c v alone) := by
  obtain ⟨u, hu, hc⟩ := decideCatch_steps s c v alone
  have hmembers : CatchKept c s (s.modComm c (·.membersDecided v)) := by
    refine catchKept_modComm s rfl rfl fun m hm => ?_
    rw [member_membersDecided _ fun h => absurd (hv m h) (by rw [hm.2]; decide)]
    unfold Member.decided
    rw [hm.1]
    exact hm
  have hu' := hmembers.trans hu.kept
  exact ⟨⟨by rw [hc]; exact hu'.ccatch, by rw [hc]; exact hu'.cpos⟩, fun m hm => by rw [hc]; exact hu'.out m hm⟩

/-! ## A halt and a shortfall (R315, R320) -/

/-- The committee HALTED. -/
def Committee.haltAs (x : Committee) : Committee := { x.stopTimer with state := .halted, rounds := [] }

theorem haltComm_steps (s : State) (c : Nat) (event : Bool) : EventsOnly c (s.modComm c Committee.haltAs) (s.haltComm c event) := by
  unfold State.haltComm
  have ht := fun v => EventsOnly.of_comms (c := c) (answerAll_comms (s.modComm c Committee.haltAs) (haltAnswer c v))
  cases event
  · exact ht _
  · exact (ht _).trans (eventsOnly_memberEvent _ 0 4)

theorem haltComm_halts (s : State) (c : Nat) (event : Bool) : ((s.haltComm c event).comm c).state = .halted :=
  ((congrArg Committee.state (haltComm_steps s c event).rest :)).trans (by rw [comm_modComm_same]; rfl)

theorem catchKept_haltComm (s : State) (event : Bool) : CatchKept c s (s.haltComm c event) :=
  (catchKept_modComm s (f := Committee.haltAs) rfl rfl fun _ => id).trans (haltComm_steps s c event).kept

theorem voters_vote {x : Committee} {m : Nat} (h : m ∈ x.voters) : (x.member m).vote = true := (List.mem_filter.1 h).2

theorem catchKept_retried (s : State) : CatchKept c s (s.modComm c Committee.retried) := by
  have hr : (s.comm c).retried.ccatch = (s.comm c).ccatch ∧ (s.comm c).retried.cpos = (s.comm c).cpos ∧
      (s.comm c).retried.members = (s.comm c).members := by
    unfold Committee.retried
    dsimp only
    split <;> exact ⟨rfl, rfl, rfl⟩
  exact catchKept_modComm s hr.1 hr.2.1 fun m hm => by rw [Committee.member, hr.2.2]; exact hm

theorem catchKept_shortfall (s : State) : CatchKept c s (s.shortfall c) := by
  unfold State.shortfall
  dsimp only
  split
  · have hstalls : CatchKept c s (s.modComm c fun x => { x with stalled := true }) := catchKept_modComm s rfl rfl fun _ => id
    split
    · exact hstalls.trans (eventsOnly_memberEvent _ 0 3).kept
    · exact hstalls
  · split
    · rename_i hstroke
      refine catchKept_decideCatch s (fun m hm => ?_) true
      rw [List.mem_singleton.1 hm]
      exact voters_vote (List.contains_iff_mem.1 hstroke)
    · exact catchKept_haltComm s true
  · split
    · exact (catchKept_retried s).trans (eventsOnly_memberEvent _ 0 5).kept
    · exact catchKept_haltComm s true
  · exact catchKept_haltComm s true

/-! ## R317 evaluated -/

/-- An open catch whose timer has been looked at: it is decided, falls short, or stays open (R317). -/
def State.resolve (s : State) (c : Nat) (expiry : Bool) : State :=
  if (s.comm c).allArrived || expiry || (s.comm c).stalled
    then if (s.comm c).quorum then s.decideCatch c (s.comm c).voters false else s.shortfall c
  else s

theorem evaluate_opened {s : State} (h : (s.comm c).state = .opened) (expiry : Bool) : s.evaluate c expiry
    = (if (s.comm c).timerStarts then s.modComm c Committee.startTimer else s).resolve c expiry :=
  if_neg (by rw [h]; decide)

theorem catchKept_resolve (s : State) (expiry : Bool) : CatchKept c s (s.resolve c expiry) := by
  unfold State.resolve
  split
  · split
    · exact catchKept_decideCatch _ (fun m hm => voters_vote hm) false
    · exact catchKept_shortfall _
  · exact .refl _

theorem catchKept_evaluate (s : State) (expiry : Bool) : CatchKept c s (s.evaluate c expiry) := by
  by_cases h : (s.comm c).state = .opened
  · have htimer : CatchKept c s (if (s.comm c).timerStarts then s.modComm c Committee.startTimer else s) := by
      split
      · exact catchKept_modComm s (f := Committee.startTimer) rfl rfl fun _ => id
      · exact .refl s
    rw [evaluate_opened h]
    exact htimer.trans (catchKept_resolve _ expiry)
  · have hs : s.evaluate c expiry = s := if_pos (bne_iff_ne.2 h)
    rw [hs]
    exact .refl s

/-! ## Faults of members (R316, R324) -/

/-- The member that a fault takes out of the open catch. -/
def Member.faulted (y : Member) : Member :=
  { y with state := .faulted, arr := false, rdy := false, last := false, vote := false, expected := false }

theorem memberFault_idle {s : State} {m : Nat} (code : Nat) (h : (s.comm c).configured = false ∨ ((s.comm c).member m).state = .absent ∨
    ((s.comm c).member m).state = .spent ∨ ((s.comm c).member m).state = .faulted) : s.memberFault c m code = s := by
  refine if_pos ?_
  rcases h with h | h | h | h <;> simp [h]

section
variable {s : State} {m : Nat} (code : Nat) (hc : (s.comm c).configured = true) (ha : ((s.comm c).member m).state ≠ .absent)
  (hs : ((s.comm c).member m).state ≠ .spent) (hf : ((s.comm c).member m).state ≠ .faulted)
include hc ha hs hf

theorem memberFault_due (hd : (s.comm c).state = .decided) :
    s.memberFault c m code = s.modComm c fun x => x.modMember m fun y => { y with faultDue := true } :=
  (if_neg (by simp [hc, ha, hs, hf])).trans (if_pos hd)

theorem memberFault_faults (hd : (s.comm c).state ≠ .decided) : (((s.memberFault c m code).comm c).member m).state = .faulted := by
  let t := s.modComm c fun x => x.modMember m Member.faulted
  have hout : ((t.comm c).member m).isOut := by
    rw [comm_modComm_same, member_modMember, if_pos rfl]; exact ⟨rfl, rfl⟩
  have hkept : CatchKept c t (s.memberFault c m code) := by
    unfold State.memberFault
    dsimp only
    rw [if_neg (by simp [hc, ha, hs, hf]), if_neg hd]
    exact (((eventsOnly_memberEvent t m code).trans (.of_comms (answerAll_comms _ _))).kept).trans (catchKept_evaluate _ false)
  exact (hkept.out m hout).1

end

/-! ## The actions of a shortfall (R320) -/

section
variable {s : State}

theorem shortfall_stalls (h : quoAct (s.comm c).openCquo = 0) (ha : (s.comm c).allArrived = false) :
    s.shortfall c = s.modComm c fun x => { x with stalled := true } := by
  simp only [State.shortfall, h, ha, Bool.false_eq_true, if_false]

theorem shortfall_alone (h : quoAct (s.comm c).openCquo = 1)
    (hv : (s.comm c).voters.contains (((s.comm c).record.map (·.stroke)).getD 0) = true) :
    s.shortfall c = s.decideCatch c [((s.comm c).record.map (·.stroke)).getD 0] true := by
  simp only [State.shortfall, h, hv, if_true]

theorem shortfall_strokeless (h : quoAct (s.comm c).openCquo = 1)
    (hv : (s.comm c).voters.contains (((s.comm c).record.map (·.stroke)).getD 0) = false) : s.shortfall c = s.haltComm c true := by
  simp only [State.shortfall, h, hv, Bool.false_eq_true, if_false]

theorem shortfall_halts (h : quoAct (s.comm c).openCquo = 2) : s.shortfall c = s.haltComm c true := by
  simp only [State.shortfall, h]

theorem shortfall_retries (h : quoAct (s.comm c).openCquo = 3) (hn : (s.comm c).nretry < quoRmax (s.comm c).openCquo) :
    s.shortfall c = (s.modComm c Committee.retried).memberEvent c 0 5 := by
  simp only [State.shortfall, h, hn, if_true]

theorem shortfall_spent (h : quoAct (s.comm c).openCquo = 3) (hn : quoRmax (s.comm c).openCquo ≤ (s.comm c).nretry) :
    s.shortfall c = s.haltComm c true := by
  simp only [State.shortfall, h, Nat.not_lt.2 hn, if_false]

end

theorem retried_spec (x : Committee) : x.retried.state = x.state ∧ x.retried.nretry = x.nretry + 1 := by
  unfold Committee.retried
  dsimp only
  split <;> exact ⟨rfl, rfl⟩

/-! ## Patience that runs out (R317) -/

/-- A committee whose patience has run out. -/
def Committee.expire (x : Committee) : Committee := { x with timer := none, expired := true, cpat := 0 }

section
variable {s : State} (ho : (s.comm c).state = .opened) (ht : (s.comm c).timer = some 0) (he : (s.comm c).expired = false)
  (hp : quoPat (s.comm c).openCquo ≠ 0xFFFFFFFF)
include ho ht he hp

theorem patienceExpiry_resolves : exec (.patienceExpiry c) s = .next (if (s.comm c).quorum
    then (s.modComm c Committee.expire).decideCatch c (s.comm c).voters false else (s.modComm c Committee.expire).shortfall c) := by
  have hcomm : (s.modComm c Committee.expire).comm c = (s.comm c).expire := comm_modComm_same s c _
  have hnow : ((s.comm c).state = .opened && (s.comm c).timer = some 0 && !(s.comm c).expired && quoPat (s.comm c).openCquo != 0xFFFFFFFF)
      = true := by simp [ho, ht, he, hp]
  have hstarts : ((s.comm c).expire).timerStarts = false := by simp [Committee.timerStarts, Committee.expire]
  have heval : (s.modComm c Committee.expire).evaluate c true = if (s.comm c).quorum
      then (s.modComm c Committee.expire).decideCatch c (s.comm c).voters false else (s.modComm c Committee.expire).shortfall c := by
    rw [evaluate_opened (by rw [hcomm]; exact ho), hcomm, hstarts, if_neg Bool.false_ne_true, State.resolve, hcomm, Bool.or_true, Bool.true_or,
      if_pos rfl]
    rfl
  exact congrArg Host.Outcome.next ((if_pos hnow).trans heval)

end

theorem patienceExpiry_idle {s : State} (h : (s.comm c).timer ≠ some 0) : exec (.patienceExpiry c) s = .next s :=
  congrArg Host.Outcome.next (if_neg (by simp [h]))

/-! ## A commit (R322, R344) -/

theorem comms_engWrite (rq : Req) (l : List (Nat × List Byte)) (s : State) : (s.engWrite rq l).1.comms = s.comms := by
  induction l generalizing s with
  | nil => rfl
  | cons e rest ih =>
    unfold State.engWrite
    split
    · unfold State.cmdFail
      dsimp only
      split
      · unfold State.endWrites
        split
        · rfl
        · split
          · exact (access_writeCells _ _).frame.comms
          · rfl
      · rfl
    · rename_i t hw
      exact (ih t).trans (access_storeBytes _ _ _ _ _ hw).frame.comms

theorem comms_writeRings (s : State) (rq : Req) (r : CRecord) (pos : Nat) (l : List Byte) : (s.writeRings rq r pos l).2.comms = s.comms := by
  have hput := fun (t : State) base size => comms_engWrite rq (vaRuns ((ringVas base size pos l.length).zip l)) t
  have hstream := hput s r.stream.toNat 65536
  unfold State.writeRings
  dsimp only
  split
  · rename_i heq; rw [heq] at hstream; exact hstream
  · rename_i t heq
    rw [heq] at hstream
    have hhist := hput t r.hist.toNat (2 ^ r.hlog)
    split
    · rename_i heq2; rw [heq2] at hhist; exact hhist.trans hstream
    · rename_i heq2; rw [heq2] at hhist; exact hhist.trans hstream

theorem readPiece_frame {s u : State} {rq : Req} {pstr w : Nat} {l : List Byte} (h : s.readPiece rq pstr w = .ok (l, u)) :
    AccessFrame s u := by
  unfold State.readPiece at h
  split at h
  · cases h
  · rename_i hw
    exact (readWords_ctx _ _ _ _ _ _ hw).trans (access_loadBytes _ _ _ _ _ h).frame

theorem countsKept_markMember (s : State) (m : Nat) (f : Member → Member) (code : Nat) :
    CountsKept c s ((s.modComm c fun x => x.modMember m f).memberEvent c m code) :=
  (countsKept_modComm s rfl rfl).trans (eventsOnly_memberEvent _ m code).kept.toCountsKept

theorem countsKept_openCatch (s : State) : CountsKept c s (s.openCatch c) :=
  (countsKept_modComm s (f := Committee.reopened) rfl rfl).trans (catchKept_evaluate _ false).toCountsKept

theorem countsKept_writeMirror (s : State) : CountsKept c s (s.writeMirror c) := ⟨rfl, rfl⟩

theorem countsKept_endCommit (s : State) (w : Nat) : CountsKept c s (s.endCommit c w) := by
  unfold State.endCommit
  refine CountsKept.trans ?_ (countsKept_openCatch _)
  refine CountsKept.trans ?_ (EventsOnly.of_comms (answerAll_comms _ _)).kept.toCountsKept
  refine CountsKept.trans ?_ (countsKept_writeMirror _)
  exact (CountsKept.foldl (fun t m => countsKept_markMember t m _ 2) _ s).trans (CountsKept.foldl (fun t m => countsKept_markMember t m _ 1) _ _)

theorem catchCommit_unready {s : State} (h : (s.comm c).ready = false) : exec (.catchCommit c) s = .next s := by
  refine congrArg Host.Outcome.next (?_ : _ = s)
  cases (s.comm c).record
  · rfl
  · exact if_pos (by rw [h]; rfl)

/-- The token that a commit commits: the run's first, or the winner (R322). -/
def Committee.token (x : Committee) : Nat := (x.run.getD []).headD x.winner.2

section
variable {s u : State} {r : CRecord} (hr : (s.comm c).record = some r) (hready : (s.comm c).ready = true)
include hr hready

theorem catchCommit_noCandidate (hw : num32 (s.comm c).winner.1 = .inf true) :
    exec (.catchCommit c) s = .next
      ((s.tellOwner c .noCandidate (c * 2 ^ 40 + ((s.comm c).ccatch.toNat + 1) % 2 ^ 40)).haltComm c false) := by
  refine congrArg Host.Outcome.next (?_ : (match (s.comm c).record with | none => s | some r => _) = _)
  rw [hr]
  exact (if_neg (by rw [hready]; decide)).trans (if_pos hw)

theorem catchCommit_token (hw : num32 (s.comm c).winner.1 ≠ .inf true) : exec (.catchCommit c) s = .next (s.commitToken c r) := by
  refine congrArg Host.Outcome.next (?_ : (match (s.comm c).record with | none => s | some r => _) = _)
  rw [hr]
  exact (if_neg (by rw [hready]; decide)).trans (if_neg hw)

end

section
variable {s u : State} {r : CRecord} {l : List Byte}

theorem commitToken_failed {e : MemErr} (h : s.readPiece (s.comm c).req r.pstr.toNat (s.comm c).token = .error e) :
    s.commitToken c r = (s.cmdFail e).1.haltComm c true := by
  unfold State.commitToken
  dsimp only
  split
  · rename_i h'; cases h.symm.trans h'; rfl
  · rename_i h'; cases h.symm.trans h'

variable (h : s.readPiece (s.comm c).req r.pstr.toNat (s.comm c).token = .ok (l, u))
include h

/-- A commit whose piece has been read. -/
theorem commitToken_read : s.commitToken c r = if u.streamHeld c l.length then u else
    match u.writeRings (s.comm c).req r (s.comm c).cpos.toNat l with
    | (false, t) => t.haltComm c true
    | (true, t) =>
      if ((s.comm c).run.getD []).isEmpty then (t.modComm c (·.counted (s.comm c).token l.length)).endCommit c (s.comm c).token
      else (t.modComm c (·.counted (s.comm c).token l.length)).modComm c fun x => { x with run := some (((s.comm c).run.getD []).drop 1) } := by
  unfold State.commitToken
  dsimp only
  split
  · rename_i h'; cases h.symm.trans h'
  · rename_i h'; cases h.symm.trans h'; rfl

theorem commitToken_held (hh : u.streamHeld c l.length = true) : s.commitToken c r = u := (commitToken_read h).trans (if_pos hh)

variable (hh : u.streamHeld c l.length = false)
include hh

theorem commitToken_unwritten (hw : (u.writeRings (s.comm c).req r (s.comm c).cpos.toNat l).1 = false) :
    s.commitToken c r = (u.writeRings (s.comm c).req r (s.comm c).cpos.toNat l).2.haltComm c true := by
  rw [commitToken_read h, hh, if_neg Bool.false_ne_true]
  split <;> simp_all

/-- A commit whose bytes are written raises the counts, also where it ends (R322). -/
theorem commitToken_counts (hw : (u.writeRings (s.comm c).req r (s.comm c).cpos.toNat l).1 = true) :
    ((s.commitToken c r).comm c).ccatch = (s.comm c).ccatch + 1 ∧
      ((s.commitToken c r).comm c).cpos = (s.comm c).cpos + BitVec.ofNat 64 l.length := by
  let t := (u.writeRings (s.comm c).req r (s.comm c).cpos.toNat l).2
  let v := t.modComm c (·.counted (s.comm c).token l.length)
  have hcomms : t.comms = s.comms := (comms_writeRings _ _ _ _ _).trans (readPiece_frame h).comms
  have ht : t.comm c = s.comm c := (congrArg (fun m => smGet m c {}) hcomms :)
  have hv : v.comm c = (s.comm c).counted (s.comm c).token l.length := by rw [comm_modComm_same, ht]
  have hkept : CountsKept c v (s.commitToken c r) := by
    rw [commitToken_read h, hh, if_neg Bool.false_ne_true]
    split
    · simp_all
    · rename_i t' hp
      have ht' : t' = t := (congrArg Prod.snd hp :).symm
      subst ht'
      split
      · exact countsKept_endCommit v _
      · exact countsKept_modComm v rfl rfl
  exact ⟨by rw [hkept.ccatch, hv]; rfl, by rw [hkept.cpos, hv]; rfl⟩

end

end

/-- Settles O53: a fault, patience that runs out, and a commit, each by the case of the committee's state; the counts are those of the
commit, which the reopened catch keeps. -/
theorem committeeEvents : Obligations.CommitteeEvents := by
  unfold Obligations.CommitteeEvents
  intro s u c m rec l
  have hexp : (s.modComm c Committee.expire).comm c = (s.comm c).expire := comm_modComm_same s c _
  refine ⟨fun h => congrArg Host.Outcome.next (memberFault_idle 1 h), fun hc ha hs hf =>
    ⟨fun hd => ⟨_, rfl, memberFault_due 1 hc ha hs hf hd⟩, fun hd => ⟨_, rfl, memberFault_faults 1 hc ha hs hf hd⟩⟩,
    fun ho ht he hp => ?_, patienceExpiry_idle, catchCommit_unready, fun hr hready =>
    ⟨fun hw => ⟨_, catchCommit_noCandidate hr hready hw, haltComm_halts _ _ _⟩, fun hw => ⟨fun e hpiece =>
      ⟨_, catchCommit_token hr hready hw, by rw [commitToken_failed hpiece]; exact haltComm_halts _ _ _⟩, fun hpiece =>
      ⟨fun hh => ⟨?_, ?_⟩, fun hh => ⟨fun hrings =>
        ⟨_, catchCommit_token hr hready hw, by rw [commitToken_unwritten hpiece hh hrings]; exact haltComm_halts _ _ _⟩, fun hrings =>
        ⟨_, catchCommit_token hr hready hw, commitToken_counts hpiece hh hrings⟩⟩⟩⟩⟩⟩
  · have hres := patienceExpiry_resolves ho ht he hp
    refine ⟨fun hq => ?_, fun hq => ?_⟩
    · rw [hq, if_pos rfl] at hres
      obtain ⟨hd, hv⟩ := decideCatch_decides (s.modComm c Committee.expire) c (s.comm c).voters false
      exact ⟨_, hres, hd, by rw [hv, hexp]; rfl⟩
    · rw [hq, if_neg Bool.false_ne_true] at hres
      refine ⟨fun h ha => ?_, fun h hv => ?_, fun h hv => ?_, fun h => ?_, fun h hn => ?_, fun h hn => ?_⟩
      · rw [hres, shortfall_stalls (by rw [hexp]; exact h) (by rw [hexp]; exact ha), modComm_modComm]; rfl
      · rw [shortfall_alone (by rw [hexp]; exact h) (by rw [hexp]; exact hv)] at hres
        obtain ⟨hd, hv⟩ := decideCatch_decides (s.modComm c Committee.expire) c [(((s.comm c).expire.record.map (·.stroke)).getD 0)] true
        rw [hexp] at hres hv
        exact ⟨_, hres, hd, hv⟩
      · rw [shortfall_strokeless (by rw [hexp]; exact h) (by rw [hexp]; exact hv)] at hres
        exact ⟨_, hres, haltComm_halts _ _ _⟩
      · rw [shortfall_halts (by rw [hexp]; exact h)] at hres
        exact ⟨_, hres, haltComm_halts _ _ _⟩
      · rw [shortfall_retries (by rw [hexp]; exact h) (by rw [hexp]; exact hn)] at hres
        have hkept := (eventsOnly_memberEvent (c := c) ((s.modComm c Committee.expire).modComm c Committee.retried) 0 5).rest
        rw [comm_modComm_same, hexp] at hkept
        obtain ⟨hstate, hnretry⟩ := retried_spec (s.comm c).expire
        exact ⟨_, hres, (congrArg Committee.state hkept :).trans (hstate.trans ho), (congrArg Committee.nretry hkept :).trans hnretry⟩
      · rw [shortfall_spent (by rw [hexp]; exact h) (by rw [hexp]; exact hn)] at hres
        exact ⟨_, hres, haltComm_halts _ _ _⟩
  · rw [catchCommit_token hr hready hw, commitToken_held hpiece hh]
  · exact (congrArg (fun m => smGet m c {}) (readPiece_frame hpiece).comms :)

end Sys2Proof.Machine
end

section
/-! The device's power states: FREEZE and its readout, the thermal trip, and what power loss, bring-up and a reset leave of the state. -/

namespace Sys2Proof.Machine

open Sys2Proof

/-! ## FREEZE and readout (R403, R414) -/

theorem Core.ctx_mapCtxs (x : Core) (f : Ctx → Ctx) (k : Nat) (h : f (freshCtx k) = freshCtx k) : (x.mapCtxs f).ctx k = f (x.ctx k) :=
  smGet_map x.ctxs f k _ h

theorem stop_freshCtx (k : Nat) : (freshCtx k).stop = freshCtx k := rfl

theorem resume_freshCtx (k : Nat) : (freshCtx k).resume = freshCtx k := rfl

theorem garfyReadout_frozen {s : State} (pa n : Nat) (h : s.frozen = true) : exec (.garfyReadout pa n) s
    = .next { s with
        readings := some (freeReadings s.freeIdx), freeIdx := s.freeIdx + 6, hostRead := s.mem.bytes pa n, garfy := some s.garfyView } :=
  congrArg Host.Outcome.next (if_pos h)

theorem garfyReadout_running {s : State} (pa n : Nat) (h : s.frozen = false) : exec (.garfyReadout pa n) s
    = .next { s with readings := some (freeReadings s.freeIdx), freeIdx := s.freeIdx + 6 } :=
  congrArg Host.Outcome.next (if_neg (by rw [h]; decide))

/-! ## The thermal trip (R416) -/

/-- The entry that a table's reader finds is in the table. -/
theorem mem_smGet {α : Type} {m : SMap α} {k : Nat} (h : smHas m k = true) (d : α) : (k, smGet m k d) ∈ m := by
  induction m with
  | nil => cases h
  | cons e rest ih =>
    obtain ⟨j, v⟩ := e
    by_cases hj : j = k
    · subst hj; simp [smGet]
    · have hr : smHas rest k = true := by simpa [smHas, hj] using h
      simpa [smGet, hj] using Or.inr (ih hr)

/-- The bells of several partitions rung with cause 4. -/
def State.ringAll (s : State) (l : SMap Partition) : State := l.foldl (fun s q => s.ring q.1 4) s

theorem ringAll_rest (s : State) (l : SMap Partition) : ∃ p, s.ringAll l = { s with parts := p } := by
  induction l generalizing s with
  | nil => exact ⟨s.parts, rfl⟩
  | cons q rest ih => obtain ⟨p, h⟩ := ih (s.ring q.1 4); exact ⟨p, h⟩

theorem ring_ringing {s : State} {p c : Nat} (h : (s.part p).ringing = some c) (q d : Nat) : ((s.ring q d).part p).ringing = some c := by
  rw [State.ring, State.part_modPart]
  split
  · rename_i hq; subst hq; simp [h]
  · exact h

theorem ringAll_ringing {s : State} {p : Nat} (h : (s.part p).ringing = some 4) (l : SMap Partition) :
    ((s.ringAll l).part p).ringing = some 4 := by
  induction l generalizing s with
  | nil => exact h
  | cons q rest ih => exact ih (ring_ringing h q.1 4)

theorem ringAll_rings {s : State} {p : Nat} {l : SMap Partition} (hp : p ∈ smKeys l) (hs : (s.part p).stopped = none)
    (hr : (s.part p).ringing = none) : ((s.ringAll l).part p).ringing = some 4 := by
  induction l generalizing s with
  | nil => cases hp
  | cons q rest ih =>
    by_cases hq : p = q.1
    · refine ringAll_ringing ?_ rest
      rw [hq] at hs hr ⊢
      rw [ring_clear s q.1 4 ⟨hs, hr⟩]
    · have hpart : (s.ring q.1 4).part p = s.part p := by rw [State.ring, State.part_modPart, if_neg hq]
      exact ih ((List.mem_cons.1 hp).resolve_left hq) (by rw [hpart]; exact hs) (by rw [hpart]; exact hr)

theorem mem_keys_live {s : State} {p die : Nat} (hd : die < 4) (hl : (s.part p).live = true) (hp : smHas s.parts p = true) :
    p ∈ smKeys (s.parts.filter fun q => q.2.live && die < 4) :=
  List.mem_map_of_mem (f := (·.1)) (List.mem_filter.2 ⟨mem_smGet hp {}, by rw [decide_eq_true hd, Bool.and_true]; exact hl⟩)

/-! ## What stands behind the slices (R163, R415) -/

theorem behindL2_clean {s : State} (h : ∀ l ∈ s.l2, l.2.back = none) : s.behindL2 = s.mem := by
  unfold State.behindL2
  generalize s.mem = m
  generalize s.l2 = l2 at h
  induction l2 with
  | nil => rfl
  | cons l rest ih =>
    rw [List.foldl_cons, h l List.mem_cons_self]
    exact ih fun e he => h e (List.mem_cons_of_mem _ he)

/-! ## Bring-up (R417) -/

/-- The retired pages marked in the map of a device that holds no partition. -/
theorem markAll_rest (l : List Retired) {u : State} (h : u.parts = []) :
    ∃ m c x, l.foldl (fun t r => t.markRetired r.page) u = { u with mem := m, clusters := c, texts := x } := by
  induction l generalizing u with
  | nil => exact ⟨u.mem, u.clusters, u.texts, rfl⟩
  | cons r rest ih =>
    obtain ⟨c, x, hw⟩ := writeRaw_bare u (retiredByte r.page) (u.mem.get (retiredByte r.page) ||| BitVec.ofNat 8 (2 ^ (r.page % 8))) h
    have hm : u.markRetired r.page = _ := hw
    obtain ⟨m, c', x', hr⟩ := ih (u := u.markRetired r.page) (by rw [hm]; exact h)
    exact ⟨m, c', x', by rw [List.foldl_cons, hr, hm]⟩

theorem mem_unwritable {s : State} {page : Nat} (h : page ∈ s.unwritable) : ∃ r ∈ s.retired, r.page = page := by
  obtain ⟨e, he, rfl⟩ := List.mem_map.1 h
  exact ⟨e.1, List.fst_mem_of_mem_zipIdx (List.mem_filter.1 he).1, rfl⟩

/-- The device at power-up, before its retired pages are marked (R417). -/
def State.poweredUp (s : State) : State :=
  { s.kept with
    powered := true, powerCycle := s.powerCycle + 1, firmware := s.flashImage, dead := s.unwritable
    freeIdx := s.freeIdx + s.retired.length, expanders := foundExpanders }

theorem bringUp_rest (s : State) : ∃ m c x h e, exec .bringUp s
    = .next { s.poweredUp with mem := m, clusters := c, texts := x, health := h, events := e } := by
  obtain ⟨m, c, x, hm⟩ := markAll_rest s.retired (u := s.poweredUp) rfl
  obtain ⟨h, e, hh⟩ := health_frame (s.retired.foldl (fun t r => t.markRetired r.page) s.poweredUp)
  exact ⟨m, c, x, h, e, congrArg Host.Outcome.next (hh.trans (by rw [hm]))⟩

/-! ## A device reset (R403) -/

/-- The device at a reset, before HEALTH is written: log entry 84 says what stands. -/
def State.wiped (s : State) : State :=
  { s.kept with
    mem := s.behindL2.filter fun c => inRetiredMap c.1 || (cxlBase ≤ c.1 && c.1 < sramBase)
    dead := s.dead, corrected := s.corrected, firmware := s.firmware, expanders := s.expanders, health := s.health }

theorem deviceReset_rest {s : State} (h : s.powered = true) : ∃ w e, exec .deviceReset s = .next { s.wiped with health := w, events := e } := by
  obtain ⟨w, e, hh⟩ := health_frame s.wiped
  exact ⟨w, e, congrArg Host.Outcome.next ((if_pos h).trans hh)⟩

/-- Settles O47: each event's state is written out; what a device reset keeps is log entry 84. -/
theorem powerAndFreeze : Obligations.PowerAndFreeze := by
  unfold Obligations.PowerAndFreeze
  intro s pa n image die
  refine ⟨⟨_, rfl, rfl, fun i => ?_⟩, ?_, rfl, fun hd => ?_, ⟨_, rfl, rfl, rfl, rfl, rfl, rfl, rfl⟩, behindL2_clean, ?_, fun hp => ?_⟩
  · have hcore : smGet (s.cores.map fun c => (c.1, c.2.mapCtxs Ctx.stop)) i.core {} = (s.core i.core).mapCtxs Ctx.stop :=
      smGet_map s.cores (Core.mapCtxs · Ctx.stop) i.core {} rfl
    exact (congrArg (Core.ctx · i.ctx) hcore).trans (Core.ctx_mapCtxs _ _ _ (stop_freshCtx i.ctx))
  · rcases Bool.eq_false_or_eq_true s.frozen with hf | hf
    · exact ⟨_, garfyReadout_frozen pa n hf, rfl, rfl, fun _ => ⟨rfl, rfl⟩, fun h => absurd (hf.symm.trans h) (by decide)⟩
    · exact ⟨_, garfyReadout_running pa n hf, rfl, rfl, fun h => absurd (hf.symm.trans h) (by decide), fun _ => ⟨rfl, rfl⟩⟩
  · let l := s.parts.filter fun q => q.2.live && die < 4
    obtain ⟨p, hrest⟩ := ringAll_rest s l
    refine ⟨(s.ringAll l).report ⟨6, none, 0, none⟩, rfl, onlyCtxs_of_eq ?_ ?_ ?_, ?_, fun p hl hp hs hr => ?_⟩
    · rw [hrest]; rfl
    · rw [hrest]; rfl
    · rw [hrest]; rfl
    · rw [hrest]; rfl
    · exact ringAll_rings (mem_keys_live hd hl hp) hs hr
  · obtain ⟨m, c, x, h, e, hup⟩ := bringUp_rest s
    exact ⟨_, hup, rfl, rfl, rfl, rfl, rfl, rfl, rfl, rfl, fun pg hpg => mem_unwritable hpg⟩
  · obtain ⟨w, e, hreset⟩ := deviceReset_rest hp
    exact ⟨_, hreset, rfl, rfl, rfl, rfl, rfl, rfl, rfl, rfl, rfl⟩

end Sys2Proof.Machine
end

section
/-! The management function: a command carried out, and a command refused. -/

namespace Sys2Proof.Machine

open Sys2Proof

/-! ## GO and the answer (R410) -/

/-- The state in which GO has started a command. -/
def State.mbStarted (s : State) (code : Nat) : State := { s with mbCommand := code, mbGo := true, mbVector := false }

/-- The answer of a command that was carried out. -/
def State.mbDone (t : State) : Prop := t.mbResult = 0 ∧ t.mbVector = true ∧ t.mbGo = false

theorem mgmt_done {s : State} (code : Nat) {c : Bool} (f : State → State) {P : State → Prop} (h : c = true)
    (hP : P ((f (s.mbStarted code)).endMgmt true)) : ∃ t, s.mgmt code c f = .next t ∧ t.mbDone ∧ P t :=
  ⟨_, congrArg Host.Outcome.next (if_pos h), ⟨rfl, rfl, rfl⟩, hP⟩

/-- A refused command answers with a RESULT that is not 0, and changes nothing else (R410). -/
def State.mbRefused (s t : State) : Prop := t.mbResult ≠ 0 ∧ t.mbVector = true ∧ t.mbGo = false ∧ t.parts = s.parts ∧ t.cores = s.cores ∧
  t.mem = s.mem ∧ t.images = s.images ∧ t.switchGroup = s.switchGroup

theorem mgmt_refused {s : State} (code : Nat) {c : Bool} (f : State → State) (h : c = false) :
    ∃ t, s.mgmt code c f = .next t ∧ s.mbRefused t :=
  ⟨_, congrArg Host.Outcome.next (if_neg (by rw [h]; decide)), by simp [State.endMgmt], rfl, rfl, rfl, rfl, rfl, rfl, rfl⟩

/-! ## CREATE and CONTINUE (R285, R391) -/

section
variable {s : State} {x : CreateArgs}

theorem part_createPartition : (s.createPartition x).part x.partid = createdPartition x := by
  unfold State.createPartition
  dsimp only
  rw [State.part, mapCores_parts]
  exact (State.part_modPart_same _ _ _)

theorem mem_createPartition : (s.createPartition x).mem = s.mem := mapCores_mem _ _ _

theorem core_createPartition {n : Nat} (h : n ∈ (createdPartition x).cores) : (s.createPartition x).core n
    = { startedCore x.partid (storedPtroot x.ptroot) (storedRvec x.rvec) with cycle := (s.core n).cycle } := by
  refine (mapCores_core _ x.partid (fun _ c => { startedCore x.partid _ _ with cycle := c.cycle }) (fun _ _ => rfl) n).trans (if_pos ?_)
  rw [State.part_modPart_same]
  exact h

end

section
variable {s : State} (p : Nat)

theorem part_continuePart : (s.continuePart p).part p = { s.part p with stopped := none } := by
  unfold State.continuePart
  rw [State.part_modPart_same, State.part, mapCores_parts]
  rfl

theorem mem_continuePart : (s.continuePart p).mem = s.mem := mapCores_mem _ _ _

theorem core_continuePart (n : Nat) :
    (s.continuePart p).core n = if n ∈ (s.part p).cores then (s.core n).mapCtxs Ctx.resume else s.core n :=
  mapCores_core s p (fun _ c => c.mapCtxs Ctx.resume) (fun _ c => mapCtxs_idem Ctx.resume resume_idem c) n

theorem ctx_continuePart {n : Nat} (hn : n ∈ (s.part p).cores) (k : Nat) : (s.continuePart p).ctx ⟨n, k⟩ = (s.ctx ⟨n, k⟩).resume :=
  (congrArg (Core.ctx · k) ((core_continuePart p n).trans (if_pos hn))).trans (Core.ctx_mapCtxs _ _ _ (resume_freshCtx k))

end

/-! ## SWITCH (R389, R392) -/

theorem part_startSwitch (s : State) (p area : Nat) : (s.startSwitch p area).part p = { s.part p with
    preempt := putBits (s.part p).preempt 63 1 0, switchTo := some area
    ringing := if (s.part p).stopped.isSome ∨ (s.part p).ringing.isSome then (s.part p).ringing else some 6 } := by
  unfold State.startSwitch State.ring
  rw [State.part_modPart_same, State.part_modPart_same]
  by_cases h : (s.part p).stopped.isSome ∨ (s.part p).ringing.isSome
  · rw [if_pos h, if_pos (by simpa using h)]
  · rw [if_neg h, if_neg (by simpa using h)]

/-! ## RESUME (R395) -/

theorem images_restoreImage (s : State) (im : Image) (col row : Nat) : (s.restoreImage im col row).images = s.images := by
  have hlines := foldl_keeps State.images (f := fun t (l : Nat × CLine) => t.keepLine l.1) fun t l => by
    obtain ⟨p, h⟩ := t.keepLine_spec l.1; rw [h]
  have haccs := foldl_keeps State.images (f := fun t (a : Nat × WideAcc) => t.keepAcc a.1) fun t a => by
    obtain ⟨p, h⟩ := t.keepAcc_spec a.1; rw [h]
  have hcores := fun (f : Nat × Nat → Core → Core) => foldl_keeps State.images (f := fun t e => t.modCore e.1 (f e)) (fun _ _ => rfl)
  have hclusters := fun (f : Nat × Nat → Cluster → Cluster) =>
    foldl_keeps State.images (f := fun t e => t.modCluster e.1 (f e)) (fun _ _ => rfl)
  exact (haccs _ _).trans ((hlines _ _).trans ((hclusters _ _ _).trans (hcores _ _ _)))

theorem images_resumeImage (s : State) (area : Nat) (im : Image) (col row : Nat) (h : im.part.fnReset = false) :
    (s.resumeImage area im col row).images = smErase s.images area := by
  unfold State.resumeImage
  dsimp only
  rw [h, if_neg Bool.false_ne_true]
  refine congrArg (smErase · area) ((foldl_keeps State.images (fun t c => (congrArg Prod.snd (tables_answerCwaits t c) :)) _ _).trans ?_)
  exact images_restoreImage s im col row

/-! ## The conditions of the commands -/

/-- DESTROY carried out (R410). -/
def State.destroyed (s : State) (p : Nat) : State :=
  if (s.part p).live then (s.resetPartition p).freePartition p
  else
    let s := s.resetReaches p
    { s with images := s.images.filter fun i => i.2.partid != p, paired := s.paired.filter fun r => r.2.part != p }

theorem destroyed_out {s : State} {p : Nat} (h : (s.part p).live = false) : s.destroyed p = { s.resetReaches p with
    images := (s.resetReaches p).images.filter fun i => i.2.partid != p
    paired := (s.resetReaches p).paired.filter fun r => r.2.part != p } := if_neg (by rw [h]; decide)

theorem execResume_found {s : State} {area : Nat} {im : Image} (h : s.images.find? (fun i => i.1 == area) = some (area, im)) (col row : Nat) :
    exec (.resume area col row) s = s.mgmt 4 (s.mayResume im col row) fun s => s.resumeImage area im col row := by
  show execResume area col row s = _
  unfold execResume
  rw [h]

theorem execResume_absent {s : State} {area : Nat} (h : s.images.find? (fun i => i.1 == area) = none) (col row : Nat) :
    exec (.resume area col row) s = s.mgmt 4 false id := by
  show execResume area col row s = _
  unfold execResume
  rw [h]

theorem not_switchable {s : State} {part area : Nat}
    (h : (s.part part).live = false ∨ (s.part part).switchTo ≠ none ∨ smHas s.images area = true) :
    ((s.part part).live && (s.part part).switchTo.isNone && !smHas s.images area) = false := by
  rcases h with h | h | h
  · simp [h]
  · simp [Option.isNone_eq_false_iff.2 (Option.isSome_iff_ne_none.2 h)]
  · simp [h]

/-- The partition stands stopped by a cause that CONTINUE ends (R391). -/
def Partition.continuable (q : Partition) : Bool := q.live && (match q.stopped with | some c => 1 ≤ c && c ≤ 4 | none => false)

theorem continuable_of {q : Partition} {c : Nat} (hl : q.live = true) (h : q.stopped = some c) (h1 : 1 ≤ c) (h4 : c ≤ 4) :
    q.continuable = true := by simp [Partition.continuable, hl, h, h1, h4]

theorem not_continuable {q : Partition} (h : q.live = false ∨ q.stopped = none ∨ q.stopped = some 5 ∨ q.stopped = some 6) :
    q.continuable = false := by
  rcases h with h | h | h | h <;> simp [Partition.continuable, h]

/-- Settles O48: each command's condition is decided, and `mgmt` carries it out or refuses it (log entries 77 and 112). -/
theorem managementCommands : Obligations.ManagementCommands := by
  unfold Obligations.ManagementCommands
  intro s x part area col row table im
  refine ⟨fun h => ?_, fun h => ?_, fun h ha => ?_, fun hl hs hi => ?_, fun hf hr => ?_, fun hl hc => ?_, fun c hl hs h1 h4 => ?_,
    fun hlen hall => ?_, fun e he => ?_⟩
  · exact mgmt_done 1 (·.createPartition x) h ⟨part_createPartition, mem_createPartition, fun n hn => core_createPartition hn⟩
  · exact mgmt_done 2 (·.destroyed part) (by simp [h]) (congrArg State.parts (if_pos h :))
  · refine mgmt_done 2 (·.destroyed part) (by simp [ha]) ?_
    rw [destroyed_out (s := s.mbStarted 2) h]
    exact fun i hi => by simpa using (List.mem_filter.1 hi).2
  · exact mgmt_done 3 (·.startSwitch part area) (by simp [hl, hs, hi]) (part_startSwitch (s.mbStarted 3) part area)
  · rw [execResume_found hf]
    exact mgmt_done 4 (·.resumeImage area im col row) hr ⟨rfl, images_resumeImage (s.mbStarted 4) area im col row⟩
  · exact mgmt_done 5 (·.ring part 4) hl (ring_clear (s.mbStarted 5) part 4 hc)
  · refine mgmt_done 6 (·.continuePart part) (continuable_of hl hs h1 h4) ⟨part_continuePart part, fun n hn k => ?_, fun n hn => ?_,
      mem_continuePart part⟩
    · exact ctx_continuePart (s := s.mbStarted 6) part hn k
    · exact (core_continuePart (s := s.mbStarted 6) part n).trans (if_neg hn)
  · exact mgmt_done 7 (fun s => { s with switchGroup := table }) (by simpa [hlen] using hall) rfl
  · simp only [List.mem_cons, List.not_mem_nil, or_false] at he
    rcases he with rfl | rfl | rfl | rfl | rfl | rfl | rfl <;> intro h
    · exact mgmt_refused 1 (·.createPartition x) h
    · exact mgmt_refused 2 (·.destroyed part) (by rw [h.1, h.2]; rfl)
    · exact mgmt_refused 3 (·.startSwitch part area) (not_switchable h)
    · rw [execResume_absent h]
      exact mgmt_refused 4 id rfl
    · exact mgmt_refused 5 (·.ring part 4) h
    · exact mgmt_refused 6 (·.continuePart part) (not_continuable h)
    · exact mgmt_refused 7 (fun s => { s with switchGroup := table }) (by rw [beq_false_of_ne h]; rfl)

end Sys2Proof.Machine
end

section
/-! Events of whole partitions: resets, the bell stop, rollback, pre-emption, and the gang switch. -/

namespace Sys2Proof.Machine

open Sys2Proof

/-! ## Resets (R287) -/

theorem requestReset_live {s : State} {p : Nat} (h : (s.part p).live = true) : s.requestReset p = s.resetPartition p := if_pos h

theorem requestReset_out {s : State} {p : Nat} (h : (s.part p).live = false) : s.requestReset p
    = { s with images := s.images.map fun i =>
        if i.2.partid = p then (i.1, { i.2 with part := { i.2.part with fnReset := true } }) else i } := if_neg (by rw [h]; decide)

/-- A partition's cores started again, and what firmware assigned written again (R287, step 8). -/
def State.restarted (v : State) (p : Nat) : State :=
  (v.mapCores p fun _ _ => startedCore p (v.part p).afterReset.initPtroot (v.part p).afterReset.rvec).modPart p fun _ => (v.part p).afterReset

theorem part_restarted (v : State) (p : Nat) : (v.restarted p).part p = (v.part p).afterReset := State.part_modPart_same _ _ _

theorem core_restarted (v : State) {p n : Nat} (h : n ∈ (v.part p).afterReset.cores) :
    (v.restarted p).core n = startedCore p (v.part p).afterReset.initPtroot (v.part p).afterReset.rvec :=
  (mapCores_core v p (fun _ _ => startedCore p (v.part p).afterReset.initPtroot (v.part p).afterReset.rvec) (fun _ _ => rfl) n).trans (if_pos h)

/-- The last steps of a reset. -/
theorem resetPartition_ends (s : State) (p : Nat) : ∃ (v : State) (l : Option Nat) (w : Word) (e : List HostEvent),
    s.resetPartition p = { v.restarted p with health := w, events := e ++ [⟨1, some p, 0, l⟩] } := by
  have h : ∃ (v : State) (l : Option Nat), s.resetPartition p = (v.restarted p).updateHealth.report ⟨1, some p, 0, l⟩ := ⟨_, _, rfl⟩
  obtain ⟨v, l, h⟩ := h
  obtain ⟨w, e, hh⟩ := health_frame (v.restarted p)
  exact ⟨v, l, w, e, h.trans (congrArg (State.report · _) hh)⟩

/-- A partition after its reset. -/
structure ResetDone (t : State) (p : Nat) : Prop where
  part : ∃ u : Partition, t.part p = u.afterReset
  core : ∀ n ∈ (t.part p).cores, t.core n = startedCore p (t.part p).initPtroot (t.part p).rvec
  event : ∃ l, t.events.getLast? = some ⟨1, some p, 0, l⟩

theorem resetPartition_done (s : State) (p : Nat) : ResetDone (s.resetPartition p) p := by
  obtain ⟨v, l, w, e, h⟩ := resetPartition_ends s p
  have hpart : (s.resetPartition p).part p = (v.part p).afterReset := by rw [h]; exact part_restarted v p
  refine ⟨⟨_, hpart⟩, fun n hn => ?_, l, by rw [h]; exact List.getLast?_concat⟩
  rw [hpart] at hn ⊢
  rw [h]
  exact core_restarted v hn

theorem mem_resetImages {s : State} {p : Nat} (h : (s.part p).live = false) (a : Nat) (i : Image) :
    (a, i) ∈ (s.requestReset p).images ↔ ∃ j, (a, j) ∈ s.images ∧
      i = if j.partid = p then { j with part := { j.part with fnReset := true } } else j := by
  rw [requestReset_out h]
  refine List.mem_map.trans ⟨?_, ?_⟩
  · rintro ⟨⟨b, j⟩, hj, he⟩
    by_cases hp : j.partid = p
    · rw [if_pos hp] at he
      obtain ⟨rfl, rfl⟩ := Prod.mk.inj he
      exact ⟨j, hj, by rw [if_pos hp]⟩
    · rw [if_neg hp] at he
      obtain ⟨rfl, rfl⟩ := Prod.mk.inj he
      exact ⟨_, hj, by rw [if_neg hp]⟩
  · rintro ⟨j, hj, rfl⟩
    exact ⟨(a, j), hj, by dsimp only; split <;> rfl⟩

/-! ## The bell stop (R389, R390) -/

/-- What a bell stop leaves. -/
structure Stopped (s t : State) (p c : Nat) : Prop where
  stopped : (t.part p).stopped = some c
  ringing : (t.part p).ringing = none
  cause : bits (t.part p).bell 8 4 = c % 16
  count : bits (t.part p).bell 16 32 = (bits (s.part p).bell 16 32 + 1) % 2 ^ 32
  events : t.events = s.events ++ [⟨5, some p, c, none⟩]
  life : ∀ n ∈ (s.part p).cores, ∀ k, (t.ctx ⟨n, k⟩).life = if (s.ctx ⟨n, k⟩).life = .live then .stopped else (s.ctx ⟨n, k⟩).life

theorem life_stop (c : Ctx) : c.stop.life = if c.life = .live then .stopped else c.life := by
  unfold Ctx.stop
  split <;> rfl

theorem ctx_mapCores_stop (u : State) {p n : Nat} (h : n ∈ (u.part p).cores) (k : Nat) :
    (u.mapCores p fun _ c => c.mapCtxs Ctx.stop).ctx ⟨n, k⟩ = (u.ctx ⟨n, k⟩).stop :=
  (congrArg (Core.ctx · k) ((mapCores_core u p _ (fun _ c => mapCtxs_idem Ctx.stop stop_idem c) n).trans (if_pos h))).trans
    (Core.ctx_mapCtxs _ _ _ (stop_freshCtx k))

/-- A partition that a stop has reached (R379, R389). -/
def Partition.stoppedFor (q : Partition) (c now : Nat) : Partition :=
  { q with bell := bellAfter q.bell c, stopped := some c, ringing := none, stopTime := now }

theorem stopFor_stops (s : State) (p : Nat) {c : Nat} (h2 : c ≠ 2) (h3 : c ≠ 3) : Stopped s (s.stopFor p c) p c := by
  obtain ⟨u, hu, w, hw, cl, ht⟩ := stop_spec s p c h2 h3
  have hpart : (s.stopFor p c).part p = (w.part p).stoppedFor c w.time := by
    rw [ht]; exact State.part_modPart_same w p (·.stoppedFor c w.time)
  have hmap : (u.mapCores p fun _ c => c.mapCtxs Ctx.stop).part p = u.part p := by rw [State.part, mapCores_parts]; rfl
  have hbell : (w.part p).bell = (s.part p).bell := by
    have hwu := hw.parts p
    rw [hmap] at hwu
    exact (congrArg Partition.bell (hwu.trans (hu.parts p)) :)
  obtain ⟨hcause, hcount⟩ := bits_bellAfter (w.part p).bell c
  refine ⟨by rw [hpart]; rfl, by rw [hpart]; rfl, by rw [hpart]; exact hcause, by rw [hpart, ← hbell]; exact hcount, ?_, fun n hn k => ?_⟩
  · obtain ⟨cores, hm⟩ := mapCores_rest u p fun _ c => c.mapCtxs Ctx.stop
    have hwu := hw.events
    rw [hm] at hwu
    rw [ht, ← hu.events]
    exact congrArg (· ++ [_]) hwu
  · have hlife : ((s.stopFor p c).ctx ⟨n, k⟩).life = (w.ctx ⟨n, k⟩).life := by rw [ht]; rfl
    rw [hlife, hw.life, ctx_mapCores_stop u (by rw [cores_of (hu.parts p)]; exact hn), life_stop, hu.life]

theorem bellStop_rings {s : State} {p c : Nat} (h : (s.part p).ringing = some c) (hl : (s.part p).live = true) :
    exec (.bellStop p) s = .next (s.stopFor p c) := by
  refine congrArg Host.Outcome.next (?_ : (match (s.part p).ringing with | some c => _ | none => s) = _)
  rw [h]
  exact if_pos hl

theorem bellStop_silent {s : State} {p : Nat} (h : (s.part p).ringing = none) : exec (.bellStop p) s = .next s := by
  refine congrArg Host.Outcome.next (?_ : (match (s.part p).ringing with | some c => _ | none => s) = _)
  rw [h]

/-! ## Barriers without arrivals -/

/-- No barrier of a partition's groups holds an arrival. -/
def NoBars (p : Nat) (s : State) : Prop := ∀ g ∈ (s.part p).groups, g.2.bars = []

/-- What holds of every entry and of the default holds of what is read. -/
theorem smGet_of_forall {α : Type} {P : α → Prop} {m : SMap α} {d : α} (hd : P d) (h : ∀ e ∈ m, P e.2) (k : Nat) : P (smGet m k d) := by
  induction m with
  | nil => exact hd
  | cons e rest ih =>
    unfold smGet
    split
    · exact h _ List.mem_cons_self
    · exact ih fun e he => h e (List.mem_cons_of_mem _ he)

theorem mem_smSet {α : Type} {m : SMap α} {k : Nat} {v : α} {e : Nat × α} (h : e ∈ smSet m k v) : e = (k, v) ∨ e ∈ m := by
  induction m with
  | nil => exact .inl (List.mem_singleton.1 h)
  | cons f rest ih =>
    unfold smSet at h
    split at h
    · exact (List.mem_cons.1 h).imp id (List.mem_cons_of_mem _)
    · split at h
      · exact List.mem_cons.1 h
      · rcases List.mem_cons.1 h with rfl | h
        · exact .inr List.mem_cons_self
        · exact (ih h).imp id (List.mem_cons_of_mem _)

theorem bars_setGroup {q : Partition} (h : ∀ g ∈ q.groups, g.2.bars = []) (g : Nat) {v : Group} (hv : v.bars = []) :
    ∀ e ∈ (q.setGroup g v).groups, e.2.bars = [] := by
  intro e he
  unfold Partition.setGroup at he
  dsimp only at he
  split at he
  · exact h e (List.mem_filter.1 he).1
  · rcases mem_smSet he with rfl | he
    · exact hv
    · exact h e he

section
variable {p : Nat} {s : State}

theorem NoBars.of_part {t : State} (h : NoBars p s) (hp : t.part p = s.part p) : NoBars p t := by rw [NoBars, hp]; exact h

theorem part_releaseAll (s : State) (l : List CtxId) : (s.releaseAll l).part p = s.part p :=
  foldl_keeps (fun t => t.part p) (f := fun t i => t.modCtx i Ctx.release) (fun _ _ => rfl) l s

theorem part_closeEpisode_other (s : State) {r : Nat} (h : p ≠ r) (g b : Nat) : (s.closeEpisode r g b).part p = s.part p := by
  unfold State.closeEpisode
  dsimp only
  split
  · rfl
  · split
    · exact (part_releaseAll _ _).trans ((State.part_modPart _ _ _ _).trans (if_neg h))
    · rfl

theorem part_depart_other (s : State) {r : Nat} (h : p ≠ r) (i : CtxId) (g : Nat) : (s.depart r i g).part p = s.part p :=
  (foldl_keeps (fun t => t.part p) (fun t b => part_closeEpisode_other t h g b) _ _).trans ((State.part_modPart _ _ _ _).trans (if_neg h))

theorem NoBars.depart (h : NoBars p s) (r : Nat) (i : CtxId) (g : Nat) : NoBars p (s.depart r i g) := by
  by_cases hr : p = r
  · subst hr
    have hidle : ((s.part p).group g).bars = [] := smGet_of_forall (P := fun v : Group => v.bars = []) rfl h g
    rw [depart_idle s p i g hidle, NoBars, State.part_modPart_same]
    exact bars_setGroup h g rfl
  · exact h.of_part (part_depart_other s hr i g)

theorem NoBars.departAll (h : NoBars p s) (i : CtxId) : NoBars p (s.departAll i) :=
  List.foldlRecOn (motive := NoBars p) _ _ h fun _ ht g _ => ht.depart _ i g

theorem NoBars.freeCtx (h : NoBars p s) (i : CtxId) : NoBars p (s.freeCtx i) :=
  (h.departAll i).of_part rfl

theorem NoBars.makeFree (h : NoBars p s) (i : CtxId) : NoBars p (s.makeFree i) := by
  unfold State.makeFree
  extract_lets a b
  have hb : NoBars p b := h.of_part rfl
  exact hb.freeCtx i

theorem parts_undoOne (s : State) (n : Nat) (u : Undo) : (s.undoOne n u).parts = s.parts := by
  unfold State.undoOne
  cases u <;> rfl

theorem NoBars.undoOne (h : NoBars p s) (n : Nat) (u : Undo) : NoBars p (s.undoOne n u) :=
  h.of_part (congrArg (fun m : SMap Partition => smGet m p {}) (parts_undoOne s n u))

theorem NoBars.rollbackCore (h : NoBars p s) (n : Nat) : NoBars p (s.rollbackCore n) := by
  unfold State.rollbackCore
  extract_lets a b c d
  have hb : NoBars p b := List.foldlRecOn (motive := NoBars p) _ _ h fun t ht k _ => ht.makeFree ⟨n, k⟩
  have hc : NoBars p c := List.foldlRecOn (motive := NoBars p) _ _ hb fun t ht u _ => ht.undoOne n u
  have hd : NoBars p d := by
    unfold d
    split
    · exact hc
    · exact hc
  exact hd

theorem noBars_withdraw (s : State) (p : Nat) : NoBars p (s.modPart p Partition.withdraw) := by
  intro g hg
  rw [State.part_modPart_same] at hg
  obtain ⟨e, _, rfl⟩ := List.mem_map.1 hg
  rfl

end

/-! ## Rollback (R397 to R399) -/

theorem rollBack_ends (s : State) (p : Nat) : ∃ u, NoBars p u ∧
    s.rollBack p = u.modPart p fun q => { q with stepctl := rolledStepctl q.stepctl, stopped := none } := by
  unfold State.rollBack
  extract_lets a cores b c d e
  refine ⟨e, ?_, rfl⟩
  have hd : NoBars p d := List.foldlRecOn (motive := NoBars p) _ _ (noBars_withdraw b p) fun t ht n _ => ht.rollbackCore n
  exact hd

theorem rollBack_clears (s : State) (p : Nat) : ((s.rollBack p).part p).stopped = none ∧ NoBars p (s.rollBack p) := by
  obtain ⟨u, hu, h⟩ := rollBack_ends s p
  rw [h, NoBars, State.part_modPart_same]
  exact ⟨rfl, hu⟩

section
variable {s : State} {p : Nat}

/-- The conditions under which a rollback is performed (R397). -/
def Partition.rollsBack (q : Partition) : Bool := q.live && q.mode && q.stopped.isNone && q.ringing.isNone

theorem rollback_escalates (h : (s.part p).rollsBack = true) (hn : 2 ≤ bits (s.part p).stepctl 8 2) :
    exec (.rollback p) s = .next (s.ring p 3) := congrArg Host.Outcome.next ((if_pos h).trans (if_pos hn))

theorem rollback_rolls (h : (s.part p).rollsBack = true) (hn : bits (s.part p).stepctl 8 2 < 2) :
    exec (.rollback p) s = .next (s.rollBack p) := congrArg Host.Outcome.next ((if_pos h).trans (if_neg (Nat.not_le.2 hn)))

theorem rollback_idle (h : (s.part p).rollsBack = false) : exec (.rollback p) s = .next s :=
  congrArg Host.Outcome.next (if_neg (by rw [Partition.rollsBack] at h; rw [h]; decide))

end

/-! ## Pre-emption and the gang switch (R392 to R394) -/

theorem onlyCtxs_startSwitch (s : State) (p area : Nat) : OnlyCtxs s (s.startSwitch p area) [] := onlyCtxs_of_eq rfl rfl rfl

theorem preemptExpiry_due {s : State} {p : Nat} (h : s.preemptDue p = true) : exec (.preemptExpiry p) s = .next (s.startSwitch p s.freeArea) :=
  congrArg Host.Outcome.next (if_pos h)

theorem preemptExpiry_idle {s : State} {p : Nat} (h : s.preemptDue p = false) : exec (.preemptExpiry p) s = .next s :=
  congrArg Host.Outcome.next (if_neg (by rw [h]; decide))

/-- The values that the supersteps of the other partitions read at the homes that leave with a partition, kept (R393). -/
def State.homesKept (s : State) (p : Nat) : State :=
  let t := (s.linesAlong p).foldl (fun s l => s.keepLine l.1) s
  (t.accsAlong p).foldl (fun s a => s.keepAcc a.1) t

theorem access_homesKept (s : State) (p : Nat) : Access s (s.homesKept p) := by
  have hlines := List.foldlRecOn (motive := Access s) (s.linesAlong p) (fun s l => s.keepLine l.1) (.refl s)
    fun t ht l _ => ht.trans (access_keepLine t l.1)
  exact List.foldlRecOn (motive := Access s) _ (fun s (a : Nat × WideAcc) => s.keepAcc a.1) hlines
    fun t ht a _ => ht.trans (access_keepAcc t a.1)

theorem cores_homesKept (s : State) (p : Nat) : (s.homesKept p).cores = s.cores := by
  have hlines := foldl_keeps State.cores (f := fun t (l : Nat × CLine) => t.keepLine l.1) fun t l => by
    obtain ⟨q, h⟩ := t.keepLine_spec l.1; rw [h]
  have haccs := foldl_keeps State.cores (f := fun t (a : Nat × WideAcc) => t.keepAcc a.1) fun t a => by
    obtain ⟨q, h⟩ := t.keepAcc_spec a.1; rw [h]
  exact (haccs _ _).trans (hlines _ _)

/-- A vacated core: its CYCLE holds (R353, log entry 110). -/
def vacated (own : List Nat) (n : Nat) (c : Core) : Core := if own.contains n then { cycle := c.cycle } else c

theorem vacate_ends (u : State) (p : Nat) : ∃ m cl l a c x r, u.vacate p = { u.homesKept p with
    cores := (u.homesKept p).cores.map fun e => (e.1, vacated (u.part p).cores e.1 e.2)
    parts := smErase (u.homesKept p).parts p
    mem := m, clusters := cl, lines := l, accs := a, closed := c, texts := x, paired := r } := by
  have hcore : ∀ own : List Nat, (fun c : Nat × Core => if own.contains c.1 then (c.1, ({ cycle := c.2.cycle } : Core)) else c)
      = fun c => (c.1, vacated own c.1 c.2) := fun own => funext fun c => by unfold vacated; split <;> rfl
  obtain ⟨cl, h⟩ := mapClusters_rest ((u.homesKept p).zeroScratch p) p Cluster.left
  have hv : ∃ l a c x r, u.vacate p = { ((u.homesKept p).zeroScratch p).mapClusters p Cluster.left with
    cores := (((u.homesKept p).zeroScratch p).mapClusters p Cluster.left).cores.map fun c =>
      if (u.part p).cores.contains c.1 then (c.1, ({ cycle := c.2.cycle } : Core)) else c
    parts := smErase (((u.homesKept p).zeroScratch p).mapClusters p Cluster.left).parts p
    lines := l, accs := a, closed := c, texts := x, paired := r } := ⟨_, _, _, _, _, rfl⟩
  obtain ⟨l, a, c, x, r, hv⟩ := hv
  exact ⟨_, cl, l, a, c, x, r, hv.trans (by rw [h, hcore]; rfl)⟩

section
variable (u : State) (p : Nat)

theorem images_vacate : (u.vacate p).images = u.images := by
  obtain ⟨m, cl, l, a, c, x, r, h⟩ := vacate_ends u p
  rw [h]
  exact (congrArg State.images (access_homesKept u p).frame.device :)

theorem part_vacate_other {q : Nat} (hq : q ≠ p) : ((u.vacate p).part q).besidesAccess = (u.part q).besidesAccess := by
  obtain ⟨m, cl, l, a, c, x, r, h⟩ := vacate_ends u p
  have hpart : (u.vacate p).part q = (u.homesKept p).part q := by rw [h]; exact smGet_erase_other _ _ _ _ hq
  rw [hpart, (access_homesKept u p).frame.parts]

theorem core_vacate {n : Nat} (hn : n ∈ (u.part p).cores) : (u.vacate p).core n = { cycle := (u.core n).cycle } := by
  obtain ⟨m, cl, l, a, c, x, r, h⟩ := vacate_ends u p
  have hown : (u.part p).cores.contains n = true := by simpa using hn
  have hcore : (u.vacate p).core n = vacated (u.part p).cores n ((u.homesKept p).core n) := by
    rw [h]
    exact smGet_mapKey (u.homesKept p).cores (vacated (u.part p).cores) n (by unfold vacated; split <;> rfl)
  rw [hcore, vacated, hown, if_pos rfl, State.core, State.core, cores_homesKept]

end

/-- A settled partition switched out: its image lies in its area (R393). -/
def State.switchedOut (u : State) (p area : Nat) : State := { u.vacate p with images := smSet (u.vacate p).images area (u.image p) }

theorem images_switchedOut (u : State) (p area : Nat) : (u.switchedOut p area).images = smSet u.images area (u.image p) :=
  congrArg (fun m : SMap Image => smSet m area (u.image p)) (images_vacate u p)

theorem part_switchedOut (u : State) {p q : Nat} (area : Nat) (hq : q ≠ p) :
    ((u.switchedOut p area).part q).besidesAccess = (u.part q).besidesAccess := part_vacate_other u p hq

theorem core_switchedOut (u : State) {p n : Nat} (area : Nat) (hn : n ∈ (u.part p).cores) :
    (u.switchedOut p area).core n = { cycle := (u.core n).cycle } := core_vacate u p hn

theorem image_names (u : State) (p : Nat) : (u.image p).partid = p ∧ (u.image p).part = u.part p := ⟨rfl, rfl⟩

theorem gangSwitch_leaves {s : State} {p area : Nat} (h : (s.part p).switchTo = some area) (hl : (s.part p).live = true)
    (hs : (s.part p).stopped ≠ none) : exec (.gangSwitch p) s = .next ((s.settleForSwitch p).switchedOut p area) := by
  refine congrArg Host.Outcome.next (?_ : (match (s.part p).switchTo with | none => s | some area => _) = _)
  rw [h]
  exact if_pos (by rw [hl, Option.isSome_iff_ne_none.2 hs]; rfl)

/-- Settles O49, event by event: a switched-out partition's reset waits in its image (log entry 76), a stop through `stopFor_stops`, a
rollback without arrivals through `NoBars` (log entry 81), a pre-emption to a free area (78), and a switch through `vacate` (110). -/
theorem partitionEvents : Obligations.PartitionEvents := by
  unfold Obligations.PartitionEvents
  intro s part area c
  refine ⟨fun e he => ?_, fun hr hl h2 h3 => ?_, bellStop_silent, fun hl hm hs hr => ?_, fun h => ?_, fun hl hs ha ht => ?_, fun h => ?_,
    fun ha hl hs => ?_⟩
  · have hexec : exec e s = .next (s.requestReset part) := by
      rcases List.mem_pair.1 he with rfl | rfl <;> rfl
    refine ⟨fun hl => ⟨_, hexec, ?_⟩, fun hl => ⟨_, hexec, ?_⟩⟩
    · rw [requestReset_live hl]
      obtain ⟨hpart, hcore, hevent⟩ := resetPartition_done s part
      exact ⟨hpart, hcore, hevent⟩
    · exact ⟨by rw [requestReset_out hl], by rw [requestReset_out hl], by rw [requestReset_out hl], mem_resetImages hl⟩
  · obtain ⟨hstopped, hringing, hcause, hcount, hevents, hlife⟩ := stopFor_stops s part h2 h3
    exact ⟨_, bellStop_rings hr hl, hstopped, hringing, hcause, hcount, hevents, hlife⟩
  · have hrolls : (s.part part).rollsBack = true := by simp [Partition.rollsBack, hl, hm, hs, hr]
    refine ⟨fun hn => ⟨_, rollback_escalates hrolls hn, onlyCtxs_of_eq rfl rfl rfl, ring_clear s part 3 ⟨hs, hr⟩⟩, fun hn =>
      ⟨_, rollback_rolls hrolls hn, rollBack_clears s part⟩⟩
  · refine rollback_idle ?_
    rcases h with h | h | h | h
    · simp [Partition.rollsBack, h]
    · simp [Partition.rollsBack, h]
    · simp [Partition.rollsBack, Option.isNone_eq_false_iff.2 (Option.isSome_iff_ne_none.2 h)]
    · simp [Partition.rollsBack, Option.isNone_eq_false_iff.2 (Option.isSome_iff_ne_none.2 h)]
  · have hdue : s.preemptDue part = true := by simp [State.preemptDue, hl, hs, ha, ht]
    exact ⟨_, preemptExpiry_due hdue, onlyCtxs_startSwitch s part _, part_startSwitch s part _⟩
  · refine preemptExpiry_idle ?_
    rcases h with h | h
    · rw [State.preemptDue, h, Bool.and_false, Bool.false_and]
    · rw [State.preemptDue, decide_eq_false (Nat.not_le.2 h), Bool.and_false]
  · obtain ⟨hpartid, hpart⟩ := image_names (s.settleForSwitch part) part
    exact ⟨_, _, gangSwitch_leaves ha hl hs, rfl, images_switchedOut _ part area, fun p hp => part_switchedOut _ area hp, hpartid, hpart,
      fun n hn => core_switchedOut _ area hn⟩

end Sys2Proof.Machine
end
